-- ==== Sys2Proof/Word.lean ====
section
/-! DEFINITION. Words, bytes and the sparse tables that hold every array of the machine.

A table lists only the entries that differ from its default (the reset value of the array's element), with
its keys strictly rising, so that equal tables are equal data. -/

namespace Sys2Proof

/-- The smallest addressable unit (R7). -/
abbrev Byte := BitVec 8

/-- A sparse array: (index, element) pairs, see `Tab.wf`. -/
abbrev Tab (α : Type) := List (Nat × α)

namespace Tab

variable {α : Type}

/-- The element at `k`; an index that is not listed holds the default `d`. -/
def get (d : α) : Tab α → Nat → α
  | [], _ => d
  | (i, v) :: t, k => if k = i then v else get d t k

/-- List `v` at `k`, before the first larger key. -/
def ins : Tab α → Nat → α → Tab α
  | [], k, v => [(k, v)]
  | (i, w) :: t, k, v => if k < i then (k, v) :: (i, w) :: t else (i, w) :: ins t k v

/-- Write `v` at `k`, keeping the canonical form. -/
def set [DecidableEq α] (d : α) (t : Tab α) (k : Nat) (v : α) : Tab α :=
  let r := t.filter (fun e => decide (e.1 ≠ k))
  if v = d then r else ins r k v

/-- Change the element at `k`. -/
def upd [DecidableEq α] (d : α) (t : Tab α) (k : Nat) (f : α → α) : Tab α :=
  set d t k (f (get d t k))

/-- Every listed key is above `b`, keys rise strictly, and no listed element is the default. -/
def wfAbove [DecidableEq α] (d : α) : Option Nat → Tab α → Bool
  | _, [] => true
  | b, (i, v) :: t =>
    (match b with | none => true | some j => decide (j < i)) && decide (v ≠ d) && wfAbove d (some i) t

/-- The canonical form of a table. -/
def wf [DecidableEq α] (d : α) (t : Tab α) : Bool := wfAbove d none t

/-- The listed element at `k`, for a table whose elements have no default. -/
def look : Tab α → Nat → Option α
  | [], _ => none
  | (i, v) :: t, k => if k = i then some v else look t k

/-- List `v` at `k`, in place of what stood there. -/
def put : Tab α → Nat → α → Tab α
  | [], k, v => [(k, v)]
  | (i, w) :: t, k, v =>
    if k < i then (k, v) :: (i, w) :: t else if k = i then (k, v) :: t else (i, w) :: put t k v

/-- Forget every listed entry whose key satisfies `p` (those entries return to the default). -/
def drop (p : Nat → Bool) (t : Tab α) : Tab α := t.filter (fun e => !p e.1)

end Tab

end Sys2Proof
end

