-- ==== Sys2Proof/Syntax.lean ====
section
/-! DEFINITION. The commands of the GX4: one constructor of `Instr` for every row of spec/opcode_table.json.
The table gives its rows no operands, so the operands are the ones the row's home rule names. -/

namespace Sys2Proof

/-- A compute die CDk, k = 0 to 3 (R4). -/
abbrev Die := Fin 4

/-- Who makes an access (R8, R59, R230, R508). -/
inductive Initiator where
  | core (c : Fin 32)               -- application core ACc
  | reeve                           -- Reeve main core
  | deputy (k : Fin 4) (j : Fin 2)  -- Reeve deputy j of die k
  | kcp                             -- the KCP endpoint of the IOD
  | thresher (e : Fin 16)
  | carder (e : Fin 8)
  | blocker (k : Fin 4)
  | gleaner (k : Fin 4) (g : Fin 8)
  | kvWalker (k : Fin 4)
  | ingest
  | vault
  deriving DecidableEq, Repr

/-- SIZE of Table 1-4. -/
inductive AccSize where
  | b4 | b8 | b16 | b32 | b64
  deriving DecidableEq, Repr

def AccSize.bytes : AccSize → Nat
  | .b4 => 4 | .b8 => 8 | .b16 => 16 | .b32 => 32 | .b64 => 64

/-- The virtual side of a core's access: satp of the core and the virtual address (R333, R344). No row writes satp, so an access
brings it. -/
structure CoreVirt where
  satp : BitVec 64
  va   : BitVec 64
  deriving DecidableEq, Repr

/-- Header fields of a fabric request as its initiator gives them (R21); `virt`: the access of a core that its MMU translates,
whose ADDR is then what the translation gives (R344). -/
structure FabReq where
  src  : Initiator
  tag  : BitVec 12
  addr : BitVec 40
  size : AccSize
  sc   : Fin 4
  ctx  : Fin 64
  part : Fin 8
  gen  : BitVec 8
  virt : Option CoreVirt
  deriving DecidableEq, Repr

/-- The header fields of a register write beside ADDR and SIZE (R21, Table 1-4). -/
structure RegHdr where
  src  : Initiator
  tag  : BitVec 12
  sc   : Fin 4
  ctx  : Fin 64
  part : Fin 8
  gen  : BitVec 8
  virt : Option CoreVirt
  deriving DecidableEq, Repr

/-- The request that a register write of 4 or 8 bytes is (R22). -/
def RegHdr.req (h : RegHdr) (addr : BitVec 40) (wide : Bool) : FabReq :=
  { src := h.src, tag := h.tag, addr := addr, size := if wide then .b8 else .b4, sc := h.sc, ctx := h.ctx, part := h.part, gen := h.gen,
    virt := h.virt }

/-- A load by which a core asks for a line: an instruction fetch, a load, or a load-reserved (R333, R341). -/
inductive CoreLoad where
  | fetch | load | lr
  deriving DecidableEq, Repr

/-- A store by which a core asks for a line: byte offset in the line and bytes (R341). -/
structure CoreStore where
  off  : BitVec 6
  data : List Byte
  deriving DecidableEq, Repr

/-- The line of a GET_S and the load it is for; of a GET_M or an UPGRADE and the store. -/
structure LineLoad where
  line : BitVec 34
  load : CoreLoad
  deriving DecidableEq, Repr

structure LineStore where
  line  : BitVec 34
  store : CoreStore
  deriving DecidableEq, Repr

/-- What the checkers of an engine, Carder or Blocker have found by the end of a sheaf: errors corrected in its parts, and the
first uncorrected one, class 0x02 or, of a residue, lane or pipe checker, 0x03 (R164, R184, R205, R285). -/
structure PartErr where
  corrected : Nat
  failed    : Option Bool      -- some false: class 0x02, some true: class 0x03
  deriving DecidableEq, Repr

/-- What the ECC of an island's shared memory reports for an access (R347, R349). -/
inductive SramEcc where
  | clean | corrected | uncorrectable
  deriving DecidableEq, Repr

/-- The end of the sheaf on a unit, with what the checkers of its parts have found. -/
structure UnitEnd where
  unit  : Fin 28
  parts : PartErr
  deriving DecidableEq, Repr

/-- The end of a slot's background work: by itself, or because Servik firmware on a deputy fails (R79). -/
structure WorkEnd where
  slot  : Fin 16
  fault : Option (Fin 8)
  deriving DecidableEq, Repr

/-- The atomic operations of R22. -/
inductive AtomicOp where
  | swap | add | cas
  deriving DecidableEq, Repr

/-- What every mailbox command carries besides its arguments: the slot it is issued in and the header
fields of its body (Table 3-6). -/
structure CmdHdr where
  slot       : Fin 16
  seq        : BitVec 16
  atEpoch    : Bool
  target     : BitVec 64
  respOffset : BitVec 32
  deriving DecidableEq, Repr

/-- Source address and length of a command's data (Table 3-10). -/
structure Source where
  addr : BitVec 64
  len  : BitVec 32
  deriving DecidableEq, Repr

/-- A transaction of a lockstep core (R348). -/
structure Txn where
  kind  : BitVec 4          -- 0 memory read, 1 memory write, 2 register access, 3 exchange poll
  addr  : BitVec 32
  size  : BitVec 3
  be    : BitVec 4
  data  : BitVec 32
  deriving DecidableEq, Repr

/-- A transaction as it meets the island's shared memory. -/
structure TxnAt where
  txn : Txn
  ecc : SramEcc
  deriving DecidableEq, Repr

/-- The inputs of the exchange unit, in the order in which inputs released in one tick are queued (R350). -/
inductive ExchKind where
  | stageEvent | challenge | openReq | fallback | role | goldenReport | stestReport
  deriving DecidableEq, Repr

/-- One input of the exchange unit: its kind and what it carries. -/
structure ExchInput where
  kind : ExchKind
  data : List Nat
  deriving DecidableEq, Repr

/-- A unit offered to a stream's channels (R303, R304, R306). -/
inductive IngUnit where
  | short (vc : Fin 16) (dt : BitVec 6) (data : BitVec 16)                      -- CSI-2 short packet
  | long  (vc : Fin 16) (dt : BitVec 6) (payload : List Byte) (crcOk : Bool)    -- CSI-2 long packet
  | badHeader                                                                   -- uncorrectable packet header
  | eth   (ethertype : BitVec 16) (vid : BitVec 12) (body : List Byte)          -- frame after its Ethertype
  deriving DecidableEq, Repr

/-- An Ethernet frame at the switch (R318, R319); `len` includes the FCS. -/
structure SwFrame where
  dst       : BitVec 48
  src       : BitVec 48
  vid       : Option (BitVec 12)   -- none: untagged
  pcp       : BitVec 3
  ethertype : BitVec 16
  len       : Nat
  fcsOk     : Bool
  body      : List Byte            -- the bytes after the Ethertype, without the FCS
  deriving DecidableEq, Repr

/-- A Denpa message (Table 19-5). -/
inductive DMsg where
  | credit (ch : BitVec 8) (frames : BitVec 32)
  | ident (serial : BitVec 64) (rev : BitVec 8) (ifVer : BitVec 8)
  | roleHb (pstate : BitVec 8) (canCmd : Bool) (term : BitVec 8) (opened decided configGen : BitVec 64)
  | openMsg (epoch : BitVec 64) (deadline : BitVec 32) (paired first : Bool) (apply : List (BitVec 8 × BitVec 16))
  | resign (cause : BitVec 8) (first : BitVec 64)
  | expel (epoch : BitVec 64)
  | tag (stream chan : BitVec 8) (tag : BitVec 64)
  | cfg (slot : BitVec 8) (body : List Byte) (dataLen : BitVec 64)
  | cfgAck (slot code : BitVec 8) (seq : BitVec 16) (detail : BitVec 32)
  | input (epoch : BitVec 64) (count : BitVec 32) (digest : List Byte)
  | digest (epoch : BitVec 64) (whole : Bool) (withhold : BitVec 32) (digest : List Byte)
  | digestAck (epoch : BitVec 64)
  | evidence (epoch : BitVec 64) (word : BitVec 8)
  | progress (epoch : BitVec 64) (p : BitVec 8)
  | joinReq (configGen : BitVec 64)
  | joinImage (offset total : BitVec 32) (part : List Byte)
  | joinDone (last : BitVec 64)
  | fwdUnit (stream chan : BitVec 8) (unit : IngUnit)
  | fwdBegin (stream chan : BitVec 8) (tag : BitVec 64) (arrive : BitVec 32)
  | fwdClose (stream chan cause : BitVec 8) (epoch : BitVec 64)
  | cfgData (addr : BitVec 40) (data : List Byte)
  deriving DecidableEq, Repr

/-- A Denpa frame (Table 19-2). -/
structure DFrame where
  ch      : BitVec 4
  fseq    : BitVec 12
  ackSeq  : BitVec 12
  nak     : Bool
  payload : List Byte
  crc     : BitVec 32
  deriving DecidableEq, Repr

/-- What the stack reports for a read burst (Table 12-7). -/
inductive BurstResult where
  | sev0 | sev1 | sev2 | sev3
  | parity (third : Bool)   -- a parity error; `third`: on the third try
  deriving DecidableEq, Repr

/-- The commands of the GX4. -/
inductive Instr where
  -- mailbox commands (Table 3-10)
  | ping (h : CmdHdr)
  | getInfo (h : CmdHdr)
  | getJournal (h : CmdHdr)
  | epochOpen (h : CmdHdr) (deadline : BitVec 32)
  | epochSchedule (h : CmdHdr) (mode : Byte) (period : BitVec 32) (trigger : Byte) (deadline : BitVec 32)
  | epochHalt (h : CmdHdr)
  | recordSchedule (h : CmdHdr) (mask : BitVec 32) (every : BitVec 16) (destMask : BitVec 32)
  | contextCreate (h : CmdHdr) (ctx part sc : Byte) (base len : BitVec 64)
  | contextDestroy (h : CmdHdr) (ctx : Byte)
  | graphLoad (h : CmdHdr) (ctx : Byte) (src : Source) (sha : BitVec 384)
  | graphStart (h : CmdHdr) (ctx : Byte)
  | graphStop (h : CmdHdr) (ctx : Byte)
  | opcTableWrite (h : CmdHdr) (die : Byte) (levels : List (BitVec 32 × BitVec 32))
  | opcLevelSet (h : CmdHdr) (die level : Byte)
  | throttleTableWrite (h : CmdHdr) (die : Byte) (src : Source)
  | wdgConfig (h : CmdHdr) (stage : Byte) (cfg : BitVec 512)
  | ingestTableWrite (h : CmdHdr) (stream : Byte) (src : Source)
  | switchTableWrite (h : CmdHdr) (table : Byte) (src : Source)
  | bandwidthSet (h : CmdHdr) (part : Byte) (hbm fabric : BitVec 32)
  | roleSwap (h : CmdHdr)
  | rehearsalSet (h : CmdHdr) (interval : BitVec 32) (mask : Byte)
  | attest (h : CmdHdr) (nonce : BitVec 256)
  | keyInstall (h : CmdHdr) (place : Byte) (src : Source)
  | weightDecrypt (h : CmdHdr) (place : Byte) (src dst len : BitVec 64)
  | resetUnit (h : CmdHdr) (kind index : Byte)
  | mapOut (h : CmdHdr) (kind index : Byte)
  | fallbackRequest (h : CmdHdr) (reason : Byte)
  | fallbackClear (h : CmdHdr)
  | shutdown (h : CmdHdr)
  -- mailbox block and Reeve
  | mbxDoorbellWrite (w : Initiator) (v : BitVec 32)
  | mbxReleaseWrite (w : Initiator) (v : BitVec 32)
  | mbxStickyClear (w : Initiator) (v : BitVec 32)
  | slotBodyWrite (w : Initiator) (slot : Fin 16) (off : Fin 256) (data : List Byte)
  | slotTake
  | backgroundWorkEnd (e : WorkEnd)
  | backgroundLimitExpiry (slot : Fin 16)
  -- epochs and ledger
  | scheduleTick
  | epochOpenEvent
  | epochDeadlineExpiry (n : BitVec 64)
  | epochDigestComputed (n : BitVec 64)
  | epochPublish (n : BitVec 64)
  | tlySelLoWrite (w : Initiator) (win : Fin 4) (v : BitVec 32)
  | tlySnapshotCopyDone (win : Fin 4)
  | tlyLoRead (w : Initiator) (which : Fin 3)      -- 0 LATEST, 1 OLDEST, 2 OPENED
  | wdgTickLoRead (w : Initiator)
  | blkMapEpochLoRead (w : Initiator) (k : Die) (m : Fin 4)
  | registerWrite (w : RegHdr) (addr : BitVec 40) (wide : Bool) (v : BitVec 64)
  -- sheaves; units 0-15 TE, 16-23 CE, 24-27 BP
  | sheafStart (u : Fin 28)
  | steal (thief : Fin 24)
  | sheafEnd (u : UnitEnd)
  | gemm (e : Fin 16)
  | igemm (e : Fin 16)
  | gemmWActivation (e : Fin 16)
  | program (e : Fin 8)
  | depthwise (e : Fin 8)
  -- Carder instructions (Tables 9-3 and 9-4), issued on Carder e
  | cNop (e : Fin 8)
  | cEnd (e : Fin 8)
  | cLoop (e : Fin 8) (count : BitVec 16) (body : BitVec 10)
  | seta (e : Fin 8) (ar : BitVec 3) (v : BitVec 14)
  | sets (e : Fin 8) (sd : BitVec 4) (v : BitVec 22)
  | spar (e : Fin 8) (sd : BitVec 4) (index : BitVec 12)
  | cFence (e : Fin 8)
  | xld (e : Fin 8) (slot ar : BitVec 3) (ss : BitVec 4) (len : BitVec 16)
  | xst (e : Fin 8) (slot ar : BitVec 3) (ss : BitVec 4) (len : BitVec 16)
  | transferEnd (e : Fin 8) (index : Nat)
  | gather (e : Fin 8) (vd va : BitVec 5) (slot : BitVec 3) (ss : BitVec 4) (km : BitVec 3)
  | scatter (e : Fin 8) (vs va : BitVec 5) (slot : BitVec 3) (ss : BitVec 4) (km : BitVec 3)
  | ld (e : Fin 8) (vd : BitVec 5) (fmt : BitVec 4) (ar : BitVec 3) (inc : Bool) (km : BitVec 3) (off : BitVec 10)
  | st (e : Fin 8) (vs : BitVec 5) (fmt : BitVec 4) (ar : BitVec 3) (rnd : BitVec 2) (sat : Bool) (q : BitVec 4)
      (inc : Bool) (off : BitVec 6)
  | valuF (e : Fin 8) (vd va vb : BitVec 5) (km : BitVec 3) (fn : Byte)
  | valuI (e : Fin 8) (vd va vb : BitVec 5) (km : BitVec 3) (fn : Byte)
  | vcmpF (e : Fin 8) (vd va vb : BitVec 5) (km : BitVec 3) (fn : Byte)
  | vcmpI (e : Fin 8) (vd va vb : BitVec 5) (km : BitVec 3) (fn : Byte)
  | vsel (e : Fin 8) (vd va vb : BitVec 5) (km : BitVec 3) (fn : Byte)
  | kop (e : Fin 8) (vd va vb : BitVec 5) (km : BitVec 3) (fn : Byte)
  | vfunc (e : Fin 8) (vd va vb : BitVec 5) (km : BitVec 3) (fn : Byte)
  | vred (e : Fin 8) (vd va vb : BitVec 5) (km : BitVec 3) (fn : Byte)
  | vtsum (e : Fin 8) (vd va vb : BitVec 5) (km : BitVec 3) (fn : Byte)
  | vperm (e : Fin 8) (vd va vb : BitVec 5) (km : BitVec 3) (fn : Byte)
  | vcmpx (e : Fin 8) (vd va vb : BitVec 5) (km : BitVec 3) (fn : Byte)
  | win (e : Fin 8) (vd va vb : BitVec 5) (km : BitVec 3) (fn : Byte)
  -- Blocker operations
  | seed (k : Die)
  | optimise (k : Die)
  | check (k : Die)
  | select (k : Die)
  | commit (k : Die)
  | checkList (k : Die)
  | blkMapCommitWrite (w : Initiator) (k : Die) (m : Fin 4) (wide : Bool) (v : BitVec 64)
  | blkMapEnable (w : Initiator) (k : Die) (m : Fin 4) (v : BitVec 32)
  -- core gates
  | gateEntryOpen (ctx : Fin 64) (node : Nat)
  | eqDoorbell (w : Initiator) (e : Fin 24) (wide : Bool) (v : BitVec 64)
  | eqGateDone (w : Initiator) (k : Die) (v : BitVec 32)
  -- fabric
  | hbmRegulatorWindow (k : Die)
  | fabricRead (r : FabReq)
  | fabricPostedWrite (r : FabReq) (data : List Byte)
  | fabricAckWrite (r : FabReq) (data : List Byte)
  | fabricAtomic (r : FabReq) (op : AtomicOp) (operand compare : BitVec 64)
  | fabricReply (src : Initiator) (tag : BitVec 12) (gen : BitVec 8)
  | trackerAdmit (k : Die)
  -- coherence; requests of a core, clusters 0-7, addresses of lines
  | getS (c : Fin 32) (l : LineLoad)
  | getM (c : Fin 32) (l : LineStore)
  | upgrade (c : Fin 32) (l : LineStore)
  | putM (cl : Fin 8) (line : BitVec 34) (data : BitVec 512)
  | putS (cl : Fin 8) (line : BitVec 34)
  | fwdS (owner requester : Fin 8) (line : BitVec 34)
  | fwdM (owner requester : Fin 8) (line : BitVec 34)
  | inv (cl : Fin 8) (line : BitVec 34)
  | coherenceData (cl : Fin 8) (line : BitVec 34) (data : BitVec 512) (own : Bool)
  | coherenceAck (cl : Fin 8) (line : BitVec 34)
  -- Granary banks
  | bankHandover (w : Initiator) (k : Die) (n : Fin 2048) (expect dest : BitVec 7) (clear : Bool) (preq : BitVec 2)
  | bankClear (w : Initiator) (k : Die) (n : Fin 2048) (preq : BitVec 2)
  | bankPowerChange (w : Initiator) (k : Die) (n : Fin 2048) (preq : BitVec 2)
  | bankClearDone (k : Die) (n : Fin 2048)
  | bankTransitionDone (k : Die) (n : Fin 2048)
  -- Gleaners and KV walker
  | glnGo (w : Initiator) (k : Die) (g : Fin 8) (v : BitVec 32)
  | glnStop (w : Initiator) (k : Die) (g : Fin 8)
  | glnStreamStart (k : Die) (g : Fin 8)
  | glnStreamLanded (k : Die) (g : Fin 8)
  | kvwBump (w : Initiator) (k : Die) (ctx : Fin 64) (v : BitVec 32)
  -- HBM controllers; pc a pseudo-channel, bank 0-47, idx a queue position (0 the oldest)
  | hbmPageIdleExpiry (k : Die) (pc : Fin 32) (bank : Fin 48)
  | hbmUrgencyStep (k : Die) (pc : Fin 32) (idx : Fin 16)
  | hbmAgePromotion (k : Die) (pc : Fin 32) (idx : Fin 16)
  | hbmSchedule (k : Die) (pc : Fin 32)
  | hbmRefreshDue (k : Die) (pc : Fin 32) (bank : Fin 48)
  | hbmReadBurstResult (k : Die) (addr : BitVec 40) (ctx : Fin 64) (port : Fin 6) (r : BurstResult)
  | hbmTrainingDone (k : Die) (pass : Bool) (spares : Byte)
  -- trajectory output
  | outputStepComplete (k : Die)
  | outputCut (k : Die)
  | progressTimeout (k : Die)
  | mrpStaleExpiry
  | mrpPeriodExpiry
  -- ingest and coolant
  | ingestUnit (stream : Fin 64) (u : IngUnit)
  | ingestSampleLanded (stream : Fin 64) (ch : Fin 8)
  | ingestCloseTimeout (stream : Fin 64) (ch : Fin 8)
  | ingestZeroFillDone (stream : Fin 64) (ch : Fin 8)
  | coolantSample (tin tout : Option Nat)            -- converter codes, none: open or shorted input
  | flowPulse (level : Bool)
  | flowUpdate
  -- switch and KCP
  | switchFrameRx (port : Fin 16) (f : SwFrame)
  | qbvGateEntry (port : Fin 16)
  | epLinkDown (port : Fin 16)
  | epLinkUp (port : Fin 16) (verified : Bool)
  | kcpFrameRx (frame : List Byte)
  | regRead
  | slotWrite
  | slotPost
  | doorbell
  | release
  | ledgerRead
  | bulkWrite
  | sessionOpen (frame : List Byte)
  | sessionClose (frame : List Byte)
  | sessionIdleExpiry (session : Fin 4)
  -- application cores
  | gxctxWrite (c : Fin 32) (v : BitVec 64)
  | gxerrClear (c : Fin 32) (v : BitVec 64)
  | mcycleWrite (c : Fin 32) (v : BitVec 64)
  | wfi (c : Fin 32)
  | wrsNto (c : Fin 32)
  | wrsSto (c : Fin 32)
  | cboClean (c : Fin 32) (addr : BitVec 40)
  | cboFlush (c : Fin 32) (addr : BitVec 40)
  | cboInval (c : Fin 32) (addr : BitVec 40)
  -- islands; false Hayward A, true Hayward B
  | islandTransaction (island core : Bool) (t : TxnAt)
  | lockstepTimeout (island : Bool)
  | exchangeInputRelease (i : ExchInput)
  | exchangePoll (core : Bool)
  | splitAliveCheck (island core : Bool)
  | sentryMessageSend
  | sentryMessage (tickA : BitVec 32) (crcOk fault halt : Bool)
  | sentryWindowExpiry
  | railFault (rail : Fin 11)
  -- watchdogs, golden sheaf, self-test, heartbeat
  | stageEvent (stage : Fin 16) (epoch : BitVec 64) (stamp : Nat)
  | goldenDueExpiry (n : BitVec 64)
  | goldenCompare (n : BitVec 64)
  | stestSliceDue (u : Fin 28)
  | stestSliceStart (u : Fin 28)
  | stestSliceEnd (u : Fin 28) (pass : Bool)
  | stestSliceOverrun (u : Fin 28)
  | hbChallenge (port : Fin 16) (src : BitVec 48) (payload : List Byte)
  -- Denpa link
  | denpaTrainingDone (ok : Bool)
  | denpaTrainingRetry
  | denpaFrameRx (f : DFrame)
  | denpaAckTimeout
  | denpaCreditTimeout (ch : Fin 4)
  | denpaRetrainStart
  -- Denpa messages
  | msgCredit (ch : BitVec 8) (frames : BitVec 32)
  | msgIdent (serial : BitVec 64) (rev ifVer : BitVec 8)
  | msgRoleHb (pstate : BitVec 8) (canCmd : Bool) (term : BitVec 8) (opened decided configGen : BitVec 64)
  | msgOpen (epoch : BitVec 64) (deadline : BitVec 32) (paired first : Bool) (apply : List (BitVec 8 × BitVec 16))
  | msgResign (cause : BitVec 8) (first : BitVec 64)
  | msgExpel (epoch : BitVec 64)
  | msgTag (stream : Fin 64) (ch : Fin 8) (tag : BitVec 64)
  | msgCfg (slot : Fin 16) (body : List Byte) (dataLen : BitVec 64)
  | msgCfgAck (slot : Fin 16) (code : Byte) (seq : BitVec 16) (detail : BitVec 32)
  | msgInput (epoch : BitVec 64) (count : BitVec 32) (digest : List Byte)
  | msgDigest (epoch : BitVec 64) (whole : Bool) (withhold : BitVec 32) (digest : List Byte)
  | msgDigestAck (epoch : BitVec 64)
  | msgEvidence (epoch : BitVec 64) (word : Byte)
  | msgProgress (epoch : BitVec 64) (p : Byte)
  | msgJoinReq (configGen : BitVec 64)
  | msgJoinImage (offset total : BitVec 32) (part : List Byte)
  | msgJoinDone (last : BitVec 64)
  | msgFwdUnit (stream : Fin 64) (ch : Fin 8) (u : IngUnit)
  | msgFwdBegin (stream : Fin 64) (ch : Fin 8) (tag : BitVec 64) (arrive : BitVec 32)
  | msgFwdClose (stream : Fin 64) (ch : Fin 8) (cause : Byte) (epoch : BitVec 64)
  | msgCfgData (addr : BitVec 40) (data : List Byte)
  -- role protocol
  | pairAliveInEdge (level : Bool)
  -- progress monitors and recovery
  | sheafMonitorExpiry (u : Fin 28)
  | outputStageMonitorExpiry (k : Die)
  | fabricMonitorExpiry (k : Die)
  | linkMonitorExpiry (l : Fin 8)                    -- 0-3 ring links, 4-7 CDk-IOD links
  | deputyMonitorExpiry (k : Die) (j : Fin 2)
  | reeveMonitorExpiry
  | suspectReplay (recurs : Bool)
  | dieFenceDrained (k : Die)
  | dieImagesLoaded (k : Die) (ok : Bool)
  | dieSelfTestDone (k : Die) (ok : Bool)
  | dieLinksTrained (k : Die) (ok : Bool)
  | dieInjectionDone (k : Die) (ok : Bool)
  | unitResetDone (kind : Fin 6) (index : Fin 28)
  | linkRetrainDone (l : Fin 8) (ok : Bool)
  | refclkLoss (r : Fin 7)                           -- UNIT of Table 20-7: 0-3 HBM, 4 DNP, 5 SW, 6 a crystal
  | refclkStable (r : Fin 7)
  -- power and thermal
  | thermalSample (unit : Fin 6) (readings : List (Int × Int))   -- 0-3 CDk, 4 IOD, 5 SD; 1/16 degrees
  | thermalEvaluation (vehReady : Bool) (stks : List (Option Int))
  | avsWriteComplete (k : Die)
  | rateMonitorWindow (k : Die) (rate : BitVec 16)
  | telemetryRound (rails dies : List (Option (BitVec 16 × BitVec 16)))
  -- start
  | pgLow (i : Fin 9)
  | bootStepComplete (unitKind unitIndex : Byte) (outcome : Byte) (detail : BitVec 32)
  -- test access port
  | preload (v : List Bool)
  | wirepatDone (hbm loft iod ring : BitVec 4)
  -- links and late rows
  | cpLinkDown (port : Fin 16)
  | cpLinkUp (port : Fin 16)
  | egressFrameSent (port : Fin 16)
  | hbmRfmRequest (k : Die) (pc : Fin 32) (bank : Fin 48)
  | powerGoodRise (i : Fin 9)
  -- of the families above, the commands without operands that the runtime's limit on constructors leaves for last
  | idcode
  | sample
  | extest
  | wirepat
  | bypass
  | bootStepTimeout
  | firstSentryTimeout
  | resetNAssert
  | resetNRelease
  | denpaFrameTx
  | telemetryTimeout
  | roleHbSend
  | roleHbTimeout
  | pairAliveToggle
  | pairAliveSilence
  | decidingTimeout
  | rehearsalDue
  | rehearsalTimeout
  deriving DecidableEq, Repr

end Sys2Proof
end

