-- ==== Sys2Proof/Decode.lean ====
section
/-! DEFINITION. Words of the opcode table: no row of spec/opcode_table.json gives bits (its fields are empty), so no word
spells a command. -/

namespace Sys2Proof

/-- The command that a word spells by the table's bits: none, for any word. -/
def decodeTableWord (_nbits _w : Nat) : Option Instr := none

end Sys2Proof
end

