-- ==== Sys2Proof/Config.lean ====
section
/-! DEFINITION. What the spec leaves open: every constant here has no body, so a statement about the machine holds
whatever these values are. The first argument of a free value is the counter `State.freeCnt`, which the meaning that
draws the value advances, so that two draws are unrelated. -/

namespace Sys2Proof

/-- A free 32-bit value (a value the spec calls undefined or does not state). -/
opaque Config.freeWord : Nat → BitVec 32

/-- A free byte of memory whose content the spec leaves undefined (R97, R234, R463). -/
opaque Config.freeByte : Nat → Byte

/-- The value by which SELECT ranks a candidate whose COST is a NaN: bits of the cost and candidate. -/
opaque Config.nanCost : BitVec 32 → Nat → BitVec 32

/-- A free 64-bit value. -/
opaque Config.freeWide : Nat → BitVec 64

/-- Replica beats that die `k` counts between island ticks `t` and `t + 1` (R124; the rate follows the operating
point and the silicon, R47). -/
opaque Config.beatsPerTick : Nat → Nat → Nat

/-- AES-256-GCM opening (FIPS 197, SP 800-38D): key, nonce, additional data, ciphertext and tag; `none` when the tag
does not match. -/
opaque Config.gcmOpen : BitVec 256 → List Byte → List Byte → List Byte → Option (List Byte)

/-- AES-256-GCM sealing: key, nonce, additional data and plaintext; ciphertext and tag. -/
opaque Config.gcmSeal : BitVec 256 → List Byte → List Byte → List Byte → List Byte

/-- Ed25519 verification (RFC 8032): public key, message, signature. -/
opaque Config.ed25519Verify : List Byte → List Byte → List Byte → Bool

/-- ML-DSA-65 verification (FIPS 204): public key, message, signature. -/
opaque Config.mldsaVerify : List Byte → List Byte → List Byte → Bool

/-- Ed25519 public key of a 32-byte seed. -/
opaque Config.ed25519Public : List Byte → List Byte

/-- Ed25519 signature: seed, message. -/
opaque Config.ed25519Sign : List Byte → List Byte → List Byte

/-- ML-DSA-65 public key of a 32-byte seed. -/
opaque Config.mldsaPublic : List Byte → List Byte

/-- Deterministic ML-DSA-65 signature with an empty context string: seed, message (R458). -/
opaque Config.mldsaSign : List Byte → List Byte → List Byte

/-- DEVICE_SECRET of this part (R452), 32 bytes, read by the vault alone. -/
opaque Config.deviceSecret : BitVec 256

/-- The public parts of the transport pair that the vault's generator makes as its `n`-th: X25519 public key (32
bytes) and ML-KEM-768 encapsulation key (1,184 bytes) (R459). -/
opaque Config.pairPublic : Nat → List Byte × List Byte

/-- The X25519 shared secret of the private key of pair `n` with the public key given (R461). -/
opaque Config.x25519 : Nat → List Byte → List Byte

/-- The ML-KEM-768 shared secret that pair `n` decapsulates from the ciphertext given (R461). -/
opaque Config.mlkemDecaps : Nat → List Byte → List Byte

/-- The vault's random generator: its `n`-th value (R467). -/
opaque Config.vaultRandom : Nat → BitVec 256

/-- Place of golden variant `v` (0 to 7) of engine kind `kind` (1 Thresher, 2 Carder) within banks GBk.0 to GBk.7:
byte offset of its descriptor (R358 gives no address). -/
opaque Config.goldenDesc : Nat → Nat → Nat

/-- Byte offset of its 4 KiB output area within those banks. -/
opaque Config.goldenOut : Nat → Nat → Nat

/-- The fixed sheaf index of that variant: epoch, CTX, node (R358 gives no numbers). -/
opaque Config.goldenIndex : Nat → Nat → Nat × Nat × Nat

/-- Contents of banks GBk.0 to GBk.7 of die `k` that the body of the golden-sheaf image gives (Table 23-4 step 11 names no
layout). -/
opaque Config.goldenBanks : List Byte → Nat → List Byte

/-- The 4 KiB known answer that body gives for variant `v` of engine kind `kind` (R360). -/
opaque Config.goldenAnswer : List Byte → Nat → Nat → List Byte

/-- Offset of the scale plane of a block-scaled map that WIN reads (first argument 0) or writes (1), from the origin of
its channel block, for `rows` rows of `rb` bytes: a PROGRAM descriptor has no field for it (Table 9-2). -/
opaque Config.winScale : Nat → Nat → Nat → Nat

/-- Number of entries in the image of a switch table; Table 16-2 gives no entry layout but that of table 0x17. -/
opaque Config.switchLen : Nat → List Byte → Nat

/-- A field of an entry of such an image: table, image, entry, field as `Machine/SwitchTables.lean` numbers them. -/
opaque Config.switchField : Nat → List Byte → Nat → Nat → Nat

/-- Byte offset of that field in the image: table, image, entry, field. -/
opaque Config.switchOffset : Nat → List Byte → Nat → Nat → Nat

/-- Whether entry `i` of an image of table 0x12 identifies, as an IP stream, a frame with this body. -/
opaque Config.ipStream : List Byte → Nat → List Byte → Bool

/-- The 48 bytes of IPv6 and UDP headers in front of a payload: source and destination address, source and destination
port, payload. Traffic class, flow label and hop limit are stated nowhere. -/
opaque Config.ipHeader : List Byte → List Byte → Nat → Nat → List Byte → List Byte

/-- The body of the neighbour advertisement that answers a solicitation: the endpoint's MAC and IPv6 addresses, and the body of
the solicitation (the layout is IPv6's own). -/
opaque Config.neighbourAnswer : List Byte → List Byte → List Byte → List Byte

/-- Whether a residence of `n` periods of CLK_SW is rounded up to a whole 1/65536 ns (R322 states no rounding). -/
opaque Config.residenceUp : Nat → Bool

/-- The 64 bytes of GET_INFO's response from FAB_DIE_ID of CD0 to CD3 and the IOD, the package serial, the firmware version
and the words of the disabled-unit bitmap; Table 3-10 gives no layout. -/
opaque Config.infoLayout : List (BitVec 32) → BitVec 64 → BitVec 32 → List (BitVec 32) → List Byte

/-- Entry i of the thermistor table of the boot configuration: a converter code and its temperature in 1/16 °C (R315 states neither
the layout of the table nor the codes). -/
opaque Config.thermEntry : List Byte → Nat → Nat × Int

/-- A quotient of the linear interpolation as a whole number of 1/16 °C (R315 states no rounding). -/
opaque Config.lineRound : Int → Nat → Int

/-- A field of Table 18-6 in a boot configuration, in the table's order: 0 SPLIT, 1 HB_ETYPE, 2 HB_VID, 3 HB_KEY, 4 GOLDEN_DUE,
5 STEST_PERIOD. The table gives no offsets. -/
opaque Config.islandField : List Byte → Nat → Nat

/-- PHY role of port EPn in a boot configuration, true for master; Table 23-3 gives no layout of that section. -/
opaque Config.portMaster : List Byte → Nat → Bool

/-- Gear and profile of port CPn in a boot configuration, as one byte; Table 23-3 gives no layout of that section. -/
opaque Config.portGear : List Byte → Nat → BitVec 8

/-- The image of a switch table in a boot configuration, empty where it holds none (Table 23-3). -/
opaque Config.bootSwitch : List Byte → Nat → List Byte

/-- K_PULSES and PUMP_EN in a boot configuration (R316 names no place). -/
opaque Config.coolantField : List Byte → Nat × Bool

/-- The contexts whose HBM range BULK_WRITE may write, as a boot configuration names them (R330 names no place). -/
opaque Config.bulkContexts : List Byte → List Nat

/-- PORT of Table 1-4 of an initiator within its node; the spec numbers none. -/
opaque Config.portOf : Nat → Nat → BitVec 6

/-- Entries of the translation cache that the general path's walks of a die share (Table 10-7 gives no size). -/
opaque Config.tcEntries : Nat

/-- The upset that island tick `t` brings to a memory: an address, and whether more than one bit is hit. -/
opaque Config.upset : Nat → Option (Nat × Bool)

/-- What SAMPLE captures into the boundary register: R502 gives neither the number nor the order of the cells. -/
opaque Config.boundaryCells : Nat → List Bool

end Sys2Proof
end

