-- ==== Sys2Proof/Machine/Hash.lean ====
section
/-! DEFINITION. Byte strings, SHA-384 (FIPS 180-4, R90, R454) and the CRC-32 of R372. -/

namespace Sys2Proof

/-- The number a little-endian byte string holds (R7). -/
def leNat : List Byte → Nat
  | [] => 0
  | b :: bs => b.toNat + 256 * leNat bs

/-- `n` bytes of a number, little-endian (R7). -/
def leBytes : Nat → Nat → List Byte
  | 0, _ => []
  | n + 1, v => BitVec.ofNat 8 v :: leBytes n (v / 256)

/-- The number a big-endian byte string holds (network byte order, R7). -/
def beNat (l : List Byte) : Nat := l.foldl (fun a b => a * 256 + b.toNat) 0

/-- `n` bytes of a number in network byte order. -/
def beBytes (n v : Nat) : List Byte := (leBytes n v).reverse

/-- `len` bytes at `off`; bytes beyond the end read 0. -/
def sub (l : List Byte) (off len : Nat) : List Byte :=
  let r := (l.drop off).take len
  r ++ List.replicate (len - r.length) 0#8

/-- The little-endian field of `len` bytes at `off`. -/
def fld (l : List Byte) (off len : Nat) : Nat := leNat ((l.drop off).take len)

/-- `l` cut or filled with zeros to `n` bytes. -/
def pad (n : Nat) (l : List Byte) : List Byte := sub l 0 n

/-- `l` with the bytes from `off` on replaced by `new`. -/
def splice (l : List Byte) (off : Nat) (new : List Byte) : List Byte :=
  sub l 0 off ++ new ++ l.drop (off + new.length)

/-- The bytes of an ASCII string. -/
def asciiBytes (t : String) : List Byte := t.toList.map (fun c => BitVec.ofNat 8 c.toNat)

/-- Constants of SHA-384, rounds 0 to 15. -/
def shaRound0 : List (BitVec 64) :=
  [0x428A2F98D728AE22, 0x7137449123EF65CD, 0xB5C0FBCFEC4D3B2F, 0xE9B5DBA58189DBBC] ++
  [0x3956C25BF348B538, 0x59F111F1B605D019, 0x923F82A4AF194F9B, 0xAB1C5ED5DA6D8118] ++
  [0xD807AA98A3030242, 0x12835B0145706FBE, 0x243185BE4EE4B28C, 0x550C7DC3D5FFB4E2] ++
  [0x72BE5D74F27B896F, 0x80DEB1FE3B1696B1, 0x9BDC06A725C71235, 0xC19BF174CF692694]

/-- Constants of SHA-384, rounds 16 to 31. -/
def shaRound1 : List (BitVec 64) :=
  [0xE49B69C19EF14AD2, 0xEFBE4786384F25E3, 0x0FC19DC68B8CD5B5, 0x240CA1CC77AC9C65] ++
  [0x2DE92C6F592B0275, 0x4A7484AA6EA6E483, 0x5CB0A9DCBD41FBD4, 0x76F988DA831153B5] ++
  [0x983E5152EE66DFAB, 0xA831C66D2DB43210, 0xB00327C898FB213F, 0xBF597FC7BEEF0EE4] ++
  [0xC6E00BF33DA88FC2, 0xD5A79147930AA725, 0x06CA6351E003826F, 0x142929670A0E6E70]

/-- Constants of SHA-384, rounds 32 to 47. -/
def shaRound2 : List (BitVec 64) :=
  [0x27B70A8546D22FFC, 0x2E1B21385C26C926, 0x4D2C6DFC5AC42AED, 0x53380D139D95B3DF] ++
  [0x650A73548BAF63DE, 0x766A0ABB3C77B2A8, 0x81C2C92E47EDAEE6, 0x92722C851482353B] ++
  [0xA2BFE8A14CF10364, 0xA81A664BBC423001, 0xC24B8B70D0F89791, 0xC76C51A30654BE30] ++
  [0xD192E819D6EF5218, 0xD69906245565A910, 0xF40E35855771202A, 0x106AA07032BBD1B8]

/-- Constants of SHA-384, rounds 48 to 63. -/
def shaRound3 : List (BitVec 64) :=
  [0x19A4C116B8D2D0C8, 0x1E376C085141AB53, 0x2748774CDF8EEB99, 0x34B0BCB5E19B48A8] ++
  [0x391C0CB3C5C95A63, 0x4ED8AA4AE3418ACB, 0x5B9CCA4F7763E373, 0x682E6FF3D6B2B8A3] ++
  [0x748F82EE5DEFB2FC, 0x78A5636F43172F60, 0x84C87814A1F0AB72, 0x8CC702081A6439EC] ++
  [0x90BEFFFA23631E28, 0xA4506CEBDE82BDE9, 0xBEF9A3F7B2C67915, 0xC67178F2E372532B]

/-- Constants of SHA-384, rounds 64 to 79. -/
def shaRound4 : List (BitVec 64) :=
  [0xCA273ECEEA26619C, 0xD186B8C721C0C207, 0xEADA7DD6CDE0EB1E, 0xF57D4F7FEE6ED178] ++
  [0x06F067AA72176FBA, 0x0A637DC5A2C898A6, 0x113F9804BEF90DAE, 0x1B710B35131C471B] ++
  [0x28DB77F523047D84, 0x32CAAB7B40C72493, 0x3C9EBE0A15C9BEBC, 0x431D67C49C100D4C] ++
  [0x4CC5D4BECB3E42B6, 0x597F299CFC657E2A, 0x5FCB6FAB3AD6FAEC, 0x6C44198C4A475817]

def shaRounds : List (BitVec 64) := shaRound0 ++ shaRound1 ++ shaRound2 ++ shaRound3 ++ shaRound4

def shaStart : List (BitVec 64) :=
  [0xCBBB9D5DC1059ED8, 0x629A292A367CD507, 0x9159015A3070DD17, 0x152FECD8F70E5939] ++
  [0x67332667FFC00B31, 0x8EB44A8768581511, 0xDB0C2E0D64F98FA7, 0x47B5481DBEFA4FA4]

/-- The message schedule: the 16 words of a block, newest first, extended to 80. -/
def shaExtend : Nat → List (BitVec 64) → List (BitVec 64)
  | 0, w => w
  | n + 1, w =>
    let a := w.getD 1 0
    let b := w.getD 14 0
    let s1 := a.rotateRight 19 ^^^ a.rotateRight 61 ^^^ (a >>> 6)
    let s0 := b.rotateRight 1 ^^^ b.rotateRight 8 ^^^ (b >>> 7)
    shaExtend n ((s1 + w.getD 6 0 + s0 + w.getD 15 0) :: w)

/-- The 80 rounds on working variables a to h. -/
def shaMix (v : List (BitVec 64)) : List (BitVec 64 × BitVec 64) → List (BitVec 64)
  | [] => v
  | (k, w) :: r =>
    match v with
    | [a, b, c, d, e, f, g, h] =>
      let t1 := h + (e.rotateRight 14 ^^^ e.rotateRight 18 ^^^ e.rotateRight 41) + ((e &&& f) ^^^ (~~~e &&& g)) + k + w
      let t2 := (a.rotateRight 28 ^^^ a.rotateRight 34 ^^^ a.rotateRight 39) + ((a &&& b) ^^^ (a &&& c) ^^^ (b &&& c))
      shaMix [t1 + t2, a, b, c, d + t1, e, f, g] r
    | o => o

/-- Process `n` blocks of 128 bytes. -/
def shaBlocks : Nat → List (BitVec 64) → List Byte → List (BitVec 64)
  | 0, h, _ => h
  | n + 1, h, m =>
    let w := (List.range 16).map (fun i => BitVec.ofNat 64 (beNat ((m.drop (8 * i)).take 8)))
    let sched := (shaExtend 64 w.reverse).reverse
    shaBlocks n ((h.zip (shaMix h (shaRounds.zip sched))).map (fun p => p.1 + p.2)) (m.drop 128)

/-- SHA-384 of a byte string, 48 bytes (FIPS 180-4). -/
def sha384 (m : List Byte) : List Byte :=
  let z := (111 + 128 - m.length % 128) % 128
  let p := m ++ [0x80#8] ++ List.replicate z 0#8 ++ beBytes 16 (8 * m.length)
  (((shaBlocks (p.length / 128) shaStart p).take 6).map (fun w => beBytes 8 w.toNat)).flatten

/-- SHA-384 as a word, byte 0 in bits [7:0] (R7). -/
def sha384Word (m : List Byte) : BitVec 384 := BitVec.ofNat 384 (leNat (sha384 m))

/-- One bit step of the reflected CRC-32. -/
def crcStep (c : BitVec 32) : BitVec 32 := if c.getLsbD 0 then (c >>> 1) ^^^ 0xEDB88320#32 else c >>> 1

def crcByte (c : BitVec 32) (b : Byte) : BitVec 32 :=
  crcStep (crcStep (crcStep (crcStep (crcStep (crcStep (crcStep (crcStep (c ^^^ b.setWidth 32))))))))

/-- CRC-32 of IEEE 802.3 over a byte string (R372). -/
def crc32 (m : List Byte) : BitVec 32 := ~~~(m.foldl crcByte 0xFFFFFFFF#32)

end Sys2Proof
end

