-- ==== Sys2Proof/Machine/Numbers.lean ====
section
/-! DEFINITION. Number formats and deterministic arithmetic (spec/06_number_formats.md): exact values, the
formats of Table 6-1, rounding (R140 to R144), FP32 arithmetic (R137, R139), the canonical order of R138, the
integer and MX accumulators (R133, R134), and the Carder's table functions (R195, R197). -/

namespace Sys2Proof.Machine

/-- FP32 codes. -/
abbrev F32 := BitVec 32

/-- An exact value of a floating format: NaN, an infinity, or `(-1)^neg * m * 2^e`. -/
inductive FVal where
  | nan
  | inf (neg : Bool)
  | fin (neg : Bool) (m : Nat) (e : Int)
  deriving DecidableEq, Repr

/-- A floating format of Table 6-1; `maxMag` is the magnitude code of its largest finite value and `nanCode` its
canonical NaN (Table 6-2). -/
structure FloatFmt where
  expBits : Nat
  manBits : Nat
  bias    : Int
  maxMag  : Nat
  hasInf  : Bool
  nanCode : Nat
  deriving DecidableEq, Repr

def fmtE4M3 : FloatFmt := ⟨4, 3, 7, 0x7E, false, 0x7F⟩
def fmtE5M2 : FloatFmt := ⟨5, 2, 15, 0x7B, true, 0x7F⟩
def fmtFP16 : FloatFmt := ⟨5, 10, 15, 0x7BFF, true, 0x7E00⟩
def fmtBF16 : FloatFmt := ⟨8, 7, 127, 0x7F7F, true, 0x7FC0⟩
def fmtFP32 : FloatFmt := ⟨8, 23, 127, 0x7F7FFFFF, true, 0x7FC00000⟩
def fmtE3M2 : FloatFmt := ⟨3, 2, 3, 0x1F, false, 0⟩
def fmtE2M3 : FloatFmt := ⟨2, 3, 1, 0x1F, false, 0⟩
def fmtE2M1 : FloatFmt := ⟨2, 1, 1, 0x7, false, 0⟩

/-- Bits of a code, sign included. -/
def floatBits (F : FloatFmt) : Nat := 1 + F.expBits + F.manBits

/-- Weight (power of two) of the last place of a subnormal. -/
def floatEmin (F : FloatFmt) : Int := 1 - F.bias - F.manBits

/-- The exact value of a code (R127, R128). -/
def floatDecode (F : FloatFmt) (code : Nat) : FVal :=
  let neg := code.testBit (F.expBits + F.manBits)
  let mag := code % 2 ^ (F.expBits + F.manBits)
  if F.maxMag < mag then
    (if F.hasInf && mag == F.maxMag + 1 then .inf neg else .nan)
  else
    let ex := mag >>> F.manBits
    let fr := mag % 2 ^ F.manBits
    if ex = 0 then .fin neg fr (floatEmin F)
    else .fin neg (2 ^ F.manBits + fr) (floatEmin F + (ex : Int) - 1)

/-- The 24 bits of R143 from the `d` bits `D` below the target's last place. -/
def top24 (D d : Nat) : Nat := if 24 ≤ d then D >>> (d - 24) else D <<< (24 - d)

/-- `m * 2^e` in units of `2^q`, rounded to nearest even, or stochastically with the 24 random bits given
(R142, R143). -/
def roundMag (sr : Option Nat) (m : Nat) (e q : Int) : Nat :=
  if q ≤ e then m <<< (e - q).toNat
  else
    let d := (q - e).toNat
    let f := m >>> d
    let D := m % 2 ^ d
    let up : Bool :=
      match sr with
      | none => 2 * D > 2 ^ d || (2 * D == 2 ^ d && f % 2 == 1)
      | some r => top24 D d + r ≥ 2 ^ 24
    if up then f + 1 else f

/-- The magnitude code of `m * 2^e` after rounding, with the exponent range unbounded (R140 steps 1 and 2). -/
def floatRound (F : FloatFmt) (sr : Option Nat) (m : Nat) (e : Int) : Nat :=
  let emin := floatEmin F
  let q := if m = 0 then emin else max ((m.log2 : Int) + e - F.manBits) emin
  ((q - emin).toNat <<< F.manBits) + roundMag sr m e q

/-- Put the sign on a magnitude code. -/
def floatSign (F : FloatFmt) (neg : Bool) (mag : Nat) : Nat :=
  if neg then mag + 2 ^ (F.expBits + F.manBits) else mag

/-- Overflow and infinity columns of Table 6-5. -/
def floatOverflow (F : FloatFmt) (sat neg : Bool) : Nat :=
  if sat then floatSign F neg F.maxMag
  else if F.hasInf then floatSign F neg (F.maxMag + 1)
  else F.nanCode

/-- Conversion to a floating format (R140). -/
def floatConv (F : FloatFmt) (sr : Option Nat) (sat : Bool) : FVal → Nat
  | .nan => F.nanCode
  | .inf neg => floatOverflow F sat neg
  | .fin neg m e =>
    let c := floatRound F sr m e
    if F.maxMag < c then floatOverflow F sat neg else floatSign F neg c

/-- Clamp to the two's complement range of `bits` bits. -/
def clampInt (bits : Nat) (v : Int) : Int :=
  max (-(2 ^ (bits - 1) : Nat)) (min v ((2 ^ (bits - 1) : Nat) - 1))

/-- The two's complement code of `v` in `bits` bits. -/
def intCode (bits : Nat) (v : Int) : Nat := (v % ((2 ^ bits : Nat) : Int)).toNat

/-- The signed value of a two's complement code. -/
def intVal (bits code : Nat) : Int :=
  let c := code % 2 ^ bits
  if c < 2 ^ (bits - 1) then c else (c : Int) - (2 ^ bits : Nat)

/-- Conversion to INT8 or INT4 (Table 6-5). -/
def intConv (bits : Nat) (sr : Option Nat) : FVal → Nat
  | .nan => 0
  | .inf neg => intCode bits (if neg then -(2 ^ (bits - 1) : Nat) else (2 ^ (bits - 1) : Nat) - 1)
  | .fin neg m e =>
    let r : Int := roundMag sr m e 0
    intCode bits (clampInt bits (if neg then -r else r))

/-- The exact product (an infinity times a zero is NaN, R137). -/
def fvMul : FVal → FVal → FVal
  | .nan, _ => .nan
  | _, .nan => .nan
  | .inf a, .inf b => .inf (a != b)
  | .inf a, .fin b m _ => if m = 0 then .nan else .inf (a != b)
  | .fin a m _, .inf b => if m = 0 then .nan else .inf (a != b)
  | .fin a m e, .fin b n f => .fin (a != b) (m * n) (e + f)

/-- A finite value as an integer in units of `2^q`, for `q ≤ e`. -/
def fvUnits (neg : Bool) (m : Nat) (e q : Int) : Int :=
  let u : Int := (m <<< (e - q).toNat : Nat)
  if neg then -u else u

/-- The exact sum; opposite infinities give NaN, an exact zero is negative only if both operands are (R128, R137). -/
def fvAdd : FVal → FVal → FVal
  | .nan, _ => .nan
  | _, .nan => .nan
  | .inf a, .inf b => if a = b then .inf a else .nan
  | .inf a, .fin _ _ _ => .inf a
  | .fin _ _ _, .inf b => .inf b
  | .fin a m e, .fin b n f =>
    let q := min e f
    let s := fvUnits a m e q + fvUnits b n f q
    if s = 0 then .fin (a && b) 0 0 else .fin (s < 0) s.natAbs q

def fvNeg : FVal → FVal
  | .nan => .nan
  | .inf a => .inf (!a)
  | .fin a m e => .fin (!a) m e

def fvAbs : FVal → FVal
  | .nan => .nan
  | .inf _ => .inf false
  | .fin _ m e => .fin false m e

def fvOfInt (v : Int) : FVal := .fin (v < 0) v.natAbs 0

/-- Multiply by `2^k`, exactly. -/
def fvScale (k : Int) : FVal → FVal
  | .fin a m e => .fin a m (e + k)
  | v => v

def fvIsZero : FVal → Bool
  | .fin _ m _ => m == 0
  | _ => false

/-- The order of two values; none where one is NaN. -/
def fvCmp : FVal → FVal → Option Ordering
  | .nan, _ => none
  | _, .nan => none
  | .inf a, .inf b => some (if a = b then .eq else if a then .lt else .gt)
  | .inf a, .fin _ _ _ => some (if a then .lt else .gt)
  | .fin _ _ _, .inf b => some (if b then .gt else .lt)
  | .fin a m e, .fin b n f =>
    let q := min e f
    some (compare (fvUnits a m e q) (fvUnits b n f q))

def f32Val (a : F32) : FVal := floatDecode fmtFP32 a.toNat

/-- Rounding into FP32, to nearest even whatever SAT and RND hold (R140). -/
def toF32 (v : FVal) : F32 := BitVec.ofNat 32 (floatConv fmtFP32 none false v)

def f32NaN : F32 := 0x7FC00000#32
def f32One : F32 := 0x3F800000#32
def f32Inf (neg : Bool) : F32 := if neg then 0xFF800000#32 else 0x7F800000#32

def f32Add (a b : F32) : F32 := toF32 (fvAdd (f32Val a) (f32Val b))
def f32Sub (a b : F32) : F32 := toF32 (fvAdd (f32Val a) (fvNeg (f32Val b)))
def f32Mul (a b : F32) : F32 := toF32 (fvMul (f32Val a) (f32Val b))
/-- Fused multiply-add `a * b + c`, one rounding (R139). -/
def f32Fma (a b c : F32) : F32 := toF32 (fvAdd (fvMul (f32Val a) (f32Val b)) (f32Val c))
def f32Neg (a : F32) : F32 := toF32 (fvNeg (f32Val a))
def f32Abs (a : F32) : F32 := toF32 (fvAbs (f32Val a))

/-- Max and min (R191): NaN from a NaN operand, max(+0, -0) = +0, min = -0. -/
def f32Max (a b : F32) : F32 :=
  match fvCmp (f32Val a) (f32Val b) with
  | none => f32NaN
  | some .lt => b
  | some .gt => a
  | some .eq => if fvIsZero (f32Val a) then (if a = 0#32 then a else b) else a

def f32Min (a b : F32) : F32 :=
  match fvCmp (f32Val a) (f32Val b) with
  | none => f32NaN
  | some .lt => a
  | some .gt => b
  | some .eq => if fvIsZero (f32Val a) then (if a = 0#32 then b else a) else a

def f32IsNaN (a : F32) : Bool := f32Val a == .nan

/-- A value as a result: a NaN is the canonical one (R129). -/
def f32Canon (a : F32) : F32 := if f32IsNaN a then f32NaN else a
def f32Finite (a : F32) : Bool := match f32Val a with | .fin _ _ _ => true | _ => false

/-- One level of the perfect binary tree: element 2i with element 2i+1. -/
def pairUp {α : Type} (f : α → α → α) : List α → List α
  | a :: b :: t => f a b :: pairUp f t
  | t => t

/-- The tree of R138 over 32 elements. -/
def tree32 {α : Type} (f : α → α → α) (z : α) (l : List α) : α :=
  (pairUp f (pairUp f (pairUp f (pairUp f (pairUp f l))))).headD z

/-- The canonical order of R138 over `p 0 .. p (n-1)`. -/
def f32Reduce (init : F32) (n : Nat) (p : Nat → F32) : F32 :=
  (List.range ((n + 31) / 32)).foldl
    (fun acc c => f32Add acc (tree32 f32Add 0#32
      ((List.range 32).map fun i => if c * 32 + i < n then p (c * 32 + i) else 0#32))) init

/-- The element formats of Table 7-5, with FP32 and INT32 of R189. -/
inductive EFmt where
  | int8 | int4 | e4m3 | e5m2 | fp16 | bf16 | fp32 | int32 | mxfp4 | mxE3M2 | mxE2M3 | mxint8 | mxint4
  deriving DecidableEq, Repr

/-- Codes of Table 7-5 (0x6 and 0x7 only in Carder loads and stores, R189). -/
def efmtOfCode : Nat → Option EFmt
  | 0 => some .int8 | 1 => some .int4 | 2 => some .e4m3 | 3 => some .e5m2 | 4 => some .fp16 | 5 => some .bf16
  | 6 => some .fp32 | 7 => some .int32 | 8 => some .mxfp4 | 9 => some .mxE3M2 | 10 => some .mxE2M3
  | 11 => some .mxint8 | 12 => some .mxint4 | _ => none

/-- Codes a sheaf descriptor may carry for A, W and O (Table 7-5). -/
def efmtOfSheaf (c : Nat) : Option EFmt := if c = 6 ∨ c = 7 then none else efmtOfCode c

def efmtBits : EFmt → Nat
  | .int8 => 8 | .int4 => 4 | .e4m3 => 8 | .e5m2 => 8 | .fp16 => 16 | .bf16 => 16 | .fp32 => 32 | .int32 => 32
  | .mxfp4 => 4 | .mxE3M2 => 6 | .mxE2M3 => 6 | .mxint8 => 8 | .mxint4 => 4

def efmtIsMx : EFmt → Bool
  | .mxfp4 | .mxE3M2 | .mxE2M3 | .mxint8 | .mxint4 => true
  | _ => false

def efmtIsInt : EFmt → Bool
  | .int8 | .int4 | .int32 => true
  | _ => false

/-- The floating layout of a format, where it has one. -/
def efmtFloat : EFmt → Option FloatFmt
  | .e4m3 => some fmtE4M3 | .e5m2 => some fmtE5M2 | .fp16 => some fmtFP16 | .bf16 => some fmtBF16
  | .fp32 => some fmtFP32 | .mxfp4 => some fmtE2M1 | .mxE3M2 => some fmtE3M2 | .mxE2M3 => some fmtE2M3
  | _ => none

/-- Weight of the last place of an MX integer element (Table 6-1). -/
def efmtIntExp : EFmt → Int
  | .mxint8 => -6 | .mxint4 => -2 | _ => 0

/-- The exact value of an element code; an MX element without its block scale. -/
def elemVal (f : EFmt) (code : Nat) : FVal :=
  match efmtFloat f with
  | some F => floatDecode F code
  | none => fvScale (efmtIntExp f) (fvOfInt (intVal (efmtBits f) code))

/-- The exact value of an MX element under the scale byte `x` (R131). -/
def mxElemVal (f : EFmt) (x code : Nat) : FVal :=
  if x = 0xFF then .nan else fvScale ((x : Int) - 127) (elemVal f code)

/-- Conversion of one value to a plain (not block-scaled) format (R140, Table 6-5). -/
def convElem (f : EFmt) (sr : Option Nat) (sat : Bool) (v : FVal) : Nat :=
  match f with
  | .fp32 => (toF32 v).toNat
  | .int8 => intConv 8 sr v
  | .int4 => intConv 4 sr v
  | .int32 => intConv 32 sr v
  | _ => match efmtFloat f with
    | some F => floatConv F sr sat v
    | none => 0

/-- One element of an MX block, already divided by the block scale; it saturates to the largest element of its
sign (Table 6-5). -/
def convMxElem (f : EFmt) (sr : Option Nat) (v : FVal) : Nat :=
  match efmtFloat f with
  | some F => floatConv F sr true v
  | none =>
    match v with
    | .fin neg m e =>
      let r := min (roundMag sr m e (efmtIntExp f)) (2 ^ (efmtBits f - 1) - 1)
      intCode (efmtBits f) (if neg then -(r : Int) else r)
    | _ => 0

/-- emax of R141. -/
def mxEmax : EFmt → Int
  | .mxfp4 => 2 | .mxE2M3 => 2 | .mxE3M2 => 4 | _ => 0

/-- floor(log2) of a non-zero finite magnitude. -/
def fvLog2 : FVal → Int
  | .fin _ m e => (m.log2 : Int) + e
  | _ => 0

/-- The block scale of R141. -/
def mxScale (f : EFmt) (vs : List FVal) : Nat :=
  if vs.any (fun v => match v with | .fin _ _ _ => false | _ => true) then 0xFF
  else
    let nz := vs.filter (fun v => !fvIsZero v)
    match nz with
    | [] => 0
    | v :: t =>
      let l := t.foldl (fun a w => max a (fvLog2 w)) (fvLog2 v)
      (max 0 (min (l - mxEmax f + 127) 254)).toNat

/-- Conversion of a block of values to a block-scaled format: the scale byte and the element codes (R141). `sr i`
gives the random bits of element `i`. -/
def convMxBlock (f : EFmt) (sr : Nat → Option Nat) (vs : List FVal) : Nat × List Nat :=
  let x := mxScale f vs
  if x = 0xFF ∨ vs.all fvIsZero then (x, vs.map fun _ => 0)
  else (x, vs.zipIdx.map fun (v, i) => convMxElem f (sr i) (fvScale (127 - (x : Int)) v))

/-- The 64-bit mixing function of R144. -/
def mix64 (x : BitVec 64) : BitVec 64 :=
  let x := x ^^^ (x >>> 32)
  let x := x * 0x8CB92BA72F3D8DD7#64
  let x := x ^^^ (x >>> 29)
  let x := x * 0xE5F14C3B97A6D219#64
  x ^^^ (x >>> 32)

/-- The sheaf index of R107 that seeds stochastic rounding. -/
structure SheafIndex where
  epoch : BitVec 64
  ctx   : Nat
  node  : Nat
  ord   : Nat
  deriving DecidableEq, Repr

/-- The random bits r24 of R144 for conversion step `q` and output element `e`. -/
def srBits (si : SheafIndex) (q e : Nat) : Nat :=
  let w : BitVec 64 := (BitVec.ofNat 64 si.ctx <<< 56) ||| (BitVec.ofNat 64 si.node <<< 16) ||| BitVec.ofNat 64 si.ord
  let seed := mix64 (si.epoch ^^^ mix64 w)
  ((mix64 (seed ^^^ (BitVec.ofNat 64 q <<< 58) ^^^ BitVec.ofNat 64 e)) >>> 40).toNat

/-- The random bits that RND selects: none to nearest even, some under stochastic rounding (R142). -/
def rndBits (rnd : Nat) (si : SheafIndex) (q e : Nat) : Option Nat :=
  if rnd = 1 then some (srBits si q e) else none

/-- The accumulators of Table 7-2. -/
inductive AccKind where
  | int | fp32 | mx
  deriving DecidableEq, Repr

/-- An accumulator: 48-bit integer (R133), FP32 (R137), or 576-bit fixed point with its NaN flag (R134). -/
inductive Acc where
  | int (v : BitVec 48)
  | fp32 (v : F32)
  | mx (v : BitVec 576) (nan : Bool)
  deriving DecidableEq, Repr

/-- The exact value an accumulator holds. -/
def accVal : Acc → FVal
  | .int v => fvOfInt v.toInt
  | .fp32 v => f32Val v
  | .mx v nan => if nan then .nan else fvScale (-266) (fvOfInt v.toInt)

/-- An exact finite value in units of 2^-266, as a 576-bit word (values of R134 are multiples of the unit). -/
def mxUnits (v : FVal) : BitVec 576 :=
  match v with
  | .fin neg m e =>
    BitVec.ofInt 576 (fvUnits neg m (max e (-266)) (-266))
  | _ => 0

/-- The contribution of one 32-element MX block: the exact sum of the element products times 2^(XA + XB - 254),
or the NaN flag where a scale is 0xFF (R134). -/
def mxBlock (fa fw : EFmt) (xa xw : Nat) (a w : List Nat) : BitVec 576 × Bool :=
  if xa = 0xFF ∨ xw = 0xFF then (0, true)
  else
    let s := (List.zip a w).foldl (fun acc (x, y) => fvAdd acc (fvMul (elemVal fa x) (elemVal fw y))) (.fin false 0 0)
    (mxUnits (fvScale ((xa : Int) + xw - 254) s), false)

/-! Table functions of R195. -/

/-- The largest `y < 2^n` that meets the downward closed `p`, found bit by bit. -/
def bitSearch (p : Nat → Bool) : Nat → Nat → Nat
  | 0, y => y
  | n + 1, y => bitSearch p n (if p (y + 2 ^ n) then y + 2 ^ n else y)

/-- rcp_tab: 1 / (1 + (2j+1)/512), rounded to nearest even. -/
def rcpTab (j : Nat) : F32 :=
  let d := 513 + 2 * j
  toF32 (.fin false ((2 ^ 34 + d) / (2 * d)) (-24))

/-- rsqrt_tab: 1 / sqrt(v), v = (1 + (2j'+1)/256) * 2^p. -/
def rsqrtTab (j : Nat) : F32 :=
  let v := (257 + 2 * (j % 128)) * 2 ^ (j / 128)
  let y := bitSearch (fun y => y * y * v ≤ 2 ^ 56) 24 0
  let y := if (2 * y + 1) * (2 * y + 1) * v < 2 ^ 58 then y + 1 else y
  toF32 (.fin false y (-24))

/-- exp2_tab: 2^(j/64), rounded to nearest even. -/
def exp2Tab (j : Nat) : F32 :=
  let y := bitSearch (fun y => y ^ 64 ≤ 2 ^ (j + 64 * 23)) 24 0
  let y := if (2 * y + 1) ^ 64 < 2 ^ (j + 64 * 24) then y + 1 else y
  toF32 (.fin false y (-23))

/-- The significand of a non-zero finite value as an FP32 in [1, 2), and its exponent. -/
def normF32 (m : Nat) (e : Int) : F32 × Int :=
  (toF32 (.fin false m (-(m.log2 : Int))), e + m.log2)

def f32Rcp (x : F32) : F32 :=
  match f32Val x with
  | .nan => f32NaN
  | .inf neg => toF32 (.fin neg 0 0)
  | .fin neg m e =>
    if m = 0 then f32Inf neg
    else
      let (mf, ex) := normF32 m e
      let nm := f32Neg mf
      let y := rcpTab ((mf.toNat >>> 15) % 256)
      let t := f32Fma nm y f32One
      let y := f32Fma y t y
      let t := f32Fma nm y f32One
      let y := f32Fma y t y
      toF32 (fvScale (-ex) (if neg then fvNeg (f32Val y) else f32Val y))

def f32Rsqrt (x : F32) : F32 :=
  match f32Val x with
  | .nan => f32NaN
  | .inf neg => if neg then f32NaN else 0#32
  | .fin neg m e =>
    if m = 0 then f32Inf neg
    else if neg then f32NaN
    else
      let (mf, ex) := normF32 m e
      let p := (ex % 2).toNat
      let q := ex / 2
      let hv := toF32 (fvScale ((p : Int) - 1) (f32Val mf))
      let nhv := f32Neg hv
      let y := rsqrtTab (p * 128 + (mf.toNat >>> 16) % 128)
      let t := f32Fma nhv (f32Mul y y) 0x3FC00000#32
      let y := f32Mul y t
      let t := f32Fma nhv (f32Mul y y) 0x3FC00000#32
      let y := f32Mul y t
      toF32 (fvScale (-q) (f32Val y))

def f32Sqrt (x : F32) : F32 :=
  match f32Val x with
  | .fin _ 0 _ => x
  | .inf false => x
  | _ => f32Mul x (f32Rsqrt x)

/-- floor of a finite value. -/
def fvFloor : FVal → Int
  | .fin neg m e =>
    if 0 ≤ e then fvUnits neg m e 0
    else (if neg then -(m : Int) else m) / ((2 ^ (-e).toNat : Nat) : Int)
  | _ => 0

def f32Exp2 (x : F32) : F32 :=
  match f32Val x with
  | .nan => f32NaN
  | .inf neg => if neg then 0#32 else f32Inf false
  | v@(.fin _ _ _) =>
    if fvCmp v (.fin false 128 0) ≠ some .lt then f32Inf false
    else if fvCmp v (.fin true 150 0) = some .lt then 0#32
    else
      let i := fvFloor v
      let f := fvAdd v (fvOfInt (-i))
      let j := fvFloor (fvScale 6 f)
      let r := toF32 (fvAdd f (fvScale (-6) (fvOfInt (-j))))
      let u := f32Fma 0x3D635847#32 r 0x3E75FDF0#32
      let u := f32Fma u r 0x3F317218#32
      let u := f32Fma u r f32One
      toF32 (fvScale i (f32Val (f32Mul (exp2Tab j.toNat) u)))

def f32Exp (x : F32) : F32 := f32Exp2 (f32Mul x 0x3FB8AA3B#32)

/-- A curve record (Table 9-5a). -/
structure Curve where
  xLo : F32
  xHi : F32
  invW : F32
  yBelow : F32
  yAbove : F32
  segLog2 : Nat
  segs : List (F32 × F32 × F32 × F32)   -- X0, C0, C1, C2
  deriving DecidableEq, Repr

/-- Validity of a curve (R196). -/
def curveOk (c : Curve) : Bool :=
  fvCmp (f32Val c.xLo) (f32Val c.xHi) == some .lt && f32Finite c.xLo && f32Finite c.xHi && decide (c.segLog2 ≤ 6)
    && f32Finite c.invW && fvCmp (f32Val c.invW) (.fin false 0 0) == some .gt
    && (c.segs.take (2 ^ c.segLog2)).all (fun s => !f32IsNaN s.1)

/-- What a curve gives (R197). -/
def curveEval (c : Curve) (x : F32) : F32 :=
  if f32IsNaN x then f32NaN
  else if fvCmp (f32Val x) (f32Val c.xLo) = some .lt then f32Canon c.yBelow
  else if fvCmp (f32Val x) (f32Val c.xHi) ≠ some .lt then f32Canon c.yAbove
  else
    let u := f32Mul (f32Sub x c.xLo) c.invW
    let last := 2 ^ c.segLog2 - 1
    let s := match f32Val u with
      | v@(.fin _ _ _) => min (fvFloor v).toNat last
      | _ => last
    let (x0, c0, c1, c2) := c.segs.getD s (0, 0, 0, 0)
    let t := f32Sub x x0
    f32Fma (f32Fma c2 t c1) t c0

end Sys2Proof.Machine
end

