-- ==== Sys2Proof/Machine/State.lean ====
section
/-! DEFINITION. The state of a GX4: plain data, one record per block of the package. Every array is a table that
lists only what differs from its reset value (`Sys2Proof.Tab`). The comment after a field reads: width | what it is
and the rule that names it | its reset value. -/

namespace Sys2Proof.Machine

/-! ## Time (R43, R44, R45). Counts of the clocks that measure durations; each is a plain count, a register shows it
modulo its width. -/

/-- Elapsed time by every source of Table 2-4. -/
structure TimeS where
  tickA  : Nat           -- 64 | WDG_TICK, island ticks of Hayward A since its reset (R45) | 0
  tickHi : BitVec 32     -- 32 | WDG_TICK_HI as captured (Table 2-5) | 0
  tickB  : Nat           -- count | island ticks of Hayward B (R43) | 0
  dnp    : Nat           -- count | periods of CLK_DNP (Table 2-3) | 0
  hck    : Nat           -- count | periods of HCK, all four controllers (Table 2-3) | 0
  swq    : Nat           -- count | quarter periods of CLK_SW (Table 2-3) | 0
  beats  : Tab Nat       -- count per die | replica beat counter of CDk (R124, R185) | 0
  deriving DecidableEq, Repr

/-! ## Fabric (R19 to R25, R410) -/

/-- What a request does at its target. -/
inductive ReqKind where
  | read | posted | acked
  | atomic (op : AtomicOp) (operand compare : BitVec 64)
  deriving DecidableEq, Repr

/-- A request as it stands at its target. -/
structure Req where
  src  : Initiator
  tag  : BitVec 12
  addr : Nat
  size : Nat
  sc   : Nat
  ctx  : Nat
  part : Nat
  gen  : BitVec 8
  kind : ReqKind
  data : List Byte
  deriving DecidableEq, Repr

/-- How an access ends at its target (R29, R30, R229, R237). -/
inductive AccStatus where
  | ok | hole | unavailable | notOwned | uncorrected | alignment
  deriving DecidableEq, Repr

/-- A transaction an initiator has outstanding. `answer` is set once the target has performed it. -/
structure Pend where
  src    : Initiator
  tag    : BitVec 12
  gen    : BitVec 8
  addr   : Nat
  posted : Bool
  zeros  : Nat               -- bytes of zeros that its reply carries when it fails (R29)
  die    : Option Nat        -- the die whose tracker counts it (R25)
  since  : Nat               -- tick of its start, from which the monitors count (R401)
  answer : Option (AccStatus × List Byte)
  deriving DecidableEq, Repr

/-- What an initiator has received for one tag. -/
structure Reply where
  src    : Initiator
  tag    : BitVec 12
  status : AccStatus
  data   : List Byte
  deriving DecidableEq, Repr

structure FabS where
  retired : Tab Nat            -- key k | tick of the latest retirement of a tracker entry of die k (R401) | 0
  pend    : List Pend          -- list | outstanding transactions by SRC, PORT and TAG (R21, R25) | empty
  held    : Tab (List Req)     -- list per die | requests waiting at a full tracker (R25) | empty
  replies : List Reply         -- list | answers received, newest first (R410) | empty
  errs    : List Reply         -- list | alignment errors of accesses never sent (R22) | empty
  deriving DecidableEq, Repr

/-! ## Granary (R227 to R240) -/

structure Bank where
  owner    : BitVec 7    -- 7 | OWNER of GRN_BANK_n (Table 11-6) | 0x40
  pstate   : BitVec 2    -- 2 | PSTATE (Table 11-6) | 0x2
  busy     : Bool        -- 1 | BUSY (Table 11-6) | 0
  clearing : Bool        -- 1 | CLEARING (Table 11-6) | 0
  result   : BitVec 3    -- 3 | RESULT (Table 11-6) | 0
  ownSeq   : BitVec 8    -- 8 | OWN_SEQ (Table 11-6) | 0
  target   : BitVec 2    -- 2 | state the running or pending transition leads to (R235) | 0
  waking   : Bool        -- 1 | the transition of step 4 of Table 11-4 has started (R235) | 0
  held     : List Req    -- list | accesses that wait for a clear (R232) | empty
  deriving DecidableEq, Repr

def Bank.init : Bank :=
  { owner := 0x40#7, pstate := 2#2, busy := false, clearing := false, result := 0#3, ownSeq := 0#8, target := 0#2,
    waking := false, held := [] }

structure GrnDie where
  lock       : Bool              -- 1 | GRN_CTRL LOCK (Table 11-6) | 0
  rateEff    : BitVec 5          -- 5 | GRN_LOFT_STAT RATE_EFF (Table 11-6) | 0x10
  step       : BitVec 3          -- 3 | GRN_LOFT_STAT STEP (Table 11-6) | 0
  lastResult : BitVec 3          -- 3 | GRN_REFUSE LAST_RESULT (Table 11-6) | 0
  lastBank   : BitVec 11         -- 11 | GRN_REFUSE LAST_BANK (Table 11-6) | 0
  refuseCnt  : BitVec 8          -- 8 | GRN_REFUSE COUNT (Table 11-6) | 0
  waking     : BitVec 7          -- 7 | GRN_WAKING (Table 11-6) | 0
  thrTOn     : List (BitVec 8)   -- 4 x 8 | GRN_LOFT_THR_i T_ON (Table 11-6) | 0x5F, 0x69, 0x73, 0x78
  thrRate    : List (BitVec 5)   -- 4 x 5 | GRN_LOFT_THR_i RATE (Table 11-6) | 0x0C, 0x08, 0x04, 0x02
  wakeQueue  : List Nat          -- list | banks whose wake waits for GRN_WAKING below 64 (R235) | empty
  coolCnt    : Nat               -- count | consecutive cooler evaluations of the Loft step (R239, R53) | 0
  coolMax    : Int               -- 1/16 C | highest reading of that run (R53) | 0

  deriving DecidableEq, Repr

def GrnDie.init : GrnDie :=
  { lock := false, rateEff := 0x10#5, step := 0#3, lastResult := 0#3, lastBank := 0#11, refuseCnt := 0#8,
    waking := 0#7, thrTOn := [0x5F#8, 0x69#8, 0x73#8, 0x78#8], thrRate := [0x0C#5, 0x08#5, 0x04#5, 0x02#5],
    wakeQueue := [], coolCnt := 0, coolMax := 0 }

structure GrnS where
  banks : Tab Bank      -- key 2048k+n | GRN_BANK_n of die k (R228) | Bank.init
  dies  : Tab GrnDie    -- key k | GRN_ registers of die k (R238) | GrnDie.init
  ecc   : Tab Nat       -- key address / 8 | codewords in error: 1 a single bit, 2 uncorrectable (R227, R237) | 0
  deriving DecidableEq, Repr

/-! ## Gleaners (R241 to R248) -/

/-- A stream descriptor as read (Table 11-7). -/
structure GlnDesc where
  kind : Nat
  skind : Nat
  ctx : Nat
  last : Bool
  bound : Bool
  startNode : Nat
  holdFirst : Nat
  holdCnt : Nat
  src : Nat
  dst : Nat
  elem : Nat
  count : Nat
  rows : Nat
  srcStride : Nat
  dstStride : Nat
  srcPitch : Nat
  dstPitch : Nat
  next : Nat
  deriving DecidableEq, Repr

/-- A read or a write of a stream that is outstanding: its TAG and the 64-byte line of the stream it moves. -/
structure GlnLine where
  tag  : BitVec 12
  line : Nat
  deriving DecidableEq, Repr

/-- A stream in flight. -/
structure GlnStream where
  desc    : GlnDesc
  epoch   : Option (BitVec 64)   -- instance in instance mode
  gen     : BitVec 16            -- walk generation latched at its start (R245)
  root    : BitVec 40            -- active root latched at its start (R221)
  issued  : Nat                  -- lines whose read has been issued (R243)
  reads   : List GlnLine         -- reads outstanding
  writes  : List GlnLine         -- writes not yet acknowledged
  page    : Option (Nat × Nat)   -- page translated last and its physical address
  dead    : Bool                 -- issues no further read: stopped, abandoned or failed (R244, R247)
  failed  : Bool
  deriving DecidableEq, Repr

structure Gleaner where
  mode    : BitVec 2     -- 2 | GLN_CTRL MODE (Table 11-10) | 0
  ctx     : BitVec 6     -- 6 | GLN_CTRL CTX (Table 11-10) | 0
  pfDist  : BitVec 9     -- 9 | GLN_CTRL PF_DIST (Table 11-10) | 0x080
  state   : BitVec 3     -- 3 | GLN_STAT STATE (Table 11-10) | 0
  doneCnt : BitVec 16    -- 16 | GLN_STAT DONE_CNT (Table 11-10) | 0
  head    : BitVec 40    -- 40 | GLN_HEAD (Table 11-10) | 0
  cur     : BitVec 40    -- 40 | GLN_CUR (Table 11-10) | 0
  errCode : BitVec 8     -- 8 | GLN_ERR CODE (Table 11-10) | 0
  errDetail : BitVec 8   -- 8 | GLN_ERR DETAIL (Table 11-10) | 0
  errIdx  : BitVec 16    -- 16 | GLN_ERR ELEM_IDX (Table 11-10) | 0
  errAddr : BitVec 48    -- 48 | GLN_ERR_ADDR (Table 11-10) | 0
  next    : Option Nat   -- 40 or none | descriptor that starts next in the chain (R243) | none
  epoch   : Option (BitVec 64)   -- 64 or none | instance whose chain runs (R244) | none
  waitEpochs : List (BitVec 64)  -- list | instances whose chain waits for the previous one (R244) | empty
  streams : List GlnStream       -- list | streams issued and not landed, oldest first (R243) | empty
  stopping : Bool                -- 1 | STOP taken, outstanding reads still landing (Table 11-10) | 0
  tag     : BitVec 12    -- 12 | TAG of its next transaction (R21) | 0 (DESIGN CHOICE)
  deriving DecidableEq, Repr

def Gleaner.init : Gleaner :=
  { mode := 0#2, ctx := 0#6, pfDist := 0x080#9, state := 0#3, doneCnt := 0#16, head := 0#40, cur := 0#40,
    errCode := 0#8, errDetail := 0#8, errIdx := 0#16, errAddr := 0#48, next := none, epoch := none, waitEpochs := [], streams := [],
    stopping := false, tag := 0#12 }

structure GlnS where
  g : Tab Gleaner       -- key 8k+g | Gleaner g of die k (R248) | Gleaner.init
  deriving DecidableEq, Repr

/-! ## HBM controllers (R249 to R264) -/

/-- A request in a pseudo-channel's queue or waiting at a port. -/
structure HReq where
  req    : Req
  port   : Nat            -- HP0 to HP5
  answer : List Byte      -- read data fixed by the granule order of R258 at queue entry
  entered : Nat           -- HCK at queue entry
  urg    : Nat            -- urgency 0 to 3 (R256)
  aged   : Bool
  deriving DecidableEq, Repr

/-- One bank of a pseudo-channel. -/
structure HBank where
  row    : Option Nat     -- 14 or none | open row (R253) | none
  used   : Nat            -- HCK | HCK of the last access, the idle counter's start (R253) | 0
  streak : Nat            -- count | consecutive hits while another request to the bank waited (R257) | 0
  deriving DecidableEq, Repr

def HBank.init : HBank := { row := none, used := 0, streak := 0 }

structure HPc where
  queue : List HReq       -- 16 entries | queue, oldest first (R255) | empty
  banks : Tab HBank       -- key 0 to 47 | open rows and counters (R253) | HBank.init
  debt  : Nat             -- 0 to 8 | postponed refreshes (R259) | 0
  owed  : List Nat        -- list | banks with a postponed refresh or RFM, oldest first (R259) | empty
  nextBank : Nat          -- 0 to 47 | bank next in the refresh rotation (R259) | 0
  refAt : Nat             -- HCK since refBase | when the last refresh fell due (R259) | 0
  deriving DecidableEq, Repr

def HPc.init : HPc := { queue := [], banks := [], debt := 0, owed := [], nextBank := 0, refAt := 0 }

structure Hmc where
  lock      : Bool           -- 1 | HMC_CFG LOCK (Table 12-9) | 0
  scrubWb   : Bool           -- 1 | HMC_CFG SCRUB_WB (Table 12-9) | 1
  refMode   : Bool           -- 1 | HMC_CFG REF_MODE (Table 12-9) | 0
  trainMode : BitVec 2       -- 2 | HMC_CFG TRAIN_MODE (Table 12-9) | 0
  mapOrder  : BitVec 2       -- 2 | HMC_CFG MAP_ORDER (Table 12-9) | 0
  state     : BitVec 2       -- 2 | HMC_STAT STATE (Table 12-9) | 0
  trainRes  : BitVec 2       -- 2 | HMC_STAT TRAIN_RESULT (Table 12-9) | 0
  spareUsed : BitVec 8       -- 8 | HMC_STAT SPARE_USED (Table 12-9) | 0
  hot       : Bool           -- 1 | HMC_STAT HOT (Table 12-9) | 0
  pageIdle  : BitVec 12      -- 12 | HMC_PAGE_IDLE (Table 12-9) | 0x040
  ageLimit  : BitVec 16      -- 16 | HMC_AGE_LIMIT (Table 12-9) | 0x0400
  port      : Tab (BitVec 32)   -- 6 x 32 | HMC_PORT_p targets (Table 12-9) | 0xC8502818
  share     : Tab (BitVec 11)   -- 8 x 11 | HMC_SHARE_q (Table 12-9) | 0x400
  shareEff  : Tab (BitVec 11)   -- 8 x 11 | share the regulator applies in this window (R260) | 0x400
  tempValid : Bool           -- 1 | HMC_TEMP VALID (Table 12-9) | 0
  temp      : BitVec 16      -- 16 | HMC_TEMP TEMP (Table 12-9) | 0
  sev1      : BitVec 16      -- 16 | HMC_ECC_CORR SEV1 (Table 12-9) | 0
  sev2      : BitVec 16      -- 16 | HMC_ECC_CORR SEV2 (Table 12-9) | 0
  sev3      : BitVec 16      -- 16 | HMC_ECC_UNC SEV3 (Table 12-9) | 0
  linkFail  : BitVec 16      -- 16 | HMC_ECC_UNC LINK_FAIL (Table 12-9) | 0
  linkRetry : BitVec 32      -- 32 | HMC_LINK_RETRY (Table 12-9) | 0
  logAddr   : BitVec 40      -- 34 | HMC_ERR_LOG address (Table 12-9) | 0
  logSev    : BitVec 2       -- 2 | HMC_ERR_LOG_HI SEV (Table 12-9) | 0
  logCtx    : BitVec 6       -- 6 | HMC_ERR_LOG_HI CTX (Table 12-9) | 0
  logPort   : BitVec 3       -- 3 | HMC_ERR_LOG_HI PORT (Table 12-9) | 0
  failTimes : List Nat       -- list | HCK of recent LINK_FAIL events (Table 12-7) | empty
  repairRows : List Nat      -- list | addresses listed for row repair at the next start (Table 12-7) | empty
  counts    : Tab Nat        -- 8 counts | bursts admitted per partition in this window (R260) | 0
  winAt     : Nat            -- HCK | start of the running window (R260) | 0
  refBase   : Nat            -- HCK | reset of the stack or its die, from which refreshes are counted (R259) | 0
  held      : List HReq      -- list | requests waiting at their ports, in arrival order (R255, R260) | empty
  unc       : List Nat       -- list | bursts whose array data is uncorrectable (R263, R509) | empty
  pcs       : Tab HPc        -- key 0 to 31 | pseudo-channels (R255) | HPc.init
  deriving DecidableEq, Repr

def Hmc.init : Hmc :=
  { lock := false, scrubWb := true, refMode := false, trainMode := 0#2, mapOrder := 0#2, state := 0#2,
    trainRes := 0#2, spareUsed := 0#8, hot := false, pageIdle := 0x040#12, ageLimit := 0x0400#16, port := [],
    share := [], shareEff := [], tempValid := false, temp := 0#16, sev1 := 0#16, sev2 := 0#16, sev3 := 0#16,
    linkFail := 0#16, linkRetry := 0#32, logAddr := 0#40, logSev := 0#2, logCtx := 0#6, logPort := 0#3,
    failTimes := [], repairRows := [], counts := [], winAt := 0, refBase := 0, held := [], unc := [], pcs := [] }

structure HmcS where
  stks : Tab Hmc      -- key k | controller and stack HSk (R264) | Hmc.init
  deriving DecidableEq, Repr

/-! ## Carders (R184, R186) -/

/-- An XLD or XST that has not ended: its local-store units and, for XLD, its data. -/
structure Xfer where
  load : Bool
  unit : Nat      -- first 64-byte unit of LS
  len  : Nat      -- units
  deriving DecidableEq, Repr

structure Carder where
  v      : Tab (BitVec 32768)   -- 32 x 1024 x 32 | V0 to V31, lane i in bits 32i+31 to 32i (Table 9-1) | 0
  k      : Tab (BitVec 1024)    -- 8 x 1024 | K1 to K7; K0 reads all ones (Table 9-1) | 0
  s      : Tab (BitVec 64)      -- 16 x 64 | S0 to S15 (Table 9-1) | 0
  a      : Tab (BitVec 14)      -- 8 x 14 | A0 to A7 (Table 9-1) | 0
  ls     : Tab (BitVec 512)     -- 16384 x 512 | local store, 64-byte units (Table 9-1) | 0
  prog   : List (BitVec 32)     -- 4096 x 32 | instruction store (Table 9-1) | empty
  curves : List Curve           -- 16 x 1088 B | curve store (Table 9-1) | empty
  pc     : Nat                  -- 12 | index of the next instruction (R185) | 0
  loops  : List (Nat × Nat × Nat)   -- 4 levels | open loops: first, last and remaining runs (R188) | empty
  xfers  : List Xfer            -- list | unfinished transfers, oldest first (R193) | empty
  stCnt  : Tab Nat              -- 16 counts | ST instructions executed per Q (R192) | 0
  slots  : List (BitVec 40)     -- 6 x 40 | resolved address slots of the running sheaf (R187) | empty
  desc   : List Byte            -- 64 B | descriptor of the running sheaf (R187) | empty
  index  : SheafIndex           -- 152 | sheaf index of the running sheaf (R144) | zero
  ctx    : Nat                  -- 6 | context of the running sheaf (R229) | 0
  ended  : Bool                 -- 1 | END has executed (R190) | 0
  err    : BitVec 32            -- 32 | DETAIL of the first error of the sheaf, 0 for none (Table 9-7) | 0
  errAddr : BitVec 40           -- 40 | address of the access that failed first (Table 5-8) | 0
  deriving DecidableEq, Repr

def Carder.init : Carder :=
  { v := [], k := [], s := [], a := [], ls := [], prog := [], curves := [], pc := 0, loops := [], xfers := [],
    stCnt := [], slots := [], desc := [], index := ⟨0#64, 0, 0, 0⟩, ctx := 0, ended := false, err := 0#32,
    errAddr := 0#40 }

structure CarderS where
  ce : Tab Carder       -- key e | Carder CEe (R184) | Carder.init
  deriving DecidableEq, Repr
/-! ## Tally ledger and epochs (R83 to R100, R512) -/

/-- An applied-command entry of the agreed section (Table 4-4). -/
structure CmdEntry where
  opcode : Nat
  seq    : BitVec 16
  slot   : Nat
  deriving DecidableEq, Repr

/-- A results-index entry (Table 4-4). -/
structure ResEntry where
  ctx   : Nat
  outId : Nat
  len   : Nat
  addr  : Nat
  deriving DecidableEq, Repr

/-- DIE[k] of the local section (Table 4-5). -/
structure DieLoc where
  state : Nat
  levelEff : Nat
  vcode : Nat
  margin : Bool
  band : Nat
  temp : BitVec 16
  rate : BitVec 16
  corr : Nat
  unc  : Nat
  deriving DecidableEq, Repr

/-- GOLDEN of the local section (Table 4-5). -/
structure GoldLoc where
  engine : Nat
  result : Nat
  deferrals : Nat
  tick : Nat
  deriving DecidableEq, Repr

/-- ERR of the local section (Table 4-5). -/
structure ErrLoc where
  unc  : Nat
  corr : Nat
  addr : Nat
  ctx  : Nat
  node : Nat
  deriving DecidableEq, Repr

/-- A ledger record (Tables 4-2 to 4-5). -/
structure Rec where
  epoch    : BitVec 64
  openTick : Nat               -- island tick of the open event, for TICK of later fault records (R398)
  published : Bool            -- STATUS 0x01 or 0x02
  flags    : BitVec 16
  withhold : BitVec 32
  deadline : Nat
  closeTick : Nat
  publishTick : Nat
  digest   : BitVec 384
  twinDigest : BitVec 384
  serial   : BitVec 64
  prev     : BitVec 64
  configGen : BitVec 64
  cmds     : List CmdEntry
  inputCount : Nat
  inputDigest : BitVec 384
  results  : List ResEntry
  selCase  : Nat
  trajMapEpoch : BitVec 64
  traj     : List Byte
  dies     : List DieLoc
  power    : Nat
  tin      : BitVec 16
  tout     : BitVec 16
  flow     : Nat
  role     : Nat
  skipped  : Nat
  chaff    : Nat
  slow     : Tab Nat           -- SLOWDOWN[c]: value + 65536 * state
  wdg      : Tab Nat           -- WDG[n]: outcome + 256 * EDGE + 2^32 * tick
  golden   : GoldLoc
  err      : ErrLoc
  deriving DecidableEq, Repr

/-- Where the agreement with the twin stands for one epoch (Tables 19-6 and 19-7). -/
structure TwinEp where
  inputSent   : Bool
  inputTwin   : Option (Nat × BitVec 384)      -- COUNT and digest of the twin's INPUT
  inputAgreed : Option Bool
  digestTwin  : Option (Bool × BitVec 32 × BitVec 384)   -- whole, WITHHOLD, digest of the twin's DIGEST
  digestSent  : Bool
  acked       : Bool                           -- DIGEST_ACK received or sent
  evidenceTwin : Option Nat
  evidenceSent : Option Nat                    -- evidence word that this module has sent (R382)
  resolved    : Option Bool                    -- mismatch resolved in this module's favour
  unresolved  : Bool                           -- the mismatch was left unresolved (R382)
  progressTwin : Option Nat
  deriving DecidableEq, Repr

def TwinEp.init : TwinEp :=
  { inputSent := false, inputTwin := none, inputAgreed := none, digestTwin := none, digestSent := false,
    acked := false, evidenceTwin := none, evidenceSent := none, resolved := none, unresolved := false, progressTwin := none }

/-- An epoch from its open event until it is decided (R84). -/
structure OpenEp where
  n         : BitVec 64
  openTick  : Nat                 -- island tick of the open event
  deadline  : Nat                 -- DEADLINE_TICKS
  paired    : Bool                -- opened while in a pair, or in shadow by a joiner
  shadow    : Bool                -- commander: a joiner runs it in shadow (R391)
  ctxs      : List Nat            -- contributing contexts (R85)
  waiting   : List Nat            -- contributing contexts not yet complete
  withhold  : BitVec 32           -- WITHHOLD bits gathered (Table 4-3); once non-zero the epoch is withheld
  goldDefer : Bool
  edge      : Bool                -- EDGE_JUDGED
  fallback  : Bool                -- FALLBACK_REQUEST is in force for this epoch (R296)
  duty      : Bool                -- fallback duty (R486)
  failover  : Bool
  cmds      : List CmdEntry       -- applied at this epoch
  configGen : BitVec 64
  doneTick  : Option Nat          -- step 1 of Table 4-1, ticks from the open event
  digest    : Option (BitVec 384)
  results   : List ResEntry
  selCase   : Nat
  traj      : List Byte
  trajMapEpoch : BitVec 64
  err       : ErrLoc
  corrSeen  : Bool                -- CORR of the evidence word
  chaff     : Nat
  states    : Tab Nat             -- per context: its state at the open event (Table 4-5 SLOWDOWN byte 2)
  beats     : Tab (Nat × Nat)     -- per context: sums of RUN_BEATS and REF_BEATS (R124)
  dieErrs   : Tab (Nat × Nat)     -- per die: corrected and uncorrected errors
  twin      : TwinEp
  deriving DecidableEq, Repr

/-- A standing schedule (R512). `mode`: 1 period, 2 trigger. -/
structure Sched where
  mode     : Nat
  period   : Nat
  trigger  : Nat
  deadline : Nat
  start    : Nat                  -- tick from which period ticks are counted
  deriving DecidableEq, Repr

/-- A snapshot window (R98, R99). -/
structure SnapWin where
  selLo  : BitVec 32    -- 32 | TLY_SEL_LO_w (Table 4-6) | 0
  selHi  : BitVec 32    -- 32 | TLY_SEL_HI_w (Table 4-6) | 0
  wstate : BitVec 3     -- 3 | WSTATE (Table 4-6) | 0
  copy   : Option Rec   -- 8 KiB | TLY_WIN_w contents, none reads zeros (R99) | none
  deriving DecidableEq, Repr

def SnapWin.init : SnapWin := { selLo := 0#32, selHi := 0#32, wstate := 0#3, copy := none }

/-- The record schedule of R100. -/
structure RecSched where
  mask  : BitVec 32
  every : BitVec 16
  dests : BitVec 32     -- destination table entries named
  deriving DecidableEq, Repr

structure TlyS where
  opened   : BitVec 64          -- 64 | TLY_OPENED (Table 4-6) | 0
  latest   : BitVec 64          -- 64 | TLY_LATEST (Table 4-6) | 0
  openedHi : BitVec 32          -- 32 | TLY_OPENED_HI as captured (R98) | 0
  latestHi : BitVec 32          -- 32 | TLY_LATEST_HI as captured (R98) | 0
  oldestHi : BitVec 32          -- 32 | TLY_OLDEST_HI as captured (R98) | 0
  openEps  : List OpenEp        -- at most 4 | epochs open, oldest first (R84) | empty
  recs     : List Rec           -- 64 x 8 KiB | records retained, oldest first (R97) | empty
  wins     : Tab SnapWin        -- key 0 to 3 | snapshot windows (R98) | SnapWin.init
  skipped  : Nat                -- 16 | SKIPPED_TRIG gathered for the next record (R84) | 0
  sched    : Option Sched       -- - | standing schedule in force (R512) | none
  halted   : Bool               -- 1 | no schedule opens an epoch (R512) | 0
  configGen : BitVec 64         -- 64 | CONFIG_GEN (Table 4-4) | 0
  early    : List CmdEntry      -- list | commands that have applied at once and that the next epoch lists (R75, Table 4-4) | empty
  recSched : RecSched           -- - | record schedule (R100) | mask 0, N 0, no destinations
  recSent  : List (Nat × List Byte)   -- list | RECORD frames handed to the switch: destination entry and KCP frame (R89, R332) | empty
  recSeq   : Tab Nat            -- per destination | SEQ of record frames (R332) | 0
  readyTick : Option Nat        -- 64 or none | island tick of READY (R78) | none
  deriving DecidableEq, Repr

/-! ## Contexts, graphs, engines (R101 to R126) -/

/-- A node entry (Table 5-2). -/
structure Node where
  desc  : Nat
  kind  : Nat
  place : Nat
  home  : Nat          -- unit number: 0-15 TE, 16-23 CE, 24-27 BP; 32+k for a CORE node of die k
  succ  : List Nat
  nPred : Nat
  ref   : Nat
  bound : Nat
  deriving DecidableEq, Repr

/-- An output-table entry (R103). -/
structure OutDef where
  outId : Nat
  node  : Nat
  bytes : Nat
  off   : Nat
  deriving DecidableEq, Repr

/-- A loaded graph (R101 to R103). -/
structure Graph where
  format  : Nat
  gflags  : Nat
  slots   : Nat          -- OUT_SLOTS
  ringOff : Nat          -- GATE_RING
  ringLen : Nat          -- GATE_ENTRIES
  nodes   : List Node
  outs    : List OutDef
  deriving DecidableEq, Repr

structure Ctx where
  state : Nat                  -- 2 | 0 absent, 1 idle, 2 running (R109) | 0
  part  : Nat                  -- 3 | PART (R108) | 0
  sc    : Nat                  -- 2 | SC (R108) | 0
  base  : Nat                  -- 40 | HBM base (R108) | 0
  len   : Nat                  -- 40 | HBM length (R108) | 0
  graph : Option Graph         -- - | graph loaded (R109) | none
  older : List (BitVec 64 × Graph) -- list | replaced graphs, each with the epoch below which open epochs still run it (R85) | empty
  start : BitVec 64            -- 64 | first epoch of the running graph (R109) | 0
  stop  : Option (BitVec 64)   -- 64 or none | stop epoch (R109) | none
  moved : List (Nat × Nat)     -- list | nodes rehomed under R413 with their original homes | empty
  deriving DecidableEq, Repr

def Ctx.init : Ctx :=
  { state := 0, part := 0, sc := 0, base := 0, len := 0, graph := none, older := [], start := 0#64, stop := none, moved := [] }

/-- A node of an instance. -/
structure NodeSt where
  got      : Nat       -- predecessors completed
  released : Bool
  done     : Bool
  deriving DecidableEq, Repr

/-- An instance of a context's graph for one epoch (R105). -/
structure Inst where
  epoch   : BitVec 64
  ctx     : Nat
  started : Bool
  nodes   : Tab NodeSt
  left    : Nat            -- nodes not yet complete
  deriving DecidableEq, Repr

/-- Where a sheaf comes from. -/
inductive SheafSrc where
  | graph
  | core (entry : Nat) (ring : Nat)   -- gate entry, engine whose doorbell took it
  | golden
  | warm                              -- keep-warm work (R483)
  deriving DecidableEq, Repr

/-- A sheaf in a lane or running. -/
structure Sheaf where
  index : SheafIndex
  src   : SheafSrc
  kind  : Nat
  place : Nat
  home  : Nat
  desc  : Nat              -- physical address of the descriptor
  ref   : Nat
  bound : Nat
  expired : Nat            -- progress-monitor expiries of this sheaf index (R403)
  deriving DecidableEq, Repr

/-- How a sheaf ended (Table 5-8). -/
structure SheafResult where
  code   : Nat
  detail : BitVec 32
  addr   : Nat
  deriving DecidableEq, Repr

/-- A sheaf on a unit. -/
structure Running where
  sheaf  : Sheaf
  tick   : Nat             -- island tick of the start (R400)
  beat   : Nat             -- replica beat counter at the start (R124)
  desc   : List Byte       -- 64 bytes, the descriptor as read at the start (R151)
  result : Option SheafResult
  dropped : Bool           -- instance abandoned, completion discarded (R105)
  deriving DecidableEq, Repr

/-- An engine completion record (Table 5-8). -/
structure CplRec where
  epoch : BitVec 64
  ctx   : Nat
  code  : Nat
  ord   : Nat
  gate  : Nat
  engine : Nat
  phase : Bool
  beats : Nat
  detail : BitVec 32
  addr  : Nat
  deriving DecidableEq, Repr

/-- A Thresher (0 to 15), Carder (16 to 23) or Blocker (24 to 27) as the scheduler sees it. -/
structure Eng where
  part    : BitVec 3         -- 3 | EQ_ENG_CFG PART (Table 5-6) | 0
  enabled : Bool             -- 1 | EQ_ENG_CFG ENABLED (Table 5-6) | 0
  lanes   : Tab (List Sheaf) -- 4 x 32 sheaves | queue lanes, head first (R111); golden sheaves in lane 0 do not count | empty
  running : Option Running   -- - | running sheaf (R112) | none
  head    : BitVec 6         -- 6 | EQ_CPL_HEAD (Table 5-6) | 0
  tail    : BitVec 6         -- 6 | EQ_CPL_TAIL TAIL (Table 5-6) | 0
  phase   : Bool             -- 1 | EQ_CPL_TAIL PHASE (Table 5-6) | 0
  unread  : Nat              -- 0 to 64 | records written and not consumed (R119) | 0
  accepted : Nat             -- 0 to 64 | accepted sheaves still outstanding (R119) | 0
  ring    : Tab CplRec       -- 64 x 32 B | EQ_CPL_RING (Table 5-5) | unwritten
  refCode : BitVec 8         -- 8 | EQ_REFUSE LAST_CODE (Table 5-6) | 0
  refCtx  : BitVec 6         -- 6 | EQ_REFUSE LAST_CTX (Table 5-6) | 0
  refOrd  : BitVec 10        -- 10 | EQ_REFUSE LAST_ORD (Table 5-6) | 0
  refCnt  : BitVec 8         -- 8 | EQ_REFUSE COUNT (Table 5-6) | 0
  failed  : Bool             -- 1 | failed until package reset (R404) | 0
  resetting : Bool           -- 1 | the unit's reset has not completed (R408) | 0
  expiries : List Nat        -- list | ticks of recent sheaf expiries (R404) | empty
  retest  : Nat              -- 0 to 2 | golden or slice to be run again first (R404): 0 none, 1 golden, 2 slice | 0
  deriving DecidableEq, Repr

def Eng.init : Eng :=
  { part := 0#3, enabled := false, lanes := [], running := none, head := 0#6, tail := 0#6, phase := false,
    unread := 0, accepted := 0, ring := [], refCode := 0#8, refCtx := 0#6, refOrd := 0#10, refCnt := 0#8,
    failed := false, resetting := false, expiries := [], retest := 0 }

/-- An open or closing gate as its deputy tracks it (R117). -/
structure Gate where
  ctx   : Nat
  entry : Nat
  epoch : BitVec 64
  node  : Nat
  die   : Nat
  closing : Bool
  ords  : List Nat       -- ORD values used
  out   : Nat            -- accepted sheaves not yet complete
  deriving DecidableEq, Repr

structure CtxS where
  ctxs   : Tab Ctx                 -- key 0 to 63 | contexts (R108) | Ctx.init
  insts  : List Inst               -- list | instances, in epoch order (R105) | empty
  ready  : Tab (List (BitVec 64 × Nat × Nat))  -- list per die | deputy ready list: epoch, CTX, node (R111) | empty
  coreWait : List (BitVec 64 × Nat × Nat)      -- list | CORE nodes that wait for a gate entry (R117) | empty
  gates  : List Gate               -- list | open and closing gates (R117) | empty
  engs   : Tab Eng                 -- key 0 to 27 | engines and Blockers (R111, R118) | Eng.init
  hbmShare : Tab (BitVec 11)       -- 8 x 11 | HBM share of Pq (R121) | 0x400
  fabShare : Tab (BitVec 11)       -- 8 x 11 | fabric share of Pq (R121) | 0x400
  deriving DecidableEq, Repr

/-! ## Faults and resets (R397 to R419) -/

/-- A fault record (Table 20-2). -/
structure FaultRec where
  epoch  : BitVec 64
  tick   : Nat
  sev    : Nat
  kind   : Nat
  unit   : Nat
  cls    : Nat
  ctx    : Nat
  fflags : Nat
  action : Nat
  node   : Nat
  addr   : Nat
  detail : BitVec 32
  deriving DecidableEq, Repr

/-- Life of a compute die (Table 20-6, DIE state of Table 4-5). -/
inductive DieState where
  | running
  | disabled
  | fenced          -- steps 2 and 3
  | inReset         -- step 4 done, step 5 running
  | testing         -- step 6
  | linking         -- step 7
  | injecting       -- step 8
  | failed          -- stays fenced and in reset
  deriving DecidableEq, Repr

/-- A suspect of R406. -/
structure Suspect where
  unit  : Nat
  cls   : Nat           -- CLASS of the fault
  sheaf : Sheaf
  deriving DecidableEq, Repr

structure FltS where
  flog   : Tab FaultRec        -- 256 x 32 B | FAB_FLOG_i (R398) | unwritten
  next   : BitVec 8            -- 8 | FAB_FLOG_HEAD NEXT (Table 20-8) | 0
  total  : BitVec 24           -- 24 | FAB_FLOG_HEAD TOTAL (Table 20-8) | 0
  gens   : Tab (BitVec 8)      -- 5 x 8 | FAB_GEN_TBL, key the node (Table 20-8) | 0
  fence  : BitVec 5            -- 5 | FAB_FENCE (Table 20-8) | 0
  chaff  : Tab (BitVec 32)     -- 5 x 32 | FAB_CHAFF of each node (Table 20-8) | 0
  retrains : Tab (BitVec 8)    -- 5 x 8 | FAB_MON RETRAINS of each node (Table 20-8) | 0
  links  : Tab Bool            -- 8 | links fenced: 0-3 ring links, 4-7 CDk-IOD (R415) | false
  linkBad : Tab Bool           -- 8 | a link whose later die was reset for it (R415) | false
  dies   : Tab DieState        -- 4 | state of CDk (R411); Boot enables it | disabled
  clusters : Tab Bool          -- 8 | cluster resetting (R408) | false
  cluOff : Tab Bool            -- 8 | cluster disabled | false
  iodSub : Tab Bool            -- 4 | IOD subsystem resetting: ingest, Denpa, switch, crypto (R408) | false
  stackRst : Tab Bool          -- 4 | stack reset in progress (R408) | false
  stackDue : Tab Bool          -- 4 | a stopped stack that the Reeve is to reset (Table 12-7) | false
  upAt   : Tab Nat             -- key k | tick at which CDk last began to run (R401) | 0
  refLost : Tab Bool           -- 7 | reference clock lost, UNIT of Table 20-7 | false
  suspects : List Suspect      -- list | suspect sheaves awaiting replay (R407) | empty
  reeveHung : Bool             -- 1 | the Reeve monitor has expired (R419) | 0
  safe   : Bool                -- 1 | safe state of Hayward A's side (R354) | 0
  deriving DecidableEq, Repr
/-! ## Mailboxes (R58 to R82) -/

structure Slot where
  state    : BitVec 2       -- 2 | STATE_s (Table 3-5) | 0
  body     : Tab Byte       -- 256 B | MBX_SLOT_s (R69) | 0 (DESIGN CHOICE)
  dbSeq    : BitVec 16      -- 16 | SEQ of the accepted doorbell (R63, R71) | 0 (DESIGN CHOICE)
  lastSeq  : BitVec 16      -- 16 | last completed SEQ (R71) | 0xFFFF
  opcode   : Nat            -- 16 | MBX_CPL_s OPCODE (Table 3-9) | 0 (DESIGN CHOICE)
  cseq     : BitVec 16      -- 16 | MBX_CPL_s SEQ (Table 3-9) | 0 (DESIGN CHOICE)
  code     : Nat            -- 8 | MBX_CPL_s CODE (Table 3-9) | 0 (DESIGN CHOICE)
  cflags   : Nat            -- 8 | MBX_CPL_s CFLAGS (Table 3-9) | 0 (DESIGN CHOICE)
  epoch    : BitVec 64      -- 64 | MBX_CPL_s EPOCH (Table 3-9) | 0 (DESIGN CHOICE)
  respLen  : Nat            -- 32 | MBX_CPL_s RESP_LEN (Table 3-9) | 0 (DESIGN CHOICE)
  respTotal : Nat           -- 32 | MBX_CPL_s RESP_TOTAL (Table 3-9) | 0 (DESIGN CHOICE)
  effTick  : Nat            -- 32 | MBX_CPL_s EFFECT_TICK (Table 3-9) | 0 (DESIGN CHOICE)
  detail   : Nat            -- 32 | MBX_CPL_s DETAIL (Table 3-9) | 0 (DESIGN CHOICE)
  result   : List Byte      -- 32 B | MBX_CPL_s RESULT (Table 3-9) | empty, read as zeros (DESIGN CHOICE)
  resp     : List Byte      -- 2 KiB | MBX_RESP_s (R61) | empty, read as zeros (DESIGN CHOICE)
  copyOp   : Nat            -- 16 | opcode whose response copy is kept (R70) | 0
  copy     : List Byte      -- list | kept response copy (R70) | empty
  copyNonce : BitVec 256    -- 256 | nonce of the ATTEST whose copy is kept (R70) | 0
  deriving DecidableEq, Repr

def Slot.init : Slot :=
  { state := 0#2, body := [], dbSeq := 0#16, lastSeq := 0xFFFF#16, opcode := 0, cseq := 0#16, code := 0,
    cflags := 0, epoch := 0#64, respLen := 0, respTotal := 0, effTick := 0, detail := 0, result := [], resp := [],
    copyOp := 0, copy := [], copyNonce := 0#256 }

structure MbxS where
  master  : BitVec 2        -- 2 | MBX_CTRL MASTER (Table 3-2) | 0
  ready   : Bool            -- 1 | MBX_CTRL READY (Table 3-2) | 0
  role    : Bool            -- 1 | MBX_CTRL ROLE (Table 3-2) | 0
  ifVer   : BitVec 8        -- 8 | MBX_CTRL IF_VER (Table 3-2) | 0
  sticky  : BitVec 4        -- 4 | MBX_STICKY (Table 3-4) | 0
  anomaly : BitVec 16       -- 16 | MBX_ANOMALY_CNT (R64) | 0
  slots   : Tab Slot        -- key 0 to 15 | slots (R61) | Slot.init
  order   : List Nat        -- 16 entries | doorbell order queue, oldest first (R66) | empty
  deriving DecidableEq, Repr

/-- Where an ACTIVE command stands. -/
inductive CmdPhase where
  | working (limit : Nat) (bytes : Nat)    -- background work running, with its limit in ticks (R74, R79)
  | carried                                -- waits for the twin's CFG_ACK (R379)
  | pending                                -- waits for its effect epoch (R75)
  deriving DecidableEq, Repr

/-- An ACTIVE class E or B command (R72 to R77). -/
structure ActCmd where
  slot   : Nat
  opcode : Nat
  seq    : BitVec 16
  body   : List Byte          -- the slot's 256 bytes as taken
  data   : List Byte          -- bytes of its source, read when it was validated or when its work ran
  atEpoch : Bool
  target : BitVec 64          -- TARGET_EPOCH
  taken  : Nat                -- island tick of the take
  phase  : CmdPhase
  degraded : Bool
  remote : Bool               -- carried from the commander (R379)
  graph  : Option Graph       -- graph that GRAPH_LOAD has checked
  deriving DecidableEq, Repr

structure CmdS where
  active : List ActCmd        -- at most 8 | ACTIVE class E and B commands in the order taken (R72, R77) | empty
  fallback : Bool             -- 1 | FALLBACK_REQUEST in force (R296) | 0
  store  : List (List Byte × List Byte) -- list | configuration store: slot body and source data of every class E and B command applied, oldest first (R391) | empty
  deriving DecidableEq, Repr

/-! ## Blockers (R265 to R286) -/

/-- A map slot of a Blocker (R268, Table 13-14). -/
structure MapSlot where
  enable   : Bool          -- 1 | BLK_MAP_CFG ENABLE (Table 13-14) | 0
  ctx      : BitVec 6      -- 6 | BLK_MAP_CFG CTX (Table 13-14) | 0
  buf0     : BitVec 40     -- 40 | BLK_MAP_BUF0 (Table 13-14) | 0
  buf1     : BitVec 40     -- 40 | BLK_MAP_BUF1 (Table 13-14) | 0
  cur      : Bool          -- 1 | CUR (Table 13-14) | 1
  result   : BitVec 3      -- 3 | RESULT (Table 13-14) | 0
  epoch    : BitVec 64     -- 64 | map epoch (R268) | 0
  epochHi  : BitVec 32     -- 32 | BLK_MAP_EPOCH_HI as captured (Table 13-14) | 0
  deriving DecidableEq, Repr

def MapSlot.init : MapSlot :=
  { enable := false, ctx := 0#6, buf0 := 0#40, buf1 := 0#40, cur := true,
    result := 0#3, epoch := 0#64, epochHi := 0#32 }

/-- What a running sheaf or an output stage has latched (R270). -/
structure Latch where
  slot  : Nat
  buf   : Nat           -- header address
  epoch : BitVec 64
  deriving DecidableEq, Repr

structure Blk where
  slots   : Tab MapSlot      -- key 0 to 3 | map slots (R268) | MapSlot.init
  latch   : Option Latch     -- - | map latched by the running sheaf or stage (R270) | none
  doneCnt : BitVec 16        -- 16 | BLK_STAT DONE_CNT (Table 13-14) | 0
  errClass : BitVec 8        -- 8 | BLK_ERR CLASS (Table 13-14) | 0
  errWhere : BitVec 8        -- 8 | BLK_ERR WHERE (Table 13-14) | 0
  errCtx  : BitVec 6         -- 6 | BLK_ERR CTX (Table 13-14) | 0
  errCnt  : BitVec 8         -- 8 | BLK_ERR COUNT (Table 13-14) | 0
  deriving DecidableEq, Repr

def Blk.init : Blk :=
  { slots := [], latch := none, doneCnt := 0#16, errClass := 0#8, errWhere := 0#8, errCtx := 0#6, errCnt := 0#8 }

structure BlkS where
  bp : Tab Blk          -- key k | Blocker BPk (R286) | Blk.init
  deriving DecidableEq, Repr

/-! ## Trajectory output (R287 to R301) -/

/-- The trajectory output configuration (Table 14-1). -/
structure TrajCfg where
  ctx : Nat
  node : Nat
  outTicks : Nat
  lMax : Nat
  nextMax : Nat
  smoothIters : Nat
  staleMs : Nat
  lambda : F32
  vMax : F32
  kappaMax : F32
  krateMax : F32
  jerkMax : F32
  mrpDecel : F32
  mrpJerk : F32
  contMinMs : Nat
  mrpPeriod : Nat
  vk : List F32
  accUp : List F32
  accDn : List F32
  deriving DecidableEq, Repr

/-- A trajectory point (Table 14-7). -/
structure TPoint where
  t : F32
  x : F32
  y : F32
  hx : F32
  hy : F32
  kappa : F32
  v : F32
  a : F32
  deriving DecidableEq, Repr

/-- Result of a completed step of the output stage (R291). -/
structure StepRes where
  cand  : Option (Nat × Nat × Nat)   -- candidate: rank, index and level; none: continuation
  fail  : Nat                        -- 0 valid, else the FAIL code of Table 14-6
  newer : Bool                       -- passed against a newer map epoch or after a STALE check (Table 14-5)
  horizon : Bool
  points : List TPoint
  baseEp : Nat                       -- epoch of the base that step 1 used (R297)
  deriving DecidableEq, Repr

/-- The output stage of one epoch (R290). -/
structure Stage where
  epoch  : BitVec 64
  ctx    : Nat
  bp     : Nat
  started : Bool                -- SELECT completed before the cut
  cut    : Bool
  ended  : Bool                 -- all steps done, or cut
  slot   : Nat                  -- map slot of the SELECT descriptor
  setAddr : Nat                 -- plan set of the SELECT descriptor
  outAddr : Nat                 -- its rank record
  latch  : Option Latch
  stale  : Bool                 -- a commit took effect on the slot while the stage ran (R290)
  steps  : List StepRes         -- completed steps, first step first
  cutTick : Nat
  deriving DecidableEq, Repr

structure OutS where
  cfg    : Option TrajCfg       -- 256 B | trajectory output configuration of the boot configuration (R287) | none
  stages : List Stage           -- list | output stages in progress (R290) | empty
  lastPub : Nat                 -- tick | island tick of the last published record (R301) | 0
  alone  : Bool                 -- 1 | Hayward A issues ISSUER 1 records (R301) | 0
  nextMrp : Nat                 -- tick | next repeat of the ISSUER 1 record (R301) | 0
  issued : List (List Byte)     -- list | ISSUER 1 records sent to the trajectory destinations (R301) | empty
  deriving DecidableEq, Repr
/-! ## KV walkers (R216 to R226) -/

/-- An entry of the look-aside buffer (R219). -/
structure LabEnt where
  ctx   : Nat
  seq   : Nat
  page  : Nat
  gen   : BitVec 16
  frame : Nat
  loc   : Bool
  used  : Nat         -- stamp of the last use
  deriving DecidableEq, Repr

/-- The translation registers of one context on one die (Table 10-11). -/
structure KvCtx where
  rootLo : BitVec 32      -- 29 | KVW_ROOT_LO_c (Table 10-11) | 0
  rootHi : BitVec 8       -- 8 | KVW_ROOT_HI_c (Table 10-11) | 0
  active : BitVec 40      -- 40 | active root (R221) | 0
  mode   : BitVec 2       -- 2 | KVW_CFG_c MODE (Table 10-11) | 0
  gen    : BitVec 16      -- 16 | KVW_GEN_c GEN (Table 10-11) | 0
  walks  : List (BitVec 16 × BitVec 40)   -- list | generations and roots of the walks in progress, oldest first (R221) | empty
  deriving DecidableEq, Repr

def KvCtx.init : KvCtx := { rootLo := 0#32, rootHi := 0#8, active := 0#40, mode := 0#2, gen := 0#16, walks := [] }

/-- An entry of the translation cache of a die's general path (Table 10-7). -/
structure TcEnt where
  ctx   : Nat
  gen   : BitVec 16
  page  : Nat
  frame : Nat
  deriving DecidableEq, Repr

structure KvwDie where
  hits   : BitVec 32      -- 32 | KVW_LAB_HITS (Table 10-11) | 0
  misses : BitVec 32      -- 32 | KVW_LAB_MISSES (Table 10-11) | 0
  fCode  : BitVec 8       -- 8 | KVW_FAULT CODE (Table 10-11) | 0
  fCtx   : BitVec 6       -- 6 | KVW_FAULT CTX (Table 10-11) | 0
  ctxs   : Tab KvCtx      -- key 0 to 63 | per-context registers (R226) | KvCtx.init
  lab    : Tab LabEnt     -- key 0 to 63 | look-aside buffer, unlisted entries empty (R219) | empty
  clock  : Nat            -- count | use stamps for the LRU order of the LAB (R219) | 0
  tc     : List TcEnt     -- list | translation cache of the general path, newest first (Table 10-7) | empty
  waiting : List (Nat × Nat)  -- list | walks that wait: SC and Gleaner, in order of arrival (R219) | empty
  deriving DecidableEq, Repr

def KvwDie.init : KvwDie :=
  { hits := 0#32, misses := 0#32, fCode := 0#8, fCtx := 0#6, ctxs := [], lab := [], clock := 0, tc := [], waiting := [] }

structure KvwS where
  die : Tab KvwDie       -- key k | KV walker of die k (R226) | KvwDie.init
  deriving DecidableEq, Repr

/-! ## Ingest (R302 to R317) -/

/-- A channel entry (Table 15-4). -/
structure IngChanCfg where
  batch : Bool
  ctx : Nat
  startState : Nat
  missZero : Bool
  matchA : Nat
  matchB : Nat
  anyVid : Bool
  vid : Nat
  nbuf : Nat
  slotBytes : Nat
  bufAddr : Nat
  recAddr : Nat
  msgBytes : Nat
  maxMsgs : Nat
  holdFirst : Nat
  holdCnt : Nat
  deriving DecidableEq, Repr

/-- A state entry (Table 15-5). -/
structure IngState where
  cond : Nat
  action : Nat
  be : Bool
  consT : Bool
  consF : Bool
  fw : Nat
  foff : Nat
  nextT : Nat
  nextF : Nat
  val : BitVec 32
  mask : BitVec 32
  deriving DecidableEq, Repr

/-- An ingest table (Tables 15-3 to 15-5). -/
structure IngTable where
  enable : Bool
  fwd : Bool
  closeTicks : Nat
  chans : List IngChanCfg
  states : List IngState
  deriving DecidableEq, Repr

/-- A sample or message in progress or landed for one epoch. -/
structure IngSample where
  epoch   : BitVec 64
  seq     : BitVec 32
  bytes   : List Byte          -- payload so far
  ts      : Option (BitVec 64)
  arrive  : Int
  trunc   : Bool
  crc     : Bool
  hdr     : Bool
  gap     : Bool
  ended   : Bool
  deriving DecidableEq, Repr

/-- What a channel gathers for one epoch (R308, R309). -/
structure IngEp where
  epoch    : BitVec 64
  sample   : Option IngSample      -- FRAME: the sample held
  msgs     : List IngSample        -- BATCH: messages held, in order of BEGIN
  dropped  : Nat
  overflow : Bool
  cause    : Option Nat            -- cause of the closure once it has begun (R309)
  closed   : Bool                  -- closure complete
  present  : Bool
  zeroed   : Bool                  -- the slot has been written with zeros (R309)
  deriving DecidableEq, Repr

structure IngChan where
  cur     : Nat                -- 6 | current state (R306) | 0
  live    : Option IngSample   -- - | sample or message in progress (R306) | none
  begun   : BitVec 32          -- 32 | samples begun, SEQ of Table 15-6 | 0
  seqVal  : Option (BitVec 64) -- 64 or none | last field SEQCHK stored (R306) | none
  eps     : List IngEp         -- list | epochs gathered and not yet forgotten, oldest first (R308) | empty
  closedTo : BitVec 64         -- 64 | highest epoch closed (R309) | 0
  tagQ    : List (BitVec 64 × Int)  -- list | forwarded BEGIN tags not yet used (R314) | empty
  untagged : List IngSample    -- list | samples ended before their TAG, oldest first; not `ended`: aborted, its TAG is dropped (R378) | empty
  topTag  : BitVec 64          -- 64 | highest tag begun (R309) | 0
  fault   : Bool               -- 1 | ING_STAT FAULT bit (R312) | 0
  dup     : BitVec 8           -- 8 | DUP (Table 15-8) | 0
  late    : BitVec 8           -- 8 | LATE (Table 15-8) | 0
  parseErr : BitVec 8          -- 8 | PARSE_ERR (Table 15-8) | 0
  overflow : BitVec 8          -- 8 | OVERFLOW (Table 15-8) | 0
  deriving DecidableEq, Repr

def IngChan.init : IngChan :=
  { cur := 0, live := none, begun := 0#32, seqVal := none, eps := [], closedTo := 0#64, tagQ := [], untagged := [], topTag := 0#64, fault := false,
    dup := 0#8, late := 0#8, parseErr := 0#8, overflow := 0#8 }

/-- A message of a stream that waits to be forwarded (R314). -/
inductive FwdItem where
  | now (m : DMsg)                                       -- goes as soon as nothing is ahead of it
  | begin (ch : Nat) (n : BitVec 64) (tick : Int)        -- FWD_BEGIN of epoch n, whose open event fixes its ARRIVE_TICK
  deriving DecidableEq, Repr

structure IngStream where
  table   : Option IngTable    -- - | table in force (R305) | none
  since   : BitVec 64          -- 64 | effect epoch of the table (R305) | 0
  old     : List (BitVec 64 × Option IngTable) -- list | earlier tables, each with the epoch below which it governs (R305) | empty
  fwdQ    : List FwdItem       -- list | messages to the twin held until an open event (R311, R314) | empty
  lastErr : BitVec 8           -- 8 | LAST_ERR (Table 15-8) | 0
  unmatched : BitVec 8         -- 8 | UNMATCHED (Table 15-8) | 0
  chans   : Tab IngChan        -- key 0 to 7 | channels (R306) | IngChan.init
  deriving DecidableEq, Repr

def IngStream.init : IngStream :=
  { table := none, since := 0#64, old := [], fwdQ := [], lastErr := 0#8, unmatched := 0#8, chans := [] }

structure IngS where
  streams : Tab IngStream      -- key 0 to 63, the byte of Table 15-1 | streams (R302) | IngStream.init
  cpUp    : Tab Bool           -- key 0 to 15 | link of A-PHY port CPn up (Table 15-8 LINK_UP, R416) | 0
  cpMode  : Tab (BitVec 8)     -- key 0 to 15 | gear and profile of CPn from the boot configuration (R303, Table 23-3) | 0
  deriving DecidableEq, Repr

/-! ## Coolant inputs and pump demand (R315, R316) -/

structure CoolS where
  tin     : BitVec 16      -- 16 | THM_COOL_TEMP TIN (Table 15-7) | 0
  tout    : BitVec 16      -- 16 | THM_COOL_TEMP TOUT (Table 15-7) | 0
  tinBad  : Bool           -- 1 | TIN_BAD (Table 15-7) | 0
  toutBad : Bool           -- 1 | TOUT_BAD (Table 15-7) | 0
  flowValid : Bool         -- 1 | FLOW_VALID (Table 15-7) | 0
  flow    : BitVec 20      -- 20 | FLOW (Table 15-7) | 0
  kPulses : BitVec 16      -- 16 | THM_COOL_CFG K_PULSES (Table 15-7) | 0
  pumpEn  : Bool           -- 1 | THM_COOL_CFG PUMP_EN (Table 15-7) | 0
  lock    : Bool           -- 1 | the PWR_ and THM_ registers are locked (R316) | 0
  duty    : BitVec 8       -- 8 | THM_PUMP_DUTY (Table 15-7) | 0xFF
  level   : Bool           -- 1 | filtered level of FLOW_PULSE (R315) | 0
  rawLevel : Bool          -- 1 | level at the pin (R315) | 0
  rawTick : Nat            -- tick | tick of the pin's last change (R315) | 0
  pulses  : Nat            -- count | pulses of the running 1,000,000-tick interval (R315) | 0
  history : List Nat       -- 10 counts | pulses of the last ten intervals, newest first (R315) | empty
  updates : Nat            -- count | FLOW updates since reset (R315) | 0
  deriving DecidableEq, Repr

/-! ## Switch (R318 to R323) -/

/-- A frame held in a queue of a port. -/
structure QFrame where
  frame : SwFrame
  inQ   : Nat           -- CLK_SW quarter periods at arrival (R322)
  own   : Bool          -- it is one of Hayward A's (R422)
  deriving DecidableEq, Repr

/-- A frame on the wire: bytes sent before the running fragment and the fragment's start (R321). -/
structure TxRun where
  q     : QFrame
  cls   : Nat
  sent  : Nat
  start : Nat           -- CLK_SW quarter periods
  first : Nat           -- CLK_SW quarter periods, start of the frame's first fragment
  deriving DecidableEq, Repr

structure SwPort where
  queues : Tab (List QFrame)   -- key 0 to 7 | egress queues, oldest first (R319) | empty
  sending : Option TxRun       -- - | frame or fragment being sent (R321) | none
  paused : Option TxRun        -- - | preempted frame (R321) | none
  gcl    : List (Nat × Nat)    -- 256 entries | Qbv gate control list: open classes and interval (table 0x2n) | empty
  gclPos : Nat                 -- index | entry in effect (R320) | 0
  gclEnd : Nat                 -- CLK_SW quarter periods | end of the entry in effect (R320) | 0
  defVid : Nat                 -- 12 | default VLAN (table 0x3n) | 0
  preempt : Nat                -- 8 | preemptable classes (table 0x3n) | 0
  master : Bool                -- 1 | PHY role of the boot configuration (Table 16-1) | 0
  up     : Bool                -- 1 | link up (R318) | 0
  verified : Bool              -- 1 | preemption verified (R321) | 0
  dropQ  : Tab Nat             -- key 0 to 7 | frames dropped at each queue (R319) | 0
  tooLong : Nat                -- count | frames over 2,048 bytes dropped (Table 16-1) | 0
  noMatch : Nat                -- count | frames with no forwarding entry (table 0x10) | 0
  flushed : Nat                -- count | frames dropped at link loss (Table 16-1) | 0
  filtered : Nat               -- count | frames dropped by filter, gate or meter (tables 0x13 to 0x15) | 0
  hwaOut : List (Bool × SwFrame) -- list | frames that Hayward A has ready for the port and not yet handed over, true for an answer (R422) | empty
  deriving DecidableEq, Repr

def SwPort.init : SwPort :=
  { queues := [], sending := none, paused := none, gcl := [], gclPos := 0, gclEnd := 0, defVid := 0, preempt := 0, master := false,
    up := false, verified := false, dropQ := [], tooLong := 0, noMatch := 0, flushed := 0, filtered := 0, hwaOut := [] }

/-- A two-step Sync relayed, by its identity, with the residence times that its Follow_Up takes (R322). -/
structure SyncSeen where
  key  : List Byte        -- sourcePortIdentity and sequenceId
  port : Nat              -- egress port
  periods : Nat           -- residence in quarter periods of CLK_SW
  deriving DecidableEq, Repr

/-- The token buckets of a flow meter, in parts of 1/20,000,000,000 byte (table 0x15). -/
structure MeterSt where
  last      : Nat         -- CLK_SW quarter periods of the last frame
  committed : Nat
  excess    : Nat
  deriving DecidableEq, Repr

structure SwS where
  images : Tab (List Byte)     -- key table id | image of each switch table (Table 16-2) | empty
  applied : Tab Nat            -- key table id | CLK_SW quarter periods at which the table took effect (R319) | 0
  ports  : Tab SwPort          -- key 0 to 15 | ports (R318) | SwPort.init
  host   : List SwFrame        -- list | frames delivered to HOST, oldest first (R323) | empty
  hwa    : List (Nat × SwFrame) -- list | frames delivered to HWA with their ports, oldest first (R323) | empty
  ingest : List (Nat × SwFrame) -- list | frames delivered to INGEST with their ports, oldest first (R304, R323) | empty
  blocked : Tab Bool           -- key filter index | filter blocked by an oversize frame (Table 16-2) | false
  meters : Tab (Option MeterSt) -- key meter | buckets of a flow meter that has seen a frame (table 0x15) | none
  seqGen : Tab Nat             -- key function | next sequence number of a generation function (table 0x16) | 0
  recov  : Tab (List Nat)      -- key function | number and history bits of a vector recovery function, none before its first frame (table 0x16) | empty
  syncs  : List SyncSeen       -- list | two-step Syncs relayed and not yet followed up (R322) | empty
  lost   : Nat                 -- count | frames of the internal ports with no forwarding entry (table 0x10) | 0
  egress : List (Nat × SwFrame) -- list | frames sent, port and frame, newest first (R319) | empty
  deriving DecidableEq, Repr

/-! ## KCP (R324 to R332, R466 to R468) -/

/-- A KCP request accepted and waiting (R327). -/
structure KcpReq where
  session : Nat
  op      : Nat
  seq     : BitVec 64
  payload : List Byte
  peer    : Option SwFrame   -- the frame that carried it, where the switch has delivered one
  key     : BitVec 256       -- key of the session that it was accepted in (R331)
  write   : Bool             -- that session's right
  deriving DecidableEq, Repr

/-- A KCP frame the endpoint has sent. -/
structure KcpResp where
  ftype   : Nat
  session : Nat
  op      : Nat
  status  : Nat
  seq     : BitVec 64
  payload : List Byte
  deriving DecidableEq, Repr

/-- An open session (R326). -/
structure Session where
  cred   : Nat              -- credential index
  key    : BitVec 256       -- traffic key
  write  : Bool
  lastSeq : Option (BitVec 64)  -- SEQ of the last request accepted, none before the first
  lastTick : Nat            -- tick of the last accepted request
  deriving DecidableEq, Repr

/-- A KCP credential (R466). -/
structure Cred where
  key    : BitVec 256
  write  : Bool
  lastSeq : Option (BitVec 64)  -- SEQ of the last accepted SESSION_OPEN
  deriving DecidableEq, Repr

structure KcpS where
  sessions : Tab (Option Session)  -- key 1 to 4 | sessions (R326) | none
  queue   : List KcpReq     -- 16 entries | accepted requests, oldest first (R327) | empty
  copying : Bool            -- 1 | the head LEDGER_READ has selected its epoch and awaits the copy (R329) | 0
  sent    : List KcpResp    -- list | responses sent, newest first (R327) | empty
  dropped : Nat             -- count | frames dropped without response (R325) | 0
  full    : Nat             -- count | requests dropped at a full queue (R327) | 0
  creds   : List (Option Cred) -- 4 entries | credentials of the boot configuration, none where unused (R466) | empty
  idle    : Nat             -- ticks | SESSION_IDLE (R326) | 100,000,000
  stageLo : Nat             -- 40 | staging range start (R330) | 0
  stageHi : Nat             -- 40 | staging range end (R330) | 0
  named   : List Nat        -- list | contexts whose HBM range BULK_WRITE may write (R330) | empty
  deriving DecidableEq, Repr

/-! ## Application cores and coherence (R333 to R346) -/

structure Core where
  ctx    : BitVec 6       -- 6 | GXCTX CTX (Table 17-2) | 0
  valid  : Bool           -- 1 | GXCTX VALID (Table 17-2) | 0
  sc     : BitVec 2       -- 2 | GXCTX SC (Table 17-2) | 3
  part   : BitVec 3       -- 3 | GXCTX PART (Table 17-2) | 0
  errValid : Bool         -- 1 | GXERR VALID (Table 17-3) | 0
  errCount : BitVec 8     -- 8 | GXERR COUNT (Table 17-3) | 0
  errCtx : BitVec 6       -- 6 | GXERR CTX (Table 17-3) | 0
  errLine : BitVec 34     -- 34 | GXERR LINE (Table 17-3) | 0
  errCode : BitVec 6      -- 6 | GXERR CODE (Table 17-3) | 0
  cycleOff : BitVec 64    -- 64 | offset of mcycle and cycle to the replica counter (R334) | 0
  instret : BitVec 64     -- 64 | minstret (R334) | 0
  hpm    : Tab (BitVec 64) -- key 3 to 10 | mhpmcounter3 to mhpmcounter10 (R334) | 0
  event  : Tab (BitVec 8) -- key 3 to 10 | mhpmevent codes (R334) | 0
  resv   : Option Nat     -- 34 or none | line of the reservation set (Table 17-1) | none
  waitBeat : Option Nat   -- beats or none | beat at which a WRS ends at the latest (Table 17-1) | none
  stimecmp : BitVec 64    -- 64 | stimecmp (Table 17-1) | 0 (DESIGN CHOICE)
  overflow : Tab Bool     -- key 3 to 10 | OF of mhpmevent3 to mhpmevent10 (Table 17-1) | 0
  cause    : BitVec 6     -- 6 | cause of the last exception taken (R29, R338) | 0 (DESIGN CHOICE)
  tval     : BitVec 64    -- 64 | address that the last exception reports (R29) | 0 (DESIGN CHOICE)
  traps    : Nat          -- count | exceptions taken (R29, R338) | 0
  l1i      : List Nat     -- 1024 lines | lines in the L1 instruction cache, newest first (R341) | empty
  l1d      : List Nat     -- 1024 lines | lines in the L1 data cache, newest first (R341) | empty
  deriving DecidableEq, Repr

def Core.init : Core :=
  { ctx := 0#6, valid := false, sc := 3#2, part := 0#3, errValid := false, errCount := 0#8, errCtx := 0#6,
    errLine := 0#34, errCode := 0#6, cycleOff := 0#64, instret := 0#64, hpm := [], event := [], resv := none,
    waitBeat := none, stimecmp := 0#64, overflow := [], cause := 0#6, tval := 0#64, traps := 0, l1i := [], l1d := [] }

/-- A line held in a cluster's L2 (R341). -/
structure CLine where
  own  : Bool            -- held for ownership (modified)
  data : BitVec 512
  ctx  : Nat             -- CTX the line carries (R340)
  deriving DecidableEq, Repr

/-- A directory entry (R341, R343). -/
structure DirEnt where
  owner   : Option Nat
  sharers : List Nat
  used    : Nat          -- stamp of the last use
  deriving DecidableEq, Repr

/-- What a core does with the line it asks for. -/
inductive CoreAcc where
  | load (l : CoreLoad)
  | store (st : CoreStore)
  | amo (op : AtomicOp) (off size : Nat) (operand compare : BitVec 64)
  deriving DecidableEq, Repr

/-- A request of a core for a line (R342). -/
structure CohReq where
  core    : Nat
  own     : Bool
  upgrade : Bool
  acc     : CoreAcc
  deriving DecidableEq, Repr

/-- What the home serves for a line, and the requests that wait behind it (R342). `req` none: the holders of an evicted
directory entry are invalidated (R343). -/
structure CohTxn where
  req     : Option CohReq
  acks    : Nat
  put     : Bool                  -- waits for a PUT in flight from the requester's cluster
  waiting : List CohReq
  deriving DecidableEq, Repr

/-- A coherence message in flight (Table 17-4). -/
structure CohMsg where
  kind : Nat
  dest   : Nat             -- cluster; for ACK and DATA to the home, the cluster it comes from
  line : Nat
  data : BitVec 512
  own  : Bool
  req  : Nat             -- requester of a forward; of an ACK 0: to the home, 1: PUT done, 2: UPGRADE granted
  src  : Nat             -- node that sends it
  sc   : Nat             -- SC of its channel, 4 the response channel (R342)
  ctx  : Nat
  part : Nat
  gen  : BitVec 8        -- GEN of the node when it was sent (R410)
  deriving DecidableEq, Repr

structure CoreS where
  cores : Tab Core         -- key 0 to 31 | application cores (R333) | Core.init
  time0 : Tab Nat          -- key 0 to 7 | replica beat at which each cluster's time was 0 (R334) | 0
  lines : Tab CLine        -- key cluster * 2^34 + line | L2 lines held (R341) | not held
  dir   : Tab DirEnt       -- key line | directory entries (R341) | no holder
  txns  : Tab CohTxn       -- key line | requests being served (R342) | none
  msgs  : List CohMsg      -- list | coherence messages in flight, oldest first (R342) | empty
  clock : Nat              -- count | use stamps of the directory (R343) | 0
  deriving DecidableEq, Repr
/-! ## Hayward islands (R347 to R370) -/

/-- A watchdog configuration (Table 18-3). -/
structure WdgCfg where
  enable : Bool
  safety : Bool
  kind   : Nat
  src    : Nat
  parts  : Nat
  node   : Nat
  openT  : Nat
  closeT : Nat
  deriving DecidableEq, Repr

def WdgCfg.init : WdgCfg :=
  { enable := false, safety := false, kind := 0, src := 0, parts := 0, node := 0, openT := 0, closeT := 0 }

/-- A judgement of one stage for one open epoch (R356). -/
structure WdgJudge where
  stage   : Nat
  epoch   : BitVec 64
  outcome : Nat
  edge    : Bool
  tick    : Nat
  deriving DecidableEq, Repr

structure WdgStage where
  cfg     : WdgCfg          -- 64 B | configuration in force (R355) | disabled
  outcome : BitVec 3        -- 3 | WDG_STAGE_n OUTCOME (Table 18-11) | 0
  edge    : Bool            -- 1 | EDGE (Table 18-11) | 0
  dup     : BitVec 8        -- 8 | DUP (Table 18-11) | 0
  edgeCnt : BitVec 8        -- 8 | EDGE_CNT (Table 18-11) | 0
  failCnt : BitVec 8        -- 8 | FAIL_CNT (Table 18-11) | 0
  deriving DecidableEq, Repr

def WdgStage.init : WdgStage :=
  { cfg := WdgCfg.init, outcome := 0#3, edge := false, dup := 0#8, edgeCnt := 0#8, failCnt := 0#8 }

/-- A transaction the comparator holds (R348). -/
structure HeldTxn where
  core : Bool
  txn  : Txn
  tick : Nat
  deriving DecidableEq, Repr

/-- A queued input of the exchange unit (R350). -/
structure ExchEnt where
  input : ExchInput
  tick  : Nat
  deriving DecidableEq, Repr

/-- The golden sheaf of an open epoch (R358, R359). `state`: 0 queued SC3, 1 queued SC0, 2 queued at the head of SC0,
3 running, 4 done. -/
structure GoldEp where
  epoch  : BitVec 64
  engine : Nat
  variant : Nat
  state  : Nat
  late   : Bool          -- started at or after GOLDEN_DUE
  outcome : Nat
  tick   : Nat
  deferrals : Nat
  deriving DecidableEq, Repr

/-- Self-test of one unit (R361 to R365). -/
structure Stest where
  next    : Nat          -- index | next slice | 0
  waiting : Nat          -- count | slices due and not started | 0
  forced  : Bool         -- 1 | the waiting slice is forced (R363) | 0
  dueAt   : Nat          -- tick | when the next slice falls due, 0 before the first | 0
  running : Option Nat   -- tick or none | start of the running slice (R362) | none
  deriving DecidableEq, Repr

def Stest.init : Stest := { next := 0, waiting := 0, forced := false, dueAt := 0, running := none }

/-- A heartbeat answer sent (Table 18-8). -/
structure HbAnswer where
  port : Nat
  dst  : BitVec 48
  hstate : Nat
  cseq : BitVec 32
  answer : BitVec 64
  latest : BitVec 64
  since : Nat
  deriving DecidableEq, Repr

structure HwaS where
  stages  : Tab WdgStage      -- key 0 to 15 | stage watchdogs (R370) | WdgStage.init
  judged  : List WdgJudge     -- list | judgements of open epochs (R356) | empty
  epCfg   : List (BitVec 64 × Nat × WdgCfg)  -- list | configuration that governs each open epoch and stage (R355) | empty
  held    : Option HeldTxn    -- - | transaction the comparator holds (R348) | none
  fault   : Bool              -- 1 | lockstep fault raised (R348) | 0
  splitA  : Bool              -- 1 | WDG_ISLAND SPLIT_A (Table 18-11) | 0
  splitB  : Bool              -- 1 | WDG_ISLAND SPLIT_B (Table 18-11) | 0
  eccCorr : BitVec 8          -- 8 | ECC_CORR (Table 18-11) | 0
  exchMax : BitVec 8          -- 8 | EXCH_MAX (Table 18-11) | 0
  rdata   : Tab (BitVec 32)   -- key 0, 1 | data of the latest read that the comparator gave each core (R348) | 0
  sram    : Tab Byte          -- 512 KiB | shared memory of Hayward A (Table 18-1) | 0 (DESIGN CHOICE)
  aliveSeen : Tab Nat         -- key 0, 1 | tick of each core's last alive word (R352) | 0
  queue   : List ExchEnt      -- 64 entries | exchange queue, oldest first (R350) | empty
  waiting : List ExchInput    -- list | inputs held at their source (R351) | empty
  pollAns : Option (Bool × Option ExchEnt)  -- - | first poll of a pair and its answer (R350) | none
  taken   : List ExchEnt      -- list | entries both copies hold, oldest first (R350) | empty
  engine  : BitVec 5          -- 5 | WDG_GOLDEN ENGINE (Table 18-11) | 0
  variant : BitVec 3          -- 3 | WDG_GOLDEN VARIANT (Table 18-11) | 0
  goldLast : BitVec 2         -- 2 | WDG_GOLDEN LAST (Table 18-11) | 0
  deferrals : BitVec 4        -- 4 | WDG_GOLDEN DEFERRALS (Table 18-11) | 0
  goldFail : BitVec 8         -- 8 | WDG_GOLDEN FAIL_CNT (Table 18-11) | 0
  goldPass : BitVec 8         -- 8 | WDG_GOLDEN PASS_CNT (Table 18-11) | 0
  golds   : List GoldEp       -- list | golden sheaves of open epochs (R359) | empty
  answers : Tab (List Byte)   -- 32 x 4 KiB | known answers, key 32 * kind + variant (R360) | empty
  known   : List Nat          -- list | ticks of golden and slice failures, for the KNOWN evidence (Table 19-6) | empty
  stUnit  : BitVec 5          -- 5 | WDG_STEST UNIT (Table 18-11) | 0
  stLast  : BitVec 3          -- 3 | WDG_STEST LAST (Table 18-11) | 0
  stMissed : BitVec 8         -- 8 | WDG_STEST MISSED (Table 18-11) | 0
  stForced : BitVec 8         -- 8 | WDG_STEST FORCED (Table 18-11) | 0
  stFail  : BitVec 8          -- 8 | WDG_STEST FAIL_CNT (Table 18-11) | 0
  units   : Tab Stest         -- key 0 to 27 | self-test of each unit (R361) | Stest.init
  answered : BitVec 16        -- 16 | WDG_HB ANSWERED (Table 18-11) | 0
  hbDropped : BitVec 8        -- 8 | WDG_HB DROPPED (Table 18-11) | 0
  lastCseq : BitVec 32        -- 32 | LAST, its low byte WDG_HB LAST_CSEQ (R368, Table 18-11) | 0
  lastAns : Option Nat        -- tick or none | tick of the latest answer (R368) | none
  hbSent  : List HbAnswer     -- list | answers sent, newest first (R367) | empty
  etype   : BitVec 16         -- 16 | HB_ETYPE (Table 18-6) | 0x88B5
  vid     : BitVec 12         -- 12 | HB_VID (Table 18-6) | 2
  lastSentry : Nat            -- tick | tick of the last sentry message sent (R353) | 0
  key     : BitVec 64         -- 64 | HB_KEY (Table 18-6) | 0 (DESIGN CHOICE)
  goldDue : Nat               -- 32 | GOLDEN_DUE (Table 18-6) | 1,000,000
  stPeriod : Nat              -- 32 | STEST_PERIOD (Table 18-6) | 10,000,000
  deriving DecidableEq, Repr

/-- A sentry message sent (R353). -/
structure SentryMsg where
  tick  : BitVec 32
  fault : Bool
  halt  : Bool
  deriving DecidableEq, Repr

structure HwbS where
  first   : Bool              -- 1 | first sentry message of this start received (R497) | 0
  lastB   : Nat               -- tick B | arrival of the previous sentry message (R353) | 0
  history : List (BitVec 32 × Nat)  -- 100 entries | tick A and tick B of the latest messages, newest first (R353) | empty
  fault   : Bool              -- 1 | Hayward B has raised a fault (R353) | 0
  held    : Option HeldTxn    -- - | transaction the comparator of Hayward B holds (R348) | none
  rdata   : Tab (BitVec 32)   -- key 0, 1 | data of the latest read that the comparator gave each core (R348) | 0
  sram    : Tab Byte          -- 128 KiB | shared memory of Hayward B (Table 18-1) | 0 (DESIGN CHOICE)
  aliveSeen : Tab Nat         -- key 0, 1 | tick of each core's last alive word (R352) | 0
  sent    : List SentryMsg    -- list | sentry messages of Hayward A in flight, oldest first (R353) | empty
  startB  : Nat               -- tick B | release of RESET_N (R442) | 0
  deriving DecidableEq, Repr

/-! ## The pair (R371 to R396) -/

/-- A frame sent and not yet acknowledged (R373). -/
structure TxFrame where
  fseq  : BitVec 12
  ch    : Nat
  payload : List Byte
  sent  : Nat             -- CLK_DNP period of its first transmission
  deriving DecidableEq, Repr

structure DnpS where
  state   : Nat             -- 0 to 3 | link: 0 down, 1 training, 2 up, 3 waiting after a failed attempt (R375) | 0
  changed : Nat             -- CLK_DNP | period at which the state last changed (R373, R375) | 0
  txSeq   : BitVec 12       -- 12 | FSEQ of the last non-idle frame sent (R372) | 0 (DESIGN CHOICE)
  rxSeq   : BitVec 12       -- 12 | FSEQ of the last frame received in order (R372) | 0 (DESIGN CHOICE)
  nak     : Bool            -- 1 | NAK goes into the next frame sent (R373) | 0
  crcRun  : Nat             -- 0 to 4 | consecutive CRC failures (R373) | 0
  unacked : List TxFrame    -- list | frames awaiting acknowledgement, oldest first (R373) | empty
  replay  : List TxFrame    -- list | frames to be sent again, oldest first (R373) | empty
  out     : Tab (List Byte) -- key channel | bytes waiting to be sent (R374) | empty
  inp     : Tab (List Byte) -- key channel | bytes received and not yet a whole message (R376) | empty
  credits : Tab Nat         -- key channel | credits held (R374) | 0
  handed  : Tab Nat         -- key channel | bytes handed to the transmitter since training (R377, R391) | 0
  acked   : Tab Nat         -- key channel | bytes that the twin has acknowledged since training (R373) | 0
  starved : Tab (Option Nat) -- key channel | period since which data has waited without credit (R374) | none
  msgs    : List DMsg       -- list | messages received and not yet handled, oldest first (R376) | empty
  sent    : List DFrame     -- list | frames sent, newest first (R372) | empty
  lastTx  : Nat             -- CLK_DNP | period of the last frame sent (R374) | 0
  faults  : Nat             -- count | link faults declared, and messages of unknown TYPE (R373, R376) | 0
  deriving DecidableEq, Repr

/-- A carried command whose CFG_ACK is awaited or received (R379). -/
structure Carried where
  slot : Nat
  seq  : BitVec 16
  deriving DecidableEq, Repr

/-- An OPEN message received, or one sent whose acknowledgement is awaited (R377). -/
structure OpenMsg where
  epoch    : BitVec 64
  deadline : Nat
  paired   : Bool
  first    : Bool
  apply    : List (BitVec 8 × BitVec 16)
  deriving DecidableEq, Repr

structure PairS where
  pstate  : BitVec 3        -- 3 | WDG_PAIR PSTATE (Table 19-10) | 4
  leaves  : BitVec 8        -- 8 | WDG_PAIR LEAVES (Table 19-10) | 0
  term    : BitVec 8        -- 8 | WDG_PAIR TERM (Table 19-10) | 0
  serial  : BitVec 64       -- 64 | this module's package serial (R34) | 0 (DESIGN CHOICE: fused)
  twin    : Option (BitVec 64 × BitVec 8)   -- - | twin's serial and IOD revision from IDENT (R375) | none
  twinHb  : Option Nat      -- tick or none | tick of the last ROLE_HB (R385) | none
  twinState : BitVec 8      -- 8 | PSTATE of the last ROLE_HB (Table 19-5) | 0
  twinCan : Bool            -- 1 | CAN_CMD of the last ROLE_HB (Table 19-5) | 0
  twinOpened : BitVec 64    -- 64 | latest opened epoch of the last ROLE_HB (Table 19-5) | 0
  twinDecided : BitVec 64   -- 64 | latest decided epoch of the last ROLE_HB (Table 19-5) | 0
  twinGen : BitVec 64       -- 64 | CONFIG_GEN of the last ROLE_HB (Table 19-5) | 0
  lastHb  : Nat             -- tick | last ROLE_HB sent (R385) | 0
  hbSent  : Bool            -- 1 | ROLE_HB has been sent since the link came up (R386) | 0
  aliveOut : Bool           -- 1 | level of PAIR_ALIVE_OUT (R385) | 0
  lastTog : Nat             -- tick | last toggle of PAIR_ALIVE_OUT (R385) | 0
  aliveIn : Bool            -- 1 | filtered level of PAIR_ALIVE_IN (R498) | 0
  lastEdge : Option Nat     -- tick or none | last edge counted on PAIR_ALIVE_IN (R498) | none
  since   : Nat             -- tick | tick at which PSTATE was entered (R387) | 0
  edgeIn  : Bool            -- 1 | an edge arrived while DECIDING (R387) | 0
  openHeld : List (OpenMsg × Nat)  -- list | epochs whose OPEN awaits its acknowledgement, each with the bytes handed to channel 1 when it had been (R377) | empty
  expelled : Option (BitVec 64) -- 64 or none | epoch after whose record this module leaves (R383) | none
  joinRun : Bool            -- 1 | commander: the joiner runs epochs on OPEN (R391) | 0
  joinMark : Option Nat     -- count or none | commander: bytes handed to channel 2 with the last image part (R391) | none
  carried : List Carried    -- list | commands carried whose CFG_ACK is awaited (R379) | empty
  cfgGot  : Nat             -- count | bytes of CFG_DATA received and not yet claimed by a CFG (R379) | 0
  cfgBodies : List (Nat × List Byte × Nat) -- list | CFG received: slot, body and the data it awaits (R379) | empty
  earlyTwin : List (BitVec 64 × TwinEp) -- list | what the twin has sent about epochs whose open event this commander still holds (R377) | empty
  twinOpen : List (BitVec 64) -- list | epochs this commander has decided and the standby has not (R84) | empty
  joinSent : Bool           -- 1 | JOIN_REQ sent (R391) | 0
  joinImage : Tab Byte      -- list | configuration store received (R391) | empty
  joinHas : Bool            -- 1 | joiner: the whole store has been received and applied (R391) | 0
  joiner  : Bool            -- 1 | commander: a joiner has been sent the configuration store (R391) | 0
  joinFirst : Bool          -- 1 | joiner: OPEN with FIRST seen (R391) | 0
  hideTly : Bool            -- 1 | TLY_LATEST, TLY_OLDEST and TLY_OPENED read 0 (R391) | 0
  joinPair : Bool           -- 1 | commander: next OPEN carries PAIRED (R391) | 0
  matchRun : Nat            -- 0 to 16 | consecutive matching epochs (R391) | 0
  swapAt  : Option (BitVec 64) -- 64 or none | effect epoch of a ROLE_SWAP being carried out (R389) | none
  rehKind : BitVec 4        -- 4 | WDG_REHEARSE KIND (Table 19-10) | 0
  rehLast : BitVec 2        -- 2 | WDG_REHEARSE LAST (Table 19-10) | 0
  rehFail : BitVec 8        -- 8 | WDG_REHEARSE FAIL_CNT (Table 19-10) | 0
  rehPass : BitVec 16       -- 16 | WDG_REHEARSE PASS_CNT (Table 19-10) | 0
  interval : Nat            -- 36 | rehearsal INTERVAL in force (R394) | 60,000,000,000
  mask    : BitVec 6        -- 6 | rehearsal MASK (R394) | 0x3F
  lastReh : Nat             -- tick | start of the current rehearsal interval (R394) | 0
  rehNow  : Bool            -- 1 | a rehearsal is due at once after a role swap (R395) | 0
  rehAt   : Option (Nat × Nat) -- tick and unit or none | start and unit of the running rehearsal (R394) | none
  rehUnit : Tab Nat         -- key kind | next unit of the rotation (R394) | 0
  deriving DecidableEq, Repr

/-! ## Boot and journal (R436 to R451) -/

/-- A journal entry (Table 23-5), CRC implied good. -/
structure JEntry where
  kind   : Nat
  step   : Nat
  uKind  : Nat
  uIndex : Nat
  outcome : Nat
  state  : Nat
  start  : BitVec 32
  tick   : Nat
  detail : BitVec 32
  epoch  : BitVec 64
  deriving DecidableEq, Repr

structure BootS where
  half0  : List JEntry      -- 7,168 entries | journal half H0 in flash, oldest first (R443) | empty
  half1  : List JEntry      -- 7,168 entries | journal half H1 in flash, oldest first (R443) | empty
  step   : BitVec 8         -- 8 | BJ_STATUS STEP (Table 23-9) | 0
  state  : BitVec 2         -- 2 | BJ_STATUS STATE (Table 23-9) | 0
  jfail  : Bool             -- 1 | BJ_STATUS JFAIL (Table 23-9) | 0
  badA   : Bool             -- 1 | BJ_STATUS BAD_A (Table 23-9) | 0
  badB   : Bool             -- 1 | BJ_STATUS BAD_B (Table 23-9) | 0
  slot   : Bool             -- 1 | BJ_STATUS SLOT (Table 23-9) | 0
  startCnt : BitVec 32      -- 32 | BJ_START_CNT (Table 23-9) | 0
  stackCons : BitVec 4      -- 4 | BJ_UNITS STACK_CONS (Table 23-9) | 0
  stackOut : BitVec 4       -- 4 | BJ_UNITS STACK_OUT (Table 23-9) | 0
  dieDis : BitVec 4         -- 4 | BJ_UNITS DIE_DIS (Table 23-9) | 0
  engDis : BitVec 28        -- 28 | BJ_ENG_DIS (Table 23-9) | 0
  cluDis : BitVec 8         -- 8 | BJ_CLU_DIS (Table 23-9) | 0
  failStep : BitVec 8       -- 8 | BJ_LAST_FAIL STEP (Table 23-9) | 0
  failOut : BitVec 8        -- 8 | BJ_LAST_FAIL OUTCOME (Table 23-9) | 0
  failKind : BitVec 8       -- 8 | BJ_LAST_FAIL UNIT_KIND (Table 23-9) | 0
  failIdx : BitVec 8        -- 8 | BJ_LAST_FAIL UNIT_INDEX (Table 23-9) | 0
  stepTick : Nat            -- tick | start of the current step (R441) | 0
  left : List (Nat × Nat)   -- list | units of the current step not yet ended: UNIT_KIND and UNIT_INDEX (R444) | empty
  startTick : Nat           -- tick | release of RESET_N (R441) | 0
  config : List Byte        -- 64 KiB | boot configuration body in use (R440) | empty
  images : Tab (List Byte)  -- key 8 * slot + type | images in flash, header and body (R437, R438) | empty (DESIGN CHOICE)
  dieSerial : List (BitVec 64) -- 4 x 64 | package serial in the fuses of CD0 to CD3 (R34, R35) | 0 (DESIGN CHOICE: fused)
  dieId  : List (BitVec 32) -- 5 x 32 | FAB_DIE_ID of CD0 to CD3 and the IOD (R33) | fused, see log
  cap    : List (BitVec 2)  -- 5 x 2 | FAB_FEAT CAP_HOLD_1K, CAP_GX3 (R448) | fused, see log
  en     : List (BitVec 2)  -- 5 x 2 | FAB_FEAT EN_HOLD_1K, EN_GX3 (R448) | 0
  started : Bool            -- 1 | the start has begun: RESET_N and all nine power-good inputs have read high (R493) | 0
  deriving DecidableEq, Repr

/-! ## Security (R452 to R472) -/

/-- A key place (R460): kind 1 weight key, 2 record key. -/
structure KeyPlace where
  kind : Nat
  key  : BitVec 256
  deriving DecidableEq, Repr

/-- The transport pair in force (R459). -/
structure TxPair where
  nonce : BitVec 256
  ident : Nat             -- which pair the vault's generator has made
  evidence : List Byte    -- the evidence signed with it, 7,168 bytes (R458)
  deriving DecidableEq, Repr

/-- An entry of the replay list (R465). -/
structure Replay where
  place : Nat
  src   : Nat
  dst   : Nat
  len   : Nat
  ok    : Bool          -- the latest run, the command's own or a replay, completed with OK
  deriving DecidableEq, Repr

/-- What the evidence says of one image (Table 24-2). -/
structure ImgInfo where
  ty   : Nat
  root : Nat
  version : BitVec 32
  rollback : BitVec 32
  hash : BitVec 384
  deriving DecidableEq, Repr

structure SecS where
  roots   : List (Option (BitVec 384)) -- 4 x 48 B | ROOT_HASH_r (Table 24-1) | blank (DESIGN CHOICE)
  revoke  : BitVec 4        -- 4 | ROOT_REVOKE (Table 24-1) | 0 (DESIGN CHOICE)
  rollback : Nat            -- 0 to 64 | fused ROLLBACK count (Table 24-1) | 0 (DESIGN CHOICE)
  testLock : Bool           -- 1 | TEST_LOCK (R502) | 1
  meas    : BitVec 384      -- 384 | MEAS (R457) | 0
  imgs    : List ImgInfo    -- 5 x 64 B | images that have passed (Table 24-2) | empty
  pair    : Option TxPair   -- - | transport pair in force (R459) | none
  nextPair : Option TxPair  -- - | pair that waits for a KEY_INSTALL to end (R459) | none
  made    : Nat             -- count | transport pairs generated (R459) | 0
  places  : Tab (Option KeyPlace)  -- 16 places | key places (R460) | empty
  replays : List Replay     -- 256 entries | replay list (R465) | empty
  rng     : Nat             -- count | values drawn from the vault's random generator (R467) | 0
  deriving DecidableEq, Repr

/-! ## Operating points, power and heat (R47 to R57, R473 to R489) -/

/-- A level of an operating-point table (Table 2-7). -/
structure OpcLevel where
  valid : Bool
  rate  : BitVec 16
  volt  : BitVec 32
  deriving DecidableEq, Repr

/-- An entry of a throttle table (R481). -/
structure ThrEnt where
  valid : Bool
  cap   : BitVec 4
  tOn   : BitVec 16
  deriving DecidableEq, Repr

/-- A sensor pair (Table 25-8). -/
structure SPair where
  value  : BitVec 16      -- 16 | VALUE (Table 25-8) | 0
  valid  : Bool           -- 1 | VALID (Table 25-8) | 0
  faulty : Bool           -- 1 | FAULTY (Table 25-8) | 0
  badA   : Bool           -- 1 | BAD_A (Table 25-8) | 0
  badB   : Bool           -- 1 | BAD_B (Table 25-8) | 0
  disagree : BitVec 5     -- 5 | DISAGREE (Table 25-8) | 0
  deriving DecidableEq, Repr

def SPair.init : SPair :=
  { value := 0#16, valid := false, faulty := false, badA := false, badB := false, disagree := 0#5 }

/-- Power and heat of one compute die. -/
structure OpcDie where
  opc     : Tab OpcLevel    -- 16 levels | PWR_OPC_RATE_n and VOLT_n (Table 2-7) | 0
  thr     : Tab ThrEnt      -- 16 entries | PWR_THR_n (Table 25-8) | 0
  keepOpc : Tab OpcLevel    -- 16 levels | the Reeve's own copy of the table (R50) | 0
  keepThr : Tab ThrEnt      -- 16 entries | the Reeve's own copy of the throttle table (R50) | 0
  keepLvl : BitVec 4        -- 4 | the Reeve's own copy of LEVEL_CMD (R50) | 0
  vcode   : BitVec 8        -- 8 | PWR_OP_STATUS VCODE (Table 2-9) | 0x50
  levelEff : BitVec 4       -- 4 | LEVEL_EFF (Table 2-9) | 0
  levelCmd : BitVec 4       -- 4 | LEVEL_CMD (Table 2-9) | 0
  levelCap : BitVec 4       -- 4 | LEVEL_CAP (Table 2-9) | 0xF
  band    : BitVec 2        -- 2 | BAND (Table 2-9) | 0
  slewing : Bool            -- 1 | SLEWING (Table 2-9) | 0
  margin  : Bool            -- 1 | MARGIN (Table 2-9) | 0
  target  : BitVec 8        -- 8 | code of the voltage write in flight (R54) | 0x50
  lastChange : Option Nat   -- tick or none | tick of the last voltage write (R53) | none
  bandCnt : Nat             -- 0 to 16 | consecutive cooler evaluations of the band (R53) | 0
  bandMax : Int             -- 1/16 C | highest reading of that run (R53) | 0
  monValid : Bool           -- 1 | PWR_RATE_MON VALID (Table 2-10) | 0
  rate    : BitVec 16       -- 16 | RATE_MEAS (Table 2-10) | 0
  shortCnt : Nat            -- 0 to 3 | consecutive short windows (R57) | 0
  goodCnt : Nat             -- 0 to 16 | consecutive windows at or above the rate (R57) | 0
  raise   : Nat             -- code steps | voltage code raised by the rate monitor (R57) | 0
  raiseDue : Bool           -- 1 | a raise waits for the rate limit of R53 (R57) | 0
  marginRec : Bool          -- 1 | margin warning for the next record (R57) | 0
  power   : BitVec 16       -- 16 | PWR_DIE_POWER (Table 25-8) | 0
  pairs   : Tab SPair       -- key 0 to 11 | THM_PAIR_p (Table 25-8) | SPair.init
  missing : Nat             -- 0 to 16 | consecutive samples without a pair value (R479) | 0
  thrIn   : Option Nat      -- 0 to 15 or none | throttle entry in force (R480) | none
  thrCnt  : Nat             -- 0 to 16 | cooling count of the entry (R480) | 0
  thrMax  : Int             -- 1/16 C | highest reading of that run (R480) | 0
  thrFresh : Bool           -- 1 | the next evaluation is afresh (R481) | 0
  warm    : Bool            -- 1 | keep-warm runs on the die (R483) | 0
  hbmLim  : Nat             -- 0 to 2 | thermal share limit of HSk: 0 none, 1 512, 2 256 (R482) | 0
  hbmCnt  : Nat             -- 0 to 16 | cooling count of that limit (R482) | 0
  hbmMax  : Int             -- 1/16 C | highest reading of that run (R482) | 0
  deriving DecidableEq, Repr

def OpcDie.init : OpcDie :=
  { opc := [], thr := [], keepOpc := [], keepThr := [], keepLvl := 0#4, vcode := 0x50#8, levelEff := 0#4,
    levelCmd := 0#4, levelCap := 0xF#4, band := 0#2, slewing := false, margin := false, target := 0x50#8,
    lastChange := none, bandCnt := 0, bandMax := 0, monValid := false, rate := 0#16, shortCnt := 0, goodCnt := 0,
    raise := 0, raiseDue := false, marginRec := false, power := 0#16, pairs := [], missing := 0, thrIn := none,
    thrCnt := 0, thrMax := 0, thrFresh := false, warm := false, hbmLim := 0, hbmCnt := 0, hbmMax := 0 }

structure ThmS where
  dies    : Tab OpcDie      -- key k | power and heat of CDk (R50, R489) | OpcDie.init
  iod     : Tab SPair       -- key 0 to 3 | THM_IOD_p (R489) | SPair.init
  sd      : Tab SPair       -- key 0 to 1 | THM_SD_p (R489) | SPair.init
  pcap    : BitVec 4        -- 4 | PWR_PKG_CAP PCAP (Table 25-8) | 0xF
  stale   : Bool            -- 1 | TELEM_STALE (Table 25-8) | 0
  sinceDrop : Nat           -- 0 to 10 | since_drop (R476) | 10
  lowRun  : Nat             -- 0 to 99 | low_run (R476) | 0
  history : List Nat        -- 100 values | package power values, newest first (R476) | empty
  power   : BitVec 16       -- 16 | PWR_PKG POWER (Table 25-8) | 0
  rails   : Tab (BitVec 16 × BitVec 16)  -- 16 x 32 | PWR_RAIL_r: VOUT, IOUT (Table 25-8) | 0
  dieVI   : Tab (BitVec 16 × BitVec 16)  -- 4 x 32 | last VOUT and IOUT of VDD_CDk (R475) | 0
  shutdown : Bool           -- 1 | THM_STATE SHUTDOWN (Table 25-8) | 0
  coolLoss : Bool           -- 1 | THM_STATE COOL_LOSS (Table 25-8) | 0
  vehReady : Bool           -- 1 | THM_STATE VEH_READY (Table 25-8) | 0
  lowFlow : BitVec 8        -- 8 | THM_STATE LOW_FLOW (Table 25-8) | 0
  goodFlow : Nat            -- 0 to 100 | consecutive FLOW updates at or above FLOW_MIN (R486) | 0
  limit   : Nat             -- 0.1 W | POWER_LIMIT (Table 25-7) | 4,200
  peak    : Nat             -- 0.1 W | PEAK_LIMIT (Table 25-7) | 5,000
  flowMin : Nat             -- mL/min | FLOW_MIN (Table 25-7) | 4,000
  floor   : Nat             -- C | FLOOR (Table 25-7) | 45
  warmEn  : Bool            -- 1 | KEEP_WARM_EN (Table 25-7) | 1
  tLo     : Nat             -- C | PUMP_T_LO (Table 25-7) | 50
  tHi     : Nat             -- C | PUMP_T_HI (Table 25-7) | 95
  due     : Tab Nat         -- tick | earliest next of: 0-5 unit samples (R477), 6 coolant sample (R315), 7 evaluation (R53), 8 telemetry (R475), 9+k rate window of CDk (R57) | 0
  railAddr : List Nat       -- 16 | PMBus address of rail r, 0 absent (Table 25-7) | empty (DESIGN CHOICE: absent)
  deriving DecidableEq, Repr

/-! ## Pins and test access (R492 to R504) -/

structure PinS where
  resetN  : Bool            -- 1 | RESET_N (R493) | 0
  pg      : BitVec 9        -- 9 | power-good inputs PG_CD0-3, PG_IOD, PG_HWA, PG_SD, PG_HBM, PG_IO (R493) | 0
  safeN   : Bool            -- 1 | PKG_SAFE_N, high means not asserted (R497) | 0
  epTx    : Bool            -- 1 | EP transmitters enabled (R354) | 0
  deriving DecidableEq, Repr

structure TapS where
  ir      : BitVec 8        -- 8 | instruction register (R502) | 0xFF (DESIGN CHOICE)
  idreg   : BitVec 32       -- 32 | identification register (Table 26-8) | 0x14C0_474B
  bound   : List Bool       -- cells | boundary register (R502) | empty (DESIGN CHOICE)
  driven  : Bool            -- 1 | EXTEST drives the cells (R503) | 0
  bypass  : Bool            -- 1 | bypass register (Table 26-8) | 0 (DESIGN CHOICE)
  wireRun : Bool            -- 1 | a WIREPAT run is in progress (R504) | 0
  done    : Bool            -- 1 | WIREPAT_RESULT DONE (Table 26-9) | 0
  hbmFail : BitVec 4        -- 4 | HBM_FAIL (Table 26-9) | 0
  loftFail : BitVec 4       -- 4 | LOFT_FAIL (Table 26-9) | 0
  iodFail : BitVec 4        -- 4 | IOD_FAIL (Table 26-9) | 0
  ringFail : BitVec 4       -- 4 | RING_FAIL (Table 26-9) | 0
  deriving DecidableEq, Repr

/-! ## The whole machine -/

/-- The state of the package. -/
structure State where
  pending : List Instr     -- list | commands waiting, first in, first out (the model's own) | empty
  freeCnt : Nat            -- count | free values drawn (the model's own) | 0 (DESIGN CHOICE)
  time : TimeS
  pins : PinS
  mem  : Tab Byte          -- 2^40 B | HBM stacks and Granary (R27) | 0 (DESIGN CHOICE)
  fab  : FabS
  mbx  : MbxS
  cmds : CmdS
  tly  : TlyS
  cx   : CtxS
  carders : CarderS
  grn  : GrnS
  gln  : GlnS
  kvw  : KvwS
  hmc  : HmcS
  blk  : BlkS
  out  : OutS
  ing  : IngS
  cool : CoolS
  sw   : SwS
  kcp  : KcpS
  core : CoreS
  hwa  : HwaS
  hwb  : HwbS
  pair : PairS
  dnp  : DnpS
  flt  : FltS
  boot : BootS
  sec  : SecS
  thm  : ThmS
  tap  : TapS
  deriving DecidableEq, Repr

/-- Why a step stops with a fault: none of the commands of this model does; every error the spec describes is an
effect on the state. Safe. -/
inductive Fault where
  /-- Raised by no meaning; kept so that the type has a value. Safe. -/
  | unreachable
  deriving DecidableEq, Repr

/-- Why a command has no meaning. -/
inductive Refusal where
  /-- A command whose meaning has not been written, by its mnemonic. Safe: the machine stops. -/
  | notModelled (mnemonic : String)
  deriving DecidableEq, Repr

/-- The machine right after package reset, RESET_N still asserted: every field at the value its comment names. -/
def State.reset : State :=
  { pending := [], freeCnt := 0
    time := { tickA := 0, tickHi := 0#32, tickB := 0, dnp := 0, hck := 0, swq := 0, beats := [] }
    pins := { resetN := false, pg := 0#9, safeN := false, epTx := false }
    mem := []
    fab := { retired := [], pend := [], held := [], replies := [], errs := [] }
    mbx := { master := 0#2, ready := false, role := false, ifVer := 0#8, sticky := 0#4, anomaly := 0#16, slots := [],
             order := [] }
    cmds := { active := [], fallback := false, store := [] }
    tly := { opened := 0#64, latest := 0#64, openedHi := 0#32, latestHi := 0#32, oldestHi := 0#32, openEps := [],
             recs := [], wins := [], skipped := 0, sched := none, halted := false, configGen := 0#64,
             recSched := { mask := 0#32, every := 0#16, dests := 0#32 }, recSent := [], recSeq := [],
             readyTick := none, early := [] }
    cx := { ctxs := [], insts := [], ready := [], coreWait := [], gates := [], engs := [], hbmShare := [],
            fabShare := [] }
    carders := { ce := [] }
    grn := { banks := [], dies := [], ecc := [] }
    gln := { g := [] }
    kvw := { die := [] }
    hmc := { stks := [] }
    blk := { bp := [] }
    out := { cfg := none, stages := [], lastPub := 0, alone := false, nextMrp := 0, issued := [] }
    ing := { streams := [], cpUp := [], cpMode := [] }
    cool := { tin := 0#16, tout := 0#16, tinBad := false, toutBad := false, flowValid := false, flow := 0#20,
              kPulses := 0#16, pumpEn := false, lock := false, duty := 0xFF#8, level := false, rawLevel := false,
              rawTick := 0, pulses := 0, history := [], updates := 0 }
    sw := { images := [], applied := [], ports := [], host := [], hwa := [], ingest := [], blocked := [], meters := [],
            seqGen := [], recov := [], syncs := [], lost := 0, egress := [] }
    kcp := { sessions := [], queue := [], copying := false, sent := [], dropped := 0, full := 0, creds := [], idle := 100000000,
             stageLo := 0, stageHi := 0, named := [] }
    core := { cores := [], time0 := [], lines := [], dir := [], txns := [], msgs := [], clock := 0 }
    hwa := { stages := [], judged := [], epCfg := [], held := none, fault := false, splitA := false, splitB := false,
             eccCorr := 0#8, exchMax := 0#8, rdata := [], sram := [], aliveSeen := [], queue := [], waiting := [], pollAns := none,
             taken := [], engine := 0#5, variant := 0#3, goldLast := 0#2, deferrals := 0#4, goldFail := 0#8,
             goldPass := 0#8, golds := [], answers := [], known := [], stUnit := 0#5, stLast := 0#3, stMissed := 0#8,
             stForced := 0#8, stFail := 0#8, units := [], answered := 0#16, hbDropped := 0#8, lastCseq := 0#32,
             lastAns := none, hbSent := [], etype := 0x88B5#16, vid := 2#12, lastSentry := 0, key := 0#64,
             goldDue := 1000000, stPeriod := 10000000 }
    hwb := { first := false, lastB := 0, history := [], fault := false, held := none, rdata := [], sram := [],
             aliveSeen := [], sent := [], startB := 0 }
    pair := { pstate := 4#3, leaves := 0#8, term := 0#8, serial := 0#64, twin := none, twinHb := none,
              twinState := 0#8, twinCan := false, twinOpened := 0#64, twinDecided := 0#64,
              twinGen := 0#64, lastHb := 0, hbSent := false, aliveOut := false, lastTog := 0, aliveIn := false, lastEdge := none,
              since := 0, edgeIn := false, openHeld := [], expelled := none, joinRun := false, joinMark := none,
              carried := [], cfgGot := 0, cfgBodies := [], earlyTwin := [], twinOpen := [], joinSent := false, joinImage := [],
              joinHas := false, joiner := false, joinFirst := false, hideTly := false,
              joinPair := false, matchRun := 0, swapAt := none, rehKind := 0#4, rehLast := 0#2, rehFail := 0#8,
              rehPass := 0#16, interval := 60000000000, mask := 0x3F#6, lastReh := 0, rehNow := false, rehAt := none, rehUnit := [] }
    dnp := { state := 0, changed := 0, txSeq := 0#12, rxSeq := 0#12, nak := false, crcRun := 0, unacked := [],
             replay := [], out := [], inp := [], credits := [], handed := [], acked := [], starved := [], msgs := [], sent := [], lastTx := 0,
             faults := 0 }
    flt := { flog := [], next := 0#8, total := 0#24, gens := [], fence := 0#5, chaff := [], retrains := [],
             links := [], linkBad := [], dies := [], clusters := [], cluOff := [], iodSub := [], stackRst := [], stackDue := [], upAt := [],
             refLost := [], suspects := [], reeveHung := false, safe := false }
    boot := { half0 := [], half1 := [], step := 0#8, state := 0#2, jfail := false, badA := false, badB := false,
              slot := false, startCnt := 0#32, stackCons := 0#4, stackOut := 0#4, dieDis := 0#4, engDis := 0#28,
              cluDis := 0#8, failStep := 0#8, failOut := 0#8, failKind := 0#8, failIdx := 0#8, stepTick := 0, left := [],
              startTick := 0, config := [], images := [], dieSerial := [0#64, 0#64, 0#64, 0#64],
              dieId := [0x10100018#32, 0x14100018#32, 0x18100018#32, 0x1C100018#32, 0x30100008#32],
              cap := [0#2, 0#2, 0#2, 0#2, 0#2], en := [0#2, 0#2, 0#2, 0#2, 0#2], started := false }
    sec := { roots := [none, none, none, none], revoke := 0#4, rollback := 0, testLock := true, meas := 0#384,
             imgs := [], pair := none, nextPair := none, made := 0, places := [], replays := [], rng := 0 }
    thm := { dies := [], iod := [], sd := [], pcap := 0xF#4, stale := false, sinceDrop := 10, lowRun := 0,
             history := [], power := 0#16, rails := [], dieVI := [], shutdown := false, coolLoss := false,
             vehReady := false, lowFlow := 0#8, goodFlow := 0, limit := 4200, peak := 5000,
             flowMin := 4000, floor := 45, warmEn := true, tLo := 50, tHi := 95, due := [], railAddr := [] }
    tap := { ir := 0xFF#8, idreg := 0x14C0474B#32, bound := [], driven := false, bypass := false, wireRun := false,
             done := false, hbmFail := 0#4, loftFail := 0#4, iodFail := 0#4, ringFail := 0#4 } }

end Sys2Proof.Machine
end

