-- ==== Sys2Proof/Machine/Ops.lean ====
section
/-! DEFINITION. The named operations every meaning uses: updating one block or one unit, the address map and routes,
memory as an initiator sees it, fault records, and the marks that withhold an epoch. -/

namespace Sys2Proof.Machine

/-! ## One block at a time -/

def State.mapTime (s : State) (f : TimeS → TimeS) : State := { s with time := f s.time }
def State.mapPins (s : State) (f : PinS → PinS) : State := { s with pins := f s.pins }
def State.mapMem (s : State) (f : Tab Byte → Tab Byte) : State := { s with mem := f s.mem }
def State.mapFab (s : State) (f : FabS → FabS) : State := { s with fab := f s.fab }
def State.mapMbx (s : State) (f : MbxS → MbxS) : State := { s with mbx := f s.mbx }
def State.mapCmds (s : State) (f : CmdS → CmdS) : State := { s with cmds := f s.cmds }
def State.mapTly (s : State) (f : TlyS → TlyS) : State := { s with tly := f s.tly }
def State.mapCx (s : State) (f : CtxS → CtxS) : State := { s with cx := f s.cx }
def State.mapCarders (s : State) (f : CarderS → CarderS) : State := { s with carders := f s.carders }
def State.mapGrn (s : State) (f : GrnS → GrnS) : State := { s with grn := f s.grn }
def State.mapGln (s : State) (f : GlnS → GlnS) : State := { s with gln := f s.gln }
def State.mapKvw (s : State) (f : KvwS → KvwS) : State := { s with kvw := f s.kvw }
def State.mapHmc (s : State) (f : HmcS → HmcS) : State := { s with hmc := f s.hmc }
def State.mapBlk (s : State) (f : BlkS → BlkS) : State := { s with blk := f s.blk }
def State.mapOut (s : State) (f : OutS → OutS) : State := { s with out := f s.out }
def State.mapIng (s : State) (f : IngS → IngS) : State := { s with ing := f s.ing }
def State.mapCool (s : State) (f : CoolS → CoolS) : State := { s with cool := f s.cool }
def State.mapSw (s : State) (f : SwS → SwS) : State := { s with sw := f s.sw }
def State.mapKcp (s : State) (f : KcpS → KcpS) : State := { s with kcp := f s.kcp }
def State.mapCore (s : State) (f : CoreS → CoreS) : State := { s with core := f s.core }
def State.mapHwa (s : State) (f : HwaS → HwaS) : State := { s with hwa := f s.hwa }
def State.mapHwb (s : State) (f : HwbS → HwbS) : State := { s with hwb := f s.hwb }
def State.mapPair (s : State) (f : PairS → PairS) : State := { s with pair := f s.pair }
def State.mapDnp (s : State) (f : DnpS → DnpS) : State := { s with dnp := f s.dnp }
def State.mapFlt (s : State) (f : FltS → FltS) : State := { s with flt := f s.flt }
def State.mapBoot (s : State) (f : BootS → BootS) : State := { s with boot := f s.boot }
def State.mapSec (s : State) (f : SecS → SecS) : State := { s with sec := f s.sec }
def State.mapThm (s : State) (f : ThmS → ThmS) : State := { s with thm := f s.thm }
def State.mapTap (s : State) (f : TapS → TapS) : State := { s with tap := f s.tap }

def State.eng (s : State) (k : Nat) : Eng := Tab.get Eng.init s.cx.engs k
def State.updEng (s : State) (k : Nat) (f : Eng → Eng) : State :=
  s.mapCx (fun x => { x with engs := Tab.upd Eng.init x.engs k f })

def State.ctxOf (s : State) (k : Nat) : Ctx := Tab.get Ctx.init s.cx.ctxs k
def State.updCtx (s : State) (k : Nat) (f : Ctx → Ctx) : State :=
  s.mapCx (fun x => { x with ctxs := Tab.upd Ctx.init x.ctxs k f })

def State.bank (s : State) (k : Nat) : Bank := Tab.get Bank.init s.grn.banks k
def State.updBank (s : State) (k : Nat) (f : Bank → Bank) : State :=
  s.mapGrn (fun x => { x with banks := Tab.upd Bank.init x.banks k f })

def State.grnDie (s : State) (k : Nat) : GrnDie := Tab.get GrnDie.init s.grn.dies k
def State.updGrnDie (s : State) (k : Nat) (f : GrnDie → GrnDie) : State :=
  s.mapGrn (fun x => { x with dies := Tab.upd GrnDie.init x.dies k f })

def State.gleaner (s : State) (k : Nat) : Gleaner := Tab.get Gleaner.init s.gln.g k
def State.updGleaner (s : State) (k : Nat) (f : Gleaner → Gleaner) : State :=
  s.mapGln (fun x => { x with g := Tab.upd Gleaner.init x.g k f })

def State.hmcOf (s : State) (k : Nat) : Hmc := Tab.get Hmc.init s.hmc.stks k
def State.updHmc (s : State) (k : Nat) (f : Hmc → Hmc) : State :=
  s.mapHmc (fun x => { x with stks := Tab.upd Hmc.init x.stks k f })

def State.blkOf (s : State) (k : Nat) : Blk := Tab.get Blk.init s.blk.bp k
def State.updBlk (s : State) (k : Nat) (f : Blk → Blk) : State :=
  s.mapBlk (fun x => { x with bp := Tab.upd Blk.init x.bp k f })

def State.kvwOf (s : State) (k : Nat) : KvwDie := Tab.get KvwDie.init s.kvw.die k
def State.updKvw (s : State) (k : Nat) (f : KvwDie → KvwDie) : State :=
  s.mapKvw (fun x => { x with die := Tab.upd KvwDie.init x.die k f })

def State.stream (s : State) (k : Nat) : IngStream := Tab.get IngStream.init s.ing.streams k
def State.updStream (s : State) (k : Nat) (f : IngStream → IngStream) : State :=
  s.mapIng (fun x => { x with streams := Tab.upd IngStream.init x.streams k f })

def State.portOf (s : State) (k : Nat) : SwPort := Tab.get SwPort.init s.sw.ports k
def State.updPort (s : State) (k : Nat) (f : SwPort → SwPort) : State :=
  s.mapSw (fun x => { x with ports := Tab.upd SwPort.init x.ports k f })

def State.slotOf (s : State) (k : Nat) : Slot := Tab.get Slot.init s.mbx.slots k
def State.updSlot (s : State) (k : Nat) (f : Slot → Slot) : State :=
  s.mapMbx (fun x => { x with slots := Tab.upd Slot.init x.slots k f })

def State.coreOf (s : State) (k : Nat) : Core := Tab.get Core.init s.core.cores k
def State.updCoreOf (s : State) (k : Nat) (f : Core → Core) : State :=
  s.mapCore (fun x => { x with cores := Tab.upd Core.init x.cores k f })

def State.opc (s : State) (k : Nat) : OpcDie := Tab.get OpcDie.init s.thm.dies k
def State.updOpc (s : State) (k : Nat) (f : OpcDie → OpcDie) : State :=
  s.mapThm (fun x => { x with dies := Tab.upd OpcDie.init x.dies k f })

def State.carder (s : State) (k : Nat) : Carder := Tab.get Carder.init s.carders.ce k
def State.updCarder (s : State) (k : Nat) (f : Carder → Carder) : State :=
  s.mapCarders (fun x => { x with ce := Tab.upd Carder.init x.ce k f })

def State.stage (s : State) (k : Nat) : WdgStage := Tab.get WdgStage.init s.hwa.stages k
def State.updWdgStage (s : State) (k : Nat) (f : WdgStage → WdgStage) : State :=
  s.mapHwa (fun x => { x with stages := Tab.upd WdgStage.init x.stages k f })

def State.stest (s : State) (k : Nat) : Stest := Tab.get Stest.init s.hwa.units k
def State.updStest (s : State) (k : Nat) (f : Stest → Stest) : State :=
  s.mapHwa (fun x => { x with units := Tab.upd Stest.init x.units k f })

def State.winOf (s : State) (k : Nat) : SnapWin := Tab.get SnapWin.init s.tly.wins k
def State.updWin (s : State) (k : Nat) (f : SnapWin → SnapWin) : State :=
  s.mapTly (fun x => { x with wins := Tab.upd SnapWin.init x.wins k f })

/-! ## Small helpers -/

/-- `x + 1`, saturating at the width's maximum. -/
def satInc {w : Nat} (x : BitVec w) : BitVec w := if x.toNat + 1 < 2 ^ w then x + 1 else x

/-- `x + n`, saturating at the width's maximum. -/
def satAdd {w : Nat} (x : BitVec w) (n : Nat) : BitVec w := BitVec.ofNat w (min (x.toNat + n) (2 ^ w - 1))

/-- Field [lo+len-1 : lo] of a number. -/
def bitsAt (v lo len : Nat) : Nat := v / 2 ^ lo % 2 ^ len

def bit01 (b : Bool) : Nat := if b then 1 else 0

/-- Nat of bit flags from a list, bit 0 first. -/
def flagsNat : List Bool → Nat
  | [] => 0
  | b :: r => bit01 b + 2 * flagsNat r

/-- Apply `f` for k = 0 to n-1. -/
def forUpto {σ : Type} (n : Nat) (f : Nat → σ → σ) (s : σ) : σ := (List.range n).foldl (fun a k => f k a) s

/-- Replace the first element that satisfies `p`. -/
def updFirst {α : Type} (p : α → Bool) (f : α → α) : List α → List α
  | [] => []
  | x :: r => if p x then f x :: r else x :: updFirst p f r

/-- Insert before the first element that is not below `x`. -/
def insertBy {α : Type} (lt : α → α → Bool) (x : α) : List α → List α
  | [] => [x]
  | y :: r => if lt x y then x :: y :: r else y :: insertBy lt x r

def sortBy {α : Type} (lt : α → α → Bool) (l : List α) : List α := l.foldr (insertBy lt) []

/-- Draw a fresh free word. -/
def State.freeWord (s : State) : BitVec 32 × State := (Config.freeWord s.freeCnt, { s with freeCnt := s.freeCnt + 1 })

/-- Draw a fresh free 64-bit value. -/
def State.freeWide (s : State) : BitVec 64 × State := (Config.freeWide s.freeCnt, { s with freeCnt := s.freeCnt + 1 })

/-- Draw `n` fresh free bytes. -/
def State.freeBytes (s : State) (n : Nat) : List Byte × State :=
  ((List.range n).map (fun i => Config.freeByte (s.freeCnt + i)), { s with freeCnt := s.freeCnt + n })

/-! ## Address map (Tables 1-6 and 1-7) -/

/-- Size of one stack's range. -/
def stackBytes : Nat := 0x600000000
/-- Size of one bank. -/
def bankBytes : Nat := 0x20000
def granaryBase : Nat := 0x2000000000
def regBase : Nat := 0x3000000000

/-- What an address names (R27). -/
inductive Place where
  | hbm (k off : Nat)
  | gran (k bank off : Nat)
  | regs (node off : Nat)
  | hole
  deriving DecidableEq, Repr

def placeOf (a : Nat) : Place :=
  if a < 4 * stackBytes then .hbm (a / stackBytes) (a % stackBytes)
  else if granaryBase ≤ a ∧ a < granaryBase + 0x40000000 then
    .gran ((a - granaryBase) / 0x10000000) ((a - granaryBase) % 0x10000000 / bankBytes) ((a - granaryBase) % bankBytes)
  else if regBase ≤ a ∧ a < regBase + 0x4000000 then .regs ((a - regBase) / 0x1000000) ((a - regBase) % 0x1000000)
  else if regBase + 0x10000000 ≤ a ∧ a < regBase + 0x11000000 then .regs 4 (a - regBase - 0x10000000)
  else .hole

/-- Address of bank n of die k (R5). -/
def bankAddr (k n : Nat) : Nat := granaryBase + k * 0x10000000 + n * bankBytes

/-! ## Dies, links and routes (R18, R19, R412, R415) -/

def State.dieState (s : State) (k : Nat) : DieState := Tab.get .disabled s.flt.dies k

/-- Die k serves accesses: neither disabled, fenced nor in reset. -/
def State.dieRuns (s : State) (k : Nat) : Bool := s.dieState k = .running

def State.setDie (s : State) (k : Nat) (d : DieState) : State :=
  s.mapFlt (fun f => { f with dies := Tab.set .disabled f.dies k d,
                              upAt := if d = .running then Tab.set 0 f.upAt k s.time.tickA else f.upAt })

/-- Stack k serves accesses (R507). -/
def State.stackRuns (s : State) (k : Nat) : Bool := s.dieRuns k && decide ((s.hmcOf k).state = 2#2)

/-- The next die in the ring's listed direction CD0-CD1-CD3-CD2-CD0. -/
def ringNext : Nat → Nat
  | 0 => 1 | 1 => 3 | 3 => 2 | _ => 0

/-- The previous die in that order. -/
def ringPrev : Nat → Nat
  | 0 => 2 | 1 => 0 | 3 => 1 | _ => 3

/-- The opposite die. -/
def ringOpp (k : Nat) : Nat := ringNext (ringNext k)

/-- The ring link from die k to the next die: 0 CD0-CD1, 1 CD1-CD3, 2 CD3-CD2, 3 CD2-CD0. -/
def ringLink : Nat → Nat
  | 0 => 0 | 1 => 1 | 3 => 2 | _ => 3

/-- The link is not fenced. -/
def State.linkOk (s : State) (l : Nat) : Bool := !(Tab.get false s.flt.links l)

/-- Dies passed between `a` and `b` in the listed direction, `a` and `b` left out. -/
def ringBetween : Nat → Nat → Nat → List Nat
  | 0, _, _ => []
  | n + 1, a, b => if ringNext a = b then [] else ringNext a :: ringBetween n (ringNext a) b

/-- Links of the way from `a` to `b` in the listed direction. -/
def ringLinks (a b : Nat) : List Nat := (a :: ringBetween 4 a b).map ringLink

/-- The way from `a` to `b` in the listed direction is open. -/
def State.wayOpen (s : State) (a b : Nat) : Bool :=
  (ringBetween 4 a b).all s.dieRuns && (ringLinks a b).all s.linkOk

/-- The route of a flow between two dies: the hops passed (both ends included), none when there is none. -/
def State.route (s : State) (a b : Nat) : Option (List Nat) :=
  let fwd := a :: ringBetween 4 a b ++ [b]
  let bwd := (b :: ringBetween 4 b a ++ [a]).reverse
  let direct := if ringPrev a = b then bwd else fwd
  let other := if ringPrev a = b then fwd else bwd
  let fOpen := s.wayOpen a b
  let bOpen := s.wayOpen b a
  let dOpen := if ringPrev a = b then bOpen else fOpen
  let oOpen := if ringPrev a = b then fOpen else bOpen
  if a = b then some [a] else if dOpen then some direct else if oOpen then some other else none

/-- Node `b` can be reached from node `a` (nodes 0 to 3 dies, 4 the IOD). -/
def State.reach (s : State) (a b : Nat) : Bool :=
  if a = b then true
  else if a = 4 then s.linkOk (4 + b)
  else if b = 4 then s.linkOk (4 + a)
  else (s.route a b).isSome

/-! ## Initiators and accesses -/

/-- An access as its target judges it: node and tag of the initiator. `ctx` is the CTX it names, `none` for none;
`fw` the firmware's owner code 0x7F, `anyHbm` admission to every context's range (R336), `open` to unowned HBM,
`regs` register accesses (R508). -/
structure Who where
  node   : Nat
  ctx    : Option Nat
  fw     : Bool
  anyHbm : Bool
  openHbm : Bool
  regs   : Bool
  deriving DecidableEq, Repr

/-- An engine, Blocker, Gleaner or KV walker of die k working for context c. -/
def whoEngine (k c : Nat) : Who :=
  { node := k, ctx := some c, fw := false, anyHbm := false, openHbm := false, regs := false }
/-- The Reeve main core. -/
def whoReeve : Who := { node := 4, ctx := none, fw := true, anyHbm := true, openHbm := true, regs := true }
/-- A deputy of die k. -/
def whoDeputy (k : Nat) : Who := { node := k, ctx := none, fw := true, anyHbm := true, openHbm := true, regs := true }
/-- The key vault where it reads a source: no context's range admits it (R336). -/
def whoVaultSrc : Who := { node := 4, ctx := none, fw := false, anyHbm := false, openHbm := true, regs := false }

/-- The key vault within a destination that R463 admits. -/
def whoVault : Who := { node := 4, ctx := none, fw := false, anyHbm := true, openHbm := true, regs := false }
/-- The ingest engines working for context c. -/
def whoIngest (c : Nat) : Who :=
  { node := 4, ctx := some c, fw := false, anyHbm := false, openHbm := false, regs := false }
/-- The KCP endpoint. -/
def whoKcp : Who := { node := 4, ctx := none, fw := false, anyHbm := false, openHbm := true, regs := true }
/-- Application core c with its context tag (R335, R336). -/
def State.whoCore (s : State) (c : Nat) : Who :=
  let k := s.coreOf c
  { node := c / 8, ctx := if k.valid then some k.ctx.toNat else none, fw := false, anyHbm := false, openHbm := true,
    regs := true }
/-- The golden sheaf on die k, which works in the firmware's banks (R228, R358). -/
def whoGolden (k : Nat) : Who :=
  { node := k, ctx := none, fw := true, anyHbm := false, openHbm := false, regs := false }

/-- The present context whose HBM range holds the address. -/
def State.rangeOwner (s : State) (a : Nat) : Option Nat :=
  (s.cx.ctxs.find? (fun e => e.2.state ≠ 0 && decide (e.2.base ≤ a) && decide (a < e.2.base + e.2.len))).map (·.1)

/-- The owner code of a bank, as a context or the firmware. -/
def ownsBank (w : Who) (owner : Nat) : Bool := (w.fw && owner == 0x7F) || w.ctx == some owner

/-- How an access to one address of the fabric ends (R29, R30, R229, R234, R336, R507, R508). -/
def State.judge (s : State) (w : Who) (a : Nat) : AccStatus :=
  match placeOf a with
  | .hole => .hole
  | .regs node _ =>
    if !w.regs then .hole
    else if (node < 4 && !s.dieRuns node) || !s.reach w.node node then .unavailable else .ok
  | .gran k n _ =>
    let b := s.bank (2048 * k + n)
    if !s.dieRuns k || !s.reach w.node k then .unavailable
    else if b.pstate ≠ 0#2 || b.busy then .unavailable
    else if ownsBank w b.owner.toNat then .ok else .notOwned
  | .hbm k _ =>
    if !s.stackRuns k || !s.reach w.node k then .unavailable
    else if w.anyHbm then .ok
    else match s.rangeOwner a with
      | some c => if w.ctx = some c then .ok else .notOwned
      | none => if w.openHbm then .ok else .notOwned

/-- The address lies in a register block. -/
def isRegs (a : Nat) : Bool := match placeOf a with | .regs _ _ => true | _ => false

/-- The 64-byte granules of a range. -/
def granules (a n : Nat) : List Nat :=
  if n = 0 then [] else (List.range ((a + n - 1) / 64 - a / 64 + 1)).map (fun i => (a / 64 + i) * 64)

/-- First failing address of a range, in ascending order. -/
def State.judgeRange (s : State) (w : Who) (a n : Nat) : Option (AccStatus × Nat) :=
  (granules a n).findSome? (fun g =>
    let st := s.judge w g
    if st = .ok && !isRegs g then none else some (if st = .ok then .hole else st, max g a))

/-- The byte at an address. -/
def State.byteAt (s : State) (a : Nat) : Byte := Tab.get 0#8 s.mem a

/-- `n` bytes from `a`. -/
def State.bytesAt (s : State) (a n : Nat) : List Byte := (List.range n).map (fun i => s.byteAt (a + i))

/-- Memory with the bytes stored from `a` on. -/
def memStore (m : Tab Byte) (a : Nat) : List Byte → Tab Byte
  | [] => m
  | b :: bs => memStore (Tab.set 0#8 m a b) (a + 1) bs

/-- Store bytes without a check. -/
def State.put (s : State) (a : Nat) (bs : List Byte) : State := s.mapMem (fun m => memStore m a bs)

/-- Forget the bytes of [a, a+n): they read 0 again. -/
def State.wipe (s : State) (a n : Nat) : State :=
  (s.mapMem (Tab.drop (fun k => decide (a ≤ k) && decide (k < a + n)))).mapGrn
    (fun g => { g with ecc := Tab.drop (fun k => decide (a ≤ 8 * k) && decide (8 * k < a + n)) g.ecc })

/-! ## Errors in memory (R237, R263, R509) -/

/-- A codeword of a bank, by its number, and a burst of a stack, by its address, share a byte with [a, a+n). -/
def wordIn (a n w : Nat) : Bool := decide (8 * w < a + n) && decide (a < 8 * w + 8)
def burstIn (a n b : Nat) : Bool := decide (b < a + n) && decide (a < b + 32)

/-- Addresses in [a, a+n) at which a read meets an uncorrectable codeword or burst. -/
def State.uncAt (s : State) (a n : Nat) : List Nat :=
  ((s.grn.ecc.filter (fun e => decide (e.2 = 2) && wordIn a n e.1)).map (fun e => max a (8 * e.1))) ++
    (s.hmc.stks.flatMap (fun h => (h.2.unc.filter (burstIn a n)).map (max a)))

/-- The first of them. -/
def State.firstUnc (s : State) (a n : Nat) : Option Nat := (s.uncAt a n).min?

/-- Read `n` bytes as `w`: the bytes, or how it failed and where, the lowest address first. -/
def State.load (s : State) (w : Who) (a n : Nat) : Except (AccStatus × Nat) (List Byte) :=
  match s.judgeRange w a n, s.firstUnc a n with
  | some e, none => .error e
  | some e, some b => .error (if b < e.2 then (.uncorrected, b) else e)
  | none, some b => .error (.uncorrected, b)
  | none, none => .ok (s.bytesAt a n)

/-- The owner of a bank as a context; the firmware and a free bank are none. -/
def ownerCtx (o : BitVec 7) : Option Nat := if o.toNat < 64 then some o.toNat else none

/-- The epoch of the oldest instance of a context, 0 for none. -/
def State.ctxEpoch (s : State) (c : Nat) : BitVec 64 :=
  match s.cx.insts.find? (fun i => i.ctx = c) with | some i => i.epoch | none => 0#64

/-! ## Time -/

def State.now (s : State) : Nat := s.time.tickA

/-- The replica beat counter of die k (R124). -/
def State.beat (s : State) (k : Nat) : Nat := Tab.get 0 s.time.beats k

/-! ## Epochs -/

/-- The open epoch with a number. -/
def State.openEp? (s : State) (n : BitVec 64) : Option OpenEp := s.tly.openEps.find? (fun e => e.n = n)

def State.updEp (s : State) (n : BitVec 64) (f : OpenEp → OpenEp) : State :=
  s.mapTly (fun t => { t with openEps := updFirst (fun e => decide (e.n = n)) f t.openEps })

def State.updEps (s : State) (f : OpenEp → OpenEp) : State :=
  s.mapTly (fun t => { t with openEps := t.openEps.map f })

/-- Set WITHHOLD bits of an open epoch (Table 4-3); bit i is `2 ^ i`. -/
def State.withhold (s : State) (n : BitVec 64) (bits : BitVec 32) : State :=
  s.updEp n (fun e => { e with withhold := e.withhold ||| bits })

def whDeadline : BitVec 32 := 0x01
def whUnc : BitVec 32 := 0x02
def whWatchdog : BitVec 32 := 0x04
def whGolden : BitVec 32 := 0x08
def whInput : BitVec 32 := 0x10
def whDigest : BitVec 32 := 0x20
def whPairAck : BitVec 32 := 0x40
def whUnitLost : BitVec 32 := 0x80

/-- Every open epoch to which context c contributes meets an uncorrected error (R87). -/
def State.withholdCtx (s : State) (c : Nat) : State :=
  s.updEps (fun e => if e.ctxs.contains c then { e with withhold := e.withhold ||| whUnc } else e)

/-- Every open epoch loses a unit (R413, R415). -/
def State.withholdLost (s : State) : State := s.updEps (fun e => { e with withhold := e.withhold ||| whUnitLost })

/-! ## Fault records (R398) -/

/-- What a fault record needs besides its time. -/
structure FaultInfo where
  epoch  : BitVec 64 := 0#64
  sev    : Nat
  kind   : Nat
  unit   : Nat := 0
  cls    : Nat
  ctx    : Option Nat := none
  fflags : Nat := 0
  action : Nat := 0
  node   : Nat := 4
  addr   : Nat := 0
  detail : BitVec 32 := 0#32
  deriving DecidableEq, Repr

/-- Tick of the open event of an epoch that is open or retained. -/
def State.openTickOf (s : State) (n : BitVec 64) : Option Nat :=
  match s.openEp? n with
  | some e => some e.openTick
  | none => (s.tly.recs.find? (fun r => r.epoch = n)).map (·.openTick)

/-- TICK of a fault record: from the epoch's open event, or from READY for epoch 0. Before READY, and for an epoch no
longer retained, the spec states no value: a free one. -/
def State.faultTick (s : State) (n : BitVec 64) : Nat × State :=
  match (if n = 0#64 then s.tly.readyTick else s.openTickOf n) with
  | some t => (s.now - t, s)
  | none => ((s.freeWord).1.toNat, (s.freeWord).2)

/-- The first uncorrected fault of an epoch fills its ERR field; every one is counted (R398, Table 4-5). -/
def errWith (f : FaultInfo) (e : ErrLoc) : ErrLoc :=
  if f.sev ≠ 1 then e
  else if e.unc = 0 then { e with unc := 1, addr := f.addr, ctx := f.ctx.getD 0xFF, node := f.node }
  else { e with unc := e.unc + 1 }

/-- Write a fault record into the ring and advance FAB_FLOG_HEAD (R397, R398). -/
def State.fault (s : State) (f : FaultInfo) : State :=
  let (tick, s) := s.faultTick f.epoch
  let rec' : FaultRec :=
    { epoch := f.epoch, tick := tick, sev := f.sev, kind := f.kind, unit := f.unit, cls := f.cls,
      ctx := f.ctx.getD 0xFF, fflags := f.fflags + (if f.ctx.isSome ∧ f.fflags % 2 = 0 then 1 else 0),
      action := f.action, node := f.node, addr := f.addr, detail := f.detail }
  let s := s.mapFlt (fun x => { x with flog := Tab.put x.flog x.next.toNat rec', next := x.next + 1,
                                       total := x.total + 1 })
  let s := s.updEp f.epoch (fun e => { e with err := errWith f e.err })
  if f.node < 4 ∧ f.sev = 1 then
    s.updEp f.epoch (fun e => { e with dieErrs := Tab.upd (0, 0) e.dieErrs f.node (fun p => (p.1, p.2 + 1)) })
  else s

/-- Record a fault whose affected instances are those of the open epochs: EPOCH names the one open, 0 for none; with several
open the spec does not say which, a free choice among them. -/
def State.faultOpen (s : State) (f : FaultInfo) : State :=
  match s.tly.openEps with
  | [] => s.fault f
  | [e] => s.fault { f with epoch := e.n }
  | l => let w := s.freeWord; w.2.fault { f with epoch := (l.map (·.n)).getD (w.1.toNat % l.length) 0#64 }

/-- A corrected error on a node: only counted, in every open epoch (R397, Table 4-5). -/
def State.corrected (s : State) (node : Nat) : State :=
  s.updEps (fun e =>
    { e with corrSeen := true, err := { e.err with corr := e.err.corr + 1 },
             dieErrs := if node < 4 then Tab.upd (0, 0) e.dieErrs node (fun p => (p.1 + 1, p.2)) else e.dieErrs })

/-! ## Reads that correct and writes that meet an error (R237) -/

/-- Single-bit errors of the codewords in [a, a+n) are corrected and counted in their dies. -/
def State.eccRead (s : State) (a n : Nat) : State :=
  if s.grn.ecc = [] then s
  else
    let hit := s.grn.ecc.filter (fun e => decide (e.2 = 1) && wordIn a n e.1)
    (hit.foldl (fun t e => match placeOf (8 * e.1) with | .gran k _ _ => t.corrected k | _ => t) s).mapGrn
      (fun g => { g with ecc := g.ecc.filter (fun e => !(decide (e.2 = 1) && wordIn a n e.1)) })

/-- A write of [a, a+n) meets codeword `w` uncorrectable and covers it in part: the rest of the codeword becomes zero, and the
bank's owner has met an uncorrected error. -/
def State.partUnc (s : State) (a n w : Nat) : State :=
  match placeOf (8 * w) with
  | .gran k b _ =>
    let c := ownerCtx (s.bank (2048 * k + b)).owner
    let s := (List.range 8).foldl (fun t i =>
      if a ≤ 8 * w + i ∧ 8 * w + i < a + n then t else t.mapMem (fun m => Tab.set 0#8 m (8 * w + i) 0#8)) s
    let s := match c with | some c => s.withholdCtx c | none => s
    s.fault { epoch := match c with | some c => s.ctxEpoch c | none => 0#64, sev := 1, kind := 6, unit := k, cls := 1, ctx := c, node := k,
              addr := 8 * w }
  | _ => s

/-- What a write of [a, a+n) does to the codewords it meets: one it covers is written afresh; of one it covers in part the rest is
read, so that a single-bit error is corrected and an uncorrectable one has the rest zeroed. -/
def State.writeEcc (s : State) (a n : Nat) : State :=
  if s.grn.ecc = [] then s
  else
    let hit := s.grn.ecc.filter (fun e => wordIn a n e.1)
    let part := fun (w : Nat) => decide (8 * w < a) || decide (a + n < 8 * w + 8)
    let s := (hit.filter (fun e => decide (e.2 = 2) && part e.1)).foldl (fun t e => t.partUnc a n e.1) s
    let s := (hit.filter (fun e => decide (e.2 = 1) && part e.1)).foldl (fun t e => t.eccRead (8 * e.1) 8) s
    s.mapGrn (fun g => { g with ecc := g.ecc.filter (fun e => !wordIn a n e.1) })

/-- What a write of [a, a+n) does to the bursts of a stack that hold uncorrectable data: a burst written whole reads back clean, and
of one written in part every other byte becomes zero (R509). -/
def State.writeUnc (s : State) (a n : Nat) : State :=
  let bad := s.hmc.stks.flatMap (fun h => h.2.unc.filter (burstIn a n))
  if bad = [] then s
  else
    let s := bad.foldl (fun t b => (List.range 32).foldl (fun t i =>
      if a ≤ b + i ∧ b + i < a + n then t else t.mapMem (fun m => Tab.set 0#8 m (b + i) 0#8)) t) s
    forUpto 4 (fun k t => t.updHmc k (fun h => { h with unc := h.unc.filter (fun b => !burstIn a n b) })) s

/-- Store bytes at a target that has accepted them. -/
def State.write (s : State) (a : Nat) (bs : List Byte) : State := ((s.writeEcc a bs.length).writeUnc a bs.length).put a bs

/-- Write bytes as `w`: the granules before the first failing one are written (R29: the failed write is discarded). -/
def State.store (s : State) (w : Who) (a : Nat) (bs : List Byte) : Except (AccStatus × Nat) Unit × State :=
  match s.judgeRange w a bs.length with
  | some e => (.error e, s.write a (bs.take (e.2 - a)))
  | none => (.ok (), s.write a bs)

/-- Chaff dropped at a node (R410). -/
def State.chaff (s : State) (node : Nat) : State :=
  (s.mapFlt (fun f => { f with chaff := Tab.upd 0#32 f.chaff node satInc })).updEps
    (fun e => { e with chaff := e.chaff + 1 })

/-! ## Boot images (R437, R438) -/

/-- An image in flash: header and body. -/
def State.image (s : State) (slot : Bool) (ty : Nat) : List Byte := Tab.get [] s.boot.images (8 * bit01 slot + ty)

/-- The body of an image of the slot in use. -/
def State.imageBody (s : State) (ty : Nat) : List Byte := let b := s.image s.boot.slot ty; sub b 8192 (fld b 8 4)

/-! ## Boot journal (R443, R444) -/

/-- The half that is active: the one whose HALF entry has the higher generation (R445). -/
def halfGen (h : List JEntry) : Option Nat := (h.find? (fun e => e.kind = 6)).map (fun e => e.detail.toNat)

def State.half1Active (s : State) : Bool :=
  match halfGen s.boot.half0, halfGen s.boot.half1 with
  | some a, some b => decide (a < b)
  | none, some _ => true
  | _, _ => false

/-- A half holds a HALF entry; without one the journal is empty and there is nowhere to write (R445). -/
def State.hasJournal (s : State) : Bool := (halfGen s.boot.half0).isSome || (halfGen s.boot.half1).isSome

/-- Append an entry to the active half, unless a read-back has failed; one that finds no room fails its read-back (R444). -/
def State.journal (s : State) (e : JEntry) : State :=
  if s.boot.jfail || !s.hasJournal then s
  else if 7168 ≤ (if s.half1Active then s.boot.half1 else s.boot.half0).length then s.mapBoot (fun b => { b with jfail := true })
  else if s.half1Active then s.mapBoot (fun b => { b with half1 := b.half1 ++ [e] })
  else s.mapBoot (fun b => { b with half0 := b.half0 ++ [e] })

/-- The entries of the active half, oldest first. -/
def State.journalEntries (s : State) : List JEntry := if !s.hasJournal then [] else if s.half1Active then s.boot.half1 else s.boot.half0

/-- A UNIT entry (R444). -/
def State.journalUnit (s : State) (kind index state : Nat) (detail : BitVec 32) : State :=
  s.journal { kind := 4, step := 0, uKind := kind, uIndex := index, outcome := 0, state := state,
              start := s.boot.startCnt, tick := s.now - s.boot.startTick, detail := detail,
              epoch := if s.mbx.ready then s.tly.opened else 0#64 }

/-- The state the latest UNIT entry gives a unit (R444). -/
def State.unitState (s : State) (kind index : Nat) : Option Nat :=
  ((s.journalEntries.filter (fun e => e.kind = 4 && e.uKind = kind && e.uIndex = index)).getLast?).map (·.state)

/-! ## Availability of units -/

/-- The die an engine or Blocker lies on: TE 0-15, CE 16-23, BP 24-27. -/
def unitDie (u : Nat) : Nat := if u < 16 then u / 4 else if u < 24 then (u - 16) / 2 else u - 24

/-- KIND of a unit as Table 5-2: 1 Thresher, 2 Carder, 3 Blocker. -/
def unitKind (u : Nat) : Nat := if u < 16 then 1 else if u < 24 then 2 else 3

/-- SRC_KIND and UNIT of Table 20-2 for an engine or Blocker. -/
def unitIdx (u : Nat) : Nat := if u < 16 then u else if u < 24 then u - 16 else u - 24

/-- The unit can take work: enabled, not failed, not in reset, its die running. -/
def State.unitOk (s : State) (u : Nat) : Bool :=
  let e := s.eng u
  e.enabled && !e.failed && !e.resetting && s.dieRuns (unitDie u)

end Sys2Proof.Machine
end

