-- ==== Sys2Proof/Machine/SwitchQueue.lean ====
section
/-! DEFINITION. The switch's tables as their entries, its queues and transmitters, and frames that leave HOST and HWA: KCP
frames and their tags, record frames, trajectory frames (R319 to R324, R332, R469). Table 16-2 gives no entry layout but that
of table 0x17; of every other table the fields are free readings of the image, numbered here. -/

namespace Sys2Proof.Machine

/-! ## Tables -/

/-- Entries that a table allows; none for an identifier that Table 16-2 does not list. -/
def switchCap (id : Nat) : Option Nat :=
  match id with
  | 0x10 => some 2048
  | 0x11 => some 256
  | 0x12 | 0x13 => some 512
  | 0x14 => some 64
  | 0x15 => some 256
  | 0x16 => some 128
  | 0x17 => some 32
  | 0x18 => some 1
  | _ => if id / 16 = 2 then some 256 else if id / 16 = 3 then some 1 else none

def State.swImage (s : State) (id : Nat) : List Byte := Tab.get [] s.sw.images id

/-- Entries of a table in force; no more than it allows. -/
def State.swLen (s : State) (id : Nat) : Nat := min ((switchCap id).getD 0) (Config.switchLen id (s.swImage id))

/-- Field `f` of entry `i` of a table in force. -/
def State.swField (s : State) (id i f : Nat) : Nat := Config.switchField id (s.swImage id) i f

/-- First entry of a table that satisfies a test. -/
def State.swFind (s : State) (id : Nat) (p : Nat → Bool) : Option Nat := (List.range (s.swLen id)).find? p

/-- Egress ports of a frame of VLAN `vid` to `mac` (table 0x10: fields VID, MAC, port mask), within the members of the
VLAN (table 0x11: fields VID, members, class of PCP 0 to 7). None: no entry. -/
def State.fwdPorts (s : State) (vid : Nat) (mac : BitVec 48) : Option (List Nat) :=
  let members := match s.swFind 0x11 (fun i => s.swField 0x11 i 0 = vid) with
    | some i => s.swField 0x11 i 1
    | none => 0
  (s.swFind 0x10 (fun i => s.swField 0x10 i 0 = vid && s.swField 0x10 i 1 = mac.toNat)).map (fun i =>
    (List.range 16).filter (fun p => bitsAt (s.swField 0x10 i 2) p 1 = 1 && bitsAt members p 1 = 1))

/-- Traffic class of a PCP in a VLAN. -/
def State.trafficClass (s : State) (vid pcp : Nat) : Nat :=
  match s.swFind 0x11 (fun i => s.swField 0x11 i 0 = vid) with
  | some i => s.swField 0x11 i (2 + pcp) % 8
  | none => 0

/-! ## Queues (R319) -/

def SwPort.queue (p : SwPort) (c : Nat) : List QFrame := Tab.get [] p.queues c

def SwPort.setQueue (p : SwPort) (c : Nat) (l : List QFrame) : SwPort := { p with queues := Tab.set [] p.queues c l }

def queueBytes (l : List QFrame) : Nat := (l.map (·.frame.len)).foldl (· + ·) 0

/-- Bytes that the queues hold beyond what is reserved for each, 16 KiB. -/
def State.sharedUsed (s : State) : Nat :=
  ((List.range 16).flatMap (fun p => (List.range 8).map (fun c => queueBytes ((s.portOf p).queue c) - 16384))).foldl (· + ·) 0

/-- A frame of `n` bytes finds space at a queue: the 4 MiB buffer less what is reserved is shared. -/
def State.queueFits (s : State) (p c n : Nat) : Bool :=
  let b := queueBytes ((s.portOf p).queue c)
  decide (b + n ≤ 16384) || decide (s.sharedUsed + ((b + n - 16384) - (b - 16384)) ≤ 4194304 - 16 * 8 * 16384)

/-! ## Transmitters (R319 to R321) -/

/-- The Qbv gate of a class is open; a port without a list has every gate open. -/
def SwPort.gateOpen (p : SwPort) (c : Nat) : Bool :=
  match p.gcl[p.gclPos]? with | some e => bitsAt e.1 c 1 = 1 | none => true

/-- The class may be preempted on the wire; class 7 is express on every port (R323). -/
def SwPort.preemptable (p : SwPort) (c : Nat) : Bool := p.verified && bitsAt p.preempt c 1 = 1 && c ≠ 7

/-- The highest class with a frame, an open gate and a property. -/
def SwPort.pick (p : SwPort) (ok : Nat → Bool) : Option Nat :=
  (List.range 8).reverse.find? (fun c => p.queue c ≠ [] && p.gateOpen c && ok c)

/-- Begin the next frame: the highest class of all; while a frame is preempted, an express frame or that frame again (R319, R321). -/
def SwPort.startNext (p : SwPort) (now : Nat) : SwPort :=
  let begin' := fun (c : Nat) =>
    match p.queue c with
    | q :: r => { p.setQueue c r with sending := some { q := q, cls := c, sent := 0, start := now, first := now } }
    | [] => p
  if p.sending.isSome || !p.up then p
  else match p.paused with
    | some r =>
      match p.pick (fun c => !p.preemptable c) with
      | some c => begin' c
      | none => { p with sending := some { r with start := now }, paused := none }
    | none => match p.pick (fun _ => true) with | some c => begin' c | none => p

/-- A transmitter begins what it can. -/
def State.txStart (s : State) (p : Nat) : State := s.updPort p (fun x => x.startNext s.time.swq)

/-- Put a frame into a queue of a port; `own`: it is one of Hayward A's. -/
def State.enqueueBy (s : State) (own : Bool) (p c : Nat) (f : SwFrame) : State :=
  if !(s.portOf p).up then s.updPort p (fun x => { x with flushed := x.flushed + 1 })
  else if s.queueFits p c f.len then
    (s.updPort p (fun x => x.setQueue c (x.queue c ++ [{ frame := f, inQ := s.time.swq, own := own }]))).txStart p
  else s.updPort p (fun x => { x with dropQ := Tab.upd 0 x.dropQ c (· + 1) })

def State.enqueue (s : State) (p c : Nat) (f : SwFrame) : State := s.enqueueBy false p c f

/-! ## Hayward A's own frames (R422) -/

/-- The frame that Hayward A hands over next for a port: an answer ahead of every record frame. -/
def SwPort.hwaFirst (x : SwPort) : Option (Bool × SwFrame) :=
  match x.hwaOut.find? (·.1) with
  | some f => some f
  | none => x.hwaOut.head?

/-- Hayward A hands over a frame, if none of its own stands in the class 7 queue of the port. -/
def State.hwaHand (s : State) (p : Nat) : State :=
  let x := s.portOf p
  if (x.queue 7).any (·.own) then s
  else match x.hwaFirst with
    | some f => (s.updPort p (fun x => { x with hwaOut := x.hwaOut.erase f })).enqueueBy true p 7 f.2
    | none => s

/-- A frame of Hayward A for a port, an answer or a piece of a record: one may go on the wire at once, and one into the queue. -/
def State.hwaSend (s : State) (p : Nat) (answer : Bool) (f : SwFrame) : State :=
  if (s.portOf p).up then ((s.updPort p (fun x => { x with hwaOut := x.hwaOut ++ [(answer, f)] })).hwaHand p).hwaHand p
  else s.enqueueBy true p 7 f

/-- A transmitter begins what it can, and Hayward A hands over what its own frame has made room for. -/
def State.txNext (s : State) (p : Nat) : State := ((s.txStart p).hwaHand p).hwaHand p

/-- The package is out of reset and not in the safe state (R354, R493). -/
def State.awake (s : State) : Bool := s.boot.started && !s.flt.safe

/-- The island runs: Hayward B from the start on, Hayward A from boot step 6 unless it has stopped (R441). -/
def State.islandOn (s : State) (island : Bool) : Bool :=
  s.boot.started && !s.flt.safe && (island || (!s.hwa.fault && decide (6 ≤ s.boot.step.toNat)))

/-- SW_REFCLK runs and the switch is not in reset. -/
def State.switchOn (s : State) : Bool := s.awake && !Tab.get false s.flt.refLost 5 && !Tab.get false s.flt.iodSub 2

/-! ## Frames of the internal ports (R323) -/

def macBytes (m : BitVec 48) : List Byte := beBytes 6 m.toNat

/-- Length of a frame of a body: addresses, VLAN tag, Ethertype, FCS; at least 64 bytes. -/
def frameLen (body : List Byte) (tagged : Bool) : Nat := max 64 (18 + (if tagged then 4 else 0) + body.length)

/-- A frame from HOST: by the forwarding table, in the class of its PCP. -/
def State.hostSend (s : State) (f : SwFrame) : State :=
  if !s.switchOn then s
  else
    let vid := (f.vid.getD 0#12).toNat
    match s.fwdPorts vid f.dst with
    | some l => l.foldl (fun a p => a.enqueue p (a.trafficClass vid f.pcp.toNat) f) s
    | none => s.mapSw (fun w => { w with lost := w.lost + 1 })

/-! ## KCP frames (R324, Table 16-3) -/

/-- Header of a KCP frame. -/
def kcpHeader (ty session op status : Nat) (seq len : Nat) : List Byte :=
  beBytes 2 0x4B43 ++ [1, BitVec.ofNat 8 ty, BitVec.ofNat 8 session, BitVec.ofNat 8 op, BitVec.ofNat 8 status, 0] ++ beBytes 8 seq ++
    beBytes 2 len ++ List.replicate 6 0

/-- Nonce of a KCP frame; `dir` 0 for requests, 1 for responses and records. -/
def kcpNonce (session dir seq : Nat) : List Byte := [BitVec.ofNat 8 session, BitVec.ofNat 8 dir, 0, 0] ++ beBytes 8 seq

/-- TAG over header and payload, both in clear. -/
def kcpTag (key : BitVec 256) (session dir seq : Nat) (hp : List Byte) : List Byte :=
  pad 16 (Config.gcmSeal key (kcpNonce session dir seq) hp [])

/-- The endpoint's own addresses from the boot configuration (Table 24-5). -/
def State.kcpConf (s : State) : List Byte := sub s.boot.config 0x300 64

def State.kcpPort (s : State) : Nat := let p := fld s.kcpConf 8 2; if p = 0 then 49710 else p

/-- A UDP datagram from HOST. -/
def State.udpFrame (s : State) (dst : BitVec 48) (ip : List Byte) (port tci : Nat) (payload : List Byte) : SwFrame :=
  let body := Config.ipHeader (sub s.kcpConf 16 16) ip s.kcpPort port payload ++ payload
  { dst := dst, src := BitVec.ofNat 48 (beNat (sub s.kcpConf 0 6)), vid := some (BitVec.ofNat 12 (tci % 4096)),
    pcp := BitVec.ofNat 3 (tci / 8192), ethertype := 0x86DD#16, len := frameLen body true, fcsOk := true, body := body }

/-! ## Record frames (R332, R469, Tables 16-6 and 16-7) -/

/-- Entry d of table 0x17; none past the image. -/
def State.destEntry (s : State) (d : Nat) : Option (List Byte) :=
  let b := s.swImage 0x17
  if 32 * (d + 1) ≤ b.length then some (sub b (32 * d) 32) else none

/-- TAG of a record frame to a destination: of the key place's record key, zeros for KEY 0xFF; for a place that holds no
record key the spec states none: free bytes. -/
def State.recordTag (s : State) (key seq : Nat) (hp : List Byte) : List Byte × State :=
  if key = 255 then (List.replicate 16 0, s)
  else match Tab.get none s.sec.places key with
    | some k => if k.kind = 2 then (kcpTag k.key 0 1 seq hp, s) else s.freeBytes 16
    | none => s.freeBytes 16

/-- One RECORD frame to destination d with the piece's epoch, offset, ISSUER, STATUS and bytes: the KCP frame and the
destination entry. While the crypto subsystem is in reset no frame goes to a keyed destination. -/
def State.recordFrame (s : State) (d epoch off issuer status : Nat) (bytes : List Byte) : Option (List Byte × List Byte) × State :=
  match s.destEntry d with
  | none => (none, s)
  | some e =>
    let key := fld e 26 1
    if key ≠ 255 ∧ Tab.get false s.flt.iodSub 3 then (none, s)
    else
      let seq := Tab.get 0 s.tly.recSeq d + 1
      let payload := beBytes 8 epoch ++ beBytes 2 off ++ beBytes 2 bytes.length ++ [BitVec.ofNat 8 issuer, BitVec.ofNat 8 status, 0, 0] ++ bytes
      let hp := kcpHeader 3 0 0 0 seq payload.length ++ payload
      let t := s.recordTag key seq hp
      (some (e, hp ++ t.1), t.2.mapTly (fun y => { y with recSeq := Tab.set 0 y.recSeq d seq }))

/-- The Ethernet frame of a KCP frame to a destination entry. -/
def State.destFrame (s : State) (e k : List Byte) : SwFrame :=
  s.udpFrame (BitVec.ofNat 48 (beNat (sub e 16 6))) (sub e 0 16) (fld e 22 2) (fld e 24 2) k

/-- Send a piece of a record from HOST. -/
def State.sendRecord (s : State) (d epoch off issuer status : Nat) (bytes : List Byte) : State :=
  match s.recordFrame d epoch off issuer status bytes with
  | (none, t) => t
  | (some (e, k), t) => (t.mapTly (fun y => { y with recSent := y.recSent ++ [(d, k)] })).hostSend (t.destFrame e k)

/-- Send a piece of an ISSUER 1 record through HWA, in class 7. -/
def State.sendAlone (s : State) (d off : Nat) (bytes : List Byte) : State :=
  match s.recordFrame d 0 off 1 1 bytes with
  | (none, t) => t
  | (some (e, k), t) =>
    let f := t.destFrame e k
    let t := t.mapTly (fun y => { y with recSent := y.recSent ++ [(d, k)] })
    if !t.switchOn then t
    else match t.fwdPorts (f.vid.getD 0#12).toNat f.dst with
      | some l => l.foldl (fun a p => a.hwaSend p false f) t
      | none => t.mapSw (fun w => { w with lost := w.lost + 1 })

/-- Ranges of a record that the mask of RECORD_SCHEDULE selects (R100). -/
def recordParts (mask : BitVec 32) : List (Nat × Nat) :=
  ((if mask.getLsbD 0 then [(0, 256)] else []) ++ (if mask.getLsbD 1 then [(256, 1280)] else []) ++
    (if mask.getLsbD 2 then [(1536, 2560)] else []) ++ (if mask.getLsbD 3 then [(4096, 4096)] else []))

/-- Pieces of at most 1,024 bytes of a part. -/
def piecesOf (p : Nat × Nat) : List (Nat × Nat) :=
  (List.range ((p.2 + 1023) / 1024)).map (fun i => (p.1 + 1024 * i, min 1024 (p.2 - 1024 * i)))

end Sys2Proof.Machine
end

