-- ==== Sys2Proof/Machine/Graph.lean ====
section
/-! DEFINITION. Instances of work graphs: releasing nodes into engine lanes, completing and abandoning instances,
gates and engine completion records (R101 to R120, R244, R511). -/

namespace Sys2Proof.Machine

def NodeSt.init : NodeSt := { got := 0, released := false, done := false }

def State.inst? (s : State) (n : BitVec 64) (c : Nat) : Option Inst :=
  s.cx.insts.find? (fun i => i.epoch = n && i.ctx = c)

def State.updInst (s : State) (n : BitVec 64) (c : Nat) (f : Inst → Inst) : State :=
  s.mapCx (fun x => { x with insts := updFirst (fun i => i.epoch = n && i.ctx = c) f x.insts })

/-- The graph that context c runs in epoch n: a graph loaded for a later epoch does not touch it (R85). -/
def State.graphAt (s : State) (n : BitVec 64) (c : Nat) : Option Graph :=
  match (s.ctxOf c).older.find? (fun e => decide (n.toNat < e.1.toNat)) with
  | some e => some e.2
  | none => (s.ctxOf c).graph

/-- Its node table. -/
def State.nodes (s : State) (n : BitVec 64) (c : Nat) : List Node := match s.graphAt n c with | some g => g.nodes | none => []

/-! ## Lanes -/

def isGolden (sh : Sheaf) : Bool := sh.src = .golden

/-- Keep-warm work, which belongs to no epoch or context (R483). -/
def isWarm (sh : Sheaf) : Bool := sh.src = .warm

def Eng.lane (e : Eng) (sc : Nat) : List Sheaf := Tab.get [] e.lanes sc

/-- Occupied places of a lane; the golden sheaf's own place does not count (R111). -/
def Eng.count (e : Eng) (sc : Nat) : Nat := ((e.lane sc).filter (fun sh => !isGolden sh)).length

/-- Places of a lane: 32, of a Blocker 16 (R111, R265). -/
def laneCap (u : Nat) : Nat := if u < 24 then 32 else 16

def Eng.setLane (e : Eng) (sc : Nat) (l : List Sheaf) : Eng := { e with lanes := Tab.set [] e.lanes sc l }

/-- Put a sheaf at the tail of a lane. -/
def State.pushLane (s : State) (u sc : Nat) (sh : Sheaf) : State := s.updEng u (fun e => e.setLane sc (e.lane sc ++ [sh]))

/-- The sheaf of a graph node (R107). -/
def State.graphSheaf (s : State) (n : BitVec 64) (c i : Nat) (nd : Node) : Sheaf :=
  { index := { epoch := n, ctx := c, node := i, ord := 0 }, src := .graph, kind := nd.kind, place := nd.place,
    home := nd.home, desc := (s.ctxOf c).base + nd.desc, ref := nd.ref, bound := nd.bound, expired := 0 }

/-! ## Deputies' ready lists (R111) -/

def readyLt (a b : BitVec 64 × Nat × Nat) : Bool :=
  decide (a.1.toNat < b.1.toNat) ||
    (decide (a.1 = b.1) && (decide (a.2.1 < b.2.1) || (decide (a.2.1 = b.2.1) && decide (a.2.2 < b.2.2))))

/-- Place the waiting nodes of die k whose lane has space, lowest epoch, CTX and node first. -/
def State.drainReady (s : State) (k : Nat) : State :=
  let l := Tab.get [] s.cx.ready k
  let step := fun (p : State × List (BitVec 64 × Nat × Nat)) (w : BitVec 64 × Nat × Nat) =>
    match (p.1.nodes w.1 w.2.1)[w.2.2]? with
    | none => p
    | some nd =>
      let sc := (p.1.ctxOf w.2.1).sc
      if (p.1.eng nd.home).count sc < laneCap nd.home then (p.1.pushLane nd.home sc (p.1.graphSheaf w.1 w.2.1 w.2.2 nd), p.2)
      else (p.1, p.2 ++ [w])
  let r := l.foldl step (s, [])
  r.1.mapCx (fun x => { x with ready := Tab.set [] x.ready k r.2 })

/-- Release node i of an instance: into its lane, the ready list, or the queue of nodes that wait for a gate entry. -/
def State.releaseNode (s : State) (n : BitVec 64) (c i : Nat) (nd : Node) : State :=
  let s := s.updInst n c (fun x => { x with nodes := Tab.upd NodeSt.init x.nodes i (fun t => { t with released := true }) })
  if nd.kind = 4 then s.mapCx (fun x => { x with coreWait := x.coreWait ++ [(n, c, i)] })
  else
    let k := unitDie nd.home
    (s.mapCx (fun x => { x with ready := Tab.upd [] x.ready k (insertBy readyLt (n, c, i)) })).drainReady k

/-! ## Nodes held by Gleaner streams (R244) -/

/-- Descriptor [HOLD_FIRST, HOLD_CNT) of a BOUND descriptor at an address, and the address of the next. -/
def State.glnHold (s : State) (a : Nat) : Option (Nat × Nat) × Option Nat :=
  let d := s.bytesAt a 64
  let flags := fld d 2 1
  (if bitsAt flags 1 1 = 1 then some (fld d 8 4, fld d 12 4) else none,
   if bitsAt flags 0 1 = 1 then none else some (fld d 56 5))

/-- Some descriptor of the chain from `a` on holds node i. -/
def State.chainHolds (s : State) : Nat → Option Nat → Nat → Bool
  | 0, _, _ => false
  | _, none, _ => false
  | f + 1, some a, i =>
    let h := s.glnHold a
    (match h.1 with | some (lo, cnt) => decide (lo ≤ i) && decide (i < lo + cnt) | none => false)
      || s.chainHolds f h.2 i

/-- A Gleaner in instance mode holds node i of c's instance of epoch n: a stream of that chain that has not landed (one that has
failed never does), or a descriptor that has not started yet. -/
def State.glnHolds (s : State) (n : BitVec 64) (c i : Nat) : Bool :=
  (List.range 32).any (fun u =>
    let g := s.gleaner u
    g.mode = 2#2 && g.ctx.toNat = c &&
      (if g.epoch = some n then
        g.streams.any (fun t => t.desc.bound && decide (t.desc.holdFirst ≤ i) &&
          decide (i < t.desc.holdFirst + t.desc.holdCnt)) || s.chainHolds 65536 g.next i
       else g.waitEpochs.contains n && s.chainHolds 65536 (some g.head.toNat) i))

/-! ## Nodes held by ingest channels (R310) -/

/-- The table that governs an epoch on a stream (R305). -/
def IngStream.tableFor (t : IngStream) (n : BitVec 64) : Option IngTable :=
  match t.old.find? (fun e => decide (n.toNat < e.1.toNat)) with
  | some e => e.2
  | none => t.table

/-- A channel has closed for epoch n in a way that lets its held nodes go (R310). -/
def IngChan.frees (x : IngChan) (n : BitVec 64) : Bool :=
  x.eps.any (fun e => e.epoch = n && e.closed && (e.present || e.zeroed))

/-- The epoch's input set is agreed, or this module has no twin to agree with (R310, R380). -/
def OpenEp.inputOk (e : OpenEp) : Bool := !e.paired || e.twin.inputAgreed = some true

/-- Some enabled channel holds node i of c's instance of epoch n until its sample has landed and the input set is
agreed (R310). -/
def State.ingHolds (s : State) (n : BitVec 64) (c i : Nat) : Bool :=
  (List.range 64).any (fun b =>
    let t := s.stream b
    match t.tableFor n with
    | none => false
    | some tb =>
      tb.enable && (List.range tb.chans.length).any (fun ch =>
        match tb.chans[ch]? with
        | none => false
        | some e =>
          e.ctx = c && decide (e.holdFirst ≤ i) && decide (i < e.holdFirst + e.holdCnt) &&
            !((Tab.get IngChan.init t.chans ch).frees n &&
              (match s.openEp? n with | some o => o.inputOk | none => true))))

/-- Nothing but its predecessors holds the node. -/
def State.unheld (s : State) (n : BitVec 64) (c i : Nat) : Bool := !s.glnHolds n c i && !s.ingHolds n c i

/-- Release node i if its predecessors have completed and nothing holds it (R105, R244, R310). -/
def State.tryRelease (s : State) (n : BitVec 64) (c i : Nat) : State :=
  match s.inst? n c, (s.nodes n c)[i]? with
  | some x, some nd =>
    let t := Tab.get NodeSt.init x.nodes i
    if x.started && !t.released && t.got == nd.nPred && s.unheld n c i then s.releaseNode n c i nd else s
  | _, _ => s

/-- Look again at every node of an instance (a stream has landed, a channel has closed, the inputs were agreed). -/
def State.tryAll (s : State) (n : BitVec 64) (c : Nat) : State :=
  forUpto (s.nodes n c).length (fun i a => a.tryRelease n c i) s

/-- Look again at every instance of an epoch. -/
def State.tryEpoch (s : State) (n : BitVec 64) : State :=
  (s.cx.insts.filter (fun i => i.epoch = n)).foldl (fun a i => a.tryAll n i.ctx) s

/-! ## Starting instances (R105, R244) -/

/-- The chains of context c start for an instance, or wait for the previous one. -/
def State.startChains (s : State) (n : BitVec 64) (c : Nat) : State :=
  forUpto 32 (fun u a =>
    let g := a.gleaner u
    if g.mode = 2#2 ∧ g.ctx.toNat = c then
      if g.epoch.isNone && g.streams = [] then
        a.updGleaner u (fun g =>
          { g with epoch := some n, next := some g.head.toNat, cur := g.head, state := 2#3, stopping := false })
      else a.updGleaner u (fun g => { g with waitEpochs := g.waitEpochs ++ [n], state := if g.streams = [] then 1#3 else g.state })
    else a) s

/-- Start the oldest instance of context c unless it has started, or suspect replays of an earlier one still run (R407). -/
def State.advanceCtx (s : State) (c : Nat) : State :=
  match s.cx.insts.find? (fun i => i.ctx = c) with
  | none => s
  | some x =>
    if x.started || s.flt.suspects.any (fun p => p.sheaf.index.ctx = c) then s
    else
      let s := s.updInst x.epoch c (fun y => { y with started := true })
      (s.startChains x.epoch c).tryAll x.epoch c

/-! ## Completion -/

/-- Every stream of a Gleaner issues no further read; those with nothing outstanding are gone. -/
def Gleaner.halt (g : Gleaner) : Gleaner :=
  { g with next := none, streams := (g.streams.map (fun t => { t with dead := true })).filter (fun t => t.reads ≠ [] || t.writes ≠ []) }

/-- A Gleaner with nothing in flight is at the end of its chain (R244): stopped, or, where an error has stopped it or free mode has
ended, so; in instance mode it awaits the next instance. -/
def Gleaner.atEnd (g : Gleaner) : Gleaner :=
  { g with next := none, stopping := false, epoch := none,
           state := if g.stopping then 0#3 else if g.state = 5#3 then 5#3 else if g.mode = 2#2 then 4#3 else 0#3 }

/-- Walks of streams that are given up end (R221). -/
def State.endWalks (s : State) (u : Nat) (l : List GlnStream) : State :=
  l.foldl (fun t x => if x.desc.skind = 0 then t else
    t.updKvw (u / 8) (fun d => { d with ctxs := Tab.upd KvCtx.init d.ctxs x.desc.ctx (fun y =>
      { y with walks := y.walks.eraseP (fun w => decide (w.1 = x.gen)) }) })) s

/-- The walks that a Gleaner's streams wait for are forgotten once it issues no read. -/
def State.dropWalks (s : State) (u : Nat) : State :=
  s.updKvw (u / 8) (fun d => { d with waiting := d.waiting.filter (fun w => w.2 ≠ u) })

/-- A Gleaner issues no further read: reads outstanding complete and their writes land, and with none its chain ends. -/
def State.glnHalt (s : State) (u : Nat) : State :=
  let g := s.gleaner u
  let gone := g.streams.filter (fun t => t.reads = [] && t.writes = [])
  let s := ((s.endWalks u gone).dropWalks u).updGleaner u Gleaner.halt
  if (s.gleaner u).streams = [] then s.updGleaner u Gleaner.atEnd else s

/-- The chain of a Gleaner ends with its instance; the next instance's chain starts (R244). -/
def State.endChains (s : State) (n : BitVec 64) (c : Nat) : State :=
  forUpto 32 (fun u a =>
    let g := a.gleaner u
    if g.mode = 2#2 ∧ g.ctx.toNat = c then
      let a := a.updGleaner u (fun g => { g with waitEpochs := g.waitEpochs.filter (fun m => m ≠ n) })
      if g.epoch = some n then a.glnHalt u else a
    else a) s

/-- A Gleaner whose chain has ended takes the next waiting instance (R244). -/
def State.nextChain (s : State) (u : Nat) : State :=
  let g := s.gleaner u
  match g.epoch, g.waitEpochs with
  | none, n :: w => if g.streams ≠ [] then s else s.updGleaner u (fun g => { g with epoch := some n, waitEpochs := w, next := some g.head.toNat, cur := g.head, state := 2#3 })
  | _, _ => s

/-- An instance has ended: its context contributes no more and its next instance starts. -/
def State.instDone (s : State) (n : BitVec 64) (c : Nat) : State :=
  let s := s.mapCx (fun x => { x with insts := x.insts.filter (fun i => !(i.epoch = n && i.ctx = c)) })
  let s := s.updEp n (fun e => { e with waiting := e.waiting.filter (fun d => d ≠ c) })
  s.advanceCtx c

/-- Node i of an instance has completed: its successors lose a predecessor (R105). -/
def State.completeNode (s : State) (n : BitVec 64) (c i : Nat) : State :=
  match s.inst? n c, (s.nodes n c)[i]? with
  | some x, some nd =>
    if (Tab.get NodeSt.init x.nodes i).done then s
    else
      let s := s.updInst n c (fun y =>
        let t := Tab.upd NodeSt.init y.nodes i (fun t => { t with done := true })
        { y with nodes := nd.succ.foldl (fun m j => Tab.upd NodeSt.init m j (fun t => { t with got := t.got + 1 })) t,
                 left := y.left - 1 })
      let s := nd.succ.foldl (fun a j => a.tryRelease n c j) s
      if x.left ≤ 1 then s.instDone n c else s
  | _, _ => s

/-! ## Engine completion records and gates (R117, R120) -/

/-- Write a completion record into the ring of the engine whose doorbell took the sheaf (Table 5-8). -/
def State.cplRecord (s : State) (ring : Nat) (r : CplRec) : State :=
  s.updEng ring (fun e =>
    { e with ring := Tab.put e.ring e.tail.toNat { r with phase := e.phase }, tail := e.tail + 1,
             phase := if e.tail = 63#6 then !e.phase else e.phase, unread := min 64 (e.unread + 1),
             accepted := e.accepted - 1 })

/-- Address of a gate-ring entry of a context in epoch n. -/
def State.gateAddr (s : State) (n : BitVec 64) (c entry : Nat) : Nat :=
  (s.ctxOf c).base + (match s.graphAt n c with | some g => g.ringOff | none => 0) + 32 * entry

/-- DETAIL class of a failed access (Table 7-11). -/
def accClass : AccStatus → Nat
  | .ok => 0 | .hole => 0x10 | .unavailable => 0x11 | .notOwned => 0x12 | .uncorrected => 0x01 | .alignment => 0x10

/-- A deputy's write of a gate entry failed: an uncorrected error of the instance (R117). -/
def State.gateError (s : State) (n : BitVec 64) (c die : Nat) (e : AccStatus × Nat) : State :=
  (s.withhold n whUnc).fault { epoch := n, sev := 1, kind := 0x0E, unit := 2 * die, cls := accClass e.1, ctx := some c,
                               node := die, addr := e.2 }

/-- Address of STATE of a gate's entry. -/
def State.gateState (s : State) (g : Gate) : Nat := s.gateAddr g.epoch g.ctx g.entry + 16

/-- Write STATE of a gate entry as the deputy of its home die; the failure if there is one. -/
def State.writeGateState (s : State) (g : Gate) (v : Byte) : Option (AccStatus × Nat) × State :=
  match s.store (whoDeputy g.die) (s.gateState g) [v] with
  | (.ok _, t) => (none, t)
  | (.error e, _) => (some e, s)

def sameGate (g h : Gate) : Bool := g.ctx = h.ctx && g.entry = h.entry

def State.dropGate (s : State) (g : Gate) : State :=
  s.mapCx (fun x => { x with gates := x.gates.filter (fun h => !sameGate g h) })

/-- The gate of an abandoned instance is freed: by the deputy of its home die, or by the fabric manager where that die is out
(R105, R511). An entry in memory that is not available stays as it is. -/
def State.giveUpGate (s : State) (g : Gate) : State :=
  (s.store (if s.dieRuns g.die then whoDeputy g.die else whoReeve) (s.gateState g) [0]).2.dropGate g

/-- A closing gate whose sheaves have all completed: STATE becomes 0 and the node completes (R117). -/
def State.closeGate (s : State) (g : Gate) : State :=
  match s.writeGateState g 0 with
  | (some e, t) => (t.dropGate g).gateError g.epoch g.ctx g.die e
  | (none, t) => (t.dropGate g).completeNode g.epoch g.ctx g.node

/-- A sheaf accepted under a gate has completed. -/
def State.gateSheafDone (s : State) (c entry : Nat) : State :=
  let s := s.mapCx (fun x => { x with gates := updFirst (fun g => g.ctx = c && g.entry = entry) (fun g => { g with out := g.out - 1 }) x.gates })
  match s.cx.gates.find? (fun g => g.ctx = c && g.entry = entry) with
  | some g => if g.closing && g.out == 0 then s.closeGate g else s
  | none => s

/-! ## Abandoning an instance (R105) -/

def ofInst (n : BitVec 64) (c : Nat) (sh : Sheaf) : Bool := !isGolden sh && !isWarm sh && sh.index.epoch = n && sh.index.ctx = c

/-- Discard the queued sheaves of an instance on unit u; CORE-submitted ones get a DISCARDED record. -/
def State.discardQueued (s : State) (n : BitVec 64) (c u : Nat) : State :=
  let gone := (List.range 4).flatMap (fun sc => ((s.eng u).lane sc).filter (ofInst n c))
  let s := s.updEng u (fun e =>
    (List.range 4).foldl (fun a sc => a.setLane sc ((a.lane sc).filter (fun sh => !ofInst n c sh))) e)
  gone.foldl (fun a sh =>
    match sh.src with
    | .core entry ring =>
      a.cplRecord ring { epoch := n, ctx := c, code := 0x20, ord := sh.index.ord, gate := entry, engine := 0xFF,
                         phase := false, beats := 0, detail := 0#32, addr := 0 }
    | _ => a) s

/-- Abandon c's instance of epoch n: queued sheaves and unreleased nodes go, running sheaves run on unheeded, its
gates are freed. -/
def State.abandonInst (s : State) (n : BitVec 64) (c : Nat) : State :=
  if (s.inst? n c).isNone then s
  else
    let s := forUpto 28 (fun u a => a.discardQueued n c u) s
    let s := s.mapCx (fun x =>
      { x with engs := x.engs.map (fun e =>
                 (e.1, { e.2 with running := e.2.running.map (fun r =>
                   if ofInst n c r.sheaf then { r with dropped := true } else r) })),
               ready := x.ready.map (fun e => (e.1, e.2.filter (fun w => !(w.1 = n && w.2.1 = c)))),
               coreWait := x.coreWait.filter (fun w => !(w.1 = n && w.2.1 = c)),
               insts := x.insts.filter (fun i => !(i.epoch = n && i.ctx = c)) })
    let s := s.mapCx (fun x => { x with ready := x.ready.filter (fun e => e.2 ≠ []) })
    let s := (s.cx.gates.filter (fun g => g.epoch = n && g.ctx = c)).foldl
      (fun a g => a.giveUpGate g) s
    let s := s.endChains n c
    let s := s.mapOut (fun o => { o with stages := o.stages.filter (fun g => !(g.epoch = n && g.ctx = c)) })
    let s := forUpto 4 (fun k a => a.drainReady k) s
    s.advanceCtx c

/-- Abandon every instance of an epoch. -/
def State.abandonEpoch (s : State) (n : BitVec 64) : State :=
  (s.cx.insts.filter (fun i => i.epoch = n)).foldl (fun a i => a.abandonInst n i.ctx) s

end Sys2Proof.Machine
end

