-- ==== Sys2Proof/Machine/DenpaMsg.lean ====
section
/-! DEFINITION. Denpa messages as bytes of a channel's stream (R374, R376, Table 19-5), and sending one. -/

namespace Sys2Proof.Machine

/-- A forwarded unit as bytes. The spec gives FWD_UNIT "the unit"; the kind byte in front is the model's own. -/
def unitBytes : IngUnit → List Byte
  | .short vc dt d => [0#8, BitVec.ofNat 8 (vc.val * 64 % 256 + dt.toNat), BitVec.ofNat 8 (vc.val / 4)] ++ leBytes 2 d.toNat
  | .long vc dt p ok =>
    [1#8, BitVec.ofNat 8 (vc.val * 64 % 256 + dt.toNat), BitVec.ofNat 8 (vc.val / 4 + 128 * bit01 ok)] ++ p
  | .badHeader => [2#8]
  | .eth et vid b => [3#8] ++ leBytes 2 et.toNat ++ leBytes 2 vid.toNat ++ b

def unitOfBytes (l : List Byte) : IngUnit :=
  let b1 := fld l 1 1
  let b2 := fld l 2 1
  let vc : Fin 16 := ⟨(b1 / 64 + 4 * (b2 % 4)) % 16, Nat.mod_lt _ (by decide)⟩
  match fld l 0 1 with
  | 0 => .short vc (BitVec.ofNat 6 b1) (BitVec.ofNat 16 (fld l 3 2))
  | 1 => .long vc (BitVec.ofNat 6 b1) (l.drop 3) (decide (128 ≤ b2))
  | 3 => .eth (BitVec.ofNat 16 (fld l 1 2)) (BitVec.ofNat 12 (fld l 3 2)) (l.drop 5)
  | _ => .badHeader

/-- Channel, TYPE and body of a message (Tables 19-3 and 19-5). A CFG ends in the slot number, which CFG_ACK and OPEN name and
Table 19-5 gives no place. -/
def msgParts : DMsg → Nat × Nat × List Byte
  | .credit ch f => (0, 0x01, [ch, 0, 0, 0] ++ leBytes 4 f.toNat)
  | .ident sn rev v => (0, 0x02, leBytes 8 sn.toNat ++ [rev, v] ++ List.replicate 6 0)
  | .roleHb p c t o d g =>
    (1, 0x10, [p, BitVec.ofNat 8 (bit01 c), t, 0] ++ leBytes 8 o.toNat ++ leBytes 8 d.toNat ++ leBytes 8 g.toNat)
  | .openMsg n d p f ap =>
    (1, 0x11, leBytes 8 n.toNat ++ leBytes 4 d.toNat ++ [BitVec.ofNat 8 ap.length, BitVec.ofNat 8 (bit01 p + 2 * bit01 f), 0, 0]
      ++ pad 64 (ap.flatMap (fun a => [a.1, 0] ++ leBytes 2 a.2.toNat)))
  | .resign c n => (1, 0x12, [c] ++ List.replicate 7 0 ++ leBytes 8 n.toNat)
  | .expel n => (1, 0x13, leBytes 8 n.toNat)
  | .tag st ch t => (1, 0x14, [st, ch] ++ List.replicate 6 0 ++ leBytes 8 t.toNat)
  | .cfg sl b n => (2, 0x20, pad 256 b ++ leBytes 8 n.toNat ++ [sl])
  | .cfgAck sl c q d => (2, 0x21, [sl, c] ++ leBytes 2 q.toNat ++ leBytes 4 d.toNat)
  | .input n c d => (2, 0x22, leBytes 8 n.toNat ++ leBytes 4 c.toNat ++ pad 48 d)
  | .digest n w wh d => (2, 0x23, leBytes 8 n.toNat ++ [BitVec.ofNat 8 (1 - bit01 w), 0, 0, 0] ++ leBytes 4 wh.toNat ++ pad 48 d)
  | .digestAck n => (2, 0x24, leBytes 8 n.toNat)
  | .evidence n w => (2, 0x25, leBytes 8 n.toNat ++ [w])
  | .progress n p => (2, 0x26, leBytes 8 n.toNat ++ [p])
  | .joinReq g => (2, 0x27, leBytes 8 g.toNat)
  | .joinImage o t p => (2, 0x28, leBytes 4 o.toNat ++ leBytes 4 t.toNat ++ p)
  | .joinDone n => (2, 0x29, leBytes 8 n.toNat)
  | .fwdUnit st ch u => (3, 0x30, [st, ch, 0, 0] ++ unitBytes u)
  | .fwdBegin st ch t a => (3, 0x31, [st, ch] ++ List.replicate 6 0 ++ leBytes 8 t.toNat ++ leBytes 4 a.toNat)
  | .fwdClose st ch c n => (3, 0x32, [st, ch, c] ++ List.replicate 5 0 ++ leBytes 8 n.toNat)
  | .cfgData a d => (3, 0x33, leBytes 5 a.toNat ++ [0, 0, 0] ++ d)

/-- A message as the bytes of its channel's stream: the 8-byte header of R376 and the body. -/
def msgBytes (m : DMsg) : List Byte :=
  let p := msgParts m
  [BitVec.ofNat 8 p.2.1, 0] ++ leBytes 2 p.2.2.length ++ [0, 0, 0, 0] ++ p.2.2

def msgChannel (m : DMsg) : Nat := (msgParts m).1

/-- A message of a TYPE and body; none for an unknown TYPE (R376). -/
def msgOfBody (ty : Nat) (b : List Byte) : Option DMsg :=
  let by8 := fun o => BitVec.ofNat 8 (fld b o 1)
  let w16 := fun o => BitVec.ofNat 16 (fld b o 2)
  let w32 := fun o => BitVec.ofNat 32 (fld b o 4)
  let w64 := fun o => BitVec.ofNat 64 (fld b o 8)
  match ty with
  | 0x01 => some (.credit (by8 0) (w32 4))
  | 0x02 => some (.ident (w64 0) (by8 8) (by8 9))
  | 0x10 => some (.roleHb (by8 0) (fld b 1 1 % 2 = 1) (by8 2) (w64 4) (w64 12) (w64 20))
  | 0x11 => some (.openMsg (w64 0) (w32 8) (fld b 13 1 % 2 = 1) (bitsAt (fld b 13 1) 1 1 = 1)
      ((List.range (min 16 (fld b 12 1))).map (fun i => (by8 (16 + 4 * i), w16 (18 + 4 * i)))))
  | 0x12 => some (.resign (by8 0) (w64 8))
  | 0x13 => some (.expel (w64 0))
  | 0x14 => some (.tag (by8 0) (by8 1) (w64 8))
  | 0x20 => some (.cfg (by8 264) (sub b 0 256) (w64 256))
  | 0x21 => some (.cfgAck (by8 0) (by8 1) (w16 2) (w32 4))
  | 0x22 => some (.input (w64 0) (w32 8) (sub b 12 48))
  | 0x23 => some (.digest (w64 0) (fld b 8 1 = 0) (w32 12) (sub b 16 48))
  | 0x24 => some (.digestAck (w64 0))
  | 0x25 => some (.evidence (w64 0) (by8 8))
  | 0x26 => some (.progress (w64 0) (by8 8))
  | 0x27 => some (.joinReq (w64 0))
  | 0x28 => some (.joinImage (w32 0) (w32 4) (b.drop 8))
  | 0x29 => some (.joinDone (w64 0))
  | 0x30 => some (.fwdUnit (by8 0) (by8 1) (unitOfBytes (b.drop 4)))
  | 0x31 => some (.fwdBegin (by8 0) (by8 1) (w64 8) (w32 16))
  | 0x32 => some (.fwdClose (by8 0) (by8 1) (by8 2) (w64 8))
  | 0x33 => some (.cfgData (BitVec.ofNat 40 (fld b 0 5)) (b.drop 8))
  | _ => none

/-- The link is up (R375). -/
def State.linkUp (s : State) : Bool := s.dnp.state = 2

/-- Since when each credited channel has data and no credit (R374). -/
def DnpS.restarve (d : DnpS) (now : Nat) : DnpS :=
  { d with starved := [1, 2, 3].foldl (fun t c =>
      let waits := Tab.get [] d.out c ≠ [] ∧ Tab.get 0 d.credits c = 0
      Tab.set none t c (if waits then some ((Tab.get none t c).getD now) else none)) d.starved }

/-- Hand a message to its channel's transmitter; without a link nothing is sent, and on channel 2 nothing while the Reeve main
core, its endpoint, hangs (Table 19-3). -/
def State.send (s : State) (m : DMsg) : State :=
  if s.linkUp ∧ !(msgChannel m = 2 && s.flt.reeveHung) then s.mapDnp (fun d =>
    ({ d with out := Tab.upd [] d.out (msgChannel m) (fun l => l ++ msgBytes m),
              handed := Tab.upd 0 d.handed (msgChannel m) (· + (msgBytes m).length) } : DnpS).restarve s.time.dnp) else s

/-- Bytes of a 384-bit word, byte 0 first. -/
def digBytes (d : BitVec 384) : List Byte := leBytes 48 d.toNat

end Sys2Proof.Machine
end

