-- ==== Sys2Proof/Machine/IngestBase.lean ====
section
/-! DEFINITION. What an ingest channel has gathered for an epoch: its sample record and messages as bytes, and the
digest of an epoch's input set (Table 15-6, R308, R380). -/

namespace Sys2Proof.Machine

def IngEp.init (n : BitVec 64) : IngEp :=
  { epoch := n, sample := none, msgs := [], dropped := 0, overflow := false, cause := none, closed := false,
    present := false, zeroed := false }

def IngChan.ep? (x : IngChan) (n : BitVec 64) : Option IngEp := x.eps.find? (fun e => e.epoch = n)

/-- Change what the channel has gathered for an epoch, starting an entry if there is none. -/
def IngChan.updEp (x : IngChan) (n : BitVec 64) (f : IngEp → IngEp) : IngChan :=
  if (x.ep? n).isSome then { x with eps := updFirst (fun e => decide (e.epoch = n)) f x.eps }
  else { x with eps := insertBy (fun a b => decide (a.epoch.toNat < b.epoch.toNat)) (f (IngEp.init n)) x.eps }

/-- A BATCH message in its slot (R308); bytes beyond its payload are zero. -/
def batchMessage (msgBytes : Nat) (m : IngSample) : List Byte :=
  pad msgBytes (leBytes 8 (m.ts.getD 0#64).toNat ++ leBytes 4 ((m.arrive % 4294967296).toNat) ++ leBytes 2 m.bytes.length ++
    [BitVec.ofNat 8 (bit01 m.crc + 2 * bit01 m.ts.isNone + 4 * bit01 m.trunc), 0] ++ m.bytes)

/-- The payload bytes of a channel's slot for an epoch (R380). -/
def slotPayload (c : IngChanCfg) (e : IngEp) : List Byte :=
  if c.batch then e.msgs.flatMap (batchMessage c.msgBytes)
  else match e.sample with | some m => m.bytes | none => []

/-- The 64-byte sample record (Table 15-6). -/
def sampleRecord (stream ch : Nat) (c : IngChanCfg) (begun : BitVec 32) (e : IngEp) : List Byte :=
  let ms := if c.batch then e.msgs else e.sample.toList
  let first := ms.head?
  let any := fun (p : IngSample → Bool) => bit01 (ms.any p)
  pad 64 (leBytes 8 e.epoch.toNat ++ leBytes 4 (match first with | some m => m.seq.toNat | none => begun.toNat) ++
    [BitVec.ofNat 8 stream, BitVec.ofNat 8 ch,
     BitVec.ofNat 8 (bit01 e.present + 2 * any (·.trunc) + 4 * any (·.crc) + 8 * any (·.hdr) + 16 * any (·.gap) +
       32 * bit01 (match first with | some m => m.ts.isNone | none => true) + 64 * bit01 e.zeroed +
       128 * bit01 e.overflow), 0] ++
    leBytes 8 (match first with | some m => (m.ts.getD 0#64).toNat | none => 0) ++
    leBytes 4 (match first with | some m => (m.arrive % 4294967296).toNat | none => 0) ++
    leBytes 4 (if c.batch then e.msgs.length else (match e.sample with | some m => m.bytes.length | none => 0)) ++
    leBytes 4 e.dropped)

/-- Enabled channels in order of stream byte and channel, with what governs them for epoch n. -/
def State.channelsFor (s : State) (n : BitVec 64) : List (Nat × Nat × IngChanCfg) :=
  (List.range 64).flatMap (fun b =>
    match (s.stream b).tableFor n with
    | some t =>
      if t.enable then
        (List.range t.chans.length).filterMap (fun ch => (t.chans[ch]?).map (fun c => (b, ch, c)))
      else []
    | none => [])

def State.chan (s : State) (b ch : Nat) : IngChan := Tab.get IngChan.init (s.stream b).chans ch

def State.updChan (s : State) (b ch : Nat) (f : IngChan → IngChan) : State :=
  s.updStream b (fun t => { t with chans := Tab.upd IngChan.init t.chans ch f })

/-- The number of a sample whose TAG is awaited (R378). -/
def noTag : BitVec 64 := BitVec.allOnes 64

/-- A sample in progress is discarded; one that waits for its TAG leaves its place in the order of TAGs. -/
def IngChan.abort (x : IngChan) : IngChan :=
  match x.live with
  | some m => if m.epoch = noTag then { x with live := none, untagged := x.untagged ++ [{ m with ended := false }] } else { x with live := none }
  | none => x

/-- The parser state a channel of the stream starts in (Table 15-3). -/
def IngStream.startOf (t : IngStream) (ch : Nat) : Nat :=
  match t.table with
  | some g => (match g.chans[ch]? with | some c => c.startState | none => 0)
  | none => 0

/-- Samples that wait for a TAG which cannot come any more are discarded. -/
def State.dropUntagged (s : State) : State :=
  s.mapIng (fun i => { i with streams := i.streams.map (fun t => (t.1, { t.2 with chans := t.2.chans.map (fun c =>
    (c.1, { c.2 with untagged := [], live := c.2.live.filter (fun m => m.epoch ≠ noTag) })) })) })

/-- Channel ch of stream b has closed for epoch n. -/
def State.chanClosed (s : State) (n : BitVec 64) (b ch : Nat) : Bool :=
  match (s.chan b ch).ep? n with | some e => e.closed | none => false

/-- Every enabled channel has closed for epoch n (R309, R380). -/
def State.inputsClosed (s : State) (n : BitVec 64) : Bool := (s.channelsFor n).all (fun c => s.chanClosed n c.1 c.2.1)

/-- INPUT_COUNT and INPUT_DIGEST of epoch n (R380). -/
def State.inputSet (s : State) (n : BitVec 64) : Nat × BitVec 384 :=
  let parts := (s.channelsFor n).map (fun c =>
    let x := s.chan c.1 c.2.1
    let e := (x.ep? n).getD (IngEp.init n)
    ((if c.2.2.batch then e.msgs.length else bit01 e.present),
     sha384 (slotPayload c.2.2 e ++ sampleRecord c.1 c.2.1 c.2.2 x.begun e)))
  ((parts.map (·.1)).foldl (· + ·) 0, sha384Word (parts.flatMap (·.2)))

end Sys2Proof.Machine
end

