-- ==== Sys2Proof/Machine/Tally.lean ====
section
/-! DEFINITION. Epochs and the Tally ledger: the golden sheaf of an epoch, when an epoch is whole, writing its record,
and settling what must be decided at once (R83 to R100, R358, R359). -/

namespace Sys2Proof.Machine

/-! ## The golden sheaf (R358, R359) -/

def State.gold? (s : State) (n : BitVec 64) : Option GoldEp := s.hwa.golds.find? (fun g => g.epoch = n)

def State.updGold (s : State) (n : BitVec 64) (f : GoldEp → GoldEp) : State :=
  s.mapHwa (fun h => { h with golds := updFirst (fun g => decide (g.epoch = n)) f h.golds })

/-- The engine of the rotation: the first enabled engine from the current one on, TE0 to TE15 then CE0 to CE7. -/
def State.goldEngine (s : State) : Option Nat :=
  (List.range 24).findSome? (fun i =>
    let u := (s.hwa.engine.toNat + i) % 24
    if s.unitOk u then some u else none)

def goldSheaf (n : BitVec 64) (u v : Nat) : Sheaf :=
  { index := { epoch := n, ctx := 0x7F, node := v, ord := 0 }, src := .golden, kind := unitKind u, place := 2, home := u,
    desc := bankAddr (unitDie u) 0 + Config.goldenDesc (unitKind u) v, ref := 0, bound := 4000, expired := 0 }

/-- Take a golden sheaf out of the lanes of an engine. -/
def State.pullGold (s : State) (n : BitVec 64) (u : Nat) : State :=
  s.updEng u (fun e => (List.range 4).foldl (fun a sc =>
    a.setLane sc ((a.lane sc).filter (fun sh => !(isGolden sh && sh.index.epoch = n)))) e)

/-- At the open event: choose engine and variant, place the sheaf at the tail of SC3, or after three deferrals at the
head of SC0. -/
def State.goldOpen (s : State) (n : BitVec 64) : State :=
  match s.goldEngine with
  | none => s
  | some u =>
    let v := n.toNat % 8
    let forced := decide (3 ≤ s.hwa.deferrals.toNat)
    let sh := goldSheaf n u v
    let s := s.updEng u (fun e => if forced then e.setLane 0 (sh :: e.lane 0) else e.setLane 3 (e.lane 3 ++ [sh]))
    s.mapHwa (fun h =>
      { h with engine := BitVec.ofNat 5 u, variant := BitVec.ofNat 3 v,
               golds := h.golds ++ [{ epoch := n, engine := u, variant := v, state := if forced then 2 else 0,
                                      late := false, outcome := 0, tick := 0, deferrals := h.deferrals.toNat }] })

/-- Defer the golden sheaf of N: withdrawn, one more consecutive deferral, GOLDEN_DEFERRED set. -/
def State.goldDefer (s : State) (n : BitVec 64) : State :=
  match s.gold? n with
  | none => s
  | some g =>
    let t := s.now - (s.openTickOf n).getD s.now
    let s := (s.pullGold n g.engine).mapHwa (fun h =>
      { h with deferrals := BitVec.ofNat 4 (min 3 (h.deferrals.toNat + 1)), goldLast := 2#2 })
    (s.updGold n (fun g => { g with state := 4, outcome := 2, tick := t, deferrals := s.hwa.deferrals.toNat })).updEp n
      (fun e => { e with goldDefer := true })

/-- The golden sheaf of N has its outcome, or N has none. -/
def State.goldDone (s : State) (n : BitVec 64) : Bool := match s.gold? n with | some g => g.state = 4 | none => true

/-! ## When an epoch is whole (R85, R86) -/

/-- Configurations of enabled stages for epoch n. -/
def State.wdgFor (s : State) (n : BitVec 64) : List (Nat × WdgCfg) :=
  (s.hwa.epCfg.filter (fun c => c.1 = n && c.2.2.enable)).map (fun c => c.2)

def State.judge? (s : State) (n : BitVec 64) (st : Nat) : Option WdgJudge :=
  s.hwa.judged.find? (fun j => j.epoch = n && j.stage = st)

/-- Every enabled stage watchdog was satisfied (R86 condition 3). -/
def State.wdgOk (s : State) (n : BitVec 64) : Bool :=
  (s.wdgFor n).all (fun c => match s.judge? n c.1 with | some j => j.outcome = 1 | none => false)

/-- Every contributor other than the golden sheaf has reported; a watchdog on the digest itself cannot yet have. -/
def State.restDone (s : State) (e : OpenEp) : Bool :=
  e.waiting = [] && s.inputsClosed e.n &&
    (s.wdgFor e.n).all (fun c => c.2.kind = 4 || (s.judge? e.n c.1).isSome) && e.inputOk

/-- Conditions 1 to 4 of R86. -/
def State.wholeAlone (s : State) (e : OpenEp) : Bool :=
  s.restDone e && s.goldDone e.n && s.wdgOk e.n && e.withhold == 0#32

/-- In a pair with a member twin. -/
def State.inPair (s : State) : Bool := s.pair.pstate = 1#3 || s.pair.pstate = 2#3

/-- This module decides epochs (Table 19-8), unless a fault of severity 3 stops it (Table 20-1). -/
def State.decides (s : State) : Bool := (s.pair.pstate = 0#3 || s.inPair) && !s.flt.safe && !s.hwa.fault && !s.flt.reeveHung

/-- ROLE of MBX_CTRL (R384). -/
def State.isRole (s : State) : Bool := s.pair.pstate = 0#3 || s.pair.pstate = 1#3

/-- The epoch needs the twin's agreement (R86 condition 5, R92). -/
def State.needsTwin (s : State) (e : OpenEp) : Bool := e.paired && s.inPair

/-- Inputs of the epoch are agreed with the twin: of a member, or of a joiner's shadow epoch (R380, R391). -/
def State.agrees (s : State) (e : OpenEp) : Bool := e.paired && (s.inPair || s.pair.pstate = 3#3)

/-- INPUT of the epoch goes to the twin: it is agreed, or a joiner runs it in shadow. -/
def State.talks (s : State) (e : OpenEp) : Bool := s.agrees e || e.shadow

/-- The twin has said that its copy is whole, and is not whole. -/
def OpenEp.twinWhole (e : OpenEp) : Bool := match e.twin.digestTwin with | some d => d.1 | none => false
def OpenEp.twinNotWhole (e : OpenEp) : Bool := match e.twin.digestTwin with | some d => !d.1 | none => false

/-- Condition 5 of R86; a twin that is not whole leaves this module's copy standing (Table 19-7). -/
def State.twinOk (s : State) (e : OpenEp) : Bool :=
  !s.needsTwin e || (e.inputOk && (e.twin.acked || e.twin.resolved == some true || e.twinNotWhole))

def State.whole (s : State) (e : OpenEp) : Bool := s.wholeAlone e && s.twinOk e

/-! ## Units out of service (R94 DEGRADED) -/

def State.degraded (s : State) : Bool :=
  s.boot.dieDis ≠ 0#4 || s.boot.engDis ≠ 0#28 || s.boot.cluDis ≠ 0#8 || s.boot.stackOut ≠ 0#4 ||
    (List.range 4).any (fun k => !s.dieRuns k) || (List.range 8).any (fun l => !s.linkOk l) ||
    (List.range 28).any (fun u => (s.eng u).failed || (s.eng u).resetting) ||
    (List.range 8).any (fun c => Tab.get false s.flt.clusters c || Tab.get false s.flt.cluOff c) ||
    (List.range 4).any (fun k => Tab.get false s.flt.stackRst k || Tab.get false s.flt.iodSub k)

/-! ## Temperatures and power of the record -/

/-- Value of a signed 16-bit temperature. -/
def signed16 (v : BitVec 16) : Int := v.toInt

/-- Pair values of a list of sensor pairs. -/
def pairValues (n : Nat) (t : Tab SPair) : List Int :=
  (List.range n).filterMap (fun p => let x := Tab.get SPair.init t p; if x.valid then some (signed16 x.value) else none)

def maxInt : List Int → Option Int
  | [] => none
  | x :: r => some (r.foldl max x)

/-- The hottest valid reading of a die (R478). -/
def State.hottest (s : State) (k : Nat) : Option Int := maxInt (pairValues 12 (s.opc k).pairs)

/-- LEVEL_CAP: the lower of PCAP and the throttle cap (R480, R51). -/
def State.thrCap (s : State) (k : Nat) : Nat :=
  match (s.opc k).thrIn with | some i => (Tab.get { valid := false, cap := 0#4, tOn := 0#16 } (s.opc k).thr i).cap.toNat | none => 15

/-- FLAGS THERMAL: a throttle cap below the commanded level (R480). -/
def State.thermal (s : State) : Bool :=
  (List.range 4).any (fun k => s.dieRuns k && decide (s.thrCap k < (s.opc k).levelCmd.toNat))

def dieStateCode : DieState → Nat
  | .running => 0 | .disabled => 1 | .fenced => 2 | _ => 3

def State.dieLoc (s : State) (e : OpenEp) (k : Nat) : DieLoc :=
  let o := s.opc k
  let c := Tab.get (0, 0) e.dieErrs k
  { state := dieStateCode (s.dieState k), levelEff := o.levelEff.toNat, vcode := o.vcode.toNat, margin := o.margin,
    band := o.band.toNat, temp := BitVec.ofInt 16 ((s.hottest k).getD 0), rate := o.rate, corr := c.1, unc := c.2 }

/-- SLOWDOWN of context c: ratio in 8.8 fixed point, rounded to nearest, saturating (R124). -/
def slowdownOf (run ref : Nat) : Nat :=
  if ref = 0 then (if run = 0 then 0 else 0xFFFF) else min ((512 * run + ref) / (2 * ref)) 0xFFFF

/-! ## Records -/

/-- WDG[n] of the local section: outcome, EDGE and tick (Table 4-5). -/
def State.wdgWord (s : State) (n : BitVec 64) (st : Nat) : Nat :=
  if (s.wdgFor n).any (fun c => c.1 = st) then
    match s.judge? n st with
    | some j => j.outcome + 256 * bit01 j.edge + 4294967296 * j.tick
    | none => 4
  else 0

/-- FLAGS of a record (Table 4-3). PAIR_UNCHECKED: no record that a member of the pair withholds carries it (Table 19-7). -/
def State.recFlags (s : State) (e : OpenEp) (pub final : Bool) : BitVec 16 :=
  BitVec.ofNat 16 (flagsNat
    [!(e.twin.acked) && (pub || !e.paired), e.twin.unresolved, e.goldDefer, e.edge, (List.range 4).any (fun k => (s.opc k).marginRec),
     e.failover, s.degraded || final, e.selCase = 5 || e.selCase = 6, s.thermal || final, s.thm.coolLoss])

/-- The record of an epoch that is decided now (R93 to R96). -/
def State.recOf (s : State) (e : OpenEp) (pub final : Bool) : Rec :=
  let d := pub
  { epoch := e.n, openTick := e.openTick, published := pub, flags := s.recFlags e pub final,
    withhold := if pub then 0#32 else e.withhold, deadline := e.deadline,
    closeTick := (e.doneTick.map (fun t => t - e.openTick)).getD e.deadline, publishTick := s.now - e.openTick,
    digest := if d then e.digest.getD 0#384 else 0#384,
    twinDigest := match e.twin.digestTwin with | some x => if x.1 then x.2.2 else 0#384 | none => 0#384,
    serial := s.pair.serial, prev := s.tly.latest,
    configGen := if d then e.configGen else 0#64, cmds := if d then e.cmds else [],
    inputCount := if d then (s.inputSet e.n).1 else 0, inputDigest := if d then (s.inputSet e.n).2 else 0#384,
    results := if d then e.results else [], selCase := if d then e.selCase else 0,
    trajMapEpoch := if d then e.trajMapEpoch else 0#64, traj := if d then e.traj else [],
    dies := (List.range 4).map (s.dieLoc e), power := s.thm.power.toNat, tin := s.cool.tin, tout := s.cool.tout,
    flow := s.cool.flow.toNat, role := bit01 s.isRole, skipped := s.tly.skipped, chaff := e.chaff,
    slow := (List.range 64).filterMap (fun c =>
      let b := Tab.get (0, 0) e.beats c
      let v := slowdownOf b.1 b.2 + 65536 * Tab.get 0 e.states c
      if v = 0 then none else some (c, v)),
    wdg := (List.range 16).filterMap (fun st => let v := s.wdgWord e.n st; if v = 0 then none else some (st, v)),
    golden := match s.gold? e.n with
      | some g => { engine := g.engine, result := if g.state = 4 then g.outcome else 2, deferrals := g.deferrals, tick := g.tick }
      | none => { engine := 0, result := 2, deferrals := 0, tick := 0 },
    err := e.err }

/-- Bytes 256 to 4095 (Table 4-4); `addr` false: every ADDR reads as zero (R90). -/
def agreedBytes (n configGen : BitVec 64) (cmds : List CmdEntry) (inCount : Nat) (inDigest : BitVec 384)
    (res : List ResEntry) (sel : Nat) (traj : List Byte) (mapEpoch : BitVec 64) (addr : Bool) : List Byte :=
  pad 128 (leBytes 8 n.toNat ++ leBytes 8 configGen.toNat ++ leBytes 2 res.length ++ [BitVec.ofNat 8 cmds.length, 0] ++
      leBytes 4 inCount ++ digBytes inDigest) ++
    pad 128 (cmds.flatMap (fun c => leBytes 2 c.opcode ++ leBytes 2 c.seq.toNat ++ [BitVec.ofNat 8 c.slot, 0, 0, 0])) ++
    pad 1024 (res.flatMap (fun r => [BitVec.ofNat 8 r.ctx, BitVec.ofNat 8 r.outId, 0, 0] ++ leBytes 4 r.len ++
      leBytes 8 (if addr then r.addr else 0))) ++
    pad 512 ([BitVec.ofNat 8 sel, 0, 0, 0] ++ leBytes 4 traj.length ++ leBytes 8 mapEpoch.toNat) ++ pad 2048 traj

/-- A record as its 8,192 bytes (Tables 4-2, 4-4, 4-5). -/
def recBytes (r : Rec) : List Byte :=
  pad 256 (leBytes 8 r.epoch.toNat ++ [if r.published then 1 else 2, 0] ++ leBytes 2 r.flags.toNat ++
      leBytes 4 r.withhold.toNat ++ leBytes 4 r.deadline ++ leBytes 4 r.closeTick ++ leBytes 4 r.publishTick ++
      leBytes 4 0 ++ digBytes r.digest ++ digBytes r.twinDigest ++ leBytes 8 r.serial.toNat ++ leBytes 8 r.prev.toNat) ++
    (if r.published then agreedBytes r.epoch r.configGen r.cmds r.inputCount r.inputDigest r.results r.selCase r.traj
        r.trajMapEpoch true
     else List.replicate 3840 0#8) ++
    (r.dies.flatMap (fun d => pad 32 ([BitVec.ofNat 8 d.state, BitVec.ofNat 8 d.levelEff, BitVec.ofNat 8 d.vcode,
      BitVec.ofNat 8 (bit01 d.margin + 2 * d.band)] ++ leBytes 2 d.temp.toNat ++ leBytes 2 d.rate.toNat ++
      leBytes 4 d.corr ++ leBytes 4 d.unc))) ++
    pad 64 (leBytes 2 r.power ++ leBytes 2 r.tin.toNat ++ leBytes 2 r.tout.toNat ++ leBytes 2 r.flow ++
      [BitVec.ofNat 8 r.role, 0] ++ leBytes 2 r.skipped ++ leBytes 4 r.chaff) ++
    ((List.range 64).flatMap (fun c => leBytes 4 (Tab.get 0 r.slow c))) ++
    ((List.range 16).flatMap (fun n => leBytes 8 (Tab.get 0 r.wdg n))) ++
    pad 16 ([BitVec.ofNat 8 r.golden.engine, BitVec.ofNat 8 r.golden.result, BitVec.ofNat 8 r.golden.deferrals, 0] ++
      leBytes 4 r.golden.tick) ++
    pad 3504 (leBytes 4 r.err.unc ++ leBytes 4 r.err.corr ++ leBytes 8 r.err.addr ++
      [BitVec.ofNat 8 r.err.ctx, BitVec.ofNat 8 r.err.node])

/-- The results index of an epoch: every output of every contributing context, by CTX then OUT_ID (R90, R103). -/
def State.resultsOf (s : State) (e : OpenEp) : List ResEntry :=
  (sortBy (fun a b => decide (a < b)) e.ctxs).flatMap (fun c =>
    match s.graphAt e.n c with
    | none => []
    | some g =>
      (sortBy (fun a b => decide (a.outId < b.outId)) g.outs).map (fun o =>
        { ctx := c, outId := o.outId, len := o.bytes,
          addr := (s.ctxOf c).base + o.off + e.n.toNat % g.slots * o.bytes }))

/-- The epoch digest (R90). -/
def State.digestOf (s : State) (e : OpenEp) (res : List ResEntry) : BitVec 384 :=
  let i := s.inputSet e.n
  sha384Word (agreedBytes e.n e.configGen e.cmds i.1 i.2 res e.selCase e.traj e.trajMapEpoch false ++
    res.flatMap (fun r => s.bytesAt r.addr r.len))

/-! ## Deciding (R87 to R89, R97, R100) -/

/-- Send the record of epoch `n` to its destinations when the record schedule names it (R100, R332). -/
def State.schedRecord (s : State) (n : BitVec 64) (pub : Bool) (rec' : Rec) : State :=
  let r := s.tly.recSched
  if r.every ≠ 0#16 ∧ n.toNat % r.every.toNat = 0 ∧ (pub ∨ r.mask.getLsbD 4) then
    let b := recBytes rec'
    (List.range 32).foldl (fun a d =>
      if r.dests.getLsbD d then
        ((recordParts r.mask).flatMap piecesOf).foldl (fun a p =>
          a.sendRecord d n.toNat p.1 0 (if pub then 1 else 2) (sub b p.1 p.2)) a
      else a) s
  else s

/-- What Hayward A shows of the decided epoch (Table 18-11): outcome, EDGE and failure count of every stage. -/
def State.stageRegs (s : State) (n : BitVec 64) : State :=
  forUpto 16 (fun st a =>
    let w := a.wdgWord n st
    a.updWdgStage st (fun x =>
      { x with outcome := BitVec.ofNat 3 w, edge := decide (w / 256 % 2 = 1),
               failCnt := if 2 ≤ w % 256 then satInc x.failCnt else x.failCnt })) s

/-- Forget what was gathered for a decided epoch. -/
def State.forgetEpoch (s : State) (n : BitVec 64) : State :=
  let s := s.mapTly (fun t => { t with openEps := t.openEps.filter (fun e => e.n ≠ n), skipped := 0 })
  let s := s.mapHwa (fun h =>
    { h with judged := h.judged.filter (fun j => j.epoch ≠ n), epCfg := h.epCfg.filter (fun c => c.1 ≠ n),
             golds := h.golds.filter (fun g => !(g.epoch = n && g.state = 4)) })
  let s := s.mapOut (fun o => { o with stages := o.stages.filter (fun g => g.epoch ≠ n) })
  s.mapIng (fun i => { i with streams := i.streams.map (fun e =>
    (e.1, { e.2 with chans := e.2.chans.map (fun c => (c.1, { c.2 with eps := c.2.eps.filter (fun p => p.epoch ≠ n) })) })) })

/-- Output data of a withheld epoch is undefined (R97): free bytes. -/
def State.scrub (s : State) (l : List ResEntry) : State :=
  l.foldl (fun a r => let b := a.freeBytes r.len; b.2.write r.addr b.1) s

/-- Write the record of the oldest open epoch: the decision (R88). -/
def State.decideEpoch (s : State) (e : OpenEp) (pub final : Bool) : State :=
  let s := if s.goldDone e.n then s
    else match s.gold? e.n with
      | some g => if g.state = 3 then s else s.goldDefer e.n
      | none => s
  let e := (s.openEp? e.n).getD e
  let r := s.recOf e pub final
  let s := s.mapTly (fun t =>
    { t with recs := (t.recs ++ [r]).drop (t.recs.length + 1 - 64), latest := if pub then e.n else t.latest })
  let s := (if pub then s else s.scrub (s.resultsOf e)).stageRegs e.n
  let s := if pub then s.mapOut (fun o => { o with lastPub := s.now, alone := false }) else s
  let s := (forUpto 4 (fun k a => a.updOpc k (fun o => { o with marginRec := false })) s).mapPair (fun p => { p with hideTly := false })
  let s := if s.pair.pstate = 1#3 ∧ e.paired ∧ e.twin.digestTwin.isNone ∧ !e.twin.acked then
      s.mapPair (fun p => { p with twinOpen := p.twinOpen ++ [e.n] }) else s
  let s := if !pub ∧ (s.needsTwin e ∨ e.shadow) ∧ !e.twin.digestSent then
      s.send (.digest e.n false e.withhold (digBytes 0#384)) else s
  (s.forgetEpoch e.n).schedRecord e.n pub r

end Sys2Proof.Machine
end

