-- ==== Sys2Proof/Machine/Complete.lean ====
section
/-! DEFINITION. Completing mailbox commands: completion records, responses in parts, protocol slips, and the end of an
ACTIVE command (R64, R68, R70, R71, R75, R78, R81). -/

namespace Sys2Proof.Machine

/-! ## Numbers -/

/-- The next epoch number: one above the highest that either module has opened or that an OPEN in flight carries (R83,
R92, R377). -/
def State.nextN (s : State) : BitVec 64 :=
  BitVec.ofNat 64 (max s.tly.opened.toNat s.pair.twinOpened.toNat + s.pair.openHeld.length + 1)

/-- A schedule opens epochs. -/
def State.scheduled (s : State) : Bool := s.tly.sched.isSome && !s.tly.halted

/-- Epochs that are open: this module's, and those its twin has not decided (R84). -/
def State.openCnt (s : State) : Nat := s.tly.openEps.length + (s.pair.twinOpen.filter (fun n => (s.openEp? n).isNone)).length

/-- Epochs that count as open: those open, and those whose OPEN is in flight. -/
def State.openCount (s : State) : Nat := s.openCnt + s.pair.openHeld.length

/-- An epoch is open, about to open, or a schedule runs (Table 3-8). -/
def State.opensLater (s : State) : Bool := s.openCount ≠ 0 || s.scheduled

/-- Effect epoch of a class E or B command (Table 3-8). -/
def State.effEpoch (s : State) (a : ActCmd) : BitVec 64 := if a.atEpoch then a.target else s.nextN

/-! ## Slips of the slot protocol (R64) -/

/-- Set a MBX_STICKY bit and count the event. -/
def State.slip (s : State) (bit : Nat) : State :=
  s.mapMbx (fun m => { m with sticky := m.sticky ||| BitVec.ofNat 4 (2 ^ bit), anomaly := satInc m.anomaly })

/-! ## Completion records (Table 3-9) -/

/-- What a completion record says besides OPCODE and SEQ. -/
structure Cpl where
  code    : Nat
  epoch   : BitVec 64
  degraded : Bool := false
  effTick : Nat := 0
  detail  : Option Nat := none            -- none: the spec states no DETAIL
  result  : List Byte := []               -- the bytes of RESULT that the spec states
  resp    : Option (List Byte) := none    -- the full response
  deriving DecidableEq, Repr

/-- The 2,048 bytes, or fewer, of a response that start at an offset (R70). -/
def respPart (b : List Byte) (o : Nat) : List Byte := (b.drop o).take 2048

/-- RESP_OFFSET of a slot's body. -/
def State.respOff (s : State) (slot : Nat) : Nat :=
  leNat ((List.range 4).map (fun i => Tab.get 0#8 (s.slotOf slot).body (16 + i)))

/-- The slot with its completion record written and its state DONE (R68); `free` fills RESULT and DETAIL where the spec
states no value. -/
def Slot.done (x : Slot) (opcode : Nat) (seq : BitVec 16) (off : Nat) (free : List Byte × BitVec 32) (c : Cpl) : Slot :=
  let part := match c.resp with | some b => respPart b off | none => []
  let total := match c.resp with | some b => b.length | none => 0
  { x with
    state := 3#2, lastSeq := if c.code = 0x13 then x.lastSeq else seq, opcode := opcode, cseq := seq, code := c.code,
    cflags := bit01 c.resp.isSome + 2 * bit01 (decide (off + part.length < total)) + 4 * bit01 c.degraded,
    epoch := c.epoch, respLen := part.length, respTotal := total, effTick := c.effTick, detail := c.detail.getD free.2.toNat,
    result := (c.result ++ free.1.drop c.result.length).take 32, resp := if c.resp.isSome then part else x.resp }

/-- Complete the command of a slot. -/
def State.complete (s : State) (slot opcode : Nat) (seq : BitVec 16) (c : Cpl) : State :=
  let off := s.respOff slot
  let b := s.freeBytes 32
  let w := b.2.freeWord
  let s := w.2.updSlot slot (fun x => x.done opcode seq off (b.1, w.1) c)
  if c.code = 0x13 then s.slip 3 else s

/-- A completion code with DETAIL and RESULT bytes 0 to 3 where the spec states them. -/
structure CmdErr where
  code   : Nat
  detail : Option Nat
  field  : Option Nat
  deriving DecidableEq, Repr

/-- A field of data read from a source address fails (R505). -/
def dataErr (o : Nat) : CmdErr := { code := 0x11, detail := some 8, field := some o }
/-- An argument fails. -/
def argErr (o : Nat) : CmdErr := { code := 0x11, detail := some o, field := none }
/-- A length argument disagrees with the data (R505). -/
def lenErr (o : Nat) : CmdErr := { code := 0x11, detail := some o, field := some 0 }
/-- A code without an argument. -/
def codeErr (c : Nat) : CmdErr := { code := c, detail := none, field := none }

/-- A completion with an error of validation or of background work. -/
def CmdErr.cpl (e : CmdErr) (n : BitVec 64) : Cpl :=
  { code := e.code, epoch := n, detail := e.detail, result := match e.field with | some o => leBytes 4 o | none => [] }

/-- A KEY_INSTALL is ACTIVE. -/
def State.installing (s : State) : Bool := s.cmds.active.any (fun a => a.opcode = 0x61)

/-- A KEY_INSTALL has ended: the pair that waited for it comes into force. -/
def State.promotePair (s : State) : State :=
  if s.installing then s
  else match s.sec.nextPair with
    | some p => s.mapSec (fun x => { x with pair := some p, nextPair := none })
    | none => s

/-- An ACTIVE command ends: its slot is completed, unless the twin carried it here (R379). -/
def State.endCmd (s : State) (a : ActCmd) (c : Cpl) : State :=
  let s := s.mapCmds (fun x => { x with active := x.active.erase a })
  (if a.remote then s else s.complete a.slot a.opcode a.seq c).promotePair

/-- KEY_INSTALL and WEIGHT_DECRYPT act on this module alone (R379). -/
def moduleLocal (op : Nat) : Bool := op = 0x61 || op = 0x62

/-- A class E or B change has applied: counted, listed for the next epoch that opens, and kept in the configuration store, unless it
is module-local (R95, R379, R391). -/
def State.noteApplied (s : State) (a : ActCmd) : State :=
  if moduleLocal a.opcode then s
  else (s.mapTly (fun y =>
      { y with configGen := y.configGen + 1, early := y.early ++ [{ opcode := a.opcode, seq := a.seq, slot := a.slot }] })).mapCmds
        (fun c => { c with store := c.store ++ [(a.body, a.data)] })

/-- A module that is not commander any more completes its ACTIVE class E and B commands with ROLE (R81, R390). -/
def State.dropCmds (s : State) : State :=
  (s.cmds.active.filter (fun a => !moduleLocal a.opcode)).foldl
    (fun t a => t.endCmd a { code := 0x21, epoch := t.effEpoch a }) s

end Sys2Proof.Machine
end

