-- ==== Sys2Proof/Machine/Roles.lean ====
section
/-! DEFINITION. Roles in the pair: changing the pair state, losing the twin or the link, leaving, resigning and taking the
role; and settling what an epoch's state makes due at once (R86 to R92, R373, R383 to R391). -/

namespace Sys2Proof.Machine

/-! ## Pair state (R384, R385) -/

/-- CAN_CMD (R385, R416, R419). -/
def State.canCmd (s : State) : Bool :=
  !s.hwa.fault && !s.flt.safe && !s.flt.reeveHung && !s.thm.shutdown && s.mbx.ready && (List.range 4).any s.dieRuns && !s.thm.coolLoss &&
    !(Tab.get false s.flt.refLost 5)

/-- Enter a pair state: ROLE follows, and TERM counts a change of role. -/
def State.setPState (s : State) (p : BitVec 3) : State :=
  let was := s.isRole
  let s := s.mapPair (fun x => { x with pstate := p, since := s.now, edgeIn := false })
  let s := if s.isRole = was then s else s.mapPair (fun x => { x with term := x.term + 1 })
  s.mapMbx (fun m => { m with role := s.isRole })

/-- The role protocol reports a twin: link up and ROLE_HB within 200,000 ticks (R385). -/
def State.seesTwin (s : State) : Bool :=
  s.linkUp && (match s.pair.twinHb with | some t => decide (s.now < t + 200000) | none => false)

/-- The twin is alive: an edge of PAIR_ALIVE_IN within 290,000 ticks (R385). -/
def State.twinAlive (s : State) : Bool :=
  match s.pair.lastEdge with | some t => decide (s.now < t + 290000) | none => false

/-! ## Epochs without the twin (R92, R382) -/

/-- Both copies are whole and differ, and the mismatch is not resolved. -/
def OpenEp.mismatch (e : OpenEp) : Bool :=
  e.twinWhole && e.twin.digestSent && !e.twin.acked && e.twin.resolved.isNone &&
    (match e.twin.digestTwin, e.digest with | some d, some o => d.2.2 ≠ o | _, _ => false)

/-- The epoch goes on without the twin; a mismatch that is pending stays unresolved. -/
def OpenEp.unpair (e : OpenEp) : OpenEp :=
  { e with paired := false, shadow := false, twin := { e.twin with unresolved := e.twin.unresolved || e.mismatch } }

/-- The twin is no member any more: the commander goes on alone and keeps the role; a role swap has lost its target. -/
def State.twinLeaves (s : State) : State :=
  if s.pair.pstate = 1#3 then
    let s := (s.updEps OpenEp.unpair).setPState 0#3
    let s := s.dropUntagged.mapPair (fun p => { p with twinOpen := [], swapAt := none })
    let s := (s.cmds.active.filter (fun a => a.opcode = 0x50)).foldl (fun t a => t.endCmd a { code := 0x40, epoch := t.effEpoch a }) s
    s.tly.openEps.foldl (fun a e => a.tryEpoch e.n) s
  else s

/-- The standby has lost its commander: a mismatch that is pending goes against it. -/
def State.commanderLost (s : State) : State :=
  (s.updEps (fun e =>
    if e.mismatch then { e with withhold := e.withhold ||| whDigest, twin := { e.twin with unresolved := true } } else e)).setPState 5#3

/-! ## Joining and leaving (R390, R391) -/

/-- The twin commands. -/
def State.twinCommands (s : State) : Bool := s.seesTwin && (s.pair.twinState = 0#8 || s.pair.twinState = 1#8)

/-- Step 1 of a join: the ledger is discarded, filled windows stay (R99), and JOIN_REQ is sent. -/
def State.startJoin (s : State) : State :=
  let s := (s.mapTly (fun t => { t with recs := [], latest := 0#64, opened := 0#64 })).mapPair (fun p =>
    { p with joinSent := true, joinImage := [], joinHas := false, joinFirst := false, matchRun := 0, hideTly := true,
             expelled := none })
  (s.setPState 3#3).send (.joinReq s.tly.configGen)

/-- Start a join once the link is up and the twin commands; not in the coolant-loss state (R486) nor after a shutdown (R487), nor while the
Reeve main core, which sends JOIN_REQ, hangs. -/
def State.tryJoin (s : State) : State :=
  if (s.pair.pstate = 4#3 ∨ (s.pair.pstate = 3#3 ∧ !s.pair.joinSent)) ∧ s.mbx.ready ∧ !s.thm.coolLoss ∧ !s.thm.shutdown ∧ !s.flt.reeveHung ∧ s.twinCommands then s.startJoin
  else s

/-- Abandon and forget an open epoch that will not be decided. -/
def State.dropEpoch (s : State) (n : BitVec 64) : State :=
  let s := match s.gold? n with
    | some g => if g.state < 3 then (s.pullGold n g.engine).updGold n (fun g => { g with state := 4 }) else s
    | none => s
  (s.abandonEpoch n).forgetEpoch n

/-- Commands that the twin carried here go. -/
def State.dropRemote (s : State) : State :=
  s.mapCmds (fun x => { x with active := x.active.filter (fun a => !a.remote) })

/-- Leave the pair for a pair state. -/
def State.leaveTo (s : State) (p : BitVec 3) : State :=
  let s := s.dropRemote.dropCmds
  let s := s.tly.openEps.foldl (fun a e => a.dropEpoch e.n) s
  (s.mapPair (fun x =>
    { x with leaves := satInc x.leaves, joinSent := false, expelled := none, openHeld := [], earlyTwin := [], joinHas := false, joiner := false,
             joinRun := false, joinMark := none, joinPair := false, carried := [], cfgGot := 0, cfgBodies := [], twinOpen := [],
             swapAt := none })).dropUntagged.setPState p

/-- Leave the pair: JOINING when the link is up, OUT otherwise (R390). -/
def State.leavePair (s : State) : State := (s.leaveTo (if s.linkUp then 3#3 else 4#3)).tryJoin

/-- A joiner starts its join anew: what it has received and what the commander has carried to it goes. -/
def State.joinAgain (s : State) : State :=
  let s := s.tly.openEps.foldl (fun a e => a.dropEpoch e.n) s.dropRemote
  (s.mapPair (fun p => { p with joinSent := false, joinHas := false, joinFirst := false, cfgGot := 0, cfgBodies := [] })).tryJoin

/-- The commander resigns (R388): for cause 3 it stays in the pair as the standby. -/
def State.resign (s : State) (cause : Nat) (first : BitVec 64) : State :=
  let s := s.send (.resign (BitVec.ofNat 8 cause) first)
  if cause = 3 then (s.dropCmds.mapPair (fun x => { x with swapAt := none, openHeld := [], earlyTwin := [], rehNow := true })).setPState 2#3
  else s.leavePair

/-- A period schedule runs on from the latest epoch this module opened; ticks that have passed are not made up (R84, R377). -/
def State.resumeSched (s : State) : State :=
  match s.openTickOf s.tly.opened with
  | some t => s.mapTly (fun y => { y with sched := y.sched.map (fun (c : Sched) =>
      if c.mode = 1 then { c with start := t + (s.now - t) / max 1 c.period * c.period } else c) })
  | none => s

/-- Take the role (R387, R388, R92): open epochs are decided from own evidence, a period schedule runs on from the latest
open event. -/
def State.takeRole (s : State) (p : BitVec 3) : State :=
  let s := s.dropRemote
  let s := (s.updEps (fun e => { e.unpair with failover := true })).resumeSched
  let s := (s.dropUntagged.mapPair (fun x => { x with expelled := none, lastReh := s.now })).setPState p
  s.tly.openEps.foldl (fun a (e : OpenEp) => a.tryEpoch e.n) s

/-! ## Link faults (R373, R384, R387) -/

/-- What the link loses at a fault: frames, messages and credits in flight. -/
def DnpS.cleared (d : DnpS) (now : Nat) : DnpS :=
  { d with state := 0, changed := now, nak := false, crcRun := 0, unacked := [], replay := [], out := [], inp := [],
           credits := [], handed := [], acked := [], starved := [], msgs := [], faults := d.faults + 1 }

/-- The pair's reaction to the loss of the twin's messages. -/
def State.lostTwin (s : State) : State :=
  if s.pair.pstate = 1#3 then s.twinLeaves
  else if s.pair.pstate = 2#3 then s.commanderLost
  else if s.pair.pstate = 3#3 then
    ((s.tly.openEps.foldl (fun a e => a.dropEpoch e.n) s).mapPair (fun p => { p with joinSent := false, joinHas := false })).setPState 4#3
  else s

/-- A link fault is declared; its record's CLASS is stated nowhere, a free value. -/
def State.linkFault (s : State) : State :=
  let s := s.mapDnp (fun d => d.cleared s.time.dnp)
  let s := s.mapPair (fun p => { p with joiner := false, joinRun := false, joinMark := none, joinPair := false, cfgGot := 0,
                                         cfgBodies := [], earlyTwin := [], hbSent := false })
  let s := s.mapIng (fun i => { i with streams := i.streams.map (fun t => (t.1, { t.2 with fwdQ := [] })) })
  let f := s.freeWord
  (f.2.fault { sev := 2, kind := 0x0B, cls := f.1.toNat % 256 }).lostTwin

/-! ## After a decision (R383, Table 19-7) -/

/-- What the pair does once this module has written its record of an epoch. -/
def State.afterDecision (s : State) (e : OpenEp) (pub : Bool) : State :=
  if !e.paired then s
  else if s.pair.pstate = 2#3 then
    if (!pub && e.twinWhole) || s.pair.expelled = some e.n then s.leavePair else s
  else if s.pair.pstate = 1#3 then
    if pub then (if e.twin.acked then s else s.twinLeaves)
    else if e.twinWhole then s.resign 1 e.n
    else if e.withhold &&& whPairAck ≠ 0#32 then (s.send (.expel e.n)).twinLeaves
    else s
  else s

/-- The oldest epoch that is not decided. -/
def State.firstOpen (s : State) : BitVec 64 := match s.tly.openEps with
  | e :: _ => e.n
  | [] => BitVec.ofNat 64 (max s.tly.opened.toNat s.pair.twinOpened.toNat + 1)

/-- A commander whose CAN_CMD has cleared resigns to a standby that can command (R388). -/
def State.resignCheck (s : State) : State :=
  if s.pair.pstate = 1#3 ∧ !s.canCmd ∧ s.pair.twinState = 2#8 ∧ s.pair.twinCan ∧ s.seesTwin ∧ !s.hwa.fault ∧ !s.flt.safe then
    s.resign 2 s.firstOpen
  else s

/-! ## Settling -/

/-- What happens of itself once an epoch's state has changed: withheld epochs abandon their instances (R105), a golden
sheaf that the rest has overtaken is deferred, completion is stamped, and the oldest epoch is decided if it is
withheld (R87, R88). -/
def State.settleOnce (s : State) : State :=
  let s := s.tly.openEps.foldl (fun a e => if e.withhold ≠ 0#32 then a.abandonEpoch e.n else a) s
  let s := s.tly.openEps.foldl (fun a e =>
    match a.gold? e.n, a.openEp? e.n with
    | some g, some e => if g.state < 2 && a.restDone e then a.goldDefer e.n else a
    | _, _ => a) s
  let s := s.tly.openEps.foldl (fun a e =>
    match a.openEp? e.n with
    | some e => if e.doneTick.isNone && a.restDone e && a.goldDone e.n then
        a.updEp e.n (fun x => { x with doneTick := some a.now }) else a
    | none => a) s
  match s.tly.openEps with
  | e :: _ =>
    if e.withhold = 0#32 then s
    else if s.decides then (s.decideEpoch e false false).afterDecision e false
    else if s.pair.pstate = 3#3 then (s.mapPair (fun p => { p with matchRun := 0 })).forgetEpoch e.n
    else s
  | [] => s

/-- Settle `n` times. -/
def settleN : Nat → State → State
  | 0, s => s
  | n + 1, s => settleN n s.settleOnce

/-- A role swap takes effect: every epoch below E has been opened and decided by both modules; ROLE_SWAP completes and the
commander resigns (R389). -/
def State.swapCheck (s : State) : State :=
  match s.pair.swapAt with
  | some e =>
    if s.pair.pstate = 1#3 ∧ s.tly.openEps = [] ∧ s.pair.twinOpen = [] ∧ e.toNat ≤ s.nextN.toNat then
      let s := (s.cmds.active.filter (fun a => a.opcode = 0x50)).foldl (fun t a => (t.noteApplied a).endCmd a { code := 0, epoch := e }) s
      s.resign 3 e
    else s
  | none => s

/-- Settle until nothing more is due; at most four epochs are open (R84). -/
def State.settle (s : State) : State := (settleN 6 s.resignCheck).swapCheck

end Sys2Proof.Machine
end

