-- ==== Sys2Proof/Machine/Flags.lean ====
section
/-! DEFINITION. Codes and flag words computed from what happened: DETAIL words, completion codes and fault records of
sheaves (Tables 5-8, 7-11, 9-7, 13-12). -/

namespace Sys2Proof.Machine

/-- A DETAIL word: CLASS and WHERE (Table 7-11). -/
def detailWord (cls wh : Nat) : BitVec 32 := BitVec.ofNat 32 (cls * 0x1000000 + wh * 0x10000)

/-- CODE of Table 5-8 for a DETAIL class: ADDRESS for 0x10 to 0x12, UNCORRECTED otherwise. -/
def codeOfClass (cls : Nat) : Nat := if cls = 0 then 0 else if 0x10 ≤ cls then 2 else 1

/-- A sheaf that ended well. -/
def resOk : SheafResult := { code := 0, detail := 0#32, addr := 0 }

/-- A sheaf that failed with a class, WHERE and address. -/
def resFail (cls wh addr : Nat) : SheafResult := { code := codeOfClass cls, detail := detailWord cls wh, addr := addr }

/-- An access that failed: its status, its address and the address field (WHERE) that named it. -/
abbrev RdErr := AccStatus × Nat × Nat

/-- The result of a sheaf whose access failed. -/
def resAccess (e : RdErr) : SheafResult :=
  let cls := accClass e.1
  resFail cls (if 0x10 ≤ cls then e.2.2 else 0) e.2.1

/-- CLASS of a DETAIL word. -/
def classOf (d : BitVec 32) : Nat := d.toNat / 0x1000000

/-- Report a failed sheaf on unit u: a fault record, and its epoch withheld unless its instance was abandoned
(R87, R105, R397, R398). -/
def State.sheafFault (s : State) (u : Nat) (sh : Sheaf) (r : SheafResult) (gx3 : Bool) : State :=
  s.fault { epoch := sh.index.epoch, sev := 1, kind := unitKind u, unit := unitIdx u, cls := classOf r.detail,
            ctx := if gx3 then none else some sh.index.ctx, fflags := if gx3 then 2 else 1, node := unitDie u,
            addr := if r.code = 2 then r.addr else 0, detail := r.detail }

end Sys2Proof.Machine
end

