-- ==== Sys2Proof/Machine/Operands.lean ====
section
/-! DEFINITION. Operands of the engines: channel-blocked tensors, packed weights, geometry records and padding,
parameter records, accumulation and the epilogue (R130 to R140, R154 to R159, R166 to R175). -/

namespace Sys2Proof.Machine

/-- Reading that may fail. -/
abbrev Rd (α : Type) := Except RdErr α

/-- `n` bytes at `a` named by address field `fld`. -/
def rdBytes (s : State) (w : Who) (fld a n : Nat) : Rd (List Byte) :=
  match s.load w a n with
  | .ok b => .ok b
  | .error e => .error (e.1, e.2, fld)

/-- The element code of `bits` bits that starts `bit` bits after address `a` (R130). -/
def rdBits (s : State) (w : Who) (fld a bit bits : Nat) : Rd Nat :=
  let lo := a + bit / 8
  let n := (bit % 8 + bits + 7) / 8
  (rdBytes s w fld lo n).map (fun b => leNat b / 2 ^ (bit % 8) % 2 ^ bits)

/-! ## Channel-blocked tensors (R154) -/

/-- A tensor: address field index, origin, pitch in bytes, channels per block, offset of the scale plane, format. -/
structure Tensor where
  field : Nat
  org   : Nat
  pitch : Nat
  cb    : Nat
  soff  : Nat
  fmt   : EFmt
  deriving DecidableEq, Repr

/-- RB: bytes of one row of a channel block. -/
def Tensor.rb (t : Tensor) : Nat := t.cb * efmtBits t.fmt / 8

/-- Address of row m of the block that holds channel c. -/
def Tensor.rowAddr (t : Tensor) (m c : Nat) : Nat := t.org + c / t.cb * t.pitch + m * t.rb

/-- Exact value of element (m, c), an MX element under its block scale. -/
def Tensor.elem (t : Tensor) (s : State) (w : Who) (m c : Nat) : Rd FVal := do
  let code ← rdBits s w t.field (t.rowAddr m c) (c % t.cb * efmtBits t.fmt) (efmtBits t.fmt)
  if efmtIsMx t.fmt then
    let x ← rdBytes s w t.field (t.org + c / t.cb * t.pitch + t.soff + m) 1
    pure (mxElemVal t.fmt (leNat x) code)
  else pure (elemVal t.fmt code)

/-! ## Packed weights (R155) -/

/-- Packed weights: origin, tile depth Kt, number of K tiles, format. -/
structure Packed where
  field : Nat
  org   : Nat
  kt    : Nat
  nkt   : Nat
  fmt   : EFmt
  deriving DecidableEq, Repr

/-- TB: bytes of one tile. -/
def tileBytes (kt : Nat) (f : EFmt) : Nat := kt * 32 * efmtBits f + (if efmtIsMx f then kt / 32 * 256 else 0)

def Packed.elem (p : Packed) (s : State) (w : Who) (k n : Nat) : Rd FVal := do
  let tile := p.org + (n / 256 * p.nkt + k / p.kt) * tileBytes p.kt p.fmt
  let g := k % p.kt / 32
  let b := efmtBits p.fmt
  let code ← rdBits s w p.field (tile + (g * 256 + n % 256) * 4 * b) (k % 32 * b) b
  if efmtIsMx p.fmt then
    let x ← rdBytes s w p.field (tile + p.kt * 32 * b + g * 256 + n % 256) 1
    pure (mxElemVal p.fmt (leNat x) code)
  else pure (elemVal p.fmt code)

/-! ## Pairings (Table 7-2) -/

/-- Accumulator and K depth of a pairing; none if it is not supported. -/
def pairing (a w : EFmt) : Option (AccKind × Nat) :=
  match a, w with
  | .int8, .int8 | .int8, .int4 | .int4, .int8 => some (.int, 128)
  | .int4, .int4 => some (.int, 256)
  | .e4m3, .e4m3 | .e4m3, .e5m2 | .e5m2, .e4m3 | .e5m2, .e5m2 => some (.fp32, 128)
  | .fp16, .fp16 | .bf16, .bf16 => some (.fp32, 64)
  | _, _ =>
    if efmtIsMx a && efmtIsMx w then
      some (.mx, if efmtBits a = 4 ∧ efmtBits w = 4 then 256 else 128)
    else none

/-- PS: bytes of a partial (Table 6-4). -/
def partialBytes : AccKind → Nat
  | .int => 8 | .fp32 => 4 | .mx => 80

def accOfPartial (k : AccKind) (b : List Byte) : Acc :=
  match k with
  | .int => .int (BitVec.ofNat 48 (leNat b))
  | .fp32 => .fp32 (BitVec.ofNat 32 (leNat b))
  | .mx => .mx (BitVec.ofNat 576 (leNat (b.take 72))) (fld b 72 1 % 2 = 1)

def partialOfAcc : Acc → List Byte
  | .int v => leBytes 8 (v.signExtend 64).toNat
  | .fp32 v => leBytes 4 v.toNat
  | .mx v nan => leBytes 72 v.toNat ++ [BitVec.ofNat 8 (bit01 nan)] ++ List.replicate 7 0#8

/-- The accumulator that holds no sum yet (R158). -/
def accZero : AccKind → Acc
  | .int => .int 0 | .fp32 => .fp32 0#32 | .mx => .mx 0 false

/-- The accumulator that holds BIAS (R158). -/
def accBias (k : AccKind) (bias : Nat) : Acc :=
  match k with
  | .int => .int (BitVec.ofInt 48 (intVal 32 bias))
  | .fp32 => .fp32 (BitVec.ofNat 32 bias)
  | .mx =>
    match f32Val (BitVec.ofNat 32 bias) with
    | .fin n m e => .mx (mxUnits (.fin n m e)) false
    | _ => .mx 0 true

/-- Add the products of two lists of exact values to an accumulator: exact for INT and MX (R133, R134), in the
canonical order for FP32 (R137, R138). -/
def accumulate (init : Acc) (a w : List FVal) : Acc :=
  match init with
  | .int v =>
    .int ((List.zip a w).foldl (fun acc p => acc + BitVec.ofInt 48 (fvFloor (fvMul p.1 p.2))) v)
  | .fp32 v =>
    let ps := (List.zip a w).map (fun p => toF32 (fvMul p.1 p.2))
    .fp32 (f32Reduce v ps.length (fun i => ps.getD i 0#32))
  | .mx v nan =>
    (List.zip a w).foldl (fun acc p =>
      match acc with
      | .mx x f =>
        match fvMul p.1 p.2 with
        | .fin n m e => .mx (x + mxUnits (.fin n m e)) f
        | _ => .mx x true
      | o => o) (.mx v nan)

/-! ## Geometry records (R166, R167, R169) -/

structure Geom where
  ih : Nat
  iw : Nat
  oh : Nat
  ow : Nat
  kh : Nat
  kw : Nat
  fkh : Nat
  fkw : Nat
  ky0 : Nat
  kx0 : Nat
  sy : Nat
  sx : Nat
  dy : Nat
  dx : Nat
  padT : Nat
  padB : Nat
  padL : Nat
  padR : Nat
  modeY : Nat
  modeX : Nat
  countPad : Bool
  pool : Nat
  padv : Nat
  cin : Nat
  p0 : Nat
  deriving DecidableEq, Repr

def geomOf (b : List Byte) : Geom :=
  let st := fld b 14 1
  let dl := fld b 15 1
  { ih := fld b 0 2, iw := fld b 2 2, oh := fld b 4 2, ow := fld b 6 2, kh := fld b 8 1, kw := fld b 9 1,
    fkh := fld b 10 1, fkw := fld b 11 1, ky0 := fld b 12 1, kx0 := fld b 13 1, sy := bitsAt st 4 3 + 1,
    sx := bitsAt st 0 3 + 1, dy := bitsAt dl 4 3 + 1, dx := bitsAt dl 0 3 + 1, padT := fld b 16 1, padB := fld b 17 1,
    padL := fld b 18 1, padR := fld b 19 1, modeY := bitsAt (fld b 20 1) 2 2, modeX := bitsAt (fld b 20 1) 0 2,
    countPad := fld b 21 1 % 2 = 1, pool := fld b 21 1, padv := fld b 22 2, cin := fld b 24 2, p0 := fld b 28 4 }

/-- What a geometry record serves. -/
inductive GeomUse where
  | conv | pool | resample
  deriving DecidableEq, Repr

/-- First failing field of a geometry record, as its byte offset; none when it is valid (R167). `m` is the pixel
count of the sheaf and `mx` whether the activation format is block-scaled. -/
def geomCheck (g : Geom) (use : GeomUse) (m : Nat) (mx : Bool) : Option Nat :=
  let kMax := match use with | .conv => 11 | .pool => 16 | .resample => 0
  let kMin := match use with | .resample => 0 | _ => 1
  let inK := fun v => decide (kMin ≤ v) && decide (v ≤ kMax)
  let dimOk := fun (i p q d f st o : Nat) =>
    decide (d * (f - 1) + 1 ≤ i + p + q) && decide (o ≤ (i + p + q - d * (f - 1) - 1) / st + 1)
  let res := use == .resample
  let tests : List (Bool × Nat) :=
    [(decide (1 ≤ g.ih) && decide (g.ih ≤ 16384), 0), (decide (1 ≤ g.iw) && decide (g.iw ≤ 16384), 2),
     (decide (1 ≤ g.oh), 4), (decide (1 ≤ g.ow), 6), (inK g.kh, 8), (inK g.kw, 9),
     (res && g.fkh == 0 || !res && decide (1 ≤ g.fkh) && decide (g.fkh ≤ 63), 10),
     (res && g.fkw == 0 || !res && decide (1 ≤ g.fkw) && decide (g.fkw ≤ 63), 11),
     (decide (g.ky0 + g.kh ≤ g.fkh), 12), (decide (g.kx0 + g.kw ≤ g.fkw), 13),
     (!res || g.sy == 1 && g.sx == 1, 14), (!res || g.dy == 1 && g.dx == 1, 15),
     (decide (g.padT ≤ if res then 0 else 63), 16), (decide (g.padB ≤ if res then 0 else 63), 17), (decide (g.padL ≤ if res then 0 else 63), 18), (decide (g.padR ≤ if res then 0 else 63), 19),
     (!res || decide (g.oh ≤ 16 * g.ih) && decide (g.ih ≤ 16 * g.oh), 4),
     (!res || decide (g.ow ≤ 16 * g.iw) && decide (g.iw ≤ 16 * g.ow), 6),
     (res || dimOk g.ih g.padT g.padB g.dy g.fkh g.sy g.oh, 4), (res || dimOk g.iw g.padL g.padR g.dx g.fkw g.sx g.ow, 6),
     (decide (g.modeY ≠ 2) || decide (g.padT + 1 ≤ g.ih), 16), (decide (g.modeY ≠ 2) || decide (g.padB + 1 ≤ g.ih), 17),
     (decide (g.modeX ≠ 2) || decide (g.padL + 1 ≤ g.iw), 18), (decide (g.modeX ≠ 2) || decide (g.padR + 1 ≤ g.iw), 19),
     (!(mx && (g.modeY == 1 || g.modeX == 1)), 20), (use == .pool || g.pool == 0, 21),
     (decide (1 ≤ g.cin) && decide (g.cin ≤ 4096), 24), (decide (g.p0 + m ≤ g.oh * g.ow), 28)]
  (tests.find? (fun t => !t.1)).map (·.2)

/-- Where one axis of a tap falls: inside at a coordinate, or padded with zero or the constant (R169). -/
inductive AxisPos where
  | at (i : Nat)
  | zero
  | const
  deriving DecidableEq, Repr

def axisPos (i : Int) (n mode : Nat) : AxisPos :=
  if 0 ≤ i ∧ i < n then .at i.toNat
  else match mode with
    | 0 => .zero
    | 1 => .const
    | 2 => .at (if i < 0 then (-i).toNat else (2 * ((n : Int) - 1) - i).toNat)
    | _ => .at (if i < 0 then 0 else n - 1)

/-- The input pixel of a tap, or the padding that stands for it; `outside` tells whether it lies in the padding. -/
structure TapPos where
  pix : AxisPos        -- `at` the flattened pixel
  outside : Bool
  deriving DecidableEq, Repr

def tapPos (g : Geom) (p ky kx : Nat) : TapPos :=
  let iy : Int := (p / g.ow * g.sy + ky * g.dy : Nat) - (g.padT : Int)
  let ix : Int := (p % g.ow * g.sx + kx * g.dx : Nat) - (g.padL : Int)
  let out := decide (iy < 0 ∨ (g.ih : Int) ≤ iy ∨ ix < 0 ∨ (g.iw : Int) ≤ ix)
  { outside := out,
    pix := match axisPos iy g.ih g.modeY with
      | .at y => (match axisPos ix g.iw g.modeX with | .at x => .at (y * g.iw + x) | o => o)
      | o => o }

/-- The constant padding value in the activation format. -/
def padVal (f : EFmt) (g : Geom) : FVal := elemVal f (g.padv % 2 ^ efmtBits f)

/-- The activation of a tap (R169). -/
def tapElem (t : Tensor) (s : State) (w : Who) (g : Geom) (p ky kx c : Nat) : Rd FVal :=
  match (tapPos g p ky kx).pix with
  | .at i => t.elem s w i c
  | .zero => pure (.fin false 0 0)
  | .const => pure (padVal t.fmt g)

/-- Tap row and column of the full kernel for reduction index k (R168). -/
def tapOf (g : Geom) (cpt k : Nat) : Nat × Nat × Nat :=
  let t := k / cpt
  (g.ky0 + t / g.kw, g.kx0 + t % g.kw, k % cpt)

/-! ## Parameter records and the epilogue (R159) -/

/-- A parameter record (Table 7-6). -/
structure Param where
  bias : Nat
  scale : Nat
  shift : Nat
  lo : Nat
  hi : Nat
  deriving DecidableEq, Repr

def paramOf (b : List Byte) : Param :=
  { bias := fld b 0 4, scale := fld b 4 4, shift := fld b 8 1 % 64, lo := fld b 10 2, hi := fld b 12 2 }

/-- PARAM_EN = 0: bias 0, scale 1, shift 0 (Table 7-4). -/
def paramNone (k : AccKind) : Param :=
  { bias := 0, scale := match k with | .int => 1 | _ => 0x3F800000, shift := 0, lo := 0, hi := 0 }

/-- Step 1: the scaled accumulator value. -/
def scaleAcc (a : Acc) (p : Param) : FVal :=
  match a with
  | .int v => fvScale (-(p.shift : Int)) (fvMul (fvOfInt v.toInt) (fvOfInt (intVal 32 p.scale)))
  | .fp32 v => f32Val (f32Mul v (BitVec.ofNat 32 p.scale))
  | .mx v nan => fvMul (accVal (.mx v nan)) (f32Val (BitVec.ofNat 32 p.scale))

/-- Step 2: the residual. -/
def addResidual (k : AccKind) (v r : FVal) : FVal :=
  match k with
  | .fp32 => f32Val (f32Add (toF32 v) (toF32 r))
  | _ => fvAdd v r

/-- Step 3: the activation; `act` 0 none, 1 ReLU, 2 clamp to codes of the output format. -/
def activate (act : Nat) (f : EFmt) (p : Param) (v : FVal) : FVal :=
  match act with
  | 1 =>
    match fvCmp v (.fin false 0 0) with
    | some .gt => v
    | none => v
    | _ => .fin false 0 0
  | 2 =>
    let lo := elemVal f (p.lo % 2 ^ efmtBits f)
    let hi := elemVal f (p.hi % 2 ^ efmtBits f)
    if fvCmp v lo = some .lt then lo else if fvCmp v hi = some .gt then hi else v
  | _ => v

/-- Steps 1 to 3 of the epilogue. -/
def epilogue (k : AccKind) (act : Nat) (f : EFmt) (p : Param) (res : Option FVal) (a : Acc) : FVal :=
  let v := scaleAcc a p
  activate act f p (match res with | some r => addResidual k v r | none => v)

/-- Element codes packed low index first (R130). -/
def packCodes (bits : Nat) (l : List Nat) : List Byte :=
  leBytes ((l.length * bits + 7) / 8) ((l.zipIdx.map (fun p => p.1 * 2 ^ (p.2 * bits))).foldl (· + ·) 0)

/-- Conversion of one row of output values (step 4) and where its bytes go: for each channel block the row bytes, and
for a block-scaled format the scale byte. `e0` is the element index of channel 0. -/
def rowWrites (o : Tensor) (rnd : Nat) (sat : Bool) (si : SheafIndex) (q m e0 : Nat) (vals : List FVal) :
    List (Nat × List Byte) :=
  (List.range ((vals.length + o.cb - 1) / o.cb)).flatMap (fun b =>
    let vs := (vals.drop (b * o.cb)).take o.cb
    let base := e0 + b * o.cb
    if efmtIsMx o.fmt then
      let full := vs ++ List.replicate (o.cb - vs.length) (.fin false 0 0)
      let r := convMxBlock o.fmt (fun i => rndBits rnd si q (base + i)) full
      [(o.rowAddr m (b * o.cb), packCodes (efmtBits o.fmt) r.2),
       (o.org + b * o.pitch + o.soff + m, [BitVec.ofNat 8 r.1])]
    else
      [(o.rowAddr m (b * o.cb),
        packCodes (efmtBits o.fmt) (vs.zipIdx.map (fun v => convElem o.fmt (rndBits rnd si q (base + v.2)) sat v.1)))])

/-- Perform writes in order, stopping at the first that fails. -/
def doWrites (w : Who) (field : Nat) : List (Nat × List Byte) → State → Rd State
  | [], s => .ok s
  | x :: r, s =>
    match s.store w x.1 x.2 with
    | (.ok _, t) => doWrites w field r t
    | (.error e, _) => .error (e.1, e.2, field)

/-- Two ranges [a, a+n) and [b, b+m) share no byte. -/
def disjoint (a n b m : Nat) : Bool := n == 0 || m == 0 || decide (a + n ≤ b) || decide (b + m ≤ a)

/-- The first failing test, as its field. -/
def firstFail (l : List (Bool × Nat)) : Option Nat := (l.find? (fun t => !t.1)).map (·.2)

end Sys2Proof.Machine
end

