-- ==== Sys2Proof/Machine/Thresher.lean ====
section
/-! DEFINITION. Thresher sheaves: the descriptor and its checks, GEMM, IGEMM and GEMM with W in activation layout
(R151 to R165, R168 to R171, R510). -/

namespace Sys2Proof.Machine

/-- A Thresher descriptor as read (Tables 7-3 and 7-4); address fields still without REL. -/
structure TDesc where
  op : Nat
  fa : Nat
  fw : Nat
  fr : Nat
  fo : Nat
  act : Nat
  partOut : Bool
  partIn : Bool
  c32 : Bool
  sat : Bool
  rnd : Nat
  resEn : Bool
  paramEn : Bool
  q : Nat
  rel : Nat
  m : Nat
  n : Nat
  k : Nat
  refBeats : Nat
  addrs : List Nat      -- A, W, O, PARAM, AUX, PART, GEOM
  aPitch : Nat
  oPitch : Nat
  aSoff : Nat
  oSoff : Nat
  wPitch : Nat
  deriving DecidableEq, Repr

def tdescOf (d : List Byte) : TDesc :=
  let c := fld d 3 1
  let e := fld d 4 1
  { op := fld d 0 1, fa := bitsAt (fld d 1 1) 0 4, fw := bitsAt (fld d 1 1) 4 4, fr := bitsAt (fld d 2 1) 4 4,
    fo := bitsAt (fld d 2 1) 0 4, act := bitsAt c 6 2, partOut := bitsAt c 5 1 = 1, partIn := bitsAt c 4 1 = 1,
    c32 := bitsAt c 3 1 = 1, sat := bitsAt c 2 1 = 1, rnd := bitsAt c 0 2, resEn := bitsAt e 5 1 = 1,
    paramEn := bitsAt e 4 1 = 1, q := bitsAt e 0 4, rel := fld d 5 1, m := fld d 6 2, n := fld d 8 2, k := fld d 10 3,
    refBeats := fld d 14 2,
    addrs := [fld d 16 5, fld d 21 5, fld d 26 5, fld d 31 5, fld d 36 5, fld d 41 5, fld d 58 5],
    aPitch := fld d 46 3 * 64, oPitch := fld d 49 3 * 64, aSoff := fld d 52 3 * 64, oSoff := fld d 55 3 * 64,
    wPitch := fld d 58 3 * 64 }

/-- An address field with the context's base added where REL says so. -/
def TDesc.addr (d : TDesc) (base i : Nat) : Nat :=
  let a := d.addrs.getD i 0
  (if bitsAt d.rel i 1 = 1 then a + base else a) % 2 ^ 40

def TDesc.cb (d : TDesc) : Nat := if d.c32 then 32 else 16

/-- The formats of a descriptor that passes its format checks. -/
structure TFmt where
  a : EFmt
  w : EFmt
  o : EFmt
  r : EFmt
  acc : AccKind
  kt : Nat
  deriving DecidableEq, Repr

/-- Formats, or the failing field. -/
def TDesc.fmts (d : TDesc) : Except Nat TFmt :=
  match efmtOfSheaf d.fa, efmtOfSheaf d.fw with
  | some a, some w =>
    match pairing a w with
    | none => .error 1
    | some (acc, kt) =>
      if d.op = 3 ∧ efmtIsMx w then .error 1
      else match efmtOfSheaf d.fo with
        | none => .error 2
        | some o =>
          if d.resEn then
            match efmtOfSheaf d.fr with
            | some r => if efmtIsMx r || r == .int4 then .error 2 else .ok ⟨a, w, o, r, acc, kt⟩
            | none => .error 2
          else .ok ⟨a, w, o, .int8, acc, kt⟩
  | _, _ => .error 1

/-- The addresses a descriptor uses (Table 7-12): for each address field, whether it is used, and its bounding range. -/
def TDesc.ranges (d : TDesc) (f : TFmt) (base : Nat) (g : Option Geom) : List (Bool × Nat × Nat) :=
  let cb := d.cb
  let blocks := fun c => (c + cb - 1) / cb
  let ps := partialBytes f.acc
  let aLen := match g with | some g => blocks g.cin * d.aPitch | none => blocks d.k * d.aPitch
  let wLen := if d.op = 3 then blocks d.k * d.wPitch
    else (d.n + 255) / 256 * ((d.k + f.kt - 1) / f.kt) * tileBytes f.kt f.w
  [(true, d.addr base 0, aLen), (true, d.addr base 1, wLen),
   (true, d.addr base 2, if d.partOut then d.m * d.n * ps else blocks d.n * d.oPitch),
   (d.paramEn, d.addr base 3, 16 * d.n), (d.resEn, d.addr base 4, blocks d.n * d.oPitch),
   (d.partIn, d.addr base 5, d.m * d.n * ps), (d.op = 2, d.addr base 6, 32)]

/-- Bytes of one row of a channel block. -/
def TDesc.rb (d : TDesc) (f : EFmt) : Nat := d.cb * efmtBits f / 8

/-- The checks of Table 7-7 in its order; the byte offset of the first failing field. `geom` is the geometry record of
an OP 0x02 sheaf; without one, the checks that need it are left out. -/
def tdescCheck (d : TDesc) (base : Nat) (geom : Option Geom) : Option Nat :=
  if d.op ≠ 1 ∧ d.op ≠ 2 ∧ d.op ≠ 3 then some 0
  else match d.fmts with
    | .error e => some e
    | .ok f =>
      let mx := efmtIsMx f.a || efmtIsMx f.w || efmtIsMx f.o
      let aRows := match geom with | some g => g.ih * g.iw | none => d.m
      let used := fun i => ((d.ranges f base geom).getD i (false, 0, 0)).1
      let offs := [16, 21, 26, 31, 36, 41]
      let addrTests := (List.range 6).map (fun i =>
        ((if used i then decide (d.addrs.getD i 0 % 64 = 0) else decide (d.addrs.getD i 0 = 0)), offs.getD i 0))
      let oUsed := !d.partOut
      let noGeom := decide (d.op = 2) && geom.isNone
      firstFail (
        [(decide (d.rnd < 2) && decide (d.act ≠ 3) && (decide (d.act ≠ 2) || d.paramEn) && (!mx || d.c32) &&
            (!d.partOut || (!d.resEn && decide (d.act = 0))), 3),
         (decide (1 ≤ d.m) && decide (d.m ≤ if f.acc = .mx then 112 else 1024), 6),
         (decide (1 ≤ d.n) && decide (d.n ≤ 4096), 8), (decide (1 ≤ d.k) && decide (d.k ≤ 262144), 10),
         (decide (d.refBeats ≤ 30400), 14)] ++ addrTests ++
        [(noGeom || decide (aRows * d.rb f.a ≤ d.aPitch), 46),
         (noGeom || !efmtIsMx f.a || decide (aRows * d.rb f.a ≤ d.aSoff), 52),
         (noGeom || !efmtIsMx f.a || decide (d.aSoff + aRows ≤ d.aPitch), 46),
         (!oUsed || decide (d.m * d.rb f.o ≤ d.oPitch), 49),
         (!d.resEn || decide (d.m * d.rb f.r ≤ d.oPitch), 49),
         (!(oUsed && efmtIsMx f.o) || decide (d.m * d.rb f.o ≤ d.oSoff), 55),
         (!(oUsed && efmtIsMx f.o) || decide (d.oSoff + d.m ≤ d.oPitch), 49),
         (decide (d.op ≠ 3) || decide (d.n * d.rb f.w ≤ d.wPitch), 58),
         (decide (d.op ≠ 1) || decide (d.addrs.getD 6 0 = 0), 58),
         (decide (d.op ≠ 2) || decide (d.addrs.getD 6 0 % 64 = 0), 58),
         ((match geom with
           | some g => decide (d.op ≠ 2) || (geomCheck g .conv d.m (efmtIsMx f.a)).isNone
           | none => true), 58),
         ((match geom with
           | some g => decide (d.op ≠ 2) || decide (d.k = g.kh * g.kw * g.cin)
           | none => true), 10),
         ((let rs := d.ranges f base geom
           let o := rs.getD 2 (true, 0, 0)
           (if noGeom then [1, 3, 4, 5, 6] else [0, 1, 3, 4, 5, 6]).all (fun i =>
             let r := rs.getD i (false, 0, 0); !r.1 || disjoint o.2.1 o.2.2 r.2.1 r.2.2)), 26)])

/-- The activation row of row index m: K exact values. -/
def tActs (s : State) (w : Who) (d : TDesc) (f : TFmt) (base : Nat) (g : Option Geom) (m : Nat) : Rd (List FVal) :=
  let t : Tensor := ⟨0, d.addr base 0, d.aPitch, d.cb, d.aSoff, f.a⟩
  (List.range d.k).mapM (fun k =>
    match g with
    | none => t.elem s w m k
    | some g => let x := tapOf g g.cin k; tapElem t s w g (g.p0 + m) x.1 x.2.1 x.2.2)

/-- The weights of output channel n: K exact values. -/
def tWeights (s : State) (w : Who) (d : TDesc) (f : TFmt) (base n : Nat) : Rd (List FVal) :=
  if d.op = 3 then
    let t : Tensor := ⟨1, d.addr base 1, d.wPitch, d.cb, 0, f.w⟩
    (List.range d.k).mapM (fun k => t.elem s w n k)
  else
    let p : Packed := ⟨1, d.addr base 1, f.kt, (d.k + f.kt - 1) / f.kt, f.w⟩
    (List.range d.k).mapM (fun k => p.elem s w k n)

/-- The parameter record of output channel n, where one is read. -/
def rdParam (s : State) (w : Who) (en : Bool) (k : AccKind) (a n : Nat) : Rd Param :=
  if en then (rdBytes s w 3 (a + 16 * n) 16).map paramOf else pure (paramNone k)

/-- The init of an accumulator (R158). -/
def rdInit (s : State) (w : Who) (partIn : Bool) (k : AccKind) (paramEn : Bool) (p : Param) (a : Nat) : Rd Acc :=
  if partIn then (rdBytes s w 5 a (partialBytes k)).map (accOfPartial k)
  else pure (if paramEn then accBias k p.bias else accZero k)

/-- The accumulators of one row. -/
def tRow (s : State) (w : Who) (d : TDesc) (f : TFmt) (base : Nat) (g : Option Geom) (ws : List (List FVal))
    (ps : List Param) (m : Nat) : Rd (List Acc) := do
  let a ← tActs s w d f base g m
  (List.range d.n).mapM (fun n => do
    let init ← rdInit s w d.partIn f.acc d.paramEn (ps.getD n (paramNone f.acc))
      (d.addr base 5 + (m * d.n + n) * partialBytes f.acc)
    pure (accumulate init a (ws.getD n [])))

/-- The writes of one row: the partials, or the epilogue's output. -/
def tRowOut (s : State) (w : Who) (d : TDesc) (f : TFmt) (base : Nat) (si : SheafIndex) (ps : List Param) (m : Nat)
    (accs : List Acc) : Rd (List (Nat × List Byte)) :=
  if d.partOut then
    pure [(d.addr base 2 + m * d.n * partialBytes f.acc, accs.flatMap partialOfAcc)]
  else do
    let r : Tensor := ⟨4, d.addr base 4, d.oPitch, d.cb, 0, f.r⟩
    let vals ← accs.zipIdx.mapM (fun x => do
      let res ← (if d.resEn then (r.elem s w m x.2).map some else pure none)
      pure (epilogue f.acc d.act f.o (ps.getD x.2 (paramNone f.acc)) res x.1))
    let o : Tensor := ⟨2, d.addr base 2, d.oPitch, d.cb, d.oSoff, f.o⟩
    pure (rowWrites o d.rnd d.sat si d.q m (m * d.n) vals)

/-- The product of a valid descriptor: every read is of the state before the sheaf, since its output overlaps no
operand; rows are written in order. -/
def tProduct (s : State) (w : Who) (d : TDesc) (f : TFmt) (base : Nat) (g : Option Geom) (si : SheafIndex) : Rd State := do
  let needParam := d.paramEn && (!d.partOut || !d.partIn)
  let ps ← (List.range d.n).mapM (fun n => rdParam s w needParam f.acc (d.addr base 3) n)
  let ws ← (List.range d.n).mapM (fun n => tWeights s w d f base n)
  let rows ← (List.range d.m).mapM (fun m => do
    let a ← tRow s w d f base g ws ps m
    tRowOut s w d f base si ps m a)
  doWrites w 2 rows.flatten s

/-- Single-bit errors of the operand ranges are corrected and counted once (R164, R237). -/
def State.eccRanges (s : State) (l : List (Bool × Nat × Nat)) : State :=
  l.foldl (fun t r => if r.1 then t.eccRead r.2.1 r.2.2 else t) s

/-- A Thresher sheaf from its descriptor (R157 to R165). -/
def thrSheaf (s : State) (w : Who) (base : Nat) (si : SheafIndex) (desc : List Byte) : SheafResult × State :=
  let d := tdescOf desc
  let geom : Rd (Option Geom) :=
    if d.op = 2 ∧ d.addrs.getD 6 0 % 64 = 0 then (rdBytes s w 6 (d.addr base 6) 32).map (fun b => some (geomOf b))
    else .ok none
  match geom with
  | .error e => (match tdescCheck d base none with | some f => resFail 4 f 0 | none => resAccess e, s)
  | .ok g =>
    match tdescCheck d base g, d.fmts with
    | some f, _ => (resFail 4 f 0, s)
    | none, .error f => (resFail 4 f 0, s)
    | none, .ok f =>
      match tProduct s w d f base g si with
      | .ok t => (resOk, t.eccRanges ((d.ranges f base g).eraseIdx 2))
      | .error e => (resAccess e, s)

end Sys2Proof.Machine
end

