-- ==== Sys2Proof/Machine/CarderUnit.lean ====
section
/-! DEFINITION. Parts of a Carder: lanes, masks, local store, issue order, loops and transfers
(R184 to R194, Tables 9-1 to 9-4). -/

namespace Sys2Proof.Machine

/-! ## Registers as lanes -/

/-- The 1,024 lanes of a vector register. -/
def lanesOf (v : BitVec 32768) : List (BitVec 32) := (List.range 1024).map (fun i => v.extractLsb' (32 * i) 32)

def ofLanes (l : List (BitVec 32)) : BitVec 32768 :=
  BitVec.ofNat 32768 (l.foldr (fun x a => x.toNat + 4294967296 * a) 0)

/-- The lanes of a mask register. -/
def bitsOf (k : BitVec 1024) : List Bool := (List.range 1024).map k.getLsbD

def ofBits (l : List Bool) : BitVec 1024 := BitVec.ofNat 1024 (l.foldr (fun b a => bit01 b + 2 * a) 0)

def Carder.vreg (c : Carder) (r : Nat) : List (BitVec 32) := lanesOf (Tab.get 0 c.v r)

/-- A mask register; K0 reads all ones (Table 9-1). -/
def Carder.mask (c : Carder) (r : Nat) : List Bool :=
  if r = 0 then List.replicate 1024 true else bitsOf (Tab.get 0 c.k r)

def Carder.sreg (c : Carder) (r : Nat) : BitVec 64 := Tab.get 0 c.s r

def Carder.areg (c : Carder) (r : Nat) : Nat := (Tab.get 0 c.a r).toNat

/-- Write lanes under a mask: an inactive lane keeps its destination (R190). -/
def mergeLanes {α : Type} (mask : List Bool) (new old : List α) : List α :=
  (List.zip mask (List.zip new old)).map (fun p => if p.1 then p.2.1 else p.2.2)

def Carder.setV (c : Carder) (r km : Nat) (new : List (BitVec 32)) : Carder :=
  { c with v := Tab.set 0 c.v r (ofLanes (mergeLanes (c.mask km) new (c.vreg r))) }

/-- Write a mask register under a mask; K0 ignores writes (Table 9-1). -/
def Carder.setK (c : Carder) (r km : Nat) (new : List Bool) : Carder :=
  if r = 0 then c else { c with k := Tab.set 0 c.k r (ofBits (mergeLanes (c.mask km) new (c.mask r))) }

def Carder.setS (c : Carder) (r : Nat) (v : BitVec 64) : Carder := { c with s := Tab.set 0 c.s r v }

def Carder.setA (c : Carder) (r v : Nat) : Carder := { c with a := Tab.set 0 c.a r (BitVec.ofNat 14 v) }

/-! ## Local store -/

/-- Units in the local store. -/
def lsUnits : Nat := 16384

def Carder.lsRead (c : Carder) (unit n : Nat) : List Byte :=
  (List.range n).flatMap (fun i => leBytes 64 (Tab.get 0 c.ls (unit + i)).toNat)

def Carder.lsWrite (c : Carder) (unit : Nat) (b : List Byte) : Carder :=
  let put := fun (t : Tab (BitVec 512)) i => Tab.set 0 t (unit + i) (BitVec.ofNat 512 (leNat (sub b (64 * i) 64)))
  { c with ls := (List.range (b.length / 64)).foldl put c.ls }

/-- Two runs of units share a unit. -/
def unitsMeet (a n b m : Nat) : Bool := decide (a < b + m) && decide (b < a + n)

/-- Wait for every unfinished transfer that touches the units given (R193): it has then ended. -/
def Carder.await (c : Carder) (unit n : Nat) : Carder :=
  { c with xfers := c.xfers.filter (fun x => !unitsMeet unit n x.unit x.len) }

/-! ## Issue -/

/-- The next instruction after `pc`, with the loops that end there (R188, Table 9-4). -/
def loopNext (pc : Nat) : List (Nat × Nat × Nat) → Nat × List (Nat × Nat × Nat)
  | [] => (pc, [])
  | (f, l, r) :: t =>
    if pc = l + 1 then (if 1 < r then (f, (f, l, r - 1) :: t) else loopNext pc t) else (pc, (f, l, r) :: t)

def Carder.advance (c : Carder) : Carder :=
  let r := loopNext ((c.pc + 1) % 4096) c.loops
  { c with pc := r.1, loops := r.2 }

/-- The first error of a sheaf: CLASS, WHERE, INDEX (Table 9-7); the sheaf issues nothing more. -/
def Carder.fail (c : Carder) (cls wh index : Nat) : Carder :=
  if c.err = 0#32 then { c with err := BitVec.ofNat 32 (cls * 0x1000000 + wh * 0x10000 + index) } else c

/-- The first error of a sheaf, with the address of its access (Tables 5-8 and 9-7). -/
def Carder.failAt (c : Carder) (cls wh index addr : Nat) : Carder :=
  if c.err = 0#32 then { c.fail cls wh index with errAddr := BitVec.ofNat 40 addr } else c

/-- The Carder still issues: neither END nor an error has ended its sheaf. -/
def Carder.issues (c : Carder) : Bool := !c.ended && c.err == 0#32

/-- Issue an instruction that touches registers only; an invalid field is class 0x05. -/
def State.cIssue (s : State) (e : Nat) (ok : Carder → Bool) (f : Carder → Carder) : State :=
  s.updCarder e (fun c =>
    if !c.issues then c else if ok c then (f c).advance else c.fail 0x05 0 c.pc)

/-- The initiator a Carder acts as: its context, or the golden sheaf. -/
def State.carderWho (s : State) (e : Nat) : Who :=
  match (s.eng (16 + e)).running with
  | some r => if isGolden r.sheaf then whoGolden (e / 2) else whoEngine (e / 2) (s.carder e).ctx
  | none => whoEngine (e / 2) (s.carder e).ctx

/-- Address of an offset into a slot. -/
def Carder.slotAddr (c : Carder) (slot off : Nat) : Nat := ((c.slots.getD slot 0).toNat + off) % 2 ^ 40

/-- An access of the current instruction failed. -/
def State.cAccess (s : State) (e slot : Nat) (x : AccStatus × Nat) : State :=
  s.updCarder e (fun c => 
    c.failAt (accClass x.1) (if 0x10 ≤ accClass x.1 then slot else 0) (if 0x10 ≤ accClass x.1 then c.pc else 0) x.2)

/-! ## Control -/

def State.cNopI (s : State) (e : Nat) : State := s.cIssue e (fun _ => true) id

/-- END: the first error stands, every transfer has ended. -/
def State.cEndI (s : State) (e : Nat) : State :=
  s.updCarder e (fun c => if c.issues then { c with ended := true, xfers := [] } else c)

def State.cLoopI (s : State) (e count body : Nat) : State :=
  s.cIssue e (fun c => decide (1 ≤ count) && decide (1 ≤ body) && decide (c.loops.length < 4))
    (fun c => { c with loops := (c.pc + 1, c.pc + body, count) :: c.loops })

def State.cSetaI (s : State) (e ar v : Nat) : State := s.cIssue e (fun _ => true) (fun c => c.setA ar v)

def State.cSetsI (s : State) (e sd v : Nat) : State :=
  s.cIssue e (fun _ => true) (fun c => c.setS sd (BitVec.ofNat 64 (v * 64)))

def State.cSparI (s : State) (e sd index : Nat) : State :=
  let c := s.carder e
  if !c.issues then s
  else match s.load (s.carderWho e) (c.slotAddr 3 (8 * index)) 8 with
    | .ok b => (s.eccRead (c.slotAddr 3 (8 * index)) 8).updCarder e (fun c => (c.setS sd (BitVec.ofNat 64 (leNat b))).advance)
    | .error x => s.cAccess e 3 x

def State.cFenceI (s : State) (e : Nat) : State := s.cIssue e (fun _ => true) (fun c => { c with xfers := [] })

/-! ## Transfers, gather and scatter -/

/-- SLOT and LEN lie in Table 9-3 and the units lie in the local store. -/
def Carder.xferOk (c : Carder) (slot ar len : Nat) : Bool :=
  decide (slot ≤ 5) && decide (1 ≤ len) && decide (c.areg ar + len ≤ lsUnits)

def State.cXldI (s : State) (e slot ar ss len : Nat) : State :=
  let c := s.carder e
  if !c.issues then s
  else if !c.xferOk slot ar len then s.updCarder e (fun c => c.fail 0x05 0 c.pc)
  else match s.load (s.carderWho e) (c.slotAddr slot (c.sreg ss).toNat) (64 * len) with
    | .ok b => (s.eccRead (c.slotAddr slot (c.sreg ss).toNat) (64 * len)).updCarder e (fun c =>
        let c := (c.await (c.areg ar) len).lsWrite (c.areg ar) b
        (Carder.setS { c with xfers := c.xfers ++ [⟨true, c.areg ar, len⟩] } ss (c.sreg ss + BitVec.ofNat 64 (64 * len))).advance)
    | .error x => s.cAccess e slot x

def State.cXstI (s : State) (e slot ar ss len : Nat) : State :=
  let c := s.carder e
  if !c.issues then s
  else if !c.xferOk slot ar len then s.updCarder e (fun c => c.fail 0x05 0 c.pc)
  else match s.store (s.carderWho e) (c.slotAddr slot (c.sreg ss).toNat) (c.lsRead (c.areg ar) len) with
    | (.ok _, t) => t.updCarder e (fun c =>
        let c := c.await (c.areg ar) len
        (Carder.setS { c with xfers := c.xfers ++ [⟨false, c.areg ar, len⟩] } ss (c.sreg ss + BitVec.ofNat 64 (64 * len))).advance)
    | (.error x, t) => t.cAccess e slot x

/-- The active lanes of a gather or scatter in ascending order, with their addresses. -/
def Carder.laneAddrs (c : Carder) (va slot ss km : Nat) : List (Nat × Nat × Bool) :=
  let ls := c.vreg va
  (List.range 1024).filterMap (fun i =>
    if (c.mask km).getD i false then
      let off := (c.sreg ss).toNat + (ls.getD i 0).toNat
      some (i, c.slotAddr slot off, off % 4 = 0)
    else none)

/-- The gathered lanes, or the class and access that failed first. -/
def State.gatherLanes (s : State) (w : Who) : List (Nat × Nat × Bool) → Except (AccStatus × Nat) (List (Nat × BitVec 32))
  | [] => .ok []
  | (i, a, ok) :: r =>
    if !ok then .error (.alignment, a)
    else match s.load w a 4 with
      | .error x => .error x
      | .ok b => (s.gatherLanes w r).map (fun l => (i, BitVec.ofNat 32 (leNat b)) :: l)

/-- Class 0x13 for a misaligned offset, the access's class otherwise. -/
def State.cLaneFail (s : State) (e slot : Nat) (x : AccStatus × Nat) : State :=
  if x.1 = .alignment then s.updCarder e (fun c => c.failAt 0x13 slot c.pc x.2) else s.cAccess e slot x

def State.cGatherI (s : State) (e vd va slot ss km : Nat) : State :=
  let c := s.carder e
  if !c.issues then s
  else if 5 < slot then s.updCarder e (fun c => c.fail 0x05 0 c.pc)
  else match s.gatherLanes (s.carderWho e) (c.laneAddrs va slot ss km) with
    | .error x => s.cLaneFail e slot x
    | .ok l => ((c.laneAddrs va slot ss km).foldl (fun t x => t.eccRead x.2.1 4) s).updCarder e (fun c =>
        let old := c.vreg vd
        let new := l.foldl (fun t p => t.set p.1 p.2) old
        (c.setV vd 0 new).advance)

/-- Store the lanes in ascending order, stopping at the first failure. -/
def scatterLanes (w : Who) (src : List (BitVec 32)) :
    List (Nat × Nat × Bool) → State → Except (AccStatus × Nat) Unit × State
  | [], s => (.ok (), s)
  | (i, a, ok) :: r, s =>
    if !ok then (.error (.alignment, a), s)
    else match s.store w a (leBytes 4 (src.getD i 0).toNat) with
      | (.error x, t) => (.error x, t)
      | (.ok _, t) => scatterLanes w src r t

def State.cScatterI (s : State) (e vs va slot ss km : Nat) : State :=
  let c := s.carder e
  if !c.issues then s
  else if 5 < slot then s.updCarder e (fun c => c.fail 0x05 0 c.pc)
  else match scatterLanes (s.carderWho e) (c.vreg vs) (c.laneAddrs va slot ss km) s with
    | (.ok _, t) => t.updCarder e Carder.advance
    | (.error x, t) => t.cLaneFail e slot x

/-! ## Row loads and stores (R189, R192) -/

/-- Units of a row of 1,024 elements. -/
def rowUnits (f : EFmt) : Nat := 2 * efmtBits f + (if efmtIsMx f then 1 else 0)

/-- The element codes of a row. -/
def rowCodes (bits : Nat) (b : List Byte) : List Nat :=
  (List.range 1024).map (fun i => fld b (i * bits / 8) ((i * bits % 8 + bits + 7) / 8) / 2 ^ (i * bits % 8) % 2 ^ bits)

/-- One element widened to a lane: INT8 and INT4 to INT32, FP32 and INT32 as they stand, the rest to FP32. -/
def widen (f : EFmt) (scale code : Nat) : BitVec 32 :=
  match f with
  | .int8 => BitVec.ofInt 32 (intVal 8 code)
  | .int4 => BitVec.ofInt 32 (intVal 4 code)
  | .fp32 | .int32 => BitVec.ofNat 32 code
  | _ => if efmtIsMx f then toF32 (mxElemVal f scale code) else toF32 (elemVal f code)

def rowLanes (f : EFmt) (b : List Byte) : List (BitVec 32) :=
  (rowCodes (efmtBits f) b).zipIdx.map (fun p => widen f (fld b (128 * efmtBits f + p.2 / 32) 1) p.1)

/-- The row an LD or ST touches lies in the local store. -/
def Carder.rowOk (c : Carder) (f : EFmt) (ar off : Nat) : Bool := decide (c.areg ar + off + rowUnits f ≤ lsUnits)

/-- With INC, the address register advances by the row size. -/
def Carder.incA (c : Carder) (f : EFmt) (ar : Nat) (inc : Bool) : Carder :=
  if inc then c.setA ar (c.areg ar + rowUnits f) else c

def State.cLdI (s : State) (e vd fmt ar : Nat) (inc : Bool) (km off : Nat) : State :=
  match efmtOfCode fmt with
  | none => s.cIssue e (fun _ => false) id
  | some f =>
    s.cIssue e (fun c => c.rowOk f ar off) (fun c =>
      let c := c.await (c.areg ar + off) (rowUnits f)
      (c.setV vd km (rowLanes f (c.lsRead (c.areg ar + off) (rowUnits f)))).incA f ar inc)

/-- The value of a lane that ST converts: an INT32 lane for FMT INT32, else an FP32 lane. -/
def laneVal (f : EFmt) (x : BitVec 32) : FVal := if f = .int32 then fvOfInt x.toInt else f32Val x

/-- A stored row. `e0` is the element index of lane 0 (R192). -/
def storeRow (f : EFmt) (rnd : Nat) (sat : Bool) (si : SheafIndex) (q e0 : Nat) (l : List (BitVec 32)) : List Byte :=
  let vs := l.map (laneVal f)
  if efmtIsMx f then
    let blocks := (List.range 32).map (fun b =>
      convMxBlock f (fun i => rndBits rnd si q (e0 + 32 * b + i)) ((vs.drop (32 * b)).take 32))
    packCodes (efmtBits f) (blocks.flatMap (·.2)) ++ pad 64 (blocks.map (fun b => BitVec.ofNat 8 b.1))
  else packCodes (efmtBits f) (vs.zipIdx.map (fun p => convElem f (rndBits rnd si q (e0 + p.2)) sat p.1))

def State.cStI (s : State) (e vs fmt ar rnd : Nat) (sat : Bool) (q : Nat) (inc : Bool) (off : Nat) : State :=
  match efmtOfCode fmt with
  | none => s.cIssue e (fun _ => false) id
  | some f =>
    s.cIssue e (fun c => c.rowOk f ar off && decide (rnd < 2)) (fun c =>
      let c := c.await (c.areg ar + off) (rowUnits f)
      let j := Tab.get 0 c.stCnt q
      let c := c.lsWrite (c.areg ar + off) (storeRow f rnd sat c.index q (1024 * j) (c.vreg vs))
      Carder.incA { c with stCnt := Tab.set 0 c.stCnt q (j + 1) } f ar inc)

/-! ## Lane arithmetic (R190, R191) -/

/-- FN [7]: VB names a scalar register whose low 32 bits are broadcast. -/
def Carder.operandB (c : Carder) (vb fn : Nat) : List (BitVec 32) :=
  if bitsAt fn 7 1 = 1 then List.replicate 1024 ((c.sreg (vb % 16)).setWidth 32) else c.vreg vb

def valuFOp (op : Nat) (a b d : F32) : F32 :=
  match op with
  | 0 => f32Add a b
  | 1 => f32Sub a b
  | 2 => f32Mul a b
  | 3 => f32Fma a b d
  | 4 => f32Max a b
  | 5 => f32Min a b
  | 6 => f32Abs a
  | 7 => f32Neg a
  | _ => f32Canon a

/-- Apply an operation lane by lane. -/
def zip3 (f : BitVec 32 → BitVec 32 → BitVec 32 → BitVec 32) (a b d : List (BitVec 32)) : List (BitVec 32) :=
  (List.zip a (List.zip b d)).map (fun p => f p.1 p.2.1 p.2.2)

def State.cValuFI (s : State) (e vd va vb km fn : Nat) : State :=
  s.cIssue e (fun _ => decide (fn % 16 ≤ 8))
    (fun c => c.setV vd km (zip3 (valuFOp (fn % 16)) (c.vreg va) (c.operandB vb fn) (c.vreg vd)))

/-- VALU.I; `n` is the shift count that the VB field holds. -/
def valuIOp (op n : Nat) (a b : BitVec 32) : BitVec 32 :=
  match op with
  | 0 => a + b
  | 1 => a - b
  | 2 => a * b
  | 4 => if a.slt b then b else a
  | 5 => if b.slt a then b else a
  | 6 => a &&& b
  | 7 => a ||| b
  | 8 => a ^^^ b
  | 9 => a <<< n
  | 10 => a.sshiftRight n
  | _ => a >>> n

def State.cValuII (s : State) (e vd va vb km fn : Nat) : State :=
  s.cIssue e (fun _ => decide (fn % 16 ≤ 11) && decide (fn % 16 ≠ 3))
    (fun c => c.setV vd km (zip3 (fun a b _ => valuIOp (fn % 16) vb a b) (c.vreg va) (c.operandB vb fn) (c.vreg vd)))

/-- Comparison of FP32 lanes; a NaN operand makes only `ne` and `unordered` true. -/
def cmpF (op : Nat) (a b : F32) : Bool :=
  match op, fvCmp (f32Val a) (f32Val b) with
  | 0, o => o == some .eq
  | 1, o => o == some .lt
  | 2, o => o == some .lt || o == some .eq
  | 3, o => o == some .gt
  | 4, o => o == some .gt || o == some .eq
  | 5, o => o != some .eq
  | _, o => o.isNone

def cmpI (op : Nat) (a b : BitVec 32) : Bool :=
  match op with
  | 0 => a == b
  | 1 => a.slt b
  | 2 => a.sle b
  | 3 => b.slt a
  | 4 => b.sle a
  | _ => a != b

def State.cVcmpFI (s : State) (e vd va vb km fn : Nat) : State :=
  s.cIssue e (fun _ => decide (fn % 8 ≤ 6))
    (fun c => c.setK (vd % 8) km (List.zipWith (cmpF (fn % 8)) (c.vreg va) (c.vreg vb)))

def State.cVcmpII (s : State) (e vd va vb km fn : Nat) : State :=
  s.cIssue e (fun _ => decide (fn % 8 ≤ 5))
    (fun c => c.setK (vd % 8) km (List.zipWith (cmpI (fn % 8)) (c.vreg va) (c.vreg vb)))

def State.cVselI (s : State) (e vd va vb km : Nat) : State :=
  s.cIssue e (fun _ => true) (fun c => c.setV vd 0 (mergeLanes (c.mask km) (c.vreg va) (c.vreg vb)))

def kopOp (op : Nat) (a b : Bool) : Bool :=
  match op with | 0 => a && b | 1 => a || b | 2 => a != b | _ => !a

def State.cKopI (s : State) (e vd va vb km fn : Nat) : State :=
  s.cIssue e (fun _ => decide (fn ≤ 3))
    (fun c => c.setK (vd % 8) km (List.zipWith (kopOp fn) (c.mask (va % 8)) (c.mask (vb % 8))))

/-! ## Functions and reductions (R195 to R200) -/

def funcOp (c : Carder) (fn : Nat) (x : F32) : F32 :=
  if fn / 16 = 1 then (match c.curves[fn % 16]? with | some k => curveEval k x | none => x)
  else match fn % 16 with
    | 0 => f32Rcp x | 1 => f32Rsqrt x | 2 => f32Sqrt x | 3 => f32Exp2 x | _ => f32Exp x

def State.cVfuncI (s : State) (e vd va km fn : Nat) : State :=
  s.cIssue e (fun c => decide (fn / 16 = 0) && decide (fn % 16 ≤ 4) || decide (fn / 16 = 1) && decide (fn % 16 < c.curves.length))
    (fun c => c.setV vd km ((c.vreg va).map (funcOp c fn)))

/-- The 48-bit integer sum of a segment as the two words of its partial (R198, Table 6-4). -/
def sumI (init : BitVec 48) (l : List (BitVec 32)) : BitVec 64 :=
  (l.foldl (fun a x => a + x.signExtend 48) init).signExtend 64

/-- The new lanes of one segment under VRED: `a` its VA lanes, `m` its mask, `d` its VD lanes. -/
def vredSeg (op : Nat) (init : Bool) (a : List (BitVec 32)) (m : List Bool) (d : List (BitVec 32)) : List (BitVec 32) :=
  let n := a.length
  let act := (List.zip a m).filterMap (fun p => if p.2 then some p.1 else none)
  let d0 := d.headD 0
  let all := fun (v : BitVec 32) => List.replicate n v
  match op with
  | 0 =>
    let xs := (List.zip a m).map (fun p => if p.2 then p.1 else 0#32)
    all (f32Reduce (if init then d0 else 0#32) n (fun i => xs.getD i 0))
  | 1 => all (act.foldl f32Max (if init then d0 else f32Inf true))
  | 2 => all (act.foldl f32Min (if init then d0 else f32Inf false))
  | 4 =>
    let i0 : BitVec 64 := if init then (d.getD 1 0) ++ d0 else 0
    let r := sumI (i0.setWidth 48) act
    (r.setWidth 32) :: (r.extractLsb' 32 32) :: d.drop 2
  | 5 => all (act.foldl (valuIOp 4 0) (if init then d0 else 0x80000000#32))
  | _ => all (act.foldl (valuIOp 5 0) (if init then d0 else 0x7FFFFFFF#32))

def State.cVredI (s : State) (e vd va km fn : Nat) : State :=
  let op := bitsAt fn 5 3
  let segl := bitsAt fn 2 3
  let seg := 32 * 2 ^ segl
  s.cIssue e (fun _ => decide (op ≠ 3) && decide (op ≠ 7) && decide (segl ≤ 5)) (fun c =>
    let a := c.vreg va
    let m := c.mask km
    let d := c.vreg vd
    c.setV vd km ((List.range (1024 / seg)).flatMap (fun i =>
      vredSeg op (bitsAt fn 1 1 = 1) ((a.drop (i * seg)).take seg) ((m.drop (i * seg)).take seg) ((d.drop (i * seg)).take seg))))

def State.cVtsumI (s : State) (e vd vb km fn : Nat) : State :=
  let n := fn % 64
  let int := bitsAt fn 6 1 = 1
  s.cIssue e (fun c => decide (1 ≤ n) && decide (n ≤ 32) && decide (c.areg (vb % 8) + 64 * n ≤ lsUnits)) (fun c =>
    let u := c.areg (vb % 8)
    let c := c.await u (64 * n)
    let rows := (List.range 32).map (fun r =>
      if r < n then rowLanes .int32 (c.lsRead (u + 64 * r) 64) else List.replicate 1024 0#32)
    let sums := (List.range 1024).map (fun i =>
      let col := rows.map (fun r => r.getD i 0)
      if int then col.foldl (· + ·) 0 else tree32 f32Add 0#32 col)
    c.setV vd km (List.zipWith (fun d x => if int then d + x else f32Add d x) (c.vreg vd) sums))

def State.cVpermI (s : State) (e vd va vb km : Nat) : State :=
  s.cIssue e (fun _ => true) (fun c =>
    let a := c.vreg va
    c.setV vd km ((c.vreg vb).map (fun i => a.getD (i.toNat % 1024) 0)))

def State.cVcmpxI (s : State) (e vd va km fn : Nat) : State :=
  let ld := bitsAt fn 4 4
  let lss := bitsAt fn 0 4
  s.cIssue e (fun _ => decide (ld ≤ 9) && decide (1 ≤ lss) && decide (lss ≤ 10)) (fun c =>
    let a := c.vreg va
    c.setV vd km ((List.range 1024).map (fun i =>
      let lo := if i.testBit ld then i - 2 ^ ld else i
      let x := a.getD lo 0
      let y := a.getD (lo + 2 ^ ld) 0
      if i.testBit ld == lo.testBit lss then f32Min x y else f32Max x y)))

/-- TRANSFER_END: transfer `i` of the list, oldest first, has ended. -/
def State.cTransferEnd (s : State) (e i : Nat) : State := s.updCarder e (fun c => { c with xfers := c.xfers.eraseIdx i })

end Sys2Proof.Machine
end

