-- ==== Sys2Proof/Machine/CarderSheaf.lean ====
section
/-! DEFINITION. Carder sheaves: the descriptor, the depthwise path, the window unit, and programs
(R174, R175, R178 to R180, R187 to R190, R201). -/

namespace Sys2Proof.Machine

/-- A Carder descriptor (Table 9-2); the fields common with a Thresher's in `t`. -/
structure CDesc where
  t      : TDesc
  cpg    : Nat
  opg    : Nat
  len    : Nat        -- PROG_LEN
  prog   : Nat        -- PROG_ADDR, or bytes 52 to 56
  curves : Nat
  geom   : Nat        -- GEOM_ADDR
  deriving DecidableEq, Repr

def cdescOf (d : List Byte) : CDesc :=
  { t := tdescOf d, cpg := fld d 10 1, opg := fld d 11 1, len := fld d 12 2, prog := fld d 52 5,
    curves := fld d 57 1 % 32, geom := fld d 58 5 }

/-- An address of the PROG_ADDR and GEOM_ADDR fields, covered by REL bit 6. -/
def CDesc.addr6 (d : CDesc) (base a : Nat) : Nat := (if bitsAt d.t.rel 6 1 = 1 then a + base else a) % 2 ^ 40

/-- The six address slots. -/
def CDesc.slotAddrs (d : CDesc) (base : Nat) : List (BitVec 40) :=
  (List.range 6).map (fun i => BitVec.ofNat 40 (d.t.addr base i))

/-! ## Depthwise path (R174, R175, R201) -/

/-- Activation and weight formats of the depthwise path: a pairing of Table 7-2 within Table 8-2. -/
def depthFmts (a w : EFmt) : Option AccKind :=
  let listed := fun f => f == EFmt.int8 || f == .e4m3 || f == .e5m2 || efmtIsMx f
  if listed a && listed w then (pairing a w).map (·.1) else none

/-- Formats of a depthwise descriptor, or its failing field. -/
def CDesc.depthFmt (d : CDesc) : Except Nat TFmt :=
  match efmtOfSheaf d.t.fa, efmtOfSheaf d.t.fw with
  | some a, some w =>
    match depthFmts a w with
    | none => .error 1
    | some acc =>
      match efmtOfSheaf d.t.fo with
      | none => .error 2
      | some o =>
        if d.t.resEn then
          match efmtOfSheaf d.t.fr with
          | some r => if efmtIsMx r || r == .int4 then .error 2 else .ok ⟨a, w, o, r, acc, 32⟩
          | none => .error 2
        else .ok ⟨a, w, o, .int8, acc, 32⟩
  | _, _ => .error 1

/-- Bytes of the weights of a depthwise sheaf: elements and, for MX, their scales. -/
def depthWBytes (d : CDesc) (f : TFmt) (taps : Nat) : Nat :=
  let blk := (d.t.n + 31) / 32 * taps * d.cpg
  blk * 32 * efmtBits f.w / 8 + (if efmtIsMx f.w then blk else 0)

/-- Used address fields of a depthwise descriptor with their bounding ranges (Table 7-12, R171). -/
def CDesc.depthRanges (d : CDesc) (f : TFmt) (base : Nat) (g : Geom) : List (Bool × Nat × Nat) :=
  let blocks := fun c => (c + d.t.cb - 1) / d.t.cb
  let ps := partialBytes f.acc
  [(true, d.t.addr base 0, blocks g.cin * d.t.aPitch), (true, d.t.addr base 1, depthWBytes d f (g.kh * g.kw)),
   (true, d.t.addr base 2, if d.t.partOut then d.t.m * d.t.n * ps else blocks d.t.n * d.t.oPitch),
   (d.t.paramEn, d.t.addr base 3, 16 * d.t.n), (d.t.resEn, d.t.addr base 4, blocks d.t.n * d.t.oPitch),
   (d.t.partIn, d.t.addr base 5, d.t.m * d.t.n * ps), (true, d.addr6 base d.geom, 32)]

/-- Checks of a DEPTHWISE descriptor (R188, Table 7-7) that need no geometry record. -/
def CDesc.depthCheck (d : CDesc) : Option Nat :=
  match d.depthFmt with
  | .error e => some e
  | .ok f =>
    let mx := efmtIsMx f.a || efmtIsMx f.w || efmtIsMx f.o
    let t := d.t
    let used := [true, true, true, t.paramEn, t.resEn, t.partIn]
    let offs := [16, 21, 26, 31, 36, 41]
    firstFail (
      [(decide (t.rnd < 2) && decide (t.act ≠ 3) && (decide (t.act ≠ 2) || t.paramEn) && (!mx || t.c32) &&
          (!t.partOut || (!t.resEn && decide (t.act = 0))), 3),
       (decide (1 ≤ t.m) && decide (t.m ≤ 1024), 6), (decide (1 ≤ t.n) && decide (t.n ≤ 4096), 8),
       (decide (1 ≤ d.cpg) && decide (d.cpg ≤ 8), 10), (decide (1 ≤ d.opg) && decide (d.opg ≤ 8), 11),
       (decide (t.n % d.opg = 0), 8), (decide (t.refBeats ≤ 30400), 14)] ++
      (List.range 6).map (fun i =>
        ((if used.getD i false then decide (t.addrs.getD i 0 % 64 = 0) else decide (t.addrs.getD i 0 = 0)), offs.getD i 0)) ++
      [(!(!t.partOut) || decide (t.m * t.rb f.o ≤ t.oPitch), 49), (!t.resEn || decide (t.m * t.rb f.r ≤ t.oPitch), 49),
       (!(!t.partOut && efmtIsMx f.o) || decide (t.m * t.rb f.o ≤ t.aSoff), 52),
       (!(!t.partOut && efmtIsMx f.o) || decide (t.aSoff + t.m ≤ t.oPitch), 49),
       (decide (d.geom % 64 = 0), 58)])

/-- The checks that need the geometry record. -/
def CDesc.depthGeomCheck (d : CDesc) (f : TFmt) (base : Nat) (g : Geom) : Option Nat :=
  let t := d.t
  let rows := g.ih * g.iw
  firstFail
    [(decide (rows * t.rb f.a ≤ t.aPitch), 46), (!efmtIsMx f.a || decide (rows * t.rb f.a ≤ t.aSoff), 52),
     (!efmtIsMx f.a || decide (t.aSoff + rows ≤ t.aPitch), 46), ((geomCheck g .conv t.m (efmtIsMx f.a)).isNone, 58),
     (decide (t.n / d.opg * d.cpg = g.cin), 58),
     ((let rs := d.depthRanges f base g
       let o := rs.getD 2 (true, 0, 0)
       [0, 1, 3, 4, 5, 6].all (fun i => let r := rs.getD i (false, 0, 0); !r.1 || disjoint o.2.1 o.2.2 r.2.1 r.2.2)), 26)]

/-- The weight of output channel n, tap t, group channel c (R201). -/
def depthWeight (s : State) (w : Who) (d : CDesc) (f : TFmt) (base taps n t c : Nat) : Rd FVal := do
  let blk := (n / 32 * taps + t) * d.cpg + c
  let b := efmtBits f.w
  let code ← rdBits s w 1 (d.t.addr base 1) ((blk * 32 + n % 32) * b) b
  if efmtIsMx f.w then
    let x ← rdBytes s w 1 (d.t.addr base 1 + (d.t.n + 31) / 32 * taps * d.cpg * 32 * b / 8 + blk) 1
    pure (mxElemVal f.w (leNat x) code)
  else pure (elemVal f.w code)

/-- One output channel of one pixel. -/
def depthOut (s : State) (w : Who) (d : CDesc) (f : TFmt) (base : Nat) (g : Geom) (ps : List Param) (m n : Nat) : Rd Acc := do
  let taps := g.kh * g.kw
  let t : Tensor := ⟨0, d.t.addr base 0, d.t.aPitch, d.t.cb, d.t.aSoff, f.a⟩
  let pairs ← (List.range (taps * d.cpg)).mapM (fun k => do
    let tp := k / d.cpg
    let c := k % d.cpg
    let a ← tapElem t s w g (g.p0 + m) (g.ky0 + tp / g.kw) (g.kx0 + tp % g.kw) (n / d.opg * d.cpg + c)
    let x ← depthWeight s w d f base taps n tp c
    pure (a, x))
  let init ← rdInit s w d.t.partIn f.acc d.t.paramEn (ps.getD n (paramNone f.acc))
    (d.t.addr base 5 + (m * d.t.n + n) * partialBytes f.acc)
  pure (accumulate init (pairs.map (·.1)) (pairs.map (·.2)))

/-- The depthwise product of a valid descriptor; e = p x N + n (R175). -/
def depthProduct (s : State) (w : Who) (d : CDesc) (f : TFmt) (base : Nat) (g : Geom) (si : SheafIndex) : Rd State := do
  let needParam := d.t.paramEn && (!d.t.partOut || !d.t.partIn)
  let ps ← (List.range d.t.n).mapM (fun n => rdParam s w needParam f.acc (d.t.addr base 3) n)
  let rows ← (List.range d.t.m).mapM (fun m => do
    let accs ← (List.range d.t.n).mapM (fun n => depthOut s w d f base g ps m n)
    if d.t.partOut then
      pure [(d.t.addr base 2 + m * d.t.n * partialBytes f.acc, accs.flatMap partialOfAcc)]
    else
      let r : Tensor := ⟨4, d.t.addr base 4, d.t.oPitch, d.t.cb, 0, f.r⟩
      let vals ← accs.zipIdx.mapM (fun x => do
        let res ← (if d.t.resEn then (r.elem s w m x.2).map some else pure none)
        pure (epilogue f.acc d.t.act f.o (ps.getD x.2 (paramNone f.acc)) res x.1))
      let o : Tensor := ⟨2, d.t.addr base 2, d.t.oPitch, d.t.cb, d.t.aSoff, f.o⟩
      pure (rowWrites o d.t.rnd d.t.sat si d.t.q m ((g.p0 + m) * d.t.n) vals))
  doWrites w 2 rows.flatten s

/-- A DEPTHWISE sheaf. -/
def depthSheaf (s : State) (w : Who) (base : Nat) (si : SheafIndex) (desc : List Byte) : SheafResult × State :=
  let d := cdescOf desc
  match d.depthCheck, d.depthFmt with
  | some f, _ => (resFail 4 f 0, s)
  | none, .error f => (resFail 4 f 0, s)
  | none, .ok f =>
    match rdBytes s w 6 (d.addr6 base d.geom) 32 with
    | .error e => (resAccess e, s)
    | .ok b =>
      let g := geomOf b
      match d.depthGeomCheck f base g with
      | some x => (resFail 4 x 0, s)
      | none =>
        match depthProduct s w d f base g si with
        | .ok t => (resOk, t.eccRanges ((d.depthRanges f base g).eraseIdx 2))
        | .error e => (resAccess e, s)

/-! ## Window unit (R178 to R180) -/

/-- The exact quotient of a finite value by a count, to 80 further bits and a sticky bit: enough for one rounding to
any format (R140, R143). -/
def fvDiv (v : FVal) (c : Nat) : FVal :=
  match v with
  | .fin n m e =>
    let x := m <<< 80
    .fin n (2 * (x / c) + (if x % c = 0 then 0 else 1)) (e - 81)
  | o => o

/-- Max pooling over the participants (R179). -/
def poolMax (l : List FVal) : FVal :=
  match l with
  | [] => .fin false 0 0
  | v :: r => r.foldl (fun a b =>
      match fvCmp a b with
      | none => .nan
      | some .lt => b
      | some .gt => a
      | some .eq => if fvIsZero a then (match a with | .fin true _ _ => b | _ => a) else a) v

/-- Average pooling over the participants (R179). -/
def poolAvg (f : EFmt) (count : Nat) (l : List FVal) : FVal :=
  if count = 0 then .fin false 0 0
  else if efmtIsMx f || efmtIsInt f then fvDiv (l.foldl fvAdd (.fin false 0 0)) count
  else
    let xs := l.map toF32
    f32Val (f32Mul (f32Reduce 0#32 xs.length (fun i => xs.getD i 0#32)) (toF32 (fvDiv (.fin false 1 0) count)))

/-- One pooled value: output pixel p, channel c. -/
def winPool (s : State) (w : Who) (t : Tensor) (g : Geom) (avg : Bool) (p c : Nat) : Rd FVal := do
  let vals ← (List.range (g.kh * g.kw)).mapM (fun k => do
    let ky := g.ky0 + k / g.kw
    let kx := g.kx0 + k % g.kw
    if (tapPos g p ky kx).outside && !g.countPad then pure none
    else (tapElem t s w g p ky kx c).map some)
  let l := vals.filterMap id
  pure (if avg then poolAvg t.fmt (if g.countPad then g.kh * g.kw else l.length) l else poolMax l)

/-- Nearest source index of one axis (R180). -/
def nearIdx (o n m : Nat) : Nat := min ((2 * o + 1) * n / (2 * m)) (n - 1)

/-- Lower index, upper index and 16-bit fraction of one axis (R180). -/
def biIdx (o n m : Nat) : Nat × Nat × Nat :=
  let num : Int := ((2 * o + 1) * n : Nat) - (m : Int)
  if num < 0 then (0, min 1 (n - 1), 0)
  else
    let q := num.toNat / (2 * m)
    (q, min (q + 1) (n - 1), num.toNat % (2 * m) * 65536 / (2 * m))

/-- Bilinear weighting of four values (R180). -/
def biMix (f : EFmt) (fx fy : Nat) (a00 a01 a10 a11 : FVal) : FVal :=
  if efmtIsMx f || efmtIsInt f then
    let wx := FVal.fin false fx (-16)
    let vx := FVal.fin false (65536 - fx) (-16)
    let wy := FVal.fin false fy (-16)
    let vy := FVal.fin false (65536 - fy) (-16)
    fvAdd (fvMul vy (fvAdd (fvMul vx a00) (fvMul wx a01))) (fvMul wy (fvAdd (fvMul vx a10) (fvMul wx a11)))
  else
    let x := toF32 (.fin false fx (-16))
    let x1 := toF32 (.fin false (65536 - fx) (-16))
    let y := toF32 (.fin false fy (-16))
    let y1 := toF32 (.fin false (65536 - fy) (-16))
    let top := f32Fma x (toF32 a01) (f32Mul x1 (toF32 a00))
    let bot := f32Fma x (toF32 a11) (f32Mul x1 (toF32 a10))
    f32Val (f32Fma y bot (f32Mul y1 top))

/-- One resampled value: output pixel p, channel c. -/
def winResample (s : State) (w : Who) (t : Tensor) (g : Geom) (bilinear : Bool) (p c : Nat) : Rd FVal := do
  let oy := p / g.ow
  let ox := p % g.ow
  if bilinear then
    let y := biIdx oy g.ih g.oh
    let x := biIdx ox g.iw g.ow
    let a00 ← t.elem s w (y.1 * g.iw + x.1) c
    let a01 ← t.elem s w (y.1 * g.iw + x.2.1) c
    let a10 ← t.elem s w (y.2.1 * g.iw + x.1) c
    let a11 ← t.elem s w (y.2.1 * g.iw + x.2.1) c
    pure (biMix t.fmt x.2.2 y.2.2 a00 a01 a10 a11)
  else t.elem s w (nearIdx oy g.ih g.oh * g.iw + nearIdx ox g.iw g.ow) c

/-- The use a WIN function makes of its geometry record. -/
def winUse (fn : Nat) : GeomUse := if fn ≤ 2 then .pool else .resample

/-- Formats of a WIN, or its failing field. -/
def CDesc.winFmt (d : CDesc) : Except Nat (EFmt × EFmt) :=
  match efmtOfSheaf d.t.fa, efmtOfSheaf d.t.fo with
  | none, _ => .error 1
  | _, none => .error 2
  | some a, some o =>
    if d.t.resEn then
      match efmtOfSheaf d.t.fr with
      | some r => if efmtIsMx r || r == .int4 then .error 2 else .ok (a, o)
      | none => .error 2
    else .ok (a, o)

/-- Scale-plane offsets of the map read and the map written. -/
def winSoff (rows rb : Nat) (out : Nat) : Nat := Config.winScale out rows rb

/-- Checks of the fields a WIN uses. -/
def CDesc.winCheck (d : CDesc) : Option Nat :=
  match d.winFmt with
  | .error e => some e
  | .ok f =>
    let t := d.t
    firstFail
      [(decide (t.rnd < 2) && decide (t.act ≠ 3) && (decide (t.act ≠ 2) || t.paramEn) && (!(efmtIsMx f.1 || efmtIsMx f.2) || t.c32) &&
          (!t.partOut || (!t.resEn && decide (t.act = 0))), 3), (decide (1 ≤ t.m) && decide (t.m ≤ 1024), 6),
       (decide (1 ≤ t.n) && decide (t.n ≤ 4096), 8), (decide (t.addrs.getD 0 0 % 64 = 0), 16),
       (decide (t.addrs.getD 2 0 % 64 = 0), 26), (decide (t.m * t.rb f.2 ≤ t.oPitch), 49), (decide (d.geom % 64 = 0), 58)]

/-- Channels that a WIN handles: pooling takes the CIN channels of the record (R178), resampling the N of the descriptor. -/
def CDesc.winChannels (d : CDesc) (fn : Nat) (g : Geom) : Nat := if fn ≤ 2 then g.cin else d.t.n

/-- Checks of a WIN with its geometry record. -/
def CDesc.winGeomCheck (d : CDesc) (f : EFmt × EFmt) (base fn : Nat) (g : Geom) : Option Nat :=
  let t := d.t
  let blocks := fun c => (c + t.cb - 1) / t.cb
  firstFail
    [(decide (g.ih * g.iw * t.rb f.1 ≤ t.aPitch), 46), ((geomCheck g (winUse fn) t.m (efmtIsMx f.1)).isNone, 58),
     (disjoint (t.addr base 2) (blocks (d.winChannels fn g) * t.oPitch) (t.addr base 0) (blocks g.cin * t.aPitch) &&
        disjoint (t.addr base 2) (blocks (d.winChannels fn g) * t.oPitch) (d.addr6 base d.geom) 32, 26)]

/-- The whole window operation of a valid descriptor. -/
def winProduct (s : State) (w : Who) (d : CDesc) (f : EFmt × EFmt) (base fn : Nat) (g : Geom) (si : SheafIndex) : Rd State := do
  let t := d.t
  let a : Tensor := ⟨0, t.addr base 0, t.aPitch, t.cb, winSoff (g.ih * g.iw) (t.rb f.1) 0, f.1⟩
  let o : Tensor := ⟨2, t.addr base 2, t.oPitch, t.cb, winSoff t.m (t.rb f.2) 1, f.2⟩
  let rows ← (List.range t.m).mapM (fun m => do
    let vals ← (List.range (d.winChannels fn g)).mapM (fun c =>
      if fn ≤ 2 then winPool s w a g (fn == 2) (g.p0 + m) c else winResample s w a g (fn == 4) (g.p0 + m) c)
    pure (rowWrites o t.rnd t.sat si t.q m ((g.p0 + m) * t.n) vals))
  doWrites w 2 rows.flatten s

/-- WIN on Carder e, with the descriptor of its running sheaf and the context's base. -/
def State.cWinI (s : State) (e base fn : Nat) : State :=
  let c := s.carder e
  let d := cdescOf c.desc
  let w := s.carderWho e
  if !c.issues then s
  else if fn % 8 < 1 ∨ 4 < fn % 8 then s.updCarder e (fun c => c.fail 0x05 0 c.pc)
  else match d.winCheck, d.winFmt with
    | some x, _ => s.updCarder e (fun c => c.fail 0x04 x 0)
    | none, .error x => s.updCarder e (fun c => c.fail 0x04 x 0)
    | none, .ok f =>
      match rdBytes s w 6 (d.addr6 base d.geom) 32 with
      | .error x => s.cAccess e 6 (x.1, x.2.1)
      | .ok b =>
        match d.winGeomCheck f base (fn % 8) (geomOf b) with
        | some x => s.updCarder e (fun c => c.fail 0x04 x 0)
        | none =>
          match winProduct s w d f base (fn % 8) (geomOf b) c.index with
          | .ok t => (t.eccRanges [(true, d.t.addr base 0, (d.winChannels (fn % 8) (geomOf b) + d.t.cb - 1) / d.t.cb * d.t.aPitch),
              (true, d.addr6 base d.geom, 32)]).updCarder e Carder.advance
          | .error x => s.cAccess e x.2.2 (x.1, x.2.1)

/-! ## Instruction words (R189, Tables 9-3 and 9-4) -/

/-- Field [lo+len-1:lo] of an instruction word. -/
def insF (w : BitVec 32) (lo len : Nat) : Nat := bitsAt w.toNat lo len

/-- Format codes of L and ST. -/
def fmtOk (c : Nat) : Bool := (efmtOfCode c).isSome

/-- Every opcode and field of a word lies in Tables 9-3 and 9-4; `curves` is N_CURVES. -/
def insOk (curves : Nat) (w : BitVec 32) : Bool :=
  let fn := insF w 0 8
  let slot := insF w 23 3
  match insF w 26 6 with
  | 0x00 | 0x01 | 0x03 | 0x04 | 0x05 | 0x06 | 0x1C | 0x38 => true
  | 0x02 => decide (1 ≤ insF w 10 16) && decide (1 ≤ insF w 0 10)
  | 0x08 | 0x09 => decide (slot ≤ 5) && decide (1 ≤ insF w 0 16) && decide (insF w 0 16 ≤ lsUnits)
  | 0x0A | 0x0B => decide (insF w 13 3 ≤ 5)
  | 0x10 => fmtOk (insF w 17 4)
  | 0x11 => fmtOk (insF w 17 4) && decide (insF w 12 2 < 2)
  | 0x18 => decide (fn % 16 ≤ 8)
  | 0x19 => decide (fn % 16 ≤ 11) && decide (fn % 16 ≠ 3)
  | 0x1A => decide (fn % 8 ≤ 6)
  | 0x1B => decide (fn % 8 ≤ 5)
  | 0x1D => decide (fn ≤ 3)
  | 0x20 => decide (fn / 16 = 0) && decide (fn % 16 ≤ 4) || decide (fn / 16 = 1) && decide (fn % 16 < curves)
  | 0x34 => decide (bitsAt fn 5 3 ≠ 3) && decide (bitsAt fn 5 3 ≠ 7) && decide (bitsAt fn 2 3 ≤ 5)
  | 0x35 => decide (1 ≤ fn % 64) && decide (fn % 64 ≤ 32)
  | 0x39 => decide (bitsAt fn 4 4 ≤ 9) && decide (1 ≤ bitsAt fn 0 4) && decide (bitsAt fn 0 4 ≤ 10)
  | 0x3C => decide (1 ≤ fn % 8) && decide (fn % 8 ≤ 4)
  | _ => false

/-- Loops of a program lie within it and nest properly to at most four levels: the index of the first LOOP that does
not. `open` holds the last index of each open loop, innermost first. -/
def loopsOk (len : Nat) : List (Nat × BitVec 32) → List Nat → Option Nat
  | [], _ => none
  | (i, w) :: r, opened =>
    let live := opened.filter (fun l => decide (i ≤ l))
    if insF w 26 6 = 2 then
      let last := i + insF w 0 10
      if last < len ∧ live.length < 4 ∧ live.all (fun l => decide (last ≤ l)) then loopsOk len r (last :: live)
      else some i
    else loopsOk len r live

/-- Index of the first invalid instruction of a program (R188). -/
def progBad (curves : Nat) (p : List (BitVec 32)) : Option Nat :=
  let ip := p.zipIdx.map (fun x => (x.2, x.1))
  match ip.find? (fun x => !insOk curves x.2), loopsOk p.length ip [] with
  | some a, some b => some (min a.1 b)
  | some a, none => some a.1
  | none, some b => some b
  | none, none => if (p.getLast?).map (fun w => insF w 26 6) = some 1 then none else some (p.length - 1)

/-- Issue the instruction of a word. -/
def State.cWord (s : State) (e base : Nat) (w : BitVec 32) : State :=
  let fn := insF w 0 8
  let vd := insF w 21 5
  let va := insF w 16 5
  let vb := insF w 11 5
  let km := insF w 8 3
  match insF w 26 6 with
  | 0x00 => s.cNopI e
  | 0x01 => s.cEndI e
  | 0x02 => s.cLoopI e (insF w 10 16) (insF w 0 10)
  | 0x03 => s.cSetaI e (insF w 23 3) (insF w 0 14)
  | 0x04 => s.cSetsI e (insF w 22 4) (insF w 0 22)
  | 0x05 => s.cSparI e (insF w 22 4) (insF w 0 12)
  | 0x06 => s.cFenceI e
  | 0x08 => s.cXldI e (insF w 23 3) (insF w 20 3) (insF w 16 4) (insF w 0 16)
  | 0x09 => s.cXstI e (insF w 23 3) (insF w 20 3) (insF w 16 4) (insF w 0 16)
  | 0x0A => s.cGatherI e vd va (insF w 13 3) (insF w 9 4) (insF w 0 3)
  | 0x0B => s.cScatterI e vd va (insF w 13 3) (insF w 9 4) (insF w 0 3)
  | 0x10 => s.cLdI e vd (insF w 17 4) (insF w 14 3) (decide (insF w 13 1 = 1)) (insF w 10 3) (insF w 0 10)
  | 0x11 => s.cStI e vd (insF w 17 4) (insF w 14 3) (insF w 12 2) (decide (insF w 11 1 = 1)) (insF w 7 4)
      (decide (insF w 6 1 = 1)) (insF w 0 6)
  | 0x18 => s.cValuFI e vd va vb km fn
  | 0x19 => s.cValuII e vd va vb km fn
  | 0x1A => s.cVcmpFI e vd va vb km fn
  | 0x1B => s.cVcmpII e vd va vb km fn
  | 0x1C => s.cVselI e vd va vb km
  | 0x1D => s.cKopI e vd va vb km fn
  | 0x20 => s.cVfuncI e vd va km fn
  | 0x34 => s.cVredI e vd va km fn
  | 0x35 => s.cVtsumI e vd vb km fn
  | 0x38 => s.cVpermI e vd va vb km
  | 0x39 => s.cVcmpxI e vd va km fn
  | 0x3C => s.cWinI e base fn
  | _ => s.updCarder e (fun c => c.fail 0x05 0 c.pc)

/-- Issue up to `n` instructions of the program, until END or an error. -/
def cRun (e base : Nat) : Nat → State → State
  | 0, s => s
  | n + 1, s =>
    let c := s.carder e
    if !c.issues then s
    else match c.prog[c.pc]? with
      | none => s
      | some w => cRun e base n (s.cWord e base w)

/-- More instructions than any valid program issues: 4,096 in loops of four levels. -/
def issueBound : Nat := 4096 * 65536 ^ 4

/-! ## Programs (R188) -/

/-- The curves of a program's image. -/
def curveOf (b : List Byte) : Curve :=
  let w := fun o => BitVec.ofNat 32 (fld b o 4)
  { xLo := w 0, xHi := w 4, invW := w 8, yBelow := w 12, yAbove := w 16, segLog2 := fld b 20 1,
    segs := (List.range 64).map (fun i => (w (64 + 16 * i), w (68 + 16 * i), w (72 + 16 * i), w (76 + 16 * i))) }

/-- Slots that a program's instructions name; a WIN reads slot 0 and writes slot 2. -/
def slotsUsed (p : List (BitVec 32)) : List Nat :=
  p.flatMap (fun w => match insF w 26 6 with
    | 0x05 => [3]
    | 0x08 | 0x09 => [insF w 23 3]
    | 0x0A | 0x0B => [insF w 13 3]
    | 0x3C => [0, 2]
    | _ => [])

/-- The functions of the WINs of a program. -/
def winsOf (p : List (BitVec 32)) : List Nat := (p.filter (fun w => insF w 26 6 = 0x3C)).map (fun w => insF w 0 3)

/-- Checks of a PROGRAM descriptor before its program is read. -/
def CDesc.progCheck (d : CDesc) : Option Nat :=
  firstFail [(decide (1 ≤ d.len) && decide (d.len ≤ 4096), 12), (decide (d.t.refBeats ≤ 30400), 14),
    (decide (d.prog % 64 = 0), 52), (decide (d.curves ≤ 16), 57)]

/-- Each slot a program uses is aligned, and each other one is 0; so is GEOM_ADDR without a WIN (Tables 7-7 and 9-2). -/
def CDesc.slotCheck (d : CDesc) (p : List (BitVec 32)) : Option Nat :=
  firstFail ((List.range 6).map (fun i =>
    ((if (slotsUsed p).contains i then decide (d.t.addrs.getD i 0 % 64 = 0) else d.t.addrs.getD i 0 == 0),
      [16, 21, 26, 31, 36, 41].getD i 0)) ++ [(winsOf p ≠ [] || d.geom == 0, 58)])

/-- Program and curves as loaded: words and curves, or how the read failed. -/
def loadProg (s : State) (w : Who) (d : CDesc) (base : Nat) : Rd (List (BitVec 32) × List Curve) := do
  let a := d.addr6 base d.prog
  let b ← rdBytes s w 6 a (4 * d.len)
  let ca := a + (4 * d.len + 63) / 64 * 64
  let cs ← (List.range d.curves).mapM (fun c => (rdBytes s w 6 (ca + 1088 * c) 1088).map curveOf)
  pure ((List.range d.len).map (fun i => BitVec.ofNat 32 (fld b (4 * i) 4)), cs)

/-- The failure the checks of a program and its descriptor find: class, WHERE, INDEX (R188, Table 9-7). -/
def progFault (d : CDesc) (p : List (BitVec 32)) (cs : List Curve) : Option (Nat × Nat × Nat) :=
  match d.slotCheck p, progBad d.curves p, cs.findIdx? (fun c => !curveOk c) with
  | some x, _, _ => some (4, x, 0)
  | none, some i, _ => some (5, 0, i)
  | none, none, some c => some (4, 57, c)
  | none, none, none =>
    if p.any (fun w => insF w 26 6 = 0x3C) then d.winCheck.map (fun x => (4, x, 0)) else none

/-- What a Carder reports when its program has stopped (Table 9-7). -/
def carderResult (err : BitVec 32) (addr : Nat) : SheafResult :=
  if err = 0#32 then resOk else { code := codeOfClass (classOf err), detail := err, addr := addr }

/-- How the WINs of a program fail with their geometry record, if they do: its read, or a check. -/
def winFault (s : State) (w : Who) (d : CDesc) (base : Nat) (p : List (BitVec 32)) : Option SheafResult :=
  if winsOf p = [] then none
  else match d.winFmt, rdBytes s w 6 (d.addr6 base d.geom) 32 with
    | .error x, _ => some (resFail 4 x 0)
    | .ok _, .error x => some (resAccess x)
    | .ok f, .ok b => ((winsOf p).findSome? (fun fn => d.winGeomCheck f base fn (geomOf b))).map (fun x => resFail 4 x 0)

/-- The start of a PROGRAM sheaf on Carder e: program and curves go into its stores, unless a check or a read fails
(R188). -/
def State.progLoad (s : State) (e base : Nat) : Option SheafResult × State :=
  let d := cdescOf (s.carder e).desc
  let w := s.carderWho e
  let bad := fun (x : Nat × Nat × Nat) => BitVec.ofNat 32 (x.1 * 0x1000000 + x.2.1 * 0x10000 + x.2.2)
  match d.progCheck with
  | some x => (some (resFail 4 x 0), s)
  | none =>
    match loadProg s w d base with
    | .error x => (some (resAccess x), s)
    | .ok (p, cs) =>
      match progFault d p cs, winFault s w d base p with
      | some x, _ => (some (carderResult (bad x) 0), s)
      | none, some r => (some r, s)
      | none, none =>
        let a := d.addr6 base d.prog
        (none, (s.eccRead a ((4 * d.len + 63) / 64 * 64 + 1088 * d.curves)).updCarder e (fun c =>
          { c with prog := p, curves := cs, pc := 0 }))

/-- A PROGRAM sheaf on Carder e, its stores loaded: it issues until END or an error. -/
def progSheaf (s : State) (e base : Nat) : SheafResult × State :=
  let t := cRun e base issueBound s
  (carderResult (t.carder e).err (t.carder e).errAddr.toNat, t)

end Sys2Proof.Machine
end

