-- ==== Sys2Proof/Machine/KvWalk.lean ====
section
/-! DEFINITION. Address translation for Gleaner streams: the KV walker with its look-aside buffer and generations, and
the general path (R216 to R223, R344). -/

namespace Sys2Proof.Machine

def State.kvCtx (s : State) (k c : Nat) : KvCtx := Tab.get KvCtx.init (s.kvwOf k).ctxs c

def State.updKvCtx (s : State) (k c : Nat) (f : KvCtx → KvCtx) : State :=
  s.updKvw k (fun d => { d with ctxs := Tab.upd KvCtx.init d.ctxs c f })

/-- OLDEST: the oldest generation of a walk in progress, GEN when there is none (Table 10-11). -/
def KvCtx.oldest (x : KvCtx) : BitVec 16 := match x.walks with | w :: _ => w.1 | [] => x.gen

/-- The pending root as an address. -/
def KvCtx.root (x : KvCtx) : BitVec 40 := x.rootHi ++ x.rootLo

/-- BUMP: ignored when GEN + 1 would equal OLDEST (R221). -/
def KvCtx.bump (x : KvCtx) : KvCtx :=
  if x.walks ≠ [] ∧ x.gen + 1 = x.oldest then x else { x with active := x.root, gen := x.gen + 1 }

/-- A walk starts: it latches the active root and generation (R221). -/
def KvCtx.startWalk (x : KvCtx) : KvCtx := { x with walks := x.walks ++ [(x.gen, x.active)] }

/-- A walk of generation g ends. -/
def KvCtx.endWalk (x : KvCtx) (g : BitVec 16) : KvCtx := { x with walks := x.walks.eraseP (fun w => decide (w.1 = g)) }

/-- A walk fault (R218): the code and the context are recorded. -/
def State.kvFault (s : State) (k c code : Nat) : State :=
  s.updKvw k (fun d => { d with fCode := BitVec.ofNat 8 code, fCtx := BitVec.ofNat 6 c })

/-! ## Look-aside buffer (R219) -/

/-- Entry of a page in the generation of its walk. -/
def KvwDie.labFind (d : KvwDie) (c seq page : Nat) (g : BitVec 16) : Option (Nat × LabEnt) :=
  d.lab.find? (fun e => e.2.ctx = c && e.2.seq = seq && e.2.page = page && e.2.gen = g)

/-- The generation of an entry is older than OLDEST of its context: neither OLDEST nor one up to GEN. -/
def KvwDie.stale (d : KvwDie) (e : LabEnt) : Bool :=
  let x := Tab.get KvCtx.init d.ctxs e.ctx
  decide ((x.gen - x.oldest).toNat < (e.gen - x.oldest).toNat)

/-- The entry a fill replaces: a free one, else one of a generation older than OLDEST, else the least recently used
eligible one. -/
def KvwDie.victim (d : KvwDie) (sc : Nat) : Nat :=
  let el := (List.range 64).filter (fun i => sc = 0 || decide (32 ≤ i))
  let stale := fun i => match Tab.look d.lab i with | some e => d.stale e | none => false
  match el.find? (fun i => (Tab.look d.lab i).isNone), el.find? stale with
  | some i, _ => i
  | none, some i => i
  | none, none =>
    let used : Nat → Nat := fun i => match Tab.look d.lab i with | some e => e.used | none => 0
    el.foldl (fun a i => if used i < used a then i else a) (el.headD 32)

/-- Reads of the walker: bytes of a table in Granary owned by the context, or code 0x05, or 0x06 for an uncorrected error. -/
def State.kvTable (s : State) (k c a n : Nat) : Except Nat (List Byte) :=
  match placeOf a with
  | .gran _ _ _ => match s.load (whoEngine k c) a n with | .ok b => .ok b | .error (.uncorrected, _) => .error 0x06 | .error _ => .error 0x05
  | _ => .error 0x05

/-- The walk of one KV page on a root: its frame and LOC, or a fault code (Tables 10-8 and 10-9). -/
def State.kvWalk (s : State) (k c root seq page : Nat) : Except Nat (Nat × Bool) :=
  if root % 16 ≠ 0 then .error 0x05
  else match s.kvTable k c (root + 16 * seq) 16 with
    | .error c => .error c
    | .ok e =>
      let w := fld e 0 8
      if bitsAt w 63 1 = 0 then .error 0x01
      else if fld e 8 4 ≤ page then .error 0x02
      else match s.kvTable k c (bitsAt w 3 37 * 8 + 8 * page) 8 with
        | .error c => .error c
        | .ok p =>
          let v := leNat p
          let frame := bitsAt v 14 26 * 16384
          let loc := bitsAt v 62 1 = 1
          let x := s.ctxOf c
          let inHbm := decide (frame < 4 * stackBytes) && decide (x.base ≤ frame) && decide (frame + 16384 ≤ x.base + x.len)
          let inGran := match placeOf frame with | .gran _ _ _ => true | _ => false
          if bitsAt v 63 1 = 0 then .error 0x03
          else if (if loc then inHbm else inGran) then .ok (frame, loc)
          else .error 0x04

/-- One lookup of a page in the look-aside buffer of die k (R219): its frame on a hit, which is counted and used. -/
def State.kvLookup (s : State) (k c : Nat) (g : BitVec 16) (seq page : Nat) : Option Nat × State :=
  match (s.kvwOf k).labFind c seq page g with
  | some (i, e) =>
    (some e.frame, s.updKvw k (fun d =>
      { d with hits := satInc d.hits, clock := d.clock + 1, lab := Tab.put d.lab i { e with used := d.clock + 1 } }))
  | none => (none, s.updKvw k (fun d => { d with misses := satInc d.misses }))

/-- The walk that a miss takes, on its generation's root: the frame, which fills an entry, or a fault (R218, R219). -/
def State.kvMiss (s : State) (k c : Nat) (g : BitVec 16) (root seq page : Nat) : Except Nat Nat × State :=
  match s.kvWalk k c root seq page with
  | .error f => (.error f, s.kvFault k c f)
  | .ok (frame, loc) =>
    (.ok frame, s.updKvw k (fun d =>
      let i := d.victim (s.ctxOf c).sc
      let e : LabEnt := { ctx := c, seq := seq, page := page, gen := g, frame := frame, loc := loc, used := d.clock + 1 }
      { d with clock := d.clock + 1, lab := Tab.put d.lab i e }))

/-! ## General path (R344) -/

/-- A leaf PTE's address for a virtual address at a level, or none: pages of 4 KiB, 64 KiB and 2 MiB only. -/
def sv48Leaf (pte va level : Nat) : Option Nat :=
  let ppn := bitsAt pte 10 44
  let readable := bitsAt pte 1 1 = 1 ∧ bitsAt pte 6 1 = 1
  if ¬ readable ∨ 2 ^ 28 ≤ ppn then none
  else if level = 0 then
    if bitsAt pte 63 1 = 1 then (if ppn % 16 = 8 then some (ppn / 16 * 65536 + va % 65536) else none)
    else some (ppn * 4096 + va % 4096)
  else if level = 1 then
    if bitsAt pte 63 1 = 0 ∧ ppn % 512 = 0 then some (ppn * 4096 + va % 2097152) else none
  else none

/-- The Sv48 walk from a table, with levels 3 to 0: the address, or an access error, or none for a translation fault. -/
def State.sv48 (s : State) (w : Who) (va : Nat) : Nat → Nat → Except (Option (AccStatus × Nat)) Nat
  | 0, _ => .error none
  | l + 1, table =>
    match s.load w (table + 8 * (va / 2 ^ (12 + 9 * l) % 512)) 8 with
    | .error e => .error (some e)
    | .ok b =>
      let pte := leNat b
      if bitsAt pte 0 1 = 0 ∨ (bitsAt pte 1 1 = 0 ∧ bitsAt pte 2 1 = 1) ∨ 2 ^ 28 ≤ bitsAt pte 10 44 then .error none
      else if bitsAt pte 1 1 = 0 ∧ bitsAt pte 3 1 = 0 then s.sv48 w va l (bitsAt pte 10 28 * 4096)
      else match sv48Leaf pte va l with | some a => .ok a | none => .error none

/-- The entry of the general path's translation cache for a 4 KiB page (Table 10-7). -/
def KvwDie.tcFind (d : KvwDie) (c : Nat) (g : BitVec 16) (page : Nat) : Option TcEnt :=
  d.tc.find? (fun e => e.ctx = c && e.gen = g && e.page = page)

/-- The general path's walk of a page on its generation's root: its address, which enters the cache, or GLN CODE. -/
def State.tcMiss (s : State) (k c : Nat) (g : BitVec 16) (root page : Nat) (code : AccStatus → Nat) : Except Nat Nat × State :=
  match s.sv48 (whoEngine k c) (page * 4096) 4 root with
  | .ok p => (.ok p, s.updKvw k (fun d => { d with tc := ({ ctx := c, gen := g, page := page, frame := p } :: d.tc).take Config.tcEntries }))
  | .error none => (.error 6, s)
  | .error (some e) => (.error (code e.1), s)

end Sys2Proof.Machine
end

