-- ==== Sys2Proof/Machine/Granary.lean ====
section
/-! DEFINITION. Granary banks: handover, clear and power changes (R228 to R235). -/

namespace Sys2Proof.Machine

/-- An application core or a Reeve core, the initiators whose register writes Granary banks, Gleaners, KV walkers and
Blockers accept (R226, R230, R248). -/
def coreOrReeve : Initiator → Bool
  | .core _ | .reeve | .deputy _ _ => true
  | _ => false

def isReeve : Initiator → Bool
  | .reeve | .deputy _ _ => true
  | _ => false

/-- A command to GRN_BANK_n (Table 11-6). -/
structure BankCmd where
  ownChg : Bool
  clear  : Bool
  preq   : Nat
  expect : Nat
  dest     : Nat
  deriving DecidableEq, Repr

/-- A value that no bank ever holds as OWNER (R228). -/
def neverHeld (c : Nat) : Bool := decide (0x40 < c) && decide (c ≠ 0x7F)

/-- RESULT of a command against a bank (Table 11-2); 0 when it is performed. -/
def bankCheck (b : Bank) (reeve : Bool) (c : BankCmd) : Nat :=
  let bad := fun v => neverHeld v || (v == 0x7F && !reeve)
  if c.ownChg ∧ (bad c.expect || bad c.dest) then 3
  else if (c.clear ∧ b.pstate ≠ 0#2) ∨ (¬ c.ownChg ∧ ¬ c.clear ∧ c.preq = 3) then 4
  else if b.busy ∨ b.clearing then 2
  else if c.ownChg ∧ c.expect ≠ b.owner.toNat then 1
  else 0

/-- Begin the pending transition of a bank: a wake from OFF only while fewer than 64 banks of the die wake (R235). -/
def State.startTransition (s : State) (k n : Nat) : State :=
  let b := s.bank (2048 * k + n)
  if b.pstate = 2#2 then
    if (s.grnDie k).waking.toNat < 64 then
      (s.updBank (2048 * k + n) (fun b => { b with waking := true })).updGrnDie k (fun d => { d with waking := d.waking + 1 })
    else s.updGrnDie k (fun d => { d with wakeQueue := d.wakeQueue ++ [n] })
  else s

/-- Every word of a bank reads zero. -/
def State.zeroBank (s : State) (k n : Nat) : State := s.wipe (bankAddr k n) bankBytes

/-- Perform a command that has passed: owner change, clear, power change (R230). -/
def State.bankDo (s : State) (k n : Nat) (c : BankCmd) : State :=
  let i := 2048 * k + n
  let power := decide (c.preq ≠ 3) && decide (c.preq ≠ (s.bank i).pstate.toNat)
  let s := s.updBank i (fun b =>
    { b with result := 0#3, owner := if c.ownChg then BitVec.ofNat 7 c.dest else b.owner,
             ownSeq := if c.ownChg then b.ownSeq + 1 else b.ownSeq, clearing := c.clear, busy := power,
             target := if power then BitVec.ofNat 2 c.preq else b.target })
  let s := if c.clear then s.zeroBank k n else s
  if power && !c.clear then s.startTransition k n else s

/-- A write to GRN_BANK_n with GO = 1 as one 8-byte access (R230). -/
def State.bankCommand (s : State) (w : Initiator) (k n : Nat) (c : BankCmd) : State :=
  if !coreOrReeve w || !s.dieRuns k then s
  else
    let i := 2048 * k + n
    let r := bankCheck (s.bank i) (isReeve w) c
    if r = 0 then s.bankDo k n c
    else (s.updBank i (fun b => { b with result := BitVec.ofNat 3 r })).updGrnDie k (fun d =>
      { d with lastResult := BitVec.ofNat 3 r, lastBank := BitVec.ofNat 11 n, refuseCnt := d.refuseCnt + 1 })

/-- The clear of a bank ends: its power change follows, where one is asked (R230, R232). -/
def State.bankCleared (s : State) (k n : Nat) : State :=
  let i := 2048 * k + n
  if (s.bank i).clearing then
    let s := s.updBank i (fun b => { b with clearing := false })
    if (s.bank i).busy then s.startTransition k n else s
  else s

/-- Start the wakes that wait while GRN_WAKING is below 64 (R235). -/
def State.nextWake (s : State) (k : Nat) : State :=
  match (s.grnDie k).wakeQueue with
  | n :: r =>
    if (s.grnDie k).waking.toNat < 64 then
      ((s.updGrnDie k (fun d => { d with wakeQueue := r, waking := d.waking + 1 }))).updBank (2048 * k + n)
        (fun b => { b with waking := true })
    else s
  | [] => s

/-- The running transition of a bank ends; a bank that leaves OFF or enters it holds zeros (Tables 11-3 and 11-4). -/
def State.bankMoved (s : State) (k n : Nat) : State :=
  let i := 2048 * k + n
  let b := s.bank i
  if b.busy && !b.clearing && (b.pstate ≠ 2#2 || b.waking) then
    let s := if b.pstate = 2#2 ∨ b.target = 2#2 then s.zeroBank k n else s
    let s := s.updBank i (fun b => { b with busy := false, waking := false, pstate := b.target })
    if b.waking then (s.updGrnDie k (fun d => { d with waking := d.waking - 1 })).nextWake k else s
  else s

/-- CONTEXT_DESTROY releases every bank of the context (R233). -/
def State.releaseBank (s : State) (c : Nat) (i : Nat) : State :=
  let b := s.bank i
  let k := i / 2048
  let n := i % 2048
  if b.owner.toNat ≠ c then s
  else
    let s := s.updBank i (fun b => { b with owner := 0x40#7, ownSeq := b.ownSeq + 1 })
    match b.pstate.toNat with
    | 0 => (s.zeroBank k n).updBank i (fun b => { b with clearing := true })
    | 1 => s.updBank i (fun b => { b with busy := true, target := 2#2 })
    | _ => s

/-- Banks of any die whose OWNER is not the reset value. -/
def State.releaseBanks (s : State) (c : Nat) : State := (s.grn.banks.map (·.1)).foldl (fun a i => a.releaseBank c i) s

/-- Banks that context c owns on die k (R183). -/
def State.banksOwned (s : State) (k c : Nat) : Nat :=
  (s.grn.banks.filter (fun e => e.1 / 2048 = k && e.2.owner.toNat = c)).length

/-- BANK_HANDOVER. -/
def execBankHandover (w : Initiator) (k : Die) (n : Fin 2048) (expect dest : BitVec 7) (clear : Bool) (preq : BitVec 2)
    (s : State) : Host.Outcome State Fault Refusal :=
  .next (s.bankCommand w k n ⟨true, clear, preq.toNat, expect.toNat, dest.toNat⟩)

/-- BANK_CLEAR: OWN_CHG = 0, CLEAR = 1. -/
def execBankClear (w : Initiator) (k : Die) (n : Fin 2048) (preq : BitVec 2) (s : State) : Host.Outcome State Fault Refusal :=
  .next (s.bankCommand w k n ⟨false, true, preq.toNat, 0, 0⟩)

/-- BANK_POWER_CHANGE: OWN_CHG = 0, CLEAR = 0. -/
def execBankPowerChange (w : Initiator) (k : Die) (n : Fin 2048) (preq : BitVec 2) (s : State) :
    Host.Outcome State Fault Refusal :=
  .next (s.bankCommand w k n ⟨false, false, preq.toNat, 0, 0⟩)

/-- BANK_TRANSITION_DONE. -/
def execBankTransitionDone (k : Die) (n : Fin 2048) (s : State) : Host.Outcome State Fault Refusal :=
  .next (s.bankMoved k n)

end Sys2Proof.Machine
end

