-- ==== Sys2Proof/Machine/GleanerUnit.lean ====
section
/-! DEFINITION. Gleaners: control writes, stream descriptors, starting a stream and landing it (R241 to R248). -/

namespace Sys2Proof.Machine

/-- A stream descriptor from its 64 bytes (Table 11-7). -/
def glnDescOf (d : List Byte) : GlnDesc :=
  { kind := bitsAt (fld d 0 1) 0 4, skind := bitsAt (fld d 0 1) 4 2, ctx := fld d 1 1 % 64, last := bitsAt (fld d 2 1) 0 1 = 1,
    bound := bitsAt (fld d 2 1) 1 1 = 1, startNode := fld d 4 4, holdFirst := fld d 8 4, holdCnt := fld d 12 4,
    src := fld d 16 6, dst := fld d 24 5, elem := fld d 32 4, count := fld d 36 2, rows := fld d 38 2,
    srcStride := fld d 40 4, dstStride := fld d 44 4, srcPitch := fld d 48 4, dstPitch := fld d 52 4, next := fld d 56 5 }

def noNode : Nat := 0xFFFFFFFF

/-- Byte offset of the first failing field of a descriptor (R242) for a Gleaner of die k in `mode` serving context c
with a graph of `nodes` nodes. -/
def glnCheck (k mode c nodes : Nat) (d : GlnDesc) : Option Nat :=
  let m64 := fun v => decide (v % 64 = 0)
  let one := decide (d.kind = 1)
  let kv := decide (d.skind = 2)
  let bytes := d.elem * d.count * d.rows
  let far := d.dst + (d.rows - 1) * d.dstPitch + (d.count - 1) * d.dstStride + d.elem
  let lo := bankAddr k 0
  firstFail
    [(decide (d.kind = 1 ∨ d.kind = 2) && decide (d.skind ≠ 3), 0), (decide (d.ctx = c), 1),
     (!d.bound || decide (mode = 2), 2),
     (!d.bound || decide (d.startNode = noNode) || (decide (d.startNode < nodes) &&
       (decide (d.holdCnt = 0) || decide (d.startNode < d.holdFirst))), 4),
     (!d.bound || decide (d.holdCnt = 0) || decide (d.holdFirst + d.holdCnt ≤ nodes), 8), (decide (d.holdCnt ≤ 1024), 12),
     (m64 d.src && (!kv || decide (d.src % 16384 + d.elem ≤ 16384)) && (decide (d.skind ≠ 0) || decide (d.src < 2 ^ 40)), 16),
     (m64 d.dst && decide (lo ≤ d.dst) && decide (far ≤ lo + 0x10000000), 24),
     (m64 d.elem && decide (64 ≤ d.elem) && decide (d.elem ≤ 16777216) && decide (bytes ≤ 67108864), 32),
     (decide (1 ≤ d.count), 36), (decide (1 ≤ d.rows) && (!one || decide (d.rows = 1)), 38),
     (m64 d.srcStride && (!kv || decide (d.srcStride % 16384 = 0)), 40),
     (m64 d.dstStride && (decide (d.count ≤ 1) || decide (d.elem ≤ d.dstStride)), 44),
     (m64 d.srcPitch && (!one || decide (d.srcPitch = 0)) && (!kv || decide (d.srcPitch % 16384 = 0)), 48),
     (m64 d.dstPitch && (!one || decide (d.dstPitch = 0)) &&
       (decide (d.rows ≤ 1) || decide ((d.count - 1) * d.dstStride + d.elem ≤ d.dstPitch)), 52),
     (m64 d.next && (!d.last || decide (d.next = 0)), 56)]

/-- CODE of Table 11-8 for a failed access. -/
def glnCode : AccStatus → Nat
  | .uncorrected => 1 | .unavailable => 3 | .notOwned => 4 | _ => 2

/-- How a stream failed: CODE, DETAIL, element index and address. -/
structure GlnErr where
  code : Nat
  detail : Nat
  elem : Nat
  addr : Nat
  deriving DecidableEq, Repr

/-- A Gleaner records an error (R244, R247): the chain starts no further stream, and its instance's epoch is withheld. Corrected
errors do not come here. -/
def State.glnFail (s : State) (u : Nat) (e : GlnErr) : State :=
  let g := s.gleaner u
  let s := (s.updGleaner u (fun g =>
    { g with state := 5#3, errCode := BitVec.ofNat 8 e.code, errDetail := BitVec.ofNat 8 e.detail,
             errIdx := BitVec.ofNat 16 e.elem, errAddr := BitVec.ofNat 48 e.addr })).dropWalks u
  let n := g.epoch.getD 0#64
  let s := if g.epoch.isSome then s.withhold n whUnc else s
  s.fault { epoch := n, sev := 1, kind := 4, unit := u, cls := e.code, ctx := some g.ctx.toNat, node := u / 8, addr := e.addr % 2 ^ 40,
            detail := BitVec.ofNat 32 (e.code * 0x1000000 + e.detail * 0x10000 + e.elem % 65536) }

/-- Node i of an instance has completed. -/
def State.nodeDone (s : State) (n : BitVec 64) (c i : Nat) : Bool :=
  match s.inst? n c with
  | some x => (Tab.get NodeSt.init x.nodes i).done
  | none => true

/-- The START_NODE of a descriptor still holds its stream (R244). -/
def State.glnWaits (s : State) (g : Gleaner) (d : GlnDesc) : Bool :=
  match g.epoch with
  | some n => d.bound && decide (d.startNode ≠ noNode) && !s.nodeDone n g.ctx.toNat d.startNode
  | none => false

/-- The context may use the KV walker: SC0 or SC1, with a graph that sets USES_KV_WALKER (R216). -/
def State.mayWalkKv (s : State) (c : Nat) : Bool :=
  decide ((s.ctxOf c).sc ≤ 1) && (match (s.ctxOf c).graph with | some g => bitsAt g.gflags 2 1 = 1 | none => false)

/-- 64-byte lines of a stream. -/
def GlnDesc.lines (d : GlnDesc) : Nat := d.elem / 64 * (d.count * d.rows)

/-- Element of a line: r × COUNT + i. -/
def GlnDesc.elemOf (d : GlnDesc) (j : Nat) : Nat := j / (d.elem / 64)

/-- Source and destination of line j: rows, then elements, then ascending address (R241, R243). -/
def GlnDesc.lineAt (d : GlnDesc) (j : Nat) : Nat × Nat :=
  let e := d.elemOf j
  let o := j % (d.elem / 64) * 64
  (d.src + e / d.count * d.srcPitch + e % d.count * d.srcStride + o, d.dst + e / d.count * d.dstPitch + e % d.count * d.dstStride + o)

/-- The stream of a valid descriptor whose conditions hold begins: a translated one is a walk that latches root and generation
(R221, R245). -/
def State.glnRun (s : State) (u a : Nat) (d : GlnDesc) : State :=
  let k := u / 8
  let c := (s.gleaner u).ctx.toNat
  let x := s.kvCtx k c
  let s := if d.skind = 0 then s else s.updKvCtx k c KvCtx.startWalk
  s.updGleaner u (fun g =>
    { g with state := 3#3, cur := BitVec.ofNat 40 a, next := if d.last then none else some d.next,
             streams := g.streams ++ [{ desc := d, epoch := g.epoch, gen := x.gen, root := x.active, issued := 0, reads := [], writes := [],
                                        page := none, dead := false, failed := false }] })

/-- Every read of the streams in flight has been issued (R243). -/
def Gleaner.allIssued (g : Gleaner) : Bool := g.streams.all (fun t => t.dead || decide (t.desc.lines ≤ t.issued))

/-- The next descriptor of a Gleaner's chain is read once every read of the previous one has been issued; its stream begins if its
conditions hold (R241, R243, R244). -/
def State.glnStart (s : State) (u : Nat) : State :=
  let k := u / 8
  let g := s.gleaner u
  let c := g.ctx.toNat
  match g.next with
  | none => s
  | some a =>
    if g.stopping || g.state = 5#3 || !s.dieRuns k || !g.allIssued then s
    else match s.load (whoEngine k c) a 64 with
      | .error e => s.glnFail u ⟨glnCode e.1, 0, 0, e.2⟩
      | .ok b =>
        let d := glnDescOf b
        match glnCheck k g.mode.toNat c (s.nodes (g.epoch.getD s.tly.opened) c).length d with
        | some off => s.glnFail u ⟨7, off, 0, a⟩
        | none =>
          if s.glnWaits g d then s.updGleaner u (fun g => { g with state := 2#3, cur := BitVec.ofNat 40 a })
          else if d.skind ≠ 0 ∧ ((s.kvCtx k c).mode.toNat ≠ d.skind ∨ (d.skind = 2 ∧ !s.mayWalkKv c)) then
            (s.kvFault k c 7).glnFail u ⟨5, 7, 0, d.src⟩
          else s.glnRun u a d

/-- Every line of a stream has been written and acknowledged (R243). -/
def GlnStream.landed (t : GlnStream) : Bool := !t.dead && decide (t.desc.lines ≤ t.issued) && t.reads = [] && t.writes = []

/-- Nothing of a Gleaner's chain is left to run: the chain ends, and the next instance's begins. -/
def State.glnEnd (s : State) (u : Nat) : State :=
  let g := s.gleaner u
  if g.streams = [] ∧ (g.stopping ∨ g.next.isNone) ∧ (g.state ≠ 5#3 ∨ g.epoch.isNone ∨ g.stopping) then (s.updGleaner u Gleaner.atEnd).nextChain u else s

/-- The oldest stream of which every write has been acknowledged has landed (R243, R244): its held nodes may go, and the chain
ends with its last. -/
def State.glnLand (s : State) (u : Nat) : State :=
  match (s.gleaner u).streams.find? GlnStream.landed with
  | none => s
  | some t =>
    let s := (s.endWalks u [t]).updGleaner u (fun g => { g with streams := g.streams.eraseP GlnStream.landed, doneCnt := g.doneCnt + 1 })
    let s := s.glnEnd u
    match t.epoch with
    | some n => s.tryAll n t.desc.ctx
    | none => s

/-- A write of GLN_CTRL (Table 11-10). -/
def State.glnCtrl (s : State) (w : Initiator) (u : Nat) (v : BitVec 32) : State :=
  if !coreOrReeve w || !s.dieRuns (u / 8) then s
  else
    let idle := (s.gleaner u).state = 0#3
    let s := if idle then s.updGleaner u (fun g =>
        { g with mode := v.extractLsb' 29 2, ctx := v.extractLsb' 23 6, pfDist := v.extractLsb' 8 9 }) else s
    let s := if v.getLsbD 0 then (s.updGleaner u (fun g => { g with stopping := true })).glnHalt u else s
    let g := s.gleaner u
    if v.getLsbD 31 ∧ !v.getLsbD 0 ∧ g.mode = 1#2 ∧ (g.state = 0#3 ∨ g.state = 5#3) ∧ g.streams.all (fun t => t.reads = [] && t.writes = []) then
      s.updGleaner u (fun g => { g with state := 3#3, cur := g.head, next := some g.head.toNat, stopping := false, streams := [], epoch := none })
    else s

/-- GLN_GO: the register write as given; GO acts in free mode. -/
def execGlnGo (w : Initiator) (k : Die) (g : Fin 8) (v : BitVec 32) (s : State) : Host.Outcome State Fault Refusal :=
  .next ((s.glnCtrl w (8 * k.val + g.val) v).settle)

/-- GLN_STOP: a write of the register with STOP = 1 that keeps its other fields. -/
def execGlnStop (w : Initiator) (k : Die) (g : Fin 8) (s : State) : Host.Outcome State Fault Refusal :=
  let x := s.gleaner (8 * k.val + g.val)
  .next ((s.glnCtrl w (8 * k.val + g.val)
    (BitVec.ofNat 32 (x.mode.toNat * 2 ^ 29 + x.ctx.toNat * 2 ^ 23 + x.pfDist.toNat * 256 + 1))).settle)

/-- GLN_STREAM_LANDED. -/
def execGlnStreamLanded (k : Die) (g : Fin 8) (s : State) : Host.Outcome State Fault Refusal :=
  .next ((s.glnLand (8 * k.val + g.val)).settle)

/-- KVW_BUMP: a write of KVW_GEN_c (R221, R226). -/
def execKvwBump (w : Initiator) (k : Die) (ctx : Fin 64) (v : BitVec 32) (s : State) : Host.Outcome State Fault Refusal :=
  .next (if coreOrReeve w && s.dieRuns k && v.getLsbD 16 then s.updKvCtx k ctx KvCtx.bump else s)

end Sys2Proof.Machine
end

