-- ==== Sys2Proof/Machine/HbmUnit.lean ====
section
/-! DEFINITION. HBM controllers: address mapping, queues, scheduling, refresh, partition regulators, errors and
training (R249 to R264, R507, R509). -/

namespace Sys2Proof.Machine

/-! ## Address mapping (R250, Table 12-2) -/

/-- Where a burst of a stack lies (R250). -/
structure HbmLoc where
  pc  : Nat      -- 5
  sid : Nat      -- 2
  bg  : Nat      -- 2
  ba  : Nat      -- 2
  row : Nat      -- 14
  col : Nat      -- 5, C0 in bit 0
  deriving DecidableEq, Repr

/-- The location of a stack offset under a mapping order (Table 12-2). -/
def hbmLoc (order off : Nat) : HbmLoc :=
  let row := bitsAt off 19 14
  let sid := bitsAt off 33 2
  let c0 := bitsAt off 5 1
  match order with
  | 0 => ⟨bitsAt off 6 5, sid, bitsAt off 11 2, bitsAt off 17 2, row, 2 * bitsAt off 13 4 + c0⟩
  | 1 => ⟨bitsAt off 10 5, sid, bitsAt off 15 2, bitsAt off 17 2, row, 2 * bitsAt off 6 4 + c0⟩
  | 2 => ⟨bitsAt off 6 5, sid, bitsAt off 11 2, bitsAt off 13 2, row, 2 * bitsAt off 15 4 + c0⟩
  | _ => ⟨bitsAt off 6 5 ^^^ bitsAt off 19 5, sid, bitsAt off 11 2 ^^^ bitsAt off 24 2, bitsAt off 17 2, row, 2 * bitsAt off 13 4 + c0⟩

/-- Pseudo-channel, bank (SID x 16 + BG x 4 + BA) and row of a stack offset under a mapping order. -/
def hbmMap (order off : Nat) : Nat × Nat × Nat :=
  let l := hbmLoc order off
  (l.pc, l.sid * 16 + l.bg * 4 + l.ba, l.row)

def Hmc.pc (h : Hmc) (i : Nat) : HPc := Tab.get HPc.init h.pcs i
def Hmc.updPc (h : Hmc) (i : Nat) (f : HPc → HPc) : Hmc := { h with pcs := Tab.upd HPc.init h.pcs i f }

def State.updPc (s : State) (k i : Nat) (f : HPc → HPc) : State := s.updHmc k (fun h => h.updPc i f)

/-- Pseudo-channel, bank and row of an address of stack k. -/
def Hmc.place (h : Hmc) (a : Nat) : Nat × Nat × Nat := hbmMap h.mapOrder.toNat (a % stackBytes)

/-! ## Latency targets and ages (R254, R256) -/

/-- T of a request: TGT_SCn x 4 HCK of its port, 0 acting as 1. -/
def Hmc.target (h : Hmc) (port sc : Nat) : Nat :=
  4 * max 1 (bitsAt (Tab.get 0xC8502818#32 h.port port).toNat (8 * sc) 8)

def Hmc.ageLim (h : Hmc) : Nat := max 256 h.ageLimit.toNat

/-- Urgency of an age under a target. -/
def urgencyOf (age t : Nat) : Nat :=
  if 2 * age < t then 0 else if 4 * age < 3 * t then 1 else if age < t then 2 else 3

/-- Urgency and age flag of an entry as they now stand. -/
def Hmc.refreshReq (h : Hmc) (now : Nat) (r : HReq) : HReq :=
  let age := now - r.entered
  { r with urg := urgencyOf age (h.target r.port r.req.sc), aged := decide (h.ageLim ≤ age) }

/-! ## Memory effect of one request -/

/-- The value an atomic stores, from the old one (R22). -/
def atomicNew (op : AtomicOp) (w old operand compare : Nat) : Nat :=
  match op with
  | .swap => operand % 2 ^ w
  | .add => (old + operand) % 2 ^ w
  | .cas => if old = compare % 2 ^ w then operand % 2 ^ w else old

/-- Perform a request on memory: the bytes its reply carries. A read corrects the single-bit errors it meets. -/
def State.perform (s : State) (r : Req) : List Byte × State :=
  match r.kind with
  | .read => (s.bytesAt r.addr r.size, s.eccRead r.addr r.size)
  | .posted | .acked => ([], s.write r.addr (r.data.take r.size))
  | .atomic op x c =>
    let old := s.bytesAt r.addr r.size
    (old, s.write r.addr (leBytes r.size (atomicNew op (8 * r.size) (leNat old) x.toNat c.toNat)))

/-- When the tracker entry of a transaction retires, the monitor of its die notes the tick (R401). -/
def FabS.retireAt (f : FabS) (p : Pend → Bool) (now : Nat) : Tab Nat :=
  match (f.pend.find? p).bind (·.die) with
  | some k => Tab.set 0 f.retired k now
  | none => f.retired

/-- An answer reaches the transaction that waits for it. -/
def State.answer (s : State) (src : Initiator) (tag : BitVec 12) (st : AccStatus) (d : List Byte) : State :=
  let waits := fun (p : Pend) => decide (p.src = src ∧ p.tag = tag ∧ p.answer.isNone)
  s.mapFab (fun f =>
    { f with pend := updFirst waits (fun p => { p with answer := some (st, d) }) f.pend, retired := f.retireAt waits s.now })

/-- A posted write needs no reply: its tracker entry retires. -/
def State.retire (s : State) (src : Initiator) (tag : BitVec 12) : State :=
  let mine := fun (p : Pend) => decide (p.src = src ∧ p.tag = tag ∧ p.posted)
  s.mapFab (fun f => { f with pend := f.pend.eraseP mine, retired := f.retireAt mine s.now })

/-! ## Queues (R255, R258, R260) -/

def isWrite (r : Req) : Bool := match r.kind with | .read => false | _ => true

def isAtomic (r : Req) : Bool := match r.kind with | .atomic _ _ _ => true | _ => false

/-- Queue entries a request takes. -/
def entriesOf (r : Req) : Nat := if isAtomic r then 2 else 1

def entriesUsed (l : List HReq) : Nat := (l.map (fun e => entriesOf e.req)).foldl (· + ·) 0

/-- An entry the request may use is free: two of the 16 are reserved for SC0. -/
def HPc.room (p : HPc) (r : Req) : Bool :=
  decide (entriesUsed p.queue + entriesOf r ≤ 16) &&
    (decide (r.sc = 0) || decide (entriesUsed (p.queue.filter (fun e => e.req.sc ≠ 0)) + entriesOf r ≤ 14))

/-- Bursts of 32 bytes that a request takes. -/
def burstsOf (r : Req) : Nat := (r.size + 31) / 32

/-- The regulator admits the request in this window. -/
def Hmc.admits (h : Hmc) (r : Req) : Bool :=
  let share := (Tab.get 0x400#11 h.shareEff r.part).toNat
  decide (r.sc = 0) || decide (share = 1024) || decide (Tab.get 0 h.counts r.part + burstsOf r ≤ share * 32)

def sameGranule (a b : Req) : Bool := a.addr / 64 == b.addr / 64

/-- The queued writes together cover every byte the read asks for, and no atomic on its granule waits before it. -/
def covered (q : List HReq) (r : Req) : Bool :=
  !q.any (fun e => isAtomic e.req && sameGranule e.req r) &&
  (List.range r.size).all (fun i => q.any (fun e =>
    isWrite e.req && decide (e.req.addr ≤ r.addr + i) && decide (r.addr + i < e.req.addr + e.req.size)))

/-- A request enters its queue: a write or an atomic is applied, and an acknowledged write acknowledged; a read that
queued writes cover is answered at once. -/
def State.hbmEnter (s : State) (k pc port : Nat) (r : Req) : State :=
  let s := s.updHmc k (fun h => { h with counts := Tab.upd 0 h.counts r.part (· + burstsOf r) })
  let q := ((s.hmcOf k).pc pc).queue
  let p := s.perform r
  let s := p.2
  let push := fun (t : State) => t.updPc k pc (fun x =>
    { x with queue := x.queue ++ [{ req := r, port := port, answer := p.1, entered := s.time.hck, urg := 0, aged := false }] })
  match r.kind with
  | .read => if covered q r && q.any (fun e => isWrite e.req) then s.answer r.src r.tag .ok p.1 else push s
  | .acked => push (s.answer r.src r.tag .ok [])
  | .posted => push (s.retire r.src r.tag)
  | .atomic _ _ _ => push s

/-- What the requests that stay at their ports hold back: channels of a port whose next request finds no entry (one channel per
class, R254), partitions and classes that the regulator holds, and the requests themselves. -/
structure HWait where
  chans : List (Nat × Nat)
  parts : List (Nat × Nat)
  stay  : List Req
  deriving DecidableEq, Repr

/-- A request of one initiator may not pass one of its own that waits and touches its granule, where either writes: a read returns
the data of the initiator's earlier writes, and its writes stay in order (R23). -/
def ownOrder (l : List Req) (r : Req) : Bool := l.any (fun e => decide (e.src = r.src) && sameGranule e r && (isWrite e || isWrite r))

/-- Admit what can be admitted of the requests that wait at the ports, in arrival order over all pseudo-channels; a full queue
holds its port and class, the regulator its partition and class. -/
def hbmAdmitList (k : Nat) : List HReq → HWait → State → State
  | [], _, s => s
  | e :: l, w, s =>
    let h := s.hmcOf k
    let pc := (h.place e.req.addr).1
    let c := (e.port, e.req.sc)
    let p := (e.req.part, e.req.sc)
    let hold := fun (x : HWait) => hbmAdmitList k l { x with stay := x.stay ++ [e.req] } (s.updHmc k (fun h => { h with held := h.held ++ [e] }))
    if w.parts.contains p || w.chans.contains c || ownOrder w.stay e.req then hold w
    else if !h.admits e.req then hold { w with parts := p :: w.parts }
    else if !(h.pc pc).room e.req then hold { w with chans := c :: w.chans }
    else hbmAdmitList k l w (s.hbmEnter k pc e.port e.req)

/-- The requests that wait at the ports of stack k enter their queues as far as they may, while the stack serves accesses. -/
def State.hbmAdmit (s : State) (k : Nat) : State :=
  if !s.stackRuns k then s
  else hbmAdmitList k (s.hmcOf k).held { chans := [], parts := [], stay := [] } (s.updHmc k (fun h => { h with held := [] }))

/-- A request arrives at stack k (its access already judged). -/
def State.hbmArrive (s : State) (k port : Nat) (r : Req) : State :=
  (s.updHmc k (fun h => { h with held := h.held ++
    [{ req := r, port := port, answer := [], entered := s.time.hck, urg := 0, aged := false }] })).hbmAdmit k

/-! ## Scheduling (R253, R257) -/

/-- An earlier entry holds the entry back (R258). -/
def blockedBy (before : List HReq) (r : HReq) : Bool :=
  before.any (fun e => sameGranule e.req r.req && (isWrite e.req || isWrite r.req))

/-- Class and urgency of an entry, raised to those of the requests it blocks. -/
def effective (after : List HReq) (r : HReq) : Nat × Nat :=
  after.foldl (fun a e =>
    if isWrite r.req && sameGranule e.req r.req && (decide (e.req.sc < a.1) || (e.req.sc == a.1 && decide (a.2 < e.urg)))
    then (e.req.sc, e.urg) else a) (r.req.sc, r.urg)

/-- A scheduling candidate: queue position, entry, class, urgency and row hit. -/
structure Cand where
  idx : Nat
  aged : Bool
  sc : Nat
  urg : Nat
  hit : Bool
  deriving DecidableEq, Repr

/-- better(r, b) of R257. -/
def better (r b : Cand) : Bool :=
  if r.aged ≠ b.aged then r.aged
  else if r.aged then false
  else if r.sc ≠ b.sc then decide (r.sc < b.sc)
  else if r.urg ≠ b.urg then decide (b.urg < r.urg)
  else if r.hit ≠ b.hit then r.hit
  else false

def HPc.bank (p : HPc) (b : Nat) : HBank := Tab.get HBank.init p.banks b

/-- hit(r): its row is open and its streak is below 16. -/
def Hmc.hit (h : Hmc) (p : HPc) (r : Req) : Bool :=
  let m := h.place r.addr
  let b := p.bank m.2.1
  b.row == some m.2.2 && decide (b.streak < 16)

/-- Candidates of a queue, oldest first, blocked entries left out. -/
def Hmc.cands (h : Hmc) (p : HPc) : List HReq → List HReq → Nat → List Cand
  | _, [], _ => []
  | before, r :: after, i =>
    let rest := h.cands p (before ++ [r]) after (i + 1)
    if blockedBy before r then rest
    else
      let e := effective after r
      ⟨i, r.aged, e.1, e.2, h.hit p r.req⟩ :: rest

/-- The choice of R257. -/
def Hmc.choose (h : Hmc) (p : HPc) : Option Nat :=
  ((h.cands p [] p.queue 0).foldl (fun (a : Option Cand) c =>
    match a with | none => some c | some b => if better c b then some c else some b) none).map (·.idx)

/-- The row buffer after an access to (bank, row): the row stays open unless IDLE_HCK is 0 or 16 consecutive accesses have hit it
while another request to the bank waited; the access that opens the row is no hit. -/
def HPc.touch (p : HPc) (b row now idle : Nat) (others : Bool) : HPc :=
  { p with banks := Tab.upd HBank.init p.banks b (fun x =>
      let streak := if others && decide (x.row = some row) then x.streak + 1 else 0
      { row := if idle = 0 ∨ 16 ≤ streak then none else some row, used := now, streak := if 16 ≤ streak then 0 else streak }) }

/-- Entries in the queue of a pseudo-channel and requests at the ports that map to it. -/
def Hmc.atPc (h : Hmc) (pc : Nat) : List HReq := (h.pc pc).queue ++ h.held.filter (fun e => (h.place e.req.addr).1 == pc)

/-- Perform the scheduled entry: its reply goes out and its place is free. A read or an atomic of a burst whose data is
uncorrectable fails. -/
def State.hbmServe (s : State) (k pc i : Nat) : State :=
  let h := s.hmcOf k
  match (h.pc pc).queue[i]? with
  | none => s
  | some r =>
    let m := h.place r.req.addr
    let others := (((h.atPc pc).eraseIdx i).any (fun e => (h.place e.req.addr).2.1 = m.2.1))
    let s := s.updPc k pc (fun x =>
      { x with queue := x.queue.eraseIdx i }.touch m.2.1 m.2.2 s.time.hck h.pageIdle.toNat others)
    match r.req.kind with
    | .read => if h.unc.any (burstIn r.req.addr r.req.size) then s.answer r.req.src r.req.tag .uncorrected (List.replicate r.req.size 0)
        else s.answer r.req.src r.req.tag .ok r.answer
    | .atomic _ _ _ => s.answer r.req.src r.req.tag .ok r.answer
    | _ => s

/-! ## Refresh (R259) -/

/-- A refresh of a bank (of every bank in all-bank mode) is postponed by what waits. -/
def Hmc.refBlocked (h : Hmc) (pc bank : Nat) : Bool :=
  (h.atPc pc).any (fun e =>
    (h.refMode || (h.place e.req.addr).2.1 == bank) && (e.req.sc == 0 || (e.req.sc == 1 && decide (2 ≤ e.urg))))

/-- A refresh or RFM closes the row of its bank, or of every bank. -/
def HPc.refreshRow (p : HPc) (all : Bool) (bank : Nat) : HPc :=
  if all then { p with banks := [] }
  else { p with banks := Tab.upd HBank.init p.banks bank (fun b => { b with row := none, streak := 0 }) }

/-- Issue or postpone one refresh command; at a debt of 8 it goes ahead. -/
def Hmc.refreshCmd (h : Hmc) (pc bank : Nat) : Hmc :=
  if h.refBlocked pc bank ∧ (h.pc pc).debt < 8 then
    h.updPc pc (fun p => { p with debt := p.debt + 1, owed := p.owed ++ [bank] })
  else h.updPc pc (fun p => p.refreshRow h.refMode bank)

/-- Pay the oldest postponed refresh that nothing holds back any more. -/
def Hmc.payRefresh (h : Hmc) (pc : Nat) : Hmc :=
  match (h.pc pc).owed with
  | [] => h
  | b :: r =>
    if h.refBlocked pc b && decide ((h.pc pc).debt < 8) then h
    else h.updPc pc (fun p => { p with debt := p.debt - 1, owed := r }.refreshRow h.refMode b)

/-- HCK between refresh commands of a pseudo-channel. -/
def Hmc.refPeriod (h : Hmc) : Nat :=
  if h.refMode then (if h.hot then 1560 else 3120) else (if h.hot then 32 else 65)

/-! ## Regulator windows (R260) -/

/-- One window boundary: counts carry what exceeds their cap, new shares apply. -/
def Hmc.window (h : Hmc) : Hmc :=
  { h with winAt := h.winAt + 1024, shareEff := h.share,
           counts := h.counts.filterMap (fun e =>
             let left := e.2 - (Tab.get 0x400#11 h.shareEff e.1).toNat * 32
             if left = 0 then none else some (e.1, left)) }

/-! ## Errors, stop and training (R262, R263, R509) -/

/-- HMC_ERR_LOG keeps the latest severity 3, or the latest severity 2 while there is none. -/
def Hmc.log (h : Hmc) (sev a ctx port : Nat) : Hmc :=
  if sev = 2 ∧ h.logSev = 3#2 then h
  else { h with logSev := BitVec.ofNat 2 sev, logAddr := BitVec.ofNat 40 (a / 64 * 64), logCtx := BitVec.ofNat 6 ctx,
                logPort := BitVec.ofNat 3 port }

/-- Queue entries that follow entry `i` in its queue and touch its granule are performed anew on memory as it now stands; what a
read or an atomic among them will answer follows. -/
def State.redo (s : State) (k pc i : Nat) : State :=
  match ((s.hmcOf k).pc pc).queue[i]? with
  | none => s
  | some e =>
    (List.range ((s.hmcOf k).pc pc).queue.length).foldl (fun t j =>
      match ((t.hmcOf k).pc pc).queue[j]? with
      | some f =>
        if i < j && sameGranule e.req f.req then
          let p := t.perform f.req
          p.2.updPc k pc (fun x => { x with queue := x.queue.modify j (fun y => { y with answer := p.1 }) })
        else t
      | none => t) s

/-- Take entry `i` out of its queue. -/
def State.dropEntry (s : State) (k pc i : Nat) : State := s.updPc k pc (fun x => { x with queue := x.queue.eraseIdx i })

/-- Entry `i` fails: a read and an atomic are answered with zeros, and an atomic leaves memory as it found it (R263). -/
def State.failEntry (s : State) (k pc i : Nat) (st : AccStatus) : State :=
  match ((s.hmcOf k).pc pc).queue[i]? with
  | none => s
  | some e =>
    match e.req.kind with
    | .read => (s.answer e.req.src e.req.tag st (List.replicate e.req.size 0)).dropEntry k pc i
    | .atomic _ _ _ =>
      (((s.put e.req.addr e.answer).redo k pc i).answer e.req.src e.req.tag st (List.replicate e.req.size 0)).dropEntry k pc i
    | _ => s.dropEntry k pc i

/-- Bytes of a failed reply: a read and an atomic return zeros (R29). -/
def failData (r : Req) : List Byte := match r.kind with | .read | .atomic _ _ _ => List.replicate r.size 0 | _ => []

/-- Every queued and waiting request of a stack completes as target-unavailable (R507); a write has completed at queue entry. -/
def State.hbmFlush (s : State) (k : Nat) : State :=
  let waits := (s.hmcOf k).held.map (·.req)
  let s := forUpto 32 (fun pc t => forUpto ((t.hmcOf k).pc pc).queue.length (fun _ u => u.failEntry k pc 0 .unavailable) t) s
  waits.foldl (fun t r => t.answer r.src r.tag .unavailable (failData r)) (s.updHmc k (fun h => { h with held := [] }))

/-- The stack loses its contents, the HMC_ counters and its training, and its RWL registers stand at their reset values until
they are written again (R251, R262, R408); training starts in `trainDue`. -/
def State.stackReset (s : State) (k : Nat) : State :=
  let s := (s.hbmFlush k).wipe (k * stackBytes) stackBytes
  let s := s.updHmc k (fun h =>
    { h with state := 0#2, trainRes := 0#2, sev1 := 0#16, sev2 := 0#16, sev3 := 0#16, linkFail := 0#16, linkRetry := 0#32,
             failTimes := [], counts := [], pcs := [], unc := [], hot := false, tempValid := false, refBase := s.time.hck,
             lock := false, scrubWb := true, refMode := false, trainMode := 0#2, mapOrder := 0#2, pageIdle := 0x040#12,
             ageLimit := 0x0400#16, port := [] })
  s.mapFlt (fun f => { f with stackRst := Tab.set false f.stackRst k true, stackDue := Tab.set false f.stackDue k false })

/-- The registers that training and service need, written from the boot configuration with the journal's alternative (R8, R251,
R262): Table 23-3 gives 64 bytes for stack k at offset 0x200. -/
def State.stackCfg (s : State) (k : Nat) : State :=
  let b := sub s.boot.config (0x200 + 64 * k) 64
  let c := fld b 0 4
  s.updHmc k (fun h =>
    { h with scrubWb := bitsAt c 5 1 = 1, refMode := bitsAt c 4 1 = 1, mapOrder := BitVec.ofNat 2 (bitsAt c 0 2),
             trainMode := if s.boot.stackCons.getLsbD k then 1#2 else BitVec.ofNat 2 (bitsAt c 2 2),
             pageIdle := BitVec.ofNat 12 (fld b 4 4), ageLimit := BitVec.ofNat 16 (fld b 8 4),
             port := (List.range 6).foldl (fun t p => Tab.set 0xC8502818#32 t p (BitVec.ofNat 32 (fld b (12 + 4 * p) 4))) h.port })

/-- The Loft thresholds, written from the boot configuration and locked (R8, R238). -/
def State.grnCfg (s : State) (k : Nat) : State :=
  let t := sub s.boot.config (0x1C0 + 16 * k) 16
  s.updGrnDie k (fun d =>
    { d with lock := true, thrTOn := (List.range 4).map (fun i => BitVec.ofNat 8 (bitsAt (fld t (4 * i) 4) 16 8)),
             thrRate := (List.range 4).map (fun i => BitVec.ofNat 5 (fld t (4 * i) 4)) })

/-- Training of a stack that its reset has left in state 0x0 starts (R262). -/
def State.trainDue (s : State) (k : Nat) : State :=
  if Tab.get false s.flt.stackRst k ∧ s.dieRuns k ∧ (s.hmcOf k).state = 0#2 then
    (s.stackCfg k).updHmc k (fun h => { h with state := 1#2, trainRes := 0#2 })
  else s

/-- The Reeve resets a stack that has stopped (Table 12-7), and lets training start. -/
def State.stackWork (s : State) (k : Nat) : State :=
  (if Tab.get false s.flt.stackDue k ∧ (s.hmcOf k).state = 3#2 then s.stackReset k else s).trainDue k

/-- A severity 3 in the read burst at `a` for context c on port p: counted, logged and recorded, the row listed for repair, the
context's open epochs withheld (Table 12-7). A queued write of part of the burst, the read of whose read-modify-write this is,
leaves every other byte of the burst zero but what later writes put there, and the burst reads back clean (R509); a queued read or
atomic of that context and port fails; every other read of the burst fails until it is written. -/
def State.hbmSev3 (s : State) (k a c port : Nat) : State :=
  let burst := a / 32 * 32
  let s := s.updHmc k (fun h => { (h.log 3 a c port) with sev3 := satInc h.sev3, repairRows := h.repairRows ++ [a] })
  let s := (s.withholdCtx c).fault { epoch := s.ctxEpoch c, sev := 1, kind := 7, unit := k, cls := 1, ctx := some c, node := k, addr := a }
  let pc := ((s.hmcOf k).place a).1
  let q := ((s.hmcOf k).pc pc).queue
  let mine := fun (e : HReq) => decide (e.req.ctx = c) && decide (e.port = port) && burstIn e.req.addr e.req.size burst
  let whole := fun (r : Req) => decide (r.addr ≤ burst) && decide (burst + 32 ≤ r.addr + r.size)
  match q.findIdx? (fun e => mine e && !(isWrite e.req && !isAtomic e.req && whole e.req)) with
  | none =>
    let hit := fun (p : Pend) =>
      if !p.posted && decide (p.addr / 32 * 32 = burst) && p.answer.isNone then { p with answer := some (.uncorrected, List.replicate p.zeros 0) } else p
    (s.mapFab (fun f => { f with pend := f.pend.map hit })).updHmc k (fun h => { h with unc := h.unc.filter (· ≠ burst) ++ [burst] })
  | some i =>
    match q[i]? with
    | none => s
    | some e =>
      if isWrite e.req && !isAtomic e.req then
        let own := fun j => decide (e.req.addr ≤ j) && decide (j < e.req.addr + e.req.size)
        ((List.range 32).foldl (fun t j => if own (burst + j) then t else t.put (burst + j) [0#8]) s).redo k pc i
      else ((s.failEntry k pc i .uncorrected).updHmc k (fun h => { h with unc := h.unc.filter (· ≠ burst) ++ [burst] })).hbmAdmit k

/-- Third-try failures within 800,000 HCK that stop the stack. -/
def failLimit : Nat := 16

/-- A third-try parity failure (Table 12-7). The sixteenth within 1 ms stops the stack: STATE 0x3, what is queued completes as
target-unavailable, TRAIN_RESULT stays, and the Reeve will reset the stack. -/
def State.hbmLinkFail (s : State) (k a c port : Nat) : State :=
  let s := s.hbmSev3 k a c port
  let now := s.time.hck
  let s := s.updHmc k (fun h =>
    { h with linkFail := satInc h.linkFail,
             failTimes := (now :: h.failTimes).filter (fun t => decide (now < t + 800000)) })
  if failLimit ≤ (s.hmcOf k).failTimes.length then
    let s := (s.updHmc k (fun h => { h with state := 3#2 })).hbmFlush k
    let s := s.fault { sev := 2, kind := 7, unit := k, cls := 0x27, action := 5, node := k }
    s.mapFlt (fun f => { f with stackDue := Tab.set false f.stackDue k true })
  else s

/-- The controller's action on what the stack reports for a read burst (Table 12-7). -/
def State.hbmBurst (s : State) (k a c port : Nat) (r : BurstResult) : State :=
  match r with
  | .sev0 => s
  | .sev1 => (s.updHmc k (fun h => { h with sev1 := satInc h.sev1 })).corrected k
  | .sev2 => (s.updHmc k (fun h => { (h.log 2 a c port) with sev2 := satInc h.sev2 })).corrected k
  | .sev3 => s.hbmSev3 k a c port
  | .parity third =>
    if third then s.hbmLinkFail k a c port
    else s.updHmc k (fun h => { h with linkRetry := satInc h.linkRetry })

/-- Training ends (R262); a stack that returns to service has its registers locked first (R8, R251). -/
def State.hbmTrained (s : State) (k : Nat) (pass : Bool) (spares : Nat) : State :=
  s.updHmc k (fun h =>
    if h.state ≠ 1#2 then h
    else if pass then { h with lock := h.lock || Tab.get false s.flt.stackRst k, state := 2#2, trainRes := if spares = 0 then 1#2 else 2#2, spareUsed := BitVec.ofNat 8 spares }
    else { h with state := 3#2, trainRes := 3#2, spareUsed := BitVec.ofNat 8 spares })

/-! ## Commands -/

/-- HBM_REGULATOR_WINDOW: a window of 1,024 HCK has passed; held requests are admitted. -/
def execHbmRegulatorWindow (k : Die) (s : State) : Host.Outcome State Fault Refusal :=
  .next (if (s.hmcOf k).winAt + 1024 ≤ s.time.hck then (s.updHmc k Hmc.window).hbmAdmit k else s)

/-- HBM_PAGE_IDLE_EXPIRY: the bank is precharged once it has been idle for IDLE_HCK. -/
def execHbmPageIdleExpiry (k : Die) (pc : Fin 32) (bank : Fin 48) (s : State) : Host.Outcome State Fault Refusal :=
  let h := s.hmcOf k
  let b := (h.pc pc).bank bank
  .next (if b.row.isSome && decide (b.used + h.pageIdle.toNat ≤ s.time.hck) then
    s.updPc k pc (fun p => { p with banks := Tab.upd HBank.init p.banks bank (fun b => { b with row := none, streak := 0 }) })
    else s)

/-- HBM_URGENCY_STEP: the entry's urgency becomes that of its age. -/
def execHbmUrgencyStep (k : Die) (pc : Fin 32) (idx : Fin 16) (s : State) : Host.Outcome State Fault Refusal :=
  let h := s.hmcOf k
  .next (s.updPc k pc (fun p => { p with queue := p.queue.zipIdx.map (fun e =>
    if e.2 = idx.val then { e.1 with urg := (h.refreshReq s.time.hck e.1).urg } else e.1) }))

/-- HBM_AGE_PROMOTION: the entry is aged from AGE_HCK on. -/
def execHbmAgePromotion (k : Die) (pc : Fin 32) (idx : Fin 16) (s : State) : Host.Outcome State Fault Refusal :=
  let h := s.hmcOf k
  .next (s.updPc k pc (fun p => { p with queue := p.queue.zipIdx.map (fun e =>
    if e.2 = idx.val then { e.1 with aged := (h.refreshReq s.time.hck e.1).aged } else e.1) }))

/-- One round of the scheduler of a pseudo-channel: the queue's entries stand at their present urgency and age; the choice of R257 is
served, requests that waited for a place enter, and a postponed refresh is paid when nothing holds it back. -/
def State.hbmRound (s : State) (k pc : Nat) : State :=
  let s := s.updHmc k (fun h => h.updPc pc (fun p => { p with queue := p.queue.map (h.refreshReq s.time.hck) }))
  ((match (s.hmcOf k).choose ((s.hmcOf k).pc pc) with
    | none => s
    | some i => s.hbmServe k pc i).hbmAdmit k).updHmc k (fun h => h.payRefresh pc)

/-- HBM_SCHEDULE; while the stack does not serve accesses, what is queued completes as target-unavailable (R507). -/
def execHbmSchedule (k : Die) (pc : Fin 32) (s : State) : Host.Outcome State Fault Refusal :=
  .next (if s.stackRuns k then s.hbmRound k pc else s.hbmFlush k)

/-- HBM_REFRESH_DUE: the next refresh of the rotation falls due. -/
def execHbmRefreshDue (k : Die) (pc : Fin 32) (bank : Fin 48) (s : State) : Host.Outcome State Fault Refusal :=
  let h := s.hmcOf k
  let p := h.pc pc
  .next (if (h.refMode || p.nextBank == bank.val) && decide (h.refBase + p.refAt + h.refPeriod ≤ s.time.hck) then
    s.updHmc k (fun h => ((h.payRefresh pc).refreshCmd pc bank).updPc pc (fun p =>
      { p with nextBank := (p.nextBank + 1) % 48, refAt := p.refAt + h.refPeriod }))
    else s)

/-- HBM_RFM_REQUEST: issued under the refresh postponement rule. -/
def execHbmRfmRequest (k : Die) (pc : Fin 32) (bank : Fin 48) (s : State) : Host.Outcome State Fault Refusal :=
  .next (s.updHmc k (fun h => h.refreshCmd pc bank))

/-- HBM_READ_BURST_RESULT. -/
def execHbmReadBurstResult (k : Die) (addr : BitVec 40) (ctx : Fin 64) (port : Fin 6) (r : BurstResult) (s : State) :
    Host.Outcome State Fault Refusal :=
  .next ((s.hbmBurst k addr.toNat ctx port r).settle)

end Sys2Proof.Machine
end

