-- ==== Sys2Proof/Machine/Coherence.lean ====
section
/-! DEFINITION. Application cores and their caches: counters, context tag, writebacks and GXERR, the directory and the
coherence messages (R334 to R343). Cluster of core c is c / 4, its die c / 8. -/

namespace Sys2Proof.Machine

/-! ## Counters (R334) -/

/-- Count an event in the performance counters of core c; one that wraps sets OF (Table 17-1). -/
def State.hpmCount (s : State) (c ev : Nat) : State :=
  s.updCoreOf c (fun k =>
    let hit := fun i => (Tab.get 0#8 k.event (3 + i)).toNat = ev
    let wraps := fun i => decide (hit i) && decide (Tab.get 0#64 k.hpm (3 + i) + 1 = 0#64)
    { k with overflow := (List.range 8).foldl (fun t i => if wraps i then Tab.set false t (3 + i) true else t) k.overflow,
             hpm := (List.range 8).foldl (fun t i => if hit i then Tab.upd 0#64 t (3 + i) (· + 1) else t) k.hpm })

/-- An instruction of core c has retired. -/
def State.retireIns (s : State) (c : Nat) : State := s.updCoreOf c (fun k => { k with instret := k.instret + 1 })

/-- mcycle and cycle of core c: the replica beat counter of its die plus the core's offset. -/
def State.mcycle (s : State) (c : Nat) : BitVec 64 := BitVec.ofNat 64 (s.beat (c / 8)) + (s.coreOf c).cycleOff

/-- time of a cluster: 0 when it left reset, 1 more every 16 replica beats. -/
def State.clusterTime (s : State) (cl : Nat) : BitVec 64 := BitVec.ofNat 64 ((s.beat (cl / 2) - Tab.get 0 s.core.time0 cl) / 16)

/-- STIP of mip: stimecmp compares against time (Table 17-1). -/
def State.stip (s : State) (c : Nat) : Bool := decide ((s.coreOf c).stimecmp.toNat ≤ (s.clusterTime (c / 4)).toNat)

/-- mie, sie, hie and vsie read 0: no interrupt is ever taken (Table 17-1). -/
def coreIe : BitVec 64 := 0#64

/-! ## Exceptions (R22, R29, R338, Table 17-1) -/

/-- Why a core takes an exception on a load or a store. The cause codes are RISC-V's own. -/
inductive CoreFault where
  | misaligned | access | page
  deriving DecidableEq, Repr

def CoreFault.code (f : CoreFault) (store : Bool) : BitVec 6 :=
  match f, store with
  | .misaligned, false => 4#6 | .misaligned, true => 6#6
  | .access, false => 5#6 | .access, true => 7#6
  | .page, false => 13#6 | .page, true => 15#6

/-- Core c takes a precise exception that reports an address. -/
def State.coreTrap (s : State) (c : Nat) (f : CoreFault) (store : Bool) (a : Nat) : State :=
  s.updCoreOf c (fun k => { k with cause := f.code store, tval := BitVec.ofNat 64 a, traps := k.traps + 1 })

/-- Core c has no context tag, and the address lies in Granary or in a context's HBM range (R336). -/
def State.barred (s : State) (c a : Nat) : Bool :=
  !(s.coreOf c).valid && (match placeOf a with | .gran _ _ _ => true | .hbm _ _ => (s.rangeOwner a).isSome | _ => false)

/-! ## Page tables of a core's MMU (R333, R337, R344) -/

/-- A leaf PTE of a core: page fault (true) or access fault (false), else the address and the Svpbmt attribute, 0 PMA, 1 NC, 2 IO.
Pages are 4 KiB, 64 KiB and 2 MiB; a clear A bit, or a clear D bit on a store, is a page fault. -/
def coreLeaf (pte va level : Nat) (store : Bool) : Except Bool (Nat × Nat) :=
  let ppn := bitsAt pte 10 44
  let pbmt := bitsAt pte 61 2
  let may := if store then bitsAt pte 2 1 = 1 ∧ bitsAt pte 1 1 = 1 ∧ bitsAt pte 7 1 = 1 else bitsAt pte 1 1 = 1
  if ¬ may ∨ bitsAt pte 6 1 = 0 ∨ pbmt = 3 then .error true
  else if 2 ^ 28 ≤ ppn then .error false
  else if level = 0 then
    if bitsAt pte 63 1 = 1 then (if ppn % 16 = 8 then .ok (ppn / 16 * 65536 + va % 65536, pbmt) else .error true)
    else .ok (ppn * 4096 + va % 4096, pbmt)
  else if level = 1 then
    if bitsAt pte 63 1 = 0 ∧ ppn % 512 = 0 then .ok (ppn * 4096 + va % 2097152, pbmt) else .error true
  else .error true

/-- The walk from a table at level l - 1, the core reading its PTEs. -/
def State.coreWalk (s : State) (c va : Nat) (store : Bool) : Nat → Nat → Except Bool (Nat × Nat)
  | 0, _ => .error true
  | l + 1, table =>
    match s.load (s.whoCore c) (table + 8 * (va / 2 ^ (12 + 9 * l) % 512)) 8 with
    | .error _ => .error false
    | .ok b =>
      let pte := leNat b
      if bitsAt pte 0 1 = 0 ∨ (bitsAt pte 1 1 = 0 ∧ bitsAt pte 2 1 = 1) then .error true
      else if bitsAt pte 1 3 = 0 ∨ (bitsAt pte 1 1 = 0 ∧ bitsAt pte 3 1 = 0) then s.coreWalk c va store l (bitsAt pte 10 44 * 4096)
      else coreLeaf pte va l store

/-- A virtual address of a core under its satp: Bare, Sv39 or Sv48; no other mode exists (R333). -/
def State.coreMap (s : State) (c : Nat) (v : CoreVirt) (store : Bool) : Except Bool (Nat × Nat) :=
  let va := v.va.toNat
  let root := bitsAt v.satp.toNat 0 44 * 4096
  let canon := fun (n : Nat) => va / 2 ^ (n - 1) = 0 ∨ va / 2 ^ (n - 1) = 2 ^ (65 - n) - 1
  match bitsAt v.satp.toNat 60 4 with
  | 0 => if va < 2 ^ 40 then .ok (va, 0) else .error false
  | 8 => if canon 39 then s.coreWalk c va store 3 root else .error true
  | 9 => if canon 48 then s.coreWalk c va store 4 root else .error true
  | _ => .error true

/-- The cores of a cluster. -/
def coresOf (cl : Nat) : List Nat := (List.range 4).map (4 * cl + ·)

def clusterDie (cl : Nat) : Nat := cl / 2

/-! ## Lines and writebacks (R340, R341) -/

def lineKey (cl line : Nat) : Nat := cl * 2 ^ 34 + line

def State.lineAt (s : State) (cl line : Nat) : Option CLine := Tab.look s.core.lines (lineKey cl line)

/-- Install a line in a cluster's L2. -/
def State.setLine (s : State) (cl line : Nat) (l : CLine) : State :=
  s.mapCore (fun x => { x with lines := Tab.put x.lines (lineKey cl line) l })

/-- Lines an L1 cache holds (64 KiB) and an L2 (4 MiB) (R341). -/
def l1Lines : Nat := 1024
def l2Lines : Nat := 65536

/-- A line comes into an L1 cache of core c; the line longest there leaves a full one. -/
def Core.fill (k : Core) (fetch : Bool) (line : Nat) : Core :=
  let add := fun (l : List Nat) => (line :: l.filter (· ≠ line)).take l1Lines
  if fetch then { k with l1i := add k.l1i } else { k with l1d := add k.l1d }

/-- A cluster's copy goes, from its cores' L1 caches too, and with it the reservations of its cores on the line; a WRS that waits
on one returns. -/
def State.dropLine (s : State) (cl line : Nat) : State :=
  let s := s.mapCore (fun x => { x with lines := Tab.drop (· == lineKey cl line) x.lines })
  (coresOf cl).foldl (fun a c =>
    let a := a.updCoreOf c (fun k => { k with l1i := k.l1i.filter (· ≠ line), l1d := k.l1d.filter (· ≠ line) })
    if (a.coreOf c).resv = some line then
      let b := a.updCoreOf c (fun k => { k with resv := none, waitBeat := none })
      if (a.coreOf c).waitBeat.isSome then b.retireIns c else b
    else a) s

/-- GXERR CODE of a failed access (Table 17-3). -/
def gxCode : AccStatus → Nat
  | .uncorrected => 1 | .hole => 2 | .unavailable => 3 | .notOwned => 4 | _ => 0

/-- Record a failed writeback in a core's GXERR. -/
def Core.gxerr (k : Core) (ctx line code : Nat) : Core :=
  if k.errValid then { k with errCount := satInc k.errCount }
  else { k with errValid := true, errCount := satInc k.errCount, errCtx := BitVec.ofNat 6 ctx, errLine := BitVec.ofNat 34 line,
                errCode := BitVec.ofNat 6 code }

/-- A write the home makes for a cluster with the CTX the line carries. -/
def whoLine (cl ctx : Nat) : Who :=
  { node := clusterDie cl, ctx := some ctx, fw := false, anyHbm := false, openHbm := true, regs := false }

/-- Write a line of a cluster back; a failure is recorded and withholds the epochs of its CTX (R340). -/
def State.writeback (s : State) (cl line : Nat) (data : BitVec 512) (ctx : Nat) : State :=
  match s.store (whoLine cl ctx) (64 * line) (leBytes 64 data.toNat) with
  | (.ok _, t) => t
  | (.error e, _) =>
    let s := (coresOf cl).foldl (fun a c => a.updCoreOf c (fun k => k.gxerr ctx line (gxCode e.1))) s
    (s.withholdCtx ctx).fault { epoch := s.ctxEpoch ctx, sev := 1, kind := 5, unit := cl, cls := gxCode e.1, ctx := some ctx,
                                node := clusterDie cl, addr := 64 * line }

/-! ## Directory (R341, R343) -/

def DirEnt.init : DirEnt := { owner := none, sharers := [], used := 0 }

def State.dirOf (s : State) (line : Nat) : DirEnt := (Tab.look s.core.dir line).getD DirEnt.init

/-- Die whose HBM or Granary holds a line. -/
def homeDie (line : Nat) : Nat := match placeOf (64 * line) with | .hbm k _ => k | .gran k _ _ => k | _ => 4

def dirCapacity : Nat := 262144

/-! ## Messages (R342) -/

/-- A message in flight, with the GEN of the node that sends it (R410). -/
def State.cohSend (s : State) (m : CohMsg) : State :=
  s.mapCore (fun x => { x with msgs := x.msgs ++ [{ m with gen := Tab.get 0#8 s.flt.gens m.src }] })

/-- A message of the response channel from a node. -/
def cohMsg (kind src dest line : Nat) : CohMsg :=
  { kind := kind, dest := dest, line := line, data := 0, own := false, req := 0, src := src, sc := 4, ctx := 0, part := 0, gen := 0#8 }

def State.lineData (s : State) (line : Nat) : BitVec 512 := BitVec.ofNat 512 (leNat (s.bytesAt (64 * line) 64))

/-- The home sends the line to a cluster. -/
def State.sendData (s : State) (cl line : Nat) (own : Bool) : State :=
  s.cohSend { cohMsg 0x10 (homeDie line) cl line with data := s.lineData line, own := own }

def State.setTxn (s : State) (line : Nat) (t : CohTxn) : State :=
  s.mapCore (fun x => { x with txns := Tab.put x.txns line t })

/-- Evict the least recently used entry of a die: INV goes to every holder, whose modified data is written back when it arrives, and
requests for the line wait for the last ACK (R343). -/
def State.dirEvict (s : State) (die : Nat) : State :=
  let l := s.core.dir.filter (fun e => homeDie e.1 = die && (Tab.look s.core.txns e.1).isNone)
  match l with
  | [] => s
  | e :: r =>
    let v := r.foldl (fun a b => if b.2.used < a.2.used then b else a) e
    let holders := v.2.sharers ++ v.2.owner.toList
    let s := holders.foldl (fun a cl => a.cohSend (cohMsg 0x0A die cl v.1)) s
    let s := if holders = [] then s else s.setTxn v.1 { req := none, acks := holders.length, put := false, waiting := [] }
    s.mapCore (fun x => { x with dir := Tab.drop (· == v.1) x.dir })

/-- Change the directory entry of a line; an entry without a holder is not kept, and a new one that is takes the place of the least
recently used where the directory is full. -/
def State.updDir (s : State) (line : Nat) (f : DirEnt → DirEnt) : State :=
  let d := homeDie line
  let e := { f (s.dirOf line) with used := s.core.clock + 1 }
  let keep := !(e.owner.isNone && e.sharers = [])
  let full := keep && (Tab.look s.core.dir line).isNone &&
    decide (dirCapacity ≤ (s.core.dir.filter (fun e => homeDie e.1 = d)).length)
  let s := if full then s.dirEvict d else s
  s.mapCore (fun x => { x with clock := x.clock + 1, dir := if keep then Tab.put x.dir line e else Tab.drop (· == line) x.dir })

/-! ## The home (R342) -/

/-- A PUT of a cluster for a line is in flight. -/
def State.putComes (s : State) (cl line : Nat) : Bool :=
  s.core.msgs.any (fun m => (m.kind = 0x04 || m.kind = 0x05) && m.src = clusterDie cl && m.req = cl && m.line = line)

/-- Serve a request at the home: forwards, invalidations or the line itself; one that meets a PUT in flight from its own cluster
is served after the PUT. -/
def State.cohServe (s : State) (line : Nat) (q : CohReq) (waiting : List CohReq) : State :=
  let cl := q.core / 4
  let d := s.dirOf line
  let h := homeDie line
  let up := q.upgrade && d.sharers.contains cl
  let others := d.sharers.filter (· ≠ cl)
  let t : CohTxn := { req := some { q with upgrade := up }, acks := if q.own then others.length else 0, put := false, waiting := waiting }
  if s.putComes cl line then s.setTxn line { t with req := some q, put := true }
  else
    let s := s.setTxn line t
    match d.owner with
    | some o =>
      if o = cl then s.sendData cl line true
      else s.cohSend { cohMsg (if q.own then 0x09 else 0x08) h o line with req := cl }
    | none =>
      if q.own then
        if others = [] then (if up then s.cohSend { cohMsg 0x11 h cl line with req := 2 } else s.sendData cl line true)
        else others.foldl (fun a c => a.cohSend (cohMsg 0x0A h c line)) s
      else s.sendData cl line false

/-- Bytes of a line with a store put in. -/
def putBytes (data : BitVec 512) (off : Nat) (bs : List Byte) : BitVec 512 :=
  let l := leBytes 64 data.toNat
  BitVec.ofNat 512 (leNat (l.take off ++ (bs.take (64 - off)) ++ l.drop (off + (bs.take (64 - off)).length)))

/-- A line after what a core does with it. -/
def storeIn (data : BitVec 512) : CoreAcc → BitVec 512
  | .load _ => data
  | .store st => putBytes data st.off.toNat st.data
  | .amo op off size x y =>
    let old := leNat (((leBytes 64 data.toNat).drop off).take size)
    putBytes data off (leBytes size (atomicNew op (8 * size) old x.toNat y.toNat))

/-- What core c does with a line its cluster now holds: an L1 fill; a load-reserved takes the reservation; a store changes the line
and loses the reservations of the cluster's other cores; the instruction retires. -/
def State.coreDone (s : State) (c line : Nat) (a : CoreAcc) : State :=
  let s := s.updCoreOf c (fun k => k.fill (match a with | .load .fetch => true | _ => false) line)
  let s := match a with
    | .load .lr => s.updCoreOf c (fun k => { k with resv := some line })
    | .store _ | .amo _ _ _ _ _ =>
      let s := match s.lineAt (c / 4) line with
        | some l => s.setLine (c / 4) line { l with data := storeIn l.data a }
        | none => s
      (coresOf (c / 4)).foldl (fun b d =>
        if (b.coreOf d).resv = some line then
          let e := b.updCoreOf d (fun k => { k with resv := none, waitBeat := none })
          if (b.coreOf d).waitBeat.isSome then e.retireIns d else e
        else b) s
    | .load _ => s
  match a with | .load .fetch => s | _ => s.retireIns c

def isStore : CoreAcc → Bool
  | .load _ => false
  | _ => true

/-- A request leaves its cluster: a line it may not cache or reach is a precise access fault (R337, R338, R343); else it travels to
the home, where it waits behind one being served. -/
def State.cohLeave (s : State) (q : CohReq) (line : Nat) : State :=
  let c := q.core
  let st := s.judge (s.whoCore c) (64 * line)
  let main := match placeOf (64 * line) with | .hbm _ _ => true | .gran _ _ _ => true | _ => false
  let s := if homeDie line = c / 8 then s else s.hpmCount c 4
  if st ≠ .ok || !main then (s.hpmCount c 5).coreTrap c .access (isStore q.acc) (64 * line)
  else match Tab.look s.core.txns line with
    | some t => s.setTxn line { t with waiting := t.waiting ++ [q] }
    | none => s.cohServe line q []

/-- A request of core c for a line: one that its cluster holds as it needs it is a hit. A core without a context tag takes an access
fault on what a context or the Granary holds, cached or not (R336). -/
def State.cohRequest (s : State) (q : CohReq) (line : Nat) : State :=
  if s.barred q.core (64 * line) then s.coreTrap q.core .access (isStore q.acc) (64 * line)
  else
  let s := if q.acc = .load .fetch ∨ line ∈ (s.coreOf q.core).l1d then s else s.hpmCount q.core 1
  match s.lineAt (q.core / 4) line with
  | some l => if l.own || !q.own then s.coreDone q.core line q.acc else s.cohLeave q line
  | none => (s.hpmCount q.core 2).cohLeave q line

/-- The transaction of a line is done; the home serves the next that waits. -/
def State.cohNext (s : State) (line : Nat) : State :=
  match Tab.look s.core.txns line with
  | none => s
  | some t =>
    let s := s.mapCore (fun x => { x with txns := Tab.drop (· == line) x.txns })
    match t.waiting with
    | [] => s
    | q :: r => s.cohServe line q r

/-- Take the first message in flight that satisfies `p` out of the list. -/
def State.cohTake (s : State) (p : CohMsg → Bool) : State := s.mapCore (fun x => { x with msgs := x.msgs.eraseP p })

def isMsg (kind dest line : Nat) (m : CohMsg) : Bool := m.kind = kind && m.dest = dest && m.line = line

/-- The home has the acknowledgements it waits for: it grants the line, or, where an evicted entry's holders have answered, serves
the next request. -/
def State.cohGrant (s : State) (line : Nat) : State :=
  match Tab.look s.core.txns line with
  | none => s
  | some t =>
    match t.req with
    | none => s.cohNext line
    | some q =>
      if q.upgrade then s.cohSend { cohMsg 0x11 (homeDie line) (q.core / 4) line with req := 2 } else s.sendData (q.core / 4) line true

/-- One invalidation of the transaction is done. -/
def State.cohAcked (s : State) (line : Nat) : State :=
  match Tab.look s.core.txns line with
  | none => s
  | some t =>
    if t.acks = 0 then s
    else
      let s := s.setTxn line { t with acks := t.acks - 1 }
      if t.acks = 1 then s.cohGrant line else s

/-- The request that waits for a PUT is served once it has come. -/
def State.cohAfterPut (s : State) (line : Nat) : State :=
  match Tab.look s.core.txns line with
  | some t =>
    match t.put, t.req with
    | true, some q => (s.mapCore (fun x => { x with txns := Tab.drop (· == line) x.txns })).cohServe line q t.waiting
    | _, _ => s
  | none => s

/-- PUT of a cluster reaches the home; a forward or invalidation on its way to that cluster is answered by the home. -/
def State.cohPut (s : State) (cl line : Nat) (data : Option (BitVec 512)) : State :=
  let d := s.dirOf line
  let sent := s.core.msgs.find? (fun m => (m.kind = 0x04 || m.kind = 0x05) && m.req = cl && m.line = line)
  let ctx := match sent with | some m => m.ctx | none => match s.lineAt cl line with | some l => l.ctx | none => 0
  let data := match sent with | some m => (if m.kind = 0x04 then some m.data else none) | none => data
  let s := match sent with | some m => s.cohTake (· == m) | none => s
  let s := match data with
    | some x => if d.owner = some cl then s.writeback cl line x ctx else s
    | none => s
  let s := (s.dropLine cl line).updDir line (fun e =>
    { e with owner := if e.owner = some cl then none else e.owner, sharers := e.sharers.filter (· ≠ cl) })
  let fwd := s.core.msgs.find? (fun m => (m.kind = 0x08 || m.kind = 0x09) && m.dest = cl && m.line = line)
  let s := match fwd with
    | some m => (s.cohTake (· == m)).sendData m.req line (m.kind = 0x09)
    | none => s
  let s := if s.core.msgs.any (isMsg 0x0A cl line) then (s.cohTake (isMsg 0x0A cl line)).cohAcked line else s
  (s.cohSend { cohMsg 0x11 (homeDie line) cl line with req := 1 }).cohAfterPut line

/-- A forward reaches the owner: it sends its data to the requester; under FWD_S its dirty data also goes home and it
keeps a shared copy, under FWD_M its copy goes. -/
def State.cohFwd (s : State) (owner req line : Nat) (own : Bool) : State :=
  let s := s.cohTake (fun m => m.kind = (if own then 0x09 else 0x08) && m.dest = owner && m.line = line)
  let s := (coresOf owner).foldl (fun a c => a.hpmCount c 3) s
  match s.lineAt owner line with
  | none => s
  | some l =>
    let s := s.cohSend { cohMsg 0x10 (clusterDie owner) req line with data := l.data, own := own }
    if own then (s.dropLine owner line).updDir line (fun e => { e with owner := some req, sharers := [] })
    else
      let s := if l.own then s.writeback owner line l.data l.ctx else s
      (s.setLine owner line { l with own := false }).updDir line (fun e =>
        { e with owner := none, sharers := e.sharers.filter (· ≠ owner) ++ [owner] })

/-- INV reaches a sharer: its copy goes and it replies ACK. -/
def State.cohInv (s : State) (cl line : Nat) : State :=
  let s := s.cohTake (isMsg 0x0A cl line)
  let s := match s.lineAt cl line with
    | some l => if l.own then s.writeback cl line l.data l.ctx else s
    | none => s
  let s := (s.dropLine cl line).updDir line (fun e =>
    { owner := if e.owner = some cl then none else e.owner, sharers := e.sharers.filter (· ≠ cl), used := e.used })
  s.cohSend (cohMsg 0x11 (clusterDie cl) cl line)

/-- A full L2 makes room: the line it gives up leaves the cluster, and its PUT travels to the home. Which line goes is stated
nowhere: a free choice. -/
def State.l2Evict (s : State) (cl : Nat) : State :=
  let mine := s.core.lines.filter (fun e => e.1 / 2 ^ 34 = cl)
  if mine.length < l2Lines then s
  else
    let w := s.freeWord
    match mine[w.1.toNat % mine.length]? with
    | none => s
    | some e =>
      let line := e.1 % 2 ^ 34
      (w.2.cohSend { cohMsg (if e.2.own then 0x04 else 0x05) (clusterDie cl) cl line with data := e.2.data, own := e.2.own, req := cl,
                                                                                          ctx := e.2.ctx }).dropLine cl line

/-- DATA reaches the requester. -/
def State.cohData (s : State) (cl line : Nat) (data : BitVec 512) (own : Bool) : State :=
  let s := s.cohTake (fun m => isMsg 0x10 cl line m && m.data = data && m.own = own)
  let q := match Tab.look s.core.txns line with | some t => t.req.filter (fun (r : CohReq) => decide (r.core / 4 = cl)) | none => none
  let k := s.coreOf (match q with | some r => r.core | none => 4 * cl)
  let s := if (s.lineAt cl line).isSome then s else s.l2Evict cl
  let s := s.setLine cl line { own := own, data := data, ctx := if k.valid then k.ctx.toNat else 0 }
  let s := s.updDir line (fun e =>
    if own then { e with owner := some cl, sharers := [] }
    else { e with owner := if e.owner = some cl then none else e.owner, sharers := e.sharers.filter (· ≠ cl) ++ [cl] })
  match q with
  | some r => (s.coreDone r.core line r.acc).cohNext line
  | none => s

/-- ACK: of an invalidation at the home, or of a PUT or an UPGRADE at the cluster. -/
def State.cohAck (s : State) (cl line : Nat) : State :=
  match s.core.msgs.find? (isMsg 0x11 cl line) with
  | none => s.cohAcked line
  | some m =>
    let s := s.cohTake (· == m)
    match m.req with
    | 0 => s.cohAcked line
    | 1 => s
    | _ =>
      let s := match s.lineAt cl line with | some l => s.setLine cl line { l with own := true } | none => s
      let s := s.updDir line (fun e => { e with owner := some cl, sharers := [] })
      let s := match (Tab.look s.core.txns line).bind (·.req) with | some q => s.coreDone q.core line q.acc | none => s
      s.cohNext line

/-- A message that the fabric delivers: one whose GEN is no longer its node's is dropped as chaff (R410). -/
def State.cohArrive (s : State) (p : CohMsg → Bool) (dest : Nat) (f : State → State) : State :=
  match s.core.msgs.find? p with
  | some m => if m.gen ≠ Tab.get 0#8 s.flt.gens m.src then (s.cohTake p).chaff dest else f s
  | none => f s

/-! ## Cache-block operations (R338, R339) -/

/-- Write every dirty copy of a line back; every cluster keeps at most a shared copy. -/
def State.cboWrite (s : State) (line : Nat) : State :=
  (List.range 8).foldl (fun a cl =>
    match a.lineAt cl line with
    | some l =>
      if l.own then
        ((a.writeback cl line l.data l.ctx).setLine cl line { l with own := false }).updDir line (fun e =>
          { e with owner := none, sharers := e.sharers.filter (· ≠ cl) ++ [cl] })
      else a
    | none => a) s

/-- Every cluster's copy of a line goes. -/
def State.cboDrop (s : State) (line : Nat) : State :=
  ((List.range 8).foldl (fun a cl => a.dropLine cl line) s).updDir line (fun e => { e with owner := none, sharers := [] })

/-- A cache-block operation of core c: an access fault where the core may not reach the line, else its effect, and it retires. -/
def State.cbo (s : State) (c a : Nat) (f : State → State) : State :=
  let st := s.judge (s.whoCore c) a
  if s.barred c a || st ≠ .ok then (s.hpmCount c 5).coreTrap c .access true a else (f s).retireIns c

/-! ## Commands -/

/-- GET_S. -/
def execGetS (c : Fin 32) (l : LineLoad) (s : State) : Host.Outcome State Fault Refusal :=
  .next (s.cohRequest { core := c, own := false, upgrade := false, acc := .load l.load } l.line.toNat)

/-- GET_M. -/
def execGetM (c : Fin 32) (l : LineStore) (s : State) : Host.Outcome State Fault Refusal :=
  .next (s.cohRequest { core := c, own := true, upgrade := false, acc := .store l.store } l.line.toNat)

/-- UPGRADE. -/
def execUpgrade (c : Fin 32) (l : LineStore) (s : State) : Host.Outcome State Fault Refusal :=
  .next (s.cohRequest { core := c, own := true, upgrade := true, acc := .store l.store } l.line.toNat)

/-- PUT_M. -/
def execPutM (cl : Fin 8) (line : BitVec 34) (data : BitVec 512) (s : State) : Host.Outcome State Fault Refusal :=
  .next ((s.cohPut cl line.toNat (some data)).settle)

/-- PUT_S. -/
def execPutS (cl : Fin 8) (line : BitVec 34) (s : State) : Host.Outcome State Fault Refusal :=
  .next (s.cohPut cl line.toNat none)

/-- FWD_S. -/
def execFwdS (owner requester : Fin 8) (line : BitVec 34) (s : State) : Host.Outcome State Fault Refusal :=
  .next ((s.cohArrive (isMsg 0x08 owner line.toNat) (clusterDie owner) (fun t => t.cohFwd owner requester line.toNat false)).settle)

/-- FWD_M. -/
def execFwdM (owner requester : Fin 8) (line : BitVec 34) (s : State) : Host.Outcome State Fault Refusal :=
  .next (s.cohArrive (isMsg 0x09 owner line.toNat) (clusterDie owner) (fun t => t.cohFwd owner requester line.toNat true))

/-- INV. -/
def execInv (cl : Fin 8) (line : BitVec 34) (s : State) : Host.Outcome State Fault Refusal :=
  .next ((s.cohArrive (isMsg 0x0A cl line.toNat) (clusterDie cl) (fun t => t.cohInv cl line.toNat)).settle)

/-- COHERENCE_DATA. -/
def execCoherenceData (cl : Fin 8) (line : BitVec 34) (data : BitVec 512) (own : Bool) (s : State) :
    Host.Outcome State Fault Refusal :=
  .next (s.cohArrive (fun m => isMsg 0x10 cl line.toNat m && m.data = data && m.own = own) (clusterDie cl) (fun t => t.cohData cl line.toNat data own))

/-- COHERENCE_ACK. -/
def execCoherenceAck (cl : Fin 8) (line : BitVec 34) (s : State) : Host.Outcome State Fault Refusal :=
  .next (s.cohArrive (isMsg 0x11 cl line.toNat) (clusterDie cl) (fun t => t.cohAck cl line.toNat))

/-- CBO_CLEAN. -/
def execCboClean (c : Fin 32) (addr : BitVec 40) (s : State) : Host.Outcome State Fault Refusal :=
  .next ((s.cbo c addr.toNat (fun t => t.cboWrite (addr.toNat / 64))).settle)

/-- CBO_FLUSH. -/
def execCboFlush (c : Fin 32) (addr : BitVec 40) (s : State) : Host.Outcome State Fault Refusal :=
  .next ((s.cbo c addr.toNat (fun t => (t.cboWrite (addr.toNat / 64)).cboDrop (addr.toNat / 64))).settle)

/-- CBO_INVAL. -/
def execCboInval (c : Fin 32) (addr : BitVec 40) (s : State) : Host.Outcome State Fault Refusal :=
  .next (s.cbo c addr.toNat (fun t => t.cboDrop (addr.toNat / 64)))

/-- A write of GXCTX (Table 17-2): PART and SC follow from the context, VALID says whether it is present. -/
def Core.tag (k : Core) (c : BitVec 6) (x : Ctx) : Core :=
  { k with ctx := c, valid := decide (x.state ≠ 0), sc := if x.state ≠ 0 then BitVec.ofNat 2 x.sc else 3#2,
           part := if x.state ≠ 0 then BitVec.ofNat 3 x.part else 0#3 }

/-- GXCTX_WRITE. -/
def execGxctxWrite (c : Fin 32) (v : BitVec 64) (s : State) : Host.Outcome State Fault Refusal :=
  let x := v.extractLsb' 0 6
  .next ((s.updCoreOf c (fun k => k.tag x (s.ctxOf x.toNat))).retireIns c)

/-- GXERR_CLEAR: VALID is cleared by writing 1 to it. -/
def execGxerrClear (c : Fin 32) (v : BitVec 64) (s : State) : Host.Outcome State Fault Refusal :=
  .next ((s.updCoreOf c (fun k => { k with errValid := k.errValid && !v.getLsbD 63 })).retireIns c)

/-- MCYCLE_WRITE sets the offset to the replica beat counter of the die. -/
def execMcycleWrite (c : Fin 32) (v : BitVec 64) (s : State) : Host.Outcome State Fault Refusal :=
  .next ((s.updCoreOf c (fun k => { k with cycleOff := v - BitVec.ofNat 64 (s.beat (c.val / 8)) })).retireIns c)

/-- WFI executes as a no-operation (Table 17-1). -/
def execWfi (c : Fin 32) (s : State) : Host.Outcome State Fault Refusal := .next (s.retireIns c)

/-- A WRS returns at once without a reservation, else when the reservation is lost or after `n` beats (Table 17-1). -/
def State.waitResv (s : State) (c n : Nat) : State :=
  if (s.coreOf c).resv.isSome then s.updCoreOf c (fun k => { k with waitBeat := some (s.beat (c / 8) + n) })
  else s.retireIns c

/-- WRS_NTO. -/
def execWrsNto (c : Fin 32) (s : State) : Host.Outcome State Fault Refusal := .next (s.waitResv c 4096)

/-- WRS_STO. -/
def execWrsSto (c : Fin 32) (s : State) : Host.Outcome State Fault Refusal := .next (s.waitResv c 64)

/-- Waits whose beats have passed return. -/
def State.endWaits (s : State) : State :=
  forUpto 32 (fun c a =>
    match (a.coreOf c).waitBeat with
    | some b => if b ≤ a.beat (c / 8) then (a.updCoreOf c (fun k => { k with waitBeat := none })).retireIns c else a
    | none => a) s

end Sys2Proof.Machine
end

