-- ==== Sys2Proof/Machine/PlanMath.lean ====
section
/-! DEFINITION. Cost maps, headings, the trajectory cost and the Riddle (R266, R267, R274, R278, R280, R281). -/

namespace Sys2Proof.Machine

/-! ## FP32 helpers -/

/-- A point or a vector in the plane. -/
abbrev P2 := F32 × F32

def f32OfNat (n : Nat) : F32 := toF32 (fvOfInt n)
def f32OfInt (n : Int) : F32 := toF32 (fvOfInt n)
/-- FP32 comparisons; false where an operand is NaN. -/
def f32Lt (a b : F32) : Bool := fvCmp (f32Val a) (f32Val b) == some .lt
def f32Le (a b : F32) : Bool := f32Lt a b || fvCmp (f32Val a) (f32Val b) == some .eq
def f32Zero (a : F32) : Bool := fvIsZero (f32Val a)
/-- floor of an FP32 value, and what remains. -/
def f32Floor (a : F32) : Int := fvFloor (f32Val a)
def f32Frac (a : F32) : F32 := toF32 (fvAdd (f32Val a) (fvOfInt (-(f32Floor a))))
/-- An FP32 field of a byte list. -/
def f32At (b : List Byte) (o : Nat) : F32 := BitVec.ofNat 32 (fld b o 4)
def f32Bytes (x : F32) : List Byte := leBytes 4 x.toNat
/-- Clamp to [-m, m]; a NaN stays. -/
def f32Clamp (x m : F32) : F32 := if f32Lt x (f32Neg m) then f32Neg m else if f32Lt m x then m else x

/-! ## Maps (R266, R267) -/

/-- A layer record (Table 13-2). -/
structure Layer where
  addr : Nat
  type : Nat
  collide : Bool
  weight : F32
  t0 : Nat
  tlen : Nat
  deriving DecidableEq, Repr

/-- A map header (Table 13-1) at an address. -/
structure MapHdr where
  base : Nat
  cellMm : Nat
  ox : F32
  oy : F32
  layers : List Layer
  deriving DecidableEq, Repr

def layerOf (b : List Byte) : Layer :=
  { addr := fld b 0 5, type := fld b 5 1, collide := fld b 6 1 % 2 = 1, weight := f32At b 8, t0 := fld b 12 2, tlen := fld b 14 2 }

def mapHdrOf (base : Nat) (b : List Byte) : MapHdr :=
  { base := base, cellMm := fld b 0 2, ox := f32At b 4, oy := f32At b 8,
    layers := (List.range (min 16 (fld b 2 1))).map (fun l => layerOf (sub b (64 + 16 * l) 16)) }

/-- cell and inv_c, each rounded to nearest even. -/
def MapHdr.cell (m : MapHdr) : F32 := toF32 (fvDiv (fvOfInt m.cellMm) 1000)
def MapHdr.invC (m : MapHdr) : F32 := toF32 (fvDiv (fvOfInt 1000) (max 1 m.cellMm))

/-- Header and layer records meet Tables 13-1 and 13-2. -/
def mapHdrOk (b : List Byte) : Bool :=
  let m := mapHdrOf 0 b
  let inGran := fun a => match placeOf a with | .gran _ _ _ => true | _ => false
  decide (50 ≤ m.cellMm) && decide (m.cellMm ≤ 400) && decide (1 ≤ fld b 2 1) && decide (fld b 2 1 ≤ 16) &&
    f32Finite m.ox && f32Finite m.oy &&
    m.layers.all (fun l =>
      decide (l.addr % 64 = 0) && inGran l.addr && inGran (l.addr + 0xFFFFF) && decide (1 ≤ l.type) && decide (l.type ≤ 3) &&
      f32Finite l.weight && !f32Lt l.weight 0#32 &&
      (if l.type = 3 then decide (1 ≤ l.tlen) else decide (l.t0 = 0) && decide (l.tlen = 0)))

/-- A layer is active at time t. -/
def Layer.active (l : Layer) (t : F32) : Bool :=
  if l.type = 3 then
    let x := f32Mul t 0x447A0000#32
    let ms := f32Floor x
    !(f32Finite x == false && !f32IsNaN x) && decide ((l.t0 : Int) ≤ ms) && decide (ms < (l.t0 + l.tlen : Nat))
  else true

/-- A cell that lies on the map. -/
def onMap (r c : Int) : Bool := decide (0 ≤ r) && decide (r < 1024) && decide (0 ≤ c) && decide (c < 1024)

/-- The transfer entry of cell (r, c) in layer l; map and layer accesses carry WHERE 0x04 (Table 13-12). -/
def mapEntry (s : State) (w : Who) (m : MapHdr) (i : Nat) (l : Layer) (r c : Int) : Rd Nat := do
  let v ← (if onMap r c then (rdBytes s w 4 (l.addr + r.toNat * 1024 + c.toNat) 1).map leNat else pure 255)
  (rdBytes s w 4 (m.base + 512 + 512 * i + 2 * v) 2).map leNat

/-- The combined cost of a cell. -/
def mapCost (s : State) (w : Who) (m : MapHdr) (t : F32) (r c : Int) : Rd F32 :=
  m.layers.zipIdx.foldlM (fun acc li => do
    if li.1.active t then
      let v ← mapEntry s w m li.2 li.1 r c
      pure (f32Fma li.1.weight (f32OfNat v) acc)
    else pure acc) 0#32

/-! ## Plan header and headings (R273, R274) -/

/-- A disc of the footprint. -/
structure Disc where
  offL : F32
  offT : F32
  r : F32
  deriving DecidableEq, Repr

/-- A plan header (Table 13-4). -/
structure Plan where
  nCand : Nat
  discs : List Disc
  nDisc : Nat
  sub : Nat
  dt : F32
  x0 : F32
  y0 : F32
  hx0 : F32
  hy0 : F32
  wMap : F32
  wSmooth : F32
  alpha0 : F32
  alphaMax : F32
  stepMax : F32
  prev : Nat
  lib : Nat
  deriving DecidableEq, Repr

def planOf (b : List Byte) : Plan :=
  { nCand := fld b 0 1, nDisc := fld b 1 1, sub := fld b 2 1, dt := f32At b 4, x0 := f32At b 8, y0 := f32At b 12,
    hx0 := f32At b 16, hy0 := f32At b 20, wMap := f32At b 24, wSmooth := f32At b 28, alpha0 := f32At b 32,
    alphaMax := f32At b 36, stepMax := f32At b 40, prev := fld b 48 5, lib := fld b 56 5,
    discs := (List.range (min 16 (fld b 1 1))).map (fun d => ⟨f32At b (64 + 12 * d), f32At b (68 + 12 * d), f32At b (72 + 12 * d)⟩) }

/-- First failing field of a plan header, as its byte offset (Table 13-4). -/
def planBad (p : Plan) : Option Nat :=
  let nonNeg := fun x => f32Finite x && !f32Lt x 0#32
  let h := fvAdd (fvAdd (fvMul (f32Val p.hx0) (f32Val p.hx0)) (fvMul (f32Val p.hy0) (f32Val p.hy0))) (fvOfInt (-1))
  let hOk := match fvCmp (fvAbs h) (.fin false 1 (-10)) with | some .gt => false | none => false | _ => true
  let small := fun x => f32Le (f32Abs x) 0x41000000#32
  firstFail ([(decide (1 ≤ p.nCand) && decide (p.nCand ≤ 64), 0), (decide (1 ≤ p.nDisc) && decide (p.nDisc ≤ 16), 1),
    (decide (1 ≤ p.sub) && decide (p.sub ≤ 4), 2), (f32Le 0x3CA3D70A#32 p.dt && f32Le p.dt 0x3F000000#32, 4),
    (f32Finite p.x0 && f32Finite p.y0, 8), (f32Finite p.hx0 && f32Finite p.hy0 && hOk, 16), (nonNeg p.wMap, 24),
    (nonNeg p.wSmooth, 28), (f32Lt 0#32 p.alpha0, 32), (f32Finite p.alphaMax && f32Le p.alpha0 p.alphaMax, 36),
    (f32Lt 0#32 p.stepMax && f32Le p.stepMax 0x40000000#32, 40)] ++
    p.discs.zipIdx.map (fun d =>
      (small d.1.offL && small d.1.offT && f32Lt 0#32 d.1.r && f32Le d.1.r 0x41000000#32, 64 + 12 * d.2)))

/-- A vector scaled to unit length, or the other one where its square is zero or not finite. -/
def normOr (d other : P2) : P2 :=
  let n2 := f32Fma d.1 d.1 (f32Mul d.2 d.2)
  if f32Zero n2 || !f32Finite n2 then other
  else
    let s := f32Rsqrt n2
    (f32Mul d.1 s, f32Mul d.2 s)

def p2Sub (a b : P2) : P2 := (f32Sub a.1 b.1, f32Sub a.2 b.2)

/-- Headings of knots i, i+1, ... from the previous heading. -/
def headingsFrom (p : List P2) (last : Nat) : Nat → Nat → P2 → List P2
  | 0, _, _ => []
  | n + 1, i, h =>
    let a := if i < last then i + 1 else last
    let b := if i < last then i - 1 else last - 1
    let h' := normOr (p2Sub (p.getD a (0, 0)) (p.getD b (0, 0))) h
    h' :: headingsFrom p last n (i + 1) h'

/-- The heading rule of R274 over `n` knots. -/
def headings (h0 : P2) (p : List P2) : List P2 := h0 :: headingsFrom p (p.length - 1) (p.length - 1) 1 h0

/-- A disc's centre at a position with a heading. -/
def discCentre (q h : P2) (d : Disc) : P2 :=
  (f32Fma d.offT (f32Neg h.2) (f32Fma d.offL h.1 q.1), f32Fma d.offT h.1 (f32Fma d.offL h.2 q.2))

/-! ## Cost of a candidate (R278) -/

/-- Bilinear value and gradient of the map cost at a point. -/
def mapSample (s : State) (w : Who) (m : MapHdr) (t : F32) (q : P2) : Rd (F32 × F32 × F32) := do
  let ic := m.invC
  let u := f32Sub (f32Mul (f32Sub q.1 m.ox) ic) 0x3F000000#32
  let v := f32Sub (f32Mul (f32Sub q.2 m.oy) ic) 0x3F000000#32
  let c0 := f32Floor u
  let r0 := f32Floor v
  let fu := f32Frac u
  let fv := f32Frac v
  let k00 ← mapCost s w m t r0 c0
  let k01 ← mapCost s w m t r0 (c0 + 1)
  let k10 ← mapCost s w m t (r0 + 1) c0
  let k11 ← mapCost s w m t (r0 + 1) (c0 + 1)
  let d0 := f32Sub k01 k00
  let d1 := f32Sub k11 k10
  let top := f32Fma fu d0 k00
  let bot := f32Fma fu d1 k10
  pure (f32Fma fv (f32Sub bot top) top, f32Mul ic (f32Fma fv (f32Sub d1 d0) d0), f32Mul ic (f32Sub bot top))

/-- Smoothness sum and its gradient; `gs` starts as zeros. -/
def smoothTerms (p : List P2) : F32 × List P2 :=
  (List.range (p.length - 2)).foldl (fun (a : F32 × List P2) k =>
    let i := k + 1
    let at' := fun j => p.getD j (0, 0)
    let two := 0x40000000#32
    let ax := f32Add (f32Sub (at' (i - 1)).1 (f32Mul two (at' i).1)) (at' (i + 1)).1
    let ay := f32Add (f32Sub (at' (i - 1)).2 (f32Mul two (at' i).2)) (at' (i + 1)).2
    let add := fun (g : List P2) j (c : F32) => g.set j (f32Fma c ax (g.getD j (0, 0)).1, f32Fma c ay (g.getD j (0, 0)).2)
    (f32Add a.1 (f32Fma ax ax (f32Mul ay ay)), add (add (add a.2 (i - 1) two) i 0xC0800000#32) (i + 1) two))
    (0#32, p.map (fun _ => (0#32, 0#32)))

/-- eval of R278: J and its gradient. -/
def planEval (s : State) (w : Who) (m : MapHdr) (pl : Plan) (p : List P2) : Rd (F32 × List P2) := do
  let h := headings (pl.hx0, pl.hy0) p
  let knots ← (List.range p.length).foldlM (fun (a : F32 × List P2) i => do
    let t := f32Mul (f32OfNat i) pl.dt
    let r ← pl.discs.foldlM (fun (b : F32 × P2) d => do
      let x ← mapSample s w m t (discCentre (p.getD i (0, 0)) (h.getD i (0, 0)) d)
      pure (f32Add b.1 x.1, (f32Add b.2.1 x.2.1, f32Add b.2.2 x.2.2))) (a.1, (0#32, 0#32))
    pure (r.1, a.2 ++ [r.2])) (0#32, [])
  let sm := smoothTerms p
  let j := f32Fma pl.wSmooth sm.1 (f32Mul pl.wMap knots.1)
  pure (j, List.zipWith (fun gs gm => (f32Fma pl.wSmooth gs.1 (f32Mul pl.wMap gm.1), f32Fma pl.wSmooth gs.2 (f32Mul pl.wMap gm.2)))
    sm.2 knots.2)

/-! ## The Riddle (R280, R281) -/

/-- How a cell is occupied at a time: none, by a layer, or because it lies off the map. -/
def occupied (s : State) (w : Who) (m : MapHdr) (t : F32) (r c : Int) : Rd (Option Bool) :=
  if !onMap r c then pure (some true)
  else do
    let hit ← m.layers.zipIdx.foldlM (fun (a : Bool) li => do
      if a || !li.1.collide || !li.1.active t then pure a
      else (mapEntry s w m li.2 li.1 r c).map (· == 0xFFFF)) false
    pure (if hit then some false else none)

/-- hit_disc of R280: whether the disc hits, and whether the first cell that it hits lies off the map. -/
def hitDisc (s : State) (w : Who) (m : MapHdr) (t : F32) (q : P2) (rad : F32) : Rd (Option Bool) := do
  let ic := m.invC
  let cell := m.cell
  let lo := fun x o => f32Floor (f32Mul (f32Sub (f32Sub x rad) o) ic)
  let hi := fun x o => f32Floor (f32Mul (f32Sub (f32Add x rad) o) ic)
  let cLo := lo q.1 m.ox
  let rLo := lo q.2 m.oy
  let nc := (hi q.1 m.ox - cLo + 1).toNat
  let nr := (hi q.2 m.oy - rLo + 1).toNat
  (List.range (nr * nc)).foldlM (fun (a : Option Bool) i => do
    if a.isSome then pure a
    else
      let r := rLo + (i / nc : Nat)
      let c := cLo + (i % nc : Nat)
      let o ← occupied s w m t r c
      match o with
      | none => pure none
      | some off =>
        let edge := fun (k : Int) org => f32Fma (f32OfInt k) cell org
        let dist := fun k x org => f32Max (f32Max (f32Sub (edge k org) x) (f32Sub x (edge (k + 1) org))) 0#32
        let dx := dist c q.1 m.ox
        let dy := dist r q.2 m.oy
        pure (if f32Le (f32Fma dx dx (f32Mul dy dy)) (f32Mul rad rad) then some off else none)) none

/-- A timed pose of a path to be checked. -/
structure Pose where
  p : P2
  h : P2
  t : F32
  deriving DecidableEq, Repr

/-- The first hit of a path: list entry, sub-step, disc, and off-map. -/
structure Hit where
  knot : Nat
  sub : Nat
  disc : Nat
  off : Bool
  deriving DecidableEq, Repr

/-- The position, heading and time at sub-step s of `sub` after entry i. `tAt i w` gives the time. -/
def poseAt (l : List Pose) (sub i k : Nat) (tAt : Nat → F32 → F32) : Pose :=
  let z : Pose := ⟨(0, 0), (0, 0), 0⟩
  let a := l.getD i z
  let b := l.getD (i + 1) z
  let w := toF32 (fvDiv (fvOfInt k) (max 1 sub))
  let d := p2Sub b.h a.h
  { p := if k = 0 then a.p else (f32Fma w (f32Sub b.p.1 a.p.1) a.p.1, f32Fma w (f32Sub b.p.2 a.p.2) a.p.2),
    h := normOr (f32Fma w d.1 a.h.1, f32Fma w d.2 a.h.2) a.h, t := tAt i w }

/-- The positions of a path in checking order: sub-steps of every interval, then the last entry. -/
def positions (n sub : Nat) : List (Nat × Nat) :=
  (List.range (n - 1)).flatMap (fun i => (List.range sub).map (fun k => (i, k))) ++ [(n - 1, 0)]

/-- The first hit of a path in the order of R281. -/
def riddle (s : State) (w : Who) (m : MapHdr) (discs : List Disc) (sub : Nat) (l : List Pose) (tAt : Nat → F32 → F32) :
    Rd (Option Hit) :=
  (positions l.length sub).foldlM (fun (a : Option Hit) pos => do
    if a.isSome then pure a
    else
      let q := poseAt l sub pos.1 pos.2 tAt
      discs.zipIdx.foldlM (fun (b : Option Hit) d => do
        if b.isSome then pure b
        else
          let h ← hitDisc s w m q.t (discCentre q.p q.h d.1) d.1.r
          pure (h.map (fun off => ⟨pos.1, pos.2, d.2, off⟩))) none) none

/-- HORIZON of a path that ends at the time given (R281): exact milliseconds against the layers of TYPE 0x3. -/
def beyondLayers (m : MapHdr) (endMs : Int) : Bool :=
  let l := m.layers.filter (fun l => l.type = 3)
  l ≠ [] && decide ((l.foldl (fun a x => max a (x.t0 + x.tlen)) 0 : Nat) ≤ endMs)

end Sys2Proof.Machine
end

