-- ==== Sys2Proof/Machine/BlockerOps.lean ====
section
/-! DEFINITION. Blocker planning units: map slots and commits, descriptors, and the operations SEED, OPTIMISE, CHECK,
SELECT, COMMIT and CHECK_LIST (R265 to R286). -/

namespace Sys2Proof.Machine

/-! ## Map slots (R268 to R271) -/

def Blk.slot (b : Blk) (m : Nat) : MapSlot := Tab.get MapSlot.init b.slots m

def State.updSlotMap (s : State) (k m : Nat) (f : MapSlot → MapSlot) : State :=
  s.updBlk k (fun b => { b with slots := Tab.upd MapSlot.init b.slots m f })

/-- Header address of the current buffer, and of the back buffer. -/
def MapSlot.curBuf (x : MapSlot) : Nat := (if x.cur then x.buf1 else x.buf0).toNat
def MapSlot.backBuf (x : MapSlot) : Nat := (if x.cur then x.buf0 else x.buf1).toNat

/-- What holds maps of die k: the latch of the running sheaf and those of its output stages. -/
def State.latches (s : State) (k : Nat) : List Latch :=
  (s.blkOf k).latch.toList ++ (s.out.stages.filter (fun g => g.bp = k && !g.ended)).filterMap (·.latch)

/-- HELD_CUR of a slot: a latched map is current (R270). -/
def State.heldCur (s : State) (k m : Nat) : Bool :=
  (s.latches k).any (fun t => t.slot = m && t.epoch = ((s.blkOf k).slot m).epoch)

/-- HELD_BACK of a slot: a commit has made a latched map the back buffer (R270). -/
def State.heldBack (s : State) (k m : Nat) : Bool :=
  (s.latches k).any (fun t => t.slot = m && t.epoch ≠ ((s.blkOf k).slot m).epoch)

/-- The map a sheaf latches on slot m (R270). -/
def State.latchOf (s : State) (k m : Nat) : Latch :=
  let x := (s.blkOf k).slot m
  { slot := m, buf := x.curBuf, epoch := x.epoch }

def State.setLatch (s : State) (k : Nat) (l : Option Latch) : State := s.updBlk k (fun b => { b with latch := l })

/-- A latched map is no longer current (R271). -/
def State.isStale (s : State) (k : Nat) (l : Latch) : Bool := decide (((s.blkOf k).slot l.slot).epoch ≠ l.epoch)

/-- The read of the back buffer's header for context c: a register write acts for the slot's context, a COMMIT sheaf for its
own (R275). -/
def State.backHeader (s : State) (k m c : Nat) : Rd (List Byte) := rdBytes s (whoEngine k c) 4 ((s.blkOf k).slot m).backBuf 320

/-- RESULT of a commit with EXPECT for context c (Table 13-3); the checks are made in the table's order. -/
def State.commitCheck (s : State) (k m c : Nat) (expect : BitVec 32) : Nat :=
  let x := (s.blkOf k).slot m
  if x.epoch.extractLsb' 0 32 ≠ expect then 1
  else if s.heldBack k m then 2
  else if !(match s.backHeader k m c with | .ok b => mapHdrOk b | .error _ => false) then 3
  else if !x.enable then 4 else 0

/-- A commit: performed or refused, RESULT recorded (R269). -/
def State.commit (s : State) (k m c : Nat) (expect : BitVec 32) : Nat × State :=
  let r := s.commitCheck k m c expect
  (r, (s.eccRead ((s.blkOf k).slot m).backBuf 320).updSlotMap k m (fun x =>
    { x with result := BitVec.ofNat 3 r, cur := if r = 0 then !x.cur else x.cur,
             epoch := if r = 0 then x.epoch + 1 else x.epoch }))

/-- A write of BLK_MAP_CFG_m (R268, R286). -/
def State.mapCfg (s : State) (k m : Nat) (v : BitVec 32) : State :=
  let x := (s.blkOf k).slot m
  if x.enable then
    if !v.getLsbD 7 && !s.heldCur k m && !s.heldBack k m then s.updSlotMap k m (fun x => { x with enable := false }) else s
  else if v.getLsbD 7 then
    s.updSlotMap k m (fun x => { x with ctx := v.extractLsb' 0 6, enable := true, cur := true, epoch := 0#64 })
  else s.updSlotMap k m (fun x => { x with ctx := v.extractLsb' 0 6 })

/-- A destroyed context's slots are disabled (R286). -/
def State.blkDropCtx (s : State) (c : Nat) : State :=
  forUpto 4 (fun k a => forUpto 4 (fun m a => a.updSlotMap k m (fun x =>
    if x.ctx.toNat = c then { x with enable := false } else x)) a) s

/-! ## Descriptors (R275, R276) -/

/-- A Blocker sheaf descriptor (Table 13-6). -/
structure BDesc where
  op     : Nat
  slot   : Nat
  first  : Nat
  cnt    : Nat
  b4     : Nat
  rel    : Nat
  count  : Nat
  expect : Nat
  b12    : Nat
  ref    : Nat
  set    : Nat
  param  : Nat
  out    : Nat
  aux    : Nat
  tail   : Bool
  deriving DecidableEq, Repr

def bdescOf (b : List Byte) : BDesc :=
  { op := fld b 0 1, slot := fld b 1 1, first := fld b 2 1, cnt := fld b 3 1, b4 := fld b 4 1, rel := fld b 5 1,
    count := fld b 6 2, expect := fld b 8 4, b12 := fld b 12 2, ref := fld b 14 2, set := fld b 16 5, param := fld b 21 5,
    out := fld b 26 5, aux := fld b 31 5, tail := (sub b 36 28).all (· == 0) }

/-- Physical address of address field i: 0 SET, 1 PARAM, 2 OUT, 3 AUX. -/
def BDesc.addr (d : BDesc) (base i : Nat) : Nat :=
  let a := [d.set, d.param, d.out, d.aux].getD i 0
  (if bitsAt d.rel i 1 = 1 then base + a else a) % 2 ^ 40

/-- The operation latches a map (Table 13-7). -/
def BDesc.latches (d : BDesc) : Bool := d.op = 2 || d.op = 3 || d.op = 6

/-- First failing descriptor field, as its byte offset (R276); `base` the context's HBM base. -/
def bdescCheck (d : BDesc) (base : Nat) : Option Nat :=
  let addrOk := fun (used : Bool) i a => if used then decide (d.addr base i % 64 = 0) else a == 0
  firstFail [(decide (1 ≤ d.op) && decide (d.op ≤ 6), 0), (decide (d.slot < 4), 1),
    (if d.op ≤ 3 then decide (d.first ≤ 63) else d.first == 0, 2),
    (if d.op ≤ 4 then decide (1 ≤ d.cnt) && decide (d.cnt ≤ 64) else d.cnt == 0, 3), (d.b4 == 0, 4),
    (decide (d.rel < 16), 5),
    (if d.op = 2 then decide (1 ≤ d.count) && decide (d.count ≤ 255)
     else if d.op = 6 then decide (2 ≤ d.count) && decide (d.count ≤ 256) else d.count == 0, 6),
    (d.op == 5 || d.expect == 0, 8), (d.b12 == 0, 12), (decide (d.ref ≤ 30400), 14),
    (addrOk (d.op ≠ 5) 0 d.set, 16), (addrOk (d.op == 1) 1 d.param, 21), (addrOk (d.op == 4 || d.op == 6) 2 d.out, 26),
    (addrOk (d.op == 6) 3 d.aux, 31), (d.tail, 36)]

/-- WHERE of a map slot that a sheaf of context c may not latch (class 0x05), 0 for none (R276). -/
def State.slotWhere (s : State) (k m c : Nat) : Nat :=
  let x := (s.blkOf k).slot m
  if !x.enable then 1 else if x.ctx.toNat ≠ c then 2 else if x.epoch = 0#64 then 3 else 0

/-- DETAIL of a plan-header or seed-entry failure: class 0x04, WHERE 16, INDEX (Table 13-12). -/
def resPlan (index : Nat) : SheafResult :=
  { code := 1, detail := BitVec.ofNat 32 (4 * 0x1000000 + 16 * 0x10000 + index), addr := 0 }

/-- How a Blocker operation fails. -/
inductive BErr where
  | acc (e : RdErr)
  | res (r : SheafResult)
  deriving DecidableEq, Repr

abbrev BM (α : Type) := Except BErr α

def ofRd {α : Type} : Rd α → BM α
  | .ok a => .ok a
  | .error e => .error (.acc e)

def BErr.result : BErr → SheafResult
  | .acc e => resAccess e
  | .res r => r

/-! ## Plan sets (R273) -/

/-- Address of candidate n of a plan set. -/
def candAddr (set n : Nat) : Nat := set + 256 + 1088 * n

/-- A plan header read and checked (R276). -/
def rdPlan (s : State) (w : Who) (set : Nat) : BM Plan := do
  let b ← ofRd (rdBytes s w 0 set 256)
  let p := planOf b
  match planBad p with
  | some o => .error (.res (resPlan o))
  | none => pure p

/-- Knot positions of 64 knots of 16 bytes. -/
def knotsOf (b : List Byte) : List P2 := (List.range 64).map (fun j => (f32At b (16 * j), f32At b (16 * j + 4)))

def rdKnots (s : State) (w : Who) (a : Nat) : Rd (List P2) := (rdBytes s w 0 a 1024).map knotsOf

/-- 64 knots as bytes, with headings by R274. -/
def knotBytes (pl : Plan) (p : List P2) : List Byte :=
  (List.zipWith (fun q h => f32Bytes q.1 ++ f32Bytes q.2 ++ f32Bytes h.1 ++ f32Bytes h.2) p
    (headings (pl.hx0, pl.hy0) p)).flatten

/-- Write bytes into a plan set (address field SET). -/
def wr (w : Who) (s : State) (a : Nat) (b : List Byte) : BM State := ofRd (doWrites w 0 [(a, b)] s)

/-- The candidates of the range lie below N_CAND (R276). -/
def rangeOk (d : BDesc) (pl : Plan) : BM Unit :=
  if (if d.op = 4 then d.first = 0 ∧ d.cnt = pl.nCand else d.first + d.cnt ≤ pl.nCand) then pure ()
  else .error (.res (resFail 4 3 0))

/-! ## SEED (R277) -/

/-- Knots 1 to 63 from the previous set's candidate, shifted. -/
def prevKnots (p : List P2) (shift : Nat) : List P2 :=
  (List.range 64).map (fun j =>
    let a := j + shift
    if a ≤ 63 then p.getD a (0, 0)
    else
      let e := f32OfNat (a - 63)
      let q := p.getD 63 (0, 0)
      let r := p.getD 62 (0, 0)
      (f32Fma e (f32Sub q.1 r.1) q.1, f32Fma e (f32Sub q.2 r.2) q.2))

/-- Knots from a library entry. -/
def libKnots (pl : Plan) (p : List P2) : List P2 :=
  p.map (fun l => (f32Fma pl.hx0 l.1 (f32Fma (f32Neg pl.hy0) l.2 pl.x0), f32Fma pl.hy0 l.1 (f32Fma pl.hx0 l.2 pl.y0)))

/-- A seed-table entry is valid. -/
def seedOk (b : List Byte) : Bool :=
  decide (fld b 0 1 ≤ 3) && decide (fld b 1 1 ≤ 63) && decide (fld b 2 2 ≤ 1023) && decide (fld b 4 1 ≤ 63) && fld b 5 3 == 0

/-- seed(n). -/
def seedOne (w : Who) (d : BDesc) (base : Nat) (pl : Plan) (s : State) (n : Nat) : BM State := do
  let e ← ofRd (rdBytes s w 1 (d.addr base 1 + 8 * n) 8)
  if !seedOk e then .error (.res (resPlan (256 + n)))
  else
    let a := candAddr (d.addr base 0) n
    let kind := fld e 0 1
    let src : Option (List P2) ← (match kind with
      | 0 => do let k ← ofRd (rdKnots s w (a + 64)); pure (some k)
      | 1 => do
        let sa := candAddr pl.prev (fld e 4 1)
        let st ← ofRd (rdBytes s w 0 sa 1)
        if leNat st = 0 ∨ leNat st = 4 then pure none
        else
          let k ← ofRd (rdKnots s w (sa + 64))
          pure (some (prevKnots k (fld e 1 1)))
      | 2 => do
        let k ← ofRd (rdKnots s w ((pl.lib + 1024 * fld e 2 2) % 2 ^ 40))
        pure (some (libKnots pl k))
      | _ => pure none)
    match src with
    | none => wr w s a [0]
    | some k =>
      let k := k.set 0 (pl.x0, pl.y0)
      let s ← wr w s a [1, BitVec.ofNat 8 kind, 0]
      let s ← wr w s (a + 8) (f32Bytes (f32Inf false) ++ f32Bytes pl.alpha0 ++ leBytes 4 0)
      let s ← (if kind = 2 then wr w s (a + 20) (leBytes 2 (fld e 2 2)) else pure s)
      let s ← wr w s (a + 24) (List.replicate 16 0)
      wr w s (a + 64) (knotBytes pl k)

/-- SEED. -/
def opSeed (s : State) (w : Who) (d : BDesc) (base : Nat) : BM State := do
  let pl ← rdPlan s w (d.addr base 0)
  rangeOk d pl
  (List.range d.cnt).foldlM (fun a i => seedOne w d base pl a (d.first + i)) s

/-! ## Latched maps -/

/-- The header of a latched map. -/
def rdMap (s : State) (w : Who) (l : Latch) : BM MapHdr := do
  let b ← ofRd (rdBytes s w 4 l.buf 320)
  pure (mapHdrOf l.buf b)

/-- ceil of R × inv_c is at most 24 for every disc (R276). -/
def discsFit (m : MapHdr) (pl : Plan) : BM Unit :=
  if pl.discs.all (fun x => match fvCmp (f32Val (f32Mul x.r m.invC)) (fvOfInt 24) with | some .gt => false | _ => true) then
    pure ()
  else .error (.res (resFail 5 4 0))

/-! ## OPTIMISE (R279) -/

/-- Where the optimiser stands for one candidate. -/
structure OptSt where
  p : List P2
  j : F32
  g : List P2
  alpha : F32
  moved : Bool
  deriving DecidableEq, Repr

/-- One iteration. -/
def optIter (s : State) (w : Who) (m : MapHdr) (pl : Plan) (x : OptSt) : Rd OptSt := do
  let step := fun (q g : F32) => f32Sub q (f32Clamp (f32Mul x.alpha g) pl.stepMax)
  let q := (List.zipWith (fun a g => (step a.1 g.1, step a.2 g.2)) x.p x.g).set 0 (x.p.getD 0 (0, 0))
  let r ← planEval s w m pl q
  pure (if f32Lt r.1 x.j then
      { p := q, j := r.1, g := r.2, alpha := f32Min (f32Mul x.alpha 0x40000000#32) pl.alphaMax, moved := true }
    else { x with alpha := f32Mul x.alpha 0x3F000000#32 })

/-- CFLAGS with STALE as given. -/
def withStale (flags : Nat) (stale : Bool) : Byte := BitVec.ofNat 8 (flags / 2 * 2 + bit01 stale)

/-- OPTIMISE of one candidate. -/
def optOne (w : Who) (d : BDesc) (base : Nat) (pl : Plan) (m : MapHdr) (l : Latch) (stale : Bool) (s : State) (n : Nat) :
    BM State := do
  let a := candAddr (d.addr base 0) n
  let h ← ofRd (rdBytes s w 0 a 64)
  let st := fld h 0 1
  if st = 0 ∨ st = 4 then pure s
  else
    let p ← ofRd (rdKnots s w (a + 64))
    let e ← ofRd (planEval s w m pl p)
    if !f32Finite e.1 then
      let s ← wr w s a [4]
      let s ← wr w s (a + 2) [withStale (fld h 2 1) stale]
      wr w s (a + 8) (f32Bytes e.1)
    else
      let x ← ofRd ((List.range d.count).foldlM (fun x _ => optIter s w m pl x)
        { p := p, j := e.1, g := e.2, alpha := f32At h 12, moved := false })
      let s ← (if x.moved then wr w s a [1] else pure s)
      let s ← wr w s (a + 2) [withStale (fld h 2 1) stale]
      let s ← wr w s (a + 8) (f32Bytes x.j ++ f32Bytes x.alpha ++ leBytes 4 (fld h 16 4 + d.count))
      let s ← wr w s (a + 32) (leBytes 8 l.epoch.toNat)
      wr w s (a + 64) (knotBytes pl x.p)

/-- OPTIMISE. -/
def opOptimise (s : State) (w : Who) (d : BDesc) (base : Nat) (l : Latch) (stale : Bool) : BM State := do
  let pl ← rdPlan s w (d.addr base 0)
  rangeOk d pl
  let m ← rdMap s w l
  discsFit m pl
  (List.range d.cnt).foldlM (fun a i => optOne w d base pl m l stale a (d.first + i)) s

/-! ## CHECK and CHECK_LIST (R280, R281) -/

/-- Flags of a checked path. -/
def checkFlags (stale : Bool) (hit : Option Hit) (horizon : Bool) : Byte :=
  BitVec.ofNat 8 (flagsNat [stale, (match hit with | some h => h.off | none => false), horizon])

/-- floor(t × 1,000) of an exact value, in ms. -/
def msOf (t : FVal) : Int := fvFloor (fvMul t (fvOfInt 1000))

/-- The poses of a candidate: knots with recomputed headings. -/
def candPoses (pl : Plan) (p : List P2) : List Pose :=
  List.zipWith (fun q h => ⟨q, h, 0#32⟩) p (headings (pl.hx0, pl.hy0) p)

/-- CHECK of one candidate. -/
def checkOne (w : Who) (d : BDesc) (base : Nat) (pl : Plan) (m : MapHdr) (l : Latch) (stale : Bool) (s : State) (n : Nat) :
    BM State := do
  let a := candAddr (d.addr base 0) n
  let h ← ofRd (rdBytes s w 0 a 64)
  let st := fld h 0 1
  if st = 0 ∨ st = 4 then pure s
  else
    let p ← ofRd (rdKnots s w (a + 64))
    let hit ← ofRd (riddle s w m pl.discs pl.sub (candPoses pl p) (fun i u => f32Mul (f32Add (f32OfNat i) u) pl.dt))
    let hz := beyondLayers m (fvFloor (fvMul (f32Val pl.dt) (fvOfInt 63000)))
    let s ← (match hit with
      | some x => do
        let s ← wr w s a [3]
        wr w s (a + 3) ([BitVec.ofNat 8 x.disc] ++ leBytes 2 x.knot ++ [BitVec.ofNat 8 x.sub])
      | none => wr w s a [2])
    let s ← wr w s (a + 2) [checkFlags stale hit hz]
    wr w s (a + 24) (leBytes 8 l.epoch.toNat)

/-- CHECK. -/
def opCheck (s : State) (w : Who) (d : BDesc) (base : Nat) (l : Latch) (stale : Bool) : BM State := do
  let pl ← rdPlan s w (d.addr base 0)
  rangeOk d pl
  let m ← rdMap s w l
  discsFit m pl
  (List.range d.cnt).foldlM (fun a i => checkOne w d base pl m l stale a (d.first + i)) s

/-- A knot-list entry: X, Y, HX, HY, T. -/
def listPose (b : List Byte) (i : Nat) : Pose :=
  { p := (f32At b (24 * i), f32At b (24 * i + 4)), h := (f32At b (24 * i + 8), f32At b (24 * i + 12)), t := f32At b (24 * i + 16) }

def poseFinite (q : Pose) : Bool :=
  f32Finite q.p.1 && f32Finite q.p.2 && f32Finite q.h.1 && f32Finite q.h.2 && f32Finite q.t

/-- The time of a position of a knot list. -/
def listTime (l : List Pose) (i : Nat) (u : F32) : F32 :=
  let t := fun j => (l.getD j ⟨(0, 0), (0, 0), 0⟩).t
  if f32Zero u then t i else f32Fma u (f32Sub (t (i + 1)) (t i)) (t i)

/-- The test of CHECK_LIST: its result record (Table 13-8). -/
def listResult (s : State) (w : Who) (m : MapHdr) (pl : Plan) (l : List Pose) (ep : BitVec 64) (stale : Bool) :
    Rd (List Byte) :=
  if l.all poseFinite then do
    let hit ← riddle s w m pl.discs pl.sub l (listTime l)
    let hz := beyondLayers m (msOf (f32Val (l.getLastD ⟨(0, 0), (0, 0), 0⟩).t))
    let x : Hit := hit.getD ⟨0, 0, 0, false⟩
    pure (pad 32 ([BitVec.ofNat 8 (bit01 hit.isSome), checkFlags stale hit hz, BitVec.ofNat 8 x.disc, 0] ++ leBytes 2 x.knot ++
      [BitVec.ofNat 8 x.sub, 0] ++ leBytes 8 ep.toNat))
  else pure (pad 32 ([2, BitVec.ofNat 8 (bit01 stale), 0, 0, 0, 0, 0, 0] ++ leBytes 8 ep.toNat))

/-- CHECK_LIST. -/
def opCheckList (s : State) (w : Who) (d : BDesc) (base : Nat) (l : Latch) (stale : Bool) : BM State := do
  let pl ← rdPlan s w (d.addr base 0)
  let m ← rdMap s w l
  discsFit m pl
  let b ← ofRd (rdBytes s w 3 (d.addr base 3) (24 * d.count))
  let r ← ofRd (listResult s w m pl ((List.range d.count).map (listPose b)) l.epoch stale)
  ofRd (doWrites w 2 [(d.addr base 2, r)] s)

/-! ## SELECT (R282) -/

/-- What SELECT reads of a candidate. -/
structure SelCand where
  idx : Nat
  status : Nat
  cost : F32
  epoch : Nat
  deriving DecidableEq, Repr

/-- Ranking order: COST ascending, ties to the lower index. -/
def selLt (a b : SelCand) : Bool :=
  f32Lt a.cost b.cost || (!f32Lt b.cost a.cost && decide (a.idx < b.idx))

/-- The rank record (Table 13-9) of the candidates read. -/
def rankRecord (l : List SelCand) : List Byte :=
  let clear := l.filter (fun c => c.status = 2)
  let emax := clear.foldl (fun a c => max a c.epoch) 0
  let ranked := sortBy selLt (clear.filter (fun c => c.epoch = emax))
  pad 64 ([BitVec.ofNat 8 ranked.length, BitVec.ofNat 8 (clear.length - ranked.length),
      BitVec.ofNat 8 (l.filter (fun c => c.status = 3)).length, BitVec.ofNat 8 (l.filter (fun c => c.status = 1)).length,
      0, 0, 0, 0] ++ leBytes 8 emax) ++
    (List.range 64).map (fun i => match ranked[i]? with | some c => BitVec.ofNat 8 c.idx | none => 0xFF)

/-- SELECT. The place of a NaN cost, which the spec does not state, is free: it ranks by an uninterpreted function of its bits
and its candidate (R145). -/
def opSelect (s : State) (w : Who) (d : BDesc) (base : Nat) : BM State := do
  let pl ← rdPlan s w (d.addr base 0)
  rangeOk d pl
  let l ← ofRd ((List.range pl.nCand).mapM (fun n => do
    let h ← rdBytes s w 0 (candAddr (d.addr base 0) n) 64
    let c := f32At h 8
    pure { idx := n, status := fld h 0 1, epoch := fld h 24 8,
           cost := if f32IsNaN c then Config.nanCost c n else c : SelCand }))
  ofRd (doWrites w 2 [(d.addr base 2, rankRecord l)] s)

/-! ## The running sheaf -/

/-- Single-bit errors of what an operation reads are corrected and counted once: plan set, tables, and the latched map. -/
def State.blkEccRead (s : State) (k c : Nat) (d : BDesc) (base : Nat) : State :=
  let set := d.addr base 0
  let map := match d.latches, (s.blkOf k).latch with
    | true, some l =>
      match rdBytes s (whoEngine k c) 4 l.buf 320 with
      | .ok b => (true, l.buf, 512 + 512 * (mapHdrOf l.buf b).layers.length) :: (mapHdrOf l.buf b).layers.map (fun x => (true, x.addr, 0x100000))
      | .error _ => []
    | _, _ => []
  s.eccRanges ([(true, set, 256), (d.op ≤ 4, candAddr set d.first, 1088 * d.cnt), (d.op = 1, d.addr base 1, 8 * (d.first + d.cnt)),
    (d.op = 6, d.addr base 3, 24 * d.count)] ++ map)

/-- Perform the operation of a sheaf on BPk (Table 13-7). A failed one leaves memory as it was. -/
def blkSheaf (s : State) (k c : Nat) (d : BDesc) (base : Nat) : SheafResult × State :=
  let w := whoEngine k c
  let run := fun (x : BM State) => match x with
    | .ok t => (resOk, t.blkEccRead k c d base)
    | .error e => (e.result, s)
  let latched := fun (f : Latch → Bool → BM State) => match (s.blkOf k).latch with
    | some l => run (f l (s.isStale k l))
    | none => (resFail 5 1 0, s)
  match d.op with
  | 1 => run (opSeed s w d base)
  | 2 => latched (opOptimise s w d base)
  | 3 => latched (opCheck s w d base)
  | 4 => run (opSelect s w d base)
  | 5 =>
    let r := s.commit k d.slot c (BitVec.ofNat 32 d.expect)
    (match r.1, s.backHeader k d.slot c with
     | 0, _ => resOk
     | 3, .error e => resAccess e
     | x, _ => resFail 5 (0x10 + x) 0, r.2)
  | _ => latched (opCheckList s w d base)

/-- What a Blocker checks and latches at the start of a sheaf: the failure if there is one (R270, R276). -/
def State.blkBegin (s : State) (k c : Nat) (d : BDesc) (base : Nat) : Option SheafResult × State :=
  match bdescCheck d base with
  | some f => (some (resFail 4 f 0), s)
  | none =>
    if d.latches then
      let x := s.slotWhere k d.slot c
      if x ≠ 0 then (some (resFail 5 x 0), s) else (none, s.setLatch k (some (s.latchOf k d.slot)))
    else (none, s)

/-! ## Commands -/

/-- BLK_MAP_COMMIT_WRITE: only an 8-byte write with GO = 1 requests a commit (R269, R286). -/
def execBlkMapCommitWrite (w : Initiator) (k : Die) (m : Fin 4) (wide : Bool) (v : BitVec 64) (s : State) :
    Host.Outcome State Fault Refusal :=
  .next (if coreOrReeve w && s.dieRuns k && wide && v.getLsbD 63 then
    (s.commit k m ((s.blkOf k).slot m).ctx.toNat (v.extractLsb' 0 32)).2 else s)

/-- BLK_MAP_ENABLE: a write of BLK_MAP_CFG_m (R268, R286). -/
def execBlkMapEnable (w : Initiator) (k : Die) (m : Fin 4) (v : BitVec 32) (s : State) : Host.Outcome State Fault Refusal :=
  .next (if coreOrReeve w && s.dieRuns k then s.mapCfg k m v else s)

/-- BLK_MAP_EPOCH_LO_READ: the read of LO captures HI (R286). -/
def execBlkMapEpochLoRead (_w : Initiator) (k : Die) (m : Fin 4) (s : State) : Host.Outcome State Fault Refusal :=
  .next (if s.dieRuns k then s.updSlotMap k m (fun x => { x with epochHi := x.epoch.extractLsb' 32 32 }) else s)

end Sys2Proof.Machine
end

