-- ==== Sys2Proof/Machine/Output.lean ====
section
/-! DEFINITION. Fuller smoothing and trajectory output: time scaling, the output stage's steps, selection, the
trajectory record and the minimum-risk profile (R287 to R301). -/

namespace Sys2Proof.Machine

/-! ## FP32 of R292: each operator rounded to nearest even -/

/-- Exact quotient of two values, truncated far below any FP32 rounding with a sticky bit. -/
def fvQuot : FVal → FVal → FVal
  | .fin sa ma ea, .fin sb mb eb =>
    if mb = 0 then (if ma = 0 then .nan else .inf (sa != sb))
    else
      let n := ma * 2 ^ 64
      .fin (sa != sb) (2 * (n / mb) + (if n % mb = 0 then 0 else 1)) (ea - eb - 65)
  | .inf sa, .fin sb _ _ => .inf (sa != sb)
  | .fin sa _ _, .inf sb => .fin (sa != sb) 0 0
  | _, _ => .nan

def f32Div (a b : F32) : F32 := toF32 (fvQuot (f32Val a) (f32Val b))

def f32Two : F32 := 0x40000000#32

/-- lookup(tab, x, xm). -/
def lookup16 (tab : List F32) (x xm : F32) : F32 :=
  let u := f32Min (f32Max (f32Div (f32Mul x 0x41700000#32) xm) 0#32) 0x41700000#32
  let j := min (f32Floor u).toNat 14
  let f := f32Sub u (f32OfNat j)
  let a := tab.getD j 0#32
  f32Add a (f32Mul f (f32Sub (tab.getD (j + 1) 0#32) a))

/-- smooth(p): one level. -/
def smoothOnce (lambda : F32) (p : List P2) : List P2 :=
  let at' := fun i => p.getD i (0, 0)
  let mv := fun (a b c : F32) => f32Add b (f32Mul lambda (f32Add (f32Sub a b) (f32Sub c b)))
  (List.range 64).map (fun i =>
    if i = 0 ∨ i = 63 then at' i
    else (mv (at' (i - 1)).1 (at' i).1 (at' (i + 1)).1, mv (at' (i - 1)).2 (at' i).2 (at' (i + 1)).2))

def iterate {α : Type} (f : α → α) : Nat → α → α
  | 0, x => x
  | n + 1, x => iterate f n (f x)

/-- Smoothing level `lv` of the knots a plan set holds. -/
def smoothLevel (c : TrajCfg) (lv : Nat) (p : List P2) : List P2 := iterate (smoothOnce c.lambda) (c.smoothIters * lv) p

/-- Forward pass of the speed profile from index i. A zero-length interval forces standstill (R292). -/
def speedUp (c : TrajCfg) (cap ds : List F32) : Nat → Nat → F32 → List F32
  | 0, _, _ => []
  | n + 1, i, v =>
    let w := if f32Zero (ds.getD i 0#32) then 0#32 else f32Min (cap.getD (i + 1) 0#32)
      (f32Sqrt (f32Add (f32Mul v v) (f32Mul (f32Mul f32Two (lookup16 c.accUp v c.vMax)) (ds.getD i 0#32))))
    w :: speedUp c cap ds n (i + 1) w

/-- Backward pass: the speeds from the last knot back to knot 0, first knot first. -/
def speedDown (c : TrajCfg) : List (F32 × F32) → F32 → List F32
  | [], last => [last]
  | (v, d) :: r, last =>
    let t := speedDown c r last
    let n := t.headD last
    f32Min v (f32Sqrt (f32Add (f32Mul n n) (f32Mul (f32Mul f32Two (lookup16 c.accDn n c.vMax)) d))) :: t

/-- Times from knot 0 while the vehicle moves; stops at standstill. -/
def timesFrom (v ds : List F32) : Nat → Nat → F32 → List F32
  | 0, _, t => [t]
  | n + 1, i, t =>
    let sum := f32Add (v.getD i 0#32) (v.getD (i + 1) 0#32)
    if f32Zero sum then [t] else t :: timesFrom v ds n (i + 1) (f32Add t (f32Div (f32Mul f32Two (ds.getD i 0#32)) sum))

/-- time_scale(p): the points, or the FAIL code of Table 14-6. -/
def timeScale (c : TrajCfg) (pl : Plan) (v0 : F32) (p : List P2) : Except Nat (List TPoint) :=
  let h := headings (pl.hx0, pl.hy0) p
  let pt := fun i => p.getD i (0, 0)
  let hd := fun i => h.getD i (0, 0)
  let ds := (List.range 63).map (fun i =>
    let d := p2Sub (pt (i + 1)) (pt i)
    f32Sqrt (f32Add (f32Mul d.1 d.1) (f32Mul d.2 d.2)))
  let dsAt := fun i => ds.getD i 0#32
  let two := fun i => f32Add (dsAt (i - 1)) (dsAt i)
  let kin := fun i => if f32Zero (two i) then 0#32
    else f32Div (f32Sub (f32Mul (hd (i - 1)).1 (hd (i + 1)).2) (f32Mul (hd (i - 1)).2 (hd (i + 1)).1)) (two i)
  let kap := (List.range 64).map (fun i => kin (if i = 0 then 1 else if i = 63 then 62 else i))
  let ka := fun i => kap.getD i 0#32
  if kap.any (fun k => f32Lt c.kappaMax (f32Abs k)) then .error 2
  else
    let cap := (List.range 64).map (fun i =>
      let a := f32Min c.vMax (lookup16 c.vk (f32Abs (ka i)) c.kappaMax)
      let dk := if i = 0 ∨ i = 63 ∨ f32Zero (two i) then 0#32 else f32Div (f32Sub (ka (i + 1)) (ka (i - 1))) (two i)
      if f32Zero dk then a else f32Min a (f32Div c.krateMax (f32Abs dk)))
    if f32Lt (cap.getD 0 0#32) v0 then .error 3
    else
      let up := v0 :: speedUp c cap ds 63 0 v0
      let v := speedDown c ((up.take 63).zip ds) (up.getD 63 0#32)
      if f32Lt (v.headD 0#32) v0 then .error 4
      else
        let t := timesFrom v ds 61 0 0#32
        let n := t.length
        let vAt := fun i => v.getD i 0#32
        let acc := (List.range (n - 1)).map (fun i =>
          f32Div (f32Sub (f32Mul (vAt (i + 1)) (vAt (i + 1))) (f32Mul (vAt i) (vAt i))) (f32Mul f32Two (dsAt i)))
        let a := acc ++ [acc.getLastD 0#32]
        let aAt := fun i => a.getD i 0#32
        let tAt := fun i => t.getD i 0#32
        if (List.range (n - 2)).any (fun i =>
            f32Lt (f32Mul c.jerkMax (f32Div (f32Sub (tAt (i + 2)) (tAt i)) f32Two)) (f32Abs (f32Sub (aAt (i + 1)) (aAt i)))) then
          .error 5
        else .ok ((List.range n).map (fun i =>
          { t := tAt i, x := (pt i).1, y := (pt i).2, hx := (hd i).1, hy := (hd i).2, kappa := ka i, v := vAt i, a := aAt i }))

/-! ## Records (R297) -/

def pointBytes (q : TPoint) : List Byte :=
  f32Bytes q.t ++ f32Bytes q.x ++ f32Bytes q.y ++ f32Bytes q.hx ++ f32Bytes q.hy ++ f32Bytes q.kappa ++ f32Bytes q.v ++ f32Bytes q.a

def pointOf (b : List Byte) : TPoint :=
  { t := f32At b 0, x := f32At b 4, y := f32At b 8, hx := f32At b 12, hy := f32At b 16, kappa := f32At b 20, v := f32At b 24,
    a := f32At b 28 }

/-- Points of a trajectory record. -/
def trajPoints (b : List Byte) : List TPoint := (List.range (min 62 (fld b 12 1))).map (fun i => pointOf (sub b (64 + 32 * i) 32))

def trajTs (b : List Byte) : Nat := fld b 32 8
def trajValidMs (b : List Byte) : Nat := fld b 40 4

/-- VALID_MS of points under STALE_MS. -/
def validMs (staleMs : Nat) (l : List TPoint) : Nat :=
  min staleMs ((msOf (f32Val ((l.getLast?.map (·.t)).getD 0#32))).toNat)

/-- What a trajectory record holds beside its points (Table 14-6). -/
structure TrajHdr where
  epoch  : Nat
  sel    : Nat
  issuer : Nat
  level  : Nat
  stale  : Bool
  horizon : Bool
  trunc  : Bool
  rel    : Bool
  cand   : Nat
  steps  : Nat
  fail   : Nat
  mapEp  : Nat
  baseEp : Nat
  ts     : Nat
  v0     : F32
  a0     : F32
  deriving DecidableEq, Repr

/-- A trajectory record (Tables 14-6 and 14-7). -/
def trajBytes (staleMs : Nat) (h : TrajHdr) (l : List TPoint) : List Byte :=
  let stop := match l.getLast? with | some q => f32Zero q.v | none => false
  pad 64 (leBytes 8 h.epoch ++ [BitVec.ofNat 8 h.sel, BitVec.ofNat 8 h.issuer, BitVec.ofNat 8 h.level,
      BitVec.ofNat 8 (flagsNat [h.stale, h.horizon, h.trunc, stop, h.rel]), BitVec.ofNat 8 l.length, BitVec.ofNat 8 h.cand,
      BitVec.ofNat 8 h.steps, BitVec.ofNat 8 h.fail] ++ leBytes 8 h.mapEp ++ leBytes 8 h.baseEp ++ leBytes 8 h.ts ++
      leBytes 4 (validMs staleMs l) ++ f32Bytes h.v0 ++ f32Bytes h.a0) ++ l.flatMap pointBytes

/-- The base: the most recent published record with SEL_CASE 0x1 to 0x4 (R299). -/
def State.trajBase (s : State) : Option Rec := s.tly.recs.reverse.find? (fun r => r.published && decide (1 ≤ r.selCase) && decide (r.selCase ≤ 4))

/-- The most recent published record with a trajectory has SEL_CASE 0x5 or 0x6 (R296). -/
def State.lastWasMrp (s : State) : Bool :=
  match s.tly.recs.reverse.find? (fun r => r.published && r.selCase ≠ 0) with
  | some r => decide (5 ≤ r.selCase)
  | none => false

/-! ## The output request (R289) -/

structure OutReq where
  ts : Nat
  v0 : F32
  a0 : F32
  ok : Bool
  deriving DecidableEq, Repr

def outReqOf (b : List Byte) : OutReq :=
  let v0 := f32At b 8
  let a0 := f32At b 12
  { ts := fld b 0 8, v0 := v0, a0 := a0, ok := fld b 16 1 % 2 = 1 && f32Finite v0 && f32Finite a0 && !f32Lt v0 0#32 }

/-! ## Steps (R290, R291) -/

/-- Numbered step after the steps done: none when the stage is complete; `some none` the continuation, else rank and
level. `ranked` is N_RANKED. -/
def nextStep (c : TrajCfg) (ranked : Nat) (l : List StepRes) : Option (Option (Nat × Nat)) :=
  match l.getLast? with
  | none => some none
  | some r =>
    match r.cand with
    | none => if 0 < ranked then some (some (0, 0)) else none
    | some (rank, _, lv) =>
      if r.fail = 0 then (if lv < c.lMax then some (some (rank, lv + 1)) else none)
      else if lv = 0 ∧ rank + 1 < min c.nextMax ranked then some (some (rank + 1, 0)) else none

/-- The check of output points: FAIL code 7 without a latched map, 1 for a hit, else 0. -/
def stageCheck (s : State) (w : Who) (pl : Plan) (latch : Option Latch) (pts : List TPoint) : BM Nat := do
  match latch with
  | none => pure 7
  | some l =>
    let m ← rdMap s w l
    match discsFit m pl with
    | .error _ => pure 7
    | .ok _ =>
      let q := pts.map (fun p => (⟨(p.x, p.y), (p.hx, p.hy), p.t⟩ : Pose))
      if q.all poseFinite then
        let hit ← ofRd (riddle s w m pl.discs pl.sub q (listTime q))
        pure (bit01 hit.isSome)
      else pure 1

/-- The continuation's points: the base's points at or after τ, shifted by it; none when step 1 fails without a check. -/
def contPoints (c : TrajCfg) (base : Option Rec) (rq : OutReq) : Option (List TPoint) :=
  match base with
  | none => none
  | some b =>
    let dt : Int := (rq.ts : Int) - (trajTs b.traj : Int)
    if dt < 0 ∨ (trajValidMs b.traj : Int) * 1000000 < dt then none
    else
      let tau := toF32 (fvQuot (fvOfInt dt) (fvOfInt 1000000000))
      let l := (trajPoints b.traj).filterMap (fun q =>
        let t := f32Sub q.t tau
        if f32Le 0#32 t then some { q with t := t } else none)
      match l.getLast? with
      | none => none
      | some q => if msOf (f32Val q.t) < (c.contMinMs : Int) then none else some l

/-- What the stage reads of its inputs: plan header, rank record and request. -/
def stageInputs (s : State) (g : Stage) : BM (Plan × List Byte × OutReq) := do
  let w := whoEngine g.bp g.ctx
  let b ← ofRd (rdBytes s w 0 g.setAddr 256)
  let r ← ofRd (rdBytes s w 2 g.outAddr 128)
  let q ← ofRd (rdBytes s w 2 (g.outAddr + 128) 64)
  pure (planOf b, r, outReqOf q)

/-- Result of the stage's next step. -/
def stageStep (s : State) (c : TrajCfg) (g : Stage) : BM (Option StepRes) := do
  let w := whoEngine g.bp g.ctx
  let (pl, rk, rq) ← stageInputs s g
  match nextStep c (fld rk 0 1) g.steps with
  | none => pure none
  | some none =>
    let pts := if rq.ok && !s.lastWasMrp then contPoints c s.trajBase rq else none
    match pts with
    | none => pure (some { cand := none, fail := if rq.ok then 9 else 8, newer := false, horizon := false, points := [], baseEp := 0 })
    | some l =>
      let f ← stageCheck s w pl g.latch l
      pure (some { cand := none, fail := f, newer := false, horizon := false, points := l,
                        baseEp := (s.trajBase.map (fun b => b.epoch.toNat)).getD 0 })
  | some (some (rank, lv)) =>
    let idx := fld rk (64 + rank) 1
    let a := candAddr g.setAddr idx
    let h ← ofRd (rdBytes s w 0 a 64)
    let p ← ofRd (rdKnots s w (a + 64))
    let newer := bitsAt (fld h 2 1) 0 1 = 1 ||
      (match g.latch with | some l => decide (fld h 24 8 ≠ l.epoch.toNat) | none => true)
    let res := fun f pts =>
      (some { cand := some (rank, idx, lv), fail := f, newer := newer, horizon := bitsAt (fld h 2 1) 2 1 = 1, points := pts, baseEp := 0 }
        : Option StepRes)
    if !rq.ok then pure (res 8 [])
    else match timeScale c pl rq.v0 (smoothLevel c lv p) with
      | .error f => pure (res f [])
      | .ok pts => do
        let f ← stageCheck s w pl g.latch pts
        pure (res f pts)

/-! ## Minimum-risk profile (R299 to R301) -/

/-- A path of points: where it starts and how far each point lies along it. -/
def segLen (a b : TPoint) : F32 :=
  let d := p2Sub (b.x, b.y) (a.x, a.y)
  f32Sqrt (f32Add (f32Mul d.1 d.1) (f32Mul d.2 d.2))

/-- Linear interpolation in FP32. -/
def lerp (f a b : F32) : F32 := f32Add a (f32Mul f (f32Sub b a))

/-- Arc position, speed and acceleration of a path at time T, none outside its points. -/
def baseAt (l : List TPoint) (s0 : F32) (T : F32) : Option (F32 × F32 × F32) :=
  match l with
  | a :: b :: r =>
    if f32Le a.t T && f32Lt T b.t then
      let f := f32Div (f32Sub T a.t) (f32Sub b.t a.t)
      some (f32Add s0 (f32Mul f (segLen a b)), lerp f a.v b.v, lerp f a.a b.a)
    else baseAt (b :: r) (f32Add s0 (segLen a b)) T
  | [a] =>
    if f32Le a.t T && (f32Le T a.t || f32Zero a.v) then some (s0, a.v, if f32Le T a.t then a.a else 0#32) else none
  | [] => none

/-- Pose and curvature at an arc position; beyond the last point straight along its heading. -/
def pathAt (l : List TPoint) (s0 s : F32) : TPoint :=
  match l with
  | a :: b :: r =>
    let e := f32Add s0 (segLen a b)
    if f32Lt s e then
      let f := f32Div (f32Sub s s0) (segLen a b)
      let h := normOr (lerp f a.hx b.hx, lerp f a.hy b.hy) (a.hx, a.hy)
      { t := 0#32, x := lerp f a.x b.x, y := lerp f a.y b.y, hx := h.1, hy := h.2, kappa := lerp f a.kappa b.kappa, v := 0#32, a := 0#32 }
    else pathAt (b :: r) e s
  | [a] =>
    let d := f32Sub s s0
    { a with t := 0#32, x := f32Add a.x (f32Mul d a.hx), y := f32Add a.y (f32Mul d a.hy), kappa := 0#32, v := 0#32, a := 0#32 }
  | [] => { t := 0#32, x := 0#32, y := 0#32, hx := 0#32, hy := 0#32, kappa := 0#32, v := 0#32, a := 0#32 }

/-- The loop of R300 from point k. -/
def mrpLoop (c : TrajCfg) (path : List TPoint) : Nat → Nat → F32 → F32 → F32 → List TPoint
  | 0, _, _, _, _ => []
  | n + 1, k, s, v, a =>
    let fifth : F32 := 0x3E4CCCCD#32
    let q := { pathAt path 0#32 s with t := f32Mul fifth (f32OfNat k), v := v, a := a }
    if f32Zero v then [q]
    else
      let an := f32Max (f32Sub a (f32Mul c.mrpJerk fifth)) (f32Neg c.mrpDecel)
      let vn := f32Max (f32Add v (f32Mul (f32Mul 0x3F000000#32 (f32Add a an)) fifth)) 0#32
      let s' := f32Add s (f32Mul (f32Mul 0x3F000000#32 (f32Add v vn)) fifth)
      q :: mrpLoop c path n (k + 1) s' vn (if f32Zero vn then 0#32 else an)

/-- Points of a minimum-risk profile from a start. -/
def mrpPoints (c : TrajCfg) (path : List TPoint) (st : F32 × F32 × F32) : List TPoint :=
  mrpLoop c path 62 0 st.1 st.2.1 (f32Min st.2.2 0#32)

/-- The start of R301: the base point at T = VALID_MS / 1,000 with the highest speed of its validity. -/
def lateStart (b : Rec) : F32 × F32 × F32 :=
  let l := trajPoints b.traj
  let T := toF32 (fvQuot (fvOfInt (trajValidMs b.traj)) (fvOfInt 1000))
  let st := (baseAt l 0#32 T).getD (0#32, 0#32, 0#32)
  let v := (l.filter (fun q => f32Le q.t T)).foldl (fun m q => f32Max m q.v) 0#32
  (st.1, v, st.2.2)

/-- The ray of a plan header, for a module without a base. -/
def rayOf (pl : Plan) : List TPoint :=
  [{ t := 0#32, x := pl.x0, y := pl.y0, hx := pl.hx0, hy := pl.hy0, kappa := 0#32, v := 0#32, a := 0#32 }]

/-- Minimum-risk profile for the ledger: points and RELATIVE. A τ outside the base's points has no base value: a free
one. -/
def State.mrpFor (s : State) (c : TrajCfg) (pl : Plan) (rq : OutReq) : List TPoint × Bool × State :=
  match s.trajBase with
  | none => (mrpPoints c (rayOf pl) (0#32, rq.v0, rq.a0), !rq.ok, s)
  | some b =>
    let l := trajPoints b.traj
    if !rq.ok then (mrpPoints c l (lateStart b), true, s)
    else
      let tau := toF32 (fvQuot (fvOfInt ((rq.ts : Int) - (trajTs b.traj : Int))) (fvOfInt 1000000000))
      match baseAt l 0#32 tau with
      | some st => (mrpPoints c l st, false, s)
      | none => (mrpPoints c l (Config.freeWord s.freeCnt, Config.freeWord (s.freeCnt + 1), Config.freeWord (s.freeCnt + 2)), false,
          { s with freeCnt := s.freeCnt + 3 })

/-! ## The stage (R290 to R296) -/

def State.outStage? (s : State) (n : BitVec 64) : Option Stage := s.out.stages.find? (fun g => g.epoch = n)

def State.updStage (s : State) (n : BitVec 64) (f : Stage → Stage) : State :=
  s.mapOut (fun o => { o with stages := updFirst (fun g => decide (g.epoch = n)) f o.stages })

/-- The stage in progress on BPk. -/
def State.bpStage (s : State) (k : Nat) : Option Stage := s.out.stages.find? (fun g => g.bp = k && !g.ended)

/-- The context and node of trajectory output. -/
def State.trajNode (s : State) : Option (Nat × Nat) :=
  match s.out.cfg with | some c => if c.ctx < 64 then some (c.ctx, c.node) else none | none => none

/-- FAIL: why rank 0 was not output (Table 14-6). With no step done it is the cut, whatever the ranks, since P alone
decides (R293). -/
def failOfTop (l : List StepRes) (ranked : Nat) : Nat :=
  match l.find? (fun r => match r.cand with | some x => x.1 = 0 && x.2.2 = 0 | none => false) with
  | some r => r.fail
  | none => if l ≠ [] ∧ ranked = 0 then 6 else 9

/-- What the taking of the output reads: the request, and with steps done or without a base the plan header and the ranks too. -/
def takeInputs (s : State) (g : Stage) : BM (Plan × List Byte × OutReq) :=
  if g.steps ≠ [] ∨ s.trajBase.isNone then stageInputs s g
  else do
    let q ← ofRd (rdBytes s (whoEngine g.bp g.ctx) 2 (g.outAddr + 128) 64)
    pure (planOf [], [], outReqOf q)

/-- Hand the record to the ledger, from the inputs of the stage and P; the instance's stage ends (R293 to R297). -/
def State.handOver (s : State) (n : BitVec 64) (p : Nat) (x : Plan × List Byte × OutReq) : State :=
  match s.outStage? n, s.out.cfg, s.openEp? n with
  | some g, some c, some e =>
    let l := g.steps.take p
    let pl := x.1
    let ranked := fld x.2.1 0 1
    let rq := x.2.2
    let best := (l.filter (fun r => r.cand.isSome && r.fail = 0)).getLast?
    let cont := match l.head? with | some r => if r.fail = 0 ∧ r.cand.isNone then some r else none | none => none
    let trunc := !e.fallback && !e.duty && (nextStep c ranked l).isSome
    let mapEp := match g.latch with | some x => x.epoch.toNat | none => 0
    let base := s.trajBase
    let baseEp := match base with | some b => b.epoch.toNat | none => 0
    let top := failOfTop l ranked
    let h : TrajHdr :=
      { epoch := n.toNat, sel := 5, issuer := 0, level := 0xFF, stale := g.stale, horizon := false, trunc := trunc,
        rel := false, cand := 0xFF, steps := p, fail := top, mapEp := 0, baseEp := baseEp, ts := rq.ts, v0 := rq.v0,
        a0 := rq.a0 }
    let r : TrajHdr × List TPoint × State :=
      if e.fallback then
        let m := s.mrpFor c pl rq
        ({ h with sel := 6, rel := m.2.1 }, m.1, m.2.2)
      else if e.duty then
        let m := s.mrpFor c pl rq
        ({ h with rel := m.2.1 }, m.1, m.2.2)
      else match best, cont with
        | some b, _ =>
          let x := b.cand.getD (0, 0, 0)
          ({ h with sel := if x.1 ≠ 0 then 3 else if b.newer then 2 else 1, level := x.2.2, horizon := b.horizon,
                    cand := x.2.1, fail := if x.1 = 0 then 0 else top, mapEp := mapEp, baseEp := 0 }, b.points, s)
        | none, some b => ({ h with sel := 4, mapEp := mapEp, baseEp := b.baseEp }, b.points, s)
        | none, none =>
          let m := s.mrpFor c pl rq
          ({ h with rel := m.2.1 }, m.1, m.2.2)
    let s := r.2.2.updEp n (fun e =>
      { e with selCase := r.1.sel, traj := trajBytes c.staleMs r.1 r.2.1, trajMapEpoch := BitVec.ofNat 64 r.1.mapEp })
    let s := s.mapOut (fun o => { o with stages := o.stages.filter (fun x => x.epoch ≠ n) })
    match s.inst? n g.ctx with
    | none => s
    | some x => if x.left ≤ 1 then s.instDone n g.ctx else s.updInst n g.ctx (fun y => { y with left := y.left - 1 })
  | _, _, _ => s

/-- An uncorrected error of the stage (R294): BLK_ERR, a fault record, the epoch withheld. -/
def State.stageError (s : State) (g : Stage) (e : BErr) : State :=
  let r := e.result
  let d := r.detail.toNat
  let s := s.updBlk g.bp (fun b =>
    { b with errClass := BitVec.ofNat 8 (d / 0x1000000), errWhere := BitVec.ofNat 8 (bitsAt d 16 8),
             errCtx := BitVec.ofNat 6 g.ctx, errCnt := b.errCnt + 1 })
  let s := s.fault { epoch := g.epoch, sev := 1, kind := 3, unit := g.bp, cls := classOf r.detail, ctx := some g.ctx,
                     node := g.bp, addr := if r.code = 2 then r.addr else 0, detail := r.detail }
  (s.withhold g.epoch whUnc).abandonInst g.epoch g.ctx

/-- Take the output at P steps; an access error of what it reads is an error of the stage (R294). -/
def State.takeOutput (s : State) (n : BitVec 64) (p : Nat) : State :=
  match s.outStage? n with
  | none => s
  | some g =>
    match takeInputs s g with
    | .error e => s.stageError g e
    | .ok x => s.handOver n p x

/-- Take the output if both values of P are known, or the twin's is not needed (R293). -/
def State.tryOutput (s : State) (n : BitVec 64) : State :=
  match s.outStage? n, s.openEp? n with
  | some g, some e =>
    if !g.ended then s
    else if s.needsTwin e then
      match e.twin.progressTwin with
      | some q => s.takeOutput n (min g.steps.length q)
      | none => s
    else s.takeOutput n g.steps.length
  | _, _ => s

/-- The stage of an epoch ends: its P goes to the twin (R293). -/
def State.endStage (s : State) (n : BitVec 64) : State :=
  match s.outStage? n with
  | none => s
  | some g =>
    if g.ended then s
    else
      let stale := match g.latch with | some l => s.isStale g.bp l | none => false
      let s := s.updStage n (fun g => { g with ended := true, stale := stale })
      let s := match s.openEp? n with
        | some e => if s.needsTwin e then s.send (.progress n (BitVec.ofNat 8 g.steps.length)) else s
        | none => s
      s.tryOutput n

/-- Whether the stage has a step left; an access error of its inputs counts as one. -/
def State.stageMore (s : State) (c : TrajCfg) (g : Stage) : Bool :=
  match stageInputs s g with
  | .ok x => (nextStep c (fld x.2.1 0 1) g.steps).isSome
  | .error _ => true

/-- The SELECT node of the trajectory graph has completed: its stage starts and latches the map (R290, R296). After the cut of an
epoch whose record has been handed over it changes nothing (R294). -/
def State.startStage (s : State) (n : BitVec 64) (c k : Nat) (d : BDesc) : State :=
  if (s.outStage? n).isSome || (s.openEp? n).any (fun e => decide (e.selCase ≠ 0)) then s
  else
    let base := (s.ctxOf c).base
    let ok := s.slotWhere k d.slot c = 0
    let fb := match s.openEp? n with | some e => e.fallback || e.duty | none => false
    let g : Stage :=
      { epoch := n, ctx := c, bp := k, started := true, cut := false, ended := false, slot := d.slot,
        setAddr := d.addr base 0, outAddr := d.addr base 2, latch := if ok then some (s.latchOf k d.slot) else none,
        stale := false, steps := [], cutTick := 0 }
    let s := s.mapOut (fun o => { o with stages := o.stages ++ [g] })
    if fb then s.endStage n else s

/-- One step of the stage on BPk completes (R291). -/
def State.stageAdvance (s : State) (k : Nat) : State :=
  match s.bpStage k, s.out.cfg with
  | some g, some c =>
    match stageStep s c g with
    | .error e => s.stageError g e
    | .ok none => s.endStage g.epoch
    | .ok (some r) =>
      let s := s.updStage g.epoch (fun g => { g with steps := g.steps ++ [r] })
      let g := { g with steps := g.steps ++ [r] }
      if s.stageMore c g then s else s.endStage g.epoch
  | _, _ => s

/-- The cut for epoch n on BPk (R293, R294). -/
def State.cutEpoch (s : State) (n : BitVec 64) (c : Nat) (nd : Node) : State :=
  match s.outStage? n with
  | some g =>
    if g.cut then s
    else (s.updStage n (fun g => { g with cut := true, cutTick := s.now })).endStage n
  | none =>
    let a := (s.ctxOf c).base + nd.desc
    let d := bdescOf (s.bytesAt a 64)
    let base := (s.ctxOf c).base
    let g : Stage :=
      { epoch := n, ctx := c, bp := nd.home - 24, started := false, cut := true, ended := false, slot := d.slot,
        setAddr := d.addr base 0, outAddr := d.addr base 2, latch := none, stale := false, steps := [],
        cutTick := s.now }
    (s.mapOut (fun o => { o with stages := o.stages ++ [g] })).endStage n

/-- Epochs whose cut is due on BPk: OUT_TICKS after the open event, instance of TRAJ_CTX not yet through. -/
def State.cutsDue (s : State) (k : Nat) : List (BitVec 64 × Nat × Node) :=
  match s.out.cfg, s.trajNode with
  | some c, some (ctx, node) =>
    s.tly.openEps.filterMap (fun e =>
      match (s.nodes e.n ctx)[node]? with
      | none => none
      | some nd =>
        if (nd.home = 24 + k && e.ctxs.contains ctx && (s.inst? e.n ctx).isSome && decide (e.openTick + c.outTicks ≤ s.now) &&
            (match s.outStage? e.n with | some g => !g.cut | none => true) && e.selCase = 0) then some (e.n, ctx, nd)
        else none)
  | _, _ => []

/-! ## ISSUER 1 records (R301) -/

/-- No record has been published for STALE_MS, and the role protocol reports no twin able to command: no edge of PAIR_ALIVE_IN
within 290,000 ticks (R301, R385). A stopped Hayward A issues nothing (R349). -/
def State.mrpDue (s : State) : Bool :=
  match s.out.cfg with
  | some c => s.islandOn false && decide (s.out.lastPub + c.staleMs * 100000 ≤ s.now) && !s.twinAlive
  | none => false

/-- A minimum-risk profile that Hayward A computes without a request, for epoch `n`: of the base with the start of R301, or
without a base, for which it has no plan header that the spec names, of a free path and start. FAIL, V0 and A0, and STATE_TS
where ISSUER is 0 or there is no base, come from nothing the spec names: free. -/
def State.hwaProfile (s : State) (c : TrajCfg) (n issuer : Nat) : List Byte × State :=
  let free := fun i => Config.freeWord (s.freeCnt + i)
  let ts := (Config.freeWide (s.freeCnt + 9)).toNat
  let r : List TPoint × Nat × Nat := match s.trajBase with
    | some b => (mrpPoints c (trajPoints b.traj) (lateStart b), b.epoch.toNat, if issuer = 1 then trajTs b.traj else ts)
    | none =>
      let ray : List TPoint := [{ t := 0#32, x := free 0, y := free 1, hx := free 2, hy := free 3, kappa := 0#32, v := 0#32, a := 0#32 }]
      (mrpPoints c ray (0#32, free 4, free 5), 0, ts)
  let h : TrajHdr :=
    { epoch := n, sel := 5, issuer := issuer, level := 0xFF, stale := false, horizon := false, trunc := false, rel := true,
      cand := 0xFF, steps := 0, fail := (free 6).toNat % 256, mapEp := 0, baseEp := r.2.1, ts := r.2.2, v0 := free 7, a0 := free 8 }
  (trajBytes c.staleMs h r.1, { s with freeCnt := s.freeCnt + 10 })

/-- The ISSUER 1 record, sent to the trajectory destinations. -/
def State.issueMrp (s : State) : State :=
  match s.out.cfg with
  | none => s
  | some c =>
    let p := s.hwaProfile c 0 1
    let b := p.1
    let s := p.2.mapOut (fun o => { o with alone := true, nextMrp := s.now + c.mrpPeriod, issued := o.issued ++ [b] })
    if s.tly.recSched.mask.getLsbD 2 then
      (List.range 32).foldl (fun a d =>
        if s.tly.recSched.dests.getLsbD d then
          (piecesOf (2048, b.length)).foldl (fun a p => a.sendAlone d p.1 (sub b (p.1 - 2048) p.2)) a
        else a) s
    else s

/-! ## Commands -/

/-- OUTPUT_STEP_COMPLETE. -/
def execOutputStepComplete (k : Die) (s : State) : Host.Outcome State Fault Refusal := .next ((s.stageAdvance k).settle)

/-- OUTPUT_CUT: every cut of BPk that is due. -/
def execOutputCut (k : Die) (s : State) : Host.Outcome State Fault Refusal :=
  .next (((s.cutsDue k).foldl (fun a x => a.cutEpoch x.1 x.2.1 x.2.2) s).settle)

/-- PROGRESS_TIMEOUT: 300 ticks after the cut the module uses its own P (R293). -/
def execProgressTimeout (k : Die) (s : State) : Host.Outcome State Fault Refusal :=
  .next (((s.out.stages.filter (fun g => g.bp = k.val && g.ended && g.cut && decide (g.cutTick + 300 ≤ s.now))).foldl
    (fun a g => a.takeOutput g.epoch g.steps.length) s).settle)

/-- MRP_STALE_EXPIRY. -/
def execMrpStaleExpiry (s : State) : Host.Outcome State Fault Refusal :=
  .next (if !s.out.alone && s.mrpDue then s.issueMrp else s)

/-- MRP_PERIOD_EXPIRY. -/
def execMrpPeriodExpiry (s : State) : Host.Outcome State Fault Refusal :=
  .next (if s.out.alone && s.mrpDue && decide (s.out.nextMrp ≤ s.now) then s.issueMrp else s)

end Sys2Proof.Machine
end

