-- ==== Sys2Proof/Machine/Units.lean ====
section
/-! DEFINITION. Engines as reset domains, failed units, and self-test slices (R361 to R365, R404, R408). -/

namespace Sys2Proof.Machine

/-! ## Engine reset (R408) -/

/-- Put a sheaf at the head of a lane. -/
def State.pushHead (s : State) (u sc : Nat) (sh : Sheaf) : State := s.updEng u (fun e => e.setLane sc (sh :: e.lane sc))

/-- The lane a golden sheaf came from (Table 18-5). -/
def goldLane (g : GoldEp) : Nat := if g.late || decide (3 ≤ g.deferrals) then 0 else 3

/-- A DISCARDED record of a sheaf that unit u ran for an abandoned instance (R105). -/
def State.discarded (s : State) (u ring entry : Nat) (i : SheafIndex) : State :=
  s.cplRecord ring { epoch := i.epoch, ctx := i.ctx, code := 0x20, ord := i.ord, gate := entry, engine := u, phase := false,
                     beats := 0, detail := 0#32, addr := 0 }

/-- The running sheaf returns to the head of its lane; that of an abandoned instance is discarded. -/
def State.returnSheaf (s : State) (u : Nat) : State :=
  match (s.eng u).running with
  | none => s
  | some r =>
    let s := s.updEng u (fun e => { e with running := none })
    let sh := r.sheaf
    match sh.src with
    | .golden =>
      match s.gold? sh.index.epoch with
      | some g =>
        (s.pushHead u (goldLane g) sh).updGold sh.index.epoch (fun g =>
          { g with state := if 3 ≤ g.deferrals then 2 else if g.late then 1 else 0 })
      | none => if sh.index.epoch = 0#64 then s.pushHead u 0 sh else s
    | .core entry ring => if r.dropped then s.discarded u ring entry sh.index else s.pushHead sh.home (s.ctxOf sh.index.ctx).sc sh
    | .warm => s.pushHead u 3 sh
    | .graph => if r.dropped then s else s.pushHead sh.home (s.ctxOf sh.index.ctx).sc sh

/-- Working state of a unit is lost; an output stage on it is an uncorrected error of its instance (R403, R408). -/
def State.clearUnit (s : State) (u : Nat) : State :=
  if u < 16 then s
  else if u < 24 then s.updCarder (u - 16) (fun _ => Carder.init)
  else
    let s := s.setLatch (u - 24) none
    match s.bpStage (u - 24) with
    | some g => (s.withhold g.epoch whUnc).abandonInst g.epoch g.ctx
    | none => s

/-- Reset of an engine's domain: in reset until UNIT_RESET_DONE. A slice that ran is due again. -/
def State.resetEngine (s : State) (u : Nat) : State :=
  let s := (s.returnSheaf u).clearUnit u
  let s := s.updEng u (fun e => { e with resetting := true })
  if (s.stest u).running.isSome then s.updStest u (fun t => { t with running := none, waiting := t.waiting + 1 }) else s

/-- The unit is failed until package reset, with a RETEST entry in the journal (R404, Table 23-6). -/
def State.failUnit (s : State) (u cls : Nat) : State :=
  let s := (s.returnSheaf u).clearUnit u
  let s := s.updEng u (fun e => { e with failed := true, retest := 0 })
  s.journalUnit 1 u 1 (BitVec.ofNat 32 cls)

/-- A fault record of severity 2 for a unit. -/
def State.unitFault (s : State) (u cls action : Nat) (n : BitVec 64) : State :=
  s.fault { epoch := n, sev := 2, kind := unitKind u, unit := unitIdx u, cls := cls, action := action, node := unitDie u }

/-- A golden sheaf, slice or overrun of unit u has failed: reset and run again first, or the second time failed
(R404). `again` is 1 for a golden sheaf, 2 for a slice. -/
def State.unitFails (s : State) (u cls again : Nat) (n : BitVec 64) : State :=
  if (s.eng u).retest ≠ 0 then (s.unitFault u cls 7 n).failUnit u cls
  else (((s.unitFault u cls 2 n).resetEngine u).updEng u (fun e => { e with retest := again }))

/-! ## Golden outcomes (Table 18-5) -/

/-- The golden sheaf's own place for its second run. -/
def retestSheaf (u v : Nat) : Sheaf := { goldSheaf 0#64 u v with index := { epoch := 0#64, ctx := 0x7F, node := v, ord := 0 } }

/-- The golden sheaf of N failed on engine u. -/
def State.goldFails (s : State) (n : BitVec 64) (u v : Nat) : State :=
  let t := s.now - (s.openTickOf n).getD s.now
  let s := s.updGold n (fun g => { g with state := 4, outcome := 1, tick := t, deferrals := s.hwa.deferrals.toNat })
  let s := s.mapHwa (fun h =>
    { h with goldFail := satInc h.goldFail, goldLast := 1#2, known := h.known ++ [s.now], engine := BitVec.ofNat 5 ((u + 1) % 24) })
  let s := (s.withhold n whGolden).unitFails u 0x23 1 n
  if (s.eng u).failed then s else s.pushHead u 0 (retestSheaf u v)

/-- The golden sheaf of N gave the known answer. -/
def State.goldPasses (s : State) (n : BitVec 64) (u : Nat) (late : Bool) : State :=
  let t := s.now - (s.openTickOf n).getD s.now
  let s := s.updGold n (fun g => { g with state := 4, outcome := if late then 3 else 0, tick := t, deferrals := 0 })
  s.mapHwa (fun h =>
    { h with goldPass := h.goldPass + 1, goldLast := if late then 3#2 else 0#2, deferrals := 0#4,
             engine := BitVec.ofNat 5 ((u + 1) % 24) })

/-- The 4 KiB that golden variant v has written on engine u match the known answer (R360). -/
def State.goldMatches (s : State) (u v : Nat) : Bool :=
  s.bytesAt (bankAddr (unitDie u) 0 + Config.goldenOut (unitKind u) v) 4096 ==
    pad 4096 (Tab.get [] s.hwa.answers (32 * unitKind u + v))

/-! ## Self-test slices (R361 to R365) -/

/-- Slices and worst-case duration of a unit (Table 18-12). -/
def sliceCount (u : Nat) : Nat := if u < 16 then 40 else if u < 24 then 32 else 24
def sliceTicks (u : Nat) : Nat := if u < 16 then 4200 else if u < 24 then 3800 else 3200

/-- The earliest open event of an epoch that may open (R364): the next period tick, else now; a tick that is due opens its epoch
now. -/
def State.earliestOpen (s : State) : Option Nat :=
  if s.tly.halted then none
  else match s.tly.sched with
    | some x => if x.mode = 1 then some (if x.period = 0 ∨ (s.isRole ∧ x.start + x.period ≤ s.now) then s.now else x.start + ((s.now - x.start) / x.period + 1) * x.period)
        else some s.now
    | none => some s.now

/-- Safety windows of the partition of unit u, in ticks (R364). -/
def State.safetyWindows (s : State) (u : Nat) : List (Nat × Nat) :=
  let p := (s.eng u).part.toNat
  let on := fun (c : WdgCfg) => c.enable && c.safety && decide (bitsAt c.parts p 1 = 1)
  (s.tly.openEps.flatMap (fun e => (s.wdgFor e.n).filterMap (fun c =>
    if on c.2 then some (e.openTick + c.2.openT, e.openTick + c.2.closeT) else none))) ++
  (match s.earliestOpen with
   | some t => (List.range 16).filterMap (fun st =>
       let c := (s.stage st).cfg
       if on c then some (t + c.openT, t + c.closeT) else none)
   | none => [])

/-- The gap rule at the current tick (R364). -/
def State.gapOk (s : State) (u : Nat) : Bool :=
  (s.safetyWindows u).all (fun w =>
    !(decide (w.1 ≤ s.now) && decide (s.now ≤ w.2)) && (decide (w.1 ≤ s.now) || decide (s.now + sliceTicks u ≤ w.1)))

/-- The sheaf that would start next. -/
def Eng.head? (e : Eng) : Option Sheaf := ((List.range 4).findSome? (fun sc => (e.lane sc).head?))

/-- Unit u is at a sheaf boundary. -/
def State.atBoundary (s : State) (u : Nat) : Bool :=
  s.unitOk u && (s.eng u).running.isNone && (s.stest u).running.isNone && (u < 24 || (s.bpStage (u - 24)).isNone)

/-- A slice of unit u may start as far as its own unit, the other slices of its die and the gap rule go (R362, R363, R404). -/
def State.sliceReady (s : State) (u : Nat) : Bool :=
  let t := s.stest u
  let again := (s.eng u).retest = 2
  s.atBoundary u && (again || decide (0 < t.waiting)) && (s.eng u).retest ≠ 1 &&
    (if again then true
     else if t.forced then (match (s.eng u).head? with | some sh => !isGolden sh | none => true)
     else (s.eng u).head?.isNone) &&
    (List.range 28).all (fun v => unitDie v ≠ unitDie u || (s.stest v).running.isNone) && s.gapOk u

/-- A slice of unit u may start: of a die's slices that could, that of the first unit in the order TE, CE, BP does (R361). -/
def State.sliceMayStart (s : State) (u : Nat) : Bool :=
  s.sliceReady u && (List.range u).all (fun v => unitDie v ≠ unitDie u || !s.sliceReady v)

/-- The next slice of u falls due: every STEST_PERIOD ticks from READY (R361, R363). -/
def State.sliceDue (s : State) (u : Nat) : State :=
  let t := s.stest u
  let due := if t.dueAt = 0 then (s.tly.readyTick.getD 0) + s.hwa.stPeriod else t.dueAt
  if s.tly.readyTick.isSome && (s.eng u).enabled && !(s.eng u).failed && decide (due ≤ s.now) then
    let miss := decide (0 < t.waiting)
    (s.updStest u (fun t => { t with dueAt := due + s.hwa.stPeriod, waiting := t.waiting + 1, forced := t.forced || miss })).mapHwa
      (fun h => if miss then { h with stMissed := satInc h.stMissed } else h)
  else s

/-- A slice starts. -/
def State.sliceStart (s : State) (u : Nat) : State :=
  if s.sliceMayStart u then
    let t := s.stest u
    let again := (s.eng u).retest = 2
    (s.updStest u (fun t =>
      if again then { t with running := some s.now }
      else { t with running := some s.now, waiting := t.waiting - 1, forced := t.forced && decide (1 < t.waiting) })).mapHwa (fun h =>
        { h with stUnit := BitVec.ofNat 5 u, stLast := 3#3, stForced := if t.forced && !again then satInc h.stForced else h.stForced })
  else s

/-- A slice has failed or overrun. -/
def State.sliceFails (s : State) (u cls : Nat) : State :=
  let s := s.updStest u (fun t => { t with running := none })
  let s := s.mapHwa (fun h =>
    { h with stUnit := BitVec.ofNat 5 u, stLast := if cls = 0x24 then 1#3 else 2#3, stFail := satInc h.stFail,
             known := h.known ++ [s.now] })
  s.unitFails u cls 2 0#64

/-- A slice ends in pass or fail. -/
def State.sliceEnd (s : State) (u : Nat) (pass : Bool) : State :=
  if (s.stest u).running.isNone then s
  else if pass then
    let s := s.updStest u (fun t => { t with running := none, next := (t.next + 1) % sliceCount u })
    (s.updEng u (fun e => { e with retest := if e.retest = 2 then 0 else e.retest })).mapHwa (fun h =>
      { h with stUnit := BitVec.ofNat 5 u, stLast := 0#3 })
  else s.sliceFails u 0x24

/-- STEST_SLICE_DUE. -/
def execStestSliceDue (u : Fin 28) (s : State) : Host.Outcome State Fault Refusal := .next (s.sliceDue u)

/-- STEST_SLICE_START. -/
def execStestSliceStart (u : Fin 28) (s : State) : Host.Outcome State Fault Refusal := .next (s.sliceStart u)

/-- STEST_SLICE_END. -/
def execStestSliceEnd (u : Fin 28) (pass : Bool) (s : State) : Host.Outcome State Fault Refusal := .next ((s.sliceEnd u pass).settle)

/-- STEST_SLICE_OVERRUN: W ticks after its start the slice has not ended (R365). -/
def execStestSliceOverrun (u : Fin 28) (s : State) : Host.Outcome State Fault Refusal :=
  .next (match (s.stest u).running with
    | some t => if t + sliceTicks u ≤ s.now then (s.sliceFails u 0x25).settle else s
    | none => s)

end Sys2Proof.Machine
end

