-- ==== Sys2Proof/Machine/Sched.lean ====
section
/-! DEFINITION. Sheaves on engines: starting, stealing, running and ending; core gates and engine doorbells
(R110 to R120, R163, R290). -/

namespace Sys2Proof.Machine

/-! ## Starting a sheaf (R112) -/

/-- Who a sheaf on unit u works for. -/
def sheafWho (u : Nat) (sh : Sheaf) : Who := if isGolden sh then whoGolden (unitDie u) else whoEngine (unitDie u) sh.index.ctx

/-- The base that relative addresses of a sheaf's descriptor count from. -/
def State.sheafBase (s : State) (u : Nat) (sh : Sheaf) : Nat :=
  if isGolden sh then bankAddr (unitDie u) 0 else (s.ctxOf sh.index.ctx).base

/-- The sheaf index its results depend on (R107, R358). -/
def sheafIdx (u : Nat) (sh : Sheaf) : SheafIndex :=
  if isGolden sh then
    let g := Config.goldenIndex (unitKind u) sh.index.node
    { epoch := BitVec.ofNat 64 g.1, ctx := g.2.1, node := g.2.2, ord := 0 }
  else sh.index

/-- A Carder's state at the start of a sheaf (R186). -/
def carderFor (desc : List Byte) (base ctx : Nat) (i : SheafIndex) : Carder :=
  { Carder.init with desc := desc, slots := (cdescOf desc).slotAddrs base, index := i, ctx := ctx }

/-- A PROGRAM sheaf loads its stores at its start; what fails there is its result (R188). -/
def State.startProg (s : State) (u : Nat) (desc : List Byte) (base : Nat) : State :=
  match (s.eng u).running with
  | some r =>
    if r.result.isSome || fld desc 0 1 != 1 then s
    else
      let x := s.progLoad (u - 16) base
      x.2.updEng u (fun e => { e with running := some { r with result := x.1 } })
  | none => s

/-- Start a sheaf on unit u: read its descriptor and latch what the operation latches. -/
def State.startSheaf (s : State) (u : Nat) (sh : Sheaf) : State :=
  let base := s.sheafBase u sh
  let r : List Byte × Option SheafResult := if isWarm sh then (List.replicate 64 0, some resOk) else match s.load (sheafWho u sh) sh.desc 64 with
    | .ok b => (b, none)
    | .error e => (List.replicate 64 0, some (resAccess (e.1, e.2, 0xFF)))
  let b : Option SheafResult × State := if u < 24 then (none, s)
    else if r.2.isSome then (none, s) else s.blkBegin (u - 24) sh.index.ctx (bdescOf r.1) base
  let s := b.2
  let s := s.updEng u (fun e =>
    { e with running := some { sheaf := sh, tick := s.now, beat := s.beat (unitDie u), desc := r.1,
                               result := r.2.orElse (fun _ => b.1), dropped := false } })
  let s := if 16 ≤ u ∧ u < 24 then
      (s.updCarder (u - 16) (fun _ => carderFor r.1 base sh.index.ctx (sheafIdx u sh))).startProg u r.1 base else s
  let s := if isWarm sh then s else s.eccRead sh.desc 64
  if isGolden sh && sh.index.epoch ≠ 0#64 then
    s.updGold sh.index.epoch (fun g =>
      { g with state := 3, late := decide ((s.openTickOf g.epoch).getD 0 + s.hwa.goldDue ≤ s.now) })
  else s

/-- Take the sheaf out of the place where `p` finds it first in a lane. -/
def State.takeFrom (s : State) (u sc : Nat) (p : Sheaf → Bool) : State :=
  s.updEng u (fun e => e.setLane sc ((e.lane sc).eraseP p))

/-- The lane and sheaf a unit starts next: after a golden failure its second run alone, else the head of the
lowest-numbered non-empty lane (R112, R404). -/
def Eng.next? (e : Eng) : Option (Nat × Sheaf) :=
  if e.retest = 1 then ((e.lane 0).find? (fun sh => isGolden sh && sh.index.epoch = 0#64)).map (fun sh => (0, sh))
  else if e.retest = 2 then none
  else (List.range 4).findSome? (fun sc => (e.lane sc).head?.map (fun sh => (sc, sh)))

/-- SHEAF_START on unit u. A forced slice that may run goes first, except before a golden sheaf (R363). -/
def State.sheafStart (s : State) (u : Nat) : State :=
  if !s.atBoundary u then s
  else if (s.stest u).forced && s.sliceMayStart u then s
  else match (s.eng u).next? with
    | none => s
    | some (sc, sh) => ((s.takeFrom u sc (fun x => x = sh)).startSheaf u sh).drainReady (unitDie u)

/-! ## Stealing (R113, R114) -/

/-- Victims of a thief in the order of Table 5-4; for a Blocker, which steals nothing, the order of R110 alone. -/
def victims (u : Nat) : List Nat :=
  let k := unitDie u
  let others := [ringNext k, ringPrev k, ringOpp k]
  if u < 16 then
    let j := u % 4
    ((List.range 3).map (fun i => 4 * k + (j + 1 + i) % 4)) ++
      others.flatMap (fun d => (List.range 4).map (fun i => 4 * d + (j + i) % 4))
  else if u < 24 then
    let j := (u - 16) % 2
    (16 + 2 * k + (1 - j)) :: others.flatMap (fun d => (List.range 2).map (fun i => 16 + 2 * d + (j + i) % 2))
  else others.map (fun d => 24 + d)

/-- A thief may take this sheaf from a victim. -/
def stealable (sameDie : Bool) (sh : Sheaf) : Bool := !isGolden sh && (sh.place = 0 || (sh.place = 1 && sameDie))

/-- The lane and sheaf that a thief takes from a victim (R113). -/
def State.stealFrom (s : State) (u v : Nat) : Option (Nat × Sheaf) :=
  let e := s.eng v
  let same := unitDie u = unitDie v
  if !s.unitOk v || e.part ≠ (s.eng u).part then none
  else (List.range 4).findSome? (fun sc =>
    if (if same then 1 else 2) ≤ e.count sc then
      ((e.lane sc).reverse.find? (stealable same)).map (fun sh => (sc, sh))
    else none)

/-- Erase the last element equal to `x`. -/
def eraseLast {α : Type} [DecidableEq α] (x : α) (l : List α) : List α := (l.reverse.erase x).reverse

/-- STEAL by unit u. -/
def State.steal (s : State) (u : Nat) : State :=
  if !s.atBoundary u || (s.eng u).retest ≠ 0 || (s.eng u).head?.isSome || ((s.stest u).forced && s.sliceMayStart u) then s
  else match (victims u).findSome? (fun v => (s.stealFrom u v).map (fun x => (v, x))) with
    | none => s
    | some (v, sc, sh) =>
      let s := s.updEng v (fun e => e.setLane sc (eraseLast sh (e.lane sc)))
      (s.startSheaf u sh).drainReady (unitDie v)

/-! ## Running -/

/-- Perform the operation of the running sheaf of unit u and keep its result. -/
def State.runSheaf (s : State) (u : Nat) : State :=
  match (s.eng u).running with
  | none => s
  | some r =>
    if r.result.isSome then s
    else
      let sh := r.sheaf
      let base := s.sheafBase u sh
      let x : SheafResult × State :=
        if u < 16 then thrSheaf s (sheafWho u sh) base (sheafIdx u sh) r.desc
        else if u < 24 then
          let e := u - 16
          let c := s.carder e
          match fld r.desc 0 1 with
          | 1 => if c.ended || c.err ≠ 0#32 then (carderResult c.err c.errAddr.toNat, s)
            else progSheaf (s.updCarder e (fun c =>
              { carderFor c.desc base c.ctx c.index with prog := c.prog, curves := c.curves })) e base
          | 2 => depthSheaf s (sheafWho u sh) base (sheafIdx u sh) r.desc
          | _ => (resFail 4 0 0, s)
        else blkSheaf s (u - 24) sh.index.ctx (bdescOf r.desc) base
      x.2.updEng u (fun e => { e with running := some { r with result := some x.1 } })

/-- Perform the operation if the running sheaf of unit u names it. -/
def State.runOp (s : State) (u op : Nat) : State :=
  match (s.eng u).running with
  | some r => if fld r.desc 0 1 = op then s.runSheaf u else s
  | none => s

/-! ## Ending (R105, R120, R124, R163, R285, R406) -/

/-- REF_BEATS of a sheaf (R124). -/
def refBeats (r : Running) : Nat := match r.sheaf.src with | .core _ _ => fld r.desc 14 2 | _ => r.sheaf.ref

/-- The context's graph reports in the GX3 layout. -/
def State.isGx3 (s : State) (n : BitVec 64) (c : Nat) : Bool := match s.graphAt n c with | some g => g.format = 3 | none => false

/-- Suspects of a fault that names no context: their epochs are withheld, the engine is reset; at most eight are replayed (R406,
R407). -/
def State.suspect (s : State) (u cls : Nat) (sh : Sheaf) : State :=
  (((s.withhold sh.index.epoch whUnc).mapFlt (fun f =>
    { f with suspects := if f.suspects.length < 8 then f.suspects ++ [⟨u, cls, sh⟩] else f.suspects }))).resetEngine u

/-- What a Blocker counts at the end of a sheaf (Table 13-14). -/
def State.blkEnd (s : State) (k c : Nat) (r : SheafResult) : State :=
  let d := r.detail.toNat
  (s.setLatch k none).updBlk k (fun b =>
    { b with doneCnt := b.doneCnt + 1, errClass := if r.code = 0 then b.errClass else BitVec.ofNat 8 (d / 0x1000000),
             errWhere := if r.code = 0 then b.errWhere else BitVec.ofNat 8 (bitsAt d 16 8),
             errCtx := if r.code = 0 then b.errCtx else BitVec.ofNat 6 c,
             errCnt := if r.code = 0 then b.errCnt else b.errCnt + 1 })

/-- The golden sheaf's end: its second run is judged at once, an error fails it, else GOLDEN_COMPARE follows. -/
def State.goldEnd (s : State) (u : Nat) (sh : Sheaf) (r : SheafResult) : State :=
  if sh.index.epoch = 0#64 then
    if r.code = 0 ∧ s.goldMatches u sh.index.node then s.updEng u (fun e => { e with retest := 0 })
    else s.unitFails u 0x23 1 0#64
  else if r.code = 0 then s
  else s.goldFails sh.index.epoch u sh.index.node

/-- The SELECT node of the trajectory graph ends: the output stage starts (R290). -/
def State.maybeStage (s : State) (u : Nat) (r : Running) : State :=
  let i := r.sheaf.index
  if 24 ≤ u ∧ s.trajNode = some (i.ctx, i.node) ∧ (s.inst? i.epoch i.ctx).isSome then
    s.startStage i.epoch i.ctx (u - 24) (bdescOf r.desc)
  else s

/-- Report the end of a sheaf that unit u ran. -/
def State.reportSheaf (s : State) (u : Nat) (r : Running) (res : SheafResult) : State :=
  let sh := r.sheaf
  let i := sh.index
  let run := s.beat (unitDie u) - r.beat
  let gx3 := s.isGx3 i.epoch i.ctx
  if isWarm sh then s
  else if isGolden sh then s.goldEnd u sh res
  else
    let s := if res.code = 0 then s else s.sheafFault u sh res gx3
    let s := if r.dropped then s else s.updEp i.epoch (fun e =>
      { e with beats := Tab.upd (0, 0) e.beats i.ctx (fun p => (p.1 + run, p.2 + refBeats r)) })
    let s := match sh.src with
      | .core entry ring =>
        let s := s.cplRecord ring
          { epoch := i.epoch, ctx := i.ctx, code := if r.dropped then 0x20 else res.code, ord := i.ord, gate := entry,
            engine := u, phase := false, beats := run, detail := if r.dropped then 0#32 else res.detail,
            addr := if r.dropped ∨ res.code ≠ 2 then 0 else res.addr }
        if r.dropped then s
        else if res.code = 0 then s.gateSheafDone i.ctx entry else s.withhold i.epoch whUnc
      | _ =>
        if r.dropped then s
        else if res.code = 0 then (s.maybeStage u r).completeNode i.epoch i.ctx i.node
        else s.withhold i.epoch whUnc
    if res.code ≠ 0 ∧ gx3 then s.suspect u (classOf res.detail) sh else s

/-- What the checkers of a unit's parts report during a sheaf (R164, R205, R285): corrected errors count for the die; an uncorrected
one is class 0x02 (ECC) or 0x03 (a checker), unless an error had already ended the sheaf. -/
def partResult (p : PartErr) (r : SheafResult) : SheafResult :=
  match p.failed, r.code with
  | some chk, 0 => { code := 1, detail := BitVec.ofNat 32 ((if chk then 3 else 2) * 0x1000000), addr := 0 }
  | _, _ => r

/-- SHEAF_END on unit u: run what has not run, free the unit and report. -/
def State.sheafEnd (s : State) (u : Nat) (p : PartErr) : State :=
  let s := s.runSheaf u
  match (s.eng u).running with
  | none => s
  | some r =>
    let s := (List.range p.corrected).foldl (fun t _ => t.corrected (unitDie u)) s
    let res := partResult p (r.result.getD resOk)
    let s := s.updEng u (fun e => { e with running := none })
    let s := if u < 16 then s
      else if u < 24 then s.updCarder (u - 16) (fun _ => Carder.init)
      else s.blkEnd (u - 24) r.sheaf.index.ctx res
    let s := s.reportSheaf u r res
    forUpto 4 (fun k a => a.drainReady k) s

/-! ## Commands: sheaves -/

/-- SHEAF_START. -/
def execSheafStart (u : Fin 28) (s : State) : Host.Outcome State Fault Refusal := .next ((s.sheafStart u).settle)

/-- STEAL. -/
def execSteal (thief : Fin 24) (s : State) : Host.Outcome State Fault Refusal := .next ((s.steal thief).settle)

/-- SHEAF_END. -/
def execSheafEnd (u : UnitEnd) (s : State) : Host.Outcome State Fault Refusal := .next ((s.sheafEnd u.unit u.parts).settle)

/-- GEMM. -/
def execGemm (e : Fin 16) (s : State) : Host.Outcome State Fault Refusal := .next (s.runOp e 1)

/-- IGEMM. -/
def execIgemm (e : Fin 16) (s : State) : Host.Outcome State Fault Refusal := .next (s.runOp e 2)

/-- GEMM_W_ACTIVATION. -/
def execGemmWActivation (e : Fin 16) (s : State) : Host.Outcome State Fault Refusal := .next (s.runOp e 3)

/-- PROGRAM. -/
def execProgram (e : Fin 8) (s : State) : Host.Outcome State Fault Refusal := .next (s.runOp (16 + e.val) 1)

/-- DEPTHWISE. -/
def execDepthwise (e : Fin 8) (s : State) : Host.Outcome State Fault Refusal := .next (s.runOp (16 + e.val) 2)

/-- SEED. -/
def execSeed (k : Die) (s : State) : Host.Outcome State Fault Refusal := .next (s.runOp (24 + k.val) 1)

/-- OPTIMISE. -/
def execOptimise (k : Die) (s : State) : Host.Outcome State Fault Refusal := .next (s.runOp (24 + k.val) 2)

/-- CHECK. -/
def execCheck (k : Die) (s : State) : Host.Outcome State Fault Refusal := .next (s.runOp (24 + k.val) 3)

/-- SELECT. -/
def execSelect (k : Die) (s : State) : Host.Outcome State Fault Refusal := .next (s.runOp (24 + k.val) 4)

/-- COMMIT. -/
def execCommit (k : Die) (s : State) : Host.Outcome State Fault Refusal := .next (s.runOp (24 + k.val) 5)

/-- CHECK_LIST. -/
def execCheckList (k : Die) (s : State) : Host.Outcome State Fault Refusal := .next (s.runOp (24 + k.val) 6)

/-! ## Commands: Carder instructions (Tables 9-3 and 9-4) -/

/-- NOP. -/
def execCNop (e : Fin 8) (s : State) : Host.Outcome State Fault Refusal := .next (s.cNopI e)

/-- END. -/
def execCEnd (e : Fin 8) (s : State) : Host.Outcome State Fault Refusal := .next (s.cEndI e)

/-- LOOP. -/
def execCLoop (e : Fin 8) (count : BitVec 16) (body : BitVec 10) (s : State) : Host.Outcome State Fault Refusal :=
  .next (s.cLoopI e count.toNat body.toNat)

/-- SETA. -/
def execSeta (e : Fin 8) (ar : BitVec 3) (v : BitVec 14) (s : State) : Host.Outcome State Fault Refusal :=
  .next (s.cSetaI e ar.toNat v.toNat)

/-- SETS. -/
def execSets (e : Fin 8) (sd : BitVec 4) (v : BitVec 22) (s : State) : Host.Outcome State Fault Refusal :=
  .next (s.cSetsI e sd.toNat v.toNat)

/-- SPAR. -/
def execSpar (e : Fin 8) (sd : BitVec 4) (index : BitVec 12) (s : State) : Host.Outcome State Fault Refusal :=
  .next (s.cSparI e sd.toNat index.toNat)

/-- FENCE. -/
def execCFence (e : Fin 8) (s : State) : Host.Outcome State Fault Refusal := .next (s.cFenceI e)

/-- XLD. -/
def execXld (e : Fin 8) (slot ar : BitVec 3) (ss : BitVec 4) (len : BitVec 16) (s : State) : Host.Outcome State Fault Refusal :=
  .next (s.cXldI e slot.toNat ar.toNat ss.toNat len.toNat)

/-- XST. -/
def execXst (e : Fin 8) (slot ar : BitVec 3) (ss : BitVec 4) (len : BitVec 16) (s : State) : Host.Outcome State Fault Refusal :=
  .next (s.cXstI e slot.toNat ar.toNat ss.toNat len.toNat)

/-- TRANSFER_END. -/
def execTransferEnd (e : Fin 8) (index : Nat) (s : State) : Host.Outcome State Fault Refusal := .next (s.cTransferEnd e index)

/-- GATHER. -/
def execGather (e : Fin 8) (vd va : BitVec 5) (slot : BitVec 3) (ss : BitVec 4) (km : BitVec 3) (s : State) :
    Host.Outcome State Fault Refusal := .next (s.cGatherI e vd.toNat va.toNat slot.toNat ss.toNat km.toNat)

/-- SCATTER. -/
def execScatter (e : Fin 8) (vs va : BitVec 5) (slot : BitVec 3) (ss : BitVec 4) (km : BitVec 3) (s : State) :
    Host.Outcome State Fault Refusal := .next (s.cScatterI e vs.toNat va.toNat slot.toNat ss.toNat km.toNat)

/-- LD. -/
def execLd (e : Fin 8) (vd : BitVec 5) (fmt : BitVec 4) (ar : BitVec 3) (inc : Bool) (km : BitVec 3) (off : BitVec 10)
    (s : State) : Host.Outcome State Fault Refusal := .next (s.cLdI e vd.toNat fmt.toNat ar.toNat inc km.toNat off.toNat)

/-- ST. -/
def execSt (e : Fin 8) (vs : BitVec 5) (fmt : BitVec 4) (ar : BitVec 3) (rnd : BitVec 2) (sat : Bool) (q : BitVec 4)
    (inc : Bool) (off : BitVec 6) (s : State) : Host.Outcome State Fault Refusal :=
  .next (s.cStI e vs.toNat fmt.toNat ar.toNat rnd.toNat sat q.toNat inc off.toNat)

/-- VALU_F. -/
def execValuF (e : Fin 8) (vd va vb : BitVec 5) (km : BitVec 3) (fn : Byte) (s : State) : Host.Outcome State Fault Refusal :=
  .next (s.cValuFI e vd.toNat va.toNat vb.toNat km.toNat fn.toNat)

/-- VALU_I. -/
def execValuI (e : Fin 8) (vd va vb : BitVec 5) (km : BitVec 3) (fn : Byte) (s : State) : Host.Outcome State Fault Refusal :=
  .next (s.cValuII e vd.toNat va.toNat vb.toNat km.toNat fn.toNat)

/-- VCMP_F. -/
def execVcmpF (e : Fin 8) (vd va vb : BitVec 5) (km : BitVec 3) (fn : Byte) (s : State) : Host.Outcome State Fault Refusal :=
  .next (s.cVcmpFI e vd.toNat va.toNat vb.toNat km.toNat fn.toNat)

/-- VCMP_I. -/
def execVcmpI (e : Fin 8) (vd va vb : BitVec 5) (km : BitVec 3) (fn : Byte) (s : State) : Host.Outcome State Fault Refusal :=
  .next (s.cVcmpII e vd.toNat va.toNat vb.toNat km.toNat fn.toNat)

/-- VSEL. -/
def execVsel (e : Fin 8) (vd va vb : BitVec 5) (km : BitVec 3) (_fn : Byte) (s : State) : Host.Outcome State Fault Refusal :=
  .next (s.cVselI e vd.toNat va.toNat vb.toNat km.toNat)

/-- KOP. -/
def execKop (e : Fin 8) (vd va vb : BitVec 5) (km : BitVec 3) (fn : Byte) (s : State) : Host.Outcome State Fault Refusal :=
  .next (s.cKopI e vd.toNat va.toNat vb.toNat km.toNat fn.toNat)

/-- VFUNC. -/
def execVfunc (e : Fin 8) (vd va _vb : BitVec 5) (km : BitVec 3) (fn : Byte) (s : State) : Host.Outcome State Fault Refusal :=
  .next (s.cVfuncI e vd.toNat va.toNat km.toNat fn.toNat)

/-- VRED. -/
def execVred (e : Fin 8) (vd va _vb : BitVec 5) (km : BitVec 3) (fn : Byte) (s : State) : Host.Outcome State Fault Refusal :=
  .next (s.cVredI e vd.toNat va.toNat km.toNat fn.toNat)

/-- VTSUM. -/
def execVtsum (e : Fin 8) (vd _va vb : BitVec 5) (km : BitVec 3) (fn : Byte) (s : State) : Host.Outcome State Fault Refusal :=
  .next (s.cVtsumI e vd.toNat vb.toNat km.toNat fn.toNat)

/-- VPERM. -/
def execVperm (e : Fin 8) (vd va vb : BitVec 5) (km : BitVec 3) (_fn : Byte) (s : State) : Host.Outcome State Fault Refusal :=
  .next (s.cVpermI e vd.toNat va.toNat vb.toNat km.toNat)

/-- VCMPX. -/
def execVcmpx (e : Fin 8) (vd va _vb : BitVec 5) (km : BitVec 3) (fn : Byte) (s : State) : Host.Outcome State Fault Refusal :=
  .next (s.cVcmpxI e vd.toNat va.toNat km.toNat fn.toNat)

/-- WIN. -/
def execWin (e : Fin 8) (_vd _va _vb : BitVec 5) (_km : BitVec 3) (fn : Byte) (s : State) : Host.Outcome State Fault Refusal :=
  .next (s.cWinI e (s.ctxOf (s.carder e).ctx).base fn.toNat)

/-! ## Core gates and doorbells (R117 to R119) -/

/-- The initiator is an application core. -/
def isCore : Initiator → Bool
  | .core _ => true
  | _ => false

/-- Index of the first free entry of a context's gate ring, or the deputy's failing read. -/
def State.freeGate (s : State) (n : BitVec 64) (c k len : Nat) : Except (AccStatus × Nat) (Option Nat) :=
  (List.range len).foldlM (fun (a : Option Nat) i =>
    if a.isSome || s.cx.gates.any (fun g => g.ctx = c && g.entry = i) then pure a
    else (s.load (whoDeputy k) (s.gateAddr n c i + 16) 1).map (fun b => if leNat b = 0 then some i else none)) none

/-- Write an open gate entry for a released CORE node (R117). -/
def State.openGate (s : State) (n : BitVec 64) (c i : Nat) : State :=
  match s.graphAt n c, (s.nodes n c)[i]? with
  | some gr, some nd =>
    let k := nd.home - 32
    if !s.dieRuns k then s
    else
      let drop := fun (t : State) => t.mapCx (fun x => { x with coreWait := x.coreWait.erase (n, c, i) })
      match s.freeGate n c k gr.ringLen with
      | .error e => (drop s).gateError n c k e
      | .ok none => s
      | .ok (some j) =>
        let bytes := pad 32 (leBytes 8 n.toNat ++ leBytes 4 i ++ leBytes 4 nd.desc ++ [1, BitVec.ofNat 8 k])
        match s.store (whoDeputy k) (s.gateAddr n c j) bytes with
        | (.error e, _) => (drop s).gateError n c k e
        | (.ok _, t) => (drop t).mapCx (fun x =>
            { x with gates := x.gates ++ [{ ctx := c, entry := j, epoch := n, node := i, die := k, closing := false, ords := [], out := 0 }] })
  | _, _ => s

/-- The context owns the granule at an address. -/
def State.ownsGranule (s : State) (c a : Nat) : Bool :=
  match placeOf a with
  | .gran k n _ => (s.bank (2048 * k + n)).owner.toNat = c
  | .hbm _ _ => s.rangeOwner a = some c
  | _ => false

/-- Code of Table 5-7 for a doorbell, 0 when it is accepted. -/
def State.doorbellCheck (s : State) (u c gate ord a : Nat) : Nat :=
  let e := s.eng u
  let x := s.ctxOf c
  match s.cx.gates.find? (fun g => g.ctx = c && g.entry = gate && !g.closing) with
  | none => 0x10
  | some g =>
    if e.part.toNat ≠ x.part ∨ !s.unitOk u then 0x11
    else if g.ords.contains ord then 0x12
    else if !s.ownsGranule c a then 0x13
    else if laneCap u ≤ e.count x.sc then 0x14
    else if 64 ≤ e.accepted + e.unread then 0x15 else 0

/-- An 8-byte write of EQ_DOORBELL of engine u (R119). -/
def State.eqDoorbell (s : State) (u : Nat) (v : Nat) : State :=
  let c := bitsAt v 0 6
  let a := bitsAt v 6 34 * 64
  let ord := bitsAt v 40 10
  let gate := bitsAt v 50 14
  let r := s.doorbellCheck u c gate ord a
  match s.cx.gates.find? (fun g => g.ctx = c && g.entry = gate && !g.closing) with
  | some g =>
    if r = 0 then
      let sh : Sheaf :=
        { index := { epoch := g.epoch, ctx := c, node := g.node, ord := ord }, src := .core gate u, kind := unitKind u, place := 0,
          home := u, desc := a, ref := 0, bound := 30400, expired := 0 }
      let s := s.mapCx (fun x =>
        { x with gates := updFirst (fun h => sameGate g h) (fun h => { h with ords := h.ords ++ [ord], out := h.out + 1 }) x.gates })
      (s.updEng u (fun e => { e with accepted := e.accepted + 1 })).pushLane u (s.ctxOf c).sc sh
    else s.updEng u (fun e =>
      { e with refCode := BitVec.ofNat 8 r, refCtx := BitVec.ofNat 6 c, refOrd := BitVec.ofNat 10 ord, refCnt := e.refCnt + 1 })
  | none => s.updEng u (fun e =>
      { e with refCode := BitVec.ofNat 8 r, refCtx := BitVec.ofNat 6 c, refOrd := BitVec.ofNat 10 ord, refCnt := e.refCnt + 1 })

/-- A write of EQ_GATE_DONE on die k (R117). -/
def State.eqGateDone (s : State) (k : Nat) (v : Nat) : State :=
  let c := bitsAt v 0 6
  let entry := bitsAt v 8 14
  match s.cx.gates.find? (fun g => g.ctx = c && g.entry = entry && g.die = k && !g.closing) with
  | none => s
  | some g =>
    if bitsAt v 24 8 = 0 then
      match s.writeGateState g 2 with
      | (some e, t) => (t.dropGate g).gateError g.epoch g.ctx g.die e
      | (none, t) =>
        let t := t.mapCx (fun x => { x with gates := updFirst (fun h => sameGate g h) (fun h => { h with closing := true }) x.gates })
        if g.out = 0 then t.closeGate { g with closing := true } else t
    else s.abandonInst g.epoch c

/-- GATE_ENTRY_OPEN for a waiting CORE node. -/
def execGateEntryOpen (ctx : Fin 64) (node : Nat) (s : State) : Host.Outcome State Fault Refusal :=
  .next (match s.cx.coreWait.find? (fun w => w.2.1 = ctx.val && w.2.2 = node) with
    | some w => (s.openGate w.1 ctx node).settle
    | none => s)

/-- EQ_DOORBELL: a 4-byte write is ignored; writers other than application cores are discarded (R118, R119). -/
def execEqDoorbell (w : Initiator) (e : Fin 24) (wide : Bool) (v : BitVec 64) (s : State) : Host.Outcome State Fault Refusal :=
  .next (if isCore w && wide && s.dieRuns (unitDie e) then s.eqDoorbell e v.toNat else s)

/-- EQ_GATE_DONE. -/
def execEqGateDone (w : Initiator) (k : Die) (v : BitVec 32) (s : State) : Host.Outcome State Fault Refusal :=
  .next (if isCore w && s.dieRuns k then (s.eqGateDone k v.toNat).settle else s)

end Sys2Proof.Machine
end

