-- ==== Sys2Proof/Machine/Ingest.lean ====
section
/-! DEFINITION. Sensor ingest: tables and their checks, samples, closing a channel for an epoch, forwarding closures and
agreeing the input set (R302 to R314, R380). -/

namespace Sys2Proof.Machine

/-! ## Tables (R305) -/

def chanCfgOf (b : List Byte) : IngChanCfg :=
  { batch := fld b 0 1 = 2, ctx := fld b 1 1 % 64, startState := fld b 2 1, missZero := fld b 3 1 % 2 = 1,
    matchA := fld b 4 2, matchB := fld b 6 2, anyVid := bitsAt (fld b 8 2) 15 1 = 1, vid := fld b 8 2 % 4096, nbuf := fld b 10 1,
    slotBytes := fld b 12 4, bufAddr := fld b 16 5, recAddr := fld b 21 5, msgBytes := fld b 26 2, maxMsgs := fld b 28 2,
    holdFirst := fld b 32 4, holdCnt := fld b 36 4 }

def ingStateOf (b : List Byte) : IngState :=
  { cond := fld b 0 1, action := fld b 1 1, be := fld b 2 1 % 2 = 1, consT := bitsAt (fld b 2 1) 1 1 = 1,
    consF := bitsAt (fld b 2 1) 2 1 = 1, fw := fld b 3 1, foff := fld b 4 2, nextT := fld b 6 1, nextF := fld b 7 1,
    val := BitVec.ofNat 32 (fld b 8 4), mask := BitVec.ofNat 32 (fld b 12 4) }

/-- The range [a, a+n) lies in the Granary range. -/
def inGranary (a n : Nat) : Bool := decide (granaryBase ≤ a) && decide (a + n ≤ granaryBase + 0x40000000)

/-- First failing byte of a channel entry at byte `o` (Table 15-4, R449). -/
def chanBad (camera hold1k : Bool) (nStates o mode : Nat) (c : IngChanCfg) : Option Nat :=
  firstFail [(mode = 1 || mode = 2, o), (decide (c.startState < nStates), o + 2), (!camera || c.matchB = 0, o + 6),
    (!camera || (!c.anyVid && c.vid = 0), o + 8), (decide (5 ≤ c.nbuf) && decide (c.nbuf ≤ 16), o + 10),
    (decide (c.slotBytes % 64 = 0) && decide (c.slotBytes ≤ 0x4000000) && (!c.batch || c.slotBytes = c.msgBytes * c.maxMsgs), o + 12),
    (c.bufAddr % 64 = 0 && inGranary c.bufAddr c.slotBytes, o + 16),
    (c.recAddr % 64 = 0 && inGranary c.recAddr 64, o + 21),
    (if c.batch then decide (64 ≤ c.msgBytes) && decide (c.msgBytes ≤ 1024) && c.msgBytes % 64 = 0 else c.msgBytes = 0, o + 26),
    (if c.batch then decide (1 ≤ c.maxMsgs) && decide (c.maxMsgs ≤ 4096) else c.maxMsgs = 0, o + 28),
    (decide (c.holdCnt ≤ if hold1k then 1024 else 256), o + 36)]

/-- First failing byte of a state entry at byte `o` (Table 15-5). -/
def ingStateBad (nStates o : Nat) (e : IngState) : Option Nat :=
  firstFail [(decide (e.cond ≤ 5), o), (decide (e.action ≤ 6), o + 1), (decide (1 ≤ e.fw) && decide (e.fw ≤ 8), o + 3),
    (decide (e.nextT < nStates), o + 6), (decide (e.nextF < nStates), o + 7), (!(e.action = 2 && e.val.toNat % 4 = 3), o + 8)]

/-- Areas of a channel: address, length, byte of its address field. -/
def chanAreas (o : Nat) (c : IngChanCfg) : List (Nat × Nat × Nat) :=
  [(c.bufAddr, c.nbuf * c.slotBytes, o + 16), (c.recAddr, c.nbuf * 64, o + 21)]

/-- First area that overlaps an earlier one, as its byte. -/
def areasBad : List (Nat × Nat × Nat) → List (Nat × Nat × Nat) → Option Nat
  | _, [] => none
  | seen, a :: r => if seen.any (fun b => !disjoint a.1 a.2.1 b.1 b.2.1) then some a.2.2 else areasBad (a :: seen) r

/-- Least of a list of positions. -/
def leastOf (l : List Nat) : Option Nat := match l with | [] => none | x :: r => some (r.foldl min x)

/-- A table read from `b` for a stream, or DETAIL and the offset for RESULT (R305, R505). -/
def parseIngTable (hold1k : Bool) (stream : Nat) (b : List Byte) : Except (Nat × Nat) IngTable :=
  let nc := fld b 5 1
  let ns := fld b 6 1
  match firstFail [(fld b 0 4 = 0x31544749, 0), (fld b 4 1 = stream, 4), (decide (1 ≤ nc) && decide (nc ≤ 8), 5),
      (decide (1 ≤ ns) && decide (ns ≤ 64), 6), (decide (10000 ≤ fld b 8 4) && decide (fld b 8 4 ≤ 300000000), 8)] with
  | some o => .error (8, o)
  | none =>
    if b.length ≠ 64 + 64 * nc + 16 * ns then .error (16, 0)
    else
      let at' := fun i => 64 + 64 * i
      let chans := (List.range nc).map (fun i => chanCfgOf (sub b (at' i) 64))
      let states := (List.range ns).map (fun i => ingStateOf (sub b (at' nc + 16 * i) 16))
      let camera := bitsAt stream 4 1 = 0
      let bad := chans.zipIdx.filterMap (fun c => chanBad camera hold1k ns (at' c.2) (fld b (at' c.2) 1) c.1) ++
        states.zipIdx.filterMap (fun e => ingStateBad ns (at' nc + 16 * e.2) e.1) ++
        (areasBad [] (chans.zipIdx.flatMap (fun c => chanAreas (at' c.2) c.1))).toList
      match leastOf bad with
      | some o => .error (8, o)
      | none => .ok { enable := fld b 7 1 % 2 = 1, fwd := bitsAt (fld b 7 1) 1 1 = 1, closeTicks := fld b 8 4, chans := chans, states := states }

/-! ## Sides (R302, R314) -/

/-- SIDE of this module: 1 when its serial is the higher of the pair. -/
def State.side (s : State) : Nat :=
  match s.pair.twin with | some t => if t.1.toNat < s.pair.serial.toNat then 1 else 0 | none => 0

/-- Stream b is carried by this module's own port. -/
def State.isLocal (s : State) (b : Nat) : Bool := bitsAt b 5 1 == s.side

/-- This module closes the channels of stream b itself: its own, and every one while the role protocol reports no twin (R314). -/
def State.closesSelf (s : State) (b : Nat) : Bool := s.isLocal b || !s.seesTwin

/-- Forward a message about a stream that this module owns with FWD set in the table `t` that governs it; in order, behind what
waits for an open event (R314). -/
def State.forward (s : State) (b : Nat) (t : Option IngTable) (m : DMsg) : State :=
  if t.any (·.fwd) && s.isLocal b && s.linkUp then
    if (s.stream b).fwdQ = [] then s.send m else s.updStream b (fun x => { x with fwdQ := x.fwdQ ++ [.now m] })
  else s

/-- Forward the tag of a BEGIN with its ARRIVE_TICK; before the open event of its epoch that tick is not known, and the message waits
for it with all that follows (R311, R314). -/
def State.forwardBegin (s : State) (b ch : Nat) (t : Option IngTable) (n : BitVec 64) (arrive : Int) : State :=
  if (s.openEp? n).isSome then s.forward b t (.fwdBegin (BitVec.ofNat 8 b) (BitVec.ofNat 8 ch) n (BitVec.ofInt 32 arrive))
  else if t.any (·.fwd) && s.isLocal b && s.linkUp then s.updStream b (fun x => { x with fwdQ := x.fwdQ ++ [.begin ch n arrive] })
  else s

/-- What can be forwarded of a stream's queue is sent. A BEGIN whose epoch is decided already has no ARRIVE_TICK that can still be
counted: a free value. -/
def State.flushFwd (b : Nat) : List FwdItem → State → State
  | [], s => s.updStream b (fun x => { x with fwdQ := [] })
  | .now m :: r, s => (s.send m).flushFwd b r
  | .begin ch n t :: r, s =>
    match s.openEp? n with
    | some e => (s.send (.fwdBegin (BitVec.ofNat 8 b) (BitVec.ofNat 8 ch) n (BitVec.ofInt 32 (t - e.openTick)))).flushFwd b r
    | none =>
      if n.toNat ≤ s.tly.opened.toNat then
        let w := s.freeWord
        (w.2.send (.fwdBegin (BitVec.ofNat 8 b) (BitVec.ofNat 8 ch) n w.1)).flushFwd b r
      else s.updStream b (fun x => { x with fwdQ := .begin ch n t :: r })

/-! ## Input agreement (R380) -/

/-- Compare the two INPUT messages once both are there; agreed inputs let held nodes go. -/
def State.checkInput (s : State) (n : BitVec 64) : State :=
  match s.openEp? n with
  | some e =>
    match e.twin.inputTwin with
    | some t =>
      if e.twin.inputSent && e.twin.inputAgreed.isNone then
        let own := s.inputSet n
        (s.updEp n (fun e => { e with twin := { e.twin with inputAgreed := some (decide (own = t)) } })).tryEpoch n
      else s
    | none => s
  | none => s

/-- Send INPUT once all channels have closed for N. -/
def State.inputsReady (s : State) (n : BitVec 64) : State :=
  match s.openEp? n with
  | some e =>
    if s.talks e && !e.twin.inputSent && s.inputsClosed n then
      let x := s.inputSet n
      let s := s.send (.input n (BitVec.ofNat 32 x.1) (digBytes x.2))
      (s.updEp n (fun e => { e with twin := { e.twin with inputSent := true } })).checkInput n
    else s
  | none => s

/-! ## Closing (R309 to R312) -/

/-- The channel entry that governs epoch n. -/
def State.chanCfg (s : State) (n : BitVec 64) (b ch : Nat) : Option IngChanCfg :=
  match (s.stream b).tableFor n with | some t => if t.enable then t.chans[ch]? else none | none => none

/-- The lowest epoch that is not decided: the oldest open one, or the next to open. -/
def State.firstUndecided (s : State) : Nat :=
  match s.tly.openEps with | e :: _ => e.n.toNat | [] => s.tly.opened.toNat + 1

/-- The epoch for which channel ch of stream b closes next. -/
def State.nextClose (s : State) (b ch : Nat) : BitVec 64 :=
  let t := s.stream b
  let n := max ((s.chan b ch).closedTo.toNat + 1) s.firstUndecided
  let starts := (t.old.map (fun e => e.1.toNat)).filter (fun m => decide (n < m))
  BitVec.ofNat 64 (((n :: starts).find? (fun m => (s.chanCfg (BitVec.ofNat 64 m) b ch).isSome)).getD n)

/-- LAST_ERR of a failed write (Table 15-8). -/
def ingErr : AccStatus → Nat
  | .notOwned => 1 | .unavailable => 2 | _ => 3

/-- A failed write faults the channel and aborts its sample (R312). -/
def State.chanFault (s : State) (n : BitVec 64) (b ch ctx : Nat) (e : AccStatus × Nat) : State :=
  let s := s.updStream b (fun t => { t with lastErr := BitVec.ofNat 8 (ingErr e.1) })
  let s := s.updChan b ch (fun x =>
    ({ x with fault := true, live := none } : IngChan).updEp n (fun p => { p with sample := none, msgs := [], present := false, cause := none }))
  s.fault { epoch := n, sev := 1, kind := 0x0A, unit := b, cls := accClass e.1, ctx := some ctx, addr := e.2 }

/-- Closure of the channel for N is complete. -/
def State.closeDone (s : State) (n : BitVec 64) (b ch : Nat) : State :=
  let cause := match (s.chan b ch).ep? n with | some p => p.cause.getD 1 | none => 3
  let s := s.updChan b ch (fun x =>
    { x.updEp n (fun p => { p with closed := true, cause := some cause }) with closedTo := n })
  let s := s.forward b ((s.stream b).tableFor n) (.fwdClose (BitVec.ofNat 8 b) (BitVec.ofNat 8 ch) (BitVec.ofNat 8 cause) n)
  (s.inputsReady n).tryEpoch n

/-- Write the slot and then its record (R308, R311), and complete the closure or fault the channel. -/
def State.landSlot (s : State) (n : BitVec 64) (b ch : Nat) (c : IngChanCfg) (payload : List Byte) : State :=
  let k := n.toNat % max 1 c.nbuf
  let w := whoIngest c.ctx
  let x := s.chan b ch
  let rec' := sampleRecord b ch c x.begun ((x.ep? n).getD (IngEp.init n))
  match s.store w (c.bufAddr + k * c.slotBytes) payload with
  | (.error e, t) => t.chanFault n b ch c.ctx e
  | (.ok _, t) =>
    match t.store w (c.recAddr + 64 * k) rec' with
    | (.error e, t) => t.chanFault n b ch c.ctx e
    | (.ok _, t) => t.closeDone n b ch

/-- The sample or the messages of the epoch that closes next have landed. -/
def State.landed (s : State) (b ch : Nat) : State :=
  let n := s.nextClose b ch
  let x := s.chan b ch
  match s.chanCfg n b ch, x.ep? n with
  | some c, some p =>
    let ready := !x.fault && !p.closed && (s.openEp? n).isSome &&
      (if c.batch then p.cause.isSome && p.msgs ≠ []
       else p.sample.isSome && (s.closesSelf b || p.cause.isSome))
    if ready then
      let s := s.updChan b ch (fun x => x.updEp n (fun p => { p with present := true }))
      s.landSlot n b ch c (slotPayload c { p with present := true })
    else s
  | _, _ => s

/-- The closure of an epoch with nothing in it: the record with PRESENT = 0, or with MISS_ZERO the zero fill first. -/
def State.closeAbsent (s : State) (n : BitVec 64) (b ch : Nat) (c : IngChanCfg) (cause : Nat) : State :=
  let s := s.updChan b ch (fun x => x.updEp n (fun p => { p with cause := some cause }))
  if c.missZero then s else s.landSlot n b ch c []

/-- Closure of the channel for N begins with a cause of R309; a sample in progress ends there under cause 3. -/
def State.beginClose (s : State) (n : BitVec 64) (b ch cause : Nat) : State :=
  let x := s.chan b ch
  match s.chanCfg n b ch with
  | none => s
  | some c =>
    let p := (x.ep? n).getD (IngEp.init n)
    if x.fault || p.closed || p.cause.isSome then s
    else
      let cut := match x.live with | some m => if m.epoch = n ∧ cause = 3 then some { m with trunc := true, ended := true } else none | none => none
      let p' : IngEp := match cut with
        | some m => if c.batch then { p with msgs := p.msgs ++ [m] } else { p with sample := some m }
        | none => p
      let s := s.updChan b ch (fun x =>
        { x.updEp n (fun _ => p') with live := if cut.isSome then none else x.live })
      if (if c.batch then p'.msgs ≠ [] else p'.sample.isSome) then
        s.updChan b ch (fun x => x.updEp n (fun p => { p with cause := some cause }))
      else s.closeAbsent n b ch c cause

/-- CLOSE_TICKS have passed since the open event of the epoch that closes next (R309 rule 3). -/
def State.closeTimeout (s : State) (b ch : Nat) : State :=
  let n := s.nextClose b ch
  match (s.stream b).tableFor n, s.openTickOf n with
  | some t, some o =>
    if s.closesSelf b && (s.openEp? n).isSome && decide (o + t.closeTicks ≤ s.now) then s.beginClose n b ch 3 else s
  | _, _ => s

/-- The zero fill of the epoch that closes next has landed. -/
def State.zeroFilled (s : State) (b ch : Nat) : State :=
  let n := s.nextClose b ch
  let x := s.chan b ch
  match s.chanCfg n b ch, x.ep? n with
  | some c, some p =>
    if !x.fault && c.missZero && p.cause.isSome && !p.closed && p.msgs = [] && p.sample.isNone then
      let s := s.updChan b ch (fun x => x.updEp n (fun p => { p with zeroed := true }))
      s.landSlot n b ch c (List.replicate c.slotBytes 0)
    else s
  | _, _ => s

/-- Rule 2 of R309: a message tagged above the BATCH channel's next epoch has begun, and none of that epoch is in progress. -/
def State.batchOnce (s : State) (b ch : Nat) : State :=
  let n := s.nextClose b ch
  let x := s.chan b ch
  match s.chanCfg n b ch with
  | some c =>
    if c.batch && s.closesSelf b && (s.openEp? n).isSome && decide (n.toNat < x.topTag.toNat) && x.live.all (fun m => m.epoch ≠ n) then
      s.beginClose n b ch 2
    else s
  | none => s

/-- The rule for every open epoch in number order, as far as closures complete at once. -/
def State.batchClose (s : State) (b ch : Nat) : State := (List.range 4).foldl (fun a _ => a.batchOnce b ch) s

/-! ## Tables taking effect, resets (R305, R408) -/

/-- INGEST_TABLE_WRITE takes effect at epoch `e`. -/
def State.applyIngTable (s : State) (b : Nat) (t : IngTable) (e : BitVec 64) : State :=
  s.updStream b (fun x =>
    { x with old := x.old.filter (fun o => decide (s.firstUndecided < o.1.toNat)) ++ [(e, x.table)], table := some t, since := e,
             chans := (List.range 8).foldl (fun m ch => Tab.upd IngChan.init m ch (fun c =>
               let st := match t.chans[ch]? with | some g => g.startState | none => 0
               { c.abort with cur := st, fault := false })) x.chans })

/-- Reset of the ingest subsystem: samples in progress abort, every channel of an open epoch closes with
PRESENT = 0, after its zero fill where it has MISS_ZERO (DEDUCED, R309 rule 3). -/
def State.ingestReset (s : State) : State :=
  s.tly.openEps.foldl (fun a e =>
    (a.channelsFor e.n).foldl (fun a c =>
      let x := a.chan c.1 c.2.1
      if a.chanClosed e.n c.1 c.2.1 || x.fault then a
      else
        let a := a.updChan c.1 c.2.1 (fun x =>
          (x.abort).updEp e.n (fun p => { p with sample := none, msgs := [], present := false }))
        a.closeAbsent e.n c.1 c.2.1 c.2.2 3) a)
    (s.mapIng (fun i => { i with streams := i.streams.map (fun t =>
      (t.1, { t.2 with fwdQ := [], chans := t.2.chans.map (fun c => (c.1, { c.2.abort with cur := t.2.startOf c.1 })) })) }))

/-- Forward what an open event has let go. -/
def State.flushAll (s : State) : State :=
  (s.ing.streams.map (·.1)).foldl (fun a b => State.flushFwd b (a.stream b).fwdQ a) s

/-- The open event of N fixes ARRIVE_TICK of what began before it (R311). -/
def State.fixArrivals (s : State) (n : BitVec 64) (openTick : Nat) : State :=
  let fix := fun (m : IngSample) => if m.epoch = n then { m with arrive := m.arrive - openTick } else m
  (s.mapIng (fun i => { i with streams := i.streams.map (fun t => (t.1, if !s.isLocal t.1 then t.2 else { t.2 with chans := t.2.chans.map (fun c =>
    (c.1, { c.2 with live := c.2.live.map fix,
                     eps := c.2.eps.map (fun p => { p with sample := p.sample.map fix, msgs := p.msgs.map fix }) })) })) })).flushAll

/-! ## Commands -/

/-- INGEST_SAMPLE_LANDED. -/
def execIngestSampleLanded (stream : Fin 64) (ch : Fin 8) (s : State) : Host.Outcome State Fault Refusal :=
  .next (((s.landed stream ch).batchClose stream ch).settle)

/-- INGEST_CLOSE_TIMEOUT. -/
def execIngestCloseTimeout (stream : Fin 64) (ch : Fin 8) (s : State) : Host.Outcome State Fault Refusal :=
  .next ((s.closeTimeout stream ch).settle)

/-- INGEST_ZERO_FILL_DONE. -/
def execIngestZeroFillDone (stream : Fin 64) (ch : Fin 8) (s : State) : Host.Outcome State Fault Refusal :=
  .next (((s.zeroFilled stream ch).batchClose stream ch).settle)

end Sys2Proof.Machine
end

