-- ==== Sys2Proof/Machine/Security.lean ====
section
/-! DEFINITION. The key vault: attestation evidence and transport pairs, installing a wrapped key, decrypting weights and
replaying the decryptions when a stack returns (R457 to R465). -/

namespace Sys2Proof.Machine

/-! ## Words of the boot and identity registers (Tables 1-9, 23-7, 23-9) -/

def State.dieIdWord (s : State) (node : Nat) : BitVec 32 := s.boot.dieId.getD node 0

/-- FAB_FEAT of a node: CAP in bits [9:8], EN in bits [1:0]. -/
def State.featWord (s : State) (node : Nat) : Nat := (s.boot.cap.getD node 0).toNat * 256 + (s.boot.en.getD node 0).toNat

def State.bjUnits (s : State) : Nat := (s.boot.stackCons.toNat * 16 + s.boot.stackOut.toNat) * 16 + s.boot.dieDis.toNat

/-- GX3 (bit 0) and HOLD_1K (bit 1) are enabled in the package (R448). -/
def State.featOn (s : State) (bit : Nat) : Bool :=
  (List.range 4).all (fun k => !s.dieRuns k || (s.boot.en.getD k 0).getLsbD bit) && (s.boot.en.getD 4 0).getLsbD bit

/-! ## Attestation (R457 to R459) -/

def first32 (l : List Byte) : List Byte := l.take 32
def keyOf (l : List Byte) : BitVec 256 := BitVec.ofNat 256 (leNat (first32 l))
def keyBytes (k : BitVec 256) : List Byte := leBytes 32 k.toNat

/-- MEAS extended by one image (R457). -/
def measExtend (m : BitVec 384) (x : ImgInfo) : BitVec 384 :=
  sha384Word (digBytes m ++ [BitVec.ofNat 8 x.ty, BitVec.ofNat 8 x.root] ++ leBytes 4 x.version.toNat ++
    leBytes 4 x.rollback.toNat ++ digBytes x.hash)

/-- Seeds of the device identity keys (R458). -/
def edSeed : List Byte := first32 (sha384 (keyBytes Config.deviceSecret ++ asciiBytes "GX4-ED"))
def mldsaSeed : List Byte := first32 (sha384 (keyBytes Config.deviceSecret ++ asciiBytes "GX4-MLDSA"))

/-- IMG[i] of the evidence. -/
def imgBytes (l : List ImgInfo) (i : Nat) : List Byte :=
  match l.find? (fun x => x.ty = i + 1) with
  | none => List.replicate 64 0
  | some x => [BitVec.ofNat 8 x.ty, BitVec.ofNat 8 x.root, 0, 0] ++ leBytes 4 x.version.toNat ++ leBytes 4 x.rollback.toNat ++
      [0, 0, 0, 0] ++ digBytes x.hash

/-- Bytes 0 to 3711 of the evidence (Table 24-2) for a nonce and transport pair `ident`. -/
def State.evidenceBody (s : State) (nonce : BitVec 256) (ident : Nat) : List Byte :=
  let pub := Config.pairPublic ident
  pad 512 (leBytes 4 0x56455847 ++ leBytes 2 1 ++ [BitVec.ofNat 8 (bit01 s.boot.slot), BitVec.ofNat 8 s.sec.rollback] ++
      leBytes 8 s.pair.serial.toNat ++ keyBytes nonce ++ digBytes s.sec.meas ++
      (List.range 5).flatMap (imgBytes s.sec.imgs) ++
      (List.range 5).flatMap (fun n => leBytes 4 (s.dieIdWord n).toNat) ++ leBytes 4 (s.featWord 4) ++
      leBytes 4 s.bjUnits ++ leBytes 4 s.boot.engDis.toNat ++ leBytes 4 s.boot.cluDis.toNat ++
      [BitVec.ofNat 8 s.mbx.master.toNat, BitVec.ofNat 8 (bit01 s.hwa.splitA + 2 * bit01 s.hwa.splitB),
       BitVec.ofNat 8 s.sec.revoke.toNat, 0] ++ leBytes 8 s.tly.latest.toNat) ++
    pad 32 pub.1 ++ pad 1184 pub.2 ++ pad 32 (Config.ed25519Public edSeed) ++ pad 1952 (Config.mldsaPublic mldsaSeed)

/-- The signed evidence, 7,168 bytes. -/
def State.evidence (s : State) (nonce : BitVec 256) (ident : Nat) : List Byte :=
  let b := s.evidenceBody nonce ident
  pad 7168 (b ++ pad 64 (Config.ed25519Sign edSeed b) ++ pad 3309 (Config.mldsaSign mldsaSeed b))

/-- ATTEST: the evidence of the current pair, or of a new one for a new nonce (R459). -/
def State.attestation (s : State) (nonce : BitVec 256) : List Byte × State :=
  let fresh : TxPair := { nonce := nonce, ident := s.sec.made, evidence := s.evidence nonce s.sec.made }
  let make := (fresh.evidence, s.mapSec (fun x =>
    if s.installing then { x with made := x.made + 1, nextPair := some fresh }
    else { x with made := x.made + 1, pair := some fresh }))
  match s.sec.nextPair.or s.sec.pair with
  | some p => if p.nonce = nonce then (p.evidence, s) else make
  | none => make

/-! ## Wrapped keys (R461, R462) -/

/-- Unwrap a wrapped key of 1,280 bytes: its kind and key. -/
def State.unwrapKey (s : State) (b : List Byte) : Except CmdErr KeyPlace :=
  let zeros := fun o n => leNat (sub b o n) = 0
  match firstFail [(fld b 0 4 = 0x4B575847, 0), (fld b 4 2 = 1, 4), (fld b 6 1 = 1 || fld b 6 1 = 2, 6), (zeros 7 1, 7),
      (zeros 1180 4, 1180), (zeros 1232 48, 1232)] with
  | some o => .error (dataErr o)
  | none =>
    match s.sec.pair with
    | none => .error (codeErr 0x20)
    | some p =>
      let ssX := Config.x25519 p.ident (sub b 48 32)
      let ssK := Config.mlkemDecaps p.ident (sub b 80 1088)
      let kek := sha384 (asciiBytes "GX4-KEK" ++ ssK ++ ssX ++ sub b 80 1088 ++ sub b 48 32 ++
        (Config.pairPublic p.ident).1 ++ leBytes 8 s.pair.serial.toNat)
      if fld b 8 8 ≠ s.pair.serial.toNat ∨ fld b 16 32 ≠ p.nonce.toNat ∨ leNat ssX = 0 then .error (codeErr 0x30)
      else match Config.gcmOpen (keyOf kek) (sub b 1168 12) (sub b 0 48) (sub b 1184 48) with
        | some k => .ok { kind := fld b 6 1, key := keyOf k }
        | none => .error (codeErr 0x30)

def State.keyAt (s : State) (i : Nat) : Option KeyPlace := Tab.get none s.sec.places i

def State.setKey (s : State) (i : Nat) (k : KeyPlace) : State :=
  s.mapSec (fun x => { x with places := Tab.set none x.places i (some k) })

/-! ## Weight decryption (R463 to R465) -/

/-- The range lies in one stack. -/
def oneStack (a n : Nat) : Option Nat :=
  if a + n ≤ 4 * stackBytes ∧ a / stackBytes = (a + n - 1) / stackBytes then some (a / stackBytes) else none

/-- The destination lies in the HBM range of one context or in the staging range. -/
def State.destOwned (s : State) (a n : Nat) : Bool :=
  s.cx.ctxs.any (fun e => e.2.state ≠ 0 && decide (e.2.base ≤ a) && decide (a + n ≤ e.2.base + e.2.len)) ||
    (decide (s.kcp.stageLo ≤ a) && decide (a + n ≤ s.kcp.stageHi))

/-- First argument of WEIGHT_DECRYPT that fails by itself: key place, source, destination; the length is held against the file. -/
def State.weightArgs (s : State) (place src dst len : Nat) : Option CmdErr :=
  (firstFail [(decide (place < 16) && (s.keyAt place).any (fun k => k.kind = 1), 0),
    (decide (src + len ≤ 4 * stackBytes), 8),
    (dst % 64 = 0 && (oneStack dst (len - 40)).isSome && s.destOwned dst (len - 40) && disjoint dst (len - 40) src len, 16)]).map argErr

/-- Decrypt an encrypted weight file with a weight key: its plaintext, none when the tag fails. -/
def weightPlain (k : BitVec 256) (f : List Byte) : Option (List Byte) :=
  let n := fld f 16 8
  Config.gcmOpen k (sub f 0 12) (sub f 0 24) (sub f 24 (n + 16))

/-- The entry that a command's destination replaces or extends the list by; none when a 257th would be needed. -/
def replayAdd (l : List Replay) (r : Replay) : Option (List Replay) :=
  let rest := l.filter (fun x => disjoint x.dst (x.len - 40) r.dst (r.len - 40))
  if 256 ≤ rest.length then none else some (rest ++ [r])

/-- The background work of WEIGHT_DECRYPT (R463, R464): read and decrypt. The destination then holds undefined bytes until
the command completes; a failed tag leaves it zero. The plaintext is kept for the effect epoch. A length below 40 agrees with no
file; one that disagrees fails before L itself does (R505). -/
def State.weightWork (s : State) (r : Replay) : Except CmdErr (List Byte) × State :=
  match s.keyAt r.place with
  | none => (.error (argErr 0), s)
  | some k =>
    if r.len < 40 then (.error (lenErr 24), s)
    else match s.load whoVaultSrc r.src r.len, s.judgeRange whoVault r.dst (r.len - 40) with
    | .ok f, none =>
      let n := fld f 16 8
      if r.len ≠ n + 40 then (.error (lenErr 24), s)
      else if n < 64 ∨ n % 64 ≠ 0 then (.error (dataErr 16), s)
      else if (replayAdd s.sec.replays r).isNone then (.error (codeErr 0x41), s)
      else match weightPlain k.key f with
        | none => (.error (codeErr 0x30), (s.store whoVault r.dst (List.replicate n 0)).2)
        | some p => let b := s.freeBytes n; (.ok p, b.2.write r.dst b.1)
    | _, _ => (.error (codeErr 0x40), s)

/-- WEIGHT_DECRYPT has completed with OK. -/
def State.listReplay (s : State) (r : Replay) : State :=
  match replayAdd s.sec.replays r with
  | some l => s.mapSec (fun x => { x with replays := l })
  | none => s

/-- Note how the latest run of a listed command ended. -/
def State.noteReplay (s : State) (r : Replay) (ok : Bool) : State :=
  s.mapSec (fun x => { x with replays := x.replays.map (fun y => if y = r then { y with ok := ok } else y) })

/-- Run one listed command again after stack k has returned. -/
def State.replayOne (k : Nat) (s : State) (r : Replay) : State :=
  let fails := (((s.noteReplay r false).store whoVault r.dst (List.replicate (r.len - 40) 0)).2).fault
    { sev := 1, kind := 0x0D, cls := 0x2B, addr := r.dst }
  if oneStack r.dst (r.len - 40) ≠ some k then s
  else if r.src / stackBytes = k ∨ (r.src + r.len - 1) / stackBytes = k then fails
  else match (s.keyAt r.place).filter (fun x => x.kind = 1), s.load whoVaultSrc r.src r.len with
    | some key, .ok f =>
      match weightPlain key.key f with
      | some p => ((s.noteReplay r true).store whoVault r.dst p).2
      | none => fails
    | _, _ => fails

/-- Replay every listed command whose destination lies on stack k (R465). -/
def State.replayStack (s : State) (k : Nat) : State := s.sec.replays.foldl (State.replayOne k) s

/-- Every replay that is due has completed with OK: none has failed, and no stack that holds a destination is on its way back
(R391, R465). -/
def State.replaysDone (s : State) : Bool :=
  s.sec.replays.all (fun r => r.ok && (match oneStack r.dst (r.len - 40) with
    | some k => !Tab.get false s.flt.stackRst k || s.boot.stackOut.getLsbD k
    | none => true))

/-- Reset of the crypto subsystem: key places, replay list and transport pair are lost (R459, R460, R465). -/
def State.cryptoReset (s : State) : State :=
  s.mapSec (fun x => { x with pair := none, nextPair := none, places := [], replays := [] })

end Sys2Proof.Machine
end

