-- ==== Sys2Proof/Machine/Resets.lean ====
section
/-! DEFINITION. Reset domains: application clusters, stacks, IOD subsystems, compute dies; fences, routes and the return to
service (R408 to R414, R511). -/

namespace Sys2Proof.Machine

/-! ## Application clusters (R408) -/

/-- The home forgets a cluster: its copies of a line go, and what waits on it is answered. -/
def State.cohGone (cl : Nat) (s : State) (line : Nat) : State :=
  (s.cohPut cl line none).cohTake (fun m => m.kind = 0x11 && m.dest = cl && m.line = line && m.req = 1)

/-- Cluster c loses its caches: dirty lines are uncorrected errors of their CTX. -/
def State.dropCaches (s : State) (c : Nat) : State :=
  let mine := s.core.lines.filter (fun e => e.1 / 2 ^ 34 = c)
  let s := (mine.filter (fun e => e.2.own)).foldl (fun a e =>
    (a.withholdCtx e.2.ctx).fault { epoch := a.ctxEpoch e.2.ctx, sev := 1, kind := 5, unit := c, cls := 1, ctx := some e.2.ctx,
                                    node := clusterDie c, addr := 64 * (e.1 % 2 ^ 34) }) s
  let s := s.mapCore (fun x =>
    { x with lines := Tab.drop (fun k => k / 2 ^ 34 = c) x.lines,
             msgs := x.msgs.filter (fun m => !((m.kind = 0x10 || m.kind = 0x11) && m.dest = c && (m.kind = 0x10 || m.req ≠ 0))) })
  let lines := (s.core.dir.filter (fun e => e.2.owner = some c || e.2.sharers.contains c)).map (·.1) ++
    (s.core.msgs.filter (fun m => m.dest = c)).map (·.line)
  let s := lines.foldl (State.cohGone c) s
  let s := s.mapCore (fun x => { x with txns := x.txns.map (fun t =>
    (t.1, { t.2 with waiting := t.2.waiting.filter (fun w => w.core / 4 ≠ c) })) })
  (s.core.txns.filter (fun t => match t.2.req with | some q => q.core / 4 = c | none => false)).foldl (fun a t => a.cohNext t.1) s

/-- The initiator lies in cluster c. -/
def inCluster (c : Nat) : Initiator → Bool
  | .core k => k.val / 4 = c
  | _ => false

/-- Reset of application cluster c: core state, L1 and L2 are lost; replies still on their way become chaff (R410). -/
def State.clusterReset (s : State) (c : Nat) : State :=
  let s := s.dropCaches c
  let s := (coresOf c).foldl (fun a k => a.updCoreOf k (fun _ => Core.init)) s
  let s := s.mapCore (fun x => { x with time0 := Tab.set 0 x.time0 c (s.beat (clusterDie c)) })
  let s := s.mapFab (fun f => { f with pend := f.pend.filter (fun p => !inCluster c p.src),
                                       replies := f.replies.filter (fun r => !inCluster c r.src) })
  s.mapFlt (fun f => { f with clusters := Tab.set false f.clusters c true })

/-! ## Stacks (R408, R413) -/

/-- The context has a range on stack k. -/
def Ctx.onStack (x : Ctx) (k : Nat) : Bool :=
  x.state ≠ 0 && x.len ≠ 0 && decide (x.base < (k + 1) * stackBytes) && decide (k * stackBytes < x.base + x.len)

/-- Open epochs with a contributor whose range lies on stack k lose a unit. -/
def State.withholdStack (s : State) (k : Nat) : State :=
  s.updEps (fun e => if e.ctxs.any (fun c => (s.ctxOf c).onStack k) then { e with withhold := e.withhold ||| whUnitLost } else e)

/-- A stack is back in service: the weights whose destination lies on it are decrypted again (R465). -/
def State.stackBack (s : State) (k : Nat) : State :=
  if Tab.get false s.flt.stackRst k ∧ (s.hmcOf k).state = 2#2 then
    (s.mapFlt (fun f => { f with stackRst := Tab.set false f.stackRst k false })).replayStack k
  else s

/-! ## IOD subsystems (R408, R409) -/

/-- A port of the switch after its reset: queues empty, the gate control list at its first entry. -/
def SwPort.restart (p : SwPort) (now : Nat) : SwPort :=
  { p with queues := [], sending := none, paused := none, hwaOut := [], gclPos := 0, gclEnd := if p.gcl = [] then 0 else now + 4 * ((p.gcl.head?.map (·.2)).getD 0) }

/-- The switch loses its queues and buffer; its tables come again from the configuration store. -/
def State.switchReset (s : State) : State :=
  (forUpto 16 (fun p a => a.updPort p (fun x => x.restart s.time.swq)) s).mapSw (fun w =>
    { w with host := [], hwa := [], ingest := [], blocked := [], meters := [], seqGen := [], recov := [], syncs := [] })

/-- Reset of IOD subsystem i: 0 ingest, 1 Denpa link, 2 switch, 3 crypto and key vault. -/
def State.iodReset (s : State) (i : Nat) : State :=
  let s := s.mapFlt (fun f => { f with iodSub := Tab.set false f.iodSub i true })
  match i with
  | 0 => s.ingestReset
  | 1 => s.linkFault
  | 2 => s.switchReset
  | _ =>
    let s := (s.cmds.active.filter (fun a => moduleLocal a.opcode)).foldl
      (fun t a => t.endCmd a { code := 0x40, epoch := t.effEpoch a }) s
    s.cryptoReset

/-! ## Homes of nodes (R110, R413) -/

/-- A unit that can be a home of partition p. -/
def State.homeOk (s : State) (p u : Nat) : Bool :=
  let e := s.eng u
  e.enabled && !e.failed && !e.resetting && e.part.toNat = p && s.dieRuns (unitDie u)

/-- First available engine of a kind in partition p, in victim order from `home`, the home itself first. -/
def State.homeFor (s : State) (p home : Nat) (sameDie : Bool) : Option Nat :=
  (home :: victims home).find? (fun u => s.homeOk p u && (!sameDie || unitDie u = unitDie home))

/-- FREE nodes homed on die k move to the first engine of their kind; their old homes are kept (R413). -/
def State.rehomeDie (s : State) (k : Nat) : State :=
  forUpto 64 (fun c a =>
    let x := a.ctxOf c
    match x.graph with
    | none => a
    | some g =>
      let moves := g.nodes.zipIdx.filterMap (fun n =>
        if n.1.kind < 3 && n.1.place = 0 && unitDie n.1.home = k then (a.homeFor x.part n.1.home false).map (fun u => (n.2, n.1.home, u))
        else none)
      a.updCtx c (fun y =>
        { y with moved := y.moved ++ moves.map (fun m => (m.1, m.2.1)),
                 graph := some { g with nodes := moves.foldl (fun l m => l.modify m.1 (fun n => { n with home := m.2.2 })) g.nodes } })) s

/-- FREE nodes return to their homes on die k (R414). -/
def State.unrehomeDie (s : State) (k : Nat) : State :=
  forUpto 64 (fun c a =>
    let x := a.ctxOf c
    match x.graph with
    | none => a
    | some g =>
      let back := x.moved.filter (fun m => unitDie m.2 = k)
      a.updCtx c (fun y =>
        { y with moved := y.moved.filter (fun m => unitDie m.2 ≠ k),
                 graph := some { g with nodes := back.foldl (fun l m => l.modify m.1 (fun n => { n with home := m.2 })) g.nodes } })) s

/-! ## Compute dies (R411 to R414, R511) -/

/-- The initiator lies on die k. -/
def onDie (k : Nat) : Initiator → Bool
  | .core c => c.val / 8 = k
  | .deputy d _ => d.val = k
  | .thresher e => e.val / 4 = k
  | .carder e => e.val / 2 = k
  | .blocker d => d.val = k
  | .gleaner d _ => d.val = k
  | .kvWalker d => d.val = k
  | _ => false

/-- The die of a request's target, none for the IOD or a hole. -/
def targetDie (a : Nat) : Option Nat :=
  match placeOf a with
  | .hbm k _ => some k
  | .gran k _ _ => some k
  | .regs k _ => if k < 4 then some k else none
  | .hole => none

/-- Step 2 of Table 20-6: FENCED set, detour routes in force, FREE nodes rehomed. -/
def State.fenceDie (s : State) (k : Nat) : State :=
  if s.dieState k = .running then
    ((s.setDie k .fenced).mapFlt (fun f => { f with fence := f.fence ||| BitVec.ofNat 5 (2 ^ k) })).rehomeDie k
  else s

/-- Step 3: every transaction from or to the die is completed or discarded. -/
def State.drainDie (s : State) (k : Nat) : State :=
  let s := s.hbmFlush k
  let s := s.mapFab (fun f =>
    { f with
      held := Tab.set [] f.held k []
      pend := (f.pend.filter (fun p => !onDie k p.src)).filterMap (fun p =>
        if targetDie p.addr = some k && p.answer.isNone then
          some { p with answer := some (.unavailable, List.replicate p.zeros 0) }
        else some p) })
  (s.grn.banks.map (·.1)).foldl (fun a i => if i / 2048 = k then a.updBank i (fun b => { b with held := [] }) else a) s

/-- Memory of die k's Granary and of stack k is lost. -/
def State.dieMemLost (s : State) (k : Nat) : State :=
  (s.wipe (bankAddr k 0) 0x10000000).wipe (k * stackBytes) stackBytes

/-- The PWR_ and THM_ registers of a die reset; what the Reeve keeps stays: its copies of the tables and LEVEL_CMD, the voltage it
last wrote, the share limit of the stack (R50, R482). -/
def OpcDie.lost (o : OpcDie) : OpcDie :=
  { OpcDie.init with keepOpc := o.keepOpc, keepThr := o.keepThr, keepLvl := o.keepLvl, target := o.target, lastChange := o.lastChange,
                     marginRec := o.marginRec, hbmLim := o.hbmLim, hbmCnt := o.hbmCnt, hbmMax := o.hbmMax }

/-- The Reeve has written its copies back: band 3 until the first valid reading (R50). -/
def OpcDie.back (o : OpcDie) : OpcDie := { o with opc := o.keepOpc, thr := o.keepThr, levelCmd := o.keepLvl, band := 3#2 }

/-- Registers and queues of die k return to reset, RWL fields and LOCK among them; what the Reeve writes back from its own state is
kept: partitions and failed units, shares, operating-point and throttle tables (R8, R50, R110). HCK intervals count anew
(R260). -/
def State.dieBlocksLost (s : State) (k : Nat) : State :=
  let s := forUpto 28 (fun u a =>
    if unitDie u = k then
      (a.updEng u (fun e => { Eng.init with part := e.part, enabled := e.enabled, failed := e.failed, expiries := e.expiries })).updStest u
        (fun t => { t with running := none })
    else a) s
  let s := forUpto 8 (fun e a => if e / 2 = k then a.updCarder e (fun _ => Carder.init) else a) s
  let s := forUpto 8 (fun g a => a.updGleaner (8 * k + g) (fun _ => Gleaner.init)) s
  let s := (s.updBlk k (fun _ => Blk.init)).updKvw k (fun _ => KvwDie.init)
  let s := s.mapGrn (fun g => { g with banks := g.banks.filter (fun b => b.1 / 2048 ≠ k) })
  let s := s.updGrnDie k (fun _ => GrnDie.init)
  let s := s.updHmc k (fun h =>
    { Hmc.init with state := 0#2, share := h.share, shareEff := h.share, repairRows := h.repairRows, winAt := s.time.hck,
                    refBase := s.time.hck })
  let s := s.mapCx (fun x => { x with ready := Tab.set [] x.ready k [] })
  let s := s.updOpc k OpcDie.lost
  s.mapFlt (fun f =>
    { f with stackDue := Tab.set false f.stackDue k false, suspects := f.suspects.filter (fun p => unitDie p.unit ≠ k), stackRst := Tab.set false f.stackRst k true,
             chaff := Tab.set 0#32 f.chaff k 0#32, retrains := Tab.set 0#8 f.retrains k 0#8 })

/-- Lines whose home is die k are gone from every cluster. -/
def State.homeLost (s : State) (k : Nat) : State :=
  let lines := (s.core.dir.filter (fun e => homeDie e.1 = k)).map (·.1)
  let s := lines.foldl (fun a l => forUpto 8 (fun cl b => b.dropLine cl l) a) s
  s.mapCore (fun x => { x with dir := Tab.drop (fun l => homeDie l = k) x.dir, txns := Tab.drop (fun l => homeDie l = k) x.txns,
                               msgs := x.msgs.filter (fun m => homeDie m.line ≠ k) })

/-- Golden sheaves of open epochs on the die are deferred. -/
def State.goldsLost (s : State) (k : Nat) : State :=
  s.hwa.golds.foldl (fun a g =>
    if unitDie g.engine = k ∧ g.state < 4 then
      (if (a.openEp? g.epoch).isSome then a.goldDefer g.epoch
       else a.mapHwa (fun h => { h with golds := h.golds.filter (fun x => x.epoch ≠ g.epoch) }))
    else a) s

/-- Step 4: the die is in reset, open epochs are withheld and their instances abandoned, and everything on it is lost. -/
def State.dieInReset (s : State) (k : Nat) : State :=
  let s := (s.setDie k .inReset).goldsLost k
  let s := forUpto 28 (fun u a => if unitDie u = k then a.updEng u (fun e => { e with lanes := [], running := none }) else a) s
  let s := s.withholdLost
  let s := s.tly.openEps.foldl (fun a e => a.abandonEpoch e.n) s
  let s := (s.clusterReset (2 * k)).clusterReset (2 * k + 1)
  ((s.homeLost k).dieMemLost k).dieBlocksLost k

/-- Banks GBk.0 to GBk.7 belong to the firmware and hold the golden-sheaf data (R228, Table 23-4 step 11). -/
def State.placeGolden (s : State) (k : Nat) : State :=
  let body := s.imageBody 5
  let s := forUpto 8 (fun n a => a.updBank (2048 * k + n) (fun b =>
    { b with owner := 0x7F#7, pstate := 0#2, ownSeq := if b.owner = 0x7F#7 then b.ownSeq else b.ownSeq + 1 })) s
  s.write (bankAddr k 0) ((Config.goldenBanks body k).take 0x100000)

/-- Step 9: a new GEN in every node, routes restored, FENCED cleared, the die runs (R410, R414); its RWL registers stand as the boot
configuration gives them, locked, before it does (R8; those of its stack since the training began). -/
def State.dieBack (s : State) (k : Nat) : State :=
  let s := (s.setDie k .running).mapFlt (fun f =>
    { f with fence := f.fence &&& ~~~(BitVec.ofNat 5 (2 ^ k)), gens := Tab.upd 0#8 f.gens k (· + 1),
             clusters := Tab.set false (Tab.set false f.clusters (2 * k) false) (2 * k + 1) false })
  let s := (s.grnCfg k).updHmc k (fun h => { h with lock := true })
  (((s.updOpc k OpcDie.back).placeGolden k).unrehomeDie k).stackBack k

/-- A failure at steps 5 to 8: the die is failed until package reset. -/
def State.dieFails (s : State) (k : Nat) (detail : BitVec 32) : State :=
  (s.setDie k .failed).journalUnit 3 k 1 detail

/-! ## RESET_UNIT (Table 20-5) -/

/-- Fence a unit and start its recovery. -/
def State.resetUnit (s : State) (kind i : Nat) : State :=
  match kind with
  | 1 => s.resetEngine i
  | 2 => s.clusterReset i
  | 3 => s.fenceDie i
  | 4 => (s.withholdStack i).stackReset i
  | 5 => s.iodReset i
  | _ => s

/-- Units of each kind of Table 20-5. -/
def unitsOf (kind : Nat) : Nat :=
  match kind with | 1 => 28 | 2 => 8 | 3 => 4 | 4 => 4 | 5 => 4 | _ => 0

end Sys2Proof.Machine
end

