-- ==== Sys2Proof/Machine/PowerOps.lean ====
section
/-! DEFINITION. Operating points, caps and heat: the checks of the tables, voltage writes, and one evaluation of bands,
throttle entries, Loft steps, stack limits, the package cap and the pump (R40, R47 to R57, R239, R476 to R486). -/

namespace Sys2Proof.Machine

/-! ## Operating-point tables (R40, R47 to R52) -/

/-- Minimum rates of Table 2-2 in M beats/s at 0.65, 0.70, 0.75 and 0.80 V, for the temperature each band guarantees. -/
def minRates : Nat → List Nat
  | 0 => [1360, 1700, 2030, 2330]
  | 1 => [1320, 1660, 1980, 2270]
  | 2 => [1260, 1580, 1890, 2170]
  | _ => [1220, 1520, 1820, 2090]

/-- Twenty times the rate that a voltage code guarantees in a band: linear between the rows of Table 2-2 (R40). -/
def rate20 (band code : Nat) : Nat :=
  let l := minRates band
  let i := min 2 ((code - 60) / 20)
  20 * l.getD i 0 + (l.getD (i + 1) 0 - l.getD i 0) * (code - 60 - 20 * i)

def opcOfWords (w : BitVec 32 × BitVec 32) : OpcLevel :=
  { valid := w.1.getLsbD 31, rate := w.1.setWidth 16, volt := w.2 }

/-- Voltage code of a level in a band. -/
def OpcLevel.code (l : OpcLevel) (band : Nat) : Nat := bitsAt l.volt.toNat (8 * band) 8

/-- A level's voltage word meets R49. -/
def OpcLevel.voltOk (l : OpcLevel) : Bool :=
  (List.range 4).all (fun b => decide (0x3C ≤ l.code b) && decide (l.code b ≤ 0x78)) &&
    (List.range 3).all (fun b => decide (l.code b ≤ l.code (b + 1))) &&
    (List.range 4).all (fun b => decide (20 * l.rate.toNat ≤ rate20 b (l.code b)))

/-- First failing argument offset of a table (R49): levels from `n` on, with the previous level. -/
def opcBad (n : Nat) (prev : Option OpcLevel) : List OpcLevel → Option Nat
  | [] => none
  | l :: r =>
    let rateOk := if n = 0 then l.valid else !l.valid || (match prev with | some p => p.valid && decide (p.rate.toNat < l.rate.toNat) | none => true)
    if !rateOk then some (8 + 8 * n)
    else if l.valid && !l.voltOk then some (12 + 8 * n)
    else opcBad (n + 1) (some l) r

def OpcLevel.none : OpcLevel := { valid := false, rate := 0#16, volt := 0#32 }

def OpcDie.level (o : OpcDie) (n : Nat) : OpcLevel := Tab.get OpcLevel.none o.opc n

/-- The highest valid level; valid levels are contiguous from 0. -/
def OpcDie.topLevel (o : OpcDie) : Nat := ((List.range 16).filter (fun n => (o.level n).valid)).length - 1

/-- A list as a table of its elements. -/
def tabOf {α : Type} [DecidableEq α] (d : α) (l : List α) : Tab α := (l.zipIdx.filter (fun e => e.1 ≠ d)).map (fun e => (e.2, e.1))

/-- The default table (Table 2-8). -/
def defaultOpc : List OpcLevel :=
  [{ valid := true, rate := 0x04C4#16, volt := 0x3C3C3C3C#32 }, { valid := true, rate := 0x05F0#16, volt := 0x504D4846#32 },
   { valid := true, rate := 0x071C#16, volt := 0x64605A58#32 }, { valid := true, rate := 0x079E#16, volt := 0x6E696360#32 },
   { valid := true, rate := 0x082A#16, volt := 0x78736C68#32 }]

/-! ## Caps and voltage writes (R51, R53, R57, R476, R480) -/

def ThrEnt.none : ThrEnt := { valid := false, cap := 0#4, tOn := 0#16 }

/-- Effective level (R51). -/
def State.levelEff (s : State) (k : Nat) : Nat := min (s.opc k).levelCmd.toNat (min (s.thrCap k) s.thm.pcap.toNat)

/-- Voltage code of the effective level in the current band, with what the rate monitor has raised. -/
def State.voltTarget (s : State) (k : Nat) : Nat :=
  let o := s.opc k
  min 0x78 ((o.level (s.levelEff k)).code o.band.toNat + o.raise)

/-- Write the voltage of die k if its target differs and the rate limit allows it (R51, R53); `atOnce` skips the limit (R487). A
raise whose code is the one already written is made by that write (R57); no code below 0.65 V is ever written (R37). -/
def State.writeVolt (s : State) (k : Nat) (atOnce : Bool) : State :=
  let o := s.opc k
  let t := s.voltTarget k
  let may := atOnce || (match o.lastChange with | some l => decide (l + 100000 ≤ s.now) | none => true)
  if o.target.toNat = t then s.updOpc k (fun o => { o with shortCnt := if o.raiseDue then 0 else o.shortCnt, raiseDue := false })
  else if 0x3C ≤ t ∧ may ∧ !Tab.get false s.flt.refLost 5 then
    s.updOpc k (fun o => { o with target := BitVec.ofNat 8 t, slewing := true, lastChange := some s.now,
                                  shortCnt := if o.raiseDue then 0 else o.shortCnt, raiseDue := false })
  else s

/-- LEVEL_CAP and LEVEL_EFF follow; a change of level ends what the rate monitor raised (R57). -/
def State.applyLevel (s : State) (k : Nat) (atOnce : Bool) : State :=
  let eff := s.levelEff k
  let cap := min (s.thrCap k) s.thm.pcap.toNat
  (s.updOpc k (fun o =>
    { o with levelCap := BitVec.ofNat 4 cap, raise := if o.levelEff.toNat = eff then o.raise else 0,
             raiseDue := o.raiseDue && o.levelEff.toNat = eff, levelEff := BitVec.ofNat 4 eff })).writeVolt k atOnce

/-- OPC_TABLE_WRITE applies: LEVEL_CMD falls to the highest valid level (R52). -/
def State.applyOpcTable (s : State) (k : Nat) (l : List OpcLevel) : State :=
  let s := s.updOpc k (fun o => { o with opc := tabOf OpcLevel.none l })
  let s := s.updOpc k (fun o => { o with levelCmd := BitVec.ofNat 4 (min o.levelCmd.toNat o.topLevel) })
  let s := s.updOpc k (fun o => { o with keepOpc := o.opc, keepLvl := o.levelCmd })
  if s.dieRuns k then s.applyLevel k false else s

/-- OPC_LEVEL_SET applies, checked again against the table in force (R52). -/
def State.applyOpcLevel (s : State) (k level : Nat) : State :=
  let s := s.updOpc k (fun o =>
    { o with levelCmd := BitVec.ofNat 4 (if (o.level level).valid then level else o.topLevel) })
  let s := s.updOpc k (fun o => { o with keepLvl := o.levelCmd })
  if s.dieRuns k then s.applyLevel k false else s

/-! ## Throttle tables (R480, R481) -/

def thrOf (b : List Byte) : ThrEnt :=
  { valid := fld b 3 1 % 2 = 1, cap := BitVec.ofNat 4 (fld b 2 1), tOn := BitVec.ofNat 16 (fld b 0 2) }

/-- First failing byte of a 64-byte throttle table: entries from `n` on, with the last valid one. -/
def thrBad (n : Nat) (prev : Option ThrEnt) (open' : Bool) : List (List Byte) → Option Nat
  | [] => none
  | b :: r =>
    let e := thrOf b
    let t := e.tOn.toInt
    let tOk := !e.valid || (decide (1680 ≤ t) && decide (t ≤ 1984) && (match prev with | some p => decide (p.tOn.toInt < t) | none => true))
    let capOk := fld b 2 1 < 16 && (!e.valid || (match prev with | some p => decide (e.cap.toNat ≤ p.cap.toNat) | none => true))
    match firstFail [(tOk, 4 * n), (capOk, 4 * n + 2), (decide (fld b 3 1 < 2) && (!e.valid || open'), 4 * n + 3)] with
    | some o => some o
    | none => thrBad (n + 1) (if e.valid then some e else prev) (open' && e.valid) r

/-- The entries of a throttle table as 4-byte pieces. -/
def thrPieces (b : List Byte) : List (List Byte) := (List.range 16).map (fun i => sub b (4 * i) 4)

/-- A new throttle table is in force; the next evaluation is afresh. -/
def State.applyThr (s : State) (k : Nat) (b : List Byte) : State :=
  let t := tabOf ThrEnt.none ((thrPieces b).map thrOf)
  s.updOpc k (fun o => { o with thr := t, keepThr := t, thrFresh := true })

/-- Highest valid entry whose T_ON is at or below the reading. -/
def thrSel (t : Tab ThrEnt) (r : Int) : Option Nat :=
  ((List.range 16).reverse.find? (fun i => let e := Tab.get ThrEnt.none t i; e.valid && decide (e.tOn.toInt ≤ r)))

def thrTop (t : Tab ThrEnt) : Option Nat := (List.range 16).reverse.find? (fun i => (Tab.get ThrEnt.none t i).valid)

/-! ## The cooling rule (R53) -/

/-- Count, highest reading and whether 16 consecutive cooler readings have come. -/
def coolStep (cnt : Nat) (mx r : Int) (below : Bool) : Nat × Int × Bool :=
  if !below then (0, 0, false)
  else
    let m := if cnt = 0 then r else max mx r
    if cnt + 1 = 16 then (0, m, true) else (cnt + 1, m, false)

/-- Band of a reading in 1/16 °C (Table 2-6). -/
def bandOf (r : Int) : Nat := if r < 400 then 0 else if r < 1040 then 1 else if r < 1680 then 2 else 3

/-- Lower edge of a band. -/
def bandEdge : Nat → Int
  | 1 => 400 | 2 => 1040 | _ => 1680

def OpcDie.bandEval (o : OpcDie) : Option Int → OpcDie
  | none => { o with band := 3#2, bandCnt := 0, bandMax := 0 }
  | some r =>
    let b := o.band.toNat
    if b < bandOf r then { o with band := BitVec.ofNat 2 (bandOf r), bandCnt := 0, bandMax := 0 }
    else
      let c := coolStep o.bandCnt o.bandMax r (decide (0 < b) && decide (r + 48 ≤ bandEdge b))
      { o with band := if c.2.2 then BitVec.ofNat 2 (bandOf c.2.1) else o.band, bandCnt := c.1, bandMax := c.2.1 }

/-- A change of band ends what the rate monitor raised (R57). -/
def OpcDie.bandDone (old o : OpcDie) : OpcDie :=
  if old.band = o.band then o else { o with raise := 0, raiseDue := false }

def OpcDie.thrEval (o : OpcDie) : Option Int → OpcDie
  | none => { o with thrIn := thrTop o.thr, thrCnt := 0, thrMax := 0, thrFresh := false }
  | some r =>
    let sel := thrSel o.thr r
    let higher : Bool := match sel, o.thrIn with | some a, some b => decide (b < a) | some _, none => true | none, _ => false
    if o.thrFresh || higher then { o with thrIn := sel, thrCnt := 0, thrMax := 0, thrFresh := false }
    else match o.thrIn with
      | none => o
      | some i =>
        let c := coolStep o.thrCnt o.thrMax r (decide (r + 48 ≤ (Tab.get ThrEnt.none o.thr i).tOn.toInt))
        { o with thrIn := if c.2.2 then thrSel o.thr c.2.1 else o.thrIn, thrCnt := c.1, thrMax := c.2.1 }

/-- STEP that a reading selects: 0 full rate, 1 to 4 for step 0 to 3 (R239). -/
def GrnDie.loftSel (d : GrnDie) (r : Int) : Nat :=
  ((List.range 4).reverse.find? (fun i => decide ((16 * (d.thrTOn.getD i 0).toNat : Int) ≤ r))).elim 0 (· + 1)

def GrnDie.setStep (d : GrnDie) (n : Nat) : GrnDie :=
  { d with step := BitVec.ofNat 3 n, rateEff := if n = 0 then 0x10#5 else d.thrRate.getD (n - 1) 0x10#5 }

def GrnDie.loftEval (d : GrnDie) : Option Int → GrnDie
  | none => { d.setStep 4 with coolCnt := 0, coolMax := 0 }
  | some r =>
    let b := d.step.toNat
    if b < d.loftSel r then { d.setStep (d.loftSel r) with coolCnt := 0, coolMax := 0 }
    else
      let c := coolStep d.coolCnt d.coolMax r (decide (0 < b) && decide (r + 48 ≤ 16 * ((d.thrTOn.getD (b - 1) 0).toNat : Int)))
      { (if c.2.2 then d.setStep (d.loftSel c.2.1) else d) with coolCnt := c.1, coolMax := c.2.1 }

/-- Thermal share limit of a stack (R482). -/
def OpcDie.hbmEval (o : OpcDie) : Option Int → OpcDie
  | none => o
  | some r =>
    if 1600 ≤ r then { o with hbmLim := 2, hbmCnt := 0, hbmMax := 0 }
    else if 1520 ≤ r ∧ o.hbmLim = 0 then { o with hbmLim := 1, hbmCnt := 0, hbmMax := 0 }
    else if o.hbmLim = 0 then o
    else
      let c := coolStep o.hbmCnt o.hbmMax r (decide (r < if o.hbmLim = 2 then 1552 else 1472))
      { o with hbmLim := if c.2.2 then (if o.hbmLim = 2 ∧ 1472 ≤ c.2.1 then 1 else 0) else o.hbmLim, hbmCnt := c.1, hbmMax := c.2.1 }

/-- HMC_SHARE_q of stack k: the lower of the partition's share and the thermal limit. -/
def State.setShares (s : State) (k : Nat) : State :=
  let lim := match (s.opc k).hbmLim with | 0 => 1024 | 1 => 512 | _ => 256
  s.updHmc k (fun h =>
    { h with share := tabOf 0x400#11 ((List.range 8).map (fun q =>
        BitVec.ofNat 11 (min lim (Tab.get 0x400#11 s.cx.hbmShare q).toNat))) })

/-! ## Package power cap (R476) -/

/-- The coolant-loss state or the shutdown is in force. -/
def State.capHeld (s : State) : Bool := s.thm.coolLoss || s.thm.shutdown

def ThmS.capEval (t : ThmS) : ThmS :=
  let p := t.power.toNat
  let h := (p :: t.history).take 100
  let sum := h.foldl (· + ·) 0
  let t := { t with history := h }
  let next : ThmS :=
    if t.coolLoss || t.shutdown then { t with pcap := 0#4, sinceDrop := 10, lowRun := 0 }
    else
      let u : ThmS :=
        if t.peak < p then { t with pcap := BitVec.ofNat 4 (t.pcap.toNat - 2), sinceDrop := 0, lowRun := 0 }
        else if t.limit * h.length < sum ∧ 10 ≤ t.sinceDrop then
          { t with pcap := BitVec.ofNat 4 (t.pcap.toNat - 1), sinceDrop := 0, lowRun := 0 }
        else if sum < (t.limit - 200) * h.length then
          (if t.lowRun + 1 = 100 then { t with pcap := BitVec.ofNat 4 (min (t.pcap.toNat + 1) 15), lowRun := 0 }
           else { t with lowRun := t.lowRun + 1 })
        else { t with lowRun := 0 }
      { u with sinceDrop := min (u.sinceDrop + 1) 10 }
  next

/-! ## Pump and keep-warm (R483, R484) -/

/-- The highest hottest valid reading over the running dies. -/
def State.hottestAll (s : State) : Option Int :=
  maxInt ((List.range 4).filterMap (fun k => if s.dieRuns k then s.hottest k else none))

def State.pumpEval (s : State) : State :=
  let d := match s.hottestAll with
    | none => 0xFF
    | some t =>
      let span : Int := 16 * ((s.thm.tHi : Int) - s.thm.tLo)
      let v := (0x40 * span + 0xBF * (t - 16 * s.thm.tLo)) / span
      (max 0x40 (min 0xFF v)).toNat
  s.mapCool (fun c => { c with duty := BitVec.ofNat 8 (if s.capHeld then 0xFF else d) })

/-- Keep-warm runs on die k. -/
def State.warmEval (s : State) (k : Nat) : State :=
  let go := s.thm.vehReady && s.thm.warmEn && !s.capHeld && decide ((s.opc k).levelCmd.toNat ≤ s.thm.pcap.toNat) && s.dieRuns k
  let below := fun (lim : Int) => match s.hottest k with | some r => decide (r < lim) | none => false
  let w := go && (below (16 * s.thm.floor) || ((s.opc k).warm && below (16 * (s.thm.floor + 5))))
  s.updOpc k (fun o => { o with warm := w })

/-- A warm sheaf: an INT8 product that belongs to no epoch or context. -/
def warmSheaf (u : Nat) : Sheaf :=
  { index := { epoch := 0#64, ctx := 0x7E, node := 0, ord := 0 }, src := .warm, kind := 1, place := 2, home := u, desc := 0,
    ref := 2000, bound := 2000, expired := 0 }

/-- Place warm sheaves on the Threshers of die k whose four lanes are empty. -/
def State.placeWarm (s : State) (k : Nat) : State :=
  if (s.opc k).warm then
    forUpto 4 (fun j a =>
      let u := 4 * k + j
      if a.unitOk u && (List.range 4).all (fun sc => (a.eng u).lane sc = []) then a.pushLane u 3 (warmSheaf u) else a) s
  else s

end Sys2Proof.Machine
end

