-- ==== Sys2Proof/Machine/GraphLoad.lean ====
section
/-! DEFINITION. The .jwg file of GRAPH_LOAD: its checks in their order and the loaded graph (R101 to R106, R110, R160, R171,
R188, R276, R288). -/

namespace Sys2Proof.Machine

/-! ## Header (Table 5-1) -/

/-- Fields of a work graph header. -/
structure JwgHdr where
  format : Nat
  gflags : Nat
  nNodes : Nat
  nEdges : Nat
  image : Nat
  banks : List Nat
  nOuts : Nat
  slots : Nat
  ring : Nat
  entries : Nat
  nodeOff : Nat
  edgeOff : Nat
  outOff : Nat
  imageOff : Nat
  deriving DecidableEq, Repr

def jwgHdrOf (b : List Byte) : JwgHdr :=
  { format := fld b 4 2, gflags := fld b 6 2, nNodes := fld b 8 4, nEdges := fld b 12 4, image := fld b 16 4,
    banks := (List.range 4).map (fun k => fld b (24 + 2 * k) 2), nOuts := fld b 32 2, slots := fld b 34 2, ring := fld b 36 4,
    entries := fld b 40 2, nodeOff := fld b 48 8, edgeOff := fld b 56 8, outOff := fld b 64 8, imageOff := fld b 72 8 }

def JwgHdr.hasCore (h : JwgHdr) : Bool := bitsAt h.gflags 3 1 = 1

def outDefOf (b : List Byte) : OutDef := { outId := fld b 0 1, node := fld b 4 4, bytes := fld b 8 4, off := fld b 12 4 }

/-- Entry i of the output table. -/
def JwgHdr.outDef (h : JwgHdr) (b : List Byte) (i : Nat) : OutDef := outDefOf (sub b (h.outOff + 16 * i) 16)

/-- Areas of the context's HBM range: image, gate ring and output slots. -/
def JwgHdr.areas (h : JwgHdr) (b : List Byte) : List (Nat × Nat) :=
  (0, h.image) :: (h.ring, if h.hasCore then 32 * h.entries else 0) ::
    (List.range (min 64 h.nOuts)).map (fun i => let o := h.outDef b i; (o.off, h.slots * o.bytes))

/-- No two areas overlap. -/
def apart : List (Nat × Nat) → Bool
  | [] => true
  | a :: r => r.all (fun c => disjoint a.1 a.2 c.1 c.2) && apart r

/-- Banks that context c owns on die k. -/
def State.ownedBanks (s : State) (c k : Nat) : Nat :=
  if s.dieRuns k then (s.grn.banks.filter (fun b => b.1 / 2048 = k && b.2.owner.toNat = c)).length else 0

def isPow2 (n : Nat) : Bool := (List.range 15).any (fun i => 2 ^ i = n)

/-- First failing header field with its code (R101 steps 2 and 3). -/
def State.hdrCheck (s : State) (c : Nat) (b : List Byte) : Option CmdErr :=
  let x := s.ctxOf c
  let h := jwgHdrOf b
  let n := b.length
  let room := (h.areas b).all (fun a => decide (a.1 + a.2 ≤ x.len)) && apart (h.areas b)
  let early : List (Bool × Nat) :=
    [(fld b 0 4 = 0x3147574A, 0), (h.format = 4 || (h.format = 3 && s.featOn 0), 4),
     (bitsAt h.gflags 2 1 = 0 || decide (x.sc ≤ 1), 6),
     (decide (1 ≤ h.nNodes) && decide (h.nNodes ≤ 1048576), 8), (decide (h.nEdges ≤ 4194304), 12), (room, 16), (fld b 20 4 = 0, 20)]
  let late : List (Bool × Nat) :=
    [(decide (h.nOuts ≤ 64), 32), (decide (68 ≤ h.slots), 34), (if h.hasCore then h.ring % 64 = 0 else h.ring = 0, 36),
     (if h.hasCore then decide (16 ≤ h.entries) && decide (h.entries ≤ 16384) && isPow2 h.entries else h.entries = 0, 40),
     (fld b 42 6 = 0, 42), (leNat (sub b 80 48) = 0, 80), (decide (h.nodeOff + 32 * h.nNodes ≤ n), 48),
     (decide (h.edgeOff + 4 * h.nEdges ≤ n), 56), (decide (h.outOff + 16 * h.nOuts ≤ n), 64), (decide (h.imageOff + h.image ≤ n), 72)]
  match firstFail early with
  | some o => some (dataErr o)
  | none =>
    match firstFail ((List.range 4).map (fun k => (decide (h.banks.getD k 0 ≤ s.ownedBanks c k), 24 + 2 * k))) with
    | some o => some { code := 0x41, detail := some 8, field := some o }
    | none => (firstFail late).map dataErr

/-! ## Nodes, edges and outputs (R102, R103, R106, R110) -/

/-- A node entry as the file holds it. -/
structure JwgNode where
  desc : Nat
  kind : Nat
  place : Nat
  homeByte : Nat
  first : Nat
  nSucc : Nat
  nPred : Nat
  ref : Nat
  bound : Nat
  zeros : Bool × Bool       -- bytes 7 and 28 to 31 are 0
  deriving DecidableEq, Repr

def jwgNodeOf (b : List Byte) : JwgNode :=
  { desc := fld b 0 4, kind := fld b 4 1, place := fld b 5 1, homeByte := fld b 6 1, first := fld b 8 4, nSucc := fld b 12 4,
    nPred := fld b 16 4, ref := fld b 20 4, bound := fld b 24 4, zeros := (fld b 7 1 = 0, fld b 28 4 = 0) }

/-- Unit number of HOME: 0-15 TE, 16-23 CE, 24-27 BP, 32 + k for a CORE node. -/
def JwgNode.unit (d : JwgNode) : Nat :=
  let k := bitsAt d.homeByte 4 2
  let j := bitsAt d.homeByte 0 3
  match d.kind with
  | 1 => 4 * k + j
  | 2 => 16 + 2 * k + (j - 4)
  | 3 => 24 + k
  | _ => 32 + k

def JwgNode.homeFits (d : JwgNode) : Bool :=
  let j := bitsAt d.homeByte 0 3
  match d.kind with
  | 1 => decide (j ≤ 3)
  | 2 => j = 4 || j = 5
  | _ => j = 0

/-- Where a node is homed at load (R110). -/
def State.loadHome (s : State) (part : Nat) (d : JwgNode) : Option Nat :=
  if d.kind = 4 then some d.unit
  else if d.place = 2 then (if s.homeOk part d.unit then some d.unit else none)
  else s.homeFor part d.unit (d.place = 1)

/-- Successors of a node. -/
def JwgNode.succ (d : JwgNode) (edges : List Nat) : List Nat := (edges.drop d.first).take d.nSucc

/-- How many edges name each node. -/
def predCounts (nodes : List JwgNode) (edges : List Nat) : Tab Nat :=
  nodes.foldl (fun m d => (d.succ edges).foldl (fun m j => Tab.upd 0 m j (· + 1)) m) []

/-- First failing field of node entry i, as its byte in the entry. -/
def State.nodeBad (s : State) (part : Nat) (h : JwgHdr) (preds : Tab Nat) (i : Nat) (d : JwgNode) : Option Nat :=
  let core := d.kind = 4
  firstFail
    [(core || decide (d.desc + 64 ≤ h.image) || d.kind = 0 || decide (4 < d.kind), 0),
     (decide (1 ≤ d.kind) && decide (d.kind ≤ 4) && (!core || h.hasCore), 4), (decide (d.place ≤ 2), 5),
     (d.homeFits && (s.loadHome part d).isSome, 6), (d.zeros.1, 7), (decide (d.first + d.nSucc ≤ h.nEdges), 8),
     (d.nPred = Tab.get 0 preds i, 16), (!core || d.ref = 0, 20), (if core then d.bound = 0 else decide (d.bound ≤ 30400), 24),
     (d.zeros.2, 28)]

/-- First edge entry that some node's range holds and that breaks R102, as its index. -/
def edgeBad (nodes : List JwgNode) (edges : List Nat) : Option Nat :=
  leastOf (nodes.zipIdx.flatMap (fun d =>
    (d.1.succ edges).zipIdx.filterMap (fun e => if d.2 < e.1 ∧ e.1 < nodes.length then none else some (d.1.first + e.2))))

/-- First failing output entry, as its byte in the table: entries from `i` on, with the identifiers seen. -/
def outBad (nNodes : Nat) : Nat → List Nat → List OutDef → Option Nat
  | _, _, [] => none
  | i, seen, o :: r =>
    match firstFail [(!seen.contains o.outId, 0), (decide (o.node < nNodes), 4)] with
    | some x => some (16 * i + x)
    | none => outBad nNodes (i + 1) (o.outId :: seen) r

/-! ## Descriptors (R160, R171, R188, R276) -/

/-- The `n` bytes at a physical address that a descriptor points to: with their offset in the image when they lie in it, else
as memory holds them at the load; none where they cannot be read. -/
def State.dataAt (s : State) (image : List Byte) (base a n : Nat) : Option (Option Nat × List Byte) :=
  if base ≤ a ∧ a + n ≤ base + image.length then some (some (a - base), sub image (a - base) n)
  else match s.load whoReeve a n with
    | .ok b => some (none, b)
    | .error _ => none

/-- Where a field lies in the image: byte `x` of data of the image, else the descriptor field `o` that names the data. -/
def fieldOff (at? : Option Nat) (x o : Nat) : Nat := match at? with | some g => g + x | none => o

/-- First failing byte of a Thresher descriptor at image offset `o`, in the image. -/
def State.thrLoadBad (s : State) (image : List Byte) (base o : Nat) (d : TDesc) : Option Nat :=
  match decide (d.op = 2), s.dataAt image base (d.addr base 6) 32 with
  | true, some (g, b) =>
    match tdescCheck d base (some (geomOf b)), d.fmts with
    | some 58, .ok f =>
      match geomCheck (geomOf b) .conv d.m (efmtIsMx f.a) with
      | some x => if d.addrs.getD 6 0 % 64 = 0 then some (fieldOff g x (o + 58)) else some (o + 58)
      | none => some (o + 58)
    | some x, _ => some (o + x)
    | none, _ => none
  | _, _ => (tdescCheck d base none).map (o + ·)

/-- First failing byte of a DEPTHWISE descriptor. -/
def State.depthLoadBad (s : State) (image : List Byte) (base o : Nat) (d : CDesc) : Option Nat :=
  match d.depthCheck, d.depthFmt, s.dataAt image base (d.addr6 base d.geom) 32 with
  | some x, _, _ => some (o + x)
  | none, .ok f, some (g, b) =>
    match geomCheck (geomOf b) .conv d.t.m (efmtIsMx f.a) with
    | some x => some (fieldOff g x (o + 58))
    | none => (d.depthGeomCheck f base (geomOf b)).map (o + ·)
  | _, _, _ => none

/-- First failing byte of the WINs of a program with their geometry record. -/
def State.winLoadBad (s : State) (image : List Byte) (base o : Nat) (d : CDesc) (p : List (BitVec 32)) : Option Nat :=
  match d.winFmt, s.dataAt image base (d.addr6 base d.geom) 32 with
  | .ok f, some (g, b) =>
    (winsOf p).findSome? (fun fn =>
      match geomCheck (geomOf b) (winUse fn) d.t.m (efmtIsMx f.1) with
      | some x => some (fieldOff g x (o + 58))
      | none => (d.winGeomCheck f base fn (geomOf b)).map (o + ·))
  | _, _ => none

/-- First failing byte of a PROGRAM descriptor, its program and its curves. -/
def State.progLoadBad (s : State) (image : List Byte) (base o : Nat) (d : CDesc) : Option Nat :=
  match d.progCheck with
  | some x => some (o + x)
  | none =>
    let codeLen := (4 * d.len + 63) / 64 * 64
    match s.dataAt image base (d.addr6 base d.prog) (if d.curves = 0 then 4 * d.len else codeLen + 1088 * d.curves) with
    | none => none
    | some (g, b) =>
      let p := (List.range d.len).map (fun i => BitVec.ofNat 32 (fld b (4 * i) 4))
      let cs := (List.range d.curves).map (fun c => curveOf (sub b (codeLen + 1088 * c) 1088))
      match progFault d p cs with
      | some (5, _, i) => some (fieldOff g (4 * i) (o + 52))
      | some (_, 57, c) => some (fieldOff g (codeLen + 1088 * c) (o + 57))
      | some (_, x, _) => some (o + x)
      | none => s.winLoadBad image base o d p

/-- First failing byte in the image of the descriptor of a node. -/
def State.descBad (s : State) (image : List Byte) (base : Nat) (d : JwgNode) : Option Nat :=
  let b := sub image d.desc 64
  let bad := match d.kind with
    | 1 => s.thrLoadBad image base d.desc (tdescOf b)
    | 2 =>
      match fld b 0 1 with
      | 1 => s.progLoadBad image base d.desc (cdescOf b)
      | 2 => s.depthLoadBad image base d.desc (cdescOf b)
      | _ => some d.desc
    | 3 => (bdescCheck (bdescOf b) base).map (d.desc + ·)
    | _ => none
  bad.orElse (fun _ => if d.kind ≠ 4 ∧ fld b 14 2 ≠ d.ref then some (d.desc + 14) else none)

/-- TRAJ_NODE of the trajectory context is no SELECT node (R288). -/
def State.trajBad (s : State) (c : Nat) (image : List Byte) (nodes : List JwgNode) : Option Nat :=
  match s.trajNode with
  | some (tc, n) =>
    if tc ≠ c then none
    else match nodes[n]? with
      | some d => if d.kind = 3 ∧ fld image d.desc 1 = 4 then none else some (32 * n)
      | none => some (32 * n)
  | none => none

/-! ## The whole file -/

/-- The graph of a file that has passed its header checks, and whether a node was rehomed; or its first failing byte. -/
def State.graphTables (s : State) (c : Nat) (b : List Byte) : Except CmdErr (Graph × Bool) :=
  let x := s.ctxOf c
  let h := jwgHdrOf b
  let nodes := (List.range h.nNodes).map (fun i => jwgNodeOf (sub b (h.nodeOff + 32 * i) 32))
  let edges := (List.range h.nEdges).map (fun i => fld b (h.edgeOff + 4 * i) 4)
  let outs := (List.range h.nOuts).map (h.outDef b)
  let image := sub b h.imageOff h.image
  let preds := predCounts nodes edges
  match nodes.zipIdx.findSome? (fun d => (s.nodeBad x.part h preds d.2 d.1).map (32 * d.2 + ·)), edgeBad nodes edges,
      outBad h.nNodes 0 [] outs, nodes.findSome? (s.descBad image x.base), s.trajBad c image nodes with
  | some o, _, _, _, _ => .error (dataErr (h.nodeOff + o))
  | none, some e, _, _, _ => .error (dataErr (h.edgeOff + 4 * e))
  | none, none, some o, _, _ => .error (dataErr (h.outOff + o))
  | none, none, none, some o, _ => .error (dataErr (h.imageOff + o))
  | none, none, none, none, some o => .error (dataErr (h.nodeOff + o))
  | none, none, none, none, none =>
    let placed := nodes.map (fun d => (d, (s.loadHome x.part d).getD d.unit))
    .ok ({ format := h.format, gflags := h.gflags, slots := h.slots, ringOff := h.ring, ringLen := h.entries, outs := outs,
           nodes := placed.map (fun p =>
             { desc := p.1.desc, kind := p.1.kind, place := p.1.place, home := p.2, succ := p.1.succ edges, nPred := p.1.nPred,
               ref := p.1.ref, bound := p.1.bound }) },
         placed.any (fun p => p.2 ≠ p.1.unit))

/-- All the checks of R101 on a file for context c. -/
def State.graphCheck (s : State) (c : Nat) (sha : List Byte) (b : List Byte) : Except CmdErr (Graph × Bool) :=
  if sha384 b ≠ sha then .error (codeErr 0x30)
  else match s.hdrCheck c b with
    | some e => .error e
    | none => s.graphTables c b

end Sys2Proof.Machine
end

