-- ==== Sys2Proof/Machine/SwitchTables.lean ====
section
/-! DEFINITION. Switch tables (Table 16-2): their checks at SWITCH_TABLE_WRITE, their entries, and their taking effect
(R319, R320, R332, Table 16-6). The layout of an entry is stated for table 0x17 alone; of every other table the fields are
free readings of the image, numbered here. -/

namespace Sys2Proof.Machine

/-! ## Checks -/

/-- A gate control list: open classes (field 0) and interval in CLK_SW periods (field 1). -/
def gclOf (image : List Byte) (id : Nat) : List (Nat × Nat) :=
  (List.range (Config.switchLen id image)).map (fun i => (Config.switchField id image i 0 % 256, Config.switchField id image i 1))

/-- First interval outside 1 to 2^24 CLK_SW periods, or the entry with which the cycle exceeds 1 s, as its entry. -/
def gclBad (l : List (Nat × Nat)) : Option Nat :=
  match l.findIdx? (fun e => !(decide (1 ≤ e.2) && decide (e.2 ≤ 16777216))) with
  | some i => some i
  | none => (List.range l.length).find? (fun i => decide (625000000 < (((l.take (i + 1)).map (·.2)).foldl (· + ·) 0)))

/-- A KEY of table 0x17 names no key place, or one that an earlier destination names (Table 16-6, R469): the byte of the
first such field. -/
def destBad (image : List Byte) : Option Nat :=
  let key := fun i => fld image (32 * i + 26) 1
  ((List.range (image.length / 32)).find? (fun i =>
    key i ≠ 255 && (decide (16 ≤ key i) || (List.range i).any (fun j => key j = key i)))).map (fun i => 32 * i + 26)

/-- The first stream gate whose list holds more than 32 entries, as the byte of its length (Table 16-2). -/
def gateListBad (n : Nat) (image : List Byte) : Option Nat :=
  ((List.range n).find? (fun i => decide (32 < Config.switchField 0x14 image i 0))).map (fun i => Config.switchOffset 0x14 image i 0)

/-- The first recovery function with a history length outside 1 to 32, as the byte of that field (Table 16-2). -/
def historyBad (n : Nat) (image : List Byte) : Option Nat :=
  let h := fun i => Config.switchField 0x16 image i 1
  ((List.range n).find? (fun i => decide (64 ≤ i) && !(decide (1 ≤ h i) && decide (h i ≤ 32)))).map (fun i => Config.switchOffset 0x16 image i 1)

/-- Checks of an image for table `id` (R319): none when it may take effect. -/
def State.switchCheck (s : State) (id : Nat) (image : List Byte) : Option CmdErr :=
  match switchCap id with
  | none => some (argErr 0)
  | some cap =>
    let n := if id = 0x17 then (image.length + 31) / 32 else Config.switchLen id image
    if cap < n ∨ (id = 0x17 ∧ image.length % 32 ≠ 0) then some (lenErr 16)
    else if id = 0x17 then (destBad image).map dataErr
    else if id = 0x14 then (gateListBad n image).map dataErr
    else if id = 0x16 then (historyBad n image).map dataErr
    else if id / 16 = 2 then (gclBad (gclOf image id)).map (fun i => dataErr (Config.switchOffset id image i 1))
    else if id / 16 = 3 then
      (if n ≠ 0 ∧ decide (Config.switchField id image 0 2 = 1) ≠ (s.portOf (id % 16)).master then
        some (dataErr (Config.switchOffset id image 0 2)) else none)
    else none

/-! ## Taking effect -/

/-- SWITCH_TABLE_WRITE takes effect: the whole table is replaced; a gate control list starts its first entry (R320),
and its port the frame that a gate now lets go. -/
def State.applySwitch (s : State) (id : Nat) (image : List Byte) : State :=
  let s := s.mapSw (fun w => { w with images := Tab.set [] w.images id image, applied := Tab.set 0 w.applied id s.time.swq })
  if id / 16 = 2 then
    let l := gclOf image id
    (s.updPort (id % 16) (fun p =>
      { p with gcl := l, gclPos := 0, gclEnd := s.time.swq + 4 * ((l.head?.map (·.2)).getD 0) })).txNext (id % 16)
  else if id / 16 = 3 then
    s.updPort (id % 16) (fun p =>
      if Config.switchLen id image = 0 then { p with defVid := 0, preempt := 0 }
      else { p with defVid := Config.switchField id image 0 0 % 4096, preempt := Config.switchField id image 0 1 % 256 })
  else if id = 0x13 then s.mapSw (fun w => { w with blocked := [] })
  else if id = 0x15 then s.mapSw (fun w => { w with meters := [] })
  else if id = 0x16 then s.mapSw (fun w => { w with seqGen := [], recov := [] })
  else s

end Sys2Proof.Machine
end

