-- ==== Sys2Proof/Machine/Commands.lean ====
section
/-! DEFINITION. Commands of the mailbox: slot bodies, classes, arguments, targets, validation, background work and the
change that each command makes (R69 to R81, R505, Tables 3-6 and 3-10, and the home rules it names). -/

namespace Sys2Proof.Machine

/-! ## Slot bodies (Table 3-6) -/

def bodyOpcode (b : List Byte) : Nat := fld b 0 2
def bodySeq (b : List Byte) : BitVec 16 := BitVec.ofNat 16 (fld b 2 2)
def bodyArgLen (b : List Byte) : Nat := fld b 4 2
def bodyAtEpoch (b : List Byte) : Bool := fld b 6 1 % 2 = 1
def bodyTarget (b : List Byte) : BitVec 64 := BitVec.ofNat 64 (fld b 8 8)
def bodyRespOff (b : List Byte) : Nat := fld b 16 4

/-- The 256 bytes of a slot's body. -/
def State.slotBody (s : State) (slot : Nat) : List Byte := (List.range 256).map (fun i => Tab.get 0#8 (s.slotOf slot).body i)

/-- Bytes [o, o+n) of the arguments of a body. -/
def bodyArg (b : List Byte) (o n : Nat) : Nat := fld b (32 + o) n

def ActCmd.arg (a : ActCmd) (o n : Nat) : Nat := bodyArg a.body o n
def ActCmd.argBytes (a : ActCmd) (o n : Nat) : List Byte := sub a.body (32 + o) n

/-! ## Classes, arguments and targets (Table 3-10) -/

/-- Class of a command: immediate, epoch-bound, background. -/
inductive CmdClass where
  | imm | epoch | back
  deriving DecidableEq, Repr

/-- Class of an opcode; none for an opcode that Table 3-10 does not list. -/
def cmdClass (op : Nat) : Option CmdClass :=
  if [0x01, 0x02, 0x03, 0x10, 0x60].contains op then some .imm
  else if [0x22, 0x61, 0x62, 0x70, 0x90].contains op then some .back
  else if [0x11, 0x12, 0x13, 0x20, 0x21, 0x23, 0x24, 0x30, 0x31, 0x32, 0x40, 0x41, 0x42, 0x43, 0x50, 0x51, 0x71, 0x80, 0x81].contains op then
    some .epoch
  else none

/-- Offset and length of each argument. -/
def argSpans (op : Nat) : List (Nat × Nat) :=
  match op with
  | 0x10 => [(0, 4)]
  | 0x11 => [(0, 1), (4, 4), (8, 1), (12, 4)]
  | 0x13 => [(0, 4), (4, 2), (8, 32)]
  | 0x20 => [(0, 1), (1, 1), (2, 1), (8, 8), (16, 8)]
  | 0x21 | 0x23 | 0x24 | 0x80 => [(0, 1)]
  | 0x22 => [(0, 1), (8, 8), (16, 4), (32, 48)]
  | 0x30 => (0, 1) :: (List.range 32).map (fun i => (8 + 4 * i, 4))
  | 0x31 | 0x70 | 0x71 => [(0, 1), (1, 1)]
  | 0x32 | 0x41 | 0x42 | 0x61 => [(0, 1), (8, 8), (16, 4)]
  | 0x40 => [(0, 1), (8, 64)]
  | 0x43 => [(0, 1), (4, 4), (8, 4)]
  | 0x51 => [(0, 4), (4, 1)]
  | 0x60 => [(0, 32)]
  | 0x62 => [(0, 1), (8, 8), (16, 8), (24, 8)]
  | _ => []

/-- The first argument that ARG_LEN does not cover. -/
def argShort (op len : Nat) : Option Nat := ((argSpans op).find? (fun e => decide (len < e.1 + e.2))).map (·.1)

/-- What a command acts on (column Targets). -/
inductive Target where
  | schedule | records | ctx (c : Nat) | die (k : Nat) | wdg (n : Nat) | stream (b : Nat) | switch | part (p : Nat) | pair
  | vault | stack (k : Nat) | engine (u : Nat) | cluster (c : Nat) | iod (i : Nat) | traj | all
  deriving DecidableEq, Repr

/-- The unit of RESET_UNIT and MAP_OUT (Table 20-5), with the target that the same unit is to other commands. -/
def unitTargets (kind i : Nat) : List Target :=
  match kind with
  | 1 => [.engine i]
  | 2 => [.cluster i]
  | 3 => [.die i]
  | 4 => [.stack i]
  | 5 => .iod i :: (if i = 2 then [.switch] else if i = 3 then [.vault] else [])
  | _ => []

def targetsOf (b : List Byte) : List Target :=
  let a := bodyArg b
  match bodyOpcode b with
  | 0x10 | 0x11 | 0x12 => [.schedule]
  | 0x13 => [.records]
  | 0x20 | 0x21 | 0x22 | 0x23 | 0x24 => [.ctx (a 0 1)]
  | 0x30 | 0x31 | 0x32 => [.die (a 0 1)]
  | 0x40 => [.wdg (a 0 1)]
  | 0x41 => [.stream (a 0 1)]
  | 0x42 => [.switch]
  | 0x43 => [.part (a 0 1)]
  | 0x50 | 0x51 => [.pair]
  | 0x61 => [.vault]
  | 0x62 => [.vault, .stack (a 16 8 / stackBytes)]
  | 0x70 | 0x71 => unitTargets (a 0 1) (a 1 1)
  | 0x80 | 0x81 => [.traj]
  | 0x90 => [.all]
  | _ => []

/-- Two lists of targets overlap. -/
def targetsMeet (x y : List Target) : Bool :=
  x.any y.contains || (x.contains .all && y ≠ []) || (y.contains .all && x ≠ [])

/-- A target is neither disabled nor fenced nor in reset (R77). -/
def State.targetUp (s : State) : Target → Bool
  | .die k => s.dieRuns k
  | .stack k => s.stackRuns k
  | .engine u => s.unitOk u
  | .cluster c => !Tab.get false s.flt.clusters c && !Tab.get false s.flt.cluOff c && s.dieRuns (c / 2)
  | .iod i => !Tab.get false s.flt.iodSub i
  | .stream _ => !Tab.get false s.flt.iodSub 0
  | .switch => s.switchOn
  | .vault => !Tab.get false s.flt.iodSub 3
  | _ => true

/-- Every target of a command is available; the range of CONTEXT_CREATE lies on a stack in service (R108). RESET_UNIT has
itself put its unit into reset. -/
def State.cmdUp (s : State) (a : ActCmd) : Bool :=
  (a.opcode = 0x70 || (targetsOf a.body).all s.targetUp) &&
    (a.opcode ≠ 0x20 || s.stackRuns (a.arg 8 8 / stackBytes))

/-! ## Arguments and present state -/

def mib2 : Nat := 0x200000

/-- A CONTEXT_CREATE for another range or the same CTX that is pending (R108). -/
def State.creates (s : State) : List ActCmd := s.cmds.active.filter (fun a => a.opcode = 0x20)

/-- No present context and no pending CONTEXT_CREATE has a range that meets [b, b+n). -/
def State.rangeFree (s : State) (b n : Nat) : Bool :=
  s.cx.ctxs.all (fun e => e.2.state = 0 || disjoint e.2.base e.2.len b n) && s.creates.all (fun a => disjoint (a.arg 8 8) (a.arg 16 8) b n)

def State.createBad (s : State) (a : ActCmd) : Option CmdErr :=
  let c := a.arg 0 1
  let b := a.arg 8 8
  let n := a.arg 16 8
  if 64 ≤ c then some (argErr 0)
  else if (s.ctxOf c).state ≠ 0 || s.creates.any (fun x => x.arg 0 1 = c) then some (codeErr 0x20)
  else (firstFail [(decide (a.arg 1 1 < 8), 1), (decide (a.arg 2 1 < 4), 2), (b % mib2 = 0, 8),
      (n ≠ 0 && n % mib2 = 0 && (oneStack b n).isSome, 16), (s.rangeFree b n, 8)]).map argErr

/-- The sheaf is work of context c. -/
def isOfCtx (c : Nat) (sh : Sheaf) : Bool := !isGolden sh && !isWarm sh && sh.index.ctx = c

/-- No sheaf of context c is queued or running, and no epoch below its stop epoch is undecided (Table 5-3). -/
def State.ctxQuiet (s : State) (c : Nat) : Bool :=
  (List.range 28).all (fun u =>
    (List.range 4).all (fun sc => ((s.eng u).lane sc).all (fun sh => !isOfCtx c sh)) &&
      (match (s.eng u).running with | some r => !isOfCtx c r.sheaf | none => true)) &&
    (match (s.ctxOf c).stop with
     | some n => s.tly.openEps.all (fun e => decide (n.toNat ≤ e.n.toNat))
     | none => true)

/-- Levels of OPC_TABLE_WRITE. -/
def opcArgs (a : ActCmd) : List OpcLevel :=
  (List.range 16).map (fun i => opcOfWords (BitVec.ofNat 32 (a.arg (8 + 8 * i) 4), BitVec.ofNat 32 (a.arg (12 + 8 * i) 4)))

/-- The configuration of WDG_CONFIG (Table 18-3). -/
def wdgCfgOf (b : List Byte) : WdgCfg :=
  { enable := fld b 0 1 % 2 = 1, safety := bitsAt (fld b 0 1) 1 1 = 1, kind := fld b 1 1, src := fld b 2 1, parts := fld b 3 1,
    node := fld b 4 4, openT := fld b 8 4, closeT := fld b 12 4 }

/-- First failing byte of a watchdog configuration (R355). -/
def wdgBad (b : List Byte) : Option Nat :=
  firstFail [(decide (fld b 0 1 < 4), 0), (decide (1 ≤ fld b 1 1) && decide (fld b 1 1 ≤ 4), 1),
    (decide (fld b 8 4 + 5 ≤ fld b 12 4), 8), (decide (fld b 12 4 ≤ 300000000), 12), (leNat (sub b 16 48) = 0, 16)]

/-- The output request of the latest published epoch was valid with V0 = +0: its record says so (R297, R389). -/
def State.standstill (s : State) : Bool :=
  match s.tly.recs.reverse.find? (fun r => r.published) with
  | some r => r.selCase ≠ 0 && bitsAt (fld r.traj 11 1) 4 1 = 0 && fld r.traj 44 4 = 0
  | none => false

/-- An EPOCH_SCHEDULE is pending. -/
def State.schedPending (s : State) : Bool := s.cmds.active.any (fun a => a.opcode = 0x11)

/-- Checks of a class E or B command that need no data: its arguments and the present state, as its home rule orders them. -/
def State.argCheck (s : State) (a : ActCmd) : Option CmdErr :=
  let x := a.arg
  let inCtx := fun (ok : Ctx → Bool) =>
    if 64 ≤ x 0 1 then some (argErr 0) else if ok (s.ctxOf (x 0 1)) then none else some (codeErr 0x20)
  match a.opcode with
  | 0x11 =>
    (firstFail [(x 0 1 = 1 || x 0 1 = 2, 0), (x 0 1 ≠ 1 || (decide (100000 ≤ x 4 4) && decide (x 4 4 ≤ 100000000)), 4),
      (x 0 1 ≠ 2 || decide (x 8 1 < 64), 8),
      (decide (10000 ≤ x 12 4) && decide (x 12 4 ≤ 300000000) && (x 0 1 ≠ 1 || decide (x 12 4 ≤ 3 * x 4 4)), 12)]).map argErr
  | 0x12 => if s.scheduled || s.schedPending then none else some (codeErr 0x20)
  | 0x13 => (firstFail [(decide (1 ≤ x 4 2) && decide (x 4 2 ≤ 1024), 4)]).map argErr
  | 0x20 => s.createBad a
  | 0x21 => inCtx (fun c => c.state = 1 && s.ctxQuiet (x 0 1))
  | 0x22 => (inCtx (fun c => c.state = 1)).orElse (fun _ =>
      (firstFail [(decide (x 8 8 + x 16 4 ≤ 4 * stackBytes), 8)]).map argErr)
  | 0x23 => inCtx (fun c => c.state = 1 && c.graph.isSome)
  | 0x24 => inCtx (fun c => c.state = 2)
  | 0x30 => ((firstFail [(decide (x 0 1 < 4), 0)]).orElse (fun _ => opcBad 0 none (opcArgs a))).map argErr
  | 0x31 => (firstFail [(decide (x 0 1 < 4), 0),
      (decide (x 1 1 < 16) && ((s.opc (x 0 1)).level (x 1 1)).valid, 1)]).map argErr
  | 0x32 => (firstFail [(decide (x 0 1 < 4), 0)]).map argErr
  | 0x40 => ((firstFail [(decide (x 0 1 < 16), 0)]).orElse (fun _ => (wdgBad (a.argBytes 8 64)).map (8 + ·))).map argErr
  | 0x41 => (firstFail [(decide (x 0 1 < 64), 0)]).map argErr
  | 0x42 => (firstFail [((switchCap (x 0 1)).isSome, 0)]).map argErr
  | 0x43 =>
    let share := fun v => decide (1 ≤ v % 2048) && decide (v % 2048 ≤ 1024)
    (firstFail [(decide (x 0 1 < 8), 0), (share (x 4 4), 4), (share (x 8 4), 8)]).map argErr
  | 0x50 => if a.remote || (s.pair.pstate = 1#3 && s.pair.twinState = 2#8 && s.pair.twinCan && s.seesTwin && s.standstill) then none
      else some (codeErr 0x20)
  | 0x51 => (firstFail [(x 0 4 = 0 || decide (100000000 ≤ x 0 4), 0), (decide (x 4 1 < 64), 4)]).map argErr
  | 0x61 => (firstFail [(decide (x 0 1 < 16), 0), (decide (x 8 8 + x 16 4 ≤ 4 * stackBytes), 8)]).map argErr |>.orElse
      (fun _ => if x 16 4 = 1280 then none else some (lenErr 16))
  | 0x62 => s.weightArgs (x 0 1) (x 8 8) (x 16 8) (x 24 8)
  | 0x70 | 0x71 => (firstFail [(decide (1 ≤ x 0 1) && decide (x 0 1 ≤ 5), 0), (decide (x 1 1 < unitsOf (x 0 1)), 1)]).map argErr
  | _ => none

/-! ## Data from a source address -/

/-- Source address and length, for a command whose data is given by address. -/
def cmdSource (a : ActCmd) : Option (Nat × Nat) :=
  if [0x22, 0x32, 0x41, 0x42, 0x61].contains a.opcode then some (a.arg 8 8, a.arg 16 4) else none

/-- The data of a command: its bytes, none where it has no source. -/
def State.readSource (s : State) (a : ActCmd) : Except CmdErr (List Byte) :=
  match cmdSource a with
  | none => .ok []
  | some (x, n) =>
    if 4 * stackBytes < x + n then .error (argErr 8)
    else match s.load whoReeve x n with
      | .ok b => .ok b
      | .error _ => .error (codeErr 0x40)

/-- Checks of the tables that a class E command reads. -/
def State.dataCheck (s : State) (a : ActCmd) (b : List Byte) : Option CmdErr :=
  match a.opcode with
  | 0x32 => if b.length ≠ 64 then some (lenErr 16) else (thrBad 0 none true (thrPieces b)).map dataErr
  | 0x41 =>
    match parseIngTable (s.featOn 1) (a.arg 0 1) b with
    | .ok _ => none
    | .error (d, o) => some { code := 0x11, detail := some d, field := some o }
  | 0x42 => s.switchCheck (a.arg 0 1) b
  | _ => none

/-- Validation of a class E or B command (R74 to R79): arguments and state, targets, then the data of class E. On success
the command with its data. -/
def State.validate (s : State) (a : ActCmd) : Except CmdErr ActCmd :=
  match s.argCheck a with
  | some e => .error e
  | none =>
    if !s.cmdUp a || (a.opcode = 0x70 && !(targetsOf a.body).all s.targetUp) then .error (codeErr 0x40)
    else if cmdClass a.opcode = some .back then .ok a
    else match s.readSource a with
      | .error e => .error e
      | .ok b =>
        match s.dataCheck a b with
        | some e => .error e
        | none => .ok { a with data := b }

/-! ## Background work (R74, R101, R462, R464, R408) -/

/-- Bytes that the limit of background work counts. -/
def ActCmd.bytes (a : ActCmd) : Nat := match a.opcode with | 0x22 => a.arg 16 4 | 0x62 => a.arg 24 8 | _ => 0

/-- Limit of background work in ticks: base and ticks per MiB begun (Table 3-10). -/
def workLimit (a : ActCmd) : Nat :=
  let mib := (a.bytes + 0xFFFFF) / 0x100000
  match a.opcode with
  | 0x22 => 200000 + 2000 * mib
  | 0x61 => 50000
  | 0x62 => 100000 + 4000 * mib
  | 0x70 => 700000
  | _ => 1000000

/-- The entry of a WEIGHT_DECRYPT. -/
def replayOf (a : ActCmd) : Replay := { place := a.arg 0 1, src := a.arg 8 8, dst := a.arg 16 8, len := a.arg 24 8, ok := true }

/-- The work of a class B command other than SHUTDOWN: what it found, or how it failed, and the state it leaves. -/
def State.runWork (s : State) (a : ActCmd) : Except CmdErr ActCmd × State :=
  match a.opcode with
  | 0x22 =>
    match s.readSource a with
    | .error e => (.error e, s)
    | .ok b =>
      match s.graphCheck (a.arg 0 1) (a.argBytes 32 48) b with
      | .error e => (.error e, s)
      | .ok (g, moved) => (.ok { a with data := b, graph := some g, degraded := moved }, s)
  | 0x61 =>
    match s.readSource a with
    | .error e => (.error e, s)
    | .ok b =>
      match s.unwrapKey b with
      | .error e => (.error e, s)
      | .ok k => (.ok { a with data := BitVec.ofNat 8 k.kind :: keyBytes k.key }, s)
  | 0x62 =>
    match s.weightWork (replayOf a) with
    | (.error e, t) => (.error e, t)
    | (.ok b, t) => (.ok { a with data := b }, t)
  | 0x70 => (.ok a, s.resetUnit (a.arg 0 1) (a.arg 1 1))
  | _ => (.ok a, s)

/-! ## Taking effect -/

/-- CONTEXT_DESTROY (R109, R222, R233, R268, R335). -/
def State.destroyCtx (s : State) (c : Nat) : State :=
  let s := ((s.updCtx c (fun _ => Ctx.init)).releaseBanks c).blkDropCtx c
  let s := forUpto 4 (fun k a => (a.updKvCtx k c (fun x => { x with mode := 0#2 })).updKvw k (fun d =>
    { d with lab := d.lab.filter (fun e => e.2.ctx ≠ c), tc := d.tc.filter (fun e => e.ctx ≠ c) })) s
  forUpto 32 (fun k a => a.updCoreOf k (fun x => if x.ctx.toNat = c then { x with valid := false } else x)) s

/-- A graph loaded from epoch n on: open epochs below n keep the one it replaces (R85), and its image goes to the start of the
context's range (Table 5-1). -/
def State.placeGraph (s : State) (c : Nat) (g : Graph) (file : List Byte) (n : BitVec 64) : State :=
  let h := jwgHdrOf file
  let held := fun (e : BitVec 64 × Graph) => s.tly.openEps.any (fun o => decide (o.n.toNat < e.1.toNat))
  (s.updCtx c (fun x =>
    { x with graph := some g, older := (x.older ++ (x.graph.map (fun o => (n, o))).toList).filter held, moved := [] })).write (s.ctxOf c).base (sub file h.imageOff h.image)

/-- A key goes into its place; a record key restarts the count of each destination that names the place (R460, R469). -/
def State.installKey (s : State) (place : Nat) (b : List Byte) : State :=
  let s := s.setKey place { kind := fld b 0 1, key := keyOf (b.drop 1) }
  (List.range 32).foldl (fun a d => match a.destEntry d with
    | some e => if fld e 26 1 = place then a.mapTly (fun t => { t with recSeq := Tab.set 0 t.recSeq d 0 }) else a
    | none => a) s

/-- The change of a class E or B command becomes part of the state from epoch n on. -/
def State.applyCmd (s : State) (a : ActCmd) (n : BitVec 64) : State :=
  let x := a.arg
  match a.opcode with
  | 0x11 => s.mapTly (fun t =>
      { t with sched := some { mode := x 0 1, period := x 4 4, trigger := x 8 1, deadline := x 12 4, start := s.now }, halted := false })
  | 0x12 => s.mapTly (fun t => { t with sched := none, halted := true })
  | 0x13 => s.mapTly (fun t =>
      { t with recSched := { mask := BitVec.ofNat 32 (x 0 4), every := BitVec.ofNat 16 (x 4 2), dests := BitVec.ofNat 32 (x 8 4) } })
  | 0x20 => s.updCtx (x 0 1) (fun _ => { Ctx.init with state := 1, part := x 1 1, sc := x 2 1, base := x 8 8, len := x 16 8 })
  | 0x21 => s.destroyCtx (x 0 1)
  | 0x22 => match a.graph with | some g => s.placeGraph (x 0 1) g a.data n | none => s
  | 0x23 => s.updCtx (x 0 1) (fun c => { c with state := 2, start := n, stop := none })
  | 0x24 => s.updCtx (x 0 1) (fun c => { c with state := 1, stop := some n })
  | 0x30 => s.applyOpcTable (x 0 1) (opcArgs a)
  | 0x31 => s.applyOpcLevel (x 0 1) (x 1 1)
  | 0x32 => s.applyThr (x 0 1) a.data
  | 0x40 => s.updWdgStage (x 0 1) (fun w => { w with cfg := wdgCfgOf (a.argBytes 8 64) })
  | 0x41 => match parseIngTable (s.featOn 1) (x 0 1) a.data with | .ok t => s.applyIngTable (x 0 1) t n | .error _ => s
  | 0x42 => s.applySwitch (x 0 1) a.data
  | 0x43 =>
    let s := s.mapCx (fun c =>
      { c with hbmShare := Tab.set 0x400#11 c.hbmShare (x 0 1) (BitVec.ofNat 11 (x 4 4)),
               fabShare := Tab.set 0x400#11 c.fabShare (x 0 1) (BitVec.ofNat 11 (x 8 4)) })
    forUpto 4 (fun k t => t.setShares k) s
  | 0x51 => s.mapPair (fun p =>
      { p with interval := if x 0 4 = 0 then 60000000000 else x 0 4, mask := BitVec.ofNat 6 (x 4 1) })
  | 0x61 => s.installKey (x 0 1) a.data
  | 0x62 => (s.store whoVault (x 16 8) a.data).2.listReplay (replayOf a)
  | 0x71 => s.journalUnit (x 0 1) (x 1 1) 4 0#32
  | 0x80 => s.mapCmds (fun c => { c with fallback := true })
  | 0x81 => s.mapCmds (fun c => { c with fallback := false })
  | _ => s

/-- RESULT of a command that has applied: OPC_LEVEL_SET reports LEVEL_EFF and LEVEL_CMD. -/
def State.applyResult (old s : State) (a : ActCmd) : List Byte :=
  if a.opcode = 0x30 then
    let o := s.opc (a.arg 0 1)
    if o.levelCmd = (old.opc (a.arg 0 1)).levelCmd then [] else [BitVec.ofNat 8 o.levelCmd.toNat]
  else if a.opcode = 0x31 then
    let o := s.opc (a.arg 0 1)
    [BitVec.ofNat 8 o.levelEff.toNat, BitVec.ofNat 8 o.levelCmd.toNat]
  else []

/-- A unit is mapped out or disabled (CFLAGS DEGRADED). -/
def State.unitsOut (s : State) : Bool :=
  s.boot.dieDis ≠ 0#4 || s.boot.engDis ≠ 0#28 || s.boot.cluDis ≠ 0#8 || s.boot.stackOut ≠ 0#4

/-- Apply one command whose effect epoch n opens, or that applies at once, and complete it (R75, R77): counted and listed
unless it is module-local, and kept in the configuration store. -/
def State.applyOne (s : State) (n : BitVec 64) (a : ActCmd) : State :=
  if !s.cmdUp a then s.endCmd a { code := 0x40, epoch := n }
  else
    let t := (s.applyCmd a n).noteApplied a
    t.endCmd a { code := 0, epoch := n, degraded := a.degraded || t.unitsOut, result := s.applyResult t a }

end Sys2Proof.Machine
end

