-- ==== Sys2Proof/Machine/Epoch.lean ====
section
/-! DEFINITION. Epochs: opening one, alone and in a pair, applying what its open event brings, deadlines, digests and
publication, carrying commands to the twin, the controlled shutdown, and the ledger's registers (R75 to R92, R97 to R99,
R377 to R383, R487, R512). -/

namespace Sys2Proof.Machine

/-! ## The open event (R83 to R85, R105) -/

/-- Contexts that contribute to epoch n (R85). -/
def State.contributors (s : State) (n : BitVec 64) : List Nat :=
  (s.cx.ctxs.filter (fun e => e.2.state = 2 && decide (e.2.start.toNat ≤ n.toNat))).map (·.1)

/-- Nodes of the instance that must end, the output stage of the trajectory graph among them (R86, R290). -/
def State.instLoad (s : State) (n : BitVec 64) (c : Nat) : Nat :=
  (s.nodes n c).length + (match s.trajNode with | some t => bit01 (t.1 = c) | none => 0)

/-- A context gets its instance for epoch n. -/
def State.addInst (s : State) (n : BitVec 64) (c : Nat) : State :=
  (s.mapCx (fun x =>
    { x with insts := x.insts ++ [{ epoch := n, ctx := c, started := false, nodes := [], left := s.instLoad n c }] })).advanceCtx c

/-- A pending command takes effect at the open event of n: `lst` names the carried ones in a pair (R379). -/
def appliesAt (n : BitVec 64) (lst : Option (List (BitVec 8 × BitVec 16))) (a : ActCmd) : Bool :=
  a.phase = .pending && a.opcode ≠ 0x50 && (!a.atEpoch || decide (a.target.toNat ≤ n.toNat)) &&
    (moduleLocal a.opcode || (match lst with
      | some l => l.contains (BitVec.ofNat 8 a.slot, a.seq)
      | none => !a.remote))

/-- The agreed list of an epoch: commands of `lst` in its order, or all that have applied since the last open event. -/
def listedCmds (lst : Option (List (BitVec 8 × BitVec 16))) (l : List CmdEntry) : List CmdEntry :=
  match lst with
  | some q => q.filterMap (fun e => l.find? (fun c => c.slot = e.1.toNat && c.seq = e.2))
  | none => l.take 16

/-- What the twin has already sent about an epoch that opens now. -/
def State.earlyTwin (s : State) (n : BitVec 64) : TwinEp := ((s.pair.earlyTwin.find? (fun x => x.1 = n)).map (·.2)).getD TwinEp.init

/-- STATE of every context that is not absent. -/
def State.ctxStates (s : State) : Tab Nat :=
  (List.range 64).filterMap (fun c => if (s.ctxOf c).state = 0 then none else some (c, (s.ctxOf c).state))

/-- Epoch n opens (R83): pending commands apply, contributors are fixed, instances and the golden sheaf are created. -/
def State.openEpoch (s : State) (n : BitVec 64) (deadline : Nat) (paired shadow : Bool) (lst : Option (List (BitVec 8 × BitVec 16))) : State :=
  let s := s.mapTly (fun t => { t with opened := n })
  let s := (s.cmds.active.filter (appliesAt n lst)).foldl (fun a c => a.applyOne n c) s
  let e : OpenEp :=
    { n := n, openTick := s.now, deadline := deadline, paired := paired, shadow := shadow, ctxs := s.contributors n, waiting := s.contributors n,
      withhold := 0#32, goldDefer := false, edge := false, fallback := s.cmds.fallback, duty := s.thm.coolLoss && s.isRole,
      failover := false, cmds := listedCmds lst s.tly.early, configGen := s.tly.configGen, doneTick := none, digest := none,
      results := [], selCase := 0, traj := [], trajMapEpoch := 0#64, err := { unc := 0, corr := 0, addr := 0, ctx := 0, node := 0 },
      corrSeen := false, chaff := 0, states := s.ctxStates, beats := [], dieErrs := [], twin := s.earlyTwin n }
  let s := s.mapTly (fun t => { t with openEps := t.openEps ++ [e], early := [] })
  let s := s.mapPair (fun p => { p with earlyTwin := p.earlyTwin.filter (fun x => x.1 ≠ n) })
  let s := s.mapHwa (fun h =>
    { h with epCfg := h.epCfg ++ (List.range 16).map (fun st => (n, st, (Tab.get WdgStage.init h.stages st).cfg)) })
  let s := (s.fixArrivals n s.now).goldOpen n
  let s := (s.contributors n).foldl (fun a c => a.addInst n c) s
  s.inputsReady n

/-! ## Requests to open (R84, R377, R512) -/

/-- This module opens epochs: its ROLE reads 1, Hayward A and the Reeve main core are in order, and neither a shutdown nor
a role swap forbids it (R81, R377, R389, R419, R487). -/
def State.mayOpen (s : State) : Bool :=
  s.isRole && s.mbx.ready && !s.hwa.fault && !s.flt.safe && !s.flt.reeveHung && !s.thm.shutdown &&
    (match s.pair.swapAt with | some e => decide (s.nextN.toNat < e.toNat) | none => true)

/-- The joiner has the whole configuration store (R391 step 3). -/
def State.joinerReady (s : State) : Bool :=
  s.pair.joinRun || (match s.pair.joinMark with | some m => decide (m ≤ Tab.get 0 s.dnp.acked 2) | none => false)

/-- OPEN and CFG go to a twin that is a member, or to a joiner after the image cut (R377, R379, R391). -/
def State.sendsOpen (s : State) : Bool := s.linkUp && (s.pair.pstate = 1#3 || (s.pair.pstate = 0#3 && s.pair.joiner))

/-- Commands that the next open event applies: those that have applied at once, and the pending ones of its epoch that no
OPEN in flight carries. -/
def State.applyList (s : State) (n : BitVec 64) : List (BitVec 8 × BitVec 16) :=
  let held := s.pair.openHeld.flatMap (fun h => h.1.apply)
  let early := if s.pair.openHeld = [] then s.tly.early.map (fun c => (BitVec.ofNat 8 c.slot, c.seq)) else []
  let due := (s.cmds.active.filter (fun a => !moduleLocal a.opcode && appliesAt n none a)).map (fun a => (BitVec.ofNat 8 a.slot, a.seq))
  (early ++ due.filter (fun e => !held.contains e)).take 16

/-- Open the next epoch: at once without a twin, else the commander sends OPEN and holds its own open event until the
link has acknowledged it (R377). -/
def State.openNow (s : State) (deadline : Nat) : State :=
  let n := s.nextN
  if s.sendsOpen then
    let m : OpenMsg :=
      { epoch := n, deadline := deadline, paired := s.pair.pstate = 1#3 || s.pair.joinPair, first := s.pair.pstate = 0#3 && s.joinerReady && !s.pair.joinRun,
        apply := s.applyList n }
    let s := s.send (.openMsg n (BitVec.ofNat 32 (deadline - 2000)) m.paired m.first m.apply)
    s.mapPair (fun p => { p with openHeld := p.openHeld ++ [(m, Tab.get 0 s.dnp.handed 1)],
                                 joinRun := p.joinRun || m.first })
  else s.openEpoch n deadline false false none

/-- A tick or trigger of the standing schedule: skipped and counted while four epochs are open (R84). -/
def State.openRequest (s : State) (deadline : Nat) : State :=
  if !s.mayOpen then s
  else if 4 ≤ s.openCount then s.mapTly (fun t => { t with skipped := min (t.skipped + 1) 0xFFFF })
  else s.openNow deadline

/-- The oldest held open event takes place once its OPEN is acknowledged, or no twin receives OPEN any more. -/
def State.openHeld (s : State) : State :=
  match s.pair.openHeld with
  | (m, mark) :: rest =>
    if !s.sendsOpen || decide (mark ≤ Tab.get 0 s.dnp.acked 1) then
      let live := s.sendsOpen
      let s := s.mapPair (fun p => { p with openHeld := rest })
      let s := if live && m.paired && s.pair.pstate = 0#3 then
          (s.mapPair (fun p => { p with joiner := false, joinRun := false, joinMark := none, joinPair := false })).setPState 1#3
        else s
      s.openEpoch m.epoch m.deadline (m.paired && live) (live && !m.paired && s.pair.joinRun) (some m.apply)
    else s
  | [] => s

/-- A period tick (R512): ticks stay at multiples of the period. -/
def State.periodTick (s : State) : State :=
  match s.tly.sched with
  | some c =>
    if c.mode = 1 ∧ !s.tly.halted ∧ s.isRole ∧ c.start + c.period ≤ s.now then
      (s.mapTly (fun t => { t with sched := some { c with start := c.start + c.period } })).openRequest c.deadline
    else s
  | none => s

/-! ## Commands becoming due (R75, R379) -/

/-- A command has been validated, and worked on, in both modules: it applies at once or waits for its epoch (Table 3-8).
ROLE_SWAP fixes the epoch that this module does not open (R389). -/
def State.cmdDue (s : State) (a : ActCmd) : State :=
  let b := { a with phase := .pending }
  let s := s.mapCmds (fun c => { c with active := updFirst (fun x => decide (x = a)) (fun _ => b) c.active })
  if a.opcode = 0x50 then
    if a.remote then s else s.mapPair (fun p => { p with swapAt := some (s.effEpoch b) })
  else if a.atEpoch || s.opensLater then s
  else
    let s := s.applyOne s.nextN b
    if a.opcode = 0x11 ∧ a.arg 0 1 = 1 ∧ s.scheduled ∧ !a.remote then s.openRequest (a.arg 12 4) else s

/-- Pieces of at most 65,520 bytes. -/
def chunks : Nat → List Byte → List (List Byte)
  | 0, _ => []
  | n + 1, l => l.take 65520 :: chunks n (l.drop 65520)

/-- Send CFG and the command's source data in CFG_DATA (R379). -/
def State.carryCmd (s : State) (a : ActCmd) : State :=
  let d := match s.readSource a with | .ok b => b | .error _ => []
  let addr := match cmdSource a with | some x => x.1 | none => 0
  let s := s.send (.cfg (BitVec.ofNat 8 a.slot) a.body (BitVec.ofNat 64 d.length))
  let s := (chunks ((d.length + 65519) / 65520) d).zipIdx.foldl (fun t p =>
    t.send (.cfgData (BitVec.ofNat 40 (addr + 65520 * p.2)) p.1)) s
  s.mapPair (fun p => { p with carried := p.carried ++ [{ slot := a.slot, seq := a.seq }] })

/-- The twin has still to answer for a command. -/
def State.carryWaits (s : State) (a : ActCmd) : Bool := s.pair.carried.any (fun c => c.slot = a.slot && c.seq = a.seq)

/-- Validation or background work has ended in this module: a carried command waits for the twin's answer. -/
def State.cmdReady (s : State) (a : ActCmd) : State :=
  if !a.remote && s.carryWaits a then
    s.mapCmds (fun c => { c with active := updFirst (fun x => decide (x = a)) (fun _ => { a with phase := .carried }) c.active })
  else s.cmdDue a

/-- Commands whose twin has answered or left go on. -/
def State.uncarry (s : State) : State :=
  (s.cmds.active.filter (fun a => a.phase = .carried && !s.carryWaits a)).foldl (fun t a => t.cmdDue a) s

/-- Stages that have ended take their output once no twin's P is awaited any more (R293). -/
def State.retryOutputs (s : State) : State :=
  match s.out.stages.filter (fun g => g.ended && (s.openEp? g.epoch).any (fun e => !s.needsTwin e)) with
  | [] => s
  | l => (l.foldl (fun t g => t.tryOutput g.epoch) s).settle

/-- Without a twin that takes part nothing is carried, and no P is awaited. -/
def State.carryCheck (s : State) : State :=
  let s := s.retryOutputs
  if s.sendsOpen then s else (s.mapPair (fun p => { p with carried := [] })).uncarry

/-! ## Digests and the copy that stands (R90, R381 to R383) -/

/-- Digests of both modules are known and equal. -/
def OpenEp.sameDigest (e : OpenEp) : Bool :=
  match e.twin.digestTwin, e.digest with
  | some d, some o => d.1 && d.2.2 = o
  | _, _ => false

/-- The evidence word of epoch n (Table 19-6). -/
def State.evidenceWord (s : State) (e : OpenEp) : Nat :=
  let since := (s.openTickOf (e.n - 1)).getD 0
  flagsNat [s.hwa.known.any (fun t => decide (since ≤ t)), e.corrSeen, (List.range 4).any (fun k => (s.opc k).marginRec), e.edge, e.chaff ≠ 0]

/-- Level of an evidence word. -/
def evLevel (w : Nat) : Nat := if bitsAt w 0 1 = 1 then 3 else if bitsAt w 1 1 = 1 then 2 else if bitsAt w 2 3 ≠ 0 then 1 else 0

/-- Send EVIDENCE once two whole copies differ (R382). -/
def State.tryEvidence (s : State) (n : BitVec 64) : State :=
  match s.openEp? n with
  | some e =>
    if s.needsTwin e && e.mismatch && e.twin.evidenceSent.isNone then
      let w := s.evidenceWord e
      (s.send (.evidence n (BitVec.ofNat 8 w))).updEp n (fun e => { e with twin := { e.twin with evidenceSent := some w } })
    else s
  | none => s

/-- Both evidence words have been exchanged: the higher level does not stand; equal levels leave the mismatch unresolved, and the
commander's copy stands (R382, Table 19-7). -/
def State.resolve (s : State) (n : BitVec 64) : State :=
  match s.openEp? n with
  | some e =>
    match e.twin.evidenceSent, e.twin.evidenceTwin with
    | some o, some t =>
      if e.twin.resolved.isNone then
        let own := evLevel o
        let twin := evLevel t
        if own = twin then
          s.updEp n (fun e =>
            { e with withhold := if s.pair.pstate = 1#3 then e.withhold else e.withhold ||| whDigest,
                     twin := { e.twin with unresolved := true, resolved := some (decide (s.pair.pstate = 1#3)) } })
        else if own < twin then s.updEp n (fun e => { e with twin := { e.twin with resolved := some true } })
        else s.updEp n (fun e => { e with withhold := e.withhold ||| whDigest, twin := { e.twin with resolved := some false } })
      else s
    | _, _ => s
  | none => s

/-- A joiner compares digests and inputs of an epoch that both have (R391 steps 3 to 5); sixteen matches end the join. -/
def State.joinCompare (s : State) (n : BitVec 64) : State :=
  match s.openEp? n with
  | some e =>
    match e.twin.digestTwin, e.digest with
    | some _, some _ =>
      if s.pair.pstate ≠ 3#3 then s
      else
        let run := if e.sameDigest && e.twin.inputAgreed = some true then s.pair.matchRun + 1 else 0
        let s := (s.mapPair (fun p => { p with matchRun := if run = 16 then 0 else run })).dropEpoch n
        if run = 16 then s.send (.joinDone n) else s
    | _, _ => s
  | none => s

/-- A module that is whole and has its digest sends it (R381); a joiner compares instead. -/
def State.tryDigest (s : State) (n : BitVec 64) : State :=
  match s.openEp? n with
  | some e =>
    if e.digest.isSome && (s.needsTwin e || e.shadow) && s.wholeAlone e && !e.twin.digestSent then
      let s := s.send (.digest n true 0#32 (digBytes (e.digest.getD 0#384)))
      ((s.updEp n (fun e => { e with twin := { e.twin with digestSent := true } })).tryEvidence n).resolve n
    else s.joinCompare n
  | none => s

/-- The digest of an epoch has been computed (Table 4-1 step 2). -/
def State.digestDone (s : State) (n : BitVec 64) : State :=
  match s.openEp? n with
  | some e =>
    if e.doneTick.isSome && e.digest.isNone && e.withhold = 0#32 then
      let res := s.resultsOf e
      (s.updEp n (fun x => { x with digest := some (s.digestOf e res), results := res })).tryDigest n
    else s
  | none => s

/-! ## Deadline and publication (R86 to R89, R91) -/

/-- Whether an epoch may be published: whole with its digest, and for a standby equal to the commander's copy. -/
def State.publishable (s : State) (e : OpenEp) : Bool :=
  s.wholeAlone e && e.digest.isSome &&
    (s.twinOk e || (s.pair.pstate = 2#3 && e.inputOk && e.twin.digestSent && e.sameDigest))

/-- Publish the oldest open epoch if it may be: a standby sends DIGEST_ACK as it writes its record. -/
def State.publish (s : State) (n : BitVec 64) (final : Bool) : State :=
  match s.tly.openEps with
  | e :: _ =>
    if e.n = n && s.decides && s.publishable e then
      let ack := s.pair.pstate = 2#3 && s.needsTwin e && e.sameDigest
      let s := if ack then (s.send (.digestAck n)).updEp n (fun x => { x with twin := { x.twin with acked := true } }) else s
      let e := (s.openEp? n).getD e
      let s := if s.pair.pstate = 2#3 && s.needsTwin e && !e.twin.acked then s.updEp n (fun x => { x with failover := true }) else s
      let e := (s.openEp? n).getD e
      (s.decideEpoch e true final).afterDecision e true
    else s
  | [] => s

/-- Conditions of R86 that an epoch misses at its deadline (Table 4-3). -/
def State.missed (s : State) (e : OpenEp) : BitVec 32 :=
  let parts := (if e.waiting = [] ∧ s.inputsClosed e.n ∧ s.goldDone e.n then 0#32 else whDeadline) |||
    (if s.wdgOk e.n then 0#32 else whWatchdog) ||| (if s.agrees e && e.twin.inputAgreed ≠ some true then whInput else 0#32)
  if parts = 0#32 ∧ !s.twinOk e ∧ !(s.pair.pstate = 2#3 && e.sameDigest) then whPairAck else parts

/-- The deadline of an epoch has passed: what is not whole is withheld, in DECIDING once the role is settled; its instances are
abandoned at once (R86, R105). -/
def State.deadline (s : State) (n : BitVec 64) : State :=
  match s.openEp? n with
  | some e => if e.openTick + e.deadline ≤ s.now ∧ (s.decides ∨ s.pair.pstate = 3#3 ∨ s.pair.pstate = 5#3) then s.withhold n (s.missed e) else s
  | none => s

/-! ## Controlled shutdown (R487, Table 25-6) -/

/-- Decide the oldest open epoch at once: published if whole, else withheld with UNIT_LOST. -/
def State.decideNow (s : State) : State :=
  match s.tly.openEps with
  | e :: _ =>
    let s := if e.digest.isNone && s.wholeAlone e then
        let res := s.resultsOf e
        s.updEp e.n (fun x => { x with digest := some (s.digestOf e res), results := res })
      else s
    match s.openEp? e.n with
    | some e =>
      if s.publishable e then s.publish e.n false
      else
        let s := (s.withhold e.n (if e.withhold = 0#32 then whUnitLost else 0#32)).abandonEpoch e.n
        match s.openEp? e.n with
        | some e => (s.decideEpoch e false false).afterDecision e false
        | none => s
    | none => s
  | [] => s

/-- Opcode of a POSTED slot that the shutdown completes. -/
def State.postedOp (s : State) (slot : Nat) : Nat := bodyOpcode (s.slotBody slot)

/-- Every class E and B command other than SHUTDOWN completes with STATE. -/
def State.stopCmds (s : State) : State :=
  let s := (s.cmds.active.filter (fun a => a.opcode ≠ 0x90)).foldl (fun t a => t.endCmd a { code := 0x20, epoch := t.effEpoch a }) s
  (s.mbx.order.filter (fun i => let op := s.postedOp i
      op ≠ 0x90 && (cmdClass op = some .epoch || cmdClass op = some .back))).foldl (fun t i =>
    (t.complete i (t.postedOp i) (bodySeq (t.slotBody i)) { code := 0x20, epoch := t.nextN }).mapMbx (fun m => { m with order := m.order.erase i })) s

/-- The final epoch: no contributor, the minimum-risk profile, published (R487 step 5). -/
def State.finalEpoch (s : State) : State :=
  let n := s.nextN
  let p := match s.out.cfg with | some c => s.hwaProfile c n.toNat 0 | none => ([], s)
  let s := p.2
  let e : OpenEp :=
    { n := n, openTick := s.now, deadline := 20000, paired := false, shadow := false, ctxs := [], waiting := [], withhold := 0#32, goldDefer := false,
      edge := false, fallback := false, duty := true, failover := false, cmds := [],
      configGen := s.tly.configGen - BitVec.ofNat 64 s.tly.early.length, doneTick := some s.now, digest := none, results := [], selCase := 5,
      traj := p.1, trajMapEpoch := 0#64, err := { unc := 0, corr := 0, addr := 0, ctx := 0, node := 0 }, corrSeen := false, chaff := 0,
      states := s.ctxStates, beats := [], dieErrs := [], twin := TwinEp.init }
  let e := { e with digest := some (s.digestOf e []) }
  let s := s.mapTly (fun t => { t with opened := n, openEps := [e] })
  s.decideEpoch e true true

/-- Step 7: dies with their stacks and the ingest subsystem are held in reset. -/
def State.holdReset (s : State) : State :=
  let s := forUpto 4 (fun k a => if a.dieRuns k then a.dieInReset k else a) s
  (s.mapFlt (fun f => { f with iodSub := Tab.set false f.iodSub 0 true })).ingestReset

/-- The shutdown from step 2 on; the state ends only at package reset. An ACTIVE SHUTDOWN completes with OK. -/
def State.shutdown (s : State) : State :=
  if s.thm.shutdown then s
  else
    let s := s.mapThm (fun t => { t with shutdown := true, pcap := 0#4 })
    let s := forUpto 4 (fun k a => if a.dieRuns k then a.applyLevel k true else a) s
    let s := (s.mapPair (fun p => { p with openHeld := [] })).resignCheck
    let s := if s.decides then (iterate State.decideNow 4 s) else s
    let s := s.stopCmds
    let f := s.nextN
    let s := if s.isRole then s.finalEpoch else s
    let s := s.holdReset
    (s.cmds.active.filter (fun a => a.opcode = 0x90)).foldl (fun t a =>
      t.endCmd a { code := 0, epoch := f, degraded := t.unitsOut }) s

/-! ## Snapshot windows (R98, R99) -/

/-- Window 0 answers the KCP endpoint alone, windows 1 to 3 fabric initiators alone. -/
def winWriter (w : Initiator) (i : Nat) : Bool := if i = 0 then w = .kcp else w ≠ .kcp

/-- Epoch that a window wants. -/
def SnapWin.wanted (x : SnapWin) : Nat := x.selHi.toNat * 4294967296 + x.selLo.toNat

/-- WSTATE and contents at the end of a copy (R99). TLY_OPENED reads 0 during a join. -/
def State.snapshot (s : State) (x : SnapWin) : SnapWin :=
  match s.tly.recs.find? (fun r => r.epoch.toNat = x.wanted) with
  | some r => { x with wstate := 2#3, copy := some r }
  | none =>
    if (s.openEp? (BitVec.ofNat 64 x.wanted)).isSome then { x with wstate := 4#3 }
    else if (if s.pair.hideTly then 0 else s.tly.opened.toNat) < x.wanted then { x with wstate := 5#3 } else { x with wstate := 3#3 }

/-- The oldest retained epoch, 0 if none. -/
def State.oldest (s : State) : BitVec 64 := match s.tly.recs with | r :: _ => r.epoch | [] => 0#64

/-- Upper half of a 64-bit value. -/
def hiWord (v : BitVec 64) : BitVec 32 := BitVec.ofNat 32 (v.toNat / 4294967296)

/-! ## Commands -/

/-- SCHEDULE_TICK. -/
def execScheduleTick (s : State) : Host.Outcome State Fault Refusal := .next (s.periodTick.settle)

/-- EPOCH_OPEN_EVENT: the oldest open event that waits for the acknowledgement of its OPEN. -/
def execEpochOpenEvent (s : State) : Host.Outcome State Fault Refusal := .next (s.openHeld.settle)

/-- EPOCH_DEADLINE_EXPIRY. -/
def execEpochDeadlineExpiry (n : BitVec 64) (s : State) : Host.Outcome State Fault Refusal := .next ((s.deadline n).settle.carryCheck)

/-- EPOCH_DIGEST_COMPUTED. -/
def execEpochDigestComputed (n : BitVec 64) (s : State) : Host.Outcome State Fault Refusal := .next ((s.digestDone n).settle.carryCheck)

/-- EPOCH_PUBLISH. -/
def execEpochPublish (n : BitVec 64) (s : State) : Host.Outcome State Fault Refusal := .next ((s.publish n false).settle.carryCheck)

/-- TLY_SEL_LO_WRITE: starts the copy, abandoning one that runs. -/
def execTlySelLoWrite (w : Initiator) (win : Fin 4) (v : BitVec 32) (s : State) : Host.Outcome State Fault Refusal :=
  .next (if winWriter w win then s.updWin win (fun x => { x with selLo := v, wstate := 1#3, copy := none }) else s)

/-- TLY_SNAPSHOT_COPY_DONE. -/
def execTlySnapshotCopyDone (win : Fin 4) (s : State) : Host.Outcome State Fault Refusal :=
  .next (if (s.winOf win).wstate = 1#3 then s.updWin win s.snapshot else s)

/-- TLY_LO_READ: captures the upper half of LATEST, OLDEST or OPENED; all read 0 during a join (R391). -/
def execTlyLoRead (_w : Initiator) (which : Fin 3) (s : State) : Host.Outcome State Fault Refusal :=
  let v := fun (x : BitVec 64) => if s.pair.hideTly then 0#32 else hiWord x
  .next (match which with
    | 0 => s.mapTly (fun t => { t with latestHi := v t.latest })
    | 1 => s.mapTly (fun t => { t with oldestHi := v s.oldest })
    | 2 => s.mapTly (fun t => { t with openedHi := v t.opened }))

/-- WDG_TICK_LO_READ: the Reeve main core captures the upper half; other readers get target-unavailable (R45). -/
def execWdgTickLoRead (w : Initiator) (s : State) : Host.Outcome State Fault Refusal :=
  .next (if w = .reeve then s.mapTime (fun t => { t with tickHi := hiWord (BitVec.ofNat 64 t.tickA) }) else s)

end Sys2Proof.Machine
end

