-- ==== Sys2Proof/Machine/Mailbox.lean ====
section
/-! DEFINITION. The mailbox block and the Reeve that serves it: doorbells, releases, slot bodies, taking a slot, immediate
commands, background work, and every command of Table 3-10 as its master issues it (R58 to R82). -/

namespace Sys2Proof.Machine

/-! ## The block (R59 to R66) -/

/-- The initiator is the master and the Reeve serves the slots (R59, R62). -/
def State.isMaster (s : State) (w : Initiator) : Bool :=
  s.mbx.ready && (if s.mbx.master = 1#2 then w = .kcp
    else s.mbx.master = 2#2 && (match w with | .core c => decide (c.val < 4) | _ => false))

def State.slotFree (s : State) (slot : Nat) : Bool := (s.slotOf slot).state = 0#2

/-- Bytes of a slot body from `off` on; those past the body are dropped. -/
def bodyStore (t : Tab Byte) (off : Nat) (l : List Byte) : Tab Byte := (memStore t off l).filter (fun e => decide (e.1 < 256))

/-- A write to a slot body (R65). -/
def State.bodyWrite (s : State) (slot off : Nat) (l : List Byte) : State :=
  if s.slotFree slot then s.updSlot slot (fun x => { x with body := bodyStore x.body off l }) else s.slip 1

/-- A write of MBX_DOORBELL (R63, R66). -/
def State.ring (s : State) (slot : Nat) (seq : BitVec 16) : State :=
  if s.slotFree slot then
    (s.updSlot slot (fun x => { x with state := 1#2, dbSeq := seq })).mapMbx (fun m => { m with order := m.order ++ [slot] })
  else s.slip 0

/-- A write of MBX_RELEASE (R64). -/
def State.releaseSlots (s : State) (v : Nat) : State :=
  forUpto 16 (fun i a =>
    if bitsAt v i 1 = 0 then a
    else if (a.slotOf i).state = 3#2 then a.updSlot i (fun x => { x with state := 0#2 }) else a.slip 2) s

/-- A write of MBX_STICKY (R64). -/
def State.clearSticky (s : State) (v : Nat) : State :=
  s.mapMbx (fun m => { m with sticky := m.sticky &&& ~~~(BitVec.ofNat 4 v) })

/-! ## Taking a slot (R72, R73) -/

/-- The slot that the Reeve takes next: FALLBACK_REQUEST ahead of all, else the oldest, unless its targets overlap those of
an ACTIVE command or eight commands are ACTIVE. -/
def State.nextTake (s : State) : Option Nat :=
  if !s.mbx.ready || s.flt.reeveHung then none
  else match s.mbx.order.find? (fun i => bodyOpcode (s.slotBody i) = 0x80) with
    | some i => some i
    | none =>
      match s.mbx.order with
      | i :: _ =>
        if s.cmds.active.any (fun a => targetsMeet (targetsOf (s.slotBody i)) (targetsOf a.body)) then none
        else if 8 ≤ (s.cmds.active.filter (fun a => !a.remote)).length then none else some i
      | [] => none

/-- EPOCH and EFFECT_TICK of a command that completes as it is taken (Tables 3-8 and 3-9); free for an opcode without a
class, and where the tick's origin is not known. -/
def State.cplTime (s : State) (b : List Byte) : (BitVec 64 × Nat) × State :=
  match cmdClass (bodyOpcode b) with
  | none => let e := s.freeWide; let t := e.2.freeWord; ((e.1, t.1.toNat), t.2)
  | some .imm =>
    if bodyOpcode b = 0x10 then ((s.nextN, 0), s)
    else let t := s.faultTick s.tly.latest; ((s.tly.latest, t.1), t.2)
  | some _ => ((if bodyAtEpoch b then bodyTarget b else s.nextN, 0), s)

/-- Complete a slot that has just been taken, with the completion's own fields over EPOCH and EFFECT_TICK. -/
def State.finishTake (s : State) (slot : Nat) (b : List Byte) (f : BitVec 64 → Nat → Cpl) : State :=
  let t := s.cplTime b
  t.2.complete slot (bodyOpcode b) (bodySeq b) (f t.1.1 t.1.2)

/-- Complete it with an error. -/
def State.refuseTake (s : State) (slot : Nat) (b : List Byte) (e : CmdErr) : State :=
  s.finishTake slot b (fun n t => { e.cpl n with effTick := t })

/-! ## Immediate commands (R80) -/

/-- A journal entry as its 64 bytes (Table 23-5). -/
def jBytes (e : JEntry) : List Byte :=
  let b := pad 60 (leBytes 2 0x4A42 ++ [BitVec.ofNat 8 e.kind, BitVec.ofNat 8 e.step, BitVec.ofNat 8 e.uKind, BitVec.ofNat 8 e.uIndex,
    BitVec.ofNat 8 e.outcome, BitVec.ofNat 8 e.state] ++ leBytes 4 e.start.toNat ++ leBytes 4 e.tick ++ leBytes 4 e.detail.toNat ++
    leBytes 8 e.epoch.toNat)
  b ++ leBytes 4 (crc32 b).toNat

/-- The entries of this start: the last START and what follows it (R450, Table 3-10). -/
def sinceStart (l : List JEntry) : List JEntry := l.foldl (fun acc e => if e.kind = 1 then [e] else acc ++ [e]) []

/-- Version of the Reeve main image that has passed. -/
def State.fwVersion (s : State) : BitVec 32 := match s.sec.imgs.find? (fun x => x.ty = 1) with | some x => x.version | none => 0#32

/-- The response of GET_INFO, GET_JOURNAL or ATTEST, produced anew. -/
def State.produce (s : State) (b : List Byte) : List Byte × State :=
  match bodyOpcode b with
  | 0x02 => (pad 64 (Config.infoLayout ((List.range 5).map s.dieIdWord) s.pair.serial s.fwVersion
      [BitVec.ofNat 32 s.bjUnits, s.boot.engDis.setWidth 32, s.boot.cluDis.setWidth 32]), s)
  | 0x03 => ((sinceStart s.journalEntries).flatMap jBytes, s)
  | _ => s.attestation (BitVec.ofNat 256 (bodyArg b 0 32))

/-- The response with its kept copy: later parts come from the copy of the first, which another opcode in the slot or a new
nonce discards (R70). -/
def State.respond (s : State) (slot : Nat) (b : List Byte) : List Byte × State :=
  let op := bodyOpcode b
  let x := s.slotOf slot
  let nonce := BitVec.ofNat 256 (bodyArg b 0 32)
  if bodyRespOff b ≠ 0 && x.copyOp = op && (op ≠ 0x60 || x.copyNonce = nonce) then (x.copy, s)
  else
    let r := s.produce b
    (r.1, r.2.updSlot slot (fun x => { x with copyOp := op, copy := r.1, copyNonce := if op = 0x60 then nonce else x.copyNonce }))

/-- DEADLINE_TICKS in range (R84). -/
def deadlineOk (v : Nat) : Bool := decide (10000 ≤ v) && decide (v ≤ 300000000)

/-- EPOCH_OPEN (R83, R84): STATE while a schedule runs, while an epoch is open or about to open, and where this module opens
none. -/
def State.epochOpen (s : State) (slot : Nat) (b : List Byte) : State :=
  if !deadlineOk (bodyArg b 0 4) then s.refuseTake slot b (argErr 0)
  else if s.opensLater || !s.mayOpen then s.refuseTake slot b (codeErr 0x20)
  else (s.finishTake slot b (fun n t => { code := 0, epoch := n, effTick := t })).openNow (bodyArg b 0 4)

/-- An immediate command runs. -/
def State.runImm (s : State) (slot : Nat) (b : List Byte) : State :=
  match bodyOpcode b with
  | 0x01 => s.finishTake slot b (fun n t =>
      { code := 0, epoch := n, effTick := t, result := leBytes 8 s.tly.latest.toNat ++ leBytes 8 s.tly.opened.toNat })
  | 0x10 => s.epochOpen slot b
  | _ =>
    if bodyRespOff b % 2048 ≠ 0 then s.refuseTake slot b { code := 0x11, detail := none, field := none }
    else
      let r := s.respond slot b
      r.2.finishTake slot b (fun n t => { code := 0, epoch := n, effTick := t, resp := some r.1 })

/-! ## Epoch-bound and background commands (R74 to R77, R379) -/

/-- TARGET_EPOCH is not valid (R76). -/
def State.epochBad (s : State) (b : List Byte) : Option CmdErr :=
  if !bodyAtEpoch b then none
  else if (bodyTarget b).toNat ≤ s.tly.opened.toNat then some (codeErr 0x22)
  else if s.tly.opened.toNat + 65536 < (bodyTarget b).toNat then some { code := 0x11, detail := none, field := none }
  else none

/-- An accepted command becomes ACTIVE: class E waits for the twin or its epoch, class B works first. -/
def State.accept (s : State) (a : ActCmd) : State :=
  let a := if cmdClass a.opcode = some .back then { a with phase := .working (workLimit a) a.bytes } else a
  let s := s.mapCmds (fun c => { c with active := c.active ++ [a] })
  let s := if !a.remote && s.sendsOpen && !moduleLocal a.opcode then s.carryCmd a else s
  if cmdClass a.opcode = some .back then s else s.cmdReady a

/-- The command of a slot as it is taken. -/
def State.actOf (s : State) (slot : Nat) (b : List Byte) : ActCmd :=
  { slot := slot, opcode := bodyOpcode b, seq := bodySeq b, body := b, data := [], atEpoch := bodyAtEpoch b, target := bodyTarget b,
    taken := s.now, phase := .carried, degraded := false, remote := false, graph := none }

/-- A class E or B command is checked, and refused or accepted. -/
def State.runBound (s : State) (slot : Nat) (b : List Byte) : State :=
  if s.thm.shutdown then s.refuseTake slot b (codeErr 0x20)
  else match s.epochBad b with
    | some e => s.refuseTake slot b e
    | none =>
      match s.validate (s.actOf slot b) with
      | .error e => s.refuseTake slot b e
      | .ok a => s.accept a

/-- A module whose ROLE reads 0 accepts the command (R81). -/
def roleFree (op : Nat) : Bool := (cmdClass op = some .imm && op ≠ 0x10) || moduleLocal op

/-- The Reeve handles a slot that it takes: SEQ, opcode, ARG_LEN and role, then the command (R71, R79, R81). -/
def State.handle (s : State) (slot : Nat) : State :=
  let b := s.slotBody slot
  let op := bodyOpcode b
  let x := s.slotOf slot
  let s := (s.updSlot slot (fun x =>
    { x with state := 2#2, copyOp := if x.copyOp = op then x.copyOp else 0, copy := if x.copyOp = op then x.copy else [] })).mapMbx
      (fun m => { m with order := m.order.erase slot })
  if x.dbSeq ≠ bodySeq b ∨ bodySeq b ≠ x.lastSeq + 1 then s.refuseTake slot b (codeErr 0x13)
  else match cmdClass op with
    | none => s.refuseTake slot b (codeErr 0x10)
    | some c =>
      if 224 < bodyArgLen b ∨ (argShort op (bodyArgLen b)).isSome then
        s.refuseTake slot b { code := 0x12, detail := argShort op (bodyArgLen b), field := none }
      else if !s.mbx.role && !roleFree op then s.refuseTake slot b (codeErr 0x21)
      else if c = .imm then s.runImm slot b else s.runBound slot b

/-- One examination of the doorbell order queue. -/
def State.take (s : State) : State :=
  let s := s.carryCheck
  match s.nextTake with
  | some i => (s.handle i).settle
  | none => s

/-! ## Background work (R74, R79) -/

/-- Answer the commander for a carried command (R379): any other code than OK makes a standby leave the pair and a joiner
start its join anew. -/
def State.answerCfg (s : State) (slot : Nat) (seq : BitVec 16) (code : Nat) (detail : Option Nat) : State :=
  let f := s.freeWord
  let s := f.2.send (.cfgAck (BitVec.ofNat 8 slot) (BitVec.ofNat 8 code) seq (match detail with | some d => BitVec.ofNat 32 d | none => f.1))
  if code = 0 then s else if s.pair.pstate = 3#3 then s.joinAgain else s.leavePair

/-- A command whose background work has ended with an error: nothing of it applies. -/
def State.failWork (s : State) (a : ActCmd) (e : CmdErr) : State :=
  if a.remote then (s.endCmd a (e.cpl 0#64)).answerCfg a.slot a.seq e.code e.detail else s.endCmd a (e.cpl (s.effEpoch a))

/-- The oldest command of a slot whose background work runs. -/
def State.working (s : State) (slot : Nat) : Option ActCmd :=
  s.cmds.active.find? (fun a => a.slot = slot && (match a.phase with | .working _ _ => true | _ => false))

/-- The background work of a command ends. -/
def State.workEnd (s : State) (a : ActCmd) : State :=
  if a.opcode = 0x90 then (if a.remote then s.answerCfg a.slot a.seq 0 (some 0) else s).shutdown
  else match s.runWork a with
    | (.error e, t) => t.failWork a e
    | (.ok b, t) =>
      let t := t.mapCmds (fun c => { c with active := updFirst (fun x => decide (x = a)) (fun _ => b) c.active })
      (if a.remote then t.answerCfg a.slot a.seq 0 (some 0) else t).cmdReady b

/-- Servik firmware on a deputy fails during the background work: the command completes with INTERNAL, nothing of it applies, and the
deputy's die is reset (R79, R399). -/
def State.workFaults (s : State) (a : ActCmd) (d : Nat) : State :=
  ((s.failWork a (codeErr 0x7F)).faultOpen { sev := 2, kind := 0x0E, unit := d, cls := 0x26, action := 4, node := d / 2 }).fenceDie (d / 2)

/-- The background work of a command has exceeded its limit. -/
def State.workLate (s : State) (a : ActCmd) : State :=
  match a.phase with
  | .working limit _ => if a.taken + limit < s.now then s.failWork a (codeErr 0x50) else s
  | _ => s

/-! ## A command as its master issues it -/

/-- The body of a command: header fields and arguments (Table 3-6). -/
def cmdBody (h : CmdHdr) (op : Nat) (args : List Byte) : List Byte :=
  pad 256 (leBytes 2 op ++ leBytes 2 h.seq.toNat ++ leBytes 2 args.length ++ [BitVec.ofNat 8 (bit01 h.atEpoch), 0] ++
    leBytes 8 h.target.toNat ++ leBytes 4 h.respOffset.toNat ++ List.replicate 12 0 ++ args)

/-- The master writes the slot body and rings the doorbell, and the Reeve examines its queue. Nothing happens before
READY (R62). -/
def State.issue (s : State) (h : CmdHdr) (op : Nat) (args : List Byte) : State :=
  if s.mbx.ready then ((s.bodyWrite h.slot 0 (cmdBody h op args)).ring h.slot h.seq).take else s

/-- Source and length arguments at [8, 20). -/
def srcArgs (src : Source) : List Byte := leBytes 8 src.addr.toNat ++ leBytes 4 src.len.toNat

/-- A first argument byte and seven zeros. -/
def arg0 (b : Byte) : List Byte := [b, 0, 0, 0, 0, 0, 0, 0]

/-! ## Commands -/

/-- MBX_DOORBELL_WRITE. -/
def execMbxDoorbellWrite (w : Initiator) (v : BitVec 32) (s : State) : Host.Outcome State Fault Refusal :=
  .next (if s.isMaster w then s.ring (bitsAt v.toNat 0 4) (BitVec.ofNat 16 (bitsAt v.toNat 4 16)) else s)

/-- MBX_RELEASE_WRITE. -/
def execMbxReleaseWrite (w : Initiator) (v : BitVec 32) (s : State) : Host.Outcome State Fault Refusal :=
  .next (if s.isMaster w then s.releaseSlots v.toNat else s)

/-- MBX_STICKY_CLEAR. -/
def execMbxStickyClear (w : Initiator) (v : BitVec 32) (s : State) : Host.Outcome State Fault Refusal :=
  .next (if s.isMaster w then s.clearSticky v.toNat else s)

/-- SLOT_BODY_WRITE. -/
def execSlotBodyWrite (w : Initiator) (slot : Fin 16) (off : Fin 256) (data : List Byte) (s : State) : Host.Outcome State Fault Refusal :=
  .next (if s.isMaster w then s.bodyWrite slot off data else s)

/-- SLOT_TAKE. -/
def execSlotTake (s : State) : Host.Outcome State Fault Refusal := .next s.take

/-- BACKGROUND_WORK_END: by itself, or because firmware on a deputy fails. -/
def execBackgroundWorkEnd (e : WorkEnd) (s : State) : Host.Outcome State Fault Refusal :=
  .next (match s.working e.slot, e.fault with
    | some a, none => (s.workEnd a).settle
    | some a, some d => (s.workFaults a d).settle
    | none, _ => s)

/-- BACKGROUND_LIMIT_EXPIRY. -/
def execBackgroundLimitExpiry (slot : Fin 16) (s : State) : Host.Outcome State Fault Refusal :=
  .next (match s.working slot with | some a => (s.workLate a).settle | none => s)

/-- PING. -/
def execPing (h : CmdHdr) (s : State) : Host.Outcome State Fault Refusal :=
  .next (s.issue h 0x01 [])

/-- GET_INFO. -/
def execGetInfo (h : CmdHdr) (s : State) : Host.Outcome State Fault Refusal :=
  .next (s.issue h 0x02 [])

/-- GET_JOURNAL. -/
def execGetJournal (h : CmdHdr) (s : State) : Host.Outcome State Fault Refusal :=
  .next (s.issue h 0x03 [])

/-- EPOCH_OPEN. -/
def execEpochOpen (h : CmdHdr) (deadline : BitVec 32) (s : State) : Host.Outcome State Fault Refusal :=
  .next (s.issue h 0x10 (leBytes 4 deadline.toNat))

/-- EPOCH_SCHEDULE. -/
def execEpochSchedule (h : CmdHdr) (mode : Byte) (period : BitVec 32) (trigger : Byte) (deadline : BitVec 32) (s : State) : Host.Outcome State Fault Refusal :=
  .next (s.issue h 0x11 ([mode, 0, 0, 0] ++ leBytes 4 period.toNat ++ [trigger, 0, 0, 0] ++ leBytes 4 deadline.toNat))

/-- EPOCH_HALT. -/
def execEpochHalt (h : CmdHdr) (s : State) : Host.Outcome State Fault Refusal :=
  .next (s.issue h 0x12 [])

/-- RECORD_SCHEDULE. -/
def execRecordSchedule (h : CmdHdr) (mask : BitVec 32) (every : BitVec 16) (destMask : BitVec 32) (s : State) : Host.Outcome State Fault Refusal :=
  .next (s.issue h 0x13 (leBytes 4 mask.toNat ++ leBytes 2 every.toNat ++ [0, 0] ++ pad 32 (leBytes 4 destMask.toNat)))

/-- CONTEXT_CREATE. -/
def execContextCreate (h : CmdHdr) (ctx part sc : Byte) (base len : BitVec 64) (s : State) : Host.Outcome State Fault Refusal :=
  .next (s.issue h 0x20 ([ctx, part, sc, 0, 0, 0, 0, 0] ++ leBytes 8 base.toNat ++ leBytes 8 len.toNat))

/-- CONTEXT_DESTROY. -/
def execContextDestroy (h : CmdHdr) (ctx : Byte) (s : State) : Host.Outcome State Fault Refusal :=
  .next (s.issue h 0x21 [ctx])

/-- GRAPH_LOAD. -/
def execGraphLoad (h : CmdHdr) (ctx : Byte) (src : Source) (sha : BitVec 384) (s : State) : Host.Outcome State Fault Refusal :=
  .next (s.issue h 0x22 (arg0 ctx ++ pad 24 (srcArgs src) ++ digBytes sha))

/-- GRAPH_START. -/
def execGraphStart (h : CmdHdr) (ctx : Byte) (s : State) : Host.Outcome State Fault Refusal :=
  .next (s.issue h 0x23 [ctx])

/-- GRAPH_STOP. -/
def execGraphStop (h : CmdHdr) (ctx : Byte) (s : State) : Host.Outcome State Fault Refusal :=
  .next (s.issue h 0x24 [ctx])

/-- OPC_TABLE_WRITE. -/
def execOpcTableWrite (h : CmdHdr) (die : Byte) (levels : List (BitVec 32 × BitVec 32)) (s : State) : Host.Outcome State Fault Refusal :=
  .next (s.issue h 0x30 (arg0 die ++ pad 128 (levels.flatMap (fun l => leBytes 4 l.1.toNat ++ leBytes 4 l.2.toNat))))

/-- OPC_LEVEL_SET. -/
def execOpcLevelSet (h : CmdHdr) (die level : Byte) (s : State) : Host.Outcome State Fault Refusal :=
  .next (s.issue h 0x31 [die, level])

/-- THROTTLE_TABLE_WRITE. -/
def execThrottleTableWrite (h : CmdHdr) (die : Byte) (src : Source) (s : State) : Host.Outcome State Fault Refusal :=
  .next (s.issue h 0x32 (arg0 die ++ srcArgs src))

/-- WDG_CONFIG. -/
def execWdgConfig (h : CmdHdr) (stage : Byte) (cfg : BitVec 512) (s : State) : Host.Outcome State Fault Refusal :=
  .next (s.issue h 0x40 (arg0 stage ++ leBytes 64 cfg.toNat))

/-- INGEST_TABLE_WRITE. -/
def execIngestTableWrite (h : CmdHdr) (stream : Byte) (src : Source) (s : State) : Host.Outcome State Fault Refusal :=
  .next (s.issue h 0x41 (arg0 stream ++ srcArgs src))

/-- SWITCH_TABLE_WRITE. -/
def execSwitchTableWrite (h : CmdHdr) (table : Byte) (src : Source) (s : State) : Host.Outcome State Fault Refusal :=
  .next (s.issue h 0x42 (arg0 table ++ srcArgs src))

/-- BANDWIDTH_SET. -/
def execBandwidthSet (h : CmdHdr) (part : Byte) (hbm fabric : BitVec 32) (s : State) : Host.Outcome State Fault Refusal :=
  .next (s.issue h 0x43 ([part, 0, 0, 0] ++ leBytes 4 hbm.toNat ++ leBytes 4 fabric.toNat))

/-- ROLE_SWAP. -/
def execRoleSwap (h : CmdHdr) (s : State) : Host.Outcome State Fault Refusal :=
  .next (s.issue h 0x50 [])

/-- REHEARSAL_SET. -/
def execRehearsalSet (h : CmdHdr) (interval : BitVec 32) (mask : Byte) (s : State) : Host.Outcome State Fault Refusal :=
  .next (s.issue h 0x51 (leBytes 4 interval.toNat ++ [mask]))

/-- ATTEST. -/
def execAttest (h : CmdHdr) (nonce : BitVec 256) (s : State) : Host.Outcome State Fault Refusal :=
  .next (s.issue h 0x60 (keyBytes nonce))

/-- KEY_INSTALL. -/
def execKeyInstall (h : CmdHdr) (place : Byte) (src : Source) (s : State) : Host.Outcome State Fault Refusal :=
  .next (s.issue h 0x61 (arg0 place ++ srcArgs src))

/-- WEIGHT_DECRYPT. -/
def execWeightDecrypt (h : CmdHdr) (place : Byte) (src dst len : BitVec 64) (s : State) : Host.Outcome State Fault Refusal :=
  .next (s.issue h 0x62 (arg0 place ++ leBytes 8 src.toNat ++ leBytes 8 dst.toNat ++ leBytes 8 len.toNat))

/-- RESET_UNIT. -/
def execResetUnit (h : CmdHdr) (kind index : Byte) (s : State) : Host.Outcome State Fault Refusal :=
  .next (s.issue h 0x70 [kind, index])

/-- MAP_OUT. -/
def execMapOut (h : CmdHdr) (kind index : Byte) (s : State) : Host.Outcome State Fault Refusal :=
  .next (s.issue h 0x71 [kind, index])

/-- FALLBACK_REQUEST. -/
def execFallbackRequest (h : CmdHdr) (reason : Byte) (s : State) : Host.Outcome State Fault Refusal :=
  .next (s.issue h 0x80 [reason])

/-- FALLBACK_CLEAR. -/
def execFallbackClear (h : CmdHdr) (s : State) : Host.Outcome State Fault Refusal :=
  .next (s.issue h 0x81 [])

/-- SHUTDOWN. -/
def execShutdown (h : CmdHdr) (s : State) : Host.Outcome State Fault Refusal :=
  .next (s.issue h 0x90 [])

end Sys2Proof.Machine
end

