-- ==== Sys2Proof/Machine/IngestUnits.lean ====
section
/-! DEFINITION. Units offered to the channels of a stream: what matches, the state table, samples and messages with their
epoch numbers, and what the twin forwards (R302 to R309, R314, R378). -/

namespace Sys2Proof.Machine

/-! ## Units (R303, R304, R306) -/

/-- A unit's payload after what the channel's match has taken off. -/
structure IngView where
  short : Bool
  long  : Bool
  dt    : Nat
  bytes : List Byte
  crcBad : Bool

/-- The data types of Table 15-2. -/
def dtOk : IngUnit → Bool
  | .short _ dt _ => decide (dt.toNat < 4) || (decide (8 ≤ dt.toNat) && decide (dt.toNat < 16))
  | .long _ dt _ _ => [0x12, 0x1E, 0x24, 0x2A, 0x2B, 0x2C, 0x2D, 0x2E].contains dt.toNat || (decide (0x30 ≤ dt.toNat) && decide (dt.toNat < 0x38))
  | _ => true

/-- Offset of the UDP header in an IPv4 packet without options that is no fragment, or in an IPv6 packet without extension
headers. -/
def udpAt (ethertype : Nat) (b : List Byte) : Option Nat :=
  if ethertype = 0x0800 then
    (if fld b 0 1 = 0x45 ∧ fld b 9 1 = 17 ∧ beNat (sub b 6 2) % 16384 = 0 then some 20 else none)
  else if fld b 0 1 / 16 = 6 ∧ fld b 6 1 = 17 then some 40 else none

/-- What a channel sees of a unit; none where the unit does not match. -/
def chanView (c : IngChanCfg) : IngUnit → Option IngView
  | .short vc dt d => if vc.val = c.matchA % 16 then some { short := true, long := false, dt := dt.toNat, bytes := leBytes 2 d.toNat, crcBad := false } else none
  | .long vc dt p ok => if vc.val = c.matchA % 16 then some { short := false, long := true, dt := dt.toNat, bytes := p, crcBad := !ok } else none
  | .badHeader => none
  | .eth et vid b =>
    let seen := fun (bs : List Byte) => some ({ short := false, long := false, dt := 0, bytes := bs, crcBad := false } : IngView)
    if et.toNat ≠ c.matchA ∨ (!c.anyVid ∧ vid.toNat ≠ c.vid) then none
    else if c.matchB = 0 ∨ (c.matchA ≠ 0x0800 ∧ c.matchA ≠ 0x86DD) then seen b
    else match udpAt et.toNat b with
      | some o => if beNat (sub b (o + 2) 2) = c.matchB then seen (b.drop (o + 8)) else none
      | none => none

/-- The field of a state entry; none where it reaches past the payload. -/
def IngState.field (e : IngState) (p : List Byte) : Option Nat :=
  if p.length < e.foff + e.fw then none else some (if e.be then beNat (sub p e.foff e.fw) else fld p e.foff e.fw)

/-- COND of a state entry (Table 15-5). -/
def IngState.cond' (e : IngState) (u : IngView) : Bool :=
  let cmp := fun (want : Bool) => match e.field u.bytes with
    | some f => decide ((BitVec.ofNat 32 f &&& e.mask) = (e.val &&& e.mask)) == want
    | none => false
  match e.cond with
  | 0 => true
  | 1 => u.short && decide (u.dt = e.val.toNat % 64)
  | 2 => u.long && decide (u.dt = e.val.toNat % 64)
  | 3 => cmp true
  | 4 => cmp false
  | _ => decide (u.bytes.length = e.val.toNat)

/-- RAW10 to 16-bit words: four pixels in five bytes, the low bits of each in the fifth. -/
def unpack10 : Nat → List Byte → List Byte
  | 0, _ => []
  | n + 1, l =>
    if l.length < 5 then []
    else (List.range 4).flatMap (fun i => leBytes 2 (fld l i 1 * 4 + bitsAt (fld l 4 1) (2 * i) 2)) ++ unpack10 n (l.drop 5)

/-- RAW12 to 16-bit words: two pixels in three bytes, the low bits of each in the third. -/
def unpack12 : Nat → List Byte → List Byte
  | 0, _ => []
  | n + 1, l =>
    if l.length < 3 then []
    else (List.range 2).flatMap (fun i => leBytes 2 (fld l i 1 * 16 + bitsAt (fld l 2 1) (4 * i) 4)) ++ unpack12 n (l.drop 3)

/-- Bytes that COPY appends. -/
def IngState.copied (e : IngState) (p : List Byte) : List Byte :=
  let q := p.drop e.foff
  match e.val.toNat % 4 with | 1 => unpack10 q.length q | 2 => unpack12 q.length q | _ => q

/-- COPY into a sample: what goes beyond the slot or message is dropped. -/
def IngSample.copy (m : IngSample) (c : IngChanCfg) (l : List Byte) : IngSample :=
  let room := (if c.batch then c.msgBytes - 16 else c.slotBytes) - m.bytes.length
  { m with bytes := m.bytes ++ l.take room, trunc := m.trunc || decide (room < l.length) }

/-! ## Tags (R307, R308, R378) -/

/-- The stream whose BEGIN on channel 0 opens epochs. -/
def State.isTrigger (s : State) (b ch : Nat) : Bool :=
  ch = 0 && !s.tly.halted && (match s.tly.sched with | some c => c.mode = 2 && c.trigger = b | none => false)

/-- The number of a BEGIN that opens nothing: OPENED if that epoch is undecided, else OPENED + 1. -/
def State.plainTag (s : State) : BitVec 64 := if (s.openEp? s.tly.opened).isSome then s.tly.opened else s.tly.opened + 1

/-- The number that this module gives a BEGIN; a trigger opens the next epoch unless R84 prevents it. -/
def State.chooseTag (s : State) (b ch : Nat) : BitVec 64 × State :=
  if s.isTrigger b ch then
    let t := s.openRequest ((s.tly.sched.map (·.deadline)).getD 0)
    if s.mayOpen && decide (s.openCount < 4) then (s.nextN, t) else (t.plainTag, t)
  else (s.plainTag, s)

/-- ARRIVE_TICK of a BEGIN now: from the open event of its epoch, or the tick itself until that event (R311). -/
def State.arriveAt (s : State) (n : BitVec 64) (tick : Int) : Int :=
  match s.openEp? n with | some e => tick - e.openTick | none => tick

/-- A sample or message of epoch n may begin in a channel; else it is counted: LATE, DUP or OVERFLOW (R308). -/
def State.admitSample (s : State) (b ch : Nat) (c : IngChanCfg) (n : BitVec 64) : Bool × State :=
  let x := s.chan b ch
  let p := (x.ep? n).getD (IngEp.init n)
  let drop := fun (f : IngChan → IngChan) (g : IngEp → IngEp) =>
    (false, s.updChan b ch (fun x => let y := f x; if (y.ep? n).isSome then y.updEp n (fun p => g { p with dropped := p.dropped + 1 }) else y))
  if p.closed || p.cause.isSome || decide (n.toNat ≤ x.closedTo.toNat) || decide (n.toNat < s.firstUndecided) then
    drop (fun x => { x with late := satInc x.late }) id
  else if !c.batch && p.sample.isSome then drop (fun x => { x with dup := satInc x.dup }) id
  else if c.batch && decide (c.maxMsgs ≤ p.msgs.length) then
    drop (fun x => { x with overflow := satInc x.overflow }) (fun p => { p with overflow := true })
  else (true, s)

/-- A sample or message of epoch n has ended. -/
def IngChan.file (x : IngChan) (c : IngChanCfg) (m : IngSample) : IngChan :=
  x.updEp m.epoch (fun p => if c.batch then { p with msgs := p.msgs ++ [{ m with ended := true }] } else { p with sample := some { m with ended := true } })

/-! ## Actions (R306) -/

def newSample (n : BitVec 64) (seq : BitVec 32) (arrive : Int) (crc : Bool) : IngSample :=
  { epoch := n, seq := seq, bytes := [], ts := none, arrive := arrive, trunc := false, crc := crc, hdr := false, gap := false, ended := false }

/-- A BEGIN takes its number: the sample is in progress unless its channel cannot take it. -/
def State.startSample (s : State) (b ch : Nat) (c : IngChanCfg) (n : BitVec 64) (arrive : Int) (crc : Bool) : State :=
  let r := s.admitSample b ch c n
  let m := newSample n (r.2.chan b ch).begun arrive crc
  let s := if r.1 then r.2.updChan b ch (fun x => { x with live := some m }) else r.2
  (s.updChan b ch (fun x => { x with topTag := if x.topTag.toNat < n.toNat then n else x.topTag })).batchClose b ch

/-- BEGIN. A stream of the other side takes the tags forwarded to it; a standby's trigger waits for its TAG, and its FWD_BEGIN cannot
say the ARRIVE_TICK of an epoch not yet chosen: a free value. -/
def State.ingBegin (s : State) (b ch : Nat) (c : IngChanCfg) (crc : Bool) : State :=
  let s := s.updChan b ch (fun x => let y := x.abort; { y with begun := y.begun + 1 })
  let tb := (s.stream b).table
  if !s.isLocal b && s.linkUp then
    match (s.chan b ch).tagQ with
    | (n, a) :: r => (s.updChan b ch (fun x => { x with tagQ := r })).startSample b ch c n a crc
    | [] => s
  else if s.isTrigger b ch && (s.pair.pstate = 2#3 || s.pair.pstate = 3#3) then
    let w := (s.updChan b ch (fun x => { x with live := some (newSample noTag x.begun s.now crc) })).freeWord
    w.2.forward b tb (.fwdBegin (BitVec.ofNat 8 b) (BitVec.ofNat 8 ch) noTag w.1)
  else
    let r := s.chooseTag b ch
    let a := r.2.arriveAt r.1 r.2.now
    (r.2.forwardBegin b ch tb r.1 a).startSample b ch c r.1 a crc

/-- An action of Table 15-5. -/
def State.ingAct (s : State) (b ch : Nat) (c : IngChanCfg) (e : IngState) (u : IngView) : State :=
  match e.action, (s.chan b ch).live with
  | 1, _ => s.ingBegin b ch c u.crcBad
  | 2, some m => s.updChan b ch (fun x => { x with live := some (m.copy c (e.copied u.bytes)) })
  | 3, some m =>
    (match e.field u.bytes with
     | some f => s.updChan b ch (fun x => { x with live := some { m with ts := some (BitVec.ofNat 64 f) } })
     | none => s)
  | 4, some m =>
    (match e.field u.bytes with
     | some f => s.updChan b ch (fun x =>
        { x with live := some { m with gap := m.gap || (match x.seqVal with | some v => decide (f ≠ (v.toNat + 1) % 2 ^ (8 * e.fw)) | none => false) },
                 seqVal := some (BitVec.ofNat 64 f) })
     | none => s)
  | 5, some m =>
    s.updChan b ch (fun x =>
      if m.epoch = noTag then { x with live := none, untagged := x.untagged ++ [{ m with ended := true }] }
      else ({ x with live := none } : IngChan).file c m)
  | 6, some _ => s.updChan b ch IngChan.abort
  | _, _ => s

/-- One run of the loop of R306 with `fuel` steps left. -/
def State.ingRun (b ch : Nat) (c : IngChanCfg) (states : List IngState) (u : IngView) : Nat → State → State
  | 0, s =>
    let n := (s.chan b ch).live.map (·.epoch)
    s.updChan b ch (fun x =>
      let y := { x.abort with cur := c.startState, parseErr := satInc x.parseErr }
      match n with
      | some n => if n = noTag then y else y.updEp n (fun p => { p with dropped := p.dropped + 1 })
      | none => y)
  | f + 1, s =>
    match states[(s.chan b ch).cur]? with
    | none => s
    | some e =>
      let m := e.cond' u
      let s := if m then s.ingAct b ch c e u else s
      let s := s.updChan b ch (fun x => { x with cur := if m then e.nextT else e.nextF })
      if (if m then e.consT else e.consF) then s else s.ingRun b ch c states u f

/-- A unit runs through a channel that matched it; a faulted channel takes nothing (R312). -/
def State.chanUnit (s : State) (b ch : Nat) (t : IngTable) (c : IngChanCfg) (u : IngView) : State :=
  if (s.chan b ch).fault then s
  else
    let s := s.updChan b ch (fun x => { x with live := x.live.map (fun m => { m with crc := m.crc || u.crcBad }) })
    s.ingRun b ch c t.states u 8

/-- A packet with an uncorrectable header: HDR on every sample in progress on the channel. -/
def State.chanHdr (s : State) (b ch : Nat) : State :=
  s.updChan b ch (fun x => { x with live := x.live.map (fun m => { m with hdr := true }) })

/-! ## Offering a unit (R304, R306) -/

/-- The enabled table of a stream. -/
def State.tableOn (s : State) (b : Nat) : Option IngTable := (s.stream b).table.filter (fun t => t.enable)

/-- First channel that matches a unit, with what it sees. -/
def IngTable.matchUnit (t : IngTable) (u : IngUnit) : Option (Nat × IngChanCfg × IngView) :=
  (List.range t.chans.length).findSome? (fun ch => (t.chans[ch]?).bind (fun c => (chanView c u).map (fun v => (ch, c, v))))

/-- Ingest is not in reset and not held in reset. -/
def State.ingestOn (s : State) : Bool := !Tab.get false s.flt.iodSub 0

/-- A unit received on a port of this module's own side. -/
def State.offerUnit (s : State) (b : Nat) (u : IngUnit) : State :=
  let fwd := fun (t : State) (ch : Nat) => t.forward b (s.stream b).table (.fwdUnit (BitVec.ofNat 8 b) (BitVec.ofNat 8 ch) u)
  let miss := s.updStream b (fun t => { t with unmatched := satInc t.unmatched })
  if !s.ingestOn || !s.isLocal b then s
  else if u = .badHeader then
    forUpto 8 (fun ch a => if (a.chan b ch).live.isSome then fwd (a.chanHdr b ch) ch else a) s
  else if !dtOk u then miss
  else match (s.tableOn b).bind (fun t => (t.matchUnit u).map (fun m => (t, m))) with
    | none => miss
    | some (t, ch, c, v) => fwd (s.chanUnit b ch t c v) ch

/-- A unit that port b receives: a camera packet as it is; a frame once the switch has given it to ingest, which takes it from the
switch's list. An untagged frame has the port's default VLAN (R304, Table 16-2). -/
def State.takeUnit (s : State) (b : Nat) (u : IngUnit) : Option State :=
  match u with
  | .eth et vid body =>
    let dflt := BitVec.ofNat 12 (s.portOf (b % 16)).defVid
    if bitsAt b 4 1 = 0 then none
    else (s.sw.ingest.find? (fun f => f.1 = b % 16 && f.2.ethertype = et && f.2.body = body && f.2.vid.getD dflt = vid)).map
      (fun f => s.mapSw (fun w => { w with ingest := w.ingest.erase f }))
  | _ => if bitsAt b 4 1 = 0 then some s else none

/-! ## What the twin forwards (R314, R378) -/

/-- FWD_UNIT: the unit runs through the named channel of the same table. -/
def State.fwdUnit (s : State) (b ch : Nat) (u : IngUnit) : State :=
  if s.isLocal b || !s.ingestOn then s
  else match s.tableOn b with
    | none => s
    | some t =>
      if u = .badHeader then s.chanHdr b ch
      else match t.chans[ch]? with
        | none => s
        | some c => match chanView c u with | some v => s.chanUnit b ch t c v | none => s

/-- FWD_BEGIN: the tag waits for its BEGIN; an untagged trigger takes the commander's choice, which TAG returns. -/
def State.fwdBegin (s : State) (b ch : Nat) (tag : BitVec 64) (arrive : BitVec 32) : State :=
  if s.isLocal b then s
  else
    let push := fun (t : State) (n : BitVec 64) => t.updChan b ch (fun x => { x with tagQ := x.tagQ ++ [(n, arrive.toInt)] })
    if tag ≠ noTag then push s tag
    else if !s.isRole then s
    else
      let r := s.chooseTag b ch
      (push r.2 r.1).send (.tag (BitVec.ofNat 8 b) (BitVec.ofNat 8 ch) r.1)

/-- FWD_CLOSE: the closure of a remote channel with its cause. -/
def State.fwdClose (s : State) (b ch cause : Nat) (n : BitVec 64) : State :=
  if s.closesSelf b then s else s.beginClose n b ch cause

/-- TAG: the oldest sample that waits for its number. -/
def State.tagged (s : State) (b ch : Nat) (n : BitVec 64) : State :=
  let x := s.chan b ch
  match (s.tableOn b).bind (fun t => t.chans[ch]?) with
  | none => s
  | some c =>
    let place := fun (t : State) (m : IngSample) =>
      let r := t.admitSample b ch c n
      let m := { m with epoch := n, arrive := r.2.arriveAt n m.arrive }
      let u := if r.1 then r.2.updChan b ch (fun x => if m.ended then x.file c m else { x with live := some m }) else r.2
      (u.updChan b ch (fun x => { x with topTag := if x.topTag.toNat < n.toNat then n else x.topTag })).batchClose b ch
    match x.untagged, x.live with
    | m :: r, _ =>
      let t := s.updChan b ch (fun x => { x with untagged := r })
      if m.ended then place t m else t
    | [], some m => if m.epoch = noTag then place (s.updChan b ch (fun x => { x with live := none })) m else s
    | [], none => s

/-! ## Commands -/

/-- INGEST_UNIT: a camera packet or a frame that the switch has given to ingest. -/
def execIngestUnit (stream : Fin 64) (u : IngUnit) (s : State) : Host.Outcome State Fault Refusal :=
  .next (match s.takeUnit stream u with | some t => (t.offerUnit stream u).settle | none => s)

/-- CP_LINK_DOWN: the port's stream shows link loss (R416). -/
def execCpLinkDown (port : Fin 16) (s : State) : Host.Outcome State Fault Refusal :=
  .next (s.mapIng (fun x => { x with cpUp := Tab.set false x.cpUp port false }))

/-- CP_LINK_UP. -/
def execCpLinkUp (port : Fin 16) (s : State) : Host.Outcome State Fault Refusal :=
  .next (s.mapIng (fun x => { x with cpUp := Tab.set false x.cpUp port true }))

end Sys2Proof.Machine
end

