-- ==== Sys2Proof/Machine/Island.lean ====
section
/-! DEFINITION. Package reset and the safe state; the Hayward islands: lockstep comparator, exchange unit, split islands,
sentry link, stage watchdogs, golden comparison and supervisor heartbeat (R347 to R368, R493). -/

namespace Sys2Proof.Machine

/-! ## Package reset and the safe state (R347, R354, R442, R493) -/

/-- Every reset domain is in reset: what remains is flash, fuses, pins and the test access port, and the model's own
fields. -/
def State.coldReset (s : State) : State :=
  let z := State.reset
  { z with
    pending := s.pending, freeCnt := s.freeCnt, tap := s.tap
    pins := { s.pins with safeN := false, epTx := false }
    pair := { z.pair with serial := s.pair.serial }
    flt := { z.flt with refLost := s.flt.refLost }
    boot := { z.boot with half0 := s.boot.half0, half1 := s.boot.half1, images := s.boot.images, dieId := s.boot.dieId,
                          dieSerial := s.boot.dieSerial,
                          cap := s.boot.cap }
    sec := { z.sec with roots := s.sec.roots, revoke := s.sec.revoke, rollback := s.sec.rollback, testLock := s.sec.testLock,
                        made := s.sec.made, rng := s.sec.rng } }

/-- The safe state: PKG_SAFE_N asserted, transmitters off, IOD, compute dies and Hayward A held in reset; Hayward B goes
on (R354). -/
def State.safeState (s : State) : State :=
  let c := s.coldReset
  { c with time := { c.time with tickB := s.time.tickB }, hwb := { s.hwb with fault := true, held := none }
           flt := { c.flt with safe := true }, boot := { c.boot with started := true } }

/-! ## Lockstep faults (R348, R349) -/

/-- Hayward A raises a lockstep fault: recorded (Table 20-2 names no source kind for an island: free fields), it stops at once
and tells Hayward B. -/
def State.faultA (s : State) : State :=
  if s.hwa.fault then s
  else
    let f := s.freeWord
    let w := f.1.toNat
    let s := f.2.fault { sev := 3, kind := bitsAt w 0 8, unit := bitsAt w 8 8, cls := bitsAt w 16 8, action := bitsAt w 24 8 }
    (s.mapHwa (fun h => { h with fault := true, held := none })).mapHwb (fun b =>
      { b with sent := b.sent ++ [{ tick := BitVec.ofNat 32 s.now, fault := true, halt := false }] })

/-- A lockstep fault of an island; false Hayward A, true Hayward B. -/
def State.lockstepFault (s : State) (island : Bool) : State := if island then s.safeState else s.faultA

def State.islandSplit (s : State) (island : Bool) : Bool := if island then s.hwa.splitB else s.hwa.splitA

def State.islandHeld (s : State) (island : Bool) : Option HeldTxn := if island then s.hwb.held else s.hwa.held

def State.setHeld (s : State) (island : Bool) (h : Option HeldTxn) : State :=
  if island then s.mapHwb (fun b => { b with held := h }) else s.mapHwa (fun a => { a with held := h })

/-! ## Shared memory (Table 18-1) -/

/-- A write of the enabled bytes of a word. -/
def sramWrite (m : Tab Byte) (size addr : Nat) (be data : Nat) : Tab Byte :=
  if size ≤ addr then m
  else (List.range 4).foldl (fun a i =>
    if bitsAt be i 1 = 1 then Tab.set 0#8 a (addr / 4 * 4 + i) (BitVec.ofNat 8 (bitsAt data (8 * i) 8)) else a) m

def State.sramStore (s : State) (island : Bool) (t : Txn) : State :=
  if island then s.mapHwb (fun b => { b with sram := sramWrite b.sram 0x20000 t.addr.toNat t.be.toNat t.data.toNat })
  else s.mapHwa (fun a => { a with sram := sramWrite a.sram 0x80000 t.addr.toNat t.be.toNat t.data.toNat })

/-! ## Heartbeat (R367, R368) -/

/-- CSEQ is above LAST. -/
def State.cseqAbove (s : State) (c : BitVec 32) : Bool :=
  match s.hwa.lastAns with
  | none => true
  | some t => decide (t + 1000000 ≤ s.now) || (let d := (c - s.hwa.lastCseq).toNat; decide (1 ≤ d) && decide (d < 2 ^ 31))

/-- The latest published record. -/
def State.latestRec (s : State) : Option Rec := (s.tly.recs.reverse.find? (fun r => r.published))

/-- HSTATE of Table 18-8. -/
def State.hstate (s : State) : Nat :=
  flagsNat [!s.hwa.splitA, s.isRole, s.out.alone || (match s.latestRec with | some r => r.selCase = 6 | none => false), s.thm.coolLoss,
            (List.range 28).any (fun u => decide (5 ≤ (s.stest u).waiting))]

/-- Ticks since the latest publication; with none published the count saturates. -/
def State.sincePub (s : State) : Nat :=
  match s.latestRec with | some r => min (s.now - (r.openTick + r.publishTick)) 0xFFFFFFFF | none => 0xFFFFFFFF

/-- Payload of an answer. -/
def hbBytes (a : HbAnswer) : List Byte :=
  [1, 2, BitVec.ofNat 8 a.hstate, 0] ++ beBytes 4 a.cseq.toNat ++ beBytes 8 a.answer.toNat ++ beBytes 8 a.latest.toNat ++
    beBytes 4 a.since ++ [0, 0, 0, 0]

/-- The module's own address as the heartbeat's source: that of the boot configuration. -/
def State.ownMac (s : State) : BitVec 48 := BitVec.ofNat 48 (beNat (sub s.kcpConf 0 6))

/-- Hand an answer to the switch at the HWA port, in class 7 of the port of the challenge, ahead of record frames (R422). -/
def State.hbHand (s : State) (a : HbAnswer) : State :=
  if s.switchOn then
    let body := hbBytes a
    s.hwaSend a.port true
      { dst := a.dst, src := s.ownMac, vid := some s.hwa.vid, pcp := 7#3, ethertype := s.hwa.etype, len := frameLen body true,
        fcsOk := true, body := body }
  else s

def State.hbDrop (s : State) : State := s.mapHwa (fun h => { h with hbDropped := satInc h.hbDropped })

/-- Both copies judge a challenge: dropped, or answered. -/
def State.judgeChallenge (s : State) (port : Nat) (src : BitVec 48) (p : List Byte) : State :=
  let c := BitVec.ofNat 32 (beNat (sub p 4 4))
  if fld p 0 1 ≠ 1 ∨ fld p 1 1 ≠ 1 ∨ !s.cseqAbove c then s.hbDrop
  else
    let v := BitVec.ofNat 64 (beNat (sub p 8 8))
    let a : HbAnswer :=
      { port := port, dst := src, hstate := s.hstate, cseq := c, answer := mix64 (v ^^^ s.hwa.key ^^^ c.setWidth 64),
        latest := s.tly.latest, since := s.sincePub }
    (s.mapHwa (fun h =>
      { h with answered := h.answered + 1, lastCseq := c, lastAns := some s.now, hbSent := a :: h.hbSent })).hbHand a

/-! ## Exchange unit (R350, R351) -/

/-- Order of inputs released in one tick. -/
def exchRank : ExchKind → Nat
  | .stageEvent => 0 | .challenge => 1 | .openReq => 2 | .fallback => 3 | .role => 4 | .goldenReport => 5 | .stestReport => 5

def exchLt (a b : ExchEnt) : Bool :=
  decide (a.tick < b.tick) || (a.tick == b.tick && decide (exchRank a.input.kind < exchRank b.input.kind))

/-- Insert behind every entry that is not above it. -/
def exchInsert (e : ExchEnt) : List ExchEnt → List ExchEnt
  | [] => [e]
  | x :: r => if exchLt e x then e :: x :: r else x :: exchInsert e r

/-- An input is released: stamped and queued, or held at its source while 64 are queued. -/
def State.exchRelease (s : State) (i : ExchInput) : State :=
  if !s.islandOn false then s
  else if s.hwa.queue.length < 64 ∧ s.hwa.waiting = [] then
    s.mapHwa (fun h => { h with queue := exchInsert { input := i, tick := s.now } h.queue })
  else s.mapHwa (fun h => { h with waiting := h.waiting ++ [i] })

/-- The head entry leaves the queue for both copies; a held input takes its place, released now. -/
def State.exchTake (s : State) (e : ExchEnt) : State :=
  let s := s.mapHwa (fun h =>
    { h with queue := h.queue.erase e, taken := h.taken ++ [e], exchMax := BitVec.ofNat 8 (min 0xFF (max h.exchMax.toNat (s.now - e.tick))) })
  let s := match s.hwa.waiting with
    | i :: r => s.mapHwa (fun h => { h with queue := exchInsert { input := i, tick := s.now } h.queue, waiting := r })
    | [] => s
  match e.input.kind, e.input.data with
  | .challenge, port :: src :: p => s.judgeChallenge port (BitVec.ofNat 48 src) (p.map (BitVec.ofNat 8))
  | _, _ => s

/-- A poll of a core: the first of a pair fixes the answer, the second gets the same; without pairing each takes its own. -/
def State.exchPoll (s : State) (core : Bool) : State :=
  if s.hwa.splitA then
    (match s.hwa.queue.head? with | some e => s.exchTake e | none => s)
  else match s.hwa.pollAns with
    | none => s.mapHwa (fun h => { h with pollAns := some (core, h.queue.head?) })
    | some (c, a) =>
      if c = core then s
      else
        let s := s.mapHwa (fun h => { h with pollAns := none })
        match a with | some e => s.exchTake e | none => s

/-- Challenges that wait (R368). -/
def State.challengesWaiting (s : State) : Nat :=
  ((s.hwa.queue.map (·.input) ++ s.hwa.waiting).filter (fun i => i.kind = .challenge)).length

/-- A challenge handed to the HWA port; with nothing queued ahead both copies judge it. -/
def State.challenge (s : State) (port : Nat) (src : BitVec 48) (p : List Byte) : State :=
  let s := s.mapSw (fun w => { w with hwa := w.hwa.eraseP (fun f => f.1 = port && f.2.src = src && f.2.body = p) })
  if !s.islandOn false ∨ !s.switchOn then s
  else if 4 ≤ s.challengesWaiting then s.hbDrop
  else if s.hwa.queue = [] then s.judgeChallenge port src p
  else s.exchRelease { kind := .challenge, data := port :: src.toNat :: p.map (·.toNat) }

/-! ## Comparator (R348) -/

/-- The second transaction has not come within 64 island ticks. -/
def State.lockstepLate (s : State) (island : Bool) : State :=
  match s.islandHeld island with
  | some h => if s.islandOn island ∧ h.tick + 64 < (if island then s.time.tickB else s.now) then s.lockstepFault island else s
  | none => s

/-- In a split island a core writes its alive word and checks the other's; a word older than 10,000 ticks is missed (R352). -/
def State.aliveCheck (s : State) (island core : Bool) : State :=
  if !s.islandSplit island ∨ !s.islandOn island then s
  else
    let now := if island then s.time.tickB else s.now
    let s := if island then s.mapHwb (fun b => { b with aliveSeen := Tab.set 0 b.aliveSeen (bit01 core) now })
      else s.mapHwa (fun a => { a with aliveSeen := Tab.set 0 a.aliveSeen (bit01 core) now })
    let other := Tab.get 0 (if island then s.hwb.aliveSeen else s.hwa.aliveSeen) (1 - bit01 core)
    if other + 10000 < now then s.lockstepFault island else s

/-! ## Sentry link (R353, R497) -/

/-- Hayward A sends a sentry message every 10,000 ticks. -/
def State.sentrySend (s : State) : State :=
  if s.islandOn false ∧ s.hwa.lastSentry + 10000 ≤ s.now then
    (s.mapHwa (fun h => { h with lastSentry := s.now })).mapHwb (fun b =>
      { b with sent := b.sent ++ [{ tick := BitVec.ofNat 32 s.now, fault := false, halt := s.boot.state = 2#2 }] })
  else s

/-- The clocks differ by more than 500 ppm over the latest 100 messages, newest first. -/
def clockDrift (h : List (BitVec 32 × Nat)) : Bool :=
  match h, h.getLast? with
  | new :: _, some old =>
    let a : Int := (new.1 - old.1).toNat
    let b : Int := (new.2 : Int) - old.2
    decide (500 * b < (a - b).natAbs * 1000000)
  | _, _ => false

/-- Hayward B receives a sentry message. -/
def State.sentryRecv (s : State) (tick : BitVec 32) (crcOk fault halt : Bool) : State :=
  if !s.islandOn true then s
  else
    let now := s.time.tickB
    let bad := s.hwb.first && !(decide (s.hwb.lastB + 9900 ≤ now) && decide (now ≤ s.hwb.lastB + 10100))
    let h := ((tick, now) :: s.hwb.history).take 100
    if !crcOk ∨ fault ∨ halt ∨ bad ∨ (h.length = 100 ∧ clockDrift h) then s.safeState
    else
      (s.mapHwb (fun b => { b with first := true, lastB := now, history := h, sent := b.sent.drop 1 })).mapPins
        (fun p => { p with safeN := true })

/-- No sentry message has come within 10,100 ticks of the previous one. -/
def State.sentryLate (s : State) : State :=
  if s.islandOn true ∧ s.hwb.first ∧ s.hwb.lastB + 10100 < s.time.tickB then s.safeState else s

/-- A package rail has left its limits. -/
def State.railBad (s : State) : State := if s.islandOn true then s.safeState else s

/-! ## Stage watchdogs (R356, R357) -/

/-- Within 2 ticks of an edge of the window. -/
def WdgCfg.nearEdge (c : WdgCfg) (t : Nat) : Bool :=
  (decide (t ≤ c.openT + 2) && decide (c.openT ≤ t + 2)) || (decide (t ≤ c.closeT + 2) && decide (c.closeT ≤ t + 2))

/-- Outcome of an event at tick t for an epoch with a deadline (Table 18-4); none: it counts as missing. -/
def WdgCfg.outcome (c : WdgCfg) (deadline t : Nat) : Option Nat :=
  if t < c.openT then some 2
  else if deadline ≤ c.closeT then (if t ≤ deadline then some 1 else none)
  else if t ≤ c.closeT then some 1 else some 3

/-- A stage event of epoch n with the agreed stamp, an island tick. -/
def State.stageEvent (s : State) (st : Nat) (n : BitVec 64) (stamp : Nat) : State :=
  if !s.islandOn false then s
  else match s.openEp? n, (s.wdgFor n).find? (fun c => c.1 = st) with
    | some e, some c =>
      let t := stamp - e.openTick
      if (s.judge? n st).isSome then s.updWdgStage st (fun x => { x with dup := satInc x.dup })
      else
        let edge := c.2.nearEdge t
        let s := if edge then (s.updWdgStage st (fun x => { x with edgeCnt := satInc x.edgeCnt })).updEp n (fun e => { e with edge := true }) else s
        match c.2.outcome e.deadline t with
        | some o => (s.mapHwa (fun h =>
            { h with judged := h.judged ++ [{ stage := st, epoch := n, outcome := o, edge := edge, tick := t }] })).tryDigest n
        | none => s
    | _, _ => s

/-! ## Golden sheaf (R359, R360) -/

/-- GOLDEN_DUE after the open event a queued golden sheaf moves to the tail of SC0. -/
def State.goldDueNow (s : State) (n : BitVec 64) : State :=
  match s.gold? n, s.openEp? n with
  | some g, some e =>
    if s.islandOn false ∧ g.state = 0 ∧ e.openTick + s.hwa.goldDue ≤ s.now then
      let s := (s.pullGold n g.engine).updEng g.engine (fun x => x.setLane 0 (x.lane 0 ++ [goldSheaf n g.engine g.variant]))
      s.updGold n (fun g => { g with state := 1 })
    else s
  | _, _ => s

/-- The engine still runs or queues the golden sheaf of n. -/
def State.goldOnUnit (s : State) (n : BitVec 64) (u : Nat) : Bool :=
  (match (s.eng u).running with | some r => isGolden r.sheaf && r.sheaf.index.epoch = n | none => false) ||
    (List.range 4).any (fun sc => ((s.eng u).lane sc).any (fun sh => isGolden sh && sh.index.epoch = n))

/-- Hayward A compares the output of a completed golden sheaf. -/
def State.goldCompare (s : State) (n : BitVec 64) : State :=
  match s.gold? n with
  | some g =>
    if s.islandOn false ∧ g.state = 3 ∧ !s.goldOnUnit n g.engine then
      let s := if s.goldMatches g.engine g.variant then s.goldPasses n g.engine g.late else s.goldFails n g.engine g.variant
      if (s.openEp? n).isSome then s.tryDigest n
      else s.mapHwa (fun h => { h with golds := h.golds.filter (fun x => x.epoch ≠ n) })
    else s
  | none => s

/-! ## Commands -/

/-- LOCKSTEP_TIMEOUT. -/
def execLockstepTimeout (island : Bool) (s : State) : Host.Outcome State Fault Refusal := .next (s.lockstepLate island)

/-- EXCHANGE_INPUT_RELEASE. -/
def execExchangeInputRelease (i : ExchInput) (s : State) : Host.Outcome State Fault Refusal := .next (s.exchRelease i)

/-- EXCHANGE_POLL. -/
def execExchangePoll (core : Bool) (s : State) : Host.Outcome State Fault Refusal :=
  .next (if s.islandOn false then s.exchPoll core else s)

/-- SPLIT_ALIVE_CHECK. -/
def execSplitAliveCheck (island core : Bool) (s : State) : Host.Outcome State Fault Refusal := .next (s.aliveCheck island core)

/-- SENTRY_MESSAGE_SEND. -/
def execSentryMessageSend (s : State) : Host.Outcome State Fault Refusal := .next s.sentrySend

/-- SENTRY_MESSAGE. -/
def execSentryMessage (tickA : BitVec 32) (crcOk fault halt : Bool) (s : State) : Host.Outcome State Fault Refusal :=
  .next (s.sentryRecv tickA crcOk fault halt)

/-- SENTRY_WINDOW_EXPIRY. -/
def execSentryWindowExpiry (s : State) : Host.Outcome State Fault Refusal := .next s.sentryLate

/-- RAIL_FAULT. -/
def execRailFault (_rail : Fin 11) (s : State) : Host.Outcome State Fault Refusal := .next s.railBad

/-- STAGE_EVENT. -/
def execStageEvent (stage : Fin 16) (epoch : BitVec 64) (stamp : Nat) (s : State) : Host.Outcome State Fault Refusal :=
  .next (s.stageEvent stage epoch stamp).settle

/-- GOLDEN_DUE_EXPIRY. -/
def execGoldenDueExpiry (n : BitVec 64) (s : State) : Host.Outcome State Fault Refusal := .next (s.goldDueNow n)

/-- GOLDEN_COMPARE. -/
def execGoldenCompare (n : BitVec 64) (s : State) : Host.Outcome State Fault Refusal := .next (s.goldCompare n).settle

/-- HB_CHALLENGE. -/
def execHbChallenge (port : Fin 16) (src : BitVec 48) (payload : List Byte) (s : State) : Host.Outcome State Fault Refusal :=
  .next (s.challenge port src payload)

end Sys2Proof.Machine
end

