-- ==== Sys2Proof/Machine/Thermal.lean ====
section
/-! DEFINITION. Sensors, coolant, telemetry and the evaluation of power and heat; the rate monitor and AVSBus writes; reference
clocks (R54 to R57, R315, R416, R475 to R487). -/

namespace Sys2Proof.Machine

/-- The Reeve main core runs. -/
def State.reeveOn (s : State) : Bool := s.awake && !s.flt.reeveHung

/-- Units clocked from SW_REFCLK that the Reeve reaches run: xSPI, AVSBus, PMBus and the coolant inputs (Table 20-7). -/
def State.busOn (s : State) : Bool := s.reeveOn && !Tab.get false s.flt.refLost 5

/-! ## Periodic work (Table 2-4) -/

/-- The periodic work `key` is due; it is next due `period` ticks later. -/
def State.isDue (s : State) (key : Nat) : Bool := decide (Tab.get 0 s.thm.due key ≤ s.now)
def State.ran (s : State) (key period : Nat) : State := s.mapThm (fun t => { t with due := Tab.set 0 t.due key (s.now + period) })

/-! ## Coolant inputs (R315) -/

/-- What drives PUMP_PWM: its high time in 255ths of the 25 kHz period, none while the pin is high-impedance (R315). -/
def State.pumpPwm (s : State) : Option (BitVec 8) := if s.awake && s.cool.pumpEn then some s.cool.duty else none

/-- The value at `c` on the straight line between the two entries of a table that enclose it. -/
def interpolate (l : List (Nat × Int)) (c : Nat) : Option Int :=
  (l.zip (l.drop 1)).findSome? (fun p =>
    let a := p.1
    let b := p.2
    if min a.1 b.1 ≤ c ∧ c ≤ max a.1 b.1 then
      (if a.1 = b.1 then some a.2
       else some (a.2 + Config.lineRound (((c : Int) - a.1) * (b.2 - a.2) * (if b.1 < a.1 then -1 else 1)) ((b.1 : Int) - a.1).natAbs))
    else none)

/-- A converted input: the value and whether it is usable. -/
def State.thermistor (s : State) : Option Nat → Option Int
  | none => none
  | some c =>
    let b := sub s.boot.config 0x600 256
    match interpolate ((List.range 64).map (Config.thermEntry b)) c with
    | some t => if -640 ≤ t ∧ t ≤ 2000 then some t else none
    | none => none

def State.coolSample (s : State) (tin tout : Option Nat) : State :=
  if !s.busOn ∨ !s.isDue 6 then s
  else
    let a := s.thermistor tin
    let b := s.thermistor tout
    (s.ran 6 10000).mapCool (fun c =>
      { c with tin := match a with | some t => BitVec.ofInt 16 t | none => c.tin, tinBad := a.isNone,
               tout := match b with | some t => BitVec.ofInt 16 t | none => c.tout, toutBad := b.isNone })

/-- The filtered level follows a level held for 2,000 ticks; a change from low to high is one pulse. -/
def CoolS.filter (c : CoolS) (now : Nat) : CoolS :=
  if c.rawLevel ≠ c.level ∧ c.rawTick + 2000 ≤ now then
    { c with level := c.rawLevel, pulses := c.pulses + bit01 c.rawLevel }
  else c

/-- A level change at the FLOW_PULSE pin. -/
def State.flowEdge (s : State) (level : Bool) : State :=
  if !s.busOn then s
  else s.mapCool (fun c =>
    let d := c.filter s.now
    if d.rawLevel = level then d else { d with rawLevel := level, rawTick := s.now })

/-- Warm sheaves leave the lanes. -/
def State.dropWarm (s : State) : State :=
  forUpto 28 (fun u a => a.updEng u (fun e => (List.range 4).foldl (fun x sc => x.setLane sc ((x.lane sc).filter (fun sh => !isWarm sh))) e)) s

/-- Entry to the coolant-loss state (R486). -/
def State.coolLossOn (s : State) : State :=
  let s := s.mapThm (fun t => { t with coolLoss := true, pcap := 0#4, goodFlow := 0 })
  let s := (forUpto 4 (fun k a => a.updOpc k (fun o => { o with warm := false })) s).dropWarm
  let s := forUpto 4 (fun k a => if a.dieRuns k then a.applyLevel k false else a) s
  if s.pair.pstate = 2#3 then s.leavePair else s

/-- LOW_FLOW and the coolant-loss state at a FLOW update. -/
def State.flowJudge (s : State) : State :=
  let f := s.cool.flow.toNat
  if !s.cool.flowValid then s
  else
    let low := decide (2 * f < s.thm.flowMin)
    let good := decide (s.thm.flowMin ≤ f)
    let s := s.mapThm (fun t =>
      { t with lowFlow := if low then satInc t.lowFlow else 0#8, goodFlow := if good && t.coolLoss then t.goodFlow + 1 else 0 })
    if s.thm.coolLoss then
      (if 100 ≤ s.thm.goodFlow then s.mapThm (fun t => { t with coolLoss := false, goodFlow := 0 }) else s)
    else if 21 ≤ s.thm.lowFlow.toNat then s.coolLossOn else s

/-- FLOW is updated every 1,000,000 ticks from the pulses of the last ten intervals. -/
def State.flowTick (s : State) : State :=
  if !s.busOn ∨ s.now < (s.cool.updates + 1) * 1000000 then s
  else
    let s := s.mapCool (fun c =>
      let c := c.filter s.now
      let h := (c.pulses :: c.history).take 10
      let n := c.updates + 1
      { c with history := h, pulses := 0, updates := n,
               flow := BitVec.ofNat 20 (if c.kPulses = 0#16 then 0 else min 0xFFFFF (600000 * h.foldl (· + ·) 0 / c.kPulses.toNat)),
               flowValid := decide (10 ≤ n) && c.kPulses ≠ 0#16 })
    s.flowJudge

/-! ## Sensor pairs (R477 to R479) -/

/-- One sample of a pair, readings in 1/16 °C. -/
def SPair.sample (p : SPair) (a b : Int) : SPair :=
  let ok := fun (x : Int) => decide (-720 ≤ x) && decide (x ≤ 2400)
  if ok a && ok b then
    let d := if 128 < (a - b).natAbs then min (p.disagree.toNat + 1) 16 else 0
    let f := p.faulty || decide (d = 16)
    { value := BitVec.ofInt 16 (max a b + (if f then 160 else 0)), valid := true, faulty := f, badA := false, badB := false,
      disagree := BitVec.ofNat 5 d }
  else if ok a || ok b then
    { p with value := BitVec.ofInt 16 ((if ok a then a else b) + 160), valid := true, badA := !ok a, badB := !ok b }
  else { p with valid := false, badA := true, badB := true }

/-- One sample of a table of pairs. -/
def samplePairs (t : Tab SPair) (l : List (Int × Int)) : Tab SPair :=
  l.zipIdx.foldl (fun a r => Tab.upd SPair.init a r.2 (fun p => p.sample r.1.1 r.1.2)) t

/-- A reading at the hard limit: recorded once, and the shutdown starts (R487). -/
def State.hardLimit (s : State) (unit node : Nat) : State :=
  if s.thm.shutdown then s else (s.fault { sev := 3, kind := 0x11, unit := unit, cls := 0x2A, action := 9, node := node }).shutdown

def reached (lim : Int) (l : List Int) : Bool := l.any (fun t => decide (lim ≤ t))

/-- A sample of a compute die's sensors. -/
def State.sampleDie (s : State) (k : Nat) (l : List (Int × Int)) : State :=
  if !s.reeveOn ∨ !s.dieRuns k ∨ !s.isDue k then s
  else
    let s := s.ran k 10000
    let s := s.updOpc k (fun o => { o with pairs := samplePairs o.pairs (l.take 12) })
    let v := pairValues 12 (s.opc k).pairs
    let s := s.updOpc k (fun o => { o with missing := if v = [] then o.missing + 1 else 0 })
    if reached 2000 v then s.hardLimit k k
    else if 16 ≤ (s.opc k).missing then
      (s.faultOpen { sev := 2, kind := 0x11, unit := k, cls := 0x29, action := 4, node := k }).fenceDie k
    else s

/-- A sample of a unit's sensors: 0 to 3 CDk, 4 the IOD, 5 the SD. -/
def State.sample (s : State) (u : Nat) (l : List (Int × Int)) : State :=
  if u < 4 then s.sampleDie u l
  else if u = 4 then
    if !s.reeveOn ∨ !s.isDue 4 then s
    else
      let s := (s.ran 4 10000).mapThm (fun t => { t with iod := samplePairs t.iod (l.take 4) })
      if reached 2000 (pairValues 4 s.thm.iod) then s.hardLimit 4 4 else s
  else if !s.awake ∨ !s.isDue 5 then s
  else
    let s := (s.ran 5 10000).mapThm (fun t => { t with sd := samplePairs t.sd (l.take 2) })
    if reached 2160 (pairValues 2 s.thm.sd) then s.safeState else s

/-! ## Evaluation (R53, R239, R259, R476 to R484) -/

/-- Bands, throttle entry and Loft step of a running die. -/
def State.evalDie (s : State) (k : Nat) : State :=
  if !s.dieRuns k then s
  else
    let r := s.hottest k
    let s := s.updOpc k (fun o => o.bandDone ((o.bandEval r).thrEval r))
    s.updGrnDie k (fun d => d.loftEval r)

/-- The reading of stack k: taken only while the die runs and STATE is not 0 (R259). -/
def State.evalStack (s : State) (k : Nat) (r : Option Int) : State :=
  let st := (s.hmcOf k).state
  match (if s.dieRuns k ∧ st ≠ 0#2 then r else none) with
  | none => s.updHmc k (fun h => { h with tempValid := false, hot := false })
  | some t =>
    let s := s.updHmc k (fun h => { h with temp := BitVec.ofInt 16 t, tempValid := true, hot := decide (1360 ≤ t) })
    let s := (s.updOpc k (fun o => o.hbmEval (some t))).setShares k
    if 1680 ≤ t then s.hardLimit (5 + k) k else s

/-- One evaluation, every 100,000 ticks. -/
def State.evaluate (s : State) (veh : Bool) (stks : List (Option Int)) : State :=
  if !s.reeveOn ∨ !s.isDue 7 then s
  else
    let s := (s.ran 7 100000).mapThm (fun t => { t with vehReady := veh })
    let s := forUpto 4 (fun k a => a.evalDie k) s
    let s := s.mapThm ThmS.capEval
    let s := forUpto 4 (fun k a => if a.dieRuns k then a.applyLevel k a.thm.shutdown else a) s
    let s := forUpto 4 (fun k a => (a.warmEval k).placeWarm k) s
    let s := s.pumpEval
    forUpto 4 (fun k a => a.evalStack k (stks.getD k none)) s

/-! ## AVSBus and the rate monitor (R54 to R57) -/

/-- The regulator of die k has reached the code of the last write. -/
def State.avsDone (s : State) (k : Nat) : State :=
  if s.busOn then s.updOpc k (fun o => { o with vcode := o.target, slewing := false }) else s

/-- A window of the rate monitor of die k. -/
def State.rateWindow (s : State) (k : Nat) (rate : BitVec 16) : State :=
  if !s.reeveOn ∨ !s.dieRuns k ∨ !s.isDue (9 + k) then s
  else
    let s := s.ran (9 + k) 10000
    let o := s.opc k
    let want := (o.level o.levelEff.toNat).rate.toNat
    let s := s.updOpc k (fun o => { o with monValid := true, rate := rate })
    let s := s.updOpc k (fun o =>
      { o with goodCnt := if want ≤ rate.toNat then min 16 (o.goodCnt + 1) else 0,
               shortCnt := if o.raiseDue then o.shortCnt else if 50 * rate.toNat < 49 * want then o.shortCnt + 1 else 0 })
    let s := s.updOpc k (fun o => { o with margin := o.margin && o.goodCnt ≠ 16 })
    if (s.opc k).shortCnt < 3 then s
    else
      let s := s.updOpc k (fun o => { o with shortCnt := 0, margin := true, marginRec := true, goodCnt := 0 })
      if s.voltTarget k < 0x78 then (s.updOpc k (fun o => { o with raise := o.raise + 2, raiseDue := true })).writeVolt k false
      else s

/-! ## Telemetry (R475) -/

/-- Power of a regulator from millivolts and units of 10 mA, in units of 10 µW. -/
def railPower (v : BitVec 16 × BitVec 16) : Nat := v.1.toNat * v.2.toNat

/-- In 0.1 W, rounded down. -/
def deciWatt (n : Nat) : BitVec 16 := BitVec.ofNat 16 (min (n / 10000) 0xFFFF)

/-- One round: answers of the rails that have a PMBus address and of the VDD_CDk regulators; none: no answer. -/
def State.telemetry (s : State) (rails dies : List (Option (BitVec 16 × BitVec 16))) : State :=
  if !s.busOn ∨ !s.isDue 8 then s
  else
    let s := s.ran 8 100000
    let on := (List.range 16).filter (fun r => s.thm.railAddr.getD r 0 ≠ 0)
    let rail := fun (t : Tab (BitVec 16 × BitVec 16)) r => match rails.getD r none with | some v => Tab.set (0, 0) t r v | none => t
    let die := fun (t : Tab (BitVec 16 × BitVec 16)) k => match dies.getD k none with | some v => Tab.set (0, 0) t k v | none => t
    let s := s.mapThm (fun t =>
      { t with rails := on.foldl rail t.rails, dieVI := (List.range 4).foldl die t.dieVI,
               stale := on.any (fun r => (rails.getD r none).isNone) || (List.range 4).any (fun k => (dies.getD k none).isNone) })
    let p := fun k => railPower (Tab.get (0, 0) s.thm.dieVI k)
    let s := forUpto 4 (fun k a => a.updOpc k (fun o => { o with power := deciWatt (p k) })) s
    s.mapThm (fun t =>
      { t with power := deciWatt ((on.map (fun r => railPower (Tab.get (0, 0) t.rails r))).foldl (· + ·) 0 +
                               ((List.range 4).map p).foldl (· + ·) 0) })

/-! ## Reference clocks (R416, Table 20-7) -/

def State.setRef (s : State) (r : Nat) (b : Bool) : State := s.mapFlt (fun f => { f with refLost := Tab.set false f.refLost r b })

/-- A reference clock is lost. While the package is in reset or in the safe state nothing follows from it but what WIREPAT tests
(R504). -/
def State.refLoss (s : State) (r : Nat) : State :=
  if Tab.get false s.flt.refLost r then s
  else if !s.awake then (if r < 6 then s.setRef r true else s)
  else if r < 4 then
    let s := (((s.setRef r true).updHmc r (fun h => { h with state := 3#2 })).hbmFlush r)
    let s := s.faultOpen { sev := 2, kind := 0x10, unit := r, cls := 0x22, action := 5, node := r }
    s.withholdStack r
  else if r = 4 then ((s.setRef 4 true).faultOpen { sev := 2, kind := 0x10, unit := 4, cls := 0x22, action := 6 }).linkFault
  else if r = 5 then (s.setRef 5 true).faultOpen { sev := 2, kind := 0x10, unit := 5, cls := 0x22, action := 6 }
  else s.safeState

/-- A lost reference has been back and stable for 100,000 ticks. -/
def State.refBack (s : State) (r : Nat) : State :=
  if !Tab.get false s.flt.refLost r then s
  else if !s.awake then s.setRef r false
  else
    let s := s.setRef r false
    if r < 4 then (if s.dieRuns r then s.stackReset r else s)
    else if r = 5 then s.iodReset 2
    else s

/-! ## Commands -/

/-- COOLANT_SAMPLE. -/
def execCoolantSample (tin tout : Option Nat) (s : State) : Host.Outcome State Fault Refusal := .next (s.coolSample tin tout)

/-- FLOW_PULSE. -/
def execFlowPulse (level : Bool) (s : State) : Host.Outcome State Fault Refusal := .next (s.flowEdge level)

/-- FLOW_UPDATE. -/
def execFlowUpdate (s : State) : Host.Outcome State Fault Refusal := .next s.flowTick.settle

/-- THERMAL_SAMPLE. -/
def execThermalSample (unit : Fin 6) (readings : List (Int × Int)) (s : State) : Host.Outcome State Fault Refusal :=
  .next (s.sample unit readings).settle

/-- THERMAL_EVALUATION. -/
def execThermalEvaluation (vehReady : Bool) (stks : List (Option Int)) (s : State) : Host.Outcome State Fault Refusal :=
  .next (s.evaluate vehReady stks).settle

/-- AVS_WRITE_COMPLETE. -/
def execAvsWriteComplete (k : Die) (s : State) : Host.Outcome State Fault Refusal := .next (s.avsDone k)

/-- RATE_MONITOR_WINDOW. -/
def execRateMonitorWindow (k : Die) (rate : BitVec 16) (s : State) : Host.Outcome State Fault Refusal := .next (s.rateWindow k rate)

/-- TELEMETRY_ROUND. -/
def execTelemetryRound (rails dies : List (Option (BitVec 16 × BitVec 16))) (s : State) : Host.Outcome State Fault Refusal :=
  .next (s.telemetry rails dies)

/-- TELEMETRY_TIMEOUT: a regulator has not answered within 1,000 ticks; its last values stay. -/
def execTelemetryTimeout (s : State) : Host.Outcome State Fault Refusal :=
  .next (if s.busOn then s.mapThm (fun t => { t with stale := true }) else s)

/-- REFCLK_LOSS. -/
def execRefclkLoss (r : Fin 7) (s : State) : Host.Outcome State Fault Refusal := .next (s.refLoss r).settle

/-- REFCLK_STABLE. -/
def execRefclkStable (r : Fin 7) (s : State) : Host.Outcome State Fault Refusal := .next (s.refBack r).settle

end Sys2Proof.Machine
end

