-- ==== Sys2Proof/Machine/Recovery.lean ====
section
/-! DEFINITION. Progress monitors, suspect replay, links, the return of a die and of smaller units to service (R400 to R419). -/

namespace Sys2Proof.Machine

/-! ## Rehearsals that end (R394) -/

/-- The unit of the rehearsed kind is still out of service. -/
def State.rehBusy (s : State) (u : Nat) : Bool :=
  match s.pair.rehKind.toNat with
  | 0 => (s.eng u).resetting
  | 1 => Tab.get false s.flt.clusters u
  | 2 => !s.dieRuns u
  | 3 => Tab.get false s.flt.stackRst u
  | 4 => !s.linkUp
  | _ => Tab.get false s.flt.iodSub 0

/-- A rehearsal passes once its unit is back and the module is STANDBY again within 2,000,000,000 ticks. -/
def State.rehCheck (s : State) : State :=
  match s.pair.rehAt with
  | some (t, u) =>
    if s.pair.pstate = 2#3 ∧ !s.rehBusy u ∧ s.now ≤ t + 2000000000 then
      s.mapPair (fun p => { p with rehAt := none, rehLast := 1#2, rehPass := p.rehPass + 1 })
    else s
  | none => s

/-- A rehearsal that has not passed in time fails and is counted; the join goes on. -/
def State.rehLate (s : State) : State :=
  match s.pair.rehAt with
  | some (t, _) =>
    if t + 2000000000 < s.now then s.mapPair (fun p => { p with rehAt := none, rehLast := 2#2, rehFail := satInc p.rehFail }) else s
  | none => s

/-! ## Sheaf and output-stage monitors (R401 to R404) -/

/-- Limit of a sheaf in island ticks. -/
def sheafLimit (b : Nat) : Nat := 2 * ((b + 11) / 12) + 2000

/-- The hung sheaf's second expiry: an uncorrected error of its instance, or of the golden sheaf. -/
def State.hungTwice (s : State) (u : Nat) (sh : Sheaf) : State :=
  if isGolden sh then
    let s := s.updEng u (fun e => { e with running := none })
    if sh.index.epoch = 0#64 then s.unitFails u 0x23 1 0#64 else s.goldFails sh.index.epoch u sh.index.node
  else if isWarm sh then (s.updEng u (fun e => { e with running := none })).resetEngine u
  else ((s.withhold sh.index.epoch whUnc).abandonInst sh.index.epoch sh.index.ctx).resetEngine u

/-- A sheaf monitor expires: the engine is reset and the sheaf runs again, a second time it fails; three expiries within
100,000,000 ticks fail the unit. -/
def State.sheafExpiry (s : State) (u : Nat) : State :=
  match (s.eng u).running with
  | none => s
  | some r =>
    if !s.awake ∨ s.now ≤ r.tick + sheafLimit r.sheaf.bound then s
    else
      let sh := r.sheaf
      let recent := (s.eng u).expiries.filter (fun t => decide (s.now < t + 100000000)) ++ [s.now]
      let third := decide (3 ≤ recent.length)
      let action := if third then 7 else if sh.expired = 0 then 1 else 2
      let s := s.fault { epoch := sh.index.epoch, sev := 2, kind := unitKind u, unit := unitIdx u, cls := 0x20,
                         ctx := if isGolden sh || isWarm sh then none else some sh.index.ctx, action := action, node := unitDie u }
      let s := s.updEng u (fun e => { e with expiries := recent, running := some { r with sheaf := { sh with expired := sh.expired + 1 } } })
      let s := if sh.expired = 0 then s.resetEngine u else s.hungTwice u sh
      if third then s.failUnit u 0x20 else s

/-- The output-stage monitor of BPk expires: an uncorrected error of the instance, and the Blocker is reset. -/
def State.stageExpiry (s : State) (k : Nat) : State :=
  match s.bpStage k, s.out.cfg with
  | some g, some c =>
    match s.openTickOf g.epoch with
    | some t =>
      if s.awake ∧ t + c.outTicks + 600 < s.now then
        (s.fault { epoch := g.epoch, sev := 2, kind := 3, unit := k, cls := 0x20, ctx := some g.ctx, action := 2, node := k }).resetEngine (24 + k)
      else s
    | none => s
  | _, _ => s

/-! ## Fabric, deputy and Reeve monitors -/

/-- The fabric monitor of die k has counted 50,000 ticks: an entry has been outstanding and none has retired for longer
(R401, R402). -/
def State.trackerStuck (s : State) (k : Nat) : Bool :=
  s.fab.pend.any (fun p => p.die = some k && p.answer.isNone && decide (p.since + 50000 < s.now)) &&
    (decide (Tab.get 0 s.fab.retired k + 50000 < s.now))

/-- The fabric monitor of die k expires; Table 20-2 names no source kind for it: free fields. -/
def State.fabricExpiry (s : State) (k : Nat) : State :=
  if s.awake ∧ s.dieRuns k ∧ s.trackerStuck k then
    let w := s.freeWord
    (w.2.faultOpen { sev := 2, kind := bitsAt w.1.toNat 0 8, unit := bitsAt w.1.toNat 8 8, cls := 0x20, action := 4, node := k }).fenceDie k
  else s

/-- Three alive words of a deputy are missed: none has come for 30,000 ticks, which a die that runs less long cannot show. -/
def State.deputyExpiry (s : State) (k j : Nat) : State :=
  if s.awake ∧ s.dieRuns k ∧ Tab.get 0 s.flt.upAt k + 30000 < s.now then
    (s.faultOpen { sev := 2, kind := 0x0E, unit := 2 * k + j, cls := 0x20, action := 4, node := k }).fenceDie k
  else s

/-- The Reeve main core has hung (R419): no alive word for 30,000 ticks. Hayward A opens no further epoch, and CAN_CMD clears. -/
def State.reeveExpiry (s : State) : State :=
  if !s.islandOn false ∨ s.flt.reeveHung ∨ s.now ≤ s.boot.startTick + 30000 then s
  else (s.faultOpen { sev := 3, kind := 0x0F, cls := 0x20, action := 8 }).mapFlt (fun f => { f with reeveHung := true })

/-! ## Suspect replay (R407) -/

/-- The suspect that is replayed next: lowest CTX, then node. -/
def nextSuspect : List Suspect → Option Suspect
  | [] => none
  | x :: r => match nextSuspect r with
    | none => some x
    | some y =>
      let a := x.sheaf.index
      let b := y.sheaf.index
      some (if a.ctx < b.ctx ∨ (a.ctx = b.ctx ∧ a.node ≤ b.node) then x else y)

/-- One replay has ended, with or without the fault recurring. -/
def State.replayed (s : State) (recurs : Bool) : State :=
  match nextSuspect s.flt.suspects with
  | none => s
  | some p =>
    let i := p.sheaf.index
    let s := s.mapFlt (fun f => { f with suspects := if recurs then f.suspects.filter (fun q => q.unit ≠ p.unit) else f.suspects.erase p })
    let s := if recurs then
        (s.fault { epoch := i.epoch, sev := 2, kind := unitKind p.unit, unit := unitIdx p.unit, cls := p.cls, ctx := some i.ctx,
                   fflags := 0xD, action := 7, node := unitDie p.unit }).failUnit p.unit p.cls
      else s
    forUpto 64 (fun c a => a.advanceCtx c) s

/-! ## Links (R415) -/

/-- Node of an initiator. -/
def nodeOf (i : Initiator) : Nat := ((List.range 4).find? (fun k => onDie k i)).getD 4

/-- Node of an address, its own for a hole. -/
def targetNode (a : Nat) : Nat := (targetDie a).getD 4

/-- Ends of a link: 0 to 3 the ring links, 4 + k CDk-IOD; the second end is the later die of the ring order, or the IOD. -/
def linkEnds : Nat → Nat × Nat
  | 0 => (0, 1) | 1 => (1, 3) | 2 => (3, 2) | 3 => (0, 2) | l => (l - 4, 4)

/-- The die that comes later in the order CD0-CD1-CD3-CD2, or CDk. -/
def linkDie (l : Nat) : Nat := if l < 4 then (linkEnds l).2 else l - 4

/-- The flow between two nodes uses a link. -/
def State.usesLink (s : State) (l a b : Nat) : Bool :=
  if a = b then false
  else if a = 4 then l = 4 + b
  else if b = 4 then l = 4 + a
  else match s.route a b with
    | some hops => (hops.zip (hops.drop 1)).any (fun h => (linkEnds l = h) || (linkEnds l = (h.2, h.1)))
    | none => false

def State.setLink (s : State) (l : Nat) (b : Bool) : State := s.mapFlt (fun f => { f with links := Tab.set false f.links l b })

/-- Transactions outstanding on a link complete with target-unavailable. -/
def State.dropOnLink (s : State) (l : Nat) : State :=
  s.mapFab (fun f =>
    { f with pend := f.pend.filterMap (fun p =>
        if p.answer.isNone && s.usesLink l (nodeOf p.src) (targetNode p.addr) then
          some { p with answer := some (.unavailable, List.replicate p.zeros 0) }
        else some p) })

/-- SRC_KIND and UNIT of a link. -/
def linkKind (l : Nat) : Nat × Nat := if l < 4 then (8, l) else (9, l - 4)

/-- Both dies of a link run. -/
def State.linkLive (s : State) (l : Nat) : Bool :=
  s.dieRuns (linkEnds l).1 && ((linkEnds l).2 = 4 || s.dieRuns (linkEnds l).2)

/-- A die is failed while it runs: fenced, drained and in reset until package reset (R404, R415). -/
def State.killDie (s : State) (k : Nat) (cls : Nat) : State :=
  ((((s.fenceDie k).drainDie k).dieInReset k).dieFails k (BitVec.ofNat 32 cls))

/-- The monitor of a link has counted 10,000 ticks: a request that crosses it has been outstanding for longer. -/
def State.linkStuck (s : State) (l : Nat) : Bool :=
  s.fab.pend.any (fun p => p.answer.isNone && decide (p.since + 10000 < s.now) && s.usesLink l (nodeOf p.src) (targetNode p.addr))

/-- A link monitor expires: the link is fenced and retrained; a link that has already cost its die a reset fails the die. The
end that detects it is stated nowhere. -/
def State.linkExpiry (s : State) (l : Nat) : State :=
  if !s.awake ∨ !s.linkOk l ∨ !s.linkLive l ∨ !s.linkStuck l then s
  else
    let w := s.freeWord
    let e := linkEnds l
    let s := w.2.faultOpen { sev := 2, kind := (linkKind l).1, unit := (linkKind l).2, cls := 0x20,
                             node := if w.1.getLsbD 0 then e.1 else e.2 }
    if Tab.get false s.flt.linkBad l then
      let s := s.faultOpen { sev := 2, kind := (linkKind l).1, unit := (linkKind l).2, cls := 0x21, action := 7, node := linkDie l }
      s.killDie (linkDie l) 0x21
    else ((s.dropOnLink l).setLink l true).withholdLost

/-- A fenced link has been retrained, or has not. -/
def State.linkTrained (s : State) (l : Nat) (ok : Bool) : State :=
  if !s.awake ∨ s.linkOk l then s
  else if ok then
    let up := fun (t : Tab (BitVec 8)) n => Tab.upd 0#8 t n satInc
    (s.setLink l false).mapFlt (fun f => { f with retrains := up (up f.retrains (linkEnds l).1) (linkEnds l).2 })
  else
    let k := linkDie l
    let s := s.faultOpen { sev := 2, kind := (linkKind l).1, unit := (linkKind l).2, cls := 0x21, action := 4, node := k }
    (s.mapFlt (fun f => { f with linkBad := Tab.set false f.linkBad l true })).fenceDie k

/-! ## Return of a die (Table 20-6) -/

/-- A step of a die's return applies: the package is awake and no shutdown holds the dies. -/
def State.dieAt (s : State) (k : Nat) (d : DieState) : Bool := s.awake && !s.thm.shutdown && s.dieState k = d

/-- A failure at steps 5 to 8; its source kind and class are stated nowhere: free fields. -/
def State.dieStepFails (s : State) (k : Nat) : State :=
  let w := s.freeWord
  let n := w.1.toNat
  (w.2.fault { sev := 2, kind := bitsAt n 0 8, unit := bitsAt n 8 8, cls := bitsAt n 16 8, action := 7, node := k }).dieFails k
    (BitVec.ofNat 32 (bitsAt n 16 8))

/-- The stack of a die starts to train in the mode in force for it. -/
def State.trainStack (s : State) (k : Nat) : State :=
  (s.stackCfg k).updHmc k (fun h => { h with state := 1#2, trainRes := 0#2 })

/-- Links of die k are open again once it returns. -/
def State.linksBack (s : State) (k : Nat) : State :=
  forUpto 8 (fun l a => if (linkEnds l).1 = k ∨ (linkEnds l).2 = k then a.setLink l false else a) s

/-- A stack's training has ended. While running, a failure is entered in the journal for the next start (Table 23-6). -/
def State.stackTrained (s : State) (k : Nat) (pass : Bool) (spares : Nat) : State :=
  if !s.awake ∨ (s.hmcOf k).state ≠ 1#2 then s
  else
    let s := s.hbmTrained k pass spares
    let out := fun (b : Bool) (t : State) => t.mapBoot (fun x =>
      { x with stackOut := if b then x.stackOut ||| BitVec.ofNat 4 (2 ^ k) else x.stackOut &&& ~~~(BitVec.ofNat 4 (2 ^ k)) })
    if !s.mbx.ready then s
    else if pass then
      let s := out false s
      if s.dieRuns k then (s.stackBack k).rehCheck else s
    else (out true s).journalUnit 4 k (if (s.hmcOf k).trainMode = 1#2 then 4 else 3) 3#32

/-- Return of a smaller unit to service. -/
def State.unitBack (s : State) (kind i : Nat) : State :=
  let s := match kind with
    | 1 => s.updEng i (fun e => { e with resetting := false })
    | 2 => if i < 8 then s.mapFlt (fun f => { f with clusters := Tab.set false f.clusters i false }) else s
    | 4 => if i < 4 ∧ s.dieRuns i then s.stackBack i else s
    | 5 => if i < 4 ∧ !s.thm.shutdown then s.mapFlt (fun f => { f with iodSub := Tab.set false f.iodSub i false }) else s
    | _ => s
  s.rehCheck

/-! ## Power domains (R473) -/

/-- The separately switched power domains of Table 25-1. -/
inductive PowerDomain where
  | engine (u : Fin 28)       -- TE0 to TE15, CE0 to CE7, BP0 to BP3
  | cluster (c : Fin 8)
  | hbm (k : Fin 4)           -- controller and PHY of stack k
  | dieBase (k : Fin 4)       -- fabric, deputies, Gleaners, banks GBk.0 to GBk.511
  | loft (k : Fin 4)
  | switch                    -- switch and EP PHYs
  | aphy                      -- A-PHY receivers
  | ingest
  | crypto                    -- crypto and key vault
  | denpa
  | iodBase                   -- Reeve main core, fabric, xSPI, AVSBus and PMBus
  | haywardA
  | haywardB
  deriving DecidableEq, Repr

/-- The 48 domains of the compute dies, the seven of the IOD and that of the SD. -/
def powerDomains : List PowerDomain :=
  (List.finRange 28).map .engine ++ (List.finRange 8).map .cluster ++
    (List.finRange 4).flatMap (fun k => [.hbm k, .dieBase k, .loft k]) ++
    [.switch, .aphy, .ingest, .crypto, .denpa, .iodBase, .haywardA, .haywardB]

/-- CDk has power: it is neither disabled nor failed nor held in reset. -/
def State.diePowered (s : State) (k : Nat) : Bool :=
  s.awake && (match s.dieState k with | .disabled | .failed | .inReset => false | _ => true)

/-- A domain is on: its unit is neither disabled, mapped out nor failed, and no reset domain holds it (R473). -/
def State.domainOn (s : State) : PowerDomain → Bool
  | .engine u => let e := s.eng u; s.diePowered (unitDie u) && e.enabled && !e.failed && !e.resetting
  | .cluster c => s.diePowered (c.val / 2) && !Tab.get false s.flt.clusters c && !Tab.get false s.flt.cluOff c
  | .hbm k => s.diePowered k && !s.boot.stackOut.getLsbD k && !Tab.get false s.flt.stackRst k
  | .dieBase k | .loft k => s.diePowered k
  | .switch => s.awake && !Tab.get false s.flt.iodSub 2
  | .ingest => s.awake && !Tab.get false s.flt.iodSub 0
  | .crypto => s.awake && !Tab.get false s.flt.iodSub 3
  | .denpa => s.awake && !Tab.get false s.flt.iodSub 1
  | .aphy | .iodBase | .haywardA => s.awake
  | .haywardB => s.boot.started

/-! ## Commands -/

/-- SHEAF_MONITOR_EXPIRY. -/
def execSheafMonitorExpiry (u : Fin 28) (s : State) : Host.Outcome State Fault Refusal := .next (s.sheafExpiry u).settle

/-- OUTPUT_STAGE_MONITOR_EXPIRY. -/
def execOutputStageMonitorExpiry (k : Die) (s : State) : Host.Outcome State Fault Refusal := .next (s.stageExpiry k).settle

/-- FABRIC_MONITOR_EXPIRY. -/
def execFabricMonitorExpiry (k : Die) (s : State) : Host.Outcome State Fault Refusal := .next (s.fabricExpiry k).settle

/-- LINK_MONITOR_EXPIRY. -/
def execLinkMonitorExpiry (l : Fin 8) (s : State) : Host.Outcome State Fault Refusal := .next (s.linkExpiry l).settle

/-- DEPUTY_MONITOR_EXPIRY. -/
def execDeputyMonitorExpiry (k : Die) (j : Fin 2) (s : State) : Host.Outcome State Fault Refusal := .next (s.deputyExpiry k j).settle

/-- REEVE_MONITOR_EXPIRY. -/
def execReeveMonitorExpiry (s : State) : Host.Outcome State Fault Refusal := .next s.reeveExpiry.settle

/-- SUSPECT_REPLAY. -/
def execSuspectReplay (recurs : Bool) (s : State) : Host.Outcome State Fault Refusal := .next (s.replayed recurs).settle

/-- DIE_FENCE_DRAINED: steps 3 and 4. -/
def execDieFenceDrained (k : Die) (s : State) : Host.Outcome State Fault Refusal :=
  .next (if s.dieAt k .fenced then ((s.drainDie k).dieInReset k).settle else s)

/-- DIE_IMAGES_LOADED: step 5. -/
def execDieImagesLoaded (k : Die) (ok : Bool) (s : State) : Host.Outcome State Fault Refusal :=
  .next (if s.dieAt k .inReset then (if ok then s.setDie k .testing else s.dieStepFails k) else s)

/-- DIE_SELF_TEST_DONE: step 6. -/
def execDieSelfTestDone (k : Die) (ok : Bool) (s : State) : Host.Outcome State Fault Refusal :=
  .next (if s.dieAt k .testing then (if ok then (s.setDie k .linking).trainStack k else s.dieStepFails k) else s)

/-- DIE_LINKS_TRAINED: step 7. -/
def execDieLinksTrained (k : Die) (ok : Bool) (s : State) : Host.Outcome State Fault Refusal :=
  .next (if s.dieAt k .linking then (if ok then s.setDie k .injecting else s.dieStepFails k) else s)

/-- DIE_INJECTION_DONE: steps 8 and 9. -/
def execDieInjectionDone (k : Die) (ok : Bool) (s : State) : Host.Outcome State Fault Refusal :=
  .next (if s.dieAt k .injecting then (if ok then (((s.linksBack k).dieBack k).applyLevel k false).rehCheck.settle else s.dieStepFails k) else s)

/-- UNIT_RESET_DONE. -/
def execUnitResetDone (kind : Fin 6) (index : Fin 28) (s : State) : Host.Outcome State Fault Refusal :=
  .next (if s.awake then (s.unitBack kind index).settle else s)

/-- LINK_RETRAIN_DONE. -/
def execLinkRetrainDone (l : Fin 8) (ok : Bool) (s : State) : Host.Outcome State Fault Refusal := .next (s.linkTrained l ok).settle

/-- HBM_TRAINING_DONE. -/
def execHbmTrainingDone (k : Die) (pass : Bool) (spares : Byte) (s : State) : Host.Outcome State Fault Refusal :=
  .next (s.stackTrained k pass spares.toNat).settle

end Sys2Proof.Machine
end

