-- ==== Sys2Proof/Machine/Regs.lean ====
section
/-! DEFINITION. The register file: what a read of each word of a compute-die block or of the IOD block returns, which reads
capture an upper half, and what a write does (R8, R28, R508, Tables 1-6 and 1-7). An 8-byte access acts on two words, low
one first, except on the registers that take one 8-byte access as a whole. Offsets that are not listed read 0 and ignore
writes. -/

namespace Sys2Proof.Machine

/-- A word of fields: (lowest bit, value) pairs. -/
def packWord (l : List (Nat × Nat)) : Nat := (l.map (fun p => p.2 * 2 ^ p.1)).foldl (· + ·) 0

/-- Word `i` (4 bytes) of a byte image. -/
def wordAt (b : List Byte) (o : Nat) : Nat := fld b o 4

/-- Value of a signed 16-bit field. -/
def int16 (i : Int) : Nat := (BitVec.ofInt 16 i).toNat

/-- Low or high half of a 64-bit value: offset 0 or 4 within the pair. -/
def halfWord (v o : Nat) : Nat := if o = 0 then v % 2 ^ 32 else v / 2 ^ 32 % 2 ^ 32

/-! ## Compute-die blocks -/

/-- The package serial in the fuses of a node's die (R34, R35). -/
def State.serialOf (s : State) (n : Nat) : BitVec 64 := if n < 4 then s.boot.dieSerial.getD n 0#64 else s.pair.serial

/-- FAB_ registers of a node (Tables 1-9, 1-10, 20-8 and 23-7); `o` counts from the sub-block. -/
def State.fabWord (s : State) (n o : Nat) : Nat :=
  let gen := fun i => (Tab.get 0#8 s.flt.gens i).toNat
  let down := fun l => bit01 (!s.linkOk l)
  match o with
  | 0x00 => (s.boot.dieId.getD n 0#32).toNat
  | 0x04 => packWord [(8, (s.boot.cap.getD n 0#2).toNat), (0, (s.boot.en.getD n 0#2).toNat)]
  | 0x08 => halfWord (s.serialOf n).toNat 0
  | 0x0C => halfWord (s.serialOf n).toNat 4
  | 0x10 => packWord [(0, gen 0), (8, gen 1), (16, gen 2), (24, gen 3)]
  | 0x14 => gen 4
  | 0x18 => s.flt.fence.toNat
  | 0x1C => (Tab.get 0#32 s.flt.chaff n).toNat
  | 0x20 => packWord [(24, (Tab.get 0#8 s.flt.retrains n).toNat),
      (0, if n < 4 then packWord [(0, down (ringLink n)), (1, down (ringLink (ringPrev n))), (2, down (4 + n))]
          else packWord [(0, down 4), (1, down 5), (2, down 6), (3, down 7)])]
  | _ => 0

/-- GRN_BANK_n as read (Table 11-6); GO to TO read 0. -/
def Bank.word (b : Bank) : Nat :=
  packWord [(25, b.owner.toNat), (23, b.pstate.toNat), (22, bit01 b.busy), (21, bit01 b.clearing), (16, b.result.toNat),
    (8, b.ownSeq.toNat)]

/-- GRN_ registers (R238). -/
def State.grnWord (s : State) (k o : Nat) : Nat :=
  let d := s.grnDie k
  if 0x8000 ≤ o ∧ o < 0xC000 then (if o % 8 = 0 then (s.bank (2048 * k + (o - 0x8000) / 8)).word else 0)
  else if 0x10 ≤ o ∧ o < 0x20 then
    let i := (o - 0x10) / 4
    packWord [(16, (d.thrTOn.getD i 0#8).toNat), (0, (d.thrRate.getD i 0#5).toNat)]
  else match o with
    | 0x00 => bit01 d.lock
    | 0x04 => packWord [(4, d.rateEff.toNat), (0, d.step.toNat)]
    | 0x08 => packWord [(24, d.lastResult.toNat), (13, d.lastBank.toNat), (0, d.refuseCnt.toNat)]
    | 0x0C => d.waking.toNat
    | _ => 0

/-- GLN_ registers of a Gleaner (R248). -/
def Gleaner.word (g : Gleaner) (o : Nat) : Nat :=
  match o with
  | 0x00 => packWord [(29, g.mode.toNat), (23, g.ctx.toNat), (8, g.pfDist.toNat)]
  | 0x04 => packWord [(29, g.state.toNat), (0, g.doneCnt.toNat)]
  | 0x08 => halfWord g.head.toNat 0 / 64 * 64
  | 0x0C => halfWord g.head.toNat 4
  | 0x10 => halfWord g.cur.toNat 0 / 64 * 64
  | 0x14 => halfWord g.cur.toNat 4
  | 0x18 => packWord [(24, g.errCode.toNat), (16, g.errDetail.toNat), (0, g.errIdx.toNat)]
  | 0x1C => halfWord g.errAddr.toNat 0
  | 0x20 => halfWord g.errAddr.toNat 4
  | _ => 0

/-- HMC_ registers (R264). -/
def Hmc.word (h : Hmc) (o : Nat) : Nat :=
  if 0x10 ≤ o ∧ o < 0x28 then (Tab.get 0xC8502818#32 h.port ((o - 0x10) / 4)).toNat
  else if 0x40 ≤ o ∧ o < 0x60 then (Tab.get 0x400#11 h.share ((o - 0x40) / 4)).toNat
  else match o with
    | 0x00 => packWord [(31, bit01 h.lock), (5, bit01 h.scrubWb), (4, bit01 h.refMode), (2, h.trainMode.toNat), (0, h.mapOrder.toNat)]
    | 0x04 => packWord [(30, h.state.toNat), (24, h.trainRes.toNat), (16, h.spareUsed.toNat), (4, bit01 h.hot),
        (0, (h.pcs.map (fun p => p.2.debt)).foldl max 0)]
    | 0x08 => h.pageIdle.toNat
    | 0x0C => h.ageLimit.toNat
    | 0x60 => packWord [(31, bit01 h.tempValid), (0, h.temp.toNat)]
    | 0x64 => packWord [(16, h.sev2.toNat), (0, h.sev1.toNat)]
    | 0x68 => packWord [(16, h.linkFail.toNat), (0, h.sev3.toNat)]
    | 0x6C => h.linkRetry.toNat
    | 0x70 => halfWord h.logAddr.toNat 0 / 64 * 64
    | 0x74 => packWord [(30, h.logSev.toNat), (24, h.logCtx.toNat), (21, h.logPort.toNat), (0, halfWord h.logAddr.toNat 4)]
    | _ => 0

/-- KVW_ registers (R226). -/
def State.kvwWord (s : State) (k o : Nat) : Nat :=
  let d := s.kvwOf k
  if 0x1000 ≤ o ∧ o < 0x1800 then
    let x := s.kvCtx k ((o - 0x1000) / 32)
    match (o - 0x1000) % 32 with
    | 0x00 => x.rootLo.toNat
    | 0x04 => x.rootHi.toNat
    | 0x08 => x.mode.toNat
    | 0x0C => x.gen.toNat
    | 0x10 => packWord [(16, x.oldest.toNat), (0, x.walks.length)]
    | _ => 0
  else match o with
    | 0x00 => d.hits.toNat
    | 0x04 => d.misses.toNat
    | 0x08 => packWord [(24, d.fCode.toNat), (18, d.fCtx.toNat)]
    | _ => 0

/-- Lane occupancy of an engine or Blocker (Tables 5-6 and 13-14). -/
def Eng.laneWord (e : Eng) : Nat := packWord [(0, e.count 0), (8, e.count 1), (16, e.count 2), (24, e.count 3)]

/-- BLK_ registers (R286). -/
def State.blkWord (s : State) (k o : Nat) : Nat :=
  let b := s.blkOf k
  let e := s.eng (24 + k)
  if 0x100 ≤ o ∧ o < 0x200 then
    let m := (o - 0x100) / 64
    let x := b.slot m
    match (o - 0x100) % 64 with
    | 0x00 => packWord [(7, bit01 x.enable), (0, x.ctx.toNat)]
    | 0x04 => packWord [(5, x.result.toNat), (2, bit01 x.cur), (1, bit01 (s.heldBack k m)), (0, bit01 (s.heldCur k m))]
    | 0x08 => halfWord x.buf0.toNat 0
    | 0x0C => halfWord x.buf0.toNat 4
    | 0x10 => halfWord x.buf1.toNat 0
    | 0x14 => halfWord x.buf1.toNat 4
    | 0x18 => halfWord x.epoch.toNat 0
    | 0x1C => x.epochHi.toNat
    | _ => 0
  else match o with
    | 0x00 => packWord [(31, bit01 e.running.isSome),
        (24, match e.running with | some r => r.sheaf.index.ctx | none => 0), (0, b.doneCnt.toNat)]
    | 0x04 => e.laneWord
    | 0x08 => packWord [(24, b.errClass.toNat), (16, b.errWhere.toNat), (8, b.errCtx.toNat), (0, b.errCnt.toNat)]
    | _ => 0

/-- An engine completion record as its 32 bytes (Table 5-8). -/
def CplRec.bytes (r : CplRec) : List Byte :=
  leBytes 8 r.epoch.toNat ++ leBytes 1 r.ctx ++ leBytes 1 r.code ++ leBytes 2 r.ord ++ leBytes 2 r.gate ++ leBytes 1 r.engine ++
    leBytes 1 (bit01 r.phase) ++ leBytes 4 r.beats ++ leBytes 4 r.detail.toNat ++ leBytes 8 r.addr

/-- Engine j of die k as a unit: four Threshers, then two Carders (R118). -/
def engAt (k j : Nat) : Nat := if j < 4 then 4 * k + j else 16 + 2 * k + (j - 4)

/-- EQ_ registers of an engine (Tables 5-5 and 5-6). -/
def Eng.word (e : Eng) (u o : Nat) : Nat :=
  if 0x800 ≤ o then
    match Tab.look e.ring ((o - 0x800) / 32) with
    | some r => wordAt r.bytes ((o - 0x800) % 32)
    | none => 0
  else match o with
    | 0x08 => packWord [(5, bit01 (decide (16 ≤ u))), (4, bit01 e.enabled), (0, e.part.toNat)]
    | 0x0C => e.laneWord
    | 0x10 => e.head.toNat
    | 0x14 => packWord [(6, bit01 e.phase), (0, e.tail.toNat)]
    | 0x18 => packWord [(24, e.refCode.toNat), (18, e.refCtx.toNat), (8, e.refOrd.toNat), (0, e.refCnt.toNat)]
    | _ => 0

/-- A sensor pair register (Table 25-8). -/
def SPair.word (p : SPair) : Nat :=
  packWord [(16, p.value.toNat), (15, bit01 p.valid), (14, bit01 p.faulty), (13, bit01 p.badA), (12, bit01 p.badB), (0, p.disagree.toNat)]

/-- PWR_ and THM_ registers of a die (R48, R55, R56, R489). -/
def State.pwrWord (s : State) (k o : Nat) : Nat :=
  let d := s.opc k
  let lvl := fun n => Tab.get { valid := false, rate := 0#16, volt := 0#32 } d.opc n
  if 0x100 ≤ o ∧ o < 0x180 then
    let l := lvl ((o - 0x100) / 8)
    if o % 8 = 0 then packWord [(31, bit01 l.valid), (0, l.rate.toNat)] else l.volt.toNat
  else if 0x200 ≤ o ∧ o < 0x230 then (Tab.get SPair.init d.pairs ((o - 0x200) / 4)).word
  else if 0x300 ≤ o ∧ o < 0x340 then
    let t := Tab.get { valid := false, cap := 0#4, tOn := 0#16 } d.thr ((o - 0x300) / 4)
    packWord [(31, bit01 t.valid), (16, t.cap.toNat), (0, t.tOn.toNat)]
  else match o with
    | 0x000 => packWord [(24, d.vcode.toNat), (16, d.levelEff.toNat), (12, d.levelCmd.toNat), (8, d.levelCap.toNat),
        (6, d.band.toNat), (5, bit01 d.slewing), (4, bit01 d.margin)]
    | 0x008 => packWord [(31, bit01 d.monValid), (0, d.rate.toNat)]
    | 0x00C => d.power.toNat
    | 0x240 => packWord [(16, int16 ((s.hottest k).getD 0)), (15, bit01 (s.hottest k).isSome),
        (0, flagsNat ((List.range 12).map (fun p => (Tab.get SPair.init d.pairs p).faulty)))]
    | _ => 0

/-- A word of the register block of die k (Table 1-7). -/
def State.dieWord (s : State) (k off : Nat) : Nat :=
  let o := off % 0x10000
  match off / 0x10000 with
  | 0 => s.fabWord k o
  | 1 => s.grnWord k o
  | 2 => if o < 0x200 then (s.gleaner (8 * k + o / 64)).word (o % 64) else 0
  | 3 => (s.hmcOf k).word o
  | 4 => s.kvwWord k o
  | 5 => s.blkWord k o
  | 6 => if o < 0x6000 then (s.eng (engAt k (o / 0x1000))).word (engAt k (o / 0x1000)) (o % 0x1000) else 0
  | 7 => s.pwrWord k o
  | _ => 0

/-! ## IOD block -/

/-- A completion record as its 64 bytes (Table 3-9). -/
def Slot.cplBytes (x : Slot) : List Byte :=
  leBytes 2 x.opcode ++ leBytes 2 x.cseq.toNat ++ leBytes 1 x.code ++ leBytes 1 x.cflags ++ [0, 0] ++ leBytes 8 x.epoch.toNat ++
    leBytes 4 x.respLen ++ leBytes 4 x.respTotal ++ leBytes 4 x.effTick ++ leBytes 4 x.detail ++ pad 32 x.result

/-- MBX_ registers; until READY all but MBX_CTRL read 0 (R61 to R64). -/
def State.mbxWord (s : State) (o : Nat) : Nat :=
  let m := s.mbx
  if o ≠ 0 ∧ !m.ready then 0
  else if 0x1000 ≤ o ∧ o < 0x2000 then
    wordAt ((List.range 4).map (fun i => Tab.get 0#8 (s.slotOf ((o - 0x1000) / 256)).body (o % 256 + i))) 0
  else if 0x2000 ≤ o ∧ o < 0x2400 then wordAt (s.slotOf ((o - 0x2000) / 64)).cplBytes (o % 64)
  else if 0x8000 ≤ o then wordAt (s.slotOf ((o - 0x8000) / 2048)).resp (o % 2048)
  else match o with
    | 0x00 => packWord [(8, m.ifVer.toNat), (3, bit01 m.role), (2, bit01 m.ready), (0, m.master.toNat)]
    | 0x08 => packWord ((List.range 16).map (fun i => (2 * i, (s.slotOf i).state.toNat)))
    | 0x10 => m.sticky.toNat
    | 0x14 => m.anomaly.toNat
    | _ => 0

/-- The bytes of a snapshot window as read (R99). -/
def SnapWin.bytes (x : SnapWin) : List Byte :=
  if x.wstate = 1#3 then [] else match x.copy with | some r => recBytes r | none => []

/-- TLY_ registers (R98); LATEST, OLDEST and OPENED read 0 during a join (R391). -/
def State.tlyWord (s : State) (o : Nat) : Nat :=
  let t := s.tly
  let hide := fun (v : Nat) => if s.pair.hideTly then 0 else v
  if 0x8000 ≤ o then wordAt (s.winOf ((o - 0x8000) / 0x2000)).bytes (o % 0x2000)
  else if 0x100 ≤ o ∧ o < 0x140 then
    let x := s.winOf ((o - 0x100) / 16)
    match o % 16 with
    | 0x0 => x.selLo.toNat
    | 0x4 => x.selHi.toNat
    | 0x8 => x.wstate.toNat
    | _ => 0
  else match o with
    | 0x00 => hide (halfWord t.latest.toNat 0)
    | 0x04 => t.latestHi.toNat
    | 0x08 => hide (halfWord s.oldest.toNat 0)
    | 0x0C => t.oldestHi.toNat
    | 0x10 => hide (halfWord t.opened.toNat 0)
    | 0x14 => t.openedHi.toNat
    | 0x18 => min 4 s.openCnt
    | _ => 0

/-- LINK_UP of stream b, of the ports of this module (R317, R416). -/
def State.portUp (s : State) (b : Nat) : Bool :=
  s.isLocal b && (if bitsAt b 4 1 = 0 then Tab.get false s.ing.cpUp (b % 16) else (s.portOf (b % 16)).up)

/-- ING_ registers (Table 15-8). -/
def State.ingWord (s : State) (o : Nat) : Nat :=
  if 0x1000 ≤ o then 0
  else
    let x := s.stream (o / 64)
    let ch := fun c => Tab.get IngChan.init x.chans c
    match o % 64 / 4 with
    | 0 => packWord [(31, bit01 (match x.table with | some t => t.enable | none => false)), (30, bit01 (s.portUp (o / 64))),
        (16, flagsNat ((List.range 8).map (fun c => (ch c).fault))), (8, x.lastErr.toNat), (0, x.unmatched.toNat)]
    | i + 1 =>
      if i < 8 then packWord [(24, (ch i).dup.toNat), (16, (ch i).late.toNat), (8, (ch i).parseErr.toNat), (0, (ch i).overflow.toNat)]
      else 0

/-- WDG_ registers (R45, R370, R396). -/
def State.wdgRegWord (s : State) (o : Nat) : Nat :=
  let h := s.hwa
  let p := s.pair
  let hb := match p.twinHb with | some t => decide (s.now < t + 200000) | none => false
  if o < 0x80 then
    let x := s.stage (o / 8)
    if o % 8 = 0 then packWord [(31, bit01 x.cfg.enable), (30, bit01 x.cfg.safety), (27, x.outcome.toNat), (26, bit01 x.edge),
      (16, x.dup.toNat), (8, x.edgeCnt.toNat), (0, x.failCnt.toNat)] else 0
  else match o with
    | 0x080 => packWord [(31, bit01 h.splitA), (30, bit01 h.splitB), (8, h.eccCorr.toNat), (0, h.exchMax.toNat)]
    | 0x084 => packWord [(27, h.engine.toNat), (24, h.variant.toNat), (22, h.goldLast.toNat), (16, h.deferrals.toNat),
        (8, h.goldFail.toNat), (0, h.goldPass.toNat)]
    | 0x088 => packWord [(27, h.stUnit.toNat), (24, h.stLast.toNat), (16, h.stMissed.toNat), (8, h.stForced.toNat), (0, h.stFail.toNat)]
    | 0x08C => packWord [(16, h.answered.toNat), (8, h.hbDropped.toNat), (0, h.lastCseq.toNat % 256)]
    | 0x090 => packWord [(29, p.pstate.toNat), (28, bit01 s.linkUp), (27, bit01 hb), (26, bit01 s.twinAlive), (25, bit01 s.canCmd),
        (8, p.leaves.toNat), (0, p.term.toNat)]
    | 0x094 => packWord [(28, p.rehKind.toNat), (26, p.rehLast.toNat), (16, p.rehFail.toNat), (0, p.rehPass.toNat)]
    | 0xF00 => halfWord s.time.tickA 0
    | 0xF04 => s.time.tickHi.toNat
    | _ => 0

/-- Mean of a list of values, 0 for none (R476). -/
def meanOf (l : List Nat) : Nat := l.foldl (· + ·) 0 / max 1 l.length

/-- Package PWR_ and THM_ registers (R316, R489). -/
def State.pkgWord (s : State) (o : Nat) : Nat :=
  let t := s.thm
  let c := s.cool
  if 0x100 ≤ o ∧ o < 0x140 then
    let r := Tab.get (0#16, 0#16) t.rails ((o - 0x100) / 4)
    packWord [(16, r.2.toNat), (0, r.1.toNat)]
  else if 0x180 ≤ o ∧ o < 0x190 then (Tab.get SPair.init t.iod ((o - 0x180) / 4)).word
  else if 0x190 ≤ o ∧ o < 0x198 then (Tab.get SPair.init t.sd ((o - 0x190) / 4)).word
  else match o with
    | 0x000 => packWord [(16, meanOf t.history % 65536), (0, t.power.toNat)]
    | 0x004 => packWord [(4, bit01 t.stale), (0, t.pcap.toNat)]
    | 0x1A0 => packWord [(31, bit01 t.shutdown), (30, bit01 t.coolLoss), (29, bit01 ((List.range 4).any (fun k => (s.opc k).warm))),
        (28, bit01 t.vehReady), (16, t.lowFlow.toNat),
        (8, packWord ((List.range 4).map (fun k => (2 * k, (s.opc k).hbmLim))))]
    | 0x200 => packWord [(16, c.tout.toNat), (0, c.tin.toNat)]
    | 0x204 => packWord [(31, bit01 c.tinBad), (30, bit01 c.toutBad), (29, bit01 c.flowValid), (0, c.flow.toNat)]
    | 0x208 => packWord [(16, c.kPulses.toNat), (7, bit01 c.pumpEn)]
    | 0x20C => c.duty.toNat
    | _ => 0

/-- BJ_ registers (R450). -/
def State.bjWord (s : State) (o : Nat) : Nat :=
  let b := s.boot
  match o with
  | 0x00 => packWord [(24, b.step.toNat), (16, b.state.toNat), (3, bit01 b.jfail), (2, bit01 b.badB), (1, bit01 b.badA), (0, bit01 b.slot)]
  | 0x04 => b.startCnt.toNat
  | 0x08 => packWord [(8, b.stackCons.toNat), (4, b.stackOut.toNat), (0, b.dieDis.toNat)]
  | 0x0C => b.engDis.toNat
  | 0x10 => b.cluDis.toNat
  | 0x14 => packWord [(24, b.failStep.toNat), (16, b.failOut.toNat), (8, b.failKind.toNat), (0, b.failIdx.toNat)]
  | _ => 0

/-- A fault record as its 32 bytes (Table 20-2). -/
def FaultRec.bytes (r : FaultRec) : List Byte :=
  leBytes 8 r.epoch.toNat ++ leBytes 4 r.tick ++ leBytes 1 r.sev ++ leBytes 1 r.kind ++ leBytes 1 r.unit ++ leBytes 1 r.cls ++
    leBytes 1 r.ctx ++ leBytes 1 r.fflags ++ leBytes 1 r.action ++ leBytes 1 r.node ++ leBytes 8 r.addr ++ leBytes 4 r.detail.toNat

/-- FAB_ registers of the IOD with the fault log (R418). -/
def State.iodFabWord (s : State) (o : Nat) : Nat :=
  if 0x1000 ≤ o ∧ o < 0x3000 then
    match Tab.look s.flt.flog ((o - 0x1000) / 32) with
    | some r => wordAt r.bytes (o % 32)
    | none => 0
  else if o = 0x24 then packWord [(8, s.flt.total.toNat), (0, s.flt.next.toNat)]
  else s.fabWord 4 o

/-- A word of the IOD block (Table 1-7); the switch has no registers. -/
def State.iodWord (s : State) (off : Nat) : Nat :=
  let o := off % 0x10000
  match off / 0x10000 with
  | 0 => s.mbxWord o
  | 1 => s.tlyWord o
  | 2 => s.ingWord o
  | 4 => s.wdgRegWord o
  | 5 => s.pkgWord o
  | 6 => s.bjWord o
  | 7 => s.iodFabWord o
  | _ => 0

/-- A word of a register block. -/
def State.regWord (s : State) (node off : Nat) : Nat := if node < 4 then s.dieWord node off else s.iodWord off

/-! ## Reads -/

/-- The reader may not read the word: WDG_TICK is the Reeve main core's, the MBX_ sub-block the KCP endpoint's and AC0 to
AC3's (R45, R59). -/
def readDenied (w : Initiator) (node off : Nat) : Bool :=
  decide (node = 4) &&
    ((decide (off / 8 = 0x40F00 / 8) && decide (w ≠ .reeve)) ||
     (decide (off < 0x10000) && !(match w with | .kcp => true | .core c => decide (c.val < 4) | _ => false)))

/-- A read of a low word captures its upper half (R45, R98, R286). -/
def State.capture (s : State) (node off : Nat) : State :=
  let v := fun (x : BitVec 64) => if s.pair.hideTly then 0#32 else hiWord x
  if node < 4 then
    if 0x50100 ≤ off ∧ off < 0x50200 ∧ off % 64 = 0x18 then
      s.updSlotMap node ((off - 0x50100) / 64) (fun x => { x with epochHi := x.epoch.extractLsb' 32 32 })
    else s
  else match off with
    | 0x10000 => s.mapTly (fun t => { t with latestHi := v t.latest })
    | 0x10008 => s.mapTly (fun t => { t with oldestHi := v s.oldest })
    | 0x10010 => s.mapTly (fun t => { t with openedHi := v t.opened })
    | 0x40F00 => s.mapTime (fun t => { t with tickHi := hiWord (BitVec.ofNat 64 t.tickA) })
    | _ => s

/-- Read the words of an access in ascending order. -/
def State.readWords (node : Nat) : List Nat → State → List Byte × State
  | [], s => ([], s)
  | o :: r, s =>
    let t := State.readWords node r (s.capture node o)
    (leBytes 4 (s.regWord node o) ++ t.1, t.2)

/-- Offsets of the words that an access of `size` bytes covers. -/
def wordsOf (off size : Nat) : List Nat := if size = 8 then [off, off + 4] else [off]

/-- A register read that reaches its block: its status and bytes. -/
def State.regRead (s : State) (w : Initiator) (node off size : Nat) : AccStatus × List Byte × State :=
  if readDenied w node off then (.unavailable, List.replicate size 0, s)
  else let r := State.readWords node (wordsOf off size) s; (.ok, r.1, r.2)

/-! ## Writes -/

/-- GRN_CTRL and GRN_LOFT_THR_i: Reeve cores, until LOCK (R238). -/
def State.grnWrite (s : State) (w : Initiator) (k o v : Nat) : State :=
  if !isReeve w || (s.grnDie k).lock then s
  else if o = 0 then s.updGrnDie k (fun d => { d with lock := decide (bitsAt v 0 1 = 1) })
  else if 0x10 ≤ o ∧ o < 0x20 then
    let i := (o - 0x10) / 4
    s.updGrnDie k (fun d => { d with thrTOn := d.thrTOn.set i (BitVec.ofNat 8 (bitsAt v 16 8)),
                                     thrRate := d.thrRate.set i (BitVec.ofNat 5 v) })
  else s

/-- GLN_ registers: HEAD is written only while STATE is 0 (R248). -/
def State.glnWrite (s : State) (w : Initiator) (u o v : Nat) : State :=
  if o = 0 then s.glnCtrl w u (BitVec.ofNat 32 v)
  else if !coreOrReeve w || (s.gleaner u).state ≠ 0#3 then s
  else
    let h := (s.gleaner u).head.toNat
    if o = 0x08 then s.updGleaner u (fun g => { g with head := BitVec.ofNat 40 (h / 2 ^ 32 * 2 ^ 32 + v / 64 * 64) })
    else if o = 0x0C then s.updGleaner u (fun g => { g with head := BitVec.ofNat 40 (v % 256 * 2 ^ 32 + h % 2 ^ 32) })
    else s

/-- HMC_ registers: Reeve cores, until LOCK (R264). -/
def State.hmcWrite (s : State) (w : Initiator) (k o v : Nat) : State :=
  if !isReeve w || (s.hmcOf k).lock then s
  else if 0x10 ≤ o ∧ o < 0x28 then
    s.updHmc k (fun h => { h with port := Tab.set 0xC8502818#32 h.port ((o - 0x10) / 4) (BitVec.ofNat 32 v) })
  else match o with
    | 0x00 => s.updHmc k (fun h =>
        { h with lock := decide (bitsAt v 31 1 = 1), scrubWb := decide (bitsAt v 5 1 = 1), refMode := decide (bitsAt v 4 1 = 1),
                 trainMode := BitVec.ofNat 2 (v / 4), mapOrder := BitVec.ofNat 2 v })
    | 0x08 => s.updHmc k (fun h => { h with pageIdle := BitVec.ofNat 12 v })
    | 0x0C => s.updHmc k (fun h => { h with ageLimit := BitVec.ofNat 16 v })
    | _ => s

/-- A write of the word at offset `r` of context `c`'s block (Table 10-11). -/
def State.kvwSet (s : State) (k c r v : Nat) : State :=
  match r with
  | 0x00 => s.updKvCtx k c (fun x => { x with rootLo := BitVec.ofNat 32 (v / 8 * 8) })
  | 0x04 => s.updKvCtx k c (fun x => { x with rootHi := BitVec.ofNat 8 v })
  | 0x08 =>
    let ok := decide (bitsAt v 0 2 ≠ 2) || (decide ((s.ctxOf c).state ≠ 0) && decide ((s.ctxOf c).sc ≤ 1))
    if ok then s.updKvCtx k c (fun x => { x with mode := BitVec.ofNat 2 v }) else s
  | 0x0C => if bitsAt v 16 1 = 1 then s.updKvCtx k c KvCtx.bump else s
  | _ => s

/-- KVW_ registers: application cores and the Reeve; MODE 0x2 only for a present context of SC0 or SC1 (R226). -/
def State.kvwWrite (s : State) (w : Initiator) (k o v : Nat) : State :=
  if !coreOrReeve w || !(decide (0x1000 ≤ o) && decide (o < 0x1800)) then s
  else s.kvwSet k ((o - 0x1000) / 32) ((o - 0x1000) % 32) v

/-- BLK_ registers: application and Reeve cores; buffers only while the slot is disabled (R286). -/
def State.blkWrite (s : State) (w : Initiator) (k o v : Nat) : State :=
  if !coreOrReeve w || !(decide (0x100 ≤ o) && decide (o < 0x200)) then s
  else
    let m := (o - 0x100) / 64
    let x := (s.blkOf k).slot m
    let lo := fun (b : BitVec 40) => BitVec.ofNat 40 (b.toNat / 2 ^ 32 * 2 ^ 32 + v / 512 * 512)
    let hi := fun (b : BitVec 40) => BitVec.ofNat 40 (v % 256 * 2 ^ 32 + b.toNat % 2 ^ 32)
    match (o - 0x100) % 64 with
    | 0x00 => s.mapCfg k m (BitVec.ofNat 32 v)
    | 0x08 => if x.enable then s else s.updSlotMap k m (fun x => { x with buf0 := lo x.buf0 })
    | 0x0C => if x.enable then s else s.updSlotMap k m (fun x => { x with buf0 := hi x.buf0 })
    | 0x10 => if x.enable then s else s.updSlotMap k m (fun x => { x with buf1 := lo x.buf1 })
    | 0x14 => if x.enable then s else s.updSlotMap k m (fun x => { x with buf1 := hi x.buf1 })
    | _ => s

/-- EQ_CPL_HEAD: software has read the records below HEAD; a write of the value it holds consumes none (R119). -/
def Eng.setHead (e : Eng) (v : Nat) : Eng :=
  if BitVec.ofNat 6 v = e.head then e
  else { e with head := BitVec.ofNat 6 v, unread := (e.tail - BitVec.ofNat 6 v).toNat }

/-- EQ_ registers other than EQ_DOORBELL: application cores (R118). -/
def State.engWrite (s : State) (w : Initiator) (k o v : Nat) : State :=
  if !isCore w then s
  else if o = 0xF000 then s.eqGateDone k v
  else if o < 0x6000 ∧ o % 0x1000 = 0x10 then s.updEng (engAt k (o / 0x1000)) (fun e => e.setHead v)
  else s

/-- A write of one word of the block of die k. -/
def State.dieWrite (s : State) (w : Initiator) (k off v : Nat) : State :=
  let o := off % 0x10000
  match off / 0x10000 with
  | 1 => s.grnWrite w k o v
  | 2 => if o < 0x200 then s.glnWrite w (8 * k + o / 64) (o % 64) v else s
  | 3 => s.hmcWrite w k o v
  | 4 => s.kvwWrite w k o v
  | 5 => s.blkWrite w k o v
  | 6 => s.engWrite w k o v
  | _ => s

/-- TLY_SEL_: window 0 answers the KCP endpoint, windows 1 to 3 the others; a write of SEL_LO starts a copy (R98, R99). -/
def State.tlyWrite (s : State) (w : Initiator) (o v : Nat) : State :=
  if !(decide (0x100 ≤ o) && decide (o < 0x140)) then s
  else
    let i := (o - 0x100) / 16
    if !winWriter w i then s
    else match o % 16 with
      | 0x0 => s.updWin i (fun x => { x with selLo := BitVec.ofNat 32 v, wstate := 1#3, copy := none })
      | 0x4 => s.updWin i (fun x => { x with selHi := BitVec.ofNat 32 v })
      | _ => s

/-- MBX_ registers and slot bodies, written by the master (R59, R61). -/
def State.mbxWrite (s : State) (o v : Nat) : State :=
  if 0x1000 ≤ o ∧ o < 0x2000 then s.bodyWrite ((o - 0x1000) / 256) (o % 256) (leBytes 4 v)
  else match o with
    | 0x04 => s.ring (bitsAt v 0 4) (BitVec.ofNat 16 (bitsAt v 4 16))
    | 0x0C => s.releaseSlots v
    | 0x10 => s.clearSticky v
    | _ => s

/-- THM_COOL_CFG: Reeve cores, until the lock (R8, R316). -/
def State.coolWrite (s : State) (w : Initiator) (o v : Nat) : State :=
  if o = 0x208 ∧ isReeve w ∧ !s.cool.lock then
    s.mapCool (fun c => { c with kPulses := BitVec.ofNat 16 (bitsAt v 16 16), pumpEn := decide (bitsAt v 7 1 = 1) })
  else s

/-- A write of one word of the IOD block. -/
def State.iodWrite (s : State) (w : Initiator) (off v : Nat) : State :=
  match off / 0x10000 with
  | 0 => s.mbxWrite (off % 0x10000) v
  | 1 => s.tlyWrite w (off % 0x10000) v
  | 5 => s.coolWrite w (off % 0x10000) v
  | _ => s

/-- A slot body as one access: a write of 8 bytes that is discarded is one slip. -/
def State.mbxWide (s : State) (off v : Nat) : State :=
  if 0x1000 ≤ off ∧ off < 0x2000 then s.bodyWrite ((off - 0x1000) / 256) (off % 256) (leBytes 8 v)
  else (s.mbxWrite off (v % 2 ^ 32)).mbxWrite (off + 4) (v / 2 ^ 32)

/-- The 8-byte registers: GRN_BANK_n, EQ_DOORBELL and BLK_MAP_COMMIT_m take one access of 8 bytes (R119, R230, R286). -/
def State.wideDie (s : State) (w : Initiator) (k off v : Nat) : State :=
  if 0x18000 ≤ off ∧ off < 0x1C000 then
    if bitsAt v 63 1 = 0 then s
    else s.bankCommand w k ((off - 0x18000) / 8)
      { ownChg := decide (bitsAt v 60 1 = 1), clear := decide (bitsAt v 59 1 = 1), preq := bitsAt v 61 2, expect := bitsAt v 52 7,
        dest := bitsAt v 45 7 }
  else if 0x50100 ≤ off ∧ off < 0x50200 ∧ off % 64 = 0x20 then
    if coreOrReeve w && decide (bitsAt v 63 1 = 1) then 
      (s.commit k ((off - 0x50100) / 64) ((s.blkOf k).slot ((off - 0x50100) / 64)).ctx.toNat (BitVec.ofNat 32 v)).2 else s
  else if 0x60000 ≤ off ∧ off < 0x66000 ∧ off % 0x1000 = 0 then
    if isCore w then s.eqDoorbell (engAt k ((off - 0x60000) / 0x1000)) v else s
  else (s.dieWrite w k off (v % 2 ^ 32)).dieWrite w k (off + 4) (v / 2 ^ 32)

/-- A register write that reaches its block: its status and the state after it. A write to the MBX_ sub-block by another
than the master ends with target-unavailable once READY is 1 (R59, R62). -/
def State.regWrite (s : State) (w : Initiator) (node off size v : Nat) : AccStatus × State :=
  if node < 4 then (.ok, if size = 8 then s.wideDie w node off v else s.dieWrite w node off v)
  else if off < 0x10000 ∧ s.mbx.ready ∧ !s.isMaster w then (.unavailable, s)
  else if off < 0x10000 ∧ !s.mbx.ready then (.ok, s)
  else if size = 8 then
    (.ok, if off < 0x10000 then s.mbxWide off v else (s.iodWrite w off (v % 2 ^ 32)).iodWrite w (off + 4) (v / 2 ^ 32))
  else (.ok, s.iodWrite w off v)

/-! ## The comparator of an island (R347 to R349) -/

/-- The word at an address of an island's shared memory; an address beyond it reads 0. -/
def sramRead (m : Tab Byte) (size addr : Nat) : BitVec 32 :=
  if size ≤ addr then 0#32 else BitVec.ofNat 32 (leNat ((List.range 4).map (fun i => Tab.get 0#8 m (addr / 4 * 4 + i))))

/-- What a transaction reads: a word of the shared memory, or of the WDG_ sub-block, which Hayward A alone reaches. -/
def State.islandData (s : State) (island : Bool) (t : Txn) : BitVec 32 :=
  if t.kind = 0#4 then (if island then sramRead s.hwb.sram 0x20000 t.addr.toNat else sramRead s.hwa.sram 0x80000 t.addr.toNat)
  else if island then 0#32 else BitVec.ofNat 32 (s.wdgRegWord (t.addr.toNat % 0x10000 / 4 * 4))

/-- Data of a read goes to the cores given. -/
def State.islandReply (s : State) (island : Bool) (cores : List Bool) (v : BitVec 32) : State :=
  let put := fun (m : Tab (BitVec 32)) => cores.foldl (fun a c => Tab.set 0#32 a (bit01 c) v) m
  if island then s.mapHwb (fun b => { b with rdata := put b.rdata }) else s.mapHwa (fun a => { a with rdata := put a.rdata })

/-- Perform a transaction once for the cores given: a write of the shared memory; a read of it, whose single-bit error is corrected and
counted and whose uncorrectable word is a lockstep fault; a register access, whose fields only their own rows change. -/
def State.islandPerform (s : State) (island : Bool) (cores : List Bool) (t : Txn) (ecc : SramEcc) : State :=
  if t.kind = 1#4 then s.sramStore island t
  else if t.kind = 0#4 then
    match ecc with
    | .clean => s.islandReply island cores (s.islandData island t)
    | .corrected =>
      (if island then s else s.mapHwa (fun a => { a with eccCorr := satInc a.eccCorr })).islandReply island cores (s.islandData island t)
    | .uncorrectable => s.lockstepFault island
  else if t.kind = 2#4 then s.islandReply island cores (s.islandData island t)
  else s

/-- A core issues a transaction: the comparator holds it until the other core's, and performs the two once if they match. A split core's
is performed at once. -/
def State.islandTxn (s : State) (island core : Bool) (t : Txn) (ecc : SramEcc) : State :=
  if !s.islandOn island then s
  else
    let poll := fun (a : State) => if t.kind = 3#4 && !island then a.exchPoll core else a
    if s.islandSplit island then (poll s).islandPerform island [core] t ecc
    else match s.islandHeld island with
      | none => (poll s).setHeld island (some { core := core, txn := t, tick := if island then s.time.tickB else s.now })
      | some h =>
        if h.core = core then s
        else if h.txn = t ∧ (if island then s.time.tickB else s.now) ≤ h.tick + 64 then
          (poll (s.setHeld island none)).islandPerform island [false, true] t ecc
        else s.lockstepFault island

/-- ISLAND_TRANSACTION. -/
def execIslandTransaction (island core : Bool) (t : TxnAt) (s : State) : Host.Outcome State Fault Refusal :=
  .next (s.islandTxn island core t.txn t.ecc)

/-- Initiators that make register accesses (R508). -/
def regMaker : Initiator → Bool
  | .core _ | .reeve | .deputy _ _ | .kcp => true
  | _ => false

end Sys2Proof.Machine
end

