-- ==== Sys2Proof/Machine/Fabric.lean ====
section
/-! DEFINITION. The package fabric: a request at its target, the trackers of the compute dies, replies, chaff, and the accesses
that wait for a bank clear (R20 to R25, R29, R30, R231, R232, R335 to R338). -/

namespace Sys2Proof.Machine

/-! ## Who makes an access -/

/-- The destination of an ACTIVE WEIGHT_DECRYPT, which the vault writes whoever owns it (R336). -/
def State.vaultDst (s : State) (a : Nat) : Bool :=
  s.cmds.active.any (fun c => decide (c.opcode = 0x62) && decide (c.arg 16 8 ≤ a) && decide (a < c.arg 16 8 + (c.arg 24 8 - 40)))

/-- Its source, which the vault reads outside every context's range (R463). -/
def State.vaultSrc (s : State) (a : Nat) : Bool :=
  s.cmds.active.any (fun c => decide (c.opcode = 0x62) && decide (c.arg 8 8 ≤ a) && decide (a < c.arg 8 8 + c.arg 24 8))

/-- The initiator of a request with the CTX its header names; a core's CTX is that of GXCTX (R335). -/
def State.whoOf (s : State) (i : Initiator) (ctx a : Nat) : Who :=
  match i with
  | .core c => s.whoCore c
  | .reeve => whoReeve
  | .deputy k _ => whoDeputy k
  | .kcp => whoKcp
  | .vault => { whoVault with anyHbm := s.vaultDst a, openHbm := s.vaultDst a || s.vaultSrc a }
  | .ingest => whoIngest ctx
  | i => whoEngine (nodeOf i) ctx

/-! ## The request header (R21) -/

/-- TYPE of Table 1-4. -/
inductive FabType where
  | read | posted | acked | atomic | regRead | regWrite | coherence
  deriving DecidableEq, Repr

def FabType.code : FabType → Nat
  | .read => 0 | .posted => 1 | .acked => 2 | .atomic => 3 | .regRead => 4 | .regWrite => 5 | .coherence => 6

/-- The header of a fabric request (Table 1-4); `rsvd` is sent as 0. -/
structure FabHeader where
  dest : BitVec 3
  src  : BitVec 3
  port : BitVec 6
  tag  : BitVec 12
  addr : BitVec 40
  type : FabType
  size : BitVec 3
  sc   : BitVec 2
  ctx  : BitVec 6
  part : BitVec 3
  gen  : BitVec 8
  rsvd : BitVec 6
  deriving DecidableEq, Repr

/-- SIZE code of a number of bytes. -/
def sizeCode (n : Nat) : BitVec 3 :=
  if n = 4 then 2#3 else if n = 8 then 3#3 else if n = 16 then 4#3 else if n = 32 then 5#3 else 6#3

/-- Index of an initiator within its node, in the order of `Initiator`; its PORT is `Config.portOf` of it. -/
def portIndex : Initiator → Nat
  | .core c => c.val % 8 | .deputy _ j => 8 + j.val | .thresher e => 10 + e.val % 4 | .carder e => 14 + e.val % 2 | .blocker _ => 16
  | .gleaner _ g => 17 + g.val | .kvWalker _ => 25 | .reeve => 0 | .kcp => 1 | .ingest => 2 | .vault => 3

def Req.type (r : Req) : FabType :=
  match r.kind, isRegs r.addr with
  | .read, false => .read | .read, true => .regRead
  | .atomic _ _ _, _ => .atomic
  | .posted, false => .posted | .acked, false => .acked | _, true => .regWrite

/-- The header a request carries. -/
def Req.header (r : Req) : FabHeader :=
  { dest := BitVec.ofNat 3 (targetNode r.addr), src := BitVec.ofNat 3 (nodeOf r.src), port := Config.portOf (nodeOf r.src) (portIndex r.src),
    tag := r.tag, addr := BitVec.ofNat 40 r.addr, type := r.type, size := sizeCode r.size, sc := BitVec.ofNat 2 r.sc,
    ctx := BitVec.ofNat 6 r.ctx, part := BitVec.ofNat 3 r.part, gen := r.gen, rsvd := 0#6 }

/-- The header of a coherence message: TYPE 0x6, SIZE 0x6, ADDR the line address with the kind in its low six bits (R342). Its PORT
and TAG are stated nowhere: those of the table's first initiator and of the message's place, free for the rest of the model. -/
def CohMsg.header (m : CohMsg) : FabHeader :=
  let home := m.kind = 0x04 ∨ m.kind = 0x05 ∨ (m.kind = 0x11 ∧ m.req = 0)
  { dest := BitVec.ofNat 3 (if home then homeDie m.line else clusterDie m.dest), src := BitVec.ofNat 3 m.src,
    port := Config.portOf m.src 0, tag := 0#12, addr := BitVec.ofNat 40 (64 * m.line + m.kind), type := .coherence, size := 6#3,
    sc := BitVec.ofNat 2 m.sc, ctx := BitVec.ofNat 6 m.ctx, part := BitVec.ofNat 3 m.part, gen := m.gen, rsvd := 0#6 }

/-- The header of a core's request to the home of a line: GET_S, GET_M or UPGRADE with the CTX, PART and SC of GXCTX (R335, R342). -/
def State.cohHeader (s : State) (q : CohReq) (line : Nat) : FabHeader :=
  let k := s.coreOf q.core
  let kind := if q.upgrade then 0x03 else if q.own then 0x02 else 0x01
  { dest := BitVec.ofNat 3 (homeDie line), src := BitVec.ofNat 3 (q.core / 8), port := Config.portOf (q.core / 8) (q.core % 8), tag := 0#12,
    addr := BitVec.ofNat 40 (64 * line + kind), type := .coherence, size := 6#3, sc := k.sc, ctx := if k.valid then k.ctx else 0#6,
    part := k.part, gen := Tab.get 0#8 s.flt.gens (q.core / 8), rsvd := 0#6 }

/-- Port of the stack's controller on which a request arrives (Table 12-4). -/
def hbmPort (k : Nat) : Initiator → Nat
  | .thresher e => if e.val / 4 = k then 0 else 3
  | .carder e => if e.val / 2 = k then 0 else 3
  | .blocker d => if d.val = k then 0 else 3
  | .gleaner d _ => if d.val = k then 1 else 3
  | .core c => if c.val / 8 = k then 2 else 3
  | .deputy d _ => if d.val = k then 2 else 3
  | .kvWalker d => if d.val = k then 5 else 3
  | .reeve | .kcp | .ingest | .vault => 4

/-! ## Trackers (R25) -/

/-- Transactions outstanding at the tracker of die k. -/
def State.tracked (s : State) (k : Nat) : Nat := (s.fab.pend.filter (fun p => p.die = some k && p.answer.isNone)).length

def trackerSize : Nat := 4096

/-- The memory die of an address: register accesses are not counted. -/
def memDie (a : Nat) : Option Nat := match placeOf a with | .hbm k _ => some k | .gran k _ _ => some k | _ => none

/-! ## A request at its target -/

def sameTxn (src : Initiator) (tag : BitVec 12) (p : Pend) : Bool := decide (p.src = src ∧ p.tag = tag)

/-- The tracker of die k counts the transaction. -/
def State.track (s : State) (r : Req) (k : Nat) : State :=
  s.mapFab (fun f => { f with pend := updFirst (sameTxn r.src r.tag) (fun p => { p with die := some k }) f.pend })

/-- The transaction ends with data, or a posted write retires without a reply. -/
def State.finish (s : State) (r : Req) (st : AccStatus) (d : List Byte) : State :=
  if r.kind = .posted ∧ st = .ok then s.retire r.src r.tag else s.answer r.src r.tag st d

/-- A register access; an atomic is none (R508). -/
def State.regAccess (s : State) (r : Req) (node off : Nat) : State :=
  match r.kind with
  | .read => let a := s.regRead r.src node off r.size; a.2.2.finish r a.1 a.2.1
  | .atomic _ _ _ => s.finish r .hole (failData r)
  | _ => let a := s.regWrite r.src node off r.size (leNat (r.data.take r.size)); a.2.finish r a.1 []

/-- A bank of the target die clears: accesses to it wait (R232). -/
def State.clearWait (s : State) (r : Req) : Option Nat :=
  match placeOf r.addr with
  | .gran k n _ => if (s.bank (2048 * k + n)).clearing && s.dieRuns k then some (2048 * k + n) else none
  | _ => none

/-- A read or an atomic of a bank that meets an uncorrectable codeword fails (R237). -/
def State.bankUnc (s : State) (r : Req) : Bool :=
  match r.kind with
  | .posted | .acked => false
  | _ => (s.firstUnc r.addr r.size).isSome

/-- The target performs a request that its tracker has accepted. -/
def State.serve (s : State) (r : Req) : State :=
  match s.clearWait r with
  | some i => s.updBank i (fun b => { b with held := b.held ++ [r] })
  | none =>
    match s.judge (s.whoOf r.src r.ctx r.addr) r.addr with
    | .ok =>
      match placeOf r.addr with
      | .regs node off => s.regAccess r node off
      | .hbm k _ => s.hbmArrive k (hbmPort k r.src) r
      | _ => if s.bankUnc r then s.finish r .uncorrected (failData r) else let p := s.perform r; p.2.finish r .ok p.1
    | st => s.finish r st (failData r)

/-- A held request keeps a later one out: each service class is a channel of its own, first in, first out, and the lowest class
enters first (R20, R25). One of the same initiator that touches the same granule keeps its place too where either writes (R23). -/
def heldBefore (l : List Req) (r : Req) : Bool := l.any (fun h => decide (h.sc ≤ r.sc)) || ownOrder l r

/-- A request reaches its target: the die's tracker accepts it, or holds it while it is full. -/
def State.arrive (s : State) (r : Req) : State :=
  match memDie r.addr with
  | some k =>
    if !s.dieRuns k then s.serve r
    else if trackerSize ≤ s.tracked k ∨ heldBefore (Tab.get [] s.fab.held k) r then
      s.mapFab (fun f => { f with held := Tab.upd [] f.held k (· ++ [r]) })
    else (s.track r k).serve r
  | none => s.serve r

/-- An access that the fabric never sends (R22): misaligned, an atomic of another size than 4 or 8 bytes, or a register access
of another size. -/
def missized (r : Req) : Bool :=
  decide (r.addr % r.size ≠ 0) || (isAtomic r && decide (8 < r.size)) || (isRegs r.addr && regMaker r.src && decide (8 < r.size))

/-- A core's request carries the CTX, PART and SC of its GXCTX, CTX 0, PART 0 and SC3 without a context; its stores go as
acknowledged writes (R335, R336, R338). -/
def State.coreTag (s : State) (r : Req) : Req :=
  match r.src with
  | .core c =>
    let k := s.coreOf c
    { r with ctx := if k.valid then k.ctx.toNat else 0, part := if k.valid then k.part.toNat else 0, sc := if k.valid then k.sc.toNat else 3,
             kind := if r.kind = .posted then .acked else r.kind }
  | _ => r

/-- An access that is never sent: an alignment error at the initiator (R22); a core takes it as an exception. -/
def State.unsent (s : State) (r : Req) : State :=
  let s := s.mapFab (fun f => { f with errs := { src := r.src, tag := r.tag, status := .alignment, data := [] } :: f.errs })
  match r.src with
  | .core c => s.coreTrap c .misaligned (isWrite r) r.addr
  | _ => s

/-- A core's access outside its own die counts as event 0x04 (R334). -/
def State.farAccess (s : State) (r : Req) : State :=
  match r.src with
  | .core c => if targetNode r.addr < 4 ∧ targetNode r.addr ≠ c / 8 then s.hpmCount c 4 else s
  | _ => s

/-- A core whose GXCTX names no context asks for what a context or the Granary holds: an access fault, and nothing is sent (R336). -/
def State.barredCore (s : State) (r : Req) : Option Nat :=
  match r.src with
  | .core c => if s.barred c r.addr then some c else none
  | _ => none

/-- A request of an initiator. One whose GEN is not the node's is chaff at its target; a TAG that is outstanding already is not
reused. -/
def State.request (s : State) (q : Req) : State :=
  let r := s.coreTag q
  if !s.awake || s.fab.pend.any (sameTxn r.src r.tag) then s
  else if missized r then s.unsent r
  else match s.barredCore r with
  | some c => s.coreTrap c .access (isWrite r) r.addr
  | none =>
    if Tab.get 0#8 s.flt.gens (nodeOf r.src) ≠ r.gen then s.chaff (targetNode r.addr)
    else
      ((s.farAccess r).mapFab (fun f => { f with pend := f.pend ++
        [{ src := r.src, tag := r.tag, gen := r.gen, addr := r.addr, posted := decide (r.kind = .posted), zeros := (failData r).length,
           die := none, since := s.now, answer := none }] })).arrive r

def reqOf (q : FabReq) (k : ReqKind) (d : List Byte) : Req :=
  { src := q.src, tag := q.tag, addr := q.addr.toNat, size := q.size.bytes, sc := q.sc, ctx := q.ctx, part := q.part, gen := q.gen,
    kind := k, data := pad q.size.bytes d }

/-- What a core does with a line for a request whose mapping makes it cacheable (R337). -/
def accOf (r : Req) : CoreAcc :=
  match r.kind with
  | .read => .load .load
  | .atomic op x c => .amo op (r.addr % 64) r.size x c
  | _ => .store { off := BitVec.ofNat 6 r.addr, data := r.data.take r.size }

/-- An access as a command gives it. That of a core with a virtual address goes through its MMU: a fault there is an exception of the
core; a page of attribute PMA in main memory is cacheable, and its access asks for the line (R337, R344). -/
def State.access (s : State) (q : FabReq) (k : ReqKind) (d : List Byte) : State :=
  let r := reqOf q k d
  match r.src, q.virt with
  | .core c, some v =>
    if !s.awake then s
    else match s.coreMap c v (isWrite r) with
      | .error page => s.coreTrap c (if page then .page else .access) (isWrite r) v.va.toNat
      | .ok (pa, attr) =>
        let r := { r with addr := pa }
        if attr = 0 ∧ (memDie pa).isSome ∧ !missized r then
          s.cohRequest { core := c, own := isWrite r, upgrade := false, acc := accOf r } (pa / 64)
        else s.request r
  | _, _ => s.request r

/-- The first held request of the lowest service class. -/
def nextHeld (l : List Req) : Option Req :=
  l.foldl (fun (a : Option Req) r => match a with | none => some r | some b => if r.sc < b.sc then some r else some b) none

/-- The held request that a link sends first is accepted once there is room; one whose source has had its GEN changed meanwhile is
chaff. -/
def State.admitHeld (s : State) (k : Nat) : State :=
  match nextHeld (Tab.get [] s.fab.held k) with
  | some r =>
    if s.tracked k < trackerSize then
      let s := s.mapFab (fun f => { f with held := Tab.upd [] f.held k (·.erase r) })
      if Tab.get 0#8 s.flt.gens (nodeOf r.src) ≠ r.gen then s.chaff k else (s.track r k).serve r
    else s
  | none => s

/-- A clear ends and the accesses that waited for it proceed in order. -/
def State.clearDone (s : State) (k n : Nat) : State :=
  let i := 2048 * k + n
  if (s.bank i).clearing then
    let l := (s.bank i).held
    l.foldl State.serve ((s.updBank i (fun b => { b with held := [] })).bankCleared k n)
  else s

/-! ## Commands -/

/-- FABRIC_READ. -/
def execFabricRead (r : FabReq) (s : State) : Host.Outcome State Fault Refusal := .next (s.access r .read []).settle

/-- FABRIC_POSTED_WRITE. -/
def execFabricPostedWrite (r : FabReq) (data : List Byte) (s : State) : Host.Outcome State Fault Refusal :=
  .next (s.access r .posted data).settle

/-- FABRIC_ACK_WRITE. -/
def execFabricAckWrite (r : FabReq) (data : List Byte) (s : State) : Host.Outcome State Fault Refusal :=
  .next (s.access r .acked data).settle

/-- FABRIC_ATOMIC. -/
def execFabricAtomic (r : FabReq) (op : AtomicOp) (operand compare : BitVec 64) (s : State) : Host.Outcome State Fault Refusal :=
  .next (s.access r (.atomic op operand compare) []).settle

/-- REGISTER_WRITE: TYPE 0x5, acknowledged like any register write (R22, R28 to R30, R508). An initiator sends it to a register block
or a hole; to memory it sends a memory write instead. -/
def execRegisterWrite (w : RegHdr) (addr : BitVec 40) (wide : Bool) (v : BitVec 64) (s : State) : Host.Outcome State Fault Refusal :=
  .next (if (memDie addr.toNat).isSome && w.virt.isNone then s
    else (s.access (w.req addr wide) .acked (leBytes (if wide then 8 else 4) v.toNat)).settle)

/-- TRACKER_ADMIT: a held request of die k, and those that wait at the ports of its stack. -/
def execTrackerAdmit (k : Die) (s : State) : Host.Outcome State Fault Refusal := .next ((s.admitHeld k).hbmAdmit k).settle

/-- BANK_CLEAR_DONE. -/
def execBankClearDone (k : Die) (n : Fin 2048) (s : State) : Host.Outcome State Fault Refusal := .next (s.clearDone k n)

end Sys2Proof.Machine
end

