-- ==== Sys2Proof/Machine/Replies.lean ====
section
/-! DEFINITION. What an initiator does with a reply: a core's exception or retirement, and the streams of the Gleaners, whose reads and
writes are transactions of the fabric (R29, R243 to R247, R334, R338, R410). -/

namespace Sys2Proof.Machine

/-! ## Streams (R219, R243 to R247) -/

/-- Reads a Gleaner may keep outstanding: PF_DIST, 0 acting as 1 and above 256 as 256 (Table 11-10). -/
def Gleaner.distance (g : Gleaner) : Nat := min 256 (max 1 g.pfDist.toNat)

/-- Reads outstanding of a Gleaner. -/
def Gleaner.reading (g : Gleaner) : Nat := (g.streams.map (fun t => t.reads.length)).foldl (· + ·) 0

/-- Reads outstanding of the eight Gleaners of a die. -/
def State.dieReads (s : State) (k : Nat) : Nat := ((List.range 8).map (fun g => (s.gleaner (8 * k + g)).reading)).foldl (· + ·) 0

/-- The initiator of Gleaner u, and a walker of its die. -/
def glnSrc (u : Nat) : Initiator := .gleaner ⟨u / 8 % 4, Nat.mod_lt _ (by decide)⟩ ⟨u % 8, Nat.mod_lt _ (by decide)⟩

/-- The oldest stream with a read to issue. -/
def Gleaner.next? (g : Gleaner) : Option GlnStream := g.streams.find? (fun t => !t.dead && decide (t.issued < t.desc.lines))

/-- Change that stream. -/
def State.updNext (s : State) (u : Nat) (f : GlnStream → GlnStream) : State :=
  s.updGleaner u (fun g => { g with streams := updFirst (fun t => !t.dead && decide (t.issued < t.desc.lines)) f g.streams })

/-- A transaction of Gleaner u, with the SC and partition of its context (R246). -/
def State.glnReq (s : State) (u c a : Nat) (kind : ReqKind) (d : List Byte) : Req :=
  { src := glnSrc u, tag := (s.gleaner u).tag, addr := a, size := 64, sc := (s.ctxOf c).sc, ctx := c, part := (s.ctxOf c).part,
    gen := Tab.get 0#8 s.flt.gens (u / 8), kind := kind, data := d }

/-- Send a transaction of Gleaner u and step its TAG. -/
def State.glnSend (s : State) (u c a : Nat) (kind : ReqKind) (d : List Byte) : State :=
  (s.updGleaner u (fun g => { g with tag := g.tag + 1 })).request (s.glnReq u c a kind d)

/-- Bytes of a page of a stream's source: 4 KiB on the general path, 16 KiB for a KV address. -/
def pageBytes (skind : Nat) : Nat := if skind = 2 then 16384 else 4096

/-- A stream that has failed issues no further read (R247). -/
def State.streamFails (s : State) (u : Nat) (p : GlnStream → Bool) (e : GlnErr) : State :=
  (s.updGleaner u (fun g => { g with streams := updFirst p (fun t => { t with dead := true, failed := true }) g.streams })).glnFail u e

/-- A walk of Gleaner u waits for the walker of its die, once. -/
def State.awaitWalk (s : State) (u c : Nat) : State :=
  s.updKvw (u / 8) (fun d => if d.waiting.any (fun w => w.2 = u) then d else { d with waiting := d.waiting ++ [((s.ctxOf c).sc, u)] })

/-- A page of a stream is looked up in the buffer or the cache of its path; on a miss its walk waits (R219). -/
def State.lookPage (s : State) (u : Nat) (t : GlnStream) (page : Nat) : Option Nat × State :=
  let k := u / 8
  let c := t.desc.ctx
  if (s.kvwOf k).waiting.any (fun w => w.2 = u) then (none, s)
  else
    let r : Option Nat × State :=
      if t.desc.skind = 2 then s.kvLookup k c t.gen (page / 2 ^ 22) (page % 2 ^ 22)
      else (((s.kvwOf k).tcFind c t.gen page).map (·.frame), s)
    match r with
    | (some f, s) => (some f, s.updNext u (fun t => { t with page := some (page, f) }))
    | (none, s) => (none, s.awaitWalk u c)

/-- The physical address of the next line of a stream; `none`: its page awaits its walk. -/
def State.glnAddr (s : State) (u : Nat) (t : GlnStream) (src : Nat) : Option Nat × State :=
  let b := pageBytes t.desc.skind
  let page := src % 2 ^ 48 / b
  if t.desc.skind = 0 then (some (src % 2 ^ 40), s)
  else match t.page with
    | some (p, f) =>
      if p = page then (some (f + src % b), s) else let r := s.lookPage u t page; (r.1.map (· + src % b), r.2)
    | none => let r := s.lookPage u t page; (r.1.map (· + src % b), r.2)

/-- Issue reads of Gleaner u, at most `n`: in row order, then element order, then ascending address, while its distance and the 2,048
reads of its die allow (R243, R246). -/
def State.glnIssue (u : Nat) : Nat → State → State
  | 0, s => s
  | n + 1, s =>
    let g := s.gleaner u
    match g.next? with
    | none => s
    | some t =>
      if g.distance ≤ g.reading ∨ 2048 ≤ s.dieReads (u / 8) ∨ !s.dieRuns (u / 8) then s
      else match s.glnAddr u t (t.desc.lineAt t.issued).1 with
        | (none, s) => s
        | (some a, s) =>
          let tag := (s.gleaner u).tag
          glnIssue u n ((s.updNext u (fun t => { t with issued := t.issued + 1, reads := t.reads ++ [⟨tag, t.issued⟩] })).glnSend u t.desc.ctx a .read [])

/-- The walk of Gleaner u's next page is done: the page is known, or the stream fails (R218, R245). -/
def State.walkDone (s : State) (u : Nat) (t : GlnStream) : State :=
  let k := u / 8
  let c := t.desc.ctx
  let src := (t.desc.lineAt t.issued).1
  let page := src % 2 ^ 48 / pageBytes t.desc.skind
  let r : Except (Nat × Nat) Nat × State :=
    if t.desc.skind = 2 then
      (match s.kvMiss k c t.gen t.root.toNat (page / 2 ^ 22) (page % 2 ^ 22) with
       | (.ok f, s) => (.ok f, s)
       | (.error f, s) => (.error (5, f), s))
    else
      (match s.tcMiss k c t.gen t.root.toNat page glnCode with
       | (.ok f, s) => (.ok f, s)
       | (.error f, s) => (.error (f, 0), s))
  match r with
  | (.ok f, s) => State.glnIssue u 256 (s.updNext u (fun t => { t with page := some (page, f) }))
  | (.error e, s) => s.streamFails u (fun t => !t.dead && decide (t.issued < t.desc.lines)) ⟨e.1, e.2, t.desc.elemOf t.issued, src⟩

/-- The walk that the walker of die k serves next: SC0 before SC1, then in order of arrival (R219). -/
def nextWalk (l : List (Nat × Nat)) : Option (Nat × Nat) :=
  l.foldl (fun (a : Option (Nat × Nat)) w => match a with | none => some w | some b => if w.1 < b.1 then some w else some b) none

/-- The walker of die k serves one walk; what it serves it finishes. -/
def State.walkOne (s : State) (k : Nat) : State :=
  match nextWalk (s.kvwOf k).waiting with
  | none => s
  | some w =>
    let s := s.updKvw k (fun d => { d with waiting := d.waiting.erase w })
    match (s.gleaner w.2).next? with
    | some t => s.walkDone w.2 t
    | none => s

/-- GLN_STREAM_START: the next stream of the chain begins, and reads are issued. -/
def execGlnStreamStart (k : Die) (g : Fin 8) (s : State) : Host.Outcome State Fault Refusal :=
  .next (State.glnIssue (8 * k.val + g.val) 256 (s.glnStart (8 * k.val + g.val))).settle

/-- A stream that was given up and has nothing outstanding is gone; one that has failed stays while its instance runs, since the nodes
it holds are never released (R244). -/
def State.glnSweep (s : State) (u : Nat) : State :=
  let g := s.gleaner u
  let gone := fun (t : GlnStream) => t.dead && t.reads = [] && t.writes = [] && !(t.failed && g.epoch.isSome && t.epoch = g.epoch && !g.stopping)
  let l := g.streams.filter gone
  if l = [] then s
  else ((s.endWalks u l).updGleaner u (fun g => { g with streams := g.streams.filter (fun t => !gone t) })).glnEnd u

/-- A transaction of Gleaner u has ended: a read's data is written to its destination, a write is acknowledged, an error ends its
stream at its first failure (R243, R247). -/
def State.glnGot (s : State) (u : Nat) (tag : BitVec 12) (st : AccStatus) (d : List Byte) : State :=
  let g := s.gleaner u
  let isRead := fun (t : GlnStream) => t.reads.any (fun x => x.tag = tag)
  let isWr := fun (t : GlnStream) => t.writes.any (fun x => x.tag = tag)
  match g.streams.find? (fun t => isRead t || isWr t) with
  | none => s
  | some t =>
    let read := isRead t
    match (if read then t.reads else t.writes).find? (fun x => x.tag = tag) with
    | none => s
    | some x =>
      let at_ := t.desc.lineAt x.line
      let drop := fun (l : List GlnLine) => l.filter (fun y => y.tag ≠ tag)
      let p := fun (t : GlnStream) => isRead t || isWr t
      if st ≠ .ok then
        let s := if t.failed then s else s.streamFails u p ⟨glnCode st, 0, t.desc.elemOf x.line, if read then at_.1 else at_.2⟩
        (s.updGleaner u (fun g => { g with streams := updFirst p (fun t => { t with reads := drop t.reads, writes := drop t.writes }) g.streams })).glnSweep u
      else if read then
        let w := g.tag
        let moved := fun (t : GlnStream) => { t with reads := drop t.reads, writes := t.writes ++ [⟨w, x.line⟩] }
        State.glnIssue u 1 ((s.updGleaner u (fun g => { g with streams := updFirst p moved g.streams })).glnSend u t.desc.ctx at_.2 .acked d)
      else (s.updGleaner u (fun g => { g with streams := updFirst p (fun t => { t with writes := drop t.writes }) g.streams })).glnSweep u

/-! ## Replies (R29, R338, R410) -/

/-- A core's load or store ends: it retires, or an error is a precise access fault and a fabric error (R334, R338). -/
def State.coreGot (s : State) (c : Nat) (p : Pend) (st : AccStatus) (d : List Byte) : State :=
  let s := s.mapFab (fun f => { f with replies := { src := p.src, tag := p.tag, status := st, data := d } :: f.replies })
  if st = .ok then s.retireIns c else (s.hpmCount c 5).coreTrap c .access (p.zeros = 0) p.addr

/-- A reply reaches its source; one whose GEN or TAG fits nothing outstanding is chaff (R410). -/
def State.reply (s : State) (src : Initiator) (tag : BitVec 12) (gen : BitVec 8) : State :=
  if gen ≠ Tab.get 0#8 s.flt.gens (nodeOf src) then s.chaff (nodeOf src)
  else match s.fab.pend.find? (sameTxn src tag) with
    | none => s.chaff (nodeOf src)
    | some p =>
      match p.answer with
      | none => s
      | some a =>
        let s := s.mapFab (fun f => { f with pend := f.pend.eraseP (sameTxn src tag) })
        match src with
        | .gleaner k g => s.glnGot (8 * k.val + g.val) tag a.1 a.2
        | .core c => s.coreGot c p a.1 a.2
        | _ => s.mapFab (fun f => { f with replies := { src := src, tag := tag, status := a.1, data := a.2 } :: f.replies })

/-- FABRIC_REPLY. -/
def execFabricReply (src : Initiator) (tag : BitVec 12) (gen : BitVec 8) (s : State) : Host.Outcome State Fault Refusal :=
  .next (s.reply src tag gen).settle

end Sys2Proof.Machine
end

