-- ==== Sys2Proof/Machine/Switch.lean ====
section
/-! DEFINITION. The switch: frames received on a port, their streams, filters, gates, meters and 802.1CB functions, the 802.1AS
relay, the transmitters and the ports' links (R318 to R323, Tables 16-1 and 16-2).

Fields of the table entries, as the free readings of `Config.switchField` number them. Table 0x12: 0 kind (0 null stream, 1
IP stream), 1 stream handle, 2 VLAN, 3 destination MAC. Table 0x13: 0 stream handle, 1 maximum SDU, 0 for none, 2 gate and
3 meter, each counted from 1 with 0 for none, 4 delivery (0 none, 1 INGEST, 2 HWA), 5 blocking. Table 0x14: 0 length of the
gate list, then of entry j its state at 1 + 2j and its interval at 2 + 2j. Table 0x15: 0 committed rate, 1 committed burst, 2 excess
rate, 3 excess burst. Table 0x16: 0 stream handle, 1 history length;
entries 0 to 63 generate, 64 to 127 recover. Table 0x18: 0 port mask. -/

namespace Sys2Proof.Machine

/-! ## Streams, filters, gates, meters (802.1CB and 802.1Qci) -/

/-- VLAN of a frame received on port p. -/
def State.vidOf (s : State) (p : Nat) (f : SwFrame) : Nat := match f.vid with | some v => v.toNat | none => (s.portOf p).defVid

/-- Handle of the stream that table 0x12 identifies. -/
def State.streamOf (s : State) (vid : Nat) (f : SwFrame) : Option Nat :=
  (s.swFind 0x12 (fun i =>
    if s.swField 0x12 i 0 = 0 then decide (s.swField 0x12 i 2 = vid) && decide (s.swField 0x12 i 3 = f.dst.toNat)
    else Config.ipStream (s.swImage 0x12) i f.body)).map (fun i => s.swField 0x12 i 1)

/-- Gate g is open now: its list runs from the time its table took effect. -/
def State.gateNow (s : State) (g : Nat) : Bool :=
  let n := min 32 (s.swField 0x14 g 0)
  let l := (List.range n).map (fun j => (s.swField 0x14 g (1 + 2 * j), s.swField 0x14 g (2 + 2 * j)))
  let total := (l.map (·.2)).foldl (· + ·) 0
  if total = 0 then true
  else
    let t := (s.time.swq - Tab.get 0 s.sw.applied 0x14) / 4 % total
    match (List.range n).find? (fun j => decide (t < ((l.take (j + 1)).map (·.2)).foldl (· + ·) 0)) with
    | some j => decide (((l[j]?).map (·.1)).getD 0 % 2 = 1)
    | none => true

/-- Colour of a frame at a flow meter. -/
inductive Colour where
  | green | yellow | red
  deriving DecidableEq, Repr

/-- Parts of a byte in which buckets count: a rate of 1 bit/s adds one in a quarter period of CLK_SW, 0.4 ns. -/
def meterUnit : Nat := 20000000000

/-- A two-rate three-colour meter with committed and excess rate in bit/s and burst in bytes, not coupled and blind to colour: its
buckets start full, and a frame takes from the first that holds it. -/
def meterStep (cir cbs eir ebs now len : Nat) (st : Option MeterSt) : Colour × MeterSt :=
  let fill := fun (have' rate burst dt : Nat) => min (have' + rate * dt) (burst * meterUnit)
  let m : MeterSt := match st with
    | some x => { last := now, committed := fill x.committed cir cbs (now - x.last), excess := fill x.excess eir ebs (now - x.last) }
    | none => { last := now, committed := cbs * meterUnit, excess := ebs * meterUnit }
  let n := len * meterUnit
  if n ≤ m.committed then (.green, { m with committed := m.committed - n })
  else if n ≤ m.excess then (.yellow, { m with excess := m.excess - n })
  else (.red, m)

/-- A frame is offered to meter m: green, or dropped (table 0x15: yellow frames are dropped, not marked). -/
def State.metered (s : State) (m : Nat) (len : Nat) : Bool × State :=
  let x := fun k => s.swField 0x15 m k
  let r := meterStep (x 0) (x 1) (x 2) (x 3) s.time.swq len (Tab.get none s.sw.meters m)
  (r.1 = .green, s.mapSw (fun w => { w with meters := Tab.set none w.meters m (some r.2) }))

/-- Filter i lets a frame pass. -/
def State.filterPass (s : State) (i : Nat) (f : SwFrame) : Bool × State :=
  let x := fun k => s.swField 0x13 i k
  if Tab.get false s.sw.blocked i then (false, s)
  else if x 1 ≠ 0 ∧ x 1 < f.body.length then
    (false, if x 5 = 1 then s.mapSw (fun w => { w with blocked := Tab.set false w.blocked i true }) else s)
  else if x 2 ≠ 0 ∧ !s.gateNow (x 2 - 1) then (false, s)
  else if x 3 ≠ 0 then s.metered (x 3 - 1) f.len
  else (true, s)

/-! ## Sequence generation and recovery (802.1CB) -/

/-- Ethertype of the redundancy tag. -/
def rTag : BitVec 16 := 0xF1C1#16

/-- The generation function of a stream tags the frame with its next sequence number. -/
def State.generate (s : State) (h : Nat) (f : SwFrame) : SwFrame × State :=
  match (List.range (min 64 (s.swLen 0x16))).find? (fun i => decide (s.swField 0x16 i 0 = h)) with
  | none => (f, s)
  | some i =>
    let n := Tab.get 0 s.sw.seqGen i
    ({ f with ethertype := rTag, len := f.len + 6, body := [0, 0] ++ beBytes 2 n ++ beBytes 2 f.ethertype.toNat ++ f.body },
     s.mapSw (fun w => { w with seqGen := Tab.set 0 w.seqGen i ((n + 1) % 65536) }))

/-- Vector recovery: whether a sequence number is accepted, and the number and history after it. -/
def recover (hist : Nat) (st : List Nat) (n : Nat) : Bool × List Nat :=
  match st with
  | [last, bits] =>
    let d := (n + 65536 - last) % 65536
    if d < 32768 ∧ 0 < d then
      if hist ≤ d then (false, st) else (true, [n, (bits * 2 ^ d + 1) % 2 ^ hist])
    else
      let b := (65536 - d) % 65536
      if hist ≤ b then (false, st)
      else if bitsAt bits b 1 = 1 then (false, st)
      else (true, [last, bits + 2 ^ b])
  | _ => (true, [n, 1])

/-- The recovery function of a stream accepts the frame; one without a tag is not accepted. -/
def State.recovered (s : State) (h : Nat) (f : SwFrame) : Bool × State :=
  match (List.range (s.swLen 0x16)).find? (fun i => decide (64 ≤ i) && decide (s.swField 0x16 i 0 = h)) with
  | none => (true, s)
  | some i =>
    if f.ethertype ≠ rTag then (false, s)
    else
      let r := recover (max 1 (min 32 (s.swField 0x16 i 1))) (Tab.get [] s.sw.recov i) (beNat (sub f.body 2 2))
      (r.1, s.mapSw (fun w => { w with recov := Tab.set [] w.recov i r.2 }))

/-! ## 802.1AS relay (R322) -/

def ptpType : BitVec 16 := 0x88F7#16
def ptpMac : BitVec 48 := 0x0180C200000E#48

def isPtp (f : SwFrame) : Bool := f.ethertype = ptpType && f.dst = ptpMac

/-- messageType of a PTP frame: 0 Sync, 8 Follow_Up. -/
def ptpKind (f : SwFrame) : Nat := fld f.body 0 1 % 16

/-- twoStepFlag. -/
def ptpTwoStep (f : SwFrame) : Bool := bitsAt (fld f.body 6 1) 1 1 = 1

/-- sourcePortIdentity and sequenceId. -/
def ptpKey (f : SwFrame) : List Byte := sub f.body 20 12

/-- A residence of `q` quarter periods of CLK_SW in the unit of a correctionField, 1/65536 ns: whole periods of 1.6 ns (R322). -/
def residence (q : Nat) : Nat :=
  let n := q / 4
  let x := n * 524288
  x / 5 + (if x % 5 ≠ 0 ∧ Config.residenceUp n then 1 else 0)

/-- A residence added to the correctionField. -/
def ptpCorrect (f : SwFrame) (periods : Nat) : SwFrame :=
  { f with body := f.body.take 8 ++ beBytes 8 (beNat (sub f.body 8 8) + residence periods) ++ f.body.drop 16 }

def State.relayPort (s : State) (p : Nat) : Bool := decide (1 ≤ s.swLen 0x18) && decide (bitsAt (s.swField 0x18 0 0) p 1 = 1)

/-- Sync and Follow_Up go to the other ports of the set; every other link-local frame of the protocol is dropped. -/
def State.relay (s : State) (p vid : Nat) (f : SwFrame) : State :=
  if s.relayPort p && (ptpKind f = 0 || ptpKind f = 8) then
    forUpto 16 (fun q a => if q ≠ p ∧ s.relayPort q then a.enqueue q (a.trafficClass vid f.pcp.toNat) f else a) s
  else s

/-- A frame leaves port p after `periods` in the switch: its correctionField, and what its Follow_Up will take. -/
def State.ptpLeave (s : State) (p : Nat) (f : SwFrame) (periods : Nat) : SwFrame × State :=
  if !isPtp f then (f, s)
  else if ptpKind f = 0 then
    if ptpTwoStep f then (f, s.mapSw (fun w => { w with syncs := { key := ptpKey f, port := p, periods := periods } :: w.syncs }))
    else (ptpCorrect f periods, s)
  else if ptpKind f = 8 then
    let mine := fun (x : SyncSeen) => decide (x.key = ptpKey f) && decide (x.port = p)
    match s.sw.syncs.find? mine with
    | some x => (ptpCorrect f x.periods, s.mapSw (fun w => { w with syncs := w.syncs.eraseP mine }))
    | none => (f, s)
  else (f, s)

/-! ## Frames for the KCP endpoint (R323) -/

/-- UDP destination port of a frame, where it carries UDP over IPv6. -/
def udpPort (f : SwFrame) : Option Nat :=
  if f.ethertype = 0x86DD#16 ∧ fld f.body 6 1 = 17 then some (beNat (sub f.body 42 2)) else none

/-- UDP payload of such a frame, by the UDP length. -/
def udpPayload (f : SwFrame) : List Byte := (f.body.drop 48).take (beNat (sub f.body 44 2) - 8)

/-- The frame is addressed to the endpoint's MAC, VLAN and UDP port. -/
def State.forKcp (s : State) (vid : Nat) (f : SwFrame) : Bool :=
  decide (f.dst = s.ownMac) && decide (vid = fld s.kcpConf 6 2 % 4096) && decide (udpPort f = some s.kcpPort)

/-- The frame is an IPv6 neighbour solicitation for the endpoint's address. -/
def State.solicits (s : State) (vid : Nat) (f : SwFrame) : Bool :=
  decide (f.ethertype = 0x86DD#16) && decide (vid = fld s.kcpConf 6 2 % 4096) && decide (fld f.body 6 1 = 58) &&
    decide (fld f.body 40 1 = 135) && decide (sub f.body 48 16 = sub s.kcpConf 16 16)

/-- The endpoint answers a solicitation. -/
def State.advertise (s : State) (f : SwFrame) : State :=
  let tci := fld s.kcpConf 6 2
  let body := Config.neighbourAnswer (sub s.kcpConf 0 6) (sub s.kcpConf 16 16) f.body
  s.hostSend { dst := f.src, src := s.ownMac, vid := some (BitVec.ofNat 12 (tci % 4096)), pcp := BitVec.ofNat 3 (tci / 8192),
               ethertype := 0x86DD#16, len := frameLen body true, fcsOk := true, body := body }

/-! ## Reception (R318, R319, R323) -/

/-- A frame goes by the forwarding table, not back to its port. -/
def State.forwardFrame (s : State) (p vid : Nat) (f : SwFrame) : State :=
  match s.fwdPorts vid f.dst with
  | some l => (l.filter (· ≠ p)).foldl (fun a q => a.enqueue q (a.trafficClass vid f.pcp.toNat) f) s
  | none => s.updPort p (fun x => { x with noMatch := x.noMatch + 1 })

/-- A frame that no filter names goes to HOST, or by the forwarding table. -/
def State.plainFrame (s : State) (p vid : Nat) (f : SwFrame) : State :=
  if s.forKcp vid f then s.mapSw (fun w => { w with host := w.host ++ [f] })
  else if s.solicits vid f then s.advertise f
  else s.forwardFrame p vid f

/-- A frame of an identified stream: filter, recovery, delivery or generation and forwarding. -/
def State.streamFrame (s : State) (p vid h : Nat) (f : SwFrame) : State :=
  match s.swFind 0x13 (fun i => decide (s.swField 0x13 i 0 = h)) with
  | none =>
    let r := s.recovered h f
    if r.1 then (let g := r.2.generate h f; g.2.plainFrame p vid g.1) else r.2
  | some i =>
    let d := s.swField 0x13 i 4
    let r := s.filterPass i f
    if !r.1 then r.2.updPort p (fun x => { x with filtered := x.filtered + 1 })
    else
      let q := r.2.recovered h f
      if !q.1 then q.2
      else if d = 1 then q.2.mapSw (fun w => { w with ingest := w.ingest ++ [(p, f)] })
      else if d = 2 then q.2.mapSw (fun w => { w with hwa := w.hwa ++ [(p, f)] })
      else (let g := q.2.generate h f; g.2.forwardFrame p vid g.1)

/-- A frame received on port p; a frame whose FCS fails or that is shorter than 64 bytes is dropped. -/
def State.frameRx (s : State) (p : Nat) (f : SwFrame) : State :=
  if !s.switchOn || !(s.portOf p).up then s
  else if 2048 < f.len then s.updPort p (fun x => { x with tooLong := x.tooLong + 1 })
  else if !f.fcsOk || decide (f.len < 64) then s
  else
    let vid := s.vidOf p f
    let f := if f.vid.isNone then { f with pcp := 0#3 } else f
    if isPtp f then s.relay p vid f
    else match s.streamOf vid f with
      | some h => s.streamFrame p vid h f
      | none => s.plainFrame p vid f

/-! ## Transmitters (R319 to R321) -/

/-- Bytes of the running fragment that are on the wire: 0.8 ns each, two quarter periods of CLK_SW. -/
def TxRun.onWire (r : TxRun) (now : Nat) : Nat := (now - r.start) / 2

/-- Bytes of the frame still to send at the fragment's start. -/
def TxRun.left (r : TxRun) : Nat := r.q.frame.len - r.sent

/-- The frame on the wire can be cut here: an express frame waits, and both fragments keep 64 bytes. -/
def SwPort.canCut (x : SwPort) (r : TxRun) (now : Nat) : Bool :=
  x.preemptable r.cls && x.paused.isNone && (x.pick (fun c => !x.preemptable c)).isSome && decide (64 ≤ r.onWire now) &&
    decide (64 ≤ r.left - r.onWire now)

/-- The transmitter of port p finishes a frame or a fragment, and the next frame is chosen. -/
def State.txDone (s : State) (p : Nat) : State :=
  let x := s.portOf p
  let now := s.time.swq
  match (if s.switchOn then x.sending else none) with
  | none => s
  | some r =>
    if r.left ≤ r.onWire now then
      let g := s.ptpLeave p r.q.frame (r.first - r.q.inQ)
      ((g.2.mapSw (fun w => { w with egress := (p, g.1) :: w.egress })).updPort p (fun x => { x with sending := none })).txNext p
    else if x.canCut r now then
      (s.updPort p (fun x => { x with sending := none, paused := some { r with sent := r.sent + r.onWire now } })).txNext p
    else s

/-- The entry of a Qbv gate control list ends and the next begins. -/
def State.qbvNext (s : State) (p : Nat) : State :=
  let x := s.portOf p
  if !s.switchOn || x.gcl = [] || decide (s.time.swq < x.gclEnd) then s
  else
    let i := (x.gclPos + 1) % x.gcl.length
    (s.updPort p (fun x => { x with gclPos := i, gclEnd := x.gclEnd + 4 * (((x.gcl[i]?).map (·.2)).getD 0) })).txNext p

/-! ## Links (Table 16-1) -/

/-- Frames that a port holds, those that wait in Hayward A for it among them. -/
def SwPort.frames (x : SwPort) : Nat :=
  ((List.range 8).map (fun c => (x.queue c).length)).foldl (· + ·) 0 + bit01 x.sending.isSome + bit01 x.paused.isSome +
    x.hwaOut.length

/-- Link loss: the queues are flushed, and the frames counted; the port's stream shows it (Table 15-8). -/
def State.epDown (s : State) (p : Nat) : State :=
  s.updPort p (fun x => { x with up := false, verified := false, queues := [], sending := none, paused := none, hwaOut := [],
                                 flushed := x.flushed + x.frames })

/-- Link up, with the result of the verification of preemption. -/
def State.epUp (s : State) (p : Nat) (verified : Bool) : State :=
  if !s.switchOn || !s.pins.epTx then s
  else (s.updPort p (fun x => { x with up := true, verified := verified })).txNext p

/-! ## Commands -/

/-- SWITCH_FRAME_RX. -/
def execSwitchFrameRx (port : Fin 16) (f : SwFrame) (s : State) : Host.Outcome State Fault Refusal := .next (s.frameRx port f)

/-- QBV_GATE_ENTRY. -/
def execQbvGateEntry (port : Fin 16) (s : State) : Host.Outcome State Fault Refusal := .next (s.qbvNext port)

/-- EP_LINK_DOWN. -/
def execEpLinkDown (port : Fin 16) (s : State) : Host.Outcome State Fault Refusal := .next (s.epDown port)

/-- EP_LINK_UP. -/
def execEpLinkUp (port : Fin 16) (verified : Bool) (s : State) : Host.Outcome State Fault Refusal := .next (s.epUp port verified)

/-- EGRESS_FRAME_SENT. -/
def execEgressFrameSent (port : Fin 16) (s : State) : Host.Outcome State Fault Refusal := .next (s.txDone port)

end Sys2Proof.Machine
end

