-- ==== Sys2Proof/Machine/Kcp.lean ====
section
/-! DEFINITION. The Kyosin Command Protocol endpoint: sessions, the request queue and the operations of Table 16-4 (R324 to R331,
R466 to R468, R506). -/

namespace Sys2Proof.Machine

/-! ## Frames (R324, R325) -/

/-- A KCP frame as its fields. -/
structure KFrame where
  ty      : Nat
  session : Nat
  op      : Nat
  status  : Nat
  seq     : BitVec 64
  len     : Nat
  rsvd    : Bool         -- every RSVD byte is 0
  hp      : List Byte    -- header and payload
  payload : List Byte
  tag     : List Byte
  deriving DecidableEq, Repr

def kframeOf (b : List Byte) : KFrame :=
  { ty := fld b 3 1, session := fld b 4 1, op := fld b 5 1, status := fld b 6 1, seq := BitVec.ofNat 64 (beNat (sub b 8 8)),
    len := beNat (sub b 16 2), rsvd := fld b 7 1 = 0 && fld b 18 6 = 0, hp := b.take (b.length - 16),
    payload := (b.take (b.length - 16)).drop 24, tag := b.drop (b.length - 16) }

/-- The header is in range for a frame from a host: MAGIC, VERSION, STATUS, RSVD, LENGTH against the UDP payload. -/
def kframeOk (b : List Byte) (k : KFrame) : Bool :=
  decide (40 ≤ b.length) && decide (beNat (sub b 0 2) = 0x4B43) && decide (fld b 2 1 = 1) && decide (k.status = 0) && k.rsvd &&
    decide (k.len ≤ 1152) && decide (b.length = 40 + k.len)

def KFrame.tagOk (k : KFrame) (key : BitVec 256) (session : Nat) : Bool := k.tag = kcpTag key session 0 k.seq.toNat k.hp

def State.session? (s : State) (n : Nat) : Option Session := Tab.get none s.kcp.sessions n

def State.setSession (s : State) (n : Nat) (x : Option Session) : State :=
  s.mapKcp (fun k => { k with sessions := Tab.set none k.sessions n x })

/-- SEQ is above the last one accepted, if any. -/
def seqAbove (last : Option (BitVec 64)) (n : BitVec 64) : Bool := match last with | some l => decide (l.toNat < n.toNat) | none => true

/-- A frame dropped without response. -/
def State.kcpDrop (s : State) : State := s.mapKcp (fun k => { k with dropped := k.dropped + 1 })

/-- The endpoint runs: it stops with SW_REFCLK and while the switch is in reset. -/
def State.kcpOn (s : State) : Bool := s.switchOn

/-! ## Answers -/

/-- Send a KCP frame to the sender of a frame, tagged under a key. -/
def State.kcpSend (s : State) (key : BitVec 256) (nonce : Nat) (r : KcpResp) (peer : Option SwFrame) : State :=
  let hp := kcpHeader r.ftype r.session r.op r.status r.seq.toNat r.payload.length ++ r.payload
  let s := s.mapKcp (fun k => { k with sent := r :: k.sent })
  match peer with
  | none => s
  | some f => s.hostSend (s.udpFrame f.src (sub f.body 8 16) (beNat (sub f.body 40 2)) (fld s.kcpConf 6 2)
      (hp ++ kcpTag key nonce 1 r.seq.toNat hp))

/-- The head request has been performed: its response leaves, unless the session it was accepted in has closed meanwhile; a later
session of the same number is another. -/
def State.kcpAnswer (s : State) (q : KcpReq) (status : Nat) (payload : List Byte) : State :=
  let s := s.mapKcp (fun k => { k with queue := k.queue.drop 1, copying := false })
  match (s.session? q.session).filter (fun x => x.key = q.key) with
  | none => s
  | some x => s.kcpSend x.key q.session
      { ftype := 2, session := q.session, op := q.op, status := status, seq := q.seq, payload := payload } q.peer

/-- Requests at the head whose OP is not in Table 16-4 complete with BAD_OP. -/
def kcpFlush : Nat → State → State
  | 0, s => s
  | n + 1, s =>
    match s.kcp.queue with
    | q :: _ => if 1 ≤ q.op ∧ q.op ≤ 7 then s else kcpFlush n (s.kcpAnswer q 0x01 [])
    | [] => s

/-! ## Operations (R328 to R331) -/

/-- How an operation ends: its STATUS and response payload. -/
structure KDone where
  status  : Nat
  payload : List Byte
  deriving DecidableEq, Repr

def kDone (st : Nat) : KDone := { status := st, payload := [] }

/-- Causes that come before the arguments: the session's right, READY for the mailbox's operations, and the master. -/
def State.kcpGate (s : State) (q : KcpReq) : Option Nat :=
  let mbx := decide (2 ≤ q.op) && decide (q.op ≤ 5)
  if !mbx && q.op ≠ 7 then none
  else if !q.write then some 0x06
  else if mbx && !s.mbx.ready then some 0x05
  else if s.mbx.master ≠ 1#2 then some 0x04
  else none

/-- Read words of the IOD block from `off` on: none where a word answers with an error. -/
def kcpReadWords : Nat → Nat → State → Option (List Byte) × State
  | 0, _, s => (some [], s)
  | n + 1, off, s =>
    match s.regRead .kcp 4 off 4 with
    | (.ok, b, t) => let r := kcpReadWords n (off + 4) t; (r.1.map (b ++ ·), r.2)
    | (_, _, t) => (none, t)

/-- REG_READ. -/
def State.kcpRegRead (s : State) (p : List Byte) : KDone × State :=
  let off := beNat (sub p 0 4)
  let n := beNat (sub p 4 2)
  if p.length ≠ 6 ∨ off % 4 ≠ 0 ∨ n = 0 ∨ 256 < n then (kDone 0x02, s)
  else if 0x1000000 < off + 4 * n then (kDone 0x03, s)
  else match kcpReadWords n off s with
    | (some b, t) => ({ status := 0, payload := b }, t)
    | (none, t) => (kDone 0x0A, t)

/-- SLOT_WRITE. -/
def State.kcpSlotWrite (s : State) (p : List Byte) : KDone × State :=
  let slot := fld p 0 1
  let off := beNat (sub p 2 2)
  let d := p.drop 4
  if slot > 15 ∨ d = [] ∨ 256 < off + d.length then (kDone 0x02, s)
  else if s.slotFree slot then (kDone 0, s.bodyWrite slot off d) else (kDone 0x08, s.bodyWrite slot off d)

/-- SLOT_POST: the body from byte 0, then the doorbell with the body's SEQ. -/
def State.kcpSlotPost (s : State) (p : List Byte) : KDone × State :=
  let slot := fld p 0 1
  let d := p.drop 4
  if slot > 15 ∨ d.length ≠ beNat (sub p 2 2) ∨ d.length < 32 ∨ 256 < d.length then (kDone 0x02, s)
  else if s.slotFree slot then (kDone 0, (s.bodyWrite slot 0 d).ring slot (BitVec.ofNat 16 (fld d 2 2)))
  else (kDone 0x08, s.bodyWrite slot 0 d)

/-- DOORBELL. -/
def State.kcpDoorbell (s : State) (p : List Byte) : KDone × State :=
  let slot := fld p 0 1
  if slot > 15 ∨ p.length ≠ 4 then (kDone 0x02, s)
  else (kDone (if s.slotFree slot then 0 else 0x08), s.ring slot (BitVec.ofNat 16 (beNat (sub p 2 2))))

/-- RELEASE. -/
def State.kcpRelease (s : State) (p : List Byte) : KDone × State :=
  if p.length ≠ 2 then (kDone 0x02, s) else (kDone 0, s.releaseSlots (beNat p))

/-- Response of LEDGER_READ from window 0. -/
def State.kcpWindow (s : State) (n off len : Nat) : KDone :=
  let x := s.winOf 0
  let head := fun (l : Nat) => beBytes 8 n ++ [BitVec.ofNat 8 x.wstate.toNat, 0] ++ beBytes 2 l ++ [0, 0, 0, 0]
  if x.wstate = 2#3 then { status := 0, payload := head len ++ sub x.bytes off len } else { status := 0x07, payload := head 0 }

/-- LEDGER_READ: none while the window's copy runs. It selects the epoch unless window 0 holds it (R329). -/
def State.kcpLedger (s : State) (p : List Byte) : Option KDone × State :=
  let n := beNat (sub p 0 8)
  let off := beNat (sub p 8 2)
  let len := beNat (sub p 10 2)
  let x := s.winOf 0
  if p.length ≠ 12 ∨ off % 4 ≠ 0 ∨ len % 4 ≠ 0 ∨ 8188 < off ∨ len < 4 ∨ 1024 < len ∨ 8192 < off + len then (some (kDone 0x02), s)
  else if s.kcp.copying then (if x.wstate = 1#3 then (none, s) else (some (s.kcpWindow n off len), s))
  else if x.wanted = n ∧ x.wstate = 2#3 then (some (s.kcpWindow n off len), s)
  else
    (none, (s.updWin 0 (fun x => { x with selHi := BitVec.ofNat 32 (n / 2 ^ 32), selLo := BitVec.ofNat 32 n, wstate := 1#3, copy := none })).mapKcp
      (fun k => { k with copying := true }))

/-- The range of BULK_WRITE lies in the staging range, or in the HBM range of a context that the boot configuration names. -/
def State.staged (s : State) (a n : Nat) : Bool :=
  (decide (s.kcp.stageLo ≤ a) && decide (a + n ≤ s.kcp.stageHi)) ||
    s.kcp.named.any (fun c => let x := s.ctxOf c; x.state ≠ 0 && decide (x.base ≤ a) && decide (a + n ≤ x.base + x.len))

/-- BULK_WRITE. -/
def State.kcpBulk (s : State) (p : List Byte) : KDone × State :=
  let a := beNat (sub p 0 5)
  let d := p.drop 8
  if a % 64 ≠ 0 ∨ d.length < 64 ∨ 1024 < d.length ∨ d.length % 64 ≠ 0 then (kDone 0x02, s)
  else if !s.staged a d.length then (kDone 0x09, s)
  else match s.store { whoKcp with anyHbm := true } a d with
    | (.ok _, t) => (kDone 0, t)
    | (.error _, t) => (kDone 0x0A, t)

/-- Perform the head request when it asks for operation `op`. -/
def State.kcpPerform (s : State) (op : Nat) (f : List Byte → State → Option KDone × State) : State :=
  match (if s.kcpOn then s.kcp.queue else []) with
  | [] => s
  | q :: _ =>
    if q.op ≠ op then s
    else match s.kcpGate q with
      | some st => kcpFlush 16 (s.kcpAnswer q st [])
      | none =>
        match f q.payload s with
        | (some d, t) => kcpFlush 16 (t.kcpAnswer q d.status d.payload)
        | (none, t) => t

/-! ## Sessions (R326, R467) -/

/-- A session is opened for credential c, with its host nonce. SESSION is one of the numbers free: the spec does not say
which. Of a BUSY answer it states CRED and STATUS alone. -/
def State.kcpOpen (s : State) (b : List Byte) (peer : Option SwFrame) : State :=
  let k := kframeOf b
  let c := fld k.payload 0 1
  match (s.kcp.creds[c]?).join with
  | none => s.kcpDrop
  | some cr =>
    let psk := keyBytes cr.key
    let kOpen := keyOf (sha384 (asciiBytes "GX4-KCP-OPEN" ++ psk))
    if !kframeOk b k ∨ k.session ≠ 0 ∨ k.op ≠ 0 ∨ k.len ≠ 64 ∨ !k.tagOk kOpen 0 ∨ !seqAbove cr.lastSeq k.seq then s.kcpDrop
    else
      let s := s.mapKcp (fun x => { x with creds := x.creds.set c (some { cr with lastSeq := some k.seq }) })
      match [1, 2, 3, 4].filter (fun n => (s.session? n).isNone) with
      | [] =>
        let r := s.freeBytes 64
        r.2.kcpSend kOpen 0 { ftype := 0x11, session := fld r.1 0 1, op := 0, status := 0x0B, seq := k.seq,
                              payload := BitVec.ofNat 8 c :: r.1.drop 1 } peer
      | l =>
        let w := s.freeWord
        let n := l.getD (w.1.toNat % l.length) 1
        let dn := leBytes 32 (Config.vaultRandom s.sec.rng).toNat
        let key := sha384 (asciiBytes "GX4-KCP-SESS" ++ psk ++ sub k.payload 32 32 ++ dn ++
          leBytes 8 s.pair.serial.toNat ++ [BitVec.ofNat 8 n])
        let s := (w.2.mapSec (fun x => { x with rng := x.rng + 1 })).setSession n
          (some { cred := c, key := keyOf key, write := cr.write, lastSeq := none, lastTick := s.now })
        s.kcpSend kOpen 0 { ftype := 0x11, session := n, op := 0, status := 0, seq := k.seq,
                            payload := [BitVec.ofNat 8 c, BitVec.ofNat 8 n, if cr.write then 2 else 1] ++ List.replicate 29 0 ++ dn } peer

/-- SESSION_CLOSE: no response. -/
def State.kcpClose (s : State) (b : List Byte) : State :=
  let k := kframeOf b
  match (if kframeOk b k && decide (k.op = 0) && decide (k.len = 0) then s.session? k.session else none) with
  | none => s.kcpDrop
  | some x => if k.tagOk x.key k.session && seqAbove x.lastSeq k.seq then s.setSession k.session none else s.kcpDrop

/-- A REQUEST is queued; at a full queue it is dropped and its SEQ is not taken. -/
def State.kcpRequest (s : State) (b : List Byte) (peer : Option SwFrame) : State :=
  let k := kframeOf b
  match (if kframeOk b k && decide (k.ty = 1) then s.session? k.session else none) with
  | none => s.kcpDrop
  | some x =>
    if !k.tagOk x.key k.session || !seqAbove x.lastSeq k.seq then s.kcpDrop
    else if 16 ≤ s.kcp.queue.length then s.mapKcp (fun y => { y with full := y.full + 1 })
    else
      let r : KcpReq := { session := k.session, op := k.op, seq := k.seq, payload := k.payload, peer := peer, key := x.key, write := x.write }
      kcpFlush 16 ((s.setSession k.session (some { x with lastSeq := some k.seq, lastTick := s.now })).mapKcp (fun y =>
        { y with queue := y.queue ++ [r] }))

/-- The frame at HOST that carries these bytes, taken from the switch's list. -/
def State.hostFrame (s : State) (b : List Byte) : Option SwFrame × State :=
  let mine := fun (f : SwFrame) => decide (udpPayload f = b)
  (s.sw.host.find? mine, s.mapSw (fun w => { w with host := w.host.eraseP mine }))

/-- A KCP frame reaches HOST, by its TYPE. -/
def State.kcpRx (s : State) (b : List Byte) : State :=
  if !s.kcpOn then s
  else
    let h := s.hostFrame b
    match fld b 3 1 with
    | 0x10 => h.2.kcpOpen b h.1
    | 0x12 => h.2.kcpClose b
    | _ => h.2.kcpRequest b h.1

/-- A session in which no request has been accepted for SESSION_IDLE ticks closes. -/
def State.sessionIdle (s : State) (n : Nat) : State :=
  match s.session? n with
  | some x => if s.awake && decide (x.lastTick + s.kcp.idle ≤ s.now) then s.setSession n none else s
  | none => s

/-! ## Commands -/

/-- KCP_FRAME_RX. -/
def execKcpFrameRx (frame : List Byte) (s : State) : Host.Outcome State Fault Refusal := .next (s.kcpRx frame)

/-- REG_READ. -/
def execRegRead (s : State) : Host.Outcome State Fault Refusal :=
  .next (s.kcpPerform 1 (fun p t => let r := t.kcpRegRead p; (some r.1, r.2)))

/-- SLOT_WRITE. -/
def execSlotWrite (s : State) : Host.Outcome State Fault Refusal :=
  .next (s.kcpPerform 2 (fun p t => let r := t.kcpSlotWrite p; (some r.1, r.2)))

/-- SLOT_POST. -/
def execSlotPost (s : State) : Host.Outcome State Fault Refusal :=
  .next (s.kcpPerform 3 (fun p t => let r := t.kcpSlotPost p; (some r.1, r.2)))

/-- DOORBELL. -/
def execDoorbell (s : State) : Host.Outcome State Fault Refusal :=
  .next (s.kcpPerform 4 (fun p t => let r := t.kcpDoorbell p; (some r.1, r.2)))

/-- RELEASE. -/
def execRelease (s : State) : Host.Outcome State Fault Refusal :=
  .next (s.kcpPerform 5 (fun p t => let r := t.kcpRelease p; (some r.1, r.2)))

/-- LEDGER_READ: the first time the epoch is selected where window 0 does not hold it, then, the copy done, the answer. -/
def execLedgerRead (s : State) : Host.Outcome State Fault Refusal := .next (s.kcpPerform 6 (fun p t => t.kcpLedger p))

/-- BULK_WRITE. -/
def execBulkWrite (s : State) : Host.Outcome State Fault Refusal :=
  .next (s.kcpPerform 7 (fun p t => let r := t.kcpBulk p; (some r.1, r.2)))

/-- SESSION_OPEN. -/
def execSessionOpen (frame : List Byte) (s : State) : Host.Outcome State Fault Refusal :=
  .next (if s.kcpOn then (let h := s.hostFrame frame; if fld frame 3 1 = 0x10 then h.2.kcpOpen frame h.1 else h.2.kcpDrop) else s)

/-- SESSION_CLOSE. -/
def execSessionClose (frame : List Byte) (s : State) : Host.Outcome State Fault Refusal :=
  .next (if s.kcpOn then (let h := s.hostFrame frame; if fld frame 3 1 = 0x12 then h.2.kcpClose frame else h.2.kcpDrop) else s)

/-- SESSION_IDLE_EXPIRY of session 1 to 4. -/
def execSessionIdleExpiry (session : Fin 4) (s : State) : Host.Outcome State Fault Refusal := .next (s.sessionIdle (session + 1))

end Sys2Proof.Machine
end

