-- ==== Sys2Proof/Machine/Denpa.lean ====
section
/-! DEFINITION. The Denpa link: frames, acknowledgement and replay, credits, link faults and training (R371 to R376). -/

namespace Sys2Proof.Machine

/-- The link can train and carry frames: the package runs, DNP_REFCLK is there and the subsystem is not in reset. -/
def State.dnpOn (s : State) : Bool := s.awake && !Tab.get false s.flt.refLost 4 && !Tab.get false s.flt.iodSub 1

/-! ## Training (R373, R375) -/

/-- A training attempt begins: sequence numbers and credits start anew, and IDENT is ready to go. -/
def State.dnpTrain (s : State) : State :=
  let ident := msgBytes (.ident s.pair.serial (BitVec.ofNat 8 (bitsAt (s.dieIdWord 4).toNat 16 8)) 1#8)
  (s.mapDnp (fun d =>
    { d with state := 1, changed := s.time.dnp, txSeq := 0#12, rxSeq := 0#12, nak := false, crcRun := 0, unacked := [], replay := [],
             out := [(0, ident)], inp := [], credits := [], handed := [], acked := [], starved := [], msgs := [] })).mapPair
    (fun p => { p with twin := none, hbSent := false })

/-- The attempt fails; it is retried 1,000,000 periods later. -/
def State.dnpFail (s : State) : State := s.mapDnp (fun d => { d with state := 3, changed := s.time.dnp, out := [], msgs := [] })

/-- The link is up: credits are granted (Table 19-3). -/
def State.dnpUp (s : State) : State :=
  (s.mapDnp (fun d => { d with state := 2, changed := s.time.dnp, credits := [(1, 32), (2, 512), (3, 8192)] })).tryJoin.rehCheck

/-- The end of a training attempt: with IDENT exchanged the link comes up. -/
def State.dnpTrained (s : State) (ok : Bool) : State :=
  if !s.dnpOn ∨ s.dnp.state ≠ 1 then s
  else if !ok then s.dnpFail
  else if s.pair.twin.isSome then s.dnpUp
  else s

/-- A failed attempt is tried again. -/
def State.dnpRetry (s : State) : State :=
  if s.dnpOn ∧ s.dnp.state = 3 ∧ s.dnp.changed + 1000000 ≤ s.time.dnp then s.dnpTrain else s

/-- Retraining after a link fault. -/
def State.dnpRetrain (s : State) : State :=
  if s.dnpOn ∧ s.dnp.state = 0 ∧ s.dnp.changed + 10000 ≤ s.time.dnp then s.dnpTrain else s

/-! ## Sending (R372 to R374) -/

/-- The lowest channel that has data and credit. -/
def DnpS.ready (d : DnpS) : Option Nat :=
  [0, 1, 2, 3].find? (fun c => Tab.get [] d.out c ≠ [] && (c = 0 || decide (0 < Tab.get 0 d.credits c)))

/-- Bytes 0 to 251 of a frame (Table 19-2). -/
def frameBytes (ch fseq ack : Nat) (nak : Bool) (payload : List Byte) : List Byte :=
  leBytes 4 (((ch * 4096 + fseq) * 4096 + ack) * 16 + 8 * bit01 nak) ++ pad 248 payload

/-- A frame with this module's acknowledgement. -/
def DnpS.frame (d : DnpS) (ch : Nat) (fseq : BitVec 12) (payload : List Byte) : DFrame :=
  { ch := BitVec.ofNat 4 ch, fseq := fseq, ackSeq := d.rxSeq, nak := d.nak, payload := pad 248 payload,
    crc := crc32 (frameBytes ch fseq.toNat d.rxSeq.toNat d.nak payload) }

/-- One frame goes out: a replayed one, else data of the lowest channel with credit, else an idle frame. -/
def DnpS.sendFrame (d : DnpS) (now : Nat) : DnpS :=
  let put := fun (d : DnpS) (ch : Nat) (q : BitVec 12) (p : List Byte) =>
    { d with sent := d.frame ch q p :: d.sent, nak := false, lastTx := now }
  match d.replay with
  | f :: r => put { d with replay := r } f.ch f.fseq f.payload
  | [] =>
    match d.ready with
    | some c =>
      let l := Tab.get [] d.out c
      let q := d.txSeq + 1
      let f : TxFrame := { fseq := q, ch := c, payload := l.take 248, sent := now }
      (put { d with txSeq := q, unacked := d.unacked ++ [f], out := Tab.set [] d.out c (l.drop 248),
                    credits := if c = 0 then d.credits else Tab.upd 0 d.credits c (· - 1) } c q f.payload).restarve now
    | none => put d 15 d.txSeq []

/-- A frame takes four periods. -/
def State.dnpSend (s : State) : State :=
  if s.dnpOn ∧ (s.dnp.state = 1 ∨ s.dnp.state = 2) ∧ s.dnp.lastTx + 4 ≤ s.time.dnp then s.mapDnp (·.sendFrame s.time.dnp) else s

/-! ## Receiving (R373, R376) -/

/-- Whole messages at the front of a channel's bytes, and what is left. A zero TYPE begins the filling of a frame. -/
def parseMsgs : Nat → List Byte → List (Option DMsg) × List Byte
  | 0, l => ([], l)
  | n + 1, l =>
    match l with
    | [] => ([], [])
    | t :: _ =>
      if t = 0 then ([], [])
      else if l.length < 8 ∨ l.length < 8 + fld l 2 2 then ([], l)
      else
        let len := fld l 2 2
        let r := parseMsgs n (l.drop (8 + len))
        (msgOfBody t.toNat (sub l 8 len) :: r.1, r.2)

/-- Frames that an ACK_SEQ covers: the oldest ones up to the one it names. -/
def coveredBy (ack : BitVec 12) (l : List TxFrame) : Nat := match l.findIdx? (fun f => f.fseq = ack) with | some i => i + 1 | none => 0

/-- ACK_SEQ and NAK of a good frame. -/
def DnpS.takeAck (d : DnpS) (ack : BitVec 12) (nak : Bool) : DnpS :=
  let n := coveredBy ack d.unacked
  let done := d.unacked.take n
  let rest := d.unacked.drop n
  { d with unacked := rest, acked := done.foldl (fun t f => Tab.upd 0 t f.ch (· + f.payload.length)) d.acked,
           replay := if nak then rest else d.replay.filter (fun f => rest.contains f) }

/-- A frame in order: its bytes join their channel, whole messages wait to be handled, and its buffer's credit goes back. -/
def DnpS.accept (d : DnpS) (c : Nat) (fseq : BitVec 12) (payload : List Byte) : DnpS :=
  let l := Tab.get [] d.inp c ++ payload
  let r := parseMsgs (l.length + 1) l
  let back := if c = 0 then [] else msgBytes (.credit (BitVec.ofNat 8 c) 1#32)
  { d with rxSeq := fseq, inp := Tab.set [] d.inp c r.2, msgs := d.msgs ++ r.1.filterMap id,
           faults := d.faults + (r.1.filter Option.isNone).length, out := Tab.upd [] d.out 0 (· ++ back) }

/-- A frame arrives. -/
def State.dnpRecv (s : State) (f : DFrame) : State :=
  if !s.dnpOn ∨ (s.dnp.state ≠ 1 ∧ s.dnp.state ≠ 2) then s
  else if f.crc ≠ crc32 (frameBytes f.ch.toNat f.fseq.toNat f.ackSeq.toNat f.nak f.payload) then
    let s := s.mapDnp (fun d => { d with crcRun := d.crcRun + 1, nak := true })
    if 4 ≤ s.dnp.crcRun ∧ s.linkUp then s.linkFault else s
  else
    s.mapDnp (fun d =>
      let d := ({ d with crcRun := 0 } : DnpS).takeAck f.ackSeq f.nak
      if f.ch = 15#4 then { d with nak := d.nak || f.fseq != d.rxSeq }
      else if f.fseq = d.rxSeq + 1 ∧ f.ch.toNat < 4 then d.accept f.ch.toNat f.fseq (pad 248 f.payload)
      else { d with nak := true })

/-! ## Timeouts (R373, R374) -/

/-- The oldest frame has not been acknowledged within 2,000 periods of its first transmission. -/
def State.dnpAckLate (s : State) : State :=
  if s.linkUp ∧ s.dnp.unacked.any (fun f => decide (f.sent + 2000 < s.time.dnp)) then s.linkFault else s

/-- A channel has held data without credit for 100,000 periods. -/
def State.dnpStarved (s : State) (c : Nat) : State :=
  match Tab.get none s.dnp.starved c with
  | some t => if s.linkUp ∧ t + 100000 ≤ s.time.dnp then s.linkFault else s
  | none => s

/-! ## Commands -/

/-- DENPA_TRAINING_DONE. -/
def execDenpaTrainingDone (ok : Bool) (s : State) : Host.Outcome State Fault Refusal := .next (s.dnpTrained ok)

/-- DENPA_TRAINING_RETRY. -/
def execDenpaTrainingRetry (s : State) : Host.Outcome State Fault Refusal := .next s.dnpRetry

/-- DENPA_RETRAIN_START. -/
def execDenpaRetrainStart (s : State) : Host.Outcome State Fault Refusal := .next s.dnpRetrain

/-- DENPA_FRAME_RX. -/
def execDenpaFrameRx (f : DFrame) (s : State) : Host.Outcome State Fault Refusal := .next (s.dnpRecv f).settle.carryCheck

/-- DENPA_FRAME_TX. -/
def execDenpaFrameTx (s : State) : Host.Outcome State Fault Refusal := .next s.dnpSend

/-- DENPA_ACK_TIMEOUT. -/
def execDenpaAckTimeout (s : State) : Host.Outcome State Fault Refusal := .next s.dnpAckLate.settle.carryCheck

/-- DENPA_CREDIT_TIMEOUT. -/
def execDenpaCreditTimeout (ch : Fin 4) (s : State) : Host.Outcome State Fault Refusal := .next (s.dnpStarved ch).settle.carryCheck

end Sys2Proof.Machine
end

