-- ==== Sys2Proof/Machine/Messages.lean ====
section
/-! DEFINITION. What each message of Table 19-5 does where it is received: roles, epochs, carried commands, agreement, joins and
forwarded samples (R86, R314, R377 to R391). -/

namespace Sys2Proof.Machine

/-! ## Receiving -/

/-- A message that the link has delivered is taken from the list of those that wait. -/
def State.takeMsg (s : State) (m : DMsg) : State := s.mapDnp (fun d => { d with msgs := d.msgs.erase m })

/-- The endpoint of a channel takes a message and acts on it. -/
def State.recvMsg (s : State) (on : Bool) (m : DMsg) (f : State → State) : State := if on then (f (s.takeMsg m)).settle.carryCheck else s

/-- Endpoint of channel 1. -/
def State.ch1On (s : State) : Bool := s.linkUp && s.islandOn false && s.mbx.ready

/-- Endpoint of channel 2, and of the carried data of channel 3. -/
def State.ch2On (s : State) : Bool := s.linkUp && s.reeveOn

/-- Note what the twin says about an epoch that is open, or whose open event is held. -/
def State.updTwin (s : State) (n : BitVec 64) (f : TwinEp → TwinEp) : State :=
  if (s.openEp? n).isSome then s.updEp n (fun e => { e with twin := f e.twin })
  else if s.pair.openHeld.any (fun h => h.1.epoch = n) then
    s.mapPair (fun p => { p with earlyTwin := (n, f (s.earlyTwin n)) :: p.earlyTwin.filter (fun x => x.1 ≠ n) })
  else s

/-! ## Link control -/

/-- CREDIT: frames of a channel have been freed (R374). -/
def State.gotCredit (s : State) (c n : Nat) : State :=
  if 1 ≤ c ∧ c ≤ 3 then s.mapDnp (fun d => ({ d with credits := Tab.upd 0 d.credits c (· + n) } : DnpS).restarve s.time.dnp) else s

/-- IDENT: this module's own serial, or another interface version, fails the attempt (R375). -/
def State.gotIdent (s : State) (serial : BitVec 64) (rev ifVer : BitVec 8) : State :=
  if s.dnp.state ≠ 1 then s
  else if serial = s.pair.serial ∨ ifVer ≠ 1#8 then s.dnpFail
  else s.mapPair (fun p => { p with twin := some (serial, rev) })

/-! ## Roles (R384 to R390) -/

/-- The role at start, once both modules have exchanged ROLE_HB and neither commands (R386). -/
def State.roleAtStart (s : State) : State :=
  let idle := fun (v : Nat) => v = 3 ∨ v = 4
  if idle s.pair.pstate.toNat ∧ idle s.pair.twinState.toNat ∧ s.seesTwin ∧ s.pair.hbSent ∧ s.mbx.ready then
    let lower := match s.pair.twin with | some t => decide (s.pair.serial.toNat < t.1.toNat) | none => false
    let mine := if lower then s.canCmd else !s.pair.twinCan
    if mine then s.setPState (if s.tly.opened = 0#64 ∧ s.tly.configGen = 0#64 then 1#3 else 0#3)
    else if s.pair.pstate = 4#3 ∧ s.pair.twinOpened = 0#64 ∧ s.pair.twinGen = 0#64 then s.setPState 2#3
    else s.setPState 3#3
  else s

/-- ROLE_HB. A twin that has left, or a commander that has gone on alone, ends the pair. -/
def State.gotHb (s : State) (p : BitVec 8) (can : Bool) (o d g : BitVec 64) : State :=
  let old := s.pair.twinState
  let s := s.mapPair (fun x =>
    { x with twinHb := some s.now, twinState := p, twinCan := can, twinOpened := o, twinDecided := d, twinGen := g })
  let s := if s.pair.pstate = 1#3 ∧ old = 2#8 ∧ (p = 3#8 ∨ p = 4#8) then s.twinLeaves
    else if s.pair.pstate = 2#3 ∧ old = 1#8 ∧ p ≠ 1#8 then s.leavePair
    else s
  s.roleAtStart.tryJoin

/-- RESIGN: the standby takes the role and goes on alone, or for a role swap becomes commander with its twin as standby. With
cause 1 the commander says that its copy of the first epoch does not stand, which resolves a mismatch there (Table 19-7). -/
def State.gotResign (s : State) (cause : Nat) (first : BitVec 64) : State :=
  if s.pair.pstate = 2#3 ∨ s.pair.pstate = 5#3 then
    (if cause = 3 then
      let s := (s.cmds.active.filter (fun a => a.remote && a.opcode = 0x50)).foldl State.noteApplied s
      let s := s.dropRemote.resumeSched
      (s.mapPair (fun x => { x with expelled := none })).setPState 1#3
    else (if cause = 1 then s.updEp first (fun e => if e.mismatch then { e with twin := { e.twin with resolved := some true } } else e)
      else s).takeRole 0#3)
  else s

/-- EXPEL: this module leaves once it has written its record of the epoch. -/
def State.gotExpel (s : State) (n : BitVec 64) : State :=
  if s.pair.pstate ≠ 2#3 then s
  else if (s.openEp? n).isSome then s.mapPair (fun p => { p with expelled := some n })
  else s.leavePair

/-! ## Opening (R377, R391) -/

/-- The commands that an OPEN lists apply in a joiner that runs no epochs yet. -/
def State.applyListed (s : State) (n : BitVec 64) (l : List (BitVec 8 × BitVec 16)) : State :=
  (s.cmds.active.filter (fun a => a.remote && a.phase = .pending && l.contains (BitVec.ofNat 8 a.slot, a.seq))).foldl (fun t a => t.applyOne n a) s

/-- A joiner opens an epoch in shadow: a fifth one makes it abandon its oldest. -/
def State.openShadow (s : State) (n : BitVec 64) (deadline : Nat) (l : List (BitVec 8 × BitVec 16)) : State :=
  let s := match s.tly.openEps with
    | e :: _ => if 4 ≤ s.tly.openEps.length then (s.dropEpoch e.n).mapPair (fun p => { p with matchRun := 0 }) else s
    | [] => s
  s.openEpoch n deadline true false (some l)

/-- The joiner becomes STANDBY: epochs run in shadow are given up. -/
def State.joined (s : State) : State :=
  let s := s.tly.openEps.foldl (fun a e => a.dropEpoch e.n) s
  ((s.mapPair (fun p => { p with joinSent := false, joinHas := false, joinFirst := false, matchRun := 0 })).setPState 2#3).rehCheck

/-- OPEN. -/
def State.gotOpen (s : State) (n : BitVec 64) (deadline : Nat) (paired first : Bool) (l : List (BitVec 8 × BitVec 16)) : State :=
  if (s.openEp? n).isSome then s
  else if s.pair.pstate = 2#3 then s.openEpoch n deadline true false (some l)
  else if s.pair.pstate = 3#3 ∧ s.pair.joinHas then
    (if paired ∧ s.pair.joinFirst then s.joined.openEpoch n deadline true false (some l)
    else
      let s := if first then s.mapPair (fun p => { p with joinFirst := true, matchRun := 0 }) else s
      if s.pair.joinFirst ∧ s.replaysDone then s.openShadow n deadline l else s.applyListed n l)
  else s

/-! ## Carried commands (R379) -/

/-- A carried command whose data is complete is validated: class E is answered at once, class B when its work ends. -/
def State.takeCfg (s : State) (slot : Nat) (b : List Byte) : State :=
  let s := s.mapCmds (fun c => { c with active := c.active.filter (fun a => !(a.remote && a.slot = slot)) })
  let a := { s.actOf slot b with remote := true }
  match (match s.epochBad b with | some e => Except.error e | none => s.validate a) with
  | .error e => s.answerCfg slot a.seq e.code e.detail
  | .ok a => if cmdClass a.opcode = some .back then s.accept a else (s.answerCfg slot a.seq 0 (some 0)).accept a

/-- CFG bodies whose data has come are taken, oldest first. -/
def cfgTake : Nat → State → State
  | 0, s => s
  | f + 1, s =>
    match s.pair.cfgBodies with
    | (slot, b, need) :: r =>
      if need ≤ s.pair.cfgGot then
        cfgTake f ((s.mapPair (fun p => { p with cfgBodies := r, cfgGot := p.cfgGot - need })).takeCfg slot b)
      else s
    | [] => s

/-- CFG. -/
def State.gotCfg (s : State) (slot : Nat) (b : List Byte) (need : Nat) : State :=
  if s.pair.pstate = 2#3 ∨ (s.pair.pstate = 3#3 ∧ s.pair.joinHas) then
    cfgTake 16 (s.mapPair (fun p => { p with cfgBodies := p.cfgBodies ++ [(slot, b, need)] }))
  else s

/-- CFG_DATA goes to its address, where the command's source argument points. -/
def State.gotCfgData (s : State) (a : Nat) (d : List Byte) : State :=
  if s.pair.pstate = 2#3 ∨ s.pair.pstate = 3#3 then
    cfgTake 16 ((s.store whoReeve a d).2.mapPair (fun p => { p with cfgGot := p.cfgGot + d.length }))
  else s

/-- CFG_ACK: the twin has answered; with another code than OK it leaves. -/
def State.gotCfgAck (s : State) (slot : Nat) (code : Nat) (seq : BitVec 16) : State :=
  let s := s.mapPair (fun p => { p with carried := p.carried.filter (fun c => !(c.slot = slot && c.seq = seq)) })
  let s := if code = 0 then s
    else if s.pair.pstate = 1#3 then s.twinLeaves
    else s.mapPair (fun p => { p with joiner := false, joinRun := false, joinMark := none, joinPair := false })
  s.uncarry

/-! ## Agreement (R380 to R383) -/

/-- INPUT. -/
def State.gotInput (s : State) (n : BitVec 64) (count : Nat) (d : BitVec 384) : State :=
  (s.updTwin n (fun t => { t with inputTwin := some (count, d) })).checkInput n

/-- This module has withheld an epoch for a cause of its own. -/
def State.withheldOwn (s : State) (n : BitVec 64) : Bool :=
  s.tly.recs.any (fun r => r.epoch = n && !r.published)

/-- DIGEST. A twin that is whole where this module has already withheld the epoch makes this module give way (Table 19-7). -/
def State.gotDigest (s : State) (n : BitVec 64) (whole : Bool) (wh : BitVec 32) (d : BitVec 384) : State :=
  let s := s.mapPair (fun p => { p with twinOpen := p.twinOpen.filter (fun m => m ≠ n) })
  if (s.openEp? n).isNone && whole && s.withheldOwn n then
    (if s.pair.pstate = 1#3 then s.resign 1 n else if s.pair.pstate = 2#3 then s.leavePair else s)
  else (((s.updTwin n (fun t => { t with digestTwin := some (whole, wh, d) })).tryEvidence n).resolve n).joinCompare n

/-- DIGEST_ACK. -/
def State.gotDigestAck (s : State) (n : BitVec 64) : State :=
  s.updTwin n (fun t => { t with acked := true })

/-- EVIDENCE. -/
def State.gotEvidence (s : State) (n : BitVec 64) (w : Nat) : State :=
  ((s.updTwin n (fun t => { t with evidenceTwin := some w })).tryEvidence n).resolve n

/-- PROGRESS (R293). -/
def State.gotProgress (s : State) (n : BitVec 64) (p : Nat) : State :=
  (s.updTwin n (fun t => { t with progressTwin := some p })).tryOutput n

/-! ## Joins (R391) -/

/-- The configuration store as JOIN_IMAGE carries it; the spec gives no layout. -/
def State.storeImage (s : State) : List Byte :=
  leBytes 8 s.tly.configGen.toNat ++ s.cmds.store.flatMap (fun e => pad 256 e.1 ++ leBytes 8 e.2.length ++ e.2)

/-- Entries of such an image. -/
def storeEntries : Nat → List Byte → List (List Byte × List Byte)
  | 0, _ => []
  | n + 1, l =>
    if l.length < 264 then []
    else
      let len := fld l 256 8
      (sub l 0 256, sub l 264 len) :: storeEntries n (l.drop (264 + len))

/-- JOIN_REQ: the commander sends its configuration store, then the commands that are ACTIVE. -/
def State.gotJoinReq (s : State) : State :=
  let s := if s.pair.pstate = 1#3 then s.twinLeaves else s
  if s.pair.pstate ≠ 0#3 then s
  else
    let img := s.storeImage
    let n := img.length
    let s := (chunks ((n + 65519) / 65520) img).zipIdx.foldl (fun t p =>
      t.send (.joinImage (BitVec.ofNat 32 (65520 * p.2)) (BitVec.ofNat 32 n) p.1)) s
    let s := s.mapPair (fun p => { p with joiner := true, joinRun := false, joinPair := false, joinMark := some (Tab.get 0 s.dnp.handed 2),
                                          carried := [] })
    (s.cmds.active.filter (fun a => !a.remote && !moduleLocal a.opcode)).foldl (fun t a => t.carryCmd a) s

/-- Opcodes that set no state of the store's kind: a role swap, resets and mapping out of units, the shutdown. -/
def storeSkips (op : Nat) : Bool := op = 0x50 || op = 0x70 || op = 0x71 || op = 0x90

/-- One entry of the store takes effect in the joiner. -/
def State.restoreOne (s : State) (e : List Byte × List Byte) : State :=
  let a := { s.actOf 0 e.1 with data := e.2 }
  if storeSkips a.opcode then s
  else
    let g := if a.opcode = 0x22 then
        (match s.graphCheck (a.arg 0 1) (a.argBytes 32 48) e.2 with | .ok g => some g.1 | .error _ => none)
      else none
    s.applyCmd { a with graph := g } 0#64

/-- The whole store replaces this module's configuration. -/
def State.restoreStore (s : State) (img : List Byte) : State :=
  let l := storeEntries img.length (img.drop 8)
  let s := (s.mapCx (fun c => { c with ctxs := [] })).mapCmds (fun c => { c with fallback := false, store := l })
  let s := l.foldl State.restoreOne s
  (s.mapTly (fun t => { t with configGen := BitVec.ofNat 64 (fld img 0 8), early := [] })).mapPair (fun p => { p with joinHas := true, joinImage := [] })

/-- JOIN_IMAGE: parts gather; the last one completes the store. -/
def State.gotJoinImage (s : State) (off total : Nat) (part : List Byte) : State :=
  if s.pair.pstate = 3#3 ∧ s.pair.joinSent then
    let s := s.mapPair (fun p => { p with joinImage := memStore p.joinImage off part })
    if off + part.length = total then s.restoreStore ((List.range total).map (fun i => Tab.get 0#8 s.pair.joinImage i)) else s
  else s

/-- JOIN_DONE: the next OPEN carries PAIRED. -/
def State.gotJoinDone (s : State) : State :=
  if s.pair.pstate = 0#3 ∧ s.pair.joinRun then s.mapPair (fun p => { p with joinPair := true }) else s

/-! ## Commands -/

/-- MSG_CREDIT. -/
def execMsgCredit (ch : BitVec 8) (frames : BitVec 32) (s : State) : Host.Outcome State Fault Refusal :=
  .next (s.recvMsg s.linkUp (.credit ch frames) (·.gotCredit ch.toNat frames.toNat))

/-- MSG_IDENT. -/
def execMsgIdent (serial : BitVec 64) (rev ifVer : BitVec 8) (s : State) : Host.Outcome State Fault Refusal :=
  .next (s.recvMsg s.dnpOn (.ident serial rev ifVer) (·.gotIdent serial rev ifVer))

/-- MSG_ROLE_HB. -/
def execMsgRoleHb (p : BitVec 8) (can : Bool) (term : BitVec 8) (o d g : BitVec 64) (s : State) : Host.Outcome State Fault Refusal :=
  .next (s.recvMsg s.ch1On (.roleHb p can term o d g) (·.gotHb p can o d g))

/-- MSG_OPEN. -/
def execMsgOpen (n : BitVec 64) (deadline : BitVec 32) (paired first : Bool) (l : List (BitVec 8 × BitVec 16)) (s : State) :
    Host.Outcome State Fault Refusal :=
  .next (s.recvMsg s.ch1On (.openMsg n deadline paired first l) (·.gotOpen n deadline.toNat paired first l))

/-- MSG_RESIGN. -/
def execMsgResign (cause : BitVec 8) (first : BitVec 64) (s : State) : Host.Outcome State Fault Refusal :=
  .next (s.recvMsg s.ch1On (.resign cause first) (·.gotResign cause.toNat first))

/-- MSG_EXPEL. -/
def execMsgExpel (n : BitVec 64) (s : State) : Host.Outcome State Fault Refusal := .next (s.recvMsg s.ch1On (.expel n) (·.gotExpel n))

/-- MSG_TAG. -/
def execMsgTag (stream : Fin 64) (ch : Fin 8) (tag : BitVec 64) (s : State) : Host.Outcome State Fault Refusal :=
  .next (s.recvMsg s.ch1On (.tag (BitVec.ofNat 8 stream) (BitVec.ofNat 8 ch) tag) (·.tagged stream ch tag))

/-- MSG_CFG. -/
def execMsgCfg (slot : Fin 16) (body : List Byte) (dataLen : BitVec 64) (s : State) : Host.Outcome State Fault Refusal :=
  .next (s.recvMsg s.ch2On (.cfg (BitVec.ofNat 8 slot) body dataLen) (·.gotCfg slot body dataLen.toNat))

/-- MSG_CFG_ACK. -/
def execMsgCfgAck (slot : Fin 16) (code : Byte) (seq : BitVec 16) (detail : BitVec 32) (s : State) : Host.Outcome State Fault Refusal :=
  .next (s.recvMsg s.ch2On (.cfgAck (BitVec.ofNat 8 slot) code seq detail) (·.gotCfgAck slot code.toNat seq))

/-- MSG_INPUT. -/
def execMsgInput (n : BitVec 64) (count : BitVec 32) (d : List Byte) (s : State) : Host.Outcome State Fault Refusal :=
  .next (s.recvMsg s.ch2On (.input n count d) (·.gotInput n count.toNat (BitVec.ofNat 384 (leNat d))))

/-- MSG_DIGEST. -/
def execMsgDigest (n : BitVec 64) (whole : Bool) (wh : BitVec 32) (d : List Byte) (s : State) : Host.Outcome State Fault Refusal :=
  .next (s.recvMsg s.ch2On (.digest n whole wh d) (·.gotDigest n whole wh (BitVec.ofNat 384 (leNat d))))

/-- MSG_DIGEST_ACK. -/
def execMsgDigestAck (n : BitVec 64) (s : State) : Host.Outcome State Fault Refusal := .next (s.recvMsg s.ch2On (.digestAck n) (·.gotDigestAck n))

/-- MSG_EVIDENCE. -/
def execMsgEvidence (n : BitVec 64) (w : Byte) (s : State) : Host.Outcome State Fault Refusal :=
  .next (s.recvMsg s.ch2On (.evidence n w) (·.gotEvidence n w.toNat))

/-- MSG_PROGRESS. -/
def execMsgProgress (n : BitVec 64) (p : Byte) (s : State) : Host.Outcome State Fault Refusal :=
  .next (s.recvMsg s.ch2On (.progress n p) (·.gotProgress n p.toNat))

/-- MSG_JOIN_REQ. -/
def execMsgJoinReq (gen : BitVec 64) (s : State) : Host.Outcome State Fault Refusal := .next (s.recvMsg s.ch2On (.joinReq gen) State.gotJoinReq)

/-- MSG_JOIN_IMAGE. -/
def execMsgJoinImage (off total : BitVec 32) (part : List Byte) (s : State) : Host.Outcome State Fault Refusal :=
  .next (s.recvMsg s.ch2On (.joinImage off total part) (·.gotJoinImage off.toNat total.toNat part))

/-- MSG_JOIN_DONE. -/
def execMsgJoinDone (last : BitVec 64) (s : State) : Host.Outcome State Fault Refusal :=
  .next (s.recvMsg s.ch2On (.joinDone last) State.gotJoinDone)

/-- MSG_FWD_UNIT. -/
def execMsgFwdUnit (stream : Fin 64) (ch : Fin 8) (u : IngUnit) (s : State) : Host.Outcome State Fault Refusal :=
  .next (s.recvMsg s.linkUp (.fwdUnit (BitVec.ofNat 8 stream) (BitVec.ofNat 8 ch) u) (·.fwdUnit stream ch u))

/-- MSG_FWD_BEGIN. -/
def execMsgFwdBegin (stream : Fin 64) (ch : Fin 8) (tag : BitVec 64) (arrive : BitVec 32) (s : State) : Host.Outcome State Fault Refusal :=
  .next (s.recvMsg s.linkUp (.fwdBegin (BitVec.ofNat 8 stream) (BitVec.ofNat 8 ch) tag arrive) (·.fwdBegin stream ch tag arrive))

/-- MSG_FWD_CLOSE. -/
def execMsgFwdClose (stream : Fin 64) (ch : Fin 8) (cause : Byte) (n : BitVec 64) (s : State) : Host.Outcome State Fault Refusal :=
  .next (s.recvMsg s.linkUp (.fwdClose (BitVec.ofNat 8 stream) (BitVec.ofNat 8 ch) cause n) (·.fwdClose stream ch cause.toNat n))

/-- MSG_CFG_DATA. -/
def execMsgCfgData (addr : BitVec 40) (data : List Byte) (s : State) : Host.Outcome State Fault Refusal :=
  .next (s.recvMsg s.ch2On (.cfgData addr data) (·.gotCfgData addr.toNat data))

end Sys2Proof.Machine
end

