-- ==== Sys2Proof/Machine/Pair.lean ====
section
/-! DEFINITION. The role protocol's own timers, the alive line, and rehearsals (R384 to R387, R394, R395). -/

namespace Sys2Proof.Machine

/-- The role protocol runs: from boot step 12 on, while Hayward A does (R385, R441). -/
def State.roleOn (s : State) : Bool := s.islandOn false && s.mbx.ready

/-- Send ROLE_HB. -/
def State.sendHb (s : State) : State :=
  if s.roleOn ∧ s.pair.lastHb + 10000 ≤ s.now then
    let d := match s.tly.recs.getLast? with | some r => r.epoch | none => 0#64
    let s := s.send (.roleHb (s.pair.pstate.setWidth 8) s.canCmd s.pair.term s.tly.opened d s.tly.configGen)
    (s.mapPair (fun p => { p with lastHb := s.now, hbSent := p.hbSent || s.linkUp })).roleAtStart.tryJoin
  else s

/-- The alive line has been silent for 290,000 ticks; before the first edge, counted from the start of the role protocol. -/
def State.aliveSilent (s : State) : Bool :=
  match s.pair.lastEdge with
  | some t => decide (t + 290000 ≤ s.now)
  | none => match s.tly.readyTick with | some t => decide (t + 290000 ≤ s.now) | none => false

/-- A module that sees silence takes the role: DECIDING on the alive line's alone, OUT or JOINING on both, and OUT that has
never seen an edge (R386, R387). -/
def State.silenceCheck (s : State) : State :=
  if !s.roleOn ∨ !s.aliveSilent then s
  else if s.pair.pstate = 5#3 ∨ (s.pair.pstate = 4#3 ∧ s.pair.lastEdge.isNone) then s.takeRole 0#3
  else if (s.pair.pstate = 3#3 ∨ s.pair.pstate = 4#3) ∧ !s.seesTwin then s.takeRole 0#3
  else s

/-- No ROLE_HB for 200,000 ticks. -/
def State.hbLost (s : State) : State :=
  match s.pair.twinHb with
  | some t =>
    if s.roleOn ∧ t + 200000 ≤ s.now then
      let s := if s.pair.pstate = 1#3 then s.twinLeaves
        else if s.pair.pstate = 2#3 then s.commanderLost
        else s.mapPair (fun p => { p with joinSent := false, joinHas := false, joiner := false, joinRun := false, joinMark := none, joinPair := false })
      s.silenceCheck
    else s
  | none => s

/-- Toggle PAIR_ALIVE_OUT. -/
def State.toggleAlive (s : State) : State :=
  if s.roleOn ∧ s.canCmd ∧ s.pair.lastTog + 50000 ≤ s.now then
    s.mapPair (fun p => { p with aliveOut := !p.aliveOut, lastTog := s.now })
  else s

/-- A new level on PAIR_ALIVE_IN has held for 1,000 ticks: the edge lies that far back (R498, Table 19-9). -/
def State.aliveEdge (s : State) (level : Bool) : State :=
  if s.islandOn false ∧ level ≠ s.pair.aliveIn ∧ 1000 ≤ s.now then
    s.mapPair (fun p => { p with aliveIn := level, lastEdge := some (s.now - 1000), edgeIn := p.edgeIn || p.pstate = 5#3 })
  else s

/-- 290,000 ticks in DECIDING with an edge in that time: OUT. -/
def State.decideOut (s : State) : State :=
  if s.roleOn ∧ s.pair.pstate = 5#3 ∧ s.pair.edgeIn ∧ s.pair.since + 290000 ≤ s.now then (s.leaveTo 4#3).tryJoin else s

/-! ## Rehearsal (R394, R395) -/

/-- Units of a kind of injection: engines, clusters, dies, stacks, the Denpa link, ingest. -/
def rehUnits : Nat → Nat
  | 0 => 28 | 1 => 8 | 2 => 4 | 3 => 4 | _ => 1

/-- The unit is enabled. -/
def State.rehOk (s : State) (kind u : Nat) : Bool :=
  match kind with
  | 0 => s.unitOk u
  | 1 => s.targetUp (.cluster u)
  | 2 => s.dieRuns u
  | 3 => s.stackRuns u
  | 4 => s.linkUp
  | _ => s.targetUp (.iod 0)

/-- The unit of a kind that comes next in its rotation. -/
def State.rehNext (s : State) (kind : Nat) : Option Nat :=
  let n := rehUnits kind
  (List.range n).findSome? (fun i => let u := (Tab.get 0 s.pair.rehUnit kind + i) % n; if s.rehOk kind u then some u else none)

/-- The kind and unit injected next: enabled kinds in bit order after the latest one, from bit 0 at first. -/
def State.rehPick (s : State) : Option (Nat × Nat) :=
  let k0 := if s.pair.rehLast = 0#2 then 0 else s.pair.rehKind.toNat + 1
  (List.range 6).findSome? (fun i =>
    let k := (k0 + i) % 6
    if s.pair.mask.getLsbD k then (s.rehNext k).map (fun u => (k, u)) else none)

/-- A rehearsal may take place. -/
def State.rehMay (s : State) : Bool :=
  s.roleOn && s.pair.pstate = 2#3 && s.seesTwin && s.pair.twinState = 1#8 && s.pair.twinCan && !s.cmds.fallback && !s.thm.coolLoss &&
    s.pair.rehAt.isNone && (s.pair.rehNow || decide (s.pair.lastReh + s.pair.interval ≤ s.now))

/-- Inject a fault of a kind into this module. -/
def State.inject (s : State) (kind u : Nat) : State :=
  match kind with
  | 0 => s.resetEngine u
  | 1 => s.clusterReset u
  | 2 => s.fenceDie u
  | 3 => (s.withholdStack u).stackReset u
  | 4 => s.linkFault
  | _ => s.iodReset 0

/-- A rehearsal that is due is injected. -/
def State.rehearse (s : State) : State :=
  if s.rehMay then
    match s.rehPick with
    | some (k, u) =>
      (s.mapPair (fun p => { p with rehKind := BitVec.ofNat 4 k, rehLast := 3#2, rehAt := some (s.now, u), lastReh := s.now, rehNow := false,
                                    rehUnit := Tab.set 0 p.rehUnit k (u + 1) })).inject k u
    | none => s
  else s

/-! ## Commands -/

/-- ROLE_HB_SEND. -/
def execRoleHbSend (s : State) : Host.Outcome State Fault Refusal := .next s.sendHb.settle.carryCheck

/-- ROLE_HB_TIMEOUT. -/
def execRoleHbTimeout (s : State) : Host.Outcome State Fault Refusal := .next s.hbLost.settle.carryCheck

/-- PAIR_ALIVE_TOGGLE. -/
def execPairAliveToggle (s : State) : Host.Outcome State Fault Refusal := .next s.toggleAlive

/-- PAIR_ALIVE_IN_EDGE. -/
def execPairAliveInEdge (level : Bool) (s : State) : Host.Outcome State Fault Refusal := .next (s.aliveEdge level)

/-- PAIR_ALIVE_SILENCE. -/
def execPairAliveSilence (s : State) : Host.Outcome State Fault Refusal := .next s.silenceCheck.settle.carryCheck

/-- DECIDING_TIMEOUT. -/
def execDecidingTimeout (s : State) : Host.Outcome State Fault Refusal := .next s.decideOut.settle.carryCheck

/-- REHEARSAL_DUE. -/
def execRehearsalDue (s : State) : Host.Outcome State Fault Refusal := .next s.rehearse.settle.carryCheck

/-- REHEARSAL_TIMEOUT. -/
def execRehearsalTimeout (s : State) : Host.Outcome State Fault Refusal := .next s.rehLate

end Sys2Proof.Machine
end

