-- ==== Sys2Proof/Machine/BootConfig.lean ====
section
/-! DEFINITION. Images and the boot configuration: the checks of an image, the ranges of the configuration's sections, and
what each section sets (R110, R287, R316, R369, R438 to R440, R453 to R457, R466, R488). -/

namespace Sys2Proof.Machine

/-! ## Images (R438, R439, R454, R455) -/

/-- The root that an image's key pair matches: a configuration needs an integrator's root where one is written. -/
def State.imageRoot (s : State) (ty : Nat) (b : List Byte) : Option Nat :=
  let written := fun r => (s.sec.roots.getD r none).isSome
  let may := if ty = 2 ∧ (written 2 ∨ written 3) then [2, 3] else [0, 1]
  let h := sha384Word (sub b 128 1984)
  may.find? (fun r => s.sec.roots.getD r none = some h && !s.sec.revoke.getLsbD r)

/-- The failure code of an image: the bit set of R439, 0 when it passes. -/
def State.imageFail (s : State) (ty : Nat) (b : List Byte) : Nat :=
  let len := fld b 8 4
  let msg := sub b 0 2112
  flagsNat
    [!(fld b 0 4 = 0x4D495847 && fld b 4 2 = 1 && fld b 6 1 = ty && decide (len ≤ 0x1000000) && decide (8192 + len ≤ b.length)),
     (s.imageRoot ty b).isNone, decide (fld b 16 4 < s.sec.rollback), !Config.ed25519Verify (sub b 128 32) msg (sub b 2112 64),
     !Config.mldsaVerify (sub b 160 1952) msg (sub b 2176 3309), decide (sha384 (sub b 8192 len) ≠ sub b 32 48)]

/-- An image has passed: the measurement is extended and the evidence names it (R457). -/
def State.measure (s : State) (ty : Nat) : State :=
  let b := s.image s.boot.slot ty
  let x : ImgInfo :=
    { ty := ty, root := (s.imageRoot ty b).getD 0, version := BitVec.ofNat 32 (fld b 12 4), rollback := BitVec.ofNat 32 (fld b 16 4),
      hash := BitVec.ofNat 384 (leNat (sub b 32 48)) }
  s.mapSec (fun y => { y with meas := measExtend y.meas x, imgs := y.imgs ++ [x] })

/-- Verify images in slot order; the failure code of the first that fails. -/
def State.verify (s : State) : List Nat → Except Nat State
  | [] => .ok s
  | ty :: r =>
    let f := s.imageFail ty (s.image s.boot.slot ty)
    if f ≠ 0 then .error f else (s.measure ty).verify r

/-! ## Ranges of the boot configuration -/

def f32Pos (n : Nat) : Bool := decide (0 < n) && decide (n < 0x7F800000)
def f32NonNeg (n : Nat) : Bool := decide (n < 0x7F800000) || n = 0x80000000

/-- Values that do not rise from one to the next; -0 counts as 0. -/
def notRising : List Nat → Bool
  | a :: b :: r => (decide (b % 0x80000000 ≤ a % 0x80000000)) && notRising (b :: r)
  | _ => true

/-- A value lies in a range, ends included. -/
def within (lo hi n : Nat) : Bool := decide (lo ≤ n) && decide (n ≤ hi)

/-- The trajectory output configuration meets Table 14-1. -/
def trajOk (b : List Byte) : Bool :=
  let vals := fun o => (List.range 16).map (fun j => fld b (o + 4 * j) 4)
  (decide (fld b 0 1 < 64) || fld b 0 1 = 0xFF) && within 10000 300000000 (fld b 6 4) && within 0 4 (fld b 10 1) &&
    within 1 8 (fld b 11 1) && within 1 64 (fld b 12 2) && within 20 2000 (fld b 14 2) && f32Pos (fld b 16 4) &&
    decide (fld b 16 4 ≤ 0x3E800000) && (List.range 6).all (fun i => f32Pos (fld b (20 + 4 * i) 4)) && within 100 10000 (fld b 44 2) &&
    within 100000 10000000 (fld b 48 4) && (vals 64).all f32NonNeg &&
    (vals 128).all f32NonNeg && (vals 192).all f32NonNeg && notRising (vals 64)

def trajOf (b : List Byte) : TrajCfg :=
  let f := fun o => BitVec.ofNat 32 (fld b o 4)
  let vals := fun o => (List.range 16).map (fun j => f (o + 4 * j))
  { ctx := fld b 0 1, node := fld b 2 4, outTicks := fld b 6 4, lMax := fld b 10 1, nextMax := fld b 11 1, smoothIters := fld b 12 2,
    staleMs := fld b 14 2, lambda := f 16, vMax := f 20, kappaMax := f 24, krateMax := f 28, jerkMax := f 32, mrpDecel := f 36,
    mrpJerk := f 40, contMinMs := fld b 44 2, mrpPeriod := fld b 48 4, vk := vals 64, accUp := vals 128, accDn := vals 192 }

/-- The power and thermal section meets Table 25-7; bytes it does not list are 0, and the RSVD bits of those it lists are ignored
(R9). -/
def powerOk (b : List Byte) : Bool :=
  let limit := fld b 0 2
  within 1000 4200 limit && within limit 5000 (fld b 2 2) && within 1000 20000 (fld b 4 2) && within 0 80 (fld b 6 1) &&
    decide (20 ≤ fld b 8 1) && decide (fld b 8 1 < fld b 9 1) && decide (fld b 9 1 ≤ 110) &&
    leNat (sub b 10 54) = 0 && leNat (sub b 128 128) = 0 &&
    (List.range 4).all (fun k => (thrBad 0 none true (thrPieces (sub b (256 + 64 * k) 64))).isNone) && leNat (b.drop 512) = 0

/-- The island fields meet Table 18-6. -/
def islandOk (b : List Byte) : Bool :=
  let f := Config.islandField b
  decide (f 0 < 4) && within 0x600 0xFFFF (f 1) && within 1 4094 (f 2) && within 10000 300000000 (f 4) && within 1000000 1000000000 (f 5)

/-- The KCP section: RIGHTS of every credential, and a staging range in the stacks. -/
def kcpOk (b : List Byte) : Bool :=
  (List.range 4).all (fun c => decide (fld b (64 + 48 * c) 1 < 3)) && decide (fld b 32 8 + fld b 40 8 ≤ 4 * stackBytes)

/-- Every section is in range (R440). -/
def configOk (b : List Byte) : Bool :=
  b.length = 0x10000 && within 1 3 (fld b 0 1) && (List.range 28).all (fun u => decide (fld b (0x40 + u) 1 < 8)) && islandOk b &&
    trajOk (sub b 0xC0 256) && kcpOk (sub b 0x300 256) && powerOk (sub b 0x700 2304)

/-! ## What the sections set -/

/-- Credentials of the KCP section (Table 24-5). -/
def credsOf (b : List Byte) : List (Option Cred) :=
  (List.range 4).map (fun c =>
    let o := 64 + 48 * c
    if fld b o 1 = 0 then none
    else some { key := BitVec.ofNat 256 (fld b (o + 16) 32), write := fld b o 1 = 2, lastSeq := none })

/-- Step 5: the sections that need no compute die. -/
def State.applyConfig (s : State) (b : List Byte) : State :=
  let p := sub b 0x700 2304
  let k := sub b 0x300 256
  let t := sub b 0xC0 256
  let s := s.mapBoot (fun x => { x with config := b })
  let s := forUpto 28 (fun u a => a.updEng u (fun e => { e with part := BitVec.ofNat 3 (fld b (0x40 + u) 1), enabled := !s.boot.engDis.getLsbD u })) s
  let s := s.mapOut (fun o => { o with cfg := if fld t 0 1 = 0xFF then none else some (trajOf t) })
  let s := s.mapThm (fun x =>
    { x with limit := fld p 0 2, peak := fld p 2 2, flowMin := fld p 4 2, floor := fld p 6 1, warmEn := fld p 7 1 % 2 = 1, tLo := fld p 8 1,
             tHi := fld p 9 1, railAddr := (List.range 16).map (fun r => fld p (64 + 4 * r) 1) })
  let s := forUpto 16 (fun q a => a.updPort q (fun x => { x with master := Config.portMaster b q })) s
  let s := s.mapIng (fun x => { x with cpMode := (List.range 16).foldl (fun t q => Tab.set 0#8 t q (Config.portGear b q)) x.cpMode })
  s.mapKcp (fun x =>
    { x with creds := credsOf k, stageLo := fld k 32 8, stageHi := fld k 32 8 + fld k 40 8, named := Config.bulkContexts b,
             idle := if fld k 48 4 = 0 then 100000000 else fld k 48 4 })

/-- Step 6: the island fields, and the known answers of the golden sheaf (R360, R369). -/
def State.applyIsland (s : State) : State :=
  let f := Config.islandField s.boot.config
  let body := s.imageBody 5
  s.mapHwa (fun h =>
    { h with splitA := f 0 % 2 = 1, splitB := f 0 / 2 % 2 = 1, etype := BitVec.ofNat 16 (f 1), vid := BitVec.ofNat 12 (f 2),
             key := BitVec.ofNat 64 (f 3), goldDue := f 4, stPeriod := f 5,
             answers := [1, 2].foldl (fun t kind => (List.range 8).foldl (fun t v =>
               Tab.set [] t (32 * kind + v) (Config.goldenAnswer body kind v)) t) h.answers })

/-- Step 11 on die k: RWL registers written and locked, default operating points at level 3, the throttle table, band 3 until the
first reading, and the firmware's banks (R50, R228, R238, R264). -/
def State.applyDieCfg (s : State) (k : Nat) : State :=
  let s := ((s.grnCfg k).stackCfg k).updHmc k (fun h => { h with lock := true })
  let s := (s.applyThr k (sub s.boot.config (0x800 + 64 * k) 64)).updOpc k (fun o =>
    { o with opc := tabOf OpcLevel.none defaultOpc, keepOpc := tabOf OpcLevel.none defaultOpc, levelCmd := 3#4, keepLvl := 3#4, band := 3#2 })
  (s.placeGolden k).applyLevel k true

/-- Step 11 on the IOD: THM_COOL_CFG is written and locked with the other PWR_ and THM_ registers (R316). -/
def State.applyCoolCfg (s : State) : State :=
  let c := Config.coolantField s.boot.config
  s.mapCool (fun x => { x with kPulses := BitVec.ofNat 16 c.1, pumpEn := c.2, lock := true })

end Sys2Proof.Machine
end

