-- ==== Sys2Proof/Machine/Boot.lean ====
section
/-! DEFINITION. Reset, the boot steps with their journal, failures and alternatives, and the first sentry message's limit
(R440 to R448, R456, R493, Tables 23-4 to 23-8). -/

namespace Sys2Proof.Machine

/-! ## Journal entries of a step (R443 to R445) -/

/-- Append an entry about a unit at a step. -/
def State.journalStep (s : State) (kind step uKind uIndex outcome state : Nat) (detail : Nat) : State :=
  s.journal { kind := kind, step := step, uKind := uKind, uIndex := uIndex, outcome := outcome, state := state, start := s.boot.startCnt,
              tick := s.now, detail := BitVec.ofNat 32 detail, epoch := 0#64 }

/-- Consecutive failures of a step for a unit that a list of entries shows: a STEP_BEGIN without its STEP_END is one. -/
def failRun (l : List JEntry) (step uKind uIndex : Nat) : Nat :=
  let r := (l.filter (fun e => e.step = step && e.uKind = uKind && e.uIndex = uIndex)).foldl (fun (a : Nat × Bool) e =>
    if e.kind = 2 then (if a.2 then (a.1 + 1, true) else (a.1, true))
    else if e.kind = 3 then (if e.outcome = 1 || e.outcome = 6 then (0, false) else if e.outcome = 4 then (a.1, false) else (a.1 + 1, false))
    else a) (0, false)
  if r.2 then r.1 + 1 else r.1

/-- The same over the starts before this one. -/
def State.pastFails (s : State) (step uKind uIndex : Nat) : Nat :=
  failRun (s.journalEntries.filter (fun e => e.start ≠ s.boot.startCnt)) step uKind uIndex

/-- Units that a step covers, as UNIT_KIND and UNIT_INDEX; steps 4 to 6, 11 and 12 are the image slot's. -/
def stepUnits (slot : Bool) (step : Nat) : List (Nat × Nat) :=
  let all := fun (kind n : Nat) => (List.range n).map (fun i => (kind, i))
  match step with
  | 7 => all 3 4
  | 8 => all 1 28 ++ all 2 8 ++ all 3 4
  | 9 => all 3 4 ++ all 4 4
  | 10 => (7, 0) :: all 3 4
  | 1 | 2 | 3 => [(0, 0)]
  | _ => [(6, bit01 slot)]

/-- The die that a unit needs. -/
def unitHome (kind i : Nat) : Option Nat :=
  match kind with | 1 => some (unitDie i) | 2 => some (i / 2) | 3 => some i | 4 => some i | _ => none

/-- The unit belongs to CD0 or CD3, which step 8 tests before CD1 and CD2 (R441). -/
def firstPair (u : Nat × Nat) : Bool := unitHome u.1 u.2 = some 0 || unitHome u.1 u.2 = some 3

/-- Of the units that have not ended their part of a step, those whose turn it is: two dies at a time at step 8, else all. -/
def turnOf (step : Nat) (l : List (Nat × Nat)) : List (Nat × Nat) := if step = 8 && l.any firstPair then l.filter firstPair else l

/-- The unit is disabled or mapped out, or its die is disabled. -/
def State.unitOff (s : State) (u : Nat × Nat) : Bool :=
  (match u.1 with
   | 1 => s.boot.engDis.getLsbD u.2 | 2 => s.boot.cluDis.getLsbD u.2 | 4 => s.boot.stackOut.getLsbD u.2 | _ => false) ||
    (match unitHome u.1 u.2 with | some k => s.boot.dieDis.getLsbD k | none => false)

/-- Copy of what a compacted half keeps: a new HALF entry, the latest UNIT entry of every unit and slot, and for every step and
unit with a failure count as many failed STEP_ENDs. -/
def State.compacted (s : State) : List JEntry :=
  let l := s.journalEntries
  let gen := max ((halfGen s.boot.half0).getD 0) ((halfGen s.boot.half1).getD 0) + 1
  let entry : JEntry := { kind := 6, step := 0, uKind := 0, uIndex := 0, outcome := 0, state := 0, start := s.boot.startCnt, tick := s.now,
                          detail := BitVec.ofNat 32 gen, epoch := 0#64 }
  let units := l.filter (fun e => e.kind = 4)
  let latest := units.filter (fun e => (units.reverse.find? (fun f => f.uKind = e.uKind && f.uIndex = e.uIndex)) = some e)
  let old := l.filter (fun e => e.start ≠ s.boot.startCnt)
  let keys := ((List.range 13).flatMap (fun st => (stepUnits false st ++ stepUnits true st).map (fun u => (st, u)))).eraseDups
  let fails := keys.flatMap (fun k => List.replicate (failRun old k.1 k.2.1 k.2.2)
    { entry with kind := 3, step := k.1, uKind := k.2.1, uIndex := k.2.2, outcome := 2, start := s.boot.startCnt - 1, detail := 0#32 })
  entry :: (latest.eraseDups ++ fails)

/-- Step 3: an empty journal, or one with fewer than 256 free entries in its active half, is compacted into the other half. -/
def State.compact (s : State) : State :=
  if s.hasJournal && decide (s.journalEntries.length + 256 ≤ 7168) then s
  else
    let c := s.compacted
    if s.hasJournal && !s.half1Active then s.mapBoot (fun b => { b with half1 := c }) else s.mapBoot (fun b => { b with half0 := c })

/-- The slot is BAD. -/
def State.slotBad (s : State) (slot : Bool) : Bool := s.unitState 6 (bit01 slot) = some 5

/-- TIMEOUT or INTERRUPTED a second time at steps 4 to 6 counts as a check failure: the slot becomes BAD. -/
def State.judgeSlot (s : State) (slot : Bool) : State :=
  if !s.slotBad slot && [4, 5, 6].any (fun n => decide (2 ≤ s.pastFails n 6 (bit01 slot))) then s.journalUnit 6 (bit01 slot) 5 0#32 else s

/-- Steps 11 and 12 have failed twice from the slot. -/
def State.slotWeak (s : State) (slot : Bool) : Bool := [11, 12].any (fun n => decide (2 ≤ s.pastFails n 6 (bit01 slot)))

/-- Step 3: the journal, the slot and the START entry; both slots BAD fail the step. -/
def State.readJournal (s : State) : Except Nat State :=
  let s := (s.compact.judgeSlot false).judgeSlot true
  let a := s.slotBad false
  let b := s.slotBad true
  let slot := a || (!b && s.slotWeak false && !s.slotWeak true)
  let s := s.mapBoot (fun x => { x with badA := a, badB := b, slot := slot })
  if a && b then .error 0 else .ok (s.journalStep 1 0 0 0 0 0 0)

/-! ## Disabled units (R446) -/

/-- Journal alternatives in force at this start: DISABLED, MAPPED_OUT and CONSERVATIVE units. -/
def State.applyAlternatives (s : State) : State :=
  let out := fun kind i => s.unitState kind i = some 2 || s.unitState kind i = some 4
  let bits := fun (n : Nat) (p : Nat → Bool) => ((List.range n).filter p).foldl (fun a i => a + 2 ^ i) 0
  let s' := s.mapBoot (fun b =>
    { b with dieDis := BitVec.ofNat 4 (bits 4 (out 3)), engDis := BitVec.ofNat 28 (bits 28 (out 1)), cluDis := BitVec.ofNat 8 (bits 8 (out 2)),
             stackOut := BitVec.ofNat 4 (bits 4 (out 4)), stackCons := BitVec.ofNat 4 (bits 4 (fun i => s.unitState 4 i = some 3)) })
  s'.mapFlt (fun f =>
    { f with cluOff := (List.range 8).foldl (fun t c => Tab.set false t c (out 2 c)) f.cluOff,
             iodSub := (List.range 4).foldl (fun t i => if out 5 i then Tab.set false t i true else t) f.iodSub })

/-- Identity, package serial and revision of compute die k allow it to join (R35, R448, Table 23-8). -/
def State.dieFits (s : State) (k : Nat) : Bool :=
  let d := (s.dieIdWord k).toNat
  let rev := bitsAt d 16 8
  let iod := bitsAt (s.dieIdWord 4).toNat 16 8
  s.boot.dieSerial.getD k 0#64 == s.pair.serial && bitsAt d 3 1 = 1 && bitsAt d 28 4 = 1 && bitsAt d 26 2 = k && (rev = 0x10 || rev = 0x11) && (iod = 0x10 || iod = 0x11)

/-- The units still running their part of the step end as SKIPPED where their die has been disabled. -/
def State.skipOff (s : State) : State :=
  let gone := s.boot.left.filter s.unitOff
  (gone.foldl (fun a u => a.journalStep 3 a.boot.step.toNat u.1 u.2 4 0 0) s).mapBoot (fun b => { b with left := b.left.filter (fun u => !gone.contains u) })

/-- A unit that has failed a step is out of service for this start; its UNIT entry rules the next (Table 23-6). -/
def State.dropUnit (s : State) (kind i state : Nat) (detail : Nat) : State :=
  let s := s.mapBoot (fun b =>
    match kind with
    | 1 => { b with engDis := b.engDis ||| BitVec.ofNat 28 (2 ^ i) }
    | 2 => { b with cluDis := b.cluDis ||| BitVec.ofNat 8 (2 ^ i) }
    | 3 => { b with dieDis := b.dieDis ||| BitVec.ofNat 4 (2 ^ i) }
    | _ => { b with stackOut := b.stackOut ||| BitVec.ofNat 4 (2 ^ i) })
  let s := if kind = 1 then s.updEng i (fun e => { e with enabled := false })
    else if kind = 2 then s.mapFlt (fun f => { f with cluOff := Tab.set false f.cluOff i true }) else s
  (s.journalUnit kind i state (BitVec.ofNat 32 detail)).skipOff

/-- The start halts: READY never becomes 1. -/
def State.bootHalt (s : State) : State := s.mapBoot (fun b => { b with state := 2#2 })

/-- A failure of a unit's part of the running step: `outcome` 2 FAIL or 3 TIMEOUT. -/
def State.stepFails (s : State) (u : Nat × Nat) (outcome detail : Nat) : State :=
  let n := s.boot.step.toNat
  let before := s.pastFails n u.1 u.2
  let s := s.mapBoot (fun b =>
    { b with failStep := BitVec.ofNat 8 n, failOut := BitVec.ofNat 8 outcome, failKind := BitVec.ofNat 8 u.1, failIdx := BitVec.ofNat 8 u.2,
             left := b.left.erase u })
  let s := s.journalStep 3 n u.1 u.2 outcome 0 detail
  match u.1 with
  | 1 | 2 => s.dropUnit u.1 u.2 (if before = 0 then 1 else 2) detail
  | 3 => s.dropUnit 3 u.2 (if (n = 7 && !s.dieFits u.2) || before ≠ 0 then 2 else 1) detail
  | 4 => s.dropUnit 4 u.2 (if s.boot.stackCons.getLsbD u.2 then 4 else 3) 3
  | 6 => if outcome = 2 ∧ n ≤ 6 then ((s.journalUnit 6 u.2 5 (BitVec.ofNat 32 detail)).mapBoot (fun b =>
      { b with badA := b.badA || u.2 = 0, badB := b.badB || u.2 = 1 })).bootHalt else s.bootHalt
  | _ => s.bootHalt

/-! ## What a step does -/

/-- MASTER that MASTER_SEL chooses; none halts the start (R440, R446). -/
def State.chooseMaster (s : State) : Option (BitVec 2) :=
  let c0 := s.targetUp (.cluster 0)
  match fld s.boot.config 0 1 with
  | 1 => some 1#2
  | 2 => if c0 then some 2#2 else none
  | _ => some (if c0 then 2#2 else 1#2)

/-- The ROLLBACK fuses rise to the lowest count of every image of the usable slots, at most 64 (R456). -/
def State.raiseRollback (s : State) : State :=
  let counts := [false, true].flatMap (fun slot => if s.slotBad slot then [] else (List.range 5).map (fun t => fld (s.image slot (t + 1)) 16 4))
  let m := min 64 (counts.foldl min 64)
  s.mapSec (fun x => { x with rollback := max x.rollback m })

/-- Step 12: switch tables, ports and the KCP endpoint; READY; the role protocol starts and the Denpa link trains. -/
def State.bootReady (s : State) (master : BitVec 2) : State :=
  let cfg := s.boot.config
  let s := (List.range 256).foldl (fun a id =>
    if (switchCap id).isSome && Config.bootSwitch cfg id ≠ [] then a.applySwitch id (Config.bootSwitch cfg id) else a) s
  let s := ((s.mapPins (fun p => { p with epTx := true })).mapMbx (fun m => { m with master := master, ready := true, ifVer := 1#8 })).raiseRollback
  let s := (s.mapTly (fun t => { t with readyTick := some s.now })).mapPair (fun p => { p with lastReh := s.now, since := s.now })
  let s := s.mapBoot (fun b => { b with step := 0x0D#8, state := 1#2 })
  if s.dnpOn then s.dnpTrain else s

/-- The dies that are not disabled come into service. -/
def State.diesRun (s : State) : State :=
  forUpto 4 (fun k a =>
    if s.boot.dieDis.getLsbD k then a
    else (a.setDie k .running).mapCore (fun x =>
      { x with time0 := Tab.set 0 (Tab.set 0 x.time0 (2 * k) (a.beat k)) (2 * k + 1) (a.beat k) })) s

/-- EN bits of every die that has joined and of the package (R448). -/
def State.enableFeatures (s : State) : State :=
  let cap := fun n => s.boot.cap.getD n 0#2
  let en := (List.range 4).map (fun k => if s.boot.dieDis.getLsbD k then 0#2 else cap k &&& cap 4)
  let pkg := ((List.range 4).filter (fun k => !s.boot.dieDis.getLsbD k)).foldl (fun a k => a &&& en.getD k 0#2) (cap 4)
  s.mapBoot (fun b => { b with en := en ++ [pkg] })

/-- The work whose success a step's PASS needs: verified images and configuration (R439, R440), a slot, a master. -/
def State.stepWork (s : State) : Except Nat State :=
  match s.boot.step.toNat with
  | 3 => s.readJournal
  | 4 => s.verify [1]
  | 5 =>
    match s.verify [2] with
    | .error f => .error f
    | .ok t => if configOk (t.imageBody 2) then .ok (t.applyAlternatives.applyConfig (t.imageBody 2)) else .error 0
  | 6 => match s.verify [3, 4, 5] with | .error f => .error f | .ok t => .ok t.applyIsland
  | 12 => if s.chooseMaster.isSome then .ok s else .error 0
  | _ => .ok s

/-- What follows once every unit has ended its part. -/
def State.afterStep (s : State) : State :=
  match s.boot.step.toNat with
  | 7 => s.enableFeatures
  | 10 => s.diesRun
  | 11 => (forUpto 4 (fun k a => if a.dieRuns k then a.applyDieCfg k else a) s).applyCoolCfg
  | _ => s

/-- A step begins: STEP_BEGIN for every unit whose turn it is, SKIPPED for those out of service. -/
def State.beginStep (s : State) (n : Nat) : State :=
  let now := turnOf n ((stepUnits s.boot.slot n).filter (fun u => !s.unitOff u))
  let s := s.mapBoot (fun b => { b with step := BitVec.ofNat 8 n, stepTick := s.now, left := (stepUnits b.slot n).filter (fun u => !s.unitOff u) })
  let s := (stepUnits s.boot.slot n).foldl (fun a u => if s.unitOff u then a.journalStep 3 n u.1 u.2 4 0 0 else if now.contains u then a.journalStep 2 n u.1 u.2 0 0 0 else a) s
  if n = 9 then
    forUpto 4 (fun k a => if s.unitOff (4, k) then a else (a.stackCfg k).updHmc k (fun h => { h with state := 1#2, trainRes := 0#2 })) s
  else s

/-- The end of a unit's part of the step: a die must fit, a stack must have trained. -/
def State.endUnit (s : State) (u : Nat × Nat) (outcome detail : Nat) : State :=
  let n := s.boot.step.toNat
  let bad := (n = 7 && u.1 = 3 && !s.dieFits u.2) || (u.1 = 4 && n = 9 && (s.hmcOf u.2).state ≠ 2#2)
  if outcome = 3 then s.stepFails u 3 detail
  else if (outcome ≠ 1 && outcome ≠ 6) || bad then s.stepFails u 2 detail
  else
    (s.journalStep 3 n u.1 u.2 (if u.1 = 4 && s.boot.stackCons.getLsbD u.2 then 6 else 1) 0 0).mapBoot (fun b => { b with left := b.left.erase u })

/-- Once all have ended, the next step begins, or the start is complete. -/
def State.advanceBoot (s : State) : State :=
  if s.boot.state ≠ 0#2 ∨ s.boot.left ≠ [] then s
  else
    let s := s.afterStep
    let n := s.boot.step.toNat
    if n = 12 then (match s.chooseMaster with | some m => s.bootReady m | none => s) else s.beginStep (n + 1)

/-- Boot steps run: the start has begun and is neither complete nor halted. -/
def State.booting (s : State) : Bool := s.awake && s.boot.state = 0#2

/-- Once CD0 and CD3 have ended step 8, the units of CD1 and CD2 begin it; `old` had not ended before. -/
def State.secondPair (s : State) (old : List (Nat × Nat)) : State :=
  if s.boot.step.toNat = 8 && old.any firstPair && !s.boot.left.any firstPair then
    s.boot.left.foldl (fun a u => a.journalStep 2 8 u.1 u.2 0 0 0) s
  else s

/-- A unit's part of the running step ends with an outcome; with UNIT_KIND 0 that of every unit whose turn it is, and for a
TIMEOUT the whole rest of the step. -/
def State.stepDone (s : State) (u : Nat × Nat) (outcome detail : Nat) : State :=
  let turn := turnOf s.boot.step.toNat s.boot.left
  let mine := if u.1 = 0 then (if outcome = 3 then s.boot.left else turn) else turn.filter (fun x => x = u)
  if !s.booting ∨ (mine = [] ∧ u.1 ≠ 0) then s
  else
    let lead := mine.any (fun x => x.1 = 0 || x.1 = 6)
    match (if lead ∧ (outcome = 1 ∨ outcome = 6) then s.stepWork else .ok s) with
    | .error f => (mine.foldl (fun a x => a.endUnit x 2 f) s).advanceBoot
    | .ok t => ((mine.foldl (fun a x => if a.boot.left.contains x then a.endUnit x outcome detail else a) t).secondPair s.boot.left).advanceBoot

/-- Maximum of each step in island ticks (Table 23-4). -/
def stepMax (n : Nat) : Nat :=
  [0, 1000000, 100000000, 2000000, 10000000, 1000000, 3000000, 20000000, 400000000, 27000000, 4000000, 2000000, 30000000].getD n 0

/-- The running step has exceeded its maximum: what has not ended fails with TIMEOUT; with nothing left to end it halts. -/
def State.stepLate (s : State) : State :=
  if s.booting ∧ s.boot.stepTick + stepMax s.boot.step.toNat < s.now then
    (if s.boot.left = [] then s.bootHalt else s.stepDone (0, 0) 3 0)
  else s

/-! ## Reset and power good (R441, R493, R503) -/

/-- RESET_N is high and every power-good input reads high. -/
def State.mayStart (s : State) : Bool := s.pins.resetN && s.pins.pg = 0x1FF#9

/-- The TAP leaves EXTEST and WIREPAT when RESET_N is released, before a start proceeds (R503). -/
def State.tapStart (s : State) : State :=
  if s.tap.ir = 0x04#8 ∨ s.tap.ir = 0x20#8 then s.mapTap (fun t => { t with ir := 0xFF#8, driven := false, wireRun := false }) else s

/-- A start begins, unless one already has; R492 has every reference clock run by then. -/
def State.begin (s : State) : State :=
  if s.mayStart ∧ !s.boot.started then
    let s := (s.mapBoot (fun b => { b with started := true, startTick := s.now })).mapFlt (fun f => { f with refLost := [] })
    let last := s.journalEntries.foldl (fun a e => max a e.start.toNat) 0
    let s := s.mapBoot (fun b => { b with startCnt := BitVec.ofNat 32 (last + 1) })
    (s.mapHwb (fun h => { h with startB := s.time.tickB })).beginStep 1
  else s

/-- RESET_N is asserted: every domain is in reset. -/
def State.assertReset (s : State) : State := s.coldReset.mapPins (fun p => { p with resetN := false })

/-- A power-good input reads low: before a start it holds the package in reset, after it a rail fault follows. -/
def State.powerLow (s : State) (i : Nat) : State :=
  let s := s.mapPins (fun p => { p with pg := p.pg &&& ~~~(BitVec.ofNat 9 (2 ^ i)) })
  if s.boot.started then s.railBad else s.tapStart

/-- No first sentry message within 200,000,000 ticks of Hayward B. -/
def State.firstSentryLate (s : State) : State :=
  if s.islandOn true ∧ !s.hwb.first ∧ s.hwb.startB + 200000000 ≤ s.time.tickB then s.safeState else s

/-! ## Commands -/

/-- RESET_N_ASSERT. -/
def execResetNAssert (s : State) : Host.Outcome State Fault Refusal := .next s.assertReset

/-- RESET_N_RELEASE. -/
def execResetNRelease (s : State) : Host.Outcome State Fault Refusal := .next (s.tapStart.mapPins (fun p => { p with resetN := true })).begin

/-- POWER_GOOD_RISE. -/
def execPowerGoodRise (i : Fin 9) (s : State) : Host.Outcome State Fault Refusal :=
  .next (s.mapPins (fun p => { p with pg := p.pg ||| BitVec.ofNat 9 (2 ^ i.val) })).begin

/-- PG_LOW. -/
def execPgLow (i : Fin 9) (s : State) : Host.Outcome State Fault Refusal := .next (s.powerLow i)

/-- BOOT_STEP_COMPLETE. -/
def execBootStepComplete (unitKind unitIndex outcome : Byte) (detail : BitVec 32) (s : State) : Host.Outcome State Fault Refusal :=
  .next (s.stepDone (unitKind.toNat, unitIndex.toNat) outcome.toNat detail.toNat)

/-- BOOT_STEP_TIMEOUT. -/
def execBootStepTimeout (s : State) : Host.Outcome State Fault Refusal := .next s.stepLate

/-- FIRST_SENTRY_TIMEOUT. -/
def execFirstSentryTimeout (s : State) : Host.Outcome State Fault Refusal := .next s.firstSentryLate

end Sys2Proof.Machine
end

