-- ==== Sys2Proof/Machine/Tap.lean ====
section
/-! DEFINITION. The TAP: its instructions and the wire-pattern run (R502 to R504, Tables 26-8 and 26-9). -/

namespace Sys2Proof.Machine

/-- EXTEST and WIREPAT act: RESET_N is asserted and every power-good input reads high. -/
def State.tapActs (s : State) : Bool := !s.pins.resetN && s.pins.pg = 0x1FF#9

/-- Another instruction becomes current: the cells are no longer driven and a wire-pattern run ends without a result. -/
def State.tapLoad (s : State) (ir : BitVec 8) : State :=
  s.mapTap (fun t => { t with ir := ir, driven := false, wireRun := false })

/-- BYPASS: the bypass register captures 0 (PRESUMED: IEEE 1149.1). -/
def State.tapBypass (s : State) : State := (s.tapLoad 0xFF#8).mapTap (fun t => { t with bypass := false })

/-- The wire-pattern run ends: the result of Table 26-9. The bit of an HBM interface whose reference does not run reads 1. -/
def State.wireEnd (s : State) (hbm loft iod ring : BitVec 4) : State :=
  if !s.tap.wireRun then s
  else
    let dead := BitVec.ofNat 4 (((List.range 4).map (fun k => if Tab.get false s.flt.refLost k then 2 ^ k else 0)).foldl (· + ·) 0)
    s.mapTap (fun t => { t with wireRun := false, done := true, hbmFail := hbm ||| dead, loftFail := loft, iodFail := iod,
                                ringFail := ring })

/-- IDCODE. -/
def execIdcode (s : State) : Host.Outcome State Fault Refusal := .next (s.tapLoad 0x01#8)

/-- SAMPLE. -/
def execSample (s : State) : Host.Outcome State Fault Refusal :=
  let v := Config.boundaryCells s.freeCnt
  .next ({ s.tapLoad 0x02#8 with freeCnt := s.freeCnt + 1 }.mapTap (fun t => { t with bound := v }))

/-- PRELOAD. -/
def execPreload (v : List Bool) (s : State) : Host.Outcome State Fault Refusal :=
  .next ((s.tapLoad 0x03#8).mapTap (fun t => { t with bound := v }))

/-- EXTEST. -/
def execExtest (s : State) : Host.Outcome State Fault Refusal :=
  .next (if s.tapActs then (s.tapLoad 0x04#8).mapTap (fun t => { t with driven := true }) else s.tapBypass)

/-- WIREPAT. -/
def execWirepat (s : State) : Host.Outcome State Fault Refusal :=
  .next (if s.tapActs then (s.tapLoad 0x20#8).mapTap (fun t =>
      { t with wireRun := true, done := false, hbmFail := 0, loftFail := 0, iodFail := 0, ringFail := 0 })
    else s.tapBypass)

/-- WIREPAT_DONE. -/
def execWirepatDone (hbm loft iod ring : BitVec 4) (s : State) : Host.Outcome State Fault Refusal :=
  .next (s.wireEnd hbm loft iod ring)

/-- BYPASS. -/
def execBypass (s : State) : Host.Outcome State Fault Refusal := .next s.tapBypass

end Sys2Proof.Machine
end

