-- ==== Sys2Proof/Machine/Tick.lean ====
section
/-! DEFINITION. One island tick passing: what the block does when no command waits (R43, R44, R124). Every timeout is a
command of its own that reads these counts. -/

namespace Sys2Proof.Machine

/-- Beats of every running die advance by what its rate gives for this tick (R47, R124). -/
def State.countBeats (s : State) : State :=
  s.mapTime (fun t =>
    { t with beats := (List.range 4).foldl (fun m k =>
        if s.dieRuns k then Tab.upd 0 m k (· + Config.beatsPerTick k t.tickA) else m) t.beats })

/-- The upset that a tick brings to the codewords of the Granary: a second one in a codeword makes it uncorrectable. -/
def upsetEcc (ecc : Tab Nat) (t : Nat) : Tab Nat :=
  match Config.upset t with
  | some (a, two) =>
    match placeOf a with
    | .gran _ _ _ => Tab.upd 0 ecc (a / 8) (fun o => if two || decide (1 ≤ o) then 2 else 1)
    | _ => ecc
  | none => ecc

/-- What each die does at a tick: its walker serves a walk that waits, and a stack that has stopped or has been reset goes on. -/
def State.dieTick (s : State) (k : Nat) : State := (s.walkOne k).stackWork k

/-- One island tick: 10 ns, 10 periods of CLK_DNP, 8 of HCK and 25 quarter periods of CLK_SW (Tables 2-3 and 2-4). A clock whose
reference is lost does not count. While RESET_N is asserted nothing counts; in the safe state Hayward B's own clock alone
does (R354). -/
def State.tick (s : State) : State :=
  if !s.boot.started then s
  else if s.flt.safe then s.mapTime (fun t => { t with tickB := t.tickB + 1 })
  else
    (s.countBeats.mapTime (fun t =>
      { t with tickA := t.tickA + 1, tickB := t.tickB + 1, dnp := t.dnp + (if Tab.get false s.flt.refLost 4 then 0 else 10),
               hck := t.hck + 8, swq := t.swq + (if Tab.get false s.flt.refLost 5 then 0 else 25) })) |> fun t =>
      ((forUpto 4 (fun k a => a.dieTick k) t).endWaits.carryCheck).mapGrn (fun g => { g with ecc := upsetEcc g.ecc s.now })

end Sys2Proof.Machine
end

