-- ==== Sys2Proof/Machine/Dispatch.lean ====
section
/-! DEFINITION. The meaning of each command: one arm per constructor of `Instr`. -/

namespace Sys2Proof.Machine

def exec (i : Instr) (s : State) : Host.Outcome State Fault Refusal :=
  match i with
  | .ping h => Sys2Proof.Machine.execPing h s
  | .getInfo h => Sys2Proof.Machine.execGetInfo h s
  | .getJournal h => Sys2Proof.Machine.execGetJournal h s
  | .epochOpen h deadline => Sys2Proof.Machine.execEpochOpen h deadline s
  | .epochSchedule h mode period trigger deadline => Sys2Proof.Machine.execEpochSchedule h mode period trigger deadline s
  | .epochHalt h => Sys2Proof.Machine.execEpochHalt h s
  | .recordSchedule h mask every destMask => Sys2Proof.Machine.execRecordSchedule h mask every destMask s
  | .contextCreate h ctx part sc base len => Sys2Proof.Machine.execContextCreate h ctx part sc base len s
  | .contextDestroy h ctx => Sys2Proof.Machine.execContextDestroy h ctx s
  | .graphLoad h ctx src sha => Sys2Proof.Machine.execGraphLoad h ctx src sha s
  | .graphStart h ctx => Sys2Proof.Machine.execGraphStart h ctx s
  | .graphStop h ctx => Sys2Proof.Machine.execGraphStop h ctx s
  | .opcTableWrite h die levels => Sys2Proof.Machine.execOpcTableWrite h die levels s
  | .opcLevelSet h die level => Sys2Proof.Machine.execOpcLevelSet h die level s
  | .throttleTableWrite h die src => Sys2Proof.Machine.execThrottleTableWrite h die src s
  | .wdgConfig h stage cfg => Sys2Proof.Machine.execWdgConfig h stage cfg s
  | .ingestTableWrite h stream src => Sys2Proof.Machine.execIngestTableWrite h stream src s
  | .switchTableWrite h table src => Sys2Proof.Machine.execSwitchTableWrite h table src s
  | .bandwidthSet h part hbm fabric => Sys2Proof.Machine.execBandwidthSet h part hbm fabric s
  | .roleSwap h => Sys2Proof.Machine.execRoleSwap h s
  | .rehearsalSet h interval mask => Sys2Proof.Machine.execRehearsalSet h interval mask s
  | .attest h nonce => Sys2Proof.Machine.execAttest h nonce s
  | .keyInstall h place src => Sys2Proof.Machine.execKeyInstall h place src s
  | .weightDecrypt h place src dst len => Sys2Proof.Machine.execWeightDecrypt h place src dst len s
  | .resetUnit h kind index => Sys2Proof.Machine.execResetUnit h kind index s
  | .mapOut h kind index => Sys2Proof.Machine.execMapOut h kind index s
  | .fallbackRequest h reason => Sys2Proof.Machine.execFallbackRequest h reason s
  | .fallbackClear h => Sys2Proof.Machine.execFallbackClear h s
  | .shutdown h => Sys2Proof.Machine.execShutdown h s
  | .mbxDoorbellWrite w v => Sys2Proof.Machine.execMbxDoorbellWrite w v s
  | .mbxReleaseWrite w v => Sys2Proof.Machine.execMbxReleaseWrite w v s
  | .mbxStickyClear w v => Sys2Proof.Machine.execMbxStickyClear w v s
  | .slotBodyWrite w slot off data => Sys2Proof.Machine.execSlotBodyWrite w slot off data s
  | .slotTake => Sys2Proof.Machine.execSlotTake s
  | .backgroundWorkEnd e => Sys2Proof.Machine.execBackgroundWorkEnd e s
  | .backgroundLimitExpiry slot => Sys2Proof.Machine.execBackgroundLimitExpiry slot s
  | .scheduleTick => Sys2Proof.Machine.execScheduleTick s
  | .epochOpenEvent => Sys2Proof.Machine.execEpochOpenEvent s
  | .epochDeadlineExpiry n => Sys2Proof.Machine.execEpochDeadlineExpiry n s
  | .epochDigestComputed n => Sys2Proof.Machine.execEpochDigestComputed n s
  | .epochPublish n => Sys2Proof.Machine.execEpochPublish n s
  | .tlySelLoWrite w win v => Sys2Proof.Machine.execTlySelLoWrite w win v s
  | .tlySnapshotCopyDone win => Sys2Proof.Machine.execTlySnapshotCopyDone win s
  | .tlyLoRead w which => Sys2Proof.Machine.execTlyLoRead w which s
  | .wdgTickLoRead w => Sys2Proof.Machine.execWdgTickLoRead w s
  | .blkMapEpochLoRead w k m => Sys2Proof.Machine.execBlkMapEpochLoRead w k m s
  | .registerWrite w addr wide v => Sys2Proof.Machine.execRegisterWrite w addr wide v s
  | .sheafStart u => Sys2Proof.Machine.execSheafStart u s
  | .steal thief => Sys2Proof.Machine.execSteal thief s
  | .sheafEnd u => Sys2Proof.Machine.execSheafEnd u s
  | .gemm e => Sys2Proof.Machine.execGemm e s
  | .igemm e => Sys2Proof.Machine.execIgemm e s
  | .gemmWActivation e => Sys2Proof.Machine.execGemmWActivation e s
  | .program e => Sys2Proof.Machine.execProgram e s
  | .depthwise e => Sys2Proof.Machine.execDepthwise e s
  | .cNop e => Sys2Proof.Machine.execCNop e s
  | .cEnd e => Sys2Proof.Machine.execCEnd e s
  | .cLoop e count body => Sys2Proof.Machine.execCLoop e count body s
  | .seta e ar v => Sys2Proof.Machine.execSeta e ar v s
  | .sets e sd v => Sys2Proof.Machine.execSets e sd v s
  | .spar e sd index => Sys2Proof.Machine.execSpar e sd index s
  | .cFence e => Sys2Proof.Machine.execCFence e s
  | .xld e slot ar ss len => Sys2Proof.Machine.execXld e slot ar ss len s
  | .xst e slot ar ss len => Sys2Proof.Machine.execXst e slot ar ss len s
  | .transferEnd e index => Sys2Proof.Machine.execTransferEnd e index s
  | .gather e vd va slot ss km => Sys2Proof.Machine.execGather e vd va slot ss km s
  | .scatter e vs va slot ss km => Sys2Proof.Machine.execScatter e vs va slot ss km s
  | .ld e vd fmt ar inc km off => Sys2Proof.Machine.execLd e vd fmt ar inc km off s
  | .st e vs fmt ar rnd sat q inc off => Sys2Proof.Machine.execSt e vs fmt ar rnd sat q inc off s
  | .valuF e vd va vb km fn => Sys2Proof.Machine.execValuF e vd va vb km fn s
  | .valuI e vd va vb km fn => Sys2Proof.Machine.execValuI e vd va vb km fn s
  | .vcmpF e vd va vb km fn => Sys2Proof.Machine.execVcmpF e vd va vb km fn s
  | .vcmpI e vd va vb km fn => Sys2Proof.Machine.execVcmpI e vd va vb km fn s
  | .vsel e vd va vb km fn => Sys2Proof.Machine.execVsel e vd va vb km fn s
  | .kop e vd va vb km fn => Sys2Proof.Machine.execKop e vd va vb km fn s
  | .vfunc e vd va vb km fn => Sys2Proof.Machine.execVfunc e vd va vb km fn s
  | .vred e vd va vb km fn => Sys2Proof.Machine.execVred e vd va vb km fn s
  | .vtsum e vd va vb km fn => Sys2Proof.Machine.execVtsum e vd va vb km fn s
  | .vperm e vd va vb km fn => Sys2Proof.Machine.execVperm e vd va vb km fn s
  | .vcmpx e vd va vb km fn => Sys2Proof.Machine.execVcmpx e vd va vb km fn s
  | .win e vd va vb km fn => Sys2Proof.Machine.execWin e vd va vb km fn s
  | .seed k => Sys2Proof.Machine.execSeed k s
  | .optimise k => Sys2Proof.Machine.execOptimise k s
  | .check k => Sys2Proof.Machine.execCheck k s
  | .select k => Sys2Proof.Machine.execSelect k s
  | .commit k => Sys2Proof.Machine.execCommit k s
  | .checkList k => Sys2Proof.Machine.execCheckList k s
  | .blkMapCommitWrite w k m wide v => Sys2Proof.Machine.execBlkMapCommitWrite w k m wide v s
  | .blkMapEnable w k m v => Sys2Proof.Machine.execBlkMapEnable w k m v s
  | .gateEntryOpen ctx node => Sys2Proof.Machine.execGateEntryOpen ctx node s
  | .eqDoorbell w e wide v => Sys2Proof.Machine.execEqDoorbell w e wide v s
  | .eqGateDone w k v => Sys2Proof.Machine.execEqGateDone w k v s
  | .hbmRegulatorWindow k => Sys2Proof.Machine.execHbmRegulatorWindow k s
  | .fabricRead r => Sys2Proof.Machine.execFabricRead r s
  | .fabricPostedWrite r data => Sys2Proof.Machine.execFabricPostedWrite r data s
  | .fabricAckWrite r data => Sys2Proof.Machine.execFabricAckWrite r data s
  | .fabricAtomic r op operand compare => Sys2Proof.Machine.execFabricAtomic r op operand compare s
  | .fabricReply src tag gen => Sys2Proof.Machine.execFabricReply src tag gen s
  | .trackerAdmit k => Sys2Proof.Machine.execTrackerAdmit k s
  | .getS c l => Sys2Proof.Machine.execGetS c l s
  | .getM c l => Sys2Proof.Machine.execGetM c l s
  | .upgrade c l => Sys2Proof.Machine.execUpgrade c l s
  | .putM cl line data => Sys2Proof.Machine.execPutM cl line data s
  | .putS cl line => Sys2Proof.Machine.execPutS cl line s
  | .fwdS owner requester line => Sys2Proof.Machine.execFwdS owner requester line s
  | .fwdM owner requester line => Sys2Proof.Machine.execFwdM owner requester line s
  | .inv cl line => Sys2Proof.Machine.execInv cl line s
  | .coherenceData cl line data own => Sys2Proof.Machine.execCoherenceData cl line data own s
  | .coherenceAck cl line => Sys2Proof.Machine.execCoherenceAck cl line s
  | .bankHandover w k n expect dest clear preq => Sys2Proof.Machine.execBankHandover w k n expect dest clear preq s
  | .bankClear w k n preq => Sys2Proof.Machine.execBankClear w k n preq s
  | .bankPowerChange w k n preq => Sys2Proof.Machine.execBankPowerChange w k n preq s
  | .bankClearDone k n => Sys2Proof.Machine.execBankClearDone k n s
  | .bankTransitionDone k n => Sys2Proof.Machine.execBankTransitionDone k n s
  | .glnGo w k g v => Sys2Proof.Machine.execGlnGo w k g v s
  | .glnStop w k g => Sys2Proof.Machine.execGlnStop w k g s
  | .glnStreamStart k g => Sys2Proof.Machine.execGlnStreamStart k g s
  | .glnStreamLanded k g => Sys2Proof.Machine.execGlnStreamLanded k g s
  | .kvwBump w k ctx v => Sys2Proof.Machine.execKvwBump w k ctx v s
  | .hbmPageIdleExpiry k pc bank => Sys2Proof.Machine.execHbmPageIdleExpiry k pc bank s
  | .hbmUrgencyStep k pc idx => Sys2Proof.Machine.execHbmUrgencyStep k pc idx s
  | .hbmAgePromotion k pc idx => Sys2Proof.Machine.execHbmAgePromotion k pc idx s
  | .hbmSchedule k pc => Sys2Proof.Machine.execHbmSchedule k pc s
  | .hbmRefreshDue k pc bank => Sys2Proof.Machine.execHbmRefreshDue k pc bank s
  | .hbmReadBurstResult k addr ctx port r => Sys2Proof.Machine.execHbmReadBurstResult k addr ctx port r s
  | .hbmTrainingDone k pass spares => Sys2Proof.Machine.execHbmTrainingDone k pass spares s
  | .outputStepComplete k => Sys2Proof.Machine.execOutputStepComplete k s
  | .outputCut k => Sys2Proof.Machine.execOutputCut k s
  | .progressTimeout k => Sys2Proof.Machine.execProgressTimeout k s
  | .mrpStaleExpiry => Sys2Proof.Machine.execMrpStaleExpiry s
  | .mrpPeriodExpiry => Sys2Proof.Machine.execMrpPeriodExpiry s
  | .ingestUnit stream u => Sys2Proof.Machine.execIngestUnit stream u s
  | .ingestSampleLanded stream ch => Sys2Proof.Machine.execIngestSampleLanded stream ch s
  | .ingestCloseTimeout stream ch => Sys2Proof.Machine.execIngestCloseTimeout stream ch s
  | .ingestZeroFillDone stream ch => Sys2Proof.Machine.execIngestZeroFillDone stream ch s
  | .coolantSample tin tout => Sys2Proof.Machine.execCoolantSample tin tout s
  | .flowPulse level => Sys2Proof.Machine.execFlowPulse level s
  | .flowUpdate => Sys2Proof.Machine.execFlowUpdate s
  | .switchFrameRx port f => Sys2Proof.Machine.execSwitchFrameRx port f s
  | .qbvGateEntry port => Sys2Proof.Machine.execQbvGateEntry port s
  | .epLinkDown port => Sys2Proof.Machine.execEpLinkDown port s
  | .epLinkUp port verified => Sys2Proof.Machine.execEpLinkUp port verified s
  | .kcpFrameRx frame => Sys2Proof.Machine.execKcpFrameRx frame s
  | .regRead => Sys2Proof.Machine.execRegRead s
  | .slotWrite => Sys2Proof.Machine.execSlotWrite s
  | .slotPost => Sys2Proof.Machine.execSlotPost s
  | .doorbell => Sys2Proof.Machine.execDoorbell s
  | .release => Sys2Proof.Machine.execRelease s
  | .ledgerRead => Sys2Proof.Machine.execLedgerRead s
  | .bulkWrite => Sys2Proof.Machine.execBulkWrite s
  | .sessionOpen frame => Sys2Proof.Machine.execSessionOpen frame s
  | .sessionClose frame => Sys2Proof.Machine.execSessionClose frame s
  | .sessionIdleExpiry session => Sys2Proof.Machine.execSessionIdleExpiry session s
  | .gxctxWrite c v => Sys2Proof.Machine.execGxctxWrite c v s
  | .gxerrClear c v => Sys2Proof.Machine.execGxerrClear c v s
  | .mcycleWrite c v => Sys2Proof.Machine.execMcycleWrite c v s
  | .wfi c => Sys2Proof.Machine.execWfi c s
  | .wrsNto c => Sys2Proof.Machine.execWrsNto c s
  | .wrsSto c => Sys2Proof.Machine.execWrsSto c s
  | .cboClean c addr => Sys2Proof.Machine.execCboClean c addr s
  | .cboFlush c addr => Sys2Proof.Machine.execCboFlush c addr s
  | .cboInval c addr => Sys2Proof.Machine.execCboInval c addr s
  | .islandTransaction island core t => Sys2Proof.Machine.execIslandTransaction island core t s
  | .lockstepTimeout island => Sys2Proof.Machine.execLockstepTimeout island s
  | .exchangeInputRelease inp => Sys2Proof.Machine.execExchangeInputRelease inp s
  | .exchangePoll core => Sys2Proof.Machine.execExchangePoll core s
  | .splitAliveCheck island core => Sys2Proof.Machine.execSplitAliveCheck island core s
  | .sentryMessageSend => Sys2Proof.Machine.execSentryMessageSend s
  | .sentryMessage tickA crcOk fault halt => Sys2Proof.Machine.execSentryMessage tickA crcOk fault halt s
  | .sentryWindowExpiry => Sys2Proof.Machine.execSentryWindowExpiry s
  | .railFault rail => Sys2Proof.Machine.execRailFault rail s
  | .stageEvent stage epoch stamp => Sys2Proof.Machine.execStageEvent stage epoch stamp s
  | .goldenDueExpiry n => Sys2Proof.Machine.execGoldenDueExpiry n s
  | .goldenCompare n => Sys2Proof.Machine.execGoldenCompare n s
  | .stestSliceDue u => Sys2Proof.Machine.execStestSliceDue u s
  | .stestSliceStart u => Sys2Proof.Machine.execStestSliceStart u s
  | .stestSliceEnd u pass => Sys2Proof.Machine.execStestSliceEnd u pass s
  | .stestSliceOverrun u => Sys2Proof.Machine.execStestSliceOverrun u s
  | .hbChallenge port src payload => Sys2Proof.Machine.execHbChallenge port src payload s
  | .denpaTrainingDone ok => Sys2Proof.Machine.execDenpaTrainingDone ok s
  | .denpaTrainingRetry => Sys2Proof.Machine.execDenpaTrainingRetry s
  | .denpaFrameRx f => Sys2Proof.Machine.execDenpaFrameRx f s
  | .denpaAckTimeout => Sys2Proof.Machine.execDenpaAckTimeout s
  | .denpaCreditTimeout ch => Sys2Proof.Machine.execDenpaCreditTimeout ch s
  | .denpaRetrainStart => Sys2Proof.Machine.execDenpaRetrainStart s
  | .msgCredit ch frames => Sys2Proof.Machine.execMsgCredit ch frames s
  | .msgIdent serial rev ifVer => Sys2Proof.Machine.execMsgIdent serial rev ifVer s
  | .msgRoleHb pstate canCmd term opened decided configGen => Sys2Proof.Machine.execMsgRoleHb pstate canCmd term opened decided configGen s
  | .msgOpen epoch deadline paired first apply => Sys2Proof.Machine.execMsgOpen epoch deadline paired first apply s
  | .msgResign cause first => Sys2Proof.Machine.execMsgResign cause first s
  | .msgExpel epoch => Sys2Proof.Machine.execMsgExpel epoch s
  | .msgTag stream ch tag => Sys2Proof.Machine.execMsgTag stream ch tag s
  | .msgCfg slot body dataLen => Sys2Proof.Machine.execMsgCfg slot body dataLen s
  | .msgCfgAck slot code seq detail => Sys2Proof.Machine.execMsgCfgAck slot code seq detail s
  | .msgInput epoch count digest => Sys2Proof.Machine.execMsgInput epoch count digest s
  | .msgDigest epoch whole withhold digest => Sys2Proof.Machine.execMsgDigest epoch whole withhold digest s
  | .msgDigestAck epoch => Sys2Proof.Machine.execMsgDigestAck epoch s
  | .msgEvidence epoch word => Sys2Proof.Machine.execMsgEvidence epoch word s
  | .msgProgress epoch p => Sys2Proof.Machine.execMsgProgress epoch p s
  | .msgJoinReq configGen => Sys2Proof.Machine.execMsgJoinReq configGen s
  | .msgJoinImage offset total part => Sys2Proof.Machine.execMsgJoinImage offset total part s
  | .msgJoinDone last => Sys2Proof.Machine.execMsgJoinDone last s
  | .msgFwdUnit stream ch u => Sys2Proof.Machine.execMsgFwdUnit stream ch u s
  | .msgFwdBegin stream ch tag arrive => Sys2Proof.Machine.execMsgFwdBegin stream ch tag arrive s
  | .msgFwdClose stream ch cause epoch => Sys2Proof.Machine.execMsgFwdClose stream ch cause epoch s
  | .msgCfgData addr data => Sys2Proof.Machine.execMsgCfgData addr data s
  | .pairAliveInEdge level => Sys2Proof.Machine.execPairAliveInEdge level s
  | .sheafMonitorExpiry u => Sys2Proof.Machine.execSheafMonitorExpiry u s
  | .outputStageMonitorExpiry k => Sys2Proof.Machine.execOutputStageMonitorExpiry k s
  | .fabricMonitorExpiry k => Sys2Proof.Machine.execFabricMonitorExpiry k s
  | .linkMonitorExpiry l => Sys2Proof.Machine.execLinkMonitorExpiry l s
  | .deputyMonitorExpiry k j => Sys2Proof.Machine.execDeputyMonitorExpiry k j s
  | .reeveMonitorExpiry => Sys2Proof.Machine.execReeveMonitorExpiry s
  | .suspectReplay recurs => Sys2Proof.Machine.execSuspectReplay recurs s
  | .dieFenceDrained k => Sys2Proof.Machine.execDieFenceDrained k s
  | .dieImagesLoaded k ok => Sys2Proof.Machine.execDieImagesLoaded k ok s
  | .dieSelfTestDone k ok => Sys2Proof.Machine.execDieSelfTestDone k ok s
  | .dieLinksTrained k ok => Sys2Proof.Machine.execDieLinksTrained k ok s
  | .dieInjectionDone k ok => Sys2Proof.Machine.execDieInjectionDone k ok s
  | .unitResetDone kind index => Sys2Proof.Machine.execUnitResetDone kind index s
  | .linkRetrainDone l ok => Sys2Proof.Machine.execLinkRetrainDone l ok s
  | .refclkLoss r => Sys2Proof.Machine.execRefclkLoss r s
  | .refclkStable r => Sys2Proof.Machine.execRefclkStable r s
  | .thermalSample unit readings => Sys2Proof.Machine.execThermalSample unit readings s
  | .thermalEvaluation vehReady stks => Sys2Proof.Machine.execThermalEvaluation vehReady stks s
  | .avsWriteComplete k => Sys2Proof.Machine.execAvsWriteComplete k s
  | .rateMonitorWindow k rate => Sys2Proof.Machine.execRateMonitorWindow k rate s
  | .telemetryRound rails dies => Sys2Proof.Machine.execTelemetryRound rails dies s
  | .pgLow idx => Sys2Proof.Machine.execPgLow idx s
  | .bootStepComplete unitKind unitIndex outcome detail => Sys2Proof.Machine.execBootStepComplete unitKind unitIndex outcome detail s
  | .preload v => Sys2Proof.Machine.execPreload v s
  | .wirepatDone hbm loft iod ring => Sys2Proof.Machine.execWirepatDone hbm loft iod ring s
  | .cpLinkDown port => Sys2Proof.Machine.execCpLinkDown port s
  | .cpLinkUp port => Sys2Proof.Machine.execCpLinkUp port s
  | .egressFrameSent port => Sys2Proof.Machine.execEgressFrameSent port s
  | .hbmRfmRequest k pc bank => Sys2Proof.Machine.execHbmRfmRequest k pc bank s
  | .powerGoodRise idx => Sys2Proof.Machine.execPowerGoodRise idx s
  | .idcode => Sys2Proof.Machine.execIdcode s
  | .sample => Sys2Proof.Machine.execSample s
  | .extest => Sys2Proof.Machine.execExtest s
  | .wirepat => Sys2Proof.Machine.execWirepat s
  | .bypass => Sys2Proof.Machine.execBypass s
  | .bootStepTimeout => Sys2Proof.Machine.execBootStepTimeout s
  | .firstSentryTimeout => Sys2Proof.Machine.execFirstSentryTimeout s
  | .resetNAssert => Sys2Proof.Machine.execResetNAssert s
  | .resetNRelease => Sys2Proof.Machine.execResetNRelease s
  | .denpaFrameTx => Sys2Proof.Machine.execDenpaFrameTx s
  | .telemetryTimeout => Sys2Proof.Machine.execTelemetryTimeout s
  | .roleHbSend => Sys2Proof.Machine.execRoleHbSend s
  | .roleHbTimeout => Sys2Proof.Machine.execRoleHbTimeout s
  | .pairAliveToggle => Sys2Proof.Machine.execPairAliveToggle s
  | .pairAliveSilence => Sys2Proof.Machine.execPairAliveSilence s
  | .decidingTimeout => Sys2Proof.Machine.execDecidingTimeout s
  | .rehearsalDue => Sys2Proof.Machine.execRehearsalDue s
  | .rehearsalTimeout => Sys2Proof.Machine.execRehearsalTimeout s

end Sys2Proof.Machine
end

