-- ==== Sys2Proof/Safety.lean ====
section
/-! DEFINITION. What counts as a safe run: the machine goes on, and the data it holds keeps its canonical form. -/

namespace Sys2Proof.Machine

/-- The step answers a next state. -/
def goesOn (o : Host.Outcome State Fault Refusal) : Prop := ∃ t, o = .next t

/-- The canonical form of memory: rising addresses, no zero byte listed. -/
def Memory.wf (m : Tab Byte) : Bool := Tab.wf 0#8 m

/-- The memory of a state has its canonical form. -/
def memoryWf (s : State) : Prop := Memory.wf s.mem = true

/-- Nothing of an epoch or of the pair is due: no epoch is open, the module is not commander of a pair, and no role swap
waits. What follows a command of itself (the decision of epochs, a resignation, a role swap) then does not occur. -/
def quiet (s : State) : Bool := s.tly.openEps.isEmpty && s.pair.pstate != 1#3 && s.pair.swapAt.isNone

/-- No codeword of a bank and no burst of a stack holds an error (R237, R263). -/
def clean (s : State) : Bool := s.grn.ecc.isEmpty && s.hmc.stks.all (fun h => h.2.unc.isEmpty)

/-- The initiator is an application core; a Gleaner. -/
def isCoreSrc (i : Initiator) : Bool := match i with | .core _ => true | _ => false
def isGlnSrc (i : Initiator) : Bool := match i with | .gleaner _ _ => true | _ => false

/-- The fabric takes a request of an initiator at the address as it stands: the module runs, the TAG is free, GEN is the node's, the
address is aligned to the size (R21, R22), and a core that makes it works for a context (R336). -/
def sendable (s : State) (q : FabReq) : Bool :=
  s.awake && !s.fab.pend.any (sameTxn q.src q.tag) && Tab.get 0#8 s.flt.gens (nodeOf q.src) == q.gen && q.addr.toNat % q.size.bytes == 0 &&
    (match q.src with | .core c => q.virt.isNone && (s.coreOf c).valid | _ => true)

/-- Bank n of die k takes an access at once: the die runs, its tracker has room (R25) and the bank does not clear (R232). -/
def bankServes (s : State) (k n : Nat) : Bool :=
  s.dieRuns k && decide (s.tracked k < trackerSize) && (Tab.get [] s.fab.held k).isEmpty && !(s.bank (2048 * k + n)).clearing

/-- The transaction that the fabric tracks for a request sent at a tick; `zeros` bytes answer it if it fails (R29). -/
def pendOf (q : FabReq) (tick zeros : Nat) (die : Option Nat) (answer : Option (AccStatus × List Byte)) : Pend :=
  { src := q.src, tag := q.tag, gen := q.gen, addr := q.addr.toNat, posted := false, zeros := zeros, die := die, since := tick, answer := answer }

/-- A coherence message as its node sends it, with its GEN (R410). -/
def sentMsg (s : State) (m : CohMsg) : CohMsg := { m with gen := Tab.get 0#8 s.flt.gens m.src }

/-- The first message in flight that satisfies p still carries the GEN of the node that has sent it. -/
def inFlight (s : State) (p : CohMsg → Bool) : Prop := ∃ m, s.core.msgs.find? p = some m ∧ m.gen = Tab.get 0#8 s.flt.gens m.src

/-- Core c may ask the home of a line, which serves no other request for it, and no PUT of its cluster for it is in flight. -/
def homeFree (s : State) (c : Fin 32) (line : BitVec 34) : Prop :=
  s.barred c (64 * line.toNat) = false ∧ s.judge (s.whoCore c) (64 * line.toNat) = .ok ∧ homeDie line.toNat < 4 ∧
    Tab.look s.core.txns line.toNat = none ∧ s.putComes (c / 4) line.toNat = false

/-- A request has changed only the messages, the transactions of lines and the counters of its core. -/
def asked (s t : State) (c : Fin 32) : Prop :=
  t = { s with core := t.core } ∧ t.core.lines = s.core.lines ∧ t.core.dir = s.core.dir ∧ (∀ i, i ≠ c.val → t.coreOf i = s.coreOf i) ∧
    t.coreOf c = { s.coreOf c with hpm := (t.coreOf c).hpm, overflow := (t.coreOf c).overflow }

/-- The Reeve can take the command that slot h.slot offers: READY, ROLE 1, not hung and not shut down, nothing waiting, ACTIVE or
on its way to a twin, the slot FREE, SEQ the next of the slot, and no TARGET_EPOCH. -/
def slotReady (s : State) (h : CmdHdr) : Bool :=
  s.mbx.ready && s.mbx.role && !s.flt.reeveHung && !s.thm.shutdown && s.mbx.order.isEmpty && s.cmds.active.isEmpty &&
    s.pair.carried.isEmpty && s.sec.nextPair.isNone && (s.slotOf h.slot).state == 0#2 && (s.slotOf h.slot).lastSeq + 1 == h.seq && !h.atEpoch

/-- The same in a module that is quiet, has no twin that takes part, and of which no epoch is open or about to open, by a schedule or by
an OPEN in flight: a command of class E then applies at once (Table 3-8). -/
def served (s : State) (h : CmdHdr) : Bool := slotReady s h && quiet s && !s.sendsOpen && !s.opensLater

/-- The slot is DONE with a code, its SEQ is the last completed one, nothing is ACTIVE, and every other slot is as before. -/
def mailDone (h : CmdHdr) (op code : Nat) (s t : State) : Prop :=
  (t.slotOf h.slot).state = 3#2 ∧ (t.slotOf h.slot).code = code ∧ (t.slotOf h.slot).opcode = op ∧ (t.slotOf h.slot).cseq = h.seq ∧
    (code ≠ 0x13 → (t.slotOf h.slot).lastSeq = h.seq) ∧ t.mbx = { s.mbx with slots := t.mbx.slots } ∧
    (∀ i, i ≠ h.slot.val → t.slotOf i = s.slotOf i) ∧ t.cmds.active = []

/-- A command of class E has applied at once: DONE with OK and the next epoch, counted in CONFIG_GEN, listed for that epoch, and
kept in the configuration store. -/
def applied (h : CmdHdr) (op : Nat) (s t : State) : Prop :=
  mailDone h op 0 s t ∧ (t.slotOf h.slot).epoch = s.nextN ∧ t.tly.configGen = s.tly.configGen + 1 ∧
    t.tly.early = s.tly.early ++ [{ opcode := op, seq := h.seq, slot := h.slot }] ∧ t.cmds.store.length = s.cmds.store.length + 1

/-- A command has been taken and is ACTIVE in a phase. -/
def nowActive (h : CmdHdr) (op : Nat) (p : CmdPhase) (s t : State) : Prop :=
  (t.slotOf h.slot).state = 2#2 ∧ t.cmds.active.map (fun a => (a.slot, a.opcode, a.seq, a.phase)) = [(h.slot.val, op, h.seq, p)] ∧
    t.mbx = { s.mbx with slots := t.mbx.slots } ∧ (∀ i, i ≠ h.slot.val → t.slotOf i = s.slotOf i)

/-- The command answers a next state: its own effect is u, and what then follows of itself is `settle` (the decision of withheld
epochs, R87, R88, a resignation, R388, a role swap, R389). -/
def settlesTo (o : Host.Outcome State Fault Refusal) (u : State) : Prop := o = .next u.settle

/-- The same, where commands that wait for a twin are looked at last (R379). -/
def carriesTo (o : Host.Outcome State Fault Refusal) (u : State) : Prop := o = .next u.settle.carryCheck

/-- One fault record has been written at the head of the log (R398): its severity, source kind, unit, class and action. -/
def logged (s u : State) (sev kind unit cls action : Nat) : Prop :=
  u.flt.next = s.flt.next + 1 ∧ u.flt.total = s.flt.total + 1 ∧
    (∃ r, Tab.look u.flt.flog s.flt.next.toNat = some r ∧ r.sev = sev ∧ r.kind = kind ∧ r.unit = unit ∧ r.cls = cls ∧ r.action = action) ∧
    ∀ i, i ≠ s.flt.next.toNat → Tab.look u.flt.flog i = Tab.look s.flt.flog i

/-- The head request of the KCP queue has left it and its response has gone out; u is the state before the answer. -/
def answeredKcp (q : KcpReq) (status : Nat) (payload : List Byte) (u t : State) : Prop :=
  t.kcp = { u.kcp with
    queue := [], copying := false,
    sent := { ftype := 2, session := q.session, op := q.op, status := status, seq := q.seq, payload := payload } :: u.kcp.sent }

/-- Quiet, and no command is ACTIVE or waits for the twin's answer: what follows of itself changes nothing. -/
def calm (s : State) : Bool := quiet s && s.cmds.active.isEmpty && s.pair.carried.isEmpty

/-- Hayward A has raised a fault (R348, R349): it stops, the fault is recorded with severity 3, and the next sentry message says it. -/
def faultedA (s t : State) : Prop :=
  t = { s with hwa := t.hwa, hwb := t.hwb, flt := t.flt, freeCnt := t.freeCnt } ∧
    t.hwa = { s.hwa with fault := true, held := none } ∧
    t.hwb = { s.hwb with sent := s.hwb.sent ++ [{ tick := BitVec.ofNat 32 s.now, fault := true, halt := false }] } ∧
    t.flt.next = s.flt.next + 1 ∧ t.flt.total = s.flt.total + 1 ∧ ∃ r, Tab.look t.flt.flog s.flt.next.toNat = some r ∧ r.sev = 3

/-- The link has gone down with what it carried, and the fault is recorded (R373). -/
def linkLost (s t : State) : Prop :=
  t.dnp = s.dnp.cleared s.time.dnp ∧ ∃ c, logged s t 2 0x0B 0 c 0

/-- The message has been taken from those that the link has delivered. -/
def took (s t : State) (m : DMsg) : Prop := t.dnp = { s.dnp with msgs := s.dnp.msgs.erase m }

/-- Lane i of vector register r, and bit i of mask register r (Table 9-1). -/
def lane (c : Carder) (r i : Nat) : BitVec 32 := (c.vreg r).getD i 0#32
def maskBit (c : Carder) (r i : Nat) : Bool := (c.mask r).getD i false

/-- Carder e has issued an instruction that writes vector register vd: active lanes of mask km take f, the others keep theirs
(R190), the next instruction follows, and nothing else changes. -/
def writesV (s t : State) (e vd km : Nat) (f : Nat → BitVec 32) : Prop :=
  t = { s with carders := t.carders } ∧ (∀ i, i ≠ e → t.carder i = s.carder i) ∧
    t.carder e = { (s.carder e).advance with v := (t.carder e).v } ∧ (∀ r, r ≠ vd → (t.carder e).vreg r = (s.carder e).vreg r) ∧
    ∀ i < 1024, lane (t.carder e) vd i = if maskBit (s.carder e) km i then f i else lane (s.carder e) vd i

/-- The same for mask register kd; K0 ignores writes (Table 9-1). -/
def writesK (s t : State) (e kd km : Nat) (f : Nat → Bool) : Prop :=
  t = { s with carders := t.carders } ∧ (∀ i, i ≠ e → t.carder i = s.carder i) ∧
    t.carder e = { (s.carder e).advance with k := (t.carder e).k } ∧ (∀ r, r ≠ kd → (t.carder e).mask r = (s.carder e).mask r) ∧
    (kd ≠ 0 → ∀ i < 1024, maskBit (t.carder e) kd i = if maskBit (s.carder e) km i then f i else maskBit (s.carder e) kd i) ∧
    (kd = 0 → (t.carder e).k = (s.carder e).k)

/-- Only Carder e has changed, and it is now c. -/
def carderIs (s t : State) (e : Nat) (c : Carder) : Prop :=
  t = { s with carders := t.carders } ∧ t.carder e = c ∧ ∀ i, i ≠ e → t.carder i = s.carder i

/-- Unit u has run its sheaf r with result x: only memory has changed besides. -/
def ranWith (s t : State) (u : Nat) (r : Running) (x : SheafResult) : Prop :=
  t = { s with cx := t.cx, mem := t.mem } ∧ (t.eng u).running = some { r with result := some x } ∧ ∀ i, i ≠ u → t.eng i = s.eng i

end Sys2Proof.Machine
end

