-- ==== Sys2Proof/Certificates/Slice0/Obligations.lean ====
section
/-! DEFINITION. The statements for the provers. A frame `t = { s with b := t.b }` says that every block of the state but `b` is as
before, memory and the queue included. -/

open Sys2Proof Sys2Proof.Machine

/-- A step takes the command in front of the queue and runs it on the state with the queue's rest. With an empty queue one island tick
passes (the model's choice, log entry 13): from the start on both islands count it, unless the module is in the safe state,
where Hayward B alone does (R354); before the start nothing changes. -/
def Obligations.StepRunsFront : Prop :=
  (∀ (c : Instr) (rest : List Instr) (s : State), s.pending = c :: rest → step s = exec c { s with pending := rest }) ∧
  (∀ s : State, s.pending = [] → ∃ t, step s = .next t ∧ t.pending = [] ∧ (s.boot.started = false → t = s) ∧
    (s.boot.started = true → s.cmds.active = [] → t.mem = s.mem ∧ t.time.tickB = s.time.tickB + 1 ∧
      (s.flt.safe = false → t.time.tickA = s.time.tickA + 1) ∧ (s.flt.safe = true → t.time.tickA = s.time.tickA)))

/-- Every command completes, and leaves the queue as it finds it: none stops with a fault or a refusal. -/
def Obligations.EveryCommandGoesOnAndKeepsTheQueue : Prop :=
  ∀ (c : Instr) (s : State), ∃ t, exec c s = .next t ∧ t.pending = s.pending

/-- What reset leaves, by the values the spec gives: no command, no epoch, epoch numbers 0, no master and not READY, every
last completed SEQ 0xFFFF (R71), LEVEL_CAP 0xF and VCODE 0x50 (Table 2-9), bank owners 0x40 and banks OFF (Table 11-6), the pump
at full demand (Table 15-7), role OUT (R386). Memory has its canonical form: addresses strictly rising, no zero byte listed. -/
def Obligations.ResetValues : Prop :=
  State.reset.pending = [] ∧ State.reset.tly.openEps = [] ∧ State.reset.tly.latest = 0#64 ∧ State.reset.tly.opened = 0#64 ∧
  State.reset.mbx.ready = false ∧ State.reset.mbx.role = false ∧
  (∀ i : Fin 16, (State.reset.slotOf i).state = 0#2 ∧ (State.reset.slotOf i).lastSeq = 0xFFFF#16) ∧
  (∀ n : Fin 8192, (State.reset.bank n).owner = 0x40#7 ∧ (State.reset.bank n).pstate = 2#2) ∧
  State.reset.cool.duty = 0xFF#8 ∧ State.reset.pair.pstate = 4#3 ∧ memoryWf State.reset

/-- The canonical form of memory is kept by every step, whatever the command. -/
def Obligations.EveryStepKeepsMemoryCanonical : Prop :=
  ∀ s t : State, memoryWf s → step s = .next t → memoryWf t

/-- What lasts. The security fuses are written once: no step changes ROOT_HASH_r, ROOT_REVOKE or TEST_LOCK, no step lowers the fused
ROLLBACK count, and the fused identification of dies and package stands. The ledger never holds more than the records of the
last 64 decided epochs. -/
def Obligations.FusesAndLedgerLast : Prop :=
  (∀ s t : State, step s = .next t →
    t.sec.roots = s.sec.roots ∧ t.sec.revoke = s.sec.revoke ∧ t.sec.testLock = s.sec.testLock ∧
    s.sec.rollback ≤ t.sec.rollback ∧ t.boot.dieId = s.boot.dieId ∧ t.boot.cap = s.boot.cap ∧ t.pair.serial = s.pair.serial) ∧
  (∀ s t : State, s.tly.recs.length ≤ 64 → step s = .next t → t.tly.recs.length ≤ 64)

/-- Bank commands that pass their checks (R229, R230): a handover gives the bank its new owner and counts OWN_SEQ, a clear makes the
whole bank read zero, a power change starts the transition to its target state, and the end of a clear or of a transition shows in
CLEARING, BUSY and PSTATE. RESULT is 0. No other bank changes, and no byte of memory outside the bank. -/
def Obligations.BankCommandsTakeEffect : Prop :=
  (∀ (w : Initiator) (k : Die) (n : Fin 2048) (expect dest : BitVec 7) (clear : Bool) (s : State),
    coreOrReeve w = true → s.dieRuns k = true → expect.toNat ≤ 0x40 → dest.toNat ≤ 0x40 →
    (s.bank (2048 * k + n)).busy = false → (s.bank (2048 * k + n)).clearing = false →
    (s.bank (2048 * k + n)).owner = expect → (clear = true → (s.bank (2048 * k + n)).pstate = 0#2) →
    ∃ t, exec (.bankHandover w k n expect dest clear 3#2) s = .next t ∧ t = { s with grn := t.grn, mem := t.mem } ∧
      (t.bank (2048 * k + n)).owner = dest ∧ (t.bank (2048 * k + n)).ownSeq = (s.bank (2048 * k + n)).ownSeq + 1 ∧
      (t.bank (2048 * k + n)).result = 0#3 ∧ (t.bank (2048 * k + n)).clearing = clear ∧
      (t.bank (2048 * k + n)).pstate = (s.bank (2048 * k + n)).pstate ∧ (t.bank (2048 * k + n)).busy = false ∧
      (∀ i, i ≠ 2048 * k.val + n.val → t.bank i = s.bank i) ∧ (∀ i, t.grnDie i = s.grnDie i) ∧
      (clear = false → t.mem = s.mem) ∧
      (∀ x, (clear = true → bankAddr k n ≤ x → x < bankAddr k n + bankBytes → t.byteAt x = 0#8) ∧
        (x < bankAddr k n ∨ bankAddr k n + bankBytes ≤ x → t.byteAt x = s.byteAt x))) ∧
  (∀ (w : Initiator) (k : Die) (n : Fin 2048) (s : State), coreOrReeve w = true → s.dieRuns k = true →
    (s.bank (2048 * k + n)).busy = false → (s.bank (2048 * k + n)).clearing = false → (s.bank (2048 * k + n)).pstate = 0#2 →
    ∃ t, exec (.bankClear w k n 3#2) s = .next t ∧ t = { s with grn := t.grn, mem := t.mem } ∧
      t.bank (2048 * k + n) = { s.bank (2048 * k + n) with result := 0#3, clearing := true } ∧
      (∀ i, i ≠ 2048 * k.val + n.val → t.bank i = s.bank i) ∧
      (∀ x, bankAddr k n ≤ x → x < bankAddr k n + bankBytes → t.byteAt x = 0#8) ∧
      (∀ x, x < bankAddr k n ∨ bankAddr k n + bankBytes ≤ x → t.byteAt x = s.byteAt x)) ∧
  (∀ (w : Initiator) (k : Die) (n : Fin 2048) (p : BitVec 2) (s : State), coreOrReeve w = true → s.dieRuns k = true →
    (s.bank (2048 * k + n)).busy = false → (s.bank (2048 * k + n)).clearing = false → p ≠ 3#2 →
    (s.bank (2048 * k + n)).pstate ≠ p → (s.bank (2048 * k + n)).pstate ≠ 2#2 →
    ∃ t, exec (.bankPowerChange w k n p) s = .next t ∧ t = { s with grn := t.grn } ∧
      t.bank (2048 * k + n) = { s.bank (2048 * k + n) with result := 0#3, busy := true, target := p } ∧
      (∀ i, i ≠ 2048 * k.val + n.val → t.bank i = s.bank i)) ∧
  (∀ (k : Die) (n : Fin 2048) (s : State), (s.bank (2048 * k + n)).busy = true → (s.bank (2048 * k + n)).clearing = false →
    (s.bank (2048 * k + n)).pstate ≠ 2#2 → (s.bank (2048 * k + n)).waking = false →
    ∃ t, exec (.bankTransitionDone k n) s = .next t ∧ t = { s with grn := t.grn, mem := t.mem } ∧
      (t.bank (2048 * k + n)).busy = false ∧ (t.bank (2048 * k + n)).pstate = (s.bank (2048 * k + n)).target ∧
      (∀ i, i ≠ 2048 * k.val + n.val → t.bank i = s.bank i) ∧
      ((s.bank (2048 * k + n)).target ≠ 2#2 → t.mem = s.mem) ∧
      (∀ x, ((s.bank (2048 * k + n)).target = 2#2 → bankAddr k n ≤ x → x < bankAddr k n + bankBytes → t.byteAt x = 0#8) ∧
        (x < bankAddr k n ∨ bankAddr k n + bankBytes ≤ x → t.byteAt x = s.byteAt x))) ∧
  (∀ (k : Die) (n : Fin 2048) (s : State), (s.bank (2048 * k + n)).busy = false → (s.bank (2048 * k + n)).clearing = true →
    (s.bank (2048 * k + n)).held = [] →
    ∃ t, exec (.bankClearDone k n) s = .next t ∧ t = { s with grn := t.grn } ∧
      t.bank (2048 * k + n) = { s.bank (2048 * k + n) with clearing := false } ∧
      (∀ i, i ≠ 2048 * k.val + n.val → t.bank i = s.bank i))

/-- A bank command that fails a check changes no bank state but RESULT, and is counted with its code in GRN_REFUSE (Table 11-2): 3 for
an owner code that no bank holds, 4 for a clear of a bank that is not ON, 2 for a busy bank, 1 for another owner than
expected. -/
def Obligations.BankCommandsAreRefused : Prop :=
  ∀ (w : Initiator) (k : Die) (n : Fin 2048) (expect dest : BitVec 7) (clear : Bool) (p : BitVec 2) (s : State),
    coreOrReeve w = true → s.dieRuns k = true →
    (∀ r, bankCheck (s.bank (2048 * k + n)) (isReeve w) ⟨true, clear, p.toNat, expect.toNat, dest.toNat⟩ = r → r ≠ 0 →
      ∃ t, exec (.bankHandover w k n expect dest clear p) s = .next t ∧ t = { s with grn := t.grn } ∧
        t.bank (2048 * k + n) = { s.bank (2048 * k + n) with result := BitVec.ofNat 3 r } ∧
        (∀ i, i ≠ 2048 * k.val + n.val → t.bank i = s.bank i) ∧
        (t.grnDie k).lastResult = BitVec.ofNat 3 r ∧ (t.grnDie k).lastBank = BitVec.ofNat 11 n ∧
        (t.grnDie k).refuseCnt = (s.grnDie k).refuseCnt + 1) ∧
    (0x40 < dest.toNat → dest.toNat ≠ 0x7F → bankCheck (s.bank (2048 * k + n)) (isReeve w) ⟨true, clear, p.toNat, expect.toNat, dest.toNat⟩ = 3) ∧
    (expect.toNat ≤ 0x40 → dest.toNat ≤ 0x40 → clear = true → (s.bank (2048 * k + n)).pstate ≠ 0#2 →
      bankCheck (s.bank (2048 * k + n)) (isReeve w) ⟨true, clear, p.toNat, expect.toNat, dest.toNat⟩ = 4) ∧
    (expect.toNat ≤ 0x40 → dest.toNat ≤ 0x40 → clear = false → (s.bank (2048 * k + n)).busy = true →
      bankCheck (s.bank (2048 * k + n)) (isReeve w) ⟨true, clear, p.toNat, expect.toNat, dest.toNat⟩ = 2) ∧
    (expect.toNat ≤ 0x40 → dest.toNat ≤ 0x40 → clear = false → (s.bank (2048 * k + n)).busy = false →
      (s.bank (2048 * k + n)).clearing = false → (s.bank (2048 * k + n)).owner ≠ expect →
      bankCheck (s.bank (2048 * k + n)) (isReeve w) ⟨true, clear, p.toNat, expect.toNat, dest.toNat⟩ = 1)

/-- Gleaners and the KV walker. GO in free mode starts the chain at GLN_HEAD with STATE 3; STOP of an idle Gleaner leaves it IDLE without a
next descriptor; the start of a stream whose descriptor cannot be read stops the Gleaner with STATE 5 and the code of Table 11-8; the
start of a stream of one line takes its descriptor, sends the read of its source and moves the chain on to NEXT; the data of that read
goes out as a write of the destination; a stream whose writes are all acknowledged lands: it counts DONE_CNT and, as the last of a
free-mode chain, leaves the Gleaner IDLE; BUMP makes the pending root of a context the active one and counts its generation. -/
def Obligations.GleanersRunTheirChains : Prop :=
  (∀ (w : Initiator) (k : Die) (g : Fin 8) (v : BitVec 32) (s : State), quiet s = true → coreOrReeve w = true → s.dieRuns k = true →
    (s.gleaner (8 * k + g)).state = 0#3 → (s.gleaner (8 * k + g)).streams = [] →
    v.getLsbD 31 = true → v.getLsbD 0 = false → v.extractLsb' 29 2 = 1#2 →
    ∃ t, exec (.glnGo w k g v) s = .next t ∧ t = { s with gln := t.gln } ∧
      t.gleaner (8 * k + g) = { s.gleaner (8 * k + g) with
        mode := 1#2, ctx := v.extractLsb' 23 6, pfDist := v.extractLsb' 8 9, state := 3#3, cur := (s.gleaner (8 * k + g)).head,
        next := some (s.gleaner (8 * k + g)).head.toNat, stopping := false, epoch := none } ∧
      (∀ i, i ≠ 8 * k.val + g.val → t.gleaner i = s.gleaner i)) ∧
  (∀ (w : Initiator) (k : Die) (g : Fin 8) (s : State), quiet s = true → coreOrReeve w = true → s.dieRuns k = true →
    (s.gleaner (8 * k + g)).streams = [] → (s.gleaner (8 * k + g)).epoch = none →
    ∃ t, exec (.glnStop w k g) s = .next t ∧ t = { s with gln := t.gln, kvw := t.kvw } ∧
      t.gleaner (8 * k + g) = { s.gleaner (8 * k + g) with state := 0#3, next := none, stopping := false } ∧
      (∀ i, i ≠ 8 * k.val + g.val → t.gleaner i = s.gleaner i) ∧ (∀ i c, t.kvCtx i c = s.kvCtx i c)) ∧
  (∀ (k : Die) (g : Fin 8) (a : Nat) (e : AccStatus × Nat) (s : State), quiet s = true → s.dieRuns k = true →
    (s.gleaner (8 * k + g)).stopping = false → (s.gleaner (8 * k + g)).state ≠ 5#3 → (s.gleaner (8 * k + g)).streams = [] →
    (s.gleaner (8 * k + g)).next = some a → (s.gleaner (8 * k + g)).epoch = none →
    s.load (whoEngine k (s.gleaner (8 * k + g)).ctx.toNat) a 64 = .error e →
    ∃ t, exec (.glnStreamStart k g) s = .next t ∧ t.mem = s.mem ∧ t.fab = s.fab ∧ logged s t 1 4 (8 * k + g) (glnCode e.1) 0 ∧
      (t.gleaner (8 * k + g)).state = 5#3 ∧ (t.gleaner (8 * k + g)).streams = [] ∧
      (t.gleaner (8 * k + g)).errCode = BitVec.ofNat 8 (glnCode e.1) ∧ (t.gleaner (8 * k + g)).errAddr = BitVec.ofNat 48 e.2 ∧
      (∀ i, i ≠ 8 * k.val + g.val → t.gleaner i = s.gleaner i)) ∧
  (∀ (k : Die) (g : Fin 8) (a j n o : Nat) (b : List Byte) (d : GlnDesc) (x : Gleaner) (s : State), quiet s = true → clean s = true →
    s.awake = true → s.dieRuns k = true → x = s.gleaner (8 * k + g) → x.stopping = false → x.state ≠ 5#3 → x.streams = [] → x.next = some a →
    x.epoch = none → (∀ i, i ≠ 8 * k.val + g.val → (s.gleaner i).streams = []) →
    s.load (whoEngine k x.ctx.toNat) a 64 = .ok b → glnDescOf b = d →
    glnCheck k x.mode.toNat x.ctx.toNat (s.nodes s.tly.opened x.ctx.toNat).length d = none →
    d.skind = 0 → d.elem = 64 → d.count = 1 → d.rows = 1 → s.fab.pend.any (sameTxn (glnSrc (8 * k + g)) x.tag) = false →
    placeOf d.src = .gran j n o → bankServes s j n = true → s.judge (whoEngine k d.ctx) d.src = .ok →
    ∃ t, exec (.glnStreamStart k g) s = .next t ∧ t = { s with gln := t.gln, fab := t.fab } ∧
      t.gleaner (8 * k + g) = { x with
        state := 3#3, cur := BitVec.ofNat 40 a, next := if d.last then none else some d.next, tag := x.tag + 1,
        streams := [{ desc := d, epoch := none, gen := (s.kvCtx k x.ctx.toNat).gen, root := (s.kvCtx k x.ctx.toNat).active, issued := 1,
                      reads := [⟨x.tag, 0⟩], writes := [], page := none, dead := false, failed := false }] } ∧
      t.fab.pend.map (fun p => (p.src, p.tag, p.addr, p.answer)) = s.fab.pend.map (fun p => (p.src, p.tag, p.addr, p.answer)) ++
        [(glnSrc (8 * k + g), x.tag, d.src, some (.ok, s.bytesAt d.src 64))] ∧
      (∀ i, i ≠ 8 * k.val + g.val → t.gleaner i = s.gleaner i)) ∧
  (∀ (k : Die) (g : Fin 8) (tag : BitVec 12) (j n o : Nat) (p : Pend) (b : List Byte) (x : GlnStream) (y : Gleaner) (s : State),
    quiet s = true → clean s = true → s.awake = true → y = s.gleaner (8 * k + g) → y.streams = [x] → x.reads = [⟨tag, 0⟩] → x.writes = [] →
    x.desc.lines = 1 → x.issued = 1 → x.desc.lineAt 0 = (x.desc.src, x.desc.dst) → b.length = 64 → s.fab.pend = [p] →
    p.src = .gleaner k g → p.tag = tag → p.answer = some (.ok, b) →
    placeOf x.desc.dst = .gran j n o → x.desc.dst % 64 = 0 → bankServes s j n = true → s.judge (whoEngine k x.desc.ctx) x.desc.dst = .ok →
    ∃ t, exec (.fabricReply (.gleaner k g) tag (Tab.get 0#8 s.flt.gens k)) s = .next t ∧ t = { s with gln := t.gln, fab := t.fab, mem := t.mem } ∧
      t.bytesAt x.desc.dst 64 = b ∧ (∀ a, a < x.desc.dst ∨ x.desc.dst + 64 ≤ a → t.byteAt a = s.byteAt a) ∧
      t.gleaner (8 * k + g) = { y with tag := y.tag + 1, streams := [{ x with reads := [], writes := [⟨y.tag, 0⟩] }] } ∧
      t.fab.pend.map (fun q => (q.src, q.tag, q.addr, q.answer)) = [(.gleaner k g, y.tag, x.desc.dst, some (.ok, []))]) ∧
  (∀ (k : Die) (g : Fin 8) (x : GlnStream) (s : State), quiet s = true → (s.gleaner (8 * k + g)).streams = [x] → x.landed = true →
    x.epoch = none → x.desc.skind = 0 → (s.gleaner (8 * k + g)).epoch = none → (s.gleaner (8 * k + g)).next = none →
    (s.gleaner (8 * k + g)).stopping = false → (s.gleaner (8 * k + g)).mode = 1#2 → (s.gleaner (8 * k + g)).state = 3#3 →
    (s.gleaner (8 * k + g)).waitEpochs = [] →
    ∃ t, exec (.glnStreamLanded k g) s = .next t ∧ t = { s with gln := t.gln } ∧
      (t.gleaner (8 * k + g)).doneCnt = (s.gleaner (8 * k + g)).doneCnt + 1 ∧ (t.gleaner (8 * k + g)).state = 0#3 ∧
      (t.gleaner (8 * k + g)).streams = [] ∧ (∀ i, i ≠ 8 * k.val + g.val → t.gleaner i = s.gleaner i)) ∧
  (∀ (w : Initiator) (k : Die) (c : Fin 64) (v : BitVec 32) (s : State), coreOrReeve w = true → s.dieRuns k = true →
    v.getLsbD 16 = true → ((s.kvCtx k c).walks = [] ∨ (s.kvCtx k c).gen + 1 ≠ (s.kvCtx k c).oldest) →
    ∃ t, exec (.kvwBump w k c v) s = .next t ∧ t = { s with kvw := t.kvw } ∧
      (t.kvCtx k c).gen = (s.kvCtx k c).gen + 1 ∧ (t.kvCtx k c).active = (s.kvCtx k c).root ∧
      (∀ i j, (i ≠ k.val ∨ j ≠ c.val) → t.kvCtx i j = s.kvCtx i j))

/-- HBM controllers, pages, refreshes and windows: an idle page closes (R253); the urgency and the age flag of a queue entry become those of
its age (R256); a refresh that falls due and that nothing holds back closes its row and moves the rotation on, and one that an SC0 request
holds back is postponed with the debt counted (R259); an RFM request goes by the same rule; a regulator window starts the next one
with the shares as set (R260). No memory byte and no other stack changes. -/
def Obligations.HbmQueuesAndRefresh : Prop :=
  (∀ (k : Die) (pc : Fin 32) (b : Fin 48) (s : State), (((s.hmcOf k).pc pc).bank b).row.isSome = true →
    (((s.hmcOf k).pc pc).bank b).used + (s.hmcOf k).pageIdle.toNat ≤ s.time.hck →
    ∃ t, exec (.hbmPageIdleExpiry k pc b) s = .next t ∧ t = { s with hmc := t.hmc } ∧
      (((t.hmcOf k).pc pc).bank b).row = none ∧ ((t.hmcOf k).pc pc).queue = ((s.hmcOf k).pc pc).queue ∧
      (∀ i, i ≠ b.val → ((t.hmcOf k).pc pc).bank i = ((s.hmcOf k).pc pc).bank i) ∧
      (∀ i, i ≠ k.val → t.hmcOf i = s.hmcOf i)) ∧
  (∀ (k : Die) (pc : Fin 32) (i : Fin 16) (r : HReq) (age T : Nat) (s : State), ((s.hmcOf k).pc pc).queue[i.val]? = some r →
    age = s.time.hck - r.entered →
    T = 4 * max 1 (bitsAt (Tab.get 0xC8502818#32 (s.hmcOf k).port r.port).toNat (8 * r.req.sc) 8) →
    ∃ t u, exec (.hbmUrgencyStep k pc i) s = .next t ∧ t = { s with hmc := t.hmc } ∧
      ((t.hmcOf k).pc pc).queue[i.val]? =
        some { r with urg := u } ∧
      (2 * age < T → u = 0) ∧ (T ≤ 2 * age → 4 * age < 3 * T → u = 1) ∧ (3 * T ≤ 4 * age → age < T → u = 2) ∧ (T ≤ age → u = 3) ∧
      (∀ j, j ≠ i.val → ((t.hmcOf k).pc pc).queue[j]? = ((s.hmcOf k).pc pc).queue[j]?) ∧ (∀ j, j ≠ k.val → t.hmcOf j = s.hmcOf j)) ∧
  (∀ (k : Die) (pc : Fin 32) (i : Fin 16) (r : HReq) (s : State), ((s.hmcOf k).pc pc).queue[i.val]? = some r →
    ∃ t, exec (.hbmAgePromotion k pc i) s = .next t ∧ t = { s with hmc := t.hmc } ∧
      ((t.hmcOf k).pc pc).queue[i.val]? = some { r with aged := decide (max 256 (s.hmcOf k).ageLimit.toNat ≤ s.time.hck - r.entered) } ∧
      (∀ j, j ≠ i.val → ((t.hmcOf k).pc pc).queue[j]? = ((s.hmcOf k).pc pc).queue[j]?) ∧ (∀ j, j ≠ k.val → t.hmcOf j = s.hmcOf j)) ∧
  (∀ (k : Die) (pc : Fin 32) (b : Fin 48) (s : State), (s.hmcOf k).refMode = false → ((s.hmcOf k).pc pc).nextBank = b.val →
    (s.hmcOf k).refBase + ((s.hmcOf k).pc pc).refAt + (s.hmcOf k).refPeriod ≤ s.time.hck → (s.hmcOf k).atPc pc = [] → ((s.hmcOf k).pc pc).owed = [] →
    ∃ t, exec (.hbmRefreshDue k pc b) s = .next t ∧ t = { s with hmc := t.hmc } ∧
      (((t.hmcOf k).pc pc).bank b).row = none ∧ ((t.hmcOf k).pc pc).nextBank = (b.val + 1) % 48 ∧
      ((t.hmcOf k).pc pc).refAt = ((s.hmcOf k).pc pc).refAt + (s.hmcOf k).refPeriod ∧
      ((t.hmcOf k).pc pc).debt = ((s.hmcOf k).pc pc).debt ∧ (∀ i, i ≠ k.val → t.hmcOf i = s.hmcOf i)) ∧
  (∀ (k : Die) (pc : Fin 32) (b : Fin 48) (s : State), (s.hmcOf k).refBlocked pc b = false →
    ∃ t, exec (.hbmRfmRequest k pc b) s = .next t ∧ t = { s with hmc := t.hmc } ∧
      (((t.hmcOf k).pc pc).bank b).row = none ∧ ((t.hmcOf k).pc pc).debt = ((s.hmcOf k).pc pc).debt ∧
      ((t.hmcOf k).pc pc).queue = ((s.hmcOf k).pc pc).queue ∧ (∀ i, i ≠ k.val → t.hmcOf i = s.hmcOf i)) ∧
  (∀ (k : Die) (pc : Fin 32) (b : Fin 48) (s : State), (s.hmcOf k).refBlocked pc b = true → ((s.hmcOf k).pc pc).debt < 8 →
    ∃ t, exec (.hbmRfmRequest k pc b) s = .next t ∧ t = { s with hmc := t.hmc } ∧
      ((t.hmcOf k).pc pc).debt = ((s.hmcOf k).pc pc).debt + 1 ∧ ((t.hmcOf k).pc pc).owed = ((s.hmcOf k).pc pc).owed ++ [b.val] ∧
      ((t.hmcOf k).pc pc).banks = ((s.hmcOf k).pc pc).banks ∧ (∀ i, i ≠ k.val → t.hmcOf i = s.hmcOf i)) ∧
  (∀ (k : Die) (s : State), (s.hmcOf k).winAt + 1024 ≤ s.time.hck → (s.hmcOf k).held = [] →
    ∃ t, exec (.hbmRegulatorWindow k) s = .next t ∧ t = { s with hmc := t.hmc } ∧
      (t.hmcOf k).winAt = (s.hmcOf k).winAt + 1024 ∧ (t.hmcOf k).shareEff = (s.hmcOf k).share ∧
      (∀ pc, ((t.hmcOf k).pc pc).queue = ((s.hmcOf k).pc pc).queue) ∧ (∀ i, i ≠ k.val → t.hmcOf i = s.hmcOf i))

/-- HBM controllers, service and errors: a queue of one entry serves it (R257); severities 1 and 2 and parity retries of read bursts
are counted, a severity 2 logged (Table 12-7); a severity 3 is counted, logged and recorded, the burst fails from then on, and a queued
read of that context and port is answered with zeros; training that passes makes the stack READY (R262). -/
def Obligations.HbmServiceAndErrors : Prop :=
  (∀ (k : Die) (pc : Fin 32) (r : HReq) (s : State), s.stackRuns k = true → ((s.hmcOf k).pc pc).queue = [r] →
    (s.hmcOf k).held = [] → ((s.hmcOf k).pc pc).owed = [] → r.req.kind = .acked →
    ∃ t, exec (.hbmSchedule k pc) s = .next t ∧ t = { s with hmc := t.hmc } ∧ ((t.hmcOf k).pc pc).queue = [] ∧
      (∀ i, i ≠ pc.val → (t.hmcOf k).pc i = (s.hmcOf k).pc i) ∧ (∀ i, i ≠ k.val → t.hmcOf i = s.hmcOf i)) ∧
  (∀ (k : Die) (a : BitVec 40) (c : Fin 64) (p : Fin 6) (s : State), quiet s = true →
    ∃ t, exec (.hbmReadBurstResult k a c p .sev1) s = .next t ∧ t = { s with hmc := t.hmc } ∧
      t.hmcOf k = { s.hmcOf k with sev1 := satInc (s.hmcOf k).sev1 } ∧ (∀ i, i ≠ k.val → t.hmcOf i = s.hmcOf i)) ∧
  (∀ (k : Die) (a : BitVec 40) (c : Fin 64) (p : Fin 6) (s : State), quiet s = true → (s.hmcOf k).logSev ≠ 3#2 →
    ∃ t, exec (.hbmReadBurstResult k a c p .sev2) s = .next t ∧ t = { s with hmc := t.hmc } ∧
      (t.hmcOf k).sev2 = satInc (s.hmcOf k).sev2 ∧ (t.hmcOf k).logSev = 2#2 ∧ (t.hmcOf k).logCtx = BitVec.ofNat 6 c ∧
      (t.hmcOf k).logPort = BitVec.ofNat 3 p ∧ (∀ i, i ≠ k.val → t.hmcOf i = s.hmcOf i)) ∧
  (∀ (k : Die) (a : BitVec 40) (c : Fin 64) (p : Fin 6) (s : State), quiet s = true →
    ∃ t, exec (.hbmReadBurstResult k a c p (.parity false)) s = .next t ∧ t = { s with hmc := t.hmc } ∧
      t.hmcOf k = { s.hmcOf k with linkRetry := satInc (s.hmcOf k).linkRetry } ∧ (∀ i, i ≠ k.val → t.hmcOf i = s.hmcOf i)) ∧
  (∀ (k : Die) (a : BitVec 40) (c : Fin 64) (p : Fin 6) (s : State), quiet s = true →
    (∀ e ∈ ((s.hmcOf k).pc ((s.hmcOf k).place a.toNat).1).queue, burstIn e.req.addr e.req.size (a.toNat / 32 * 32) = false) →
    ∃ t, exec (.hbmReadBurstResult k a c p .sev3) s = .next t ∧
      t = { s with hmc := t.hmc, fab := t.fab, flt := t.flt, freeCnt := t.freeCnt } ∧ logged s t 1 7 k 1 0 ∧
      (t.hmcOf k).sev3 = satInc (s.hmcOf k).sev3 ∧ (t.hmcOf k).logSev = 3#2 ∧ (t.hmcOf k).pcs = (s.hmcOf k).pcs ∧
      a.toNat / 32 * 32 ∈ (t.hmcOf k).unc ∧ (∀ i, i ≠ k.val → t.hmcOf i = s.hmcOf i)) ∧
  (∀ (k : Die) (a : BitVec 40) (c : Fin 64) (p : Fin 6) (e : HReq) (s : State), quiet s = true →
    ((s.hmcOf k).pc ((s.hmcOf k).place a.toNat).1).queue = [e] → (s.hmcOf k).held = [] → e.req.kind = .read → e.req.ctx = c.val →
    e.port = p.val → burstIn e.req.addr e.req.size (a.toNat / 32 * 32) = true →
    ∃ t, exec (.hbmReadBurstResult k a c p .sev3) s = .next t ∧
      t = { s with hmc := t.hmc, fab := t.fab, flt := t.flt, freeCnt := t.freeCnt } ∧
      ((t.hmcOf k).pc ((s.hmcOf k).place a.toNat).1).queue = [] ∧
      t.fab.pend = updFirst (fun q => decide (q.src = e.req.src ∧ q.tag = e.req.tag ∧ q.answer.isNone))
        (fun q => { q with answer := some (.uncorrected, List.replicate e.req.size 0#8) }) s.fab.pend ∧
      (∀ i, i ≠ k.val → t.hmcOf i = s.hmcOf i)) ∧
  (∀ (k : Die) (spares : Byte) (s : State), quiet s = true → s.awake = true → (s.hmcOf k).state = 1#2 → s.mbx.ready = false →
    ∃ t, exec (.hbmTrainingDone k true spares) s = .next t ∧ t = { s with hmc := t.hmc } ∧
      (t.hmcOf k).state = 2#2 ∧ (t.hmcOf k).trainRes = (if spares.toNat = 0 then 1#2 else 2#2) ∧ (t.hmcOf k).spareUsed = spares ∧
      (∀ i, i ≠ k.val → t.hmcOf i = s.hmcOf i))


/-- Requests of the fabric to a Granary bank that takes them (R21, R22, R25). A read is answered with the bytes; a posted write stores its
bytes and leaves no transaction; an acknowledged write stores and is answered; an atomic is answered with the old bytes and stores
the new ones. No other byte changes. A core's writes are all acknowledged (R338), and its accesses to another die count as event 0x04
(R334). An access the target refuses, and one to a hole, stores nothing: a read of it returns zeros (R29). A misaligned access is an
error at its initiator and is not sent (R22); a core without a context that asks for Granary takes an access fault (R336). A request
with another GEN than its node's is dropped and counted as chaff (R410). -/
def Obligations.FabricRequestsAreServed : Prop :=
  (∀ (q : FabReq) (k n o : Nat) (s : State), quiet s = true → clean s = true → sendable s q = true → isCoreSrc q.src = false →
    placeOf q.addr.toNat = .gran k n o → bankServes s k n = true → s.judge (s.whoOf q.src q.ctx q.addr.toNat) q.addr.toNat = .ok →
    (∃ t, exec (.fabricRead q) s = .next t ∧ t = { s with fab := t.fab } ∧
      t.fab.pend = s.fab.pend ++ [pendOf q s.now q.size.bytes (some k) (some (.ok, s.bytesAt q.addr.toNat q.size.bytes))]) ∧
    (∀ data : List Byte, data.length = q.size.bytes →
      ∃ t, exec (.fabricPostedWrite q data) s = .next t ∧ t = { s with fab := t.fab, mem := t.mem } ∧ t.fab.pend = s.fab.pend ∧
        t.bytesAt q.addr.toNat q.size.bytes = data ∧
        (∀ x, x < q.addr.toNat ∨ q.addr.toNat + q.size.bytes ≤ x → t.byteAt x = s.byteAt x)) ∧
    (∀ data : List Byte, data.length = q.size.bytes →
      ∃ t, exec (.fabricAckWrite q data) s = .next t ∧ t = { s with fab := t.fab, mem := t.mem } ∧
        t.fab.pend = s.fab.pend ++ [pendOf q s.now 0 (some k) (some (.ok, []))] ∧ t.bytesAt q.addr.toNat q.size.bytes = data ∧
        (∀ x, x < q.addr.toNat ∨ q.addr.toNat + q.size.bytes ≤ x → t.byteAt x = s.byteAt x)) ∧
    (∀ (op : AtomicOp) (v c : BitVec 64), q.size.bytes ≤ 8 →
      ∃ t, exec (.fabricAtomic q op v c) s = .next t ∧ t = { s with fab := t.fab, mem := t.mem } ∧
        t.fab.pend = s.fab.pend ++ [pendOf q s.now q.size.bytes (some k) (some (.ok, s.bytesAt q.addr.toNat q.size.bytes))] ∧
        (op = .swap → t.bytesAt q.addr.toNat q.size.bytes = leBytes q.size.bytes v.toNat) ∧
        (op = .add → t.bytesAt q.addr.toNat q.size.bytes =
          leBytes q.size.bytes (leNat (s.bytesAt q.addr.toNat q.size.bytes) + v.toNat)) ∧
        (op = .cas → leNat (s.bytesAt q.addr.toNat q.size.bytes) = c.toNat → t.bytesAt q.addr.toNat q.size.bytes = leBytes q.size.bytes v.toNat) ∧
        (op = .cas → leNat (s.bytesAt q.addr.toNat q.size.bytes) ≠ c.toNat % 2 ^ (8 * q.size.bytes) →
          t.bytesAt q.addr.toNat q.size.bytes = s.bytesAt q.addr.toNat q.size.bytes) ∧
        (∀ x, x < q.addr.toNat ∨ q.addr.toNat + q.size.bytes ≤ x → t.byteAt x = s.byteAt x))) ∧
  (∀ (q : FabReq) (c : Fin 32) (k n o : Nat) (s : State), quiet s = true → clean s = true → sendable s q = true → q.src = .core c →
    placeOf q.addr.toNat = .gran k n o → bankServes s k n = true → s.judge (s.whoCore c) q.addr.toNat = .ok →
    (∃ t, exec (.fabricRead q) s = .next t ∧ t = { s with fab := t.fab, core := t.core } ∧ (k = c.val / 8 → t.core = s.core) ∧
      t.coreOf c = { s.coreOf c with hpm := (t.coreOf c).hpm, overflow := (t.coreOf c).overflow } ∧ (∀ i, i ≠ c.val → t.coreOf i = s.coreOf i) ∧
      t.fab.pend = s.fab.pend ++ [pendOf q s.now q.size.bytes (some k) (some (.ok, s.bytesAt q.addr.toNat q.size.bytes))]) ∧
    (∀ (data : List Byte) (i : Instr), i = .fabricPostedWrite q data ∨ i = .fabricAckWrite q data → data.length = q.size.bytes →
      ∃ t, exec i s = .next t ∧ t = { s with fab := t.fab, core := t.core, mem := t.mem } ∧
        t.fab.pend = s.fab.pend ++ [pendOf q s.now 0 (some k) (some (.ok, []))] ∧ t.bytesAt q.addr.toNat q.size.bytes = data ∧
        (∀ x, x < q.addr.toNat ∨ q.addr.toNat + q.size.bytes ≤ x → t.byteAt x = s.byteAt x))) ∧
  (∀ (q : FabReq) (data : List Byte) (k n o : Nat) (st : AccStatus) (s : State), quiet s = true → sendable s q = true →
    isCoreSrc q.src = false → (placeOf q.addr.toNat = .hole ∧ st = .hole ∨
      (placeOf q.addr.toNat = .gran k n o ∧ bankServes s k n = true ∧
        s.judge (s.whoOf q.src q.ctx q.addr.toNat) q.addr.toNat = st ∧ st ≠ .ok)) →
    ∃ t u v, exec (.fabricRead q) s = .next t ∧ exec (.fabricPostedWrite q data) s = .next u ∧ exec (.fabricAckWrite q data) s = .next v ∧
      t = { s with fab := t.fab } ∧ u = { s with fab := u.fab } ∧ v = { s with fab := v.fab } ∧
      (t.fab.pend.map (·.answer) = s.fab.pend.map (·.answer) ++ [some (st, List.replicate q.size.bytes 0#8)]) ∧
      (u.fab.pend.map (·.answer) = s.fab.pend.map (·.answer) ++ [some (st, [])]) ∧
      (v.fab.pend.map (·.answer) = s.fab.pend.map (·.answer) ++ [some (st, [])])) ∧
  (∀ (q : FabReq) (s : State), quiet s = true → s.awake = true → isCoreSrc q.src = false → s.fab.pend.any (sameTxn q.src q.tag) = false →
    (q.addr.toNat % q.size.bytes ≠ 0 → exec (.fabricRead q) s =
      .next { s with fab := { s.fab with errs := { src := q.src, tag := q.tag, status := .alignment, data := [] } :: s.fab.errs } }) ∧
    (q.addr.toNat % q.size.bytes = 0 → isRegs q.addr.toNat = false → Tab.get 0#8 s.flt.gens (nodeOf q.src) ≠ q.gen →
      ∃ t, exec (.fabricRead q) s = .next t ∧ t = { s with flt := t.flt, tly := t.tly } ∧ t.tly.openEps = [] ∧
        Tab.get 0#32 t.flt.chaff (targetNode q.addr.toNat) = satInc (Tab.get 0#32 s.flt.chaff (targetNode q.addr.toNat)))) ∧
  (∀ (q : FabReq) (c : Fin 32) (k n o : Nat) (s : State), quiet s = true → s.awake = true → q.src = .core c → q.virt = none →
    s.fab.pend.any (sameTxn q.src q.tag) = false → q.addr.toNat % q.size.bytes = 0 → placeOf q.addr.toNat = .gran k n o →
    (s.coreOf c).valid = false →
    ∃ t, exec (.fabricRead q) s = .next t ∧ t = { s with core := t.core } ∧ (∀ i, i ≠ c.val → t.coreOf i = s.coreOf i) ∧
      t.coreOf c = { s.coreOf c with cause := 5#6, tval := BitVec.ofNat 64 q.addr.toNat, traps := (s.coreOf c).traps + 1 })

/-- The reply of an answered transaction reaches its source, which may use the TAG again; a core's load or store then retires, or takes an
access fault (R334, R338); a reply with an old GEN is chaff (R410). A tracker with room takes a request it holds, of the lowest
service class first (R20, R25). -/
def Obligations.RepliesAndTrackers : Prop :=
  (∀ (src : Initiator) (tag : BitVec 12) (gen : BitVec 8) (p : Pend) (a : AccStatus × List Byte) (s : State), quiet s = true →
    isCoreSrc src = false → isGlnSrc src = false →
    gen = Tab.get 0#8 s.flt.gens (nodeOf src) → s.fab.pend.find? (sameTxn src tag) = some p → p.answer = some a →
    ∃ t, exec (.fabricReply src tag gen) s = .next t ∧ t = { s with fab := t.fab } ∧ t.fab.pend = s.fab.pend.eraseP (sameTxn src tag) ∧
      t.fab.replies = { src := src, tag := tag, status := a.1, data := a.2 } :: s.fab.replies ∧ t.fab.held = s.fab.held) ∧
  (∀ (c : Fin 32) (tag : BitVec 12) (gen : BitVec 8) (p : Pend) (a : AccStatus × List Byte) (s : State), quiet s = true →
    gen = Tab.get 0#8 s.flt.gens (nodeOf (.core c)) → s.fab.pend.find? (sameTxn (.core c) tag) = some p → p.answer = some a →
    ∃ t, exec (.fabricReply (.core c) tag gen) s = .next t ∧ t = { s with fab := t.fab, core := t.core } ∧
      t.fab.pend = s.fab.pend.eraseP (sameTxn (.core c) tag) ∧ (∀ i, i ≠ c.val → t.coreOf i = s.coreOf i) ∧
      (a.1 = .ok → t.coreOf c = { s.coreOf c with instret := (s.coreOf c).instret + 1 }) ∧
      (a.1 ≠ .ok → (t.coreOf c).instret = (s.coreOf c).instret ∧ (t.coreOf c).traps = (s.coreOf c).traps + 1 ∧
        (t.coreOf c).tval = BitVec.ofNat 64 p.addr ∧ (t.coreOf c).cause = if p.zeros = 0 then 7#6 else 5#6)) ∧
  (∀ (src : Initiator) (tag : BitVec 12) (gen : BitVec 8) (s : State), quiet s = true → gen ≠ Tab.get 0#8 s.flt.gens (nodeOf src) →
    ∃ t, exec (.fabricReply src tag gen) s = .next t ∧ t = { s with flt := t.flt, tly := t.tly } ∧ t.tly.openEps = [] ∧
      Tab.get 0#32 t.flt.chaff (nodeOf src) = satInc (Tab.get 0#32 s.flt.chaff (nodeOf src))) ∧
  (∀ (k : Die) (n o : Nat) (r : Req) (p : Pend) (s : State), quiet s = true → clean s = true →
    nextHeld (Tab.get [] s.fab.held k) = some r →
    s.tracked k < trackerSize → Tab.get 0#8 s.flt.gens (nodeOf r.src) = r.gen → placeOf r.addr = .gran k n o →
    (s.bank (2048 * k + n)).clearing = false → s.judge (s.whoOf r.src r.ctx r.addr) r.addr = .ok → r.kind = .read →
    s.fab.pend = [p] → p.src = r.src → p.tag = r.tag → p.answer = none → (s.hmcOf k).held = [] →
    ∃ t, exec (.trackerAdmit k) s = .next t ∧ t = { s with fab := t.fab, hmc := t.hmc } ∧
      Tab.get [] t.fab.held k = (Tab.get [] s.fab.held k).erase r ∧
      t.fab.pend = [{ p with die := some k.val, answer := some (.ok, s.bytesAt r.addr r.size) }] ∧
      (∀ i, t.hmcOf i = s.hmcOf i))

/-- Registers. A write of a register block changes the register that its word names and is acknowledged: GRN_CTRL.LOCK, HMC_PAGE_IDLE and
EQ_CPL_HEAD; a locked block ignores writes (R28, R238, R264); one to a hole is answered with that error (R29), and one to memory is no
register write. A read of the low half of TLY_LATEST, TLY_OLDEST, TLY_OPENED, WDG_TICK or a map epoch captures the upper half (R45,
R98, R286). -/
def Obligations.RegisterAccesses : Prop :=
  (∀ (w : RegHdr) (a : BitVec 40) (wide : Bool) (q : FabReq) (k : Die) (v : BitVec 64) (s : State), w.req a wide = q → quiet s = true → sendable s q = true → q.src = .reeve → q.size = .b4 →
    s.dieRuns k = true → s.reach 4 k = true →
    (q.addr.toNat = regBase + k * 0x1000000 + 0x10000 → (s.grnDie k).lock = false → v.getLsbD 0 = true →
      ∃ t, exec (.registerWrite w a wide v) s = .next t ∧ t = { s with grn := t.grn, fab := t.fab } ∧
        t.fab.pend = s.fab.pend ++ [pendOf q s.now 0 none (some (.ok, []))] ∧
        t.grnDie k = { s.grnDie k with lock := true } ∧ (∀ i, i ≠ k.val → t.grnDie i = s.grnDie i) ∧ (∀ i, t.bank i = s.bank i)) ∧
    (q.addr.toNat = regBase + k * 0x1000000 + 0x30008 → (s.hmcOf k).lock = false →
      ∃ t, exec (.registerWrite w a wide v) s = .next t ∧ t = { s with hmc := t.hmc, fab := t.fab } ∧
        t.fab.pend = s.fab.pend ++ [pendOf q s.now 0 none (some (.ok, []))] ∧
        t.hmcOf k = { s.hmcOf k with pageIdle := v.extractLsb' 0 12 } ∧ (∀ i, i ≠ k.val → t.hmcOf i = s.hmcOf i)) ∧
    (q.addr.toNat = regBase + k * 0x1000000 + 0x30008 → (s.hmcOf k).lock = true →
      ∃ t, exec (.registerWrite w a wide v) s = .next t ∧ t = { s with fab := t.fab } ∧
        t.fab.pend = s.fab.pend ++ [pendOf q s.now 0 none (some (.ok, []))])) ∧
  (∀ (w : RegHdr) (a : BitVec 40) (wide : Bool) (q : FabReq) (c : Fin 32) (k : Die) (v : BitVec 64) (s : State), w.req a wide = q → quiet s = true → sendable s q = true → q.src = .core c → q.size = .b4 →
    s.dieRuns k = true → s.reach (nodeOf (.core c)) k = true → q.addr.toNat = regBase + k * 0x1000000 + 0x60010 →
    v.extractLsb' 0 6 ≠ (s.eng (4 * k)).head →
    ∃ t, exec (.registerWrite w a wide v) s = .next t ∧ t = { s with cx := t.cx, fab := t.fab, core := t.core } ∧
      (t.eng (4 * k)).head = v.extractLsb' 0 6 ∧ (t.eng (4 * k)).unread = ((s.eng (4 * k)).tail - v.extractLsb' 0 6).toNat ∧
      (∀ i, i ≠ 4 * k.val → t.eng i = s.eng i) ∧ t.fab.pend = s.fab.pend ++ [pendOf q s.now 0 none (some (.ok, []))]) ∧
  (∀ (w : RegHdr) (a : BitVec 40) (wide : Bool) (q : FabReq) (v : BitVec 64) (s : State), w.req a wide = q → quiet s = true → sendable s q = true → isCoreSrc q.src = false →
    placeOf q.addr.toNat = .hole →
    ∃ t, exec (.registerWrite w a wide v) s = .next t ∧ t = { s with fab := t.fab } ∧
      t.fab.pend = s.fab.pend ++ [pendOf q s.now 0 none (some (.hole, []))]) ∧
  (∀ (w : RegHdr) (a : BitVec 40) (wide : Bool) (v : BitVec 64) (s : State), (memDie a.toNat).isSome = true → w.virt = none → exec (.registerWrite w a wide v) s = .next s) ∧
  (∀ (w : Initiator) (s : State), s.pair.hideTly = false →
    ∃ t u x, exec (.tlyLoRead w 0) s = .next t ∧ t = { s with tly := t.tly } ∧
      t.tly = { s.tly with latestHi := s.tly.latest.extractLsb' 32 32 } ∧
      exec (.tlyLoRead w 1) s = .next u ∧ u = { s with tly := u.tly } ∧ u.tly = { s.tly with oldestHi := s.oldest.extractLsb' 32 32 } ∧
      exec (.tlyLoRead w 2) s = .next x ∧ x = { s with tly := x.tly } ∧ x.tly = { s.tly with openedHi := s.tly.opened.extractLsb' 32 32 }) ∧
  (∀ s : State, ∃ t, exec (.wdgTickLoRead .reeve) s = .next t ∧ t = { s with time := t.time } ∧
    t.time = { s.time with tickHi := (BitVec.ofNat 64 s.time.tickA).extractLsb' 32 32 }) ∧
  (∀ (w : Initiator) (s : State), w ≠ .reeve → exec (.wdgTickLoRead w) s = .next s) ∧
  (∀ (w : Initiator) (k : Die) (m : Fin 4) (s : State), s.dieRuns k = true →
    ∃ t, exec (.blkMapEpochLoRead w k m) s = .next t ∧ t = { s with blk := t.blk } ∧
      (t.blkOf k).slot m = { (s.blkOf k).slot m with epochHi := ((s.blkOf k).slot m).epoch.extractLsb' 32 32 } ∧
      (∀ i, i ≠ k.val → t.blkOf i = s.blkOf i))

/-- Snapshot windows (R98, R99): TLY_SEL_LO_WRITE and TLY_SNAPSHOT_COPY_DONE complete with these effects. A write of SEL_LO by the window's
readers starts a copy, abandoning the one before; the copy ends with the
record when the ledger holds it, with WSTATE 4 for an epoch that is open, 5 for one that has not opened, and 3 for one that is
held no more. A writer of the other kind changes nothing. -/
def Obligations.SnapshotWindows : Prop :=
  (∀ (w : Initiator) (i : Fin 4) (v : BitVec 32) (s : State), (w = .kcp ↔ i = 0) →
    ∃ t, exec (.tlySelLoWrite w i v) s = .next t ∧ t = { s with tly := t.tly } ∧
      t.winOf i = { s.winOf i with selLo := v, wstate := 1#3, copy := none } ∧ (∀ j, j ≠ i.val → t.winOf j = s.winOf j) ∧
      t.tly = { s.tly with wins := t.tly.wins }) ∧
  (∀ (w : Initiator) (i : Fin 4) (v : BitVec 32) (s : State), (w = .kcp ↔ i ≠ 0) → exec (.tlySelLoWrite w i v) s = .next s) ∧
  (∀ (i : Fin 4) (s : State), (s.winOf i).wstate = 1#3 →
    ∃ t, exec (.tlySnapshotCopyDone i) s = .next t ∧ t = { s with tly := t.tly } ∧ t.tly = { s.tly with wins := t.tly.wins } ∧
      (∀ j, j ≠ i.val → t.winOf j = s.winOf j) ∧
      (∀ r, s.tly.recs.find? (fun r => r.epoch.toNat = (s.winOf i).wanted) = some r →
        (t.winOf i).wstate = 2#3 ∧ (t.winOf i).copy = some r) ∧
      (s.tly.recs.find? (fun r => r.epoch.toNat = (s.winOf i).wanted) = none → (t.winOf i).copy = (s.winOf i).copy ∧
        ((s.openEp? (BitVec.ofNat 64 (s.winOf i).wanted)).isSome = true → (t.winOf i).wstate = 4#3) ∧
        (s.openEp? (BitVec.ofNat 64 (s.winOf i).wanted) = none → s.pair.hideTly = false →
          (s.tly.opened.toNat < (s.winOf i).wanted → (t.winOf i).wstate = 5#3) ∧
          ((s.winOf i).wanted ≤ s.tly.opened.toNat → (t.winOf i).wstate = 3#3))))

/-- Requests of a core at the home of a line (R342) that is not serving the line already: GET_S is answered with the line, or by a FWD_S
to the cluster that owns it; GET_M with the line for ownership when no other cluster shares it, else one INV goes to each other
sharer; an UPGRADE of the only sharer is acknowledged. No copy, directory entry or byte of memory changes by the request itself. A line
that the cluster holds is a hit: no message goes out and the instruction retires (R341). A request that the home may not serve is an
access fault of the core and changes none of them either (R338). -/
def Obligations.CoherenceRequestsAreServed : Prop :=
  (∀ (c : Fin 32) (line : BitVec 34) (a : CoreLoad) (s : State), homeFree s c line → s.lineAt (c / 4) line.toNat = none →
    ((s.dirOf line.toNat).owner = none →
      ∃ t, exec (.getS c ⟨line, a⟩) s = .next t ∧ asked s t c ∧ t.core.msgs = s.core.msgs ++
        [sentMsg s { cohMsg 0x10 (homeDie line.toNat) (c / 4) line.toNat with data := s.lineData line.toNat }]) ∧
    (∀ o, (s.dirOf line.toNat).owner = some o → o ≠ c.val / 4 →
      ∃ t, exec (.getS c ⟨line, a⟩) s = .next t ∧ asked s t c ∧ t.core.msgs = s.core.msgs ++
        [sentMsg s { cohMsg 0x08 (homeDie line.toNat) o line.toNat with req := c / 4 }])) ∧
  (∀ (c : Fin 32) (line : BitVec 34) (a : CoreStore) (s : State), homeFree s c line → s.lineAt (c / 4) line.toNat = none →
    (s.dirOf line.toNat).owner = none →
    ∃ t, exec (.getM c ⟨line, a⟩) s = .next t ∧ asked s t c ∧
      ((s.dirOf line.toNat).sharers.filter (· ≠ c.val / 4) = [] → t.core.msgs = s.core.msgs ++
        [sentMsg s { cohMsg 0x10 (homeDie line.toNat) (c / 4) line.toNat with data := s.lineData line.toNat, own := true }]) ∧
      ((s.dirOf line.toNat).sharers.filter (· ≠ c.val / 4) ≠ [] → t.core.msgs = s.core.msgs ++
        ((s.dirOf line.toNat).sharers.filter (· ≠ c.val / 4)).map (fun i => sentMsg s (cohMsg 0x0A (homeDie line.toNat) i line.toNat)))) ∧
  (∀ (c : Fin 32) (line : BitVec 34) (a : CoreStore) (l : CLine) (s : State), homeFree s c line → s.lineAt (c / 4) line.toNat = some l →
    l.own = false → (s.dirOf line.toNat).owner = none → (s.dirOf line.toNat).sharers = [c.val / 4] →
    ∃ t, exec (.upgrade c ⟨line, a⟩) s = .next t ∧ asked s t c ∧ t.core.msgs = s.core.msgs ++
      [sentMsg s { cohMsg 0x11 (homeDie line.toNat) (c / 4) line.toNat with req := 2 }]) ∧
  (∀ (c : Fin 32) (line : BitVec 34) (l : CLine) (s : State), s.barred c (64 * line.toNat) = false →
    s.lineAt (c / 4) line.toNat = some l →
    ∃ t, exec (.getS c ⟨line, .load⟩) s = .next t ∧ t = { s with core := t.core } ∧ t.core.lines = s.core.lines ∧ t.core.dir = s.core.dir ∧
      t.core.msgs = s.core.msgs ∧ t.core.txns = s.core.txns ∧ (t.coreOf c).instret = (s.coreOf c).instret + 1) ∧
  (∀ (c : Fin 32) (line : BitVec 34) (a : CoreLoad) (b : CoreStore) (s : State), s.judge (s.whoCore c) (64 * line.toNat) ≠ .ok →
    s.lineAt (c / 4) line.toNat = none → ∀ i : Instr, i = .getS c ⟨line, a⟩ ∨ i = .getM c ⟨line, b⟩ ∨ i = .upgrade c ⟨line, b⟩ →
    ∃ t, exec i s = .next t ∧ t = { s with core := t.core } ∧ t.core.lines = s.core.lines ∧ t.core.dir = s.core.dir ∧
      t.core.msgs = s.core.msgs ∧ t.core.txns = s.core.txns ∧ (t.coreOf c).traps = (s.coreOf c).traps + 1 ∧
      (t.coreOf c).instret = (s.coreOf c).instret ∧ (t.coreOf c).tval = BitVec.ofNat 64 (64 * line.toNat) ∧
      (t.coreOf c).cause = if i = .getS c ⟨line, a⟩ then 5#6 else 7#6)

/-- Messages between the home and the clusters (R342): PUT_M writes the line back and PUT_S does not, and each is acknowledged; FWD_S
sends the owner's data to the requester and home and leaves the owner a shared copy; FWD_M hands the line to the requester; INV drops
a shared copy and is acknowledged; DATA installs the line with what the core stores into it, and the directory follows; ACK ends an
UPGRADE, or with the last of the invalidations grants the line. -/
def Obligations.CoherenceMessagesMoveLines : Prop :=
  (∀ (cl : Fin 8) (line : BitVec 34) (data : BitVec 512) (l : CLine) (s : State), quiet s = true → clean s = true → homeDie line.toNat < 4 →
    s.lineAt cl line.toNat = some l → s.judge (whoLine cl l.ctx) (64 * line.toNat) = .ok → (s.dirOf line.toNat).owner = some cl.val →
    (∀ m ∈ s.core.msgs, m.line ≠ line.toNat) → Tab.look s.core.txns line.toNat = none →
    ∃ t, exec (.putM cl line data) s = .next t ∧ t = { s with core := t.core, mem := t.mem } ∧ t.lineData line.toNat = data ∧
      (∀ a, a < 64 * line.toNat ∨ 64 * line.toNat + 64 ≤ a → t.byteAt a = s.byteAt a) ∧ t.lineAt cl line.toNat = none ∧
      (∀ i, i ≠ lineKey cl line.toNat → Tab.look t.core.lines i = Tab.look s.core.lines i) ∧ (t.dirOf line.toNat).owner = none ∧
      t.core.msgs = s.core.msgs ++ [sentMsg s { cohMsg 0x11 (homeDie line.toNat) cl line.toNat with req := 1 }]) ∧
  (∀ (cl : Fin 8) (line : BitVec 34) (s : State), (Tab.look s.core.dir line.toNat).isSome = true →
    (∀ m ∈ s.core.msgs, m.line ≠ line.toNat) → Tab.look s.core.txns line.toNat = none →
    ∃ t, exec (.putS cl line) s = .next t ∧ t = { s with core := t.core } ∧ t.lineAt cl line.toNat = none ∧
      (∀ i, i ≠ lineKey cl line.toNat → Tab.look t.core.lines i = Tab.look s.core.lines i) ∧
      (t.dirOf line.toNat).sharers = (s.dirOf line.toNat).sharers.filter (· ≠ cl.val) ∧
      t.core.msgs = s.core.msgs ++ [sentMsg s { cohMsg 0x11 (homeDie line.toNat) cl line.toNat with req := 1 }]) ∧
  (∀ (o r : Fin 8) (line : BitVec 34) (l : CLine) (s : State), quiet s = true → clean s = true → homeDie line.toNat < 4 →
    inFlight s (isMsg 0x08 o line.toNat) →
    (Tab.look s.core.dir line.toNat).isSome = true → s.lineAt o line.toNat = some l → l.own = true →
    s.judge (whoLine o l.ctx) (64 * line.toNat) = .ok →
    ∃ t, exec (.fwdS o r line) s = .next t ∧ t = { s with core := t.core, mem := t.mem } ∧ t.lineData line.toNat = l.data ∧
      (∀ a, a < 64 * line.toNat ∨ 64 * line.toNat + 64 ≤ a → t.byteAt a = s.byteAt a) ∧
      t.lineAt o line.toNat = some { l with own := false } ∧ (t.dirOf line.toNat).owner = none ∧ o.val ∈ (t.dirOf line.toNat).sharers ∧
      t.core.msgs = s.core.msgs.eraseP (isMsg 0x08 o line.toNat) ++
        [sentMsg s { cohMsg 0x10 (clusterDie o) r line.toNat with data := l.data }]) ∧
  (∀ (o r : Fin 8) (line : BitVec 34) (l : CLine) (s : State), inFlight s (isMsg 0x09 o line.toNat) →
    (Tab.look s.core.dir line.toNat).isSome = true → s.lineAt o line.toNat = some l →
    ∃ t, exec (.fwdM o r line) s = .next t ∧ t = { s with core := t.core } ∧ t.lineAt o line.toNat = none ∧
      (t.dirOf line.toNat).owner = some r.val ∧ (t.dirOf line.toNat).sharers = [] ∧
      t.core.msgs = s.core.msgs.eraseP (isMsg 0x09 o line.toNat) ++
        [sentMsg s { cohMsg 0x10 (clusterDie o) r line.toNat with data := l.data, own := true }]) ∧
  (∀ (cl : Fin 8) (line : BitVec 34) (l : CLine) (s : State), quiet s = true → inFlight s (isMsg 0x0A cl line.toNat) →
    (Tab.look s.core.dir line.toNat).isSome = true → s.lineAt cl line.toNat = some l → l.own = false →
    ∃ t, exec (.inv cl line) s = .next t ∧ t = { s with core := t.core } ∧ t.lineAt cl line.toNat = none ∧
      (t.dirOf line.toNat).sharers = (s.dirOf line.toNat).sharers.filter (· ≠ cl.val) ∧
      t.core.msgs = s.core.msgs.eraseP (isMsg 0x0A cl line.toNat) ++ [sentMsg s (cohMsg 0x11 (clusterDie cl) cl line.toNat)]) ∧
  (∀ (cl : Fin 8) (line : BitVec 34) (data : BitVec 512) (own : Bool) (x : CohTxn) (q : CohReq) (s : State),
    inFlight s (fun m => isMsg 0x10 cl line.toNat m && m.data = data && m.own = own) →
    ((Tab.look s.core.dir line.toNat).isSome = true ∨
      (s.core.dir.filter (fun e => homeDie e.1 = homeDie line.toNat)).length < dirCapacity) →
    ((s.lineAt cl line.toNat).isSome = true ∨ (s.core.lines.filter (fun e => e.1 / 2 ^ 34 = cl.val)).length < l2Lines) →
    Tab.look s.core.txns line.toNat = some x → x.req = some q → q.core / 4 = cl.val → x.waiting = [] → (s.coreOf q.core).valid = true →
    ∃ t, exec (.coherenceData cl line data own) s = .next t ∧ t = { s with core := t.core } ∧
      t.lineAt cl line.toNat = some { own := own, data := storeIn data q.acc, ctx := (s.coreOf q.core).ctx.toNat } ∧
      (∀ i, i ≠ lineKey cl line.toNat → Tab.look t.core.lines i = Tab.look s.core.lines i) ∧
      (own = true → (t.dirOf line.toNat).owner = some cl.val ∧ (t.dirOf line.toNat).sharers = []) ∧
      (own = false → cl.val ∈ (t.dirOf line.toNat).sharers) ∧ Tab.look t.core.txns line.toNat = none ∧
      (q.acc = .load .lr → (t.coreOf q.core).resv = some line.toNat)) ∧
  (∀ (cl : Fin 8) (line : BitVec 34) (m : CohMsg) (l : CLine) (x : CohTxn) (q : CohReq) (s : State),
    (Tab.look s.core.dir line.toNat).isSome = true → s.core.msgs.find? (isMsg 0x11 cl line.toNat) = some m →
    m.gen = Tab.get 0#8 s.flt.gens m.src → m.req = 2 → s.lineAt cl line.toNat = some l →
    Tab.look s.core.txns line.toNat = some x → x.req = some q → q.core / 4 = cl.val → x.waiting = [] →
    ∃ t, exec (.coherenceAck cl line) s = .next t ∧ t = { s with core := t.core } ∧
      t.lineAt cl line.toNat = some { l with own := true, data := storeIn l.data q.acc } ∧ (t.dirOf line.toNat).owner = some cl.val ∧
      (t.dirOf line.toNat).sharers = [] ∧ Tab.look t.core.txns line.toNat = none) ∧
  (∀ (cl : Fin 8) (line : BitVec 34) (m : CohMsg) (x : CohTxn) (q : CohReq) (s : State),
    s.core.msgs.find? (isMsg 0x11 cl line.toNat) = some m → m.gen = Tab.get 0#8 s.flt.gens m.src → m.req = 0 →
    Tab.look s.core.txns line.toNat = some x → x.acks = 1 → x.req = some q → q.upgrade = false →
    ∃ t, exec (.coherenceAck cl line) s = .next t ∧ t = { s with core := t.core } ∧ t.core.lines = s.core.lines ∧
      t.core.msgs = s.core.msgs.eraseP (· == m) ++ [sentMsg s { cohMsg 0x10 (homeDie line.toNat) (q.core / 4) line.toNat with
        data := s.lineData line.toNat, own := true }])

/-- Cache-block operations (R339): CBO_CLEAN of a line that one cluster holds modified writes it to memory and leaves a shared copy;
CBO_FLUSH writes it and leaves no copy; CBO_INVAL leaves no copy and writes nothing; the core retires the instruction. On a line that
the core may not reach each is an access fault (R338). -/
def Obligations.CacheBlockOperations : Prop :=
  (∀ (c : Fin 32) (a : BitVec 40) (cl : Fin 8) (l : CLine) (s : State), quiet s = true → clean s = true → homeDie (a.toNat / 64) < 4 →
    s.barred c a.toNat = false → s.judge (s.whoCore c) a.toNat = .ok →
    (Tab.look s.core.dir (a.toNat / 64)).isSome = true → s.lineAt cl (a.toNat / 64) = some l → l.own = true →
    (∀ i m, i ≠ cl.val → s.lineAt i (a.toNat / 64) = some m → m.own = false) →
    s.judge (whoLine cl l.ctx) (64 * (a.toNat / 64)) = .ok →
    (∃ t, exec (.cboClean c a) s = .next t ∧ t = { s with core := t.core, mem := t.mem } ∧ t.lineData (a.toNat / 64) = l.data ∧
      (∀ x, x < 64 * (a.toNat / 64) ∨ 64 * (a.toNat / 64) + 64 ≤ x → t.byteAt x = s.byteAt x) ∧
      t.lineAt cl (a.toNat / 64) = some { l with own := false } ∧ (t.dirOf (a.toNat / 64)).owner = none ∧
      (t.coreOf c) = { s.coreOf c with instret := (s.coreOf c).instret + 1 }) ∧
    ∃ t, exec (.cboFlush c a) s = .next t ∧ t = { s with core := t.core, mem := t.mem } ∧ t.lineData (a.toNat / 64) = l.data ∧
      (∀ x, x < 64 * (a.toNat / 64) ∨ 64 * (a.toNat / 64) + 64 ≤ x → t.byteAt x = s.byteAt x) ∧
      (∀ i < 8, t.lineAt i (a.toNat / 64) = none) ∧ Tab.look t.core.dir (a.toNat / 64) = none) ∧
  (∀ (c : Fin 32) (a : BitVec 40) (s : State), s.barred c a.toNat = false → s.judge (s.whoCore c) a.toNat = .ok →
    (s.coreOf c).waitBeat = none →
    ∃ t, exec (.cboInval c a) s = .next t ∧ t = { s with core := t.core } ∧ (∀ i < 8, t.lineAt i (a.toNat / 64) = none) ∧
      Tab.look t.core.dir (a.toNat / 64) = none ∧ (t.coreOf c).instret = (s.coreOf c).instret + 1) ∧
  (∀ (c : Fin 32) (a : BitVec 40) (i : Instr) (s : State), quiet s = true → (s.judge (s.whoCore c) a.toNat ≠ .ok ∨ s.barred c a.toNat = true) →
    i = .cboClean c a ∨ i = .cboFlush c a ∨ i = .cboInval c a →
    ∃ t, exec i s = .next t ∧ t = { s with core := t.core } ∧ t.core.lines = s.core.lines ∧ t.core.dir = s.core.dir ∧
      (t.coreOf c).cause = 7#6 ∧ (t.coreOf c).tval = BitVec.ofNat 64 a.toNat ∧ (t.coreOf c).traps = (s.coreOf c).traps + 1)

/-- Application cores (Tables 17-1 to 17-3). GXCTX takes CTX, and VALID, SC and PART follow from that context; VALID of GXERR is cleared by
writing 1 to it; a write of mcycle reads back until beats pass; WFI, and a WRS without a reservation, change nothing but the count
of retired instructions; with one, WRS waits for at most 4096 or 64 beats. No other core changes. -/
def Obligations.CoreRegisters : Prop :=
  (∀ (c : Fin 32) (v : BitVec 64) (s : State),
    ∃ t, exec (.gxctxWrite c v) s = .next t ∧ t = { s with core := t.core } ∧ (∀ i, i ≠ c.val → t.coreOf i = s.coreOf i) ∧
      ((s.ctxOf (v.extractLsb' 0 6).toNat).state ≠ 0 → t.coreOf c = { s.coreOf c with
        ctx := v.extractLsb' 0 6, valid := true, sc := BitVec.ofNat 2 (s.ctxOf (v.extractLsb' 0 6).toNat).sc,
        part := BitVec.ofNat 3 (s.ctxOf (v.extractLsb' 0 6).toNat).part, instret := (s.coreOf c).instret + 1 }) ∧
      ((s.ctxOf (v.extractLsb' 0 6).toNat).state = 0 → t.coreOf c = { s.coreOf c with
        ctx := v.extractLsb' 0 6, valid := false, sc := 3#2, part := 0#3, instret := (s.coreOf c).instret + 1 })) ∧
  (∀ (c : Fin 32) (v : BitVec 64) (s : State),
    ∃ t, exec (.gxerrClear c v) s = .next t ∧ t = { s with core := t.core } ∧ (∀ i, i ≠ c.val → t.coreOf i = s.coreOf i) ∧
      t.coreOf c = { s.coreOf c with errValid := (s.coreOf c).errValid && !v.getLsbD 63, instret := (s.coreOf c).instret + 1 }) ∧
  (∀ (c : Fin 32) (v : BitVec 64) (s : State),
    ∃ t, exec (.mcycleWrite c v) s = .next t ∧ t = { s with core := t.core } ∧ (∀ i, i ≠ c.val → t.coreOf i = s.coreOf i) ∧
      (t.coreOf c).cycleOff + BitVec.ofNat 64 (t.beat (c / 8)) = v ∧
      t.coreOf c = { s.coreOf c with cycleOff := (t.coreOf c).cycleOff, instret := (s.coreOf c).instret + 1 }) ∧
  (∀ (c : Fin 32) (s : State),
    ∃ t, exec (.wfi c) s = .next t ∧ t = { s with core := t.core } ∧ (∀ i, i ≠ c.val → t.coreOf i = s.coreOf i) ∧
      t.coreOf c = { s.coreOf c with instret := (s.coreOf c).instret + 1 }) ∧
  (∀ (c : Fin 32) (s : State),
    ∃ t u, exec (.wrsNto c) s = .next t ∧ exec (.wrsSto c) s = .next u ∧ t = { s with core := t.core } ∧ u = { s with core := u.core } ∧
      (∀ i, i ≠ c.val → t.coreOf i = s.coreOf i ∧ u.coreOf i = s.coreOf i) ∧
      ((s.coreOf c).resv = none → t.coreOf c = { s.coreOf c with instret := (s.coreOf c).instret + 1 } ∧ u.coreOf c = t.coreOf c) ∧
      ((s.coreOf c).resv ≠ none → t.coreOf c = { s.coreOf c with waitBeat := some (s.beat (c / 8) + 4096) } ∧
        u.coreOf c = { s.coreOf c with waitBeat := some (s.beat (c / 8) + 64) }))

/-- The mailbox block (R59, R63 to R66, R72). The master writes the body of a FREE slot, rings its doorbell, releases DONE slots and clears
MBX_STICKY; on a slot that is not FREE a body write or a doorbell changes nothing but MBX_STICKY and MBX_ANOMALY; another
initiator changes nothing. SLOT_TAKE completes with the effect of the command that it takes: a PING in the slot at the head of the queue
is answered and the slot is DONE; a SEQ that is not the slot's next completes with 0x13 and is not remembered; an empty queue changes
nothing. -/
def Obligations.MailboxBlock : Prop :=
  (∀ (w : Initiator) (i : Fin 16) (off : Fin 256) (data : List Byte) (s : State), s.isMaster w = true → (s.slotOf i).state = 0#2 →
    ∃ t, exec (.slotBodyWrite w i off data) s = .next t ∧ t = { s with mbx := t.mbx } ∧ (∀ j, j ≠ i.val → t.slotOf j = s.slotOf j) ∧
      t.slotOf i = { s.slotOf i with body := (t.slotOf i).body } ∧
      (∀ o < 256, Tab.get 0#8 (t.slotOf i).body o =
        if off.val ≤ o ∧ o < off.val + data.length then data.getD (o - off) 0#8 else Tab.get 0#8 (s.slotOf i).body o)) ∧
  (∀ (w : Initiator) (i : Fin 16) (v : BitVec 32) (s : State), s.isMaster w = true → bitsAt v.toNat 0 4 = i.val → (s.slotOf i).state = 0#2 →
    ∃ t, exec (.mbxDoorbellWrite w v) s = .next t ∧ t = { s with mbx := t.mbx } ∧
      t.slotOf i = { s.slotOf i with state := 1#2, dbSeq := v.extractLsb' 4 16 } ∧ t.mbx.order = s.mbx.order ++ [i.val] ∧
      (∀ j, j ≠ i.val → t.slotOf j = s.slotOf j)) ∧
  (∀ (w : Initiator) (i : Fin 16) (v : BitVec 32) (off : Fin 256) (data : List Byte) (s : State), s.isMaster w = true →
    bitsAt v.toNat 0 4 = i.val → (s.slotOf i).state ≠ 0#2 →
    ∃ t u, exec (.mbxDoorbellWrite w v) s = .next t ∧ exec (.slotBodyWrite w i off data) s = .next u ∧
      t = { s with mbx := { s.mbx with sticky := s.mbx.sticky ||| 1#4, anomaly := satInc s.mbx.anomaly } } ∧
      u = { s with mbx := { s.mbx with sticky := s.mbx.sticky ||| 2#4, anomaly := satInc s.mbx.anomaly } }) ∧
  (∀ (w : Initiator) (v : BitVec 32) (s : State), s.isMaster w = true →
    (∀ i : Fin 16, bitsAt v.toNat i 1 = 1 → (s.slotOf i).state = 3#2) →
    ∃ t, exec (.mbxReleaseWrite w v) s = .next t ∧ t = { s with mbx := t.mbx } ∧ t.mbx = { s.mbx with slots := t.mbx.slots } ∧
      (∀ i : Fin 16, t.slotOf i = if bitsAt v.toNat i 1 = 1 then { s.slotOf i with state := 0#2 } else s.slotOf i)) ∧
  (∀ (w : Initiator) (v : BitVec 32) (s : State), s.isMaster w = true →
    ∃ t, exec (.mbxStickyClear w v) s = .next t ∧
      t = { s with mbx := { s.mbx with sticky := s.mbx.sticky &&& ~~~(v.extractLsb' 0 4) } }) ∧
  (∀ (w : Initiator) (v : BitVec 32) (i : Fin 16) (off : Fin 256) (data : List Byte) (s : State), s.isMaster w = false →
    exec (.mbxDoorbellWrite w v) s = .next s ∧ exec (.mbxReleaseWrite w v) s = .next s ∧ exec (.mbxStickyClear w v) s = .next s ∧
      exec (.slotBodyWrite w i off data) s = .next s) ∧
  (∀ s : State, s.mbx.order = [] → s.pair.carried = [] → s.cmds.active = [] → exec .slotTake s = .next s) ∧
  (∀ (i : Fin 16) (s : State), s.mbx.ready = true → s.flt.reeveHung = false → s.mbx.order = [i.val] → s.cmds.active = [] →
    s.pair.carried = [] → quiet s = true → bodySeq (s.slotBody i) ≠ (s.slotOf i).lastSeq + 1 → (s.slotOf i).dbSeq = bodySeq (s.slotBody i) →
    ∃ t, exec .slotTake s = .next t ∧ t = { s with mbx := t.mbx, freeCnt := t.freeCnt } ∧ t.mbx.order = [] ∧
      (t.slotOf i).state = 3#2 ∧ (t.slotOf i).code = 0x13 ∧ (t.slotOf i).lastSeq = (s.slotOf i).lastSeq ∧
      t.mbx.sticky = s.mbx.sticky ||| 8#4 ∧ (∀ j, j ≠ i.val → t.slotOf j = s.slotOf j)) ∧
  (∀ (i : Fin 16) (s : State), s.mbx.ready = true → s.flt.reeveHung = false → s.mbx.order = [i.val] → s.cmds.active = [] →
    s.pair.carried = [] → quiet s = true → bodySeq (s.slotBody i) = (s.slotOf i).lastSeq + 1 → (s.slotOf i).dbSeq = bodySeq (s.slotBody i) →
    bodyOpcode (s.slotBody i) = 0x01 → bodyArgLen (s.slotBody i) = 0 →
    ∃ t, exec .slotTake s = .next t ∧ t = { s with mbx := t.mbx, freeCnt := t.freeCnt } ∧ t.mbx.order = [] ∧
      (t.slotOf i).state = 3#2 ∧ (t.slotOf i).code = 0 ∧ (t.slotOf i).cseq = bodySeq (s.slotBody i) ∧
      (t.slotOf i).lastSeq = bodySeq (s.slotBody i) ∧ (t.slotOf i).epoch = s.tly.latest ∧
      (t.slotOf i).result.take 16 = leBytes 8 s.tly.latest.toNat ++ leBytes 8 s.tly.opened.toNat ∧
      t.mbx = { s.mbx with slots := t.mbx.slots, order := [] } ∧ (∀ j, j ≠ i.val → t.slotOf j = s.slotOf j))

/-- Immediate commands complete as they are taken (R80): PING reports LATEST and OPENED; GET_INFO, GET_JOURNAL and ATTEST with RESP_OFFSET 0 the
first part of their response, of 64 bytes, of 64 bytes per journal entry of this start, and of the evidence for the nonce;
EPOCH_OPEN opens the next epoch with its deadline. -/
def Obligations.ImmediateCommands : Prop :=
  ∀ (h : CmdHdr) (s : State), served s h = true →
    (∃ t, exec (.ping h) s = .next t ∧ t = { s with mbx := t.mbx, freeCnt := t.freeCnt } ∧ mailDone h 0x01 0 s t ∧
      (t.slotOf h.slot).epoch = s.tly.latest ∧
      (t.slotOf h.slot).result.take 16 = leBytes 8 s.tly.latest.toNat ++ leBytes 8 s.tly.opened.toNat) ∧
    (h.respOffset = 0#32 →
      (∃ t, exec (.getInfo h) s = .next t ∧ t = { s with mbx := t.mbx, freeCnt := t.freeCnt } ∧ mailDone h 0x02 0 s t ∧
        (t.slotOf h.slot).respTotal = 64 ∧ (t.slotOf h.slot).resp.length = 64) ∧
      (∃ t, exec (.getJournal h) s = .next t ∧ t = { s with mbx := t.mbx, freeCnt := t.freeCnt } ∧ mailDone h 0x03 0 s t ∧
        (t.slotOf h.slot).respTotal = 64 * (sinceStart s.journalEntries).length ∧
        (t.slotOf h.slot).resp = ((sinceStart s.journalEntries).flatMap jBytes).take 2048) ∧
      (∀ nonce : BitVec 256, (∀ p, s.sec.pair = some p → p.nonce ≠ nonce) →
        ∃ t, exec (.attest h nonce) s = .next t ∧ t = { s with mbx := t.mbx, sec := t.sec, freeCnt := t.freeCnt } ∧ mailDone h 0x60 0 s t ∧
          (t.slotOf h.slot).respTotal = 7168 ∧ (t.slotOf h.slot).resp = (s.evidence nonce s.sec.made).take 2048 ∧
          t.sec = { s.sec with
            made := s.sec.made + 1, pair := some { nonce := nonce, ident := s.sec.made, evidence := s.evidence nonce s.sec.made } })) ∧
    (∀ d : BitVec 32, 10000 ≤ d.toNat → d.toNat ≤ 300000000 → s.mayOpen = true → s.pair.openHeld = [] → s.contributors s.nextN = [] →
      ∃ t, exec (.epochOpen h d) s = .next t ∧ mailDone h 0x10 0 s t ∧ (t.slotOf h.slot).epoch = s.nextN ∧ t.tly.opened = s.nextN ∧
        t.tly.openEps.map (fun e => (e.n, e.openTick, e.deadline, e.withhold)) = [(s.nextN, s.now, d.toNat, 0#32)] ∧
        t.mem = s.mem ∧ t.tly.latest = s.tly.latest)

/-- Commands of class E without a source take effect at once while no epoch is open and no schedule runs (Table 3-8, R75, R77). -/
def Obligations.EpochBoundCommandsApply : Prop :=
  ∀ (h : CmdHdr) (s : State), served s h = true →
    (∀ (period dl : BitVec 32) (trig : Byte), trig.toNat < 64 → 10000 ≤ dl.toNat → dl.toNat ≤ 300000000 →
      ∃ t, exec (.epochSchedule h 2#8 period trig dl) s = .next t ∧
        t = { s with mbx := t.mbx, cmds := t.cmds, tly := t.tly, freeCnt := t.freeCnt } ∧ applied h 0x11 s t ∧
        t.tly.sched = some { mode := 2, period := period.toNat, trigger := trig.toNat, deadline := dl.toNat, start := s.now } ∧
        t.tly.halted = false ∧ t.tly.openEps = []) ∧
    (∀ (period dl : BitVec 32) (trig : Byte), 100000 ≤ period.toNat → period.toNat ≤ 100000000 → 10000 ≤ dl.toNat →
      dl.toNat ≤ 300000000 → dl.toNat ≤ 3 * period.toNat → s.mayOpen = true → s.pair.openHeld = [] → s.pair.twinOpen = [] →
      s.contributors s.nextN = [] →
      ∃ t, exec (.epochSchedule h 1#8 period trig dl) s = .next t ∧ mailDone h 0x11 0 s t ∧
        t.tly.sched = some { mode := 1, period := period.toNat, trigger := trig.toNat, deadline := dl.toNat, start := s.now } ∧
        t.tly.opened = s.nextN ∧ t.tly.openEps.map (fun e => (e.n, e.deadline)) = [(s.nextN, dl.toNat)]) ∧
    (∀ (mask dests : BitVec 32) (every : BitVec 16), 1 ≤ every.toNat → every.toNat ≤ 1024 →
      ∃ t, exec (.recordSchedule h mask every dests) s = .next t ∧
        t = { s with mbx := t.mbx, cmds := t.cmds, tly := t.tly, freeCnt := t.freeCnt } ∧ applied h 0x13 s t ∧
        t.tly.recSched = { mask := mask, every := every, dests := dests }) ∧
    (∀ (c part sc : Byte) (base len : BitVec 64), c.toNat < 64 → (s.ctxOf c.toNat).state = 0 → part.toNat < 8 → sc.toNat < 4 →
      base.toNat % mib2 = 0 → len.toNat ≠ 0 → len.toNat % mib2 = 0 → (oneStack base.toNat len.toNat).isSome = true →
      s.rangeFree base.toNat len.toNat = true → s.stackRuns (base.toNat / stackBytes) = true →
      ∃ t, exec (.contextCreate h c part sc base len) s = .next t ∧
        t = { s with mbx := t.mbx, cmds := t.cmds, tly := t.tly, cx := t.cx, freeCnt := t.freeCnt } ∧ applied h 0x20 s t ∧
        t.ctxOf c.toNat = { Ctx.init with state := 1, part := part.toNat, sc := sc.toNat, base := base.toNat, len := len.toNat } ∧
        (∀ i, i ≠ c.toNat → t.ctxOf i = s.ctxOf i)) ∧
    (∀ c : Byte, c.toNat < 64 → (s.ctxOf c.toNat).state = 1 → s.ctxQuiet c.toNat = true →
      ∃ t, exec (.contextDestroy h c) s = .next t ∧ applied h 0x21 s t ∧ t.ctxOf c.toNat = Ctx.init ∧
        (∀ i, i ≠ c.toNat → t.ctxOf i = s.ctxOf i)) ∧
    (∀ c : Byte, c.toNat < 64 → (s.ctxOf c.toNat).state = 1 → (s.ctxOf c.toNat).graph.isSome = true →
      ∃ t, exec (.graphStart h c) s = .next t ∧
        t = { s with mbx := t.mbx, cmds := t.cmds, tly := t.tly, cx := t.cx, freeCnt := t.freeCnt } ∧ applied h 0x23 s t ∧
        t.ctxOf c.toNat = { s.ctxOf c.toNat with state := 2, start := s.nextN, stop := none } ∧
        (∀ i, i ≠ c.toNat → t.ctxOf i = s.ctxOf i)) ∧
    (∀ c : Byte, c.toNat < 64 → (s.ctxOf c.toNat).state = 2 →
      ∃ t, exec (.graphStop h c) s = .next t ∧
        t = { s with mbx := t.mbx, cmds := t.cmds, tly := t.tly, cx := t.cx, freeCnt := t.freeCnt } ∧ applied h 0x24 s t ∧
        t.ctxOf c.toNat = { s.ctxOf c.toNat with state := 1, stop := some s.nextN } ∧ (∀ i, i ≠ c.toNat → t.ctxOf i = s.ctxOf i)) ∧
    (∀ (interval : BitVec 32) (mask : Byte), interval.toNat = 0 ∨ 100000000 ≤ interval.toNat → mask.toNat < 64 →
      ∃ t, exec (.rehearsalSet h interval mask) s = .next t ∧
        t = { s with mbx := t.mbx, cmds := t.cmds, tly := t.tly, pair := t.pair, freeCnt := t.freeCnt } ∧ applied h 0x51 s t ∧
        t.pair = { s.pair with interval := if interval.toNat = 0 then 60000000000 else interval.toNat, mask := mask.extractLsb' 0 6 }) ∧
    (∀ reason : Byte, ∃ t, exec (.fallbackRequest h reason) s = .next t ∧
      t = { s with mbx := t.mbx, cmds := t.cmds, tly := t.tly, freeCnt := t.freeCnt } ∧ applied h 0x80 s t ∧ t.cmds.fallback = true) ∧
    (∃ t, exec (.fallbackClear h) s = .next t ∧
      t = { s with mbx := t.mbx, cmds := t.cmds, tly := t.tly, freeCnt := t.freeCnt } ∧ applied h 0x81 s t ∧ t.cmds.fallback = false)

/-- Commands of class E that set a die's, a stage's, a stream's, the switch's or a unit's configuration take effect at once while no
epoch is open and no schedule runs: operating points (R49 to R52), throttle tables (R480), watchdogs (R355), ingest and switch
tables (R305, R319), bandwidth shares (R260) and MAP_OUT, which makes a journal entry (R444). -/
def Obligations.ConfigurationCommandsApply : Prop :=
  ∀ (h : CmdHdr) (s : State), served s h = true →
    (∀ (die : Byte) (l : List (BitVec 32 × BitVec 32)), die.toNat < 4 → s.dieRuns die.toNat = true → l.length = 16 →
      opcBad 0 none (l.map opcOfWords) = none →
      ∃ t, exec (.opcTableWrite h die l) s = .next t ∧
        t = { s with mbx := t.mbx, cmds := t.cmds, tly := t.tly, thm := t.thm, freeCnt := t.freeCnt } ∧ applied h 0x30 s t ∧
        (∀ i < 16, (t.opc die.toNat).level i = opcOfWords (l.getD i (0#32, 0#32))) ∧
        (t.opc die.toNat).levelCmd.toNat = min (s.opc die.toNat).levelCmd.toNat (t.opc die.toNat).topLevel ∧
        (∀ i, i ≠ die.toNat → t.opc i = s.opc i)) ∧
    (∀ die level : Byte, die.toNat < 4 → s.dieRuns die.toNat = true → level.toNat < 16 →
      ((s.opc die.toNat).level level.toNat).valid = true →
      ∃ t, exec (.opcLevelSet h die level) s = .next t ∧
        t = { s with mbx := t.mbx, cmds := t.cmds, tly := t.tly, thm := t.thm, freeCnt := t.freeCnt } ∧ applied h 0x31 s t ∧
        (t.opc die.toNat).levelCmd.toNat = level.toNat ∧
        (t.opc die.toNat).levelEff.toNat = min level.toNat (min (s.thrCap die.toNat) s.thm.pcap.toNat) ∧
        (∀ i, i ≠ die.toNat → t.opc i = s.opc i)) ∧
    (∀ (die : Byte) (src : Source) (b : List Byte), die.toNat < 4 → s.dieRuns die.toNat = true →
      src.addr.toNat + src.len.toNat ≤ 4 * stackBytes → s.load whoReeve src.addr.toNat src.len.toNat = .ok b → b.length = 64 →
      thrBad 0 none true (thrPieces b) = none →
      ∃ t, exec (.throttleTableWrite h die src) s = .next t ∧
        t = { s with mbx := t.mbx, cmds := t.cmds, tly := t.tly, thm := t.thm, freeCnt := t.freeCnt } ∧ applied h 0x32 s t ∧
        (∀ i < 16, Tab.get ThrEnt.none (t.opc die.toNat).thr i = thrOf (sub b (4 * i) 4)) ∧ (t.opc die.toNat).thrFresh = true ∧
        (∀ i, i ≠ die.toNat → t.opc i = s.opc i)) ∧
    (∀ (stage : Byte) (cfg : BitVec 512), stage.toNat < 16 → wdgBad (leBytes 64 cfg.toNat) = none →
      ∃ t, exec (.wdgConfig h stage cfg) s = .next t ∧
        t = { s with mbx := t.mbx, cmds := t.cmds, tly := t.tly, hwa := t.hwa, freeCnt := t.freeCnt } ∧ applied h 0x40 s t ∧
        t.stage stage.toNat = { s.stage stage.toNat with cfg := wdgCfgOf (leBytes 64 cfg.toNat) } ∧
        (∀ i, i ≠ stage.toNat → t.stage i = s.stage i)) ∧
    (∀ (stream : Byte) (src : Source) (b : List Byte) (x : IngTable), stream.toNat < 64 → Tab.get false s.flt.iodSub 0 = false →
      src.addr.toNat + src.len.toNat ≤ 4 * stackBytes → s.load whoReeve src.addr.toNat src.len.toNat = .ok b →
      parseIngTable (s.featOn 1) stream.toNat b = .ok x →
      ∃ t, exec (.ingestTableWrite h stream src) s = .next t ∧
        t = { s with mbx := t.mbx, cmds := t.cmds, tly := t.tly, ing := t.ing, freeCnt := t.freeCnt } ∧ applied h 0x41 s t ∧
        (t.stream stream.toNat).table = some x ∧ (t.stream stream.toNat).since = s.nextN ∧
        (t.stream stream.toNat).old.getLast? = some (s.nextN, (s.stream stream.toNat).table) ∧ (∀ i, i ≠ stream.toNat → t.stream i = s.stream i)) ∧
    (∀ (table : Byte) (src : Source) (b : List Byte), s.switchOn = true → src.addr.toNat + src.len.toNat ≤ 4 * stackBytes →
      s.load whoReeve src.addr.toNat src.len.toNat = .ok b → s.switchCheck table.toNat b = none →
      ∃ t, exec (.switchTableWrite h table src) s = .next t ∧
        t = { s with mbx := t.mbx, cmds := t.cmds, tly := t.tly, sw := t.sw, freeCnt := t.freeCnt } ∧ applied h 0x42 s t ∧
        Tab.get [] t.sw.images table.toNat = b ∧ (∀ i, i ≠ table.toNat → Tab.get [] t.sw.images i = Tab.get [] s.sw.images i)) ∧
    (∀ (part : Byte) (hb fb : BitVec 32), part.toNat < 8 → 1 ≤ hb.toNat % 2048 → hb.toNat % 2048 ≤ 1024 → 1 ≤ fb.toNat % 2048 →
      fb.toNat % 2048 ≤ 1024 →
      ∃ t, exec (.bandwidthSet h part hb fb) s = .next t ∧
        t = { s with mbx := t.mbx, cmds := t.cmds, tly := t.tly, cx := t.cx, hmc := t.hmc, freeCnt := t.freeCnt } ∧ applied h 0x43 s t ∧
        Tab.get 0x400#11 t.cx.hbmShare part.toNat = hb.extractLsb' 0 11 ∧ Tab.get 0x400#11 t.cx.fabShare part.toNat = fb.extractLsb' 0 11 ∧
        (∀ i, i ≠ part.toNat → Tab.get 0x400#11 t.cx.hbmShare i = Tab.get 0x400#11 s.cx.hbmShare i ∧
          Tab.get 0x400#11 t.cx.fabShare i = Tab.get 0x400#11 s.cx.fabShare i)) ∧
    (∀ kind index : Byte, 1 ≤ kind.toNat → kind.toNat ≤ 5 → index.toNat < unitsOf kind.toNat →
      (unitTargets kind.toNat index.toNat).all s.targetUp = true → s.boot.jfail = false → s.hasJournal = true →
      s.journalEntries.length < 7168 →
      ∃ t, exec (.mapOut h kind index) s = .next t ∧
        t = { s with mbx := t.mbx, cmds := t.cmds, tly := t.tly, boot := t.boot, freeCnt := t.freeCnt } ∧ applied h 0x71 s t ∧
        t.unitState kind.toNat index.toNat = some 4 ∧ t.journalEntries.length = s.journalEntries.length + 1)

/-- Commands that are ACTIVE before they apply (R74, R379). A class B command is taken with its work limit (Table 3-10); work that ends
installs the key of a KEY_INSTALL that unwraps, or completes the command with the error, which is 0x7F where firmware of a deputy has failed
(R79); work past its limit completes with 0x50. EPOCH_HALT
waits for the next open event of the schedule, and ROLE_SWAP in a pair for the twin's answer. -/
def Obligations.ActiveCommands : Prop :=
  (∀ (h : CmdHdr) (s : State), served s h = true →
    (∀ (c : Byte) (src : Source) (sha : BitVec 384), c.toNat < 64 → (s.ctxOf c.toNat).state = 1 →
      src.addr.toNat + src.len.toNat ≤ 4 * stackBytes →
      ∃ t, exec (.graphLoad h c src sha) s = .next t ∧ t = { s with mbx := t.mbx, cmds := t.cmds } ∧
        nowActive h 0x22 (.working (200000 + 2000 * ((src.len.toNat + 0xFFFFF) / 0x100000)) src.len.toNat) s t) ∧
    (∀ (place : Byte) (src : Source), place.toNat < 16 → src.len.toNat = 1280 → src.addr.toNat + 1280 ≤ 4 * stackBytes →
      Tab.get false s.flt.iodSub 3 = false →
      ∃ t, exec (.keyInstall h place src) s = .next t ∧ t = { s with mbx := t.mbx, cmds := t.cmds } ∧
        nowActive h 0x61 (.working 50000 0) s t) ∧
    (∀ (place : Byte) (src dst len : BitVec 64), s.weightArgs place.toNat src.toNat dst.toNat len.toNat = none →
      Tab.get false s.flt.iodSub 3 = false → s.stackRuns (dst.toNat / stackBytes) = true →
      ∃ t, exec (.weightDecrypt h place src dst len) s = .next t ∧ t = { s with mbx := t.mbx, cmds := t.cmds } ∧
        nowActive h 0x62 (.working (100000 + 4000 * ((len.toNat + 0xFFFFF) / 0x100000)) len.toNat) s t) ∧
    (∀ kind index : Byte, 1 ≤ kind.toNat → kind.toNat ≤ 5 → index.toNat < unitsOf kind.toNat →
      (unitTargets kind.toNat index.toNat).all s.targetUp = true →
      ∃ t, exec (.resetUnit h kind index) s = .next t ∧ t = { s with mbx := t.mbx, cmds := t.cmds } ∧
        nowActive h 0x70 (.working 700000 0) s t) ∧
    (∃ t, exec (.shutdown h) s = .next t ∧ t = { s with mbx := t.mbx, cmds := t.cmds } ∧ nowActive h 0x90 (.working 1000000 0) s t)) ∧
  (∀ (h : CmdHdr) (s : State), slotReady s h = true → quiet s = true → s.sendsOpen = false → s.scheduled = true →
    ∃ t, exec (.epochHalt h) s = .next t ∧ t = { s with mbx := t.mbx, cmds := t.cmds } ∧ nowActive h 0x12 .pending s t) ∧
  (∀ (h : CmdHdr) (s : State), slotReady s h = true → s.tly.openEps = [] → s.pair.pstate = 1#3 → s.pair.swapAt = none → s.canCmd = true →
    s.pair.twinState = 2#8 → s.pair.twinCan = true → s.seesTwin = true → s.standstill = true →
    ∃ t, exec (.roleSwap h) s = .next t ∧ t = { s with mbx := t.mbx, cmds := t.cmds, pair := t.pair, dnp := t.dnp } ∧
      nowActive h 0x50 .carried s t ∧ t.pair = { s.pair with carried := [{ slot := h.slot, seq := h.seq }] }) ∧
  (∀ (i : Fin 16) (a : ActCmd) (lim n : Nat) (b : List Byte) (s : State), quiet s = true → s.opensLater = false → s.cmds.active = [a] →
    a.slot = i.val → a.phase = .working lim n → a.opcode = 0x61 → a.remote = false → a.atEpoch = false → s.sec.nextPair = none →
    s.pair.carried = [] → bodyOpcode a.body = 0x61 → Tab.get false s.flt.iodSub 3 = false → s.readSource a = .ok b →
    (∀ k, s.unwrapKey b = .ok k → k.kind < 256 →
      ∃ t, exec (.backgroundWorkEnd ⟨i, none⟩) s = .next t ∧
        t = { s with mbx := t.mbx, cmds := t.cmds, sec := t.sec, tly := t.tly, freeCnt := t.freeCnt } ∧ t.keyAt (a.arg 0 1) = some k ∧
        (∀ j, j ≠ a.arg 0 1 → t.keyAt j = s.keyAt j) ∧ (t.slotOf i).state = 3#2 ∧ (t.slotOf i).code = 0 ∧ t.cmds.active = []) ∧
    (∀ e, s.unwrapKey b = .error e →
      ∃ t, exec (.backgroundWorkEnd ⟨i, none⟩) s = .next t ∧ t = { s with mbx := t.mbx, cmds := t.cmds, freeCnt := t.freeCnt } ∧
        (t.slotOf i).state = 3#2 ∧ (t.slotOf i).code = e.code ∧ t.cmds.active = [])) ∧
  (∀ (i : Fin 16) (d : Fin 8) (a : ActCmd) (lim n : Nat) (s : State), quiet s = true → s.cmds.active = [a] → a.slot = i.val →
    a.phase = .working lim n → a.remote = false → s.sec.nextPair = none →
    ∃ t, exec (.backgroundWorkEnd ⟨i, some d⟩) s = .next t ∧ (t.slotOf i).state = 3#2 ∧ (t.slotOf i).code = 0x7F ∧ t.cmds.active = [] ∧
      logged s t 2 0x0E d 0x26 4 ∧ t.mem = s.mem ∧ (∀ j, j ≠ i.val → t.slotOf j = s.slotOf j)) ∧
  (∀ (i : Fin 16) (a : ActCmd) (lim n : Nat) (s : State), quiet s = true → s.cmds.active = [a] → a.slot = i.val →
    a.phase = .working lim n → a.remote = false → a.taken + lim < s.now → s.sec.nextPair = none →
    ∃ t, exec (.backgroundLimitExpiry i) s = .next t ∧ t = { s with mbx := t.mbx, cmds := t.cmds, freeCnt := t.freeCnt } ∧
      (t.slotOf i).state = 3#2 ∧ (t.slotOf i).code = 0x50 ∧ t.cmds.active = [] ∧ (∀ j, j ≠ i.val → t.slotOf j = s.slotOf j))

/-- The schedule opens epochs (R83, R84, R377, R512). A period tick that falls due opens the next epoch with its deadline, applying an EPOCH_HALT
that waits for it; while four epochs are open it is skipped and counted; one that is not due changes nothing. In a pair the
open event of an OPEN takes place once the link has acknowledged it. -/
def Obligations.EpochsOpen : Prop :=
  (∀ (c : Sched) (s : State), quiet s = true → s.sendsOpen = false → s.tly.sched = some c → c.mode = 1 → s.tly.halted = false →
    c.start + c.period ≤ s.now → s.mayOpen = true → s.openCount < 4 → s.contributors s.nextN = [] →
    (s.cmds.active = [] →
      ∃ t, exec .scheduleTick s = .next t ∧ t.tly.opened = s.nextN ∧ t.tly.sched = some { c with start := c.start + c.period } ∧
        t.tly.openEps.map (fun e => (e.n, e.openTick, e.deadline)) = [(s.nextN, s.now, c.deadline)] ∧ t.mem = s.mem ∧ t.mbx = s.mbx) ∧
    (∀ a : ActCmd, s.cmds.active = [a] → a.opcode = 0x12 → bodyOpcode a.body = 0x12 → a.phase = .pending → a.atEpoch = false →
      a.remote = false → s.sec.nextPair = none →
      ∃ t, exec .scheduleTick s = .next t ∧ t.tly.opened = s.nextN ∧ t.tly.sched = none ∧ t.tly.halted = true ∧ t.cmds.active = [] ∧
        (t.slotOf a.slot).state = 3#2 ∧ (t.slotOf a.slot).code = 0 ∧ (t.slotOf a.slot).epoch = s.nextN)) ∧
  (∀ (c : Sched) (s : State), quiet s = true → s.tly.sched = some c → c.mode = 1 → s.tly.halted = false →
    c.start + c.period ≤ s.now → s.mayOpen = true → 4 ≤ s.openCount →
    ∃ t, exec .scheduleTick s = .next t ∧
      t = { s with tly := { s.tly with sched := some { c with start := c.start + c.period }, skipped := min (s.tly.skipped + 1) 0xFFFF } }) ∧
  (∀ (c : Sched) (s : State), quiet s = true → s.tly.sched = some c → s.now < c.start + c.period → exec .scheduleTick s = .next s) ∧
  (∀ (m : OpenMsg) (mark : Nat) (rest : List (OpenMsg × Nat)) (s : State), s.pair.pstate = 1#3 → s.canCmd = true → s.pair.swapAt = none →
    s.tly.openEps = [] → s.sendsOpen = true → s.pair.openHeld = (m, mark) :: rest → mark ≤ Tab.get 0 s.dnp.acked 1 → m.paired = true →
    m.apply = [] → s.cmds.active = [] → s.pair.earlyTwin = [] → s.contributors m.epoch = [] →
    ∃ t, exec .epochOpenEvent s = .next t ∧ t.tly.opened = m.epoch ∧ t.pair.openHeld = rest ∧
      t.tly.openEps.map (fun e => (e.n, e.openTick, e.deadline, e.paired)) = [(m.epoch, s.now, m.deadline, true)] ∧
      t.mem = s.mem ∧ t.mbx = s.mbx ∧ t.tly.recs = s.tly.recs) ∧
  (∀ (m : OpenMsg) (mark : Nat) (rest : List (OpenMsg × Nat)) (s : State), quiet s = true → s.sendsOpen = true →
    s.pair.openHeld = (m, mark) :: rest → Tab.get 0 s.dnp.acked 1 < mark → exec .epochOpenEvent s = .next s)

/-- Epochs are decided (R86 to R90, Table 4-1). The digest of an epoch whose contributors are done is that of its agreed bytes and
outputs. A whole epoch with its digest is published: its record joins the ledger and LATEST becomes its number. An epoch that
misses inputs at its deadline is withheld: its record names the missed conditions, carries no digest, and LATEST stands. -/
def Obligations.EpochsAreDecided : Prop :=
  (∀ (n : BitVec 64) (e : OpenEp) (s : State), s.tly.openEps = [e] → e.n = n → e.paired = false → e.shadow = false → e.withhold = 0#32 →
    e.doneTick.isSome = true → e.digest = none → s.outStage? n = none → s.goldDone n = true → s.pair.pstate = 0#3 → s.pair.swapAt = none →
    s.cmds.active = [] → s.pair.carried = [] →
    ∃ t, exec (.epochDigestComputed n) s = .next t ∧ t = { s with tly := t.tly } ∧
      t.tly = { s.tly with openEps := [{ e with digest := some (s.digestOf e (s.resultsOf e)), results := s.resultsOf e }] }) ∧
  (∀ (n : BitVec 64) (e : OpenEp) (s : State), s.tly.openEps = [e] → e.n = n → e.paired = false → s.decides = true →
    s.publishable e = true → s.pair.pstate = 0#3 → s.pair.swapAt = none → s.cmds.active = [] → s.pair.carried = [] →
    ∃ t r, exec (.epochPublish n) s = .next t ∧ t.tly.openEps = [] ∧ t.tly.latest = n ∧ t.tly.opened = s.tly.opened ∧
      t.tly.recs = (s.tly.recs ++ [r]).drop (s.tly.recs.length - 63) ∧ r.epoch = n ∧ r.published = true ∧ r.withhold = 0#32 ∧
      e.digest = some r.digest ∧ r.results = e.results ∧ r.traj = e.traj ∧ r.cmds = e.cmds ∧ r.prev = s.tly.latest ∧ t.mem = s.mem) ∧
  (∀ (n : BitVec 64) (e : OpenEp) (s : State), s.tly.openEps = [e] → e.n = n → e.paired = false → e.withhold = 0#32 → s.decides = true →
    e.openTick + e.deadline ≤ s.now → s.inputsClosed n = false → s.cx.insts = [] → s.pair.pstate = 0#3 → s.pair.swapAt = none →
    s.cmds.active = [] → s.pair.carried = [] →
    ∃ t r, exec (.epochDeadlineExpiry n) s = .next t ∧ t.tly.openEps = [] ∧ t.tly.latest = s.tly.latest ∧
      t.tly.recs = (s.tly.recs ++ [r]).drop (s.tly.recs.length - 63) ∧ r.epoch = n ∧ r.published = false ∧
      r.withhold = s.missed e ∧ r.withhold.getLsbD 0 = true ∧ r.digest = 0#384 ∧ r.prev = s.tly.latest)

/-- Sheaves on engines (R112 to R114, R119, R120). A free engine at a sheaf boundary takes the head of its lowest-numbered non-empty lane and
reads its descriptor; a thief takes the sheaf its first victim offers; the end of a sheaf that a core submitted frees the engine
and writes its completion record, with DISCARDED for an abandoned instance, and with class 0x02 or 0x03 where ECC or a residue check of the
engine has failed (R163). -/
def Obligations.SheavesStartAndEnd : Prop :=
  (∀ (u : Fin 28) (sc : Nat) (sh : Sheaf) (b : List Byte) (s : State), u.val < 24 → quiet s = true → s.atBoundary u = true →
    (s.stest u).forced = false → (s.eng u).next? = some (sc, sh) → isGolden sh = false → isWarm sh = false →
    s.load (whoEngine (unitDie u) sh.index.ctx) sh.desc 64 = .ok b → Tab.get [] s.cx.ready (unitDie u) = [] → clean s = true →
    (16 ≤ u.val → fld b 0 1 ≠ 1) →
    ∃ t, exec (.sheafStart u) s = .next t ∧ t = { s with cx := t.cx, carders := t.carders } ∧
      (t.eng u).running = some { sheaf := sh, tick := s.now, beat := s.beat (unitDie u), desc := b, result := none, dropped := false } ∧
      (t.eng u).lane sc = ((s.eng u).lane sc).eraseP (fun x => x = sh) ∧ (∀ i, i ≠ u.val → t.eng i = s.eng i) ∧
      (16 ≤ u.val → (t.carder (u - 16)).desc = b ∧ (t.carder (u - 16)).pc = 0 ∧ (t.carder (u - 16)).ended = false) ∧
      (u.val < 16 → t.carders = s.carders)) ∧
  (∀ (u : Fin 24) (v sc : Nat) (sh : Sheaf) (b : List Byte) (s : State), quiet s = true → s.atBoundary u = true → (s.eng u).retest = 0 →
    (s.eng u).head? = none → (s.stest u).forced = false →
    (victims u).findSome? (fun v => (s.stealFrom u v).map (fun x => (v, x))) = some (v, sc, sh) → v ≠ u.val →
    isGolden sh = false → isWarm sh = false → s.load (whoEngine (unitDie u) sh.index.ctx) sh.desc 64 = .ok b →
    Tab.get [] s.cx.ready (unitDie v) = [] → clean s = true → (16 ≤ u.val → fld b 0 1 ≠ 1) →
    ∃ t, exec (.steal u) s = .next t ∧ t = { s with cx := t.cx, carders := t.carders } ∧
      (t.eng u).running = some { sheaf := sh, tick := s.now, beat := s.beat (unitDie u), desc := b, result := none, dropped := false } ∧
      (t.eng v).lane sc = eraseLast sh ((s.eng v).lane sc) ∧ (∀ i, i ≠ u.val → i ≠ v → t.eng i = s.eng i)) ∧
  (∀ (u : Fin 28) (n : Nat) (r : Running) (x : SheafResult) (entry ring : Nat) (g : Gate) (s : State), u.val < 24 → quiet s = true →
    (s.eng u).running = some r → r.result = some x → r.sheaf.src = .core entry ring →
    (x.code = 0 ∧ r.dropped = false ∧ s.cx.gates.find? (fun g => g.ctx = r.sheaf.index.ctx && g.entry = entry) = some g ∧ g.closing = false ∨
      r.dropped = true ∧ x.code = 0) →
    (∀ k, Tab.get [] s.cx.ready k = []) →
    ∃ t, exec (.sheafEnd ⟨u, { corrected := n, failed := none }⟩) s = .next t ∧ t = { s with cx := t.cx, carders := t.carders, tly := t.tly } ∧ (t.eng u).running = none ∧
      Tab.look (t.eng ring).ring (s.eng ring).tail.toNat = some {
        epoch := r.sheaf.index.epoch, ctx := r.sheaf.index.ctx, code := if r.dropped then 0x20 else 0, ord := r.sheaf.index.ord,
        gate := entry, engine := u, phase := (s.eng ring).phase, beats := s.beat (unitDie u) - r.beat,
        detail := if r.dropped then 0#32 else x.detail, addr := 0 } ∧
      (t.eng ring).tail = (s.eng ring).tail + 1 ∧ (t.eng ring).accepted = (s.eng ring).accepted - 1) ∧
  (∀ (u : Fin 28) (n : Nat) (residue : Bool) (r : Running) (x : SheafResult) (entry ring : Nat) (s : State), u.val < 24 → quiet s = true →
    (s.eng u).running = some r → r.result = some x → x.code = 0 → r.sheaf.src = .core entry ring → r.dropped = false →
    s.isGx3 r.sheaf.index.epoch r.sheaf.index.ctx = false → (∀ k, Tab.get [] s.cx.ready k = []) →
    ∃ t, exec (.sheafEnd ⟨u, { corrected := n, failed := some residue }⟩) s = .next t ∧ (t.eng u).running = none ∧
      Tab.look (t.eng ring).ring (s.eng ring).tail.toNat = some {
        epoch := r.sheaf.index.epoch, ctx := r.sheaf.index.ctx, code := 1, ord := r.sheaf.index.ord, gate := entry, engine := u,
        phase := (s.eng ring).phase, beats := s.beat (unitDie u) - r.beat, detail := if residue then 0x03000000#32 else 0x02000000#32,
        addr := 0 } ∧
      (t.eng ring).tail = (s.eng ring).tail + 1 ∧ t.mem = s.mem ∧
      logged s t 1 (unitKind u) (unitIdx u) (if residue then 3 else 2) 0)

/-- A Thresher sheaf may run: it is the running sheaf of engine e, not done, its descriptor passes the checks, and its context may access
every used range. -/
def thrMayRun (e : Fin 16) (op : Nat) (g : Option Geom) (r : Running) (f : TFmt) (s : State) : Prop :=
  (s.eng e).running = some r ∧ r.result = none ∧ fld r.desc 0 1 = op ∧ clean s = true ∧
    tdescCheck (tdescOf r.desc) (s.sheafBase e r.sheaf) g = none ∧ (tdescOf r.desc).fmts = .ok f ∧
    ∀ x ∈ (tdescOf r.desc).ranges f (s.sheafBase e r.sheaf) g, x.1 = true → s.judgeRange (sheafWho e r.sheaf) x.2.1 x.2.2 = none

/-- Every byte outside the range of the sheaf's output reads as before. -/
def onlyOutput (e : Fin 16) (g : Option Geom) (r : Running) (f : TFmt) (s t : State) : Prop :=
  ∀ a, (∀ x, ((tdescOf r.desc).ranges f (s.sheafBase e r.sheaf) g)[2]? = some x → a < x.2.1 ∨ x.2.1 + x.2.2 ≤ a) → t.byteAt a = s.byteAt a

/-- Thresher sheaves (R151 to R165). A sheaf whose descriptor passes the checks of Table 7-7, and whose used ranges its context may
access, completes with OK under GEMM, under IGEMM (with its geometry record read) and under GEMM with W in activation layout; no byte outside
the range of its output changes. One whose descriptor fails a check ends with the failing field as WHERE, and stores nothing. -/
def Obligations.ThresherSheavesRun : Prop :=
  (∀ (e : Fin 16) (r : Running) (f : TFmt) (s : State), thrMayRun e 1 none r f s →
    ∃ t, exec (.gemm e) s = .next t ∧ ranWith s t e r resOk ∧ onlyOutput e none r f s t) ∧
  (∀ (e : Fin 16) (r : Running) (b : List Byte) (f : TFmt) (s : State), thrMayRun e 2 (some (geomOf b)) r f s →
    s.load (sheafWho e r.sheaf) ((tdescOf r.desc).addr (s.sheafBase e r.sheaf) 6) 32 = .ok b →
    ∃ t, exec (.igemm e) s = .next t ∧ ranWith s t e r resOk ∧ onlyOutput e (some (geomOf b)) r f s t) ∧
  (∀ (e : Fin 16) (r : Running) (f : TFmt) (s : State), thrMayRun e 3 none r f s →
    ∃ t, exec (.gemmWActivation e) s = .next t ∧ ranWith s t e r resOk ∧ onlyOutput e none r f s t) ∧
  (∀ (e : Fin 16) (op w : Nat) (i : Instr), (i, op) ∈ [(Instr.gemm e, 1), (.igemm e, 2), (.gemmWActivation e, 3)] →
    ∀ (r : Running) (g : Option Geom) (s : State), (s.eng e).running = some r → r.result = none → fld r.desc 0 1 = op →
      (op ≠ 2 → g = none) →
      (op = 2 → (tdescOf r.desc).addrs.getD 6 0 % 64 = 0 ∧ ∃ b, g = some (geomOf b) ∧
        s.load (sheafWho e r.sheaf) ((tdescOf r.desc).addr (s.sheafBase e r.sheaf) 6) 32 = .ok b) →
      tdescCheck (tdescOf r.desc) (s.sheafBase e r.sheaf) g = some w →
      ∃ t, exec i s = .next t ∧ ranWith s t e r (resFail 4 w 0) ∧ t.mem = s.mem)

/-- A GEMM of INT8 activations and INT8 weights that writes partials and starts from zero: partial (m, n) is the sum over k of the exact
products, in 48 bits, sign-extended to 64 (R133, R154, R155, Table 6-4). -/
def Obligations.IntegerGemmIsExact : Prop :=
  ∀ (e : Fin 16) (r : Running) (f : TFmt) (d : TDesc) (base : Nat) (s : State), (s.eng e).running = some r → r.result = none →
    tdescOf r.desc = d → fld r.desc 0 1 = 1 → s.sheafBase e r.sheaf = base → tdescCheck d base none = none → d.fmts = .ok f →
    f.a = .int8 → f.w = .int8 → d.partOut = true → d.partIn = false → d.paramEn = false →
    (∀ x ∈ d.ranges f base none, x.1 = true → s.judgeRange (sheafWho e r.sheaf) x.2.1 x.2.2 = none) → clean s = true →
    ∃ t, exec (.gemm e) s = .next t ∧ ranWith s t e r resOk ∧
      ∀ m < d.m, ∀ n < d.n, leNat (t.bytesAt (d.addr base 2 + (m * d.n + n) * 8) 8) =
        ((BitVec.ofInt 48 ((List.range d.k).map (fun k =>
          (s.byteAt (d.addr base 0 + k / d.cb * d.aPitch + m * d.cb + k % d.cb)).toInt *
          (s.byteAt (d.addr base 1 + (n / 256 * ((d.k + 127) / 128) + k / 128) * 32768 + (k % 128 / 32 * 256 + n % 256) * 32 + k % 32)).toInt)).sum).signExtend
            64).toNat

/-- Carder sheaves (R174, R175, R187, R188). A depthwise sheaf whose descriptor and geometry pass their checks, and whose used ranges its context
may access, completes with OK and changes no byte outside its output's range. At the start of a PROGRAM sheaf its program and curves are loaded into
the stores, unless the descriptor fails a check; the program then issues its instructions in order until END or an error, which its result
reports. A descriptor that fails stores nothing. -/
def Obligations.CarderSheavesRun : Prop :=
  (∀ (e : Fin 8) (r : Running) (f : TFmt) (b : List Byte) (d : CDesc) (base : Nat) (s : State), (s.eng (16 + e)).running = some r →
    r.result = none → fld r.desc 0 1 = 2 → cdescOf r.desc = d → s.sheafBase (16 + e) r.sheaf = base → d.depthCheck = none →
    d.depthFmt = .ok f → s.load (sheafWho (16 + e) r.sheaf) (d.addr6 base d.geom) 32 = .ok b → d.depthGeomCheck f base (geomOf b) = none →
    (∀ x ∈ d.depthRanges f base (geomOf b), x.1 = true → s.judgeRange (sheafWho (16 + e) r.sheaf) x.2.1 x.2.2 = none) → clean s = true →
    ∃ t, exec (.depthwise e) s = .next t ∧ ranWith s t (16 + e) r resOk ∧
      ∀ a, (∀ x, (d.depthRanges f base (geomOf b))[2]? = some x → a < x.2.1 ∨ x.2.1 + x.2.2 ≤ a) → t.byteAt a = s.byteAt a) ∧
  (∀ (e : Fin 8) (r : Running) (d : CDesc) (w : Nat) (s : State), (s.eng (16 + e)).running = some r → r.result = none →
    fld r.desc 0 1 = 2 → cdescOf r.desc = d → d.depthCheck = some w →
    ∃ t, exec (.depthwise e) s = .next t ∧ ranWith s t (16 + e) r (resFail 4 w 0) ∧ t.mem = s.mem) ∧
  (∀ (e : Fin 8) (sc base : Nat) (sh : Sheaf) (b : List Byte) (p : List (BitVec 32)) (cs : List Curve) (s : State), quiet s = true →
    clean s = true → s.atBoundary (16 + e) = true → (s.stest (16 + e)).forced = false → (s.eng (16 + e)).next? = some (sc, sh) →
    isGolden sh = false → isWarm sh = false → Tab.get [] s.cx.ready (e / 2) = [] → s.sheafBase (16 + e) sh = base →
    s.load (whoEngine (e / 2) sh.index.ctx) sh.desc 64 = .ok b → fld b 0 1 = 1 →
    ((cdescOf b).progCheck = none → loadProg s (whoEngine (e / 2) sh.index.ctx) (cdescOf b) base = .ok (p, cs) →
      progFault (cdescOf b) p cs = none → winFault s (whoEngine (e / 2) sh.index.ctx) (cdescOf b) base p = none →
      ∃ t, exec (.sheafStart ⟨16 + e.val, by omega⟩) s = .next t ∧ t = { s with cx := t.cx, carders := t.carders } ∧
        (t.eng (16 + e)).running =
          some { sheaf := sh, tick := s.now, beat := s.beat (e / 2), desc := b, result := none, dropped := false } ∧
        t.carder e = { carderFor b base sh.index.ctx (sheafIdx (16 + e) sh) with prog := p, curves := cs }) ∧
    (∀ w, (cdescOf b).progCheck = some w →
      ∃ t, exec (.sheafStart ⟨16 + e.val, by omega⟩) s = .next t ∧ t = { s with cx := t.cx, carders := t.carders } ∧
        (t.eng (16 + e)).running =
          some { sheaf := sh, tick := s.now, beat := s.beat (e / 2), desc := b, result := some (resFail 4 w 0), dropped := false })) ∧
  (∀ (e : Fin 8) (r : Running) (c : Carder) (base n : Nat) (s u : State), (s.eng (16 + e)).running = some r → r.result = none →
    fld r.desc 0 1 = 1 → clean s = true → s.sheafBase (16 + e) r.sheaf = base → (s.carder e).issues = true →
    c = { carderFor (s.carder e).desc base (s.carder e).ctx (s.carder e).index with
      prog := (s.carder e).prog, curves := (s.carder e).curves } →
    u = cRun e base n (s.updCarder e (fun _ => c)) → (u.carder e).issues = false → n ≤ issueBound →
    ∃ t, exec (.program e) s = .next t ∧ t = { s with cx := t.cx, carders := t.carders, mem := t.mem } ∧ t.mem = u.mem ∧
      t.carder e = u.carder e ∧
      (t.eng (16 + e)).running = some { r with result := some (carderResult (u.carder e).err (u.carder e).errAddr.toNat) })

/-- Carder instructions of control and of scalar registers (Tables 9-1, 9-3 and 9-4, R193): NOP changes nothing but the next instruction,
END ends the sheaf's issue and waits for every transfer, LOOP opens a loop, SETA, SETS and SPAR set a register, FENCE waits
for every transfer, and a transfer that ends leaves the list. An instruction that cannot issue changes nothing; an invalid
LOOP is an error of class 0x05. -/
def Obligations.CarderControlInstructions : Prop :=
  ∀ (e : Fin 8) (s : State), (s.carder e).issues = true →
    (∃ t, exec (.cNop e) s = .next t ∧ carderIs s t e (s.carder e).advance) ∧
    (∃ t, exec (.cEnd e) s = .next t ∧ carderIs s t e { s.carder e with ended := true, xfers := [] }) ∧
    (∀ (count : BitVec 16) (body : BitVec 10), count ≠ 0 → body ≠ 0 → (s.carder e).loops.length < 4 →
      ∃ t, exec (.cLoop e count body) s = .next t ∧ t = { s with carders := t.carders } ∧ (∀ i, i ≠ e.val → t.carder i = s.carder i) ∧
        ((s.carder e).pc < 4095 →
          t.carder e = { s.carder e with
            pc := (s.carder e).pc + 1,
            loops := ((s.carder e).pc + 1, (s.carder e).pc + body.toNat, count.toNat) :: (s.carder e).loops })) ∧
    (∀ body : BitVec 10, (s.carder e).pc < 65536 →
      ∃ t, exec (.cLoop e 0 body) s = .next t ∧ carderIs s t e { s.carder e with err := BitVec.ofNat 32 (0x05000000 + (s.carder e).pc) }) ∧
    (∀ (ar : BitVec 3) (v : BitVec 14), ∃ t, exec (.seta e ar v) s = .next t ∧
      carderIs s t e { (s.carder e).advance with a := Tab.set 0 (s.carder e).a ar.toNat v } ∧ (t.carder e).areg ar.toNat = v.toNat) ∧
    (∀ (sd : BitVec 4) (v : BitVec 22), ∃ t, exec (.sets e sd v) s = .next t ∧
      carderIs s t e { (s.carder e).advance with s := Tab.set 0 (s.carder e).s sd.toNat (BitVec.ofNat 64 (64 * v.toNat)) }) ∧
    (∀ (sd : BitVec 4) (i : BitVec 12) (b : List Byte), clean s = true → s.load (s.carderWho e) ((s.carder e).slotAddr 3 (8 * i.toNat)) 8 = .ok b →
      ∃ t, exec (.spar e sd i) s = .next t ∧
        carderIs s t e { (s.carder e).advance with s := Tab.set 0 (s.carder e).s sd.toNat (BitVec.ofNat 64 (leNat b)) }) ∧
    (∃ t, exec (.cFence e) s = .next t ∧ carderIs s t e { (s.carder e).advance with xfers := [] }) ∧
    (∀ i : Nat, ∃ t, exec (.transferEnd e i) s = .next t ∧ carderIs s t e { s.carder e with xfers := (s.carder e).xfers.eraseIdx i })

/-- Carder instructions that move data (R189 to R193, Table 9-3). XLD fills units of the local store from memory and XST stores them, each moving S[ss]
on by the bytes; GATHER and SCATTER move the active lanes between a vector register and the words they address; LD widens a
row to lanes and ST converts lanes to a row, each moving A[ar] on with INC. Nothing else changes. -/
def Obligations.CarderDataInstructions : Prop :=
  ∀ (e : Fin 8) (c : Carder) (s : State), s.carder e = c → c.issues = true → clean s = true →
    (∀ (slot ar : BitVec 3) (ss : BitVec 4) (len : BitVec 16) (b : List Byte), c.xferOk slot.toNat ar.toNat len.toNat = true →
      s.load (s.carderWho e) (c.slotAddr slot.toNat (c.sreg ss.toNat).toNat) (64 * len.toNat) = .ok b →
      ∃ t, exec (.xld e slot ar ss len) s = .next t ∧
        carderIs s t e { c.advance with
          ls := (t.carder e).ls, s := Tab.set 0 c.s ss.toNat (c.sreg ss.toNat + BitVec.ofNat 64 (64 * len.toNat)),
          xfers := (c.await (c.areg ar.toNat) len.toNat).xfers ++ [⟨true, c.areg ar.toNat, len.toNat⟩] } ∧
        (t.carder e).lsRead (c.areg ar.toNat) len.toNat = b ∧
        (∀ u, u < c.areg ar.toNat ∨ c.areg ar.toNat + len.toNat ≤ u → Tab.get 0 (t.carder e).ls u = Tab.get 0 c.ls u)) ∧
    (∀ (slot ar : BitVec 3) (ss : BitVec 4) (len : BitVec 16), c.xferOk slot.toNat ar.toNat len.toNat = true →
      s.judgeRange (s.carderWho e) (c.slotAddr slot.toNat (c.sreg ss.toNat).toNat) (64 * len.toNat) = none →
      ∃ t, exec (.xst e slot ar ss len) s = .next t ∧ t = { s with carders := t.carders, mem := t.mem } ∧
        (∀ i, i ≠ e.val → t.carder i = s.carder i) ∧ (t.carder e).ls = c.ls ∧ (t.carder e).v = c.v ∧
        (t.carder e).sreg ss.toNat = c.sreg ss.toNat + BitVec.ofNat 64 (64 * len.toNat) ∧
        t.bytesAt (c.slotAddr slot.toNat (c.sreg ss.toNat).toNat) (64 * len.toNat) = c.lsRead (c.areg ar.toNat) len.toNat ∧
        (∀ x, x < c.slotAddr slot.toNat (c.sreg ss.toNat).toNat ∨ c.slotAddr slot.toNat (c.sreg ss.toNat).toNat + 64 * len.toNat ≤ x →
          t.byteAt x = s.byteAt x)) ∧
    (∀ (vd va : BitVec 5) (slot : BitVec 3) (ss : BitVec 4) (km : BitVec 3) (at_ : Nat → Nat), slot.toNat ≤ 5 →
      (∀ i, at_ i = c.slotAddr slot.toNat ((c.sreg ss.toNat).toNat + (lane c va.toNat i).toNat)) →
      (∀ i < 1024, maskBit c km.toNat i = true → ((c.sreg ss.toNat).toNat + (lane c va.toNat i).toNat) % 4 = 0 ∧
        s.judgeRange (s.carderWho e) (at_ i) 4 = none) →
      (∃ t, exec (.gather e vd va slot ss km) s = .next t ∧
        writesV s t e vd.toNat km.toNat (fun i => BitVec.ofNat 32 (leNat (s.bytesAt (at_ i) 4)))) ∧
      ((∀ i < 1024, ∀ j < 1024, i ≠ j → maskBit c km.toNat i = true → maskBit c km.toNat j = true →
          at_ i + 4 ≤ at_ j ∨ at_ j + 4 ≤ at_ i) →
        ∃ t, exec (.scatter e vd va slot ss km) s = .next t ∧ t = { s with carders := t.carders, mem := t.mem } ∧
          t.carder e = c.advance ∧ (∀ i, i ≠ e.val → t.carder i = s.carder i) ∧
          (∀ i < 1024, maskBit c km.toNat i = true → t.bytesAt (at_ i) 4 = leBytes 4 (lane c vd.toNat i).toNat) ∧
          (∀ x, (∀ i < 1024, maskBit c km.toNat i = true → x < at_ i ∨ at_ i + 4 ≤ x) → t.byteAt x = s.byteAt x))) ∧
    (∀ (vd : BitVec 5) (fmt : BitVec 4) (ar : BitVec 3) (inc : Bool) (km : BitVec 3) (off : BitVec 10) (f : EFmt) (u : Nat),
      efmtOfCode fmt.toNat = some f → u = c.areg ar.toNat + off.toNat → u + rowUnits f ≤ lsUnits →
      ∃ t, exec (.ld e vd fmt ar inc km off) s = .next t ∧
        carderIs s t e { c.advance with
          v := (t.carder e).v, xfers := (c.await u (rowUnits f)).xfers,
          a := if inc then Tab.set 0 c.a ar.toNat (BitVec.ofNat 14 (c.areg ar.toNat + rowUnits f)) else c.a } ∧
        (∀ r, r ≠ vd.toNat → (t.carder e).vreg r = c.vreg r) ∧
        (∀ i < 1024, lane (t.carder e) vd.toNat i = if maskBit c km.toNat i then (rowLanes f (c.lsRead u (rowUnits f))).getD i 0#32
          else lane c vd.toNat i)) ∧
    (∀ (vs : BitVec 5) (fmt : BitVec 4) (ar : BitVec 3) (rnd : BitVec 2) (sat : Bool) (q : BitVec 4) (inc : Bool) (off : BitVec 6)
      (f : EFmt) (u : Nat), efmtOfCode fmt.toNat = some f → u = c.areg ar.toNat + off.toNat → u + rowUnits f ≤ lsUnits → rnd.toNat < 2 →
      ∃ t, exec (.st e vs fmt ar rnd sat q inc off) s = .next t ∧
        carderIs s t e { c.advance with
          ls := (t.carder e).ls, xfers := (c.await u (rowUnits f)).xfers, stCnt := Tab.set 0 c.stCnt q.toNat (Tab.get 0 c.stCnt q.toNat + 1),
          a := if inc then Tab.set 0 c.a ar.toNat (BitVec.ofNat 14 (c.areg ar.toNat + rowUnits f)) else c.a } ∧
        (t.carder e).lsRead u (rowUnits f) =
          storeRow f rnd.toNat sat c.index q.toNat (1024 * Tab.get 0 c.stCnt q.toNat) (c.vreg vs.toNat) ∧
        (∀ x, x < u ∨ u + rowUnits f ≤ x → Tab.get 0 (t.carder e).ls x = Tab.get 0 c.ls x))

/-- Carder instructions on lanes (R190, R191, R195 to R200, Table 9-4): each writes its destination's active lanes and nothing else. VALU_I by
function: 0 the sum, 1 the difference, 2 the product, 6 to 8 the logic functions, 9 to 11 shifts by the VB field. A FN that
the table does not list is an error of class 0x05. -/
def Obligations.CarderLaneInstructions : Prop :=
  ∀ (e : Fin 8) (c : Carder) (vd va vb : BitVec 5) (km : BitVec 3) (fn : Byte) (s : State), s.carder e = c → c.issues = true →
    (fn.toNat % 16 ≤ 8 → ∃ t, exec (.valuF e vd va vb km fn) s = .next t ∧ writesV s t e vd.toNat km.toNat (fun i =>
      valuFOp (fn.toNat % 16) (lane c va.toNat i) ((c.operandB vb.toNat fn.toNat).getD i 0#32) (lane c vd.toNat i))) ∧
    (fn.toNat % 16 ≤ 11 → fn.toNat % 16 ≠ 3 → ∃ t, exec (.valuI e vd va vb km fn) s = .next t ∧
      writesV s t e vd.toNat km.toNat (fun i => valuIOp (fn.toNat % 16) vb.toNat (lane c va.toNat i) ((c.operandB vb.toNat fn.toNat).getD i 0#32)) ∧
      (fn = 0#8 → km = 0#3 → ∀ i < 1024, lane (t.carder e) vd.toNat i = lane c va.toNat i + lane c vb.toNat i) ∧
      (fn = 1#8 → km = 0#3 → ∀ i < 1024, lane (t.carder e) vd.toNat i = lane c va.toNat i - lane c vb.toNat i) ∧
      (fn = 9#8 → km = 0#3 → ∀ i < 1024, lane (t.carder e) vd.toNat i = lane c va.toNat i <<< vb.toNat)) ∧
    (fn.toNat % 8 ≤ 6 → ∃ t, exec (.vcmpF e vd va vb km fn) s = .next t ∧
      writesK s t e (vd.toNat % 8) km.toNat (fun i => cmpF (fn.toNat % 8) (lane c va.toNat i) (lane c vb.toNat i))) ∧
    (fn.toNat % 8 ≤ 5 → ∃ t, exec (.vcmpI e vd va vb km fn) s = .next t ∧
      writesK s t e (vd.toNat % 8) km.toNat (fun i => cmpI (fn.toNat % 8) (lane c va.toNat i) (lane c vb.toNat i))) ∧
    (∃ t, exec (.vsel e vd va vb km fn) s = .next t ∧ writesV s t e vd.toNat 0 (fun i =>
      if maskBit c km.toNat i then lane c va.toNat i else lane c vb.toNat i)) ∧
    (fn.toNat ≤ 3 → ∃ t, exec (.kop e vd va vb km fn) s = .next t ∧ writesK s t e (vd.toNat % 8) km.toNat (fun i =>
      kopOp fn.toNat (maskBit c (va.toNat % 8) i) (maskBit c (vb.toNat % 8) i))) ∧
    (fn.toNat ≤ 4 ∨ (fn.toNat / 16 = 1 ∧ fn.toNat % 16 < c.curves.length) →
      ∃ t, exec (.vfunc e vd va vb km fn) s = .next t ∧ writesV s t e vd.toNat km.toNat (fun i => funcOp c fn.toNat (lane c va.toNat i))) ∧
    (fn.toNat / 32 ≠ 3 → fn.toNat / 32 ≠ 7 → bitsAt fn.toNat 2 3 ≤ 5 →
      ∃ t, exec (.vred e vd va vb km fn) s = .next t ∧ writesV s t e vd.toNat km.toNat (fun i =>
        (vredSeg (fn.toNat / 32) (bitsAt fn.toNat 1 1 = 1)
          (((c.vreg va.toNat).drop (i / (32 * 2 ^ bitsAt fn.toNat 2 3) * (32 * 2 ^ bitsAt fn.toNat 2 3))).take (32 * 2 ^ bitsAt fn.toNat 2 3))
          (((c.mask km.toNat).drop (i / (32 * 2 ^ bitsAt fn.toNat 2 3) * (32 * 2 ^ bitsAt fn.toNat 2 3))).take (32 * 2 ^ bitsAt fn.toNat 2 3))
          (((c.vreg vd.toNat).drop (i / (32 * 2 ^ bitsAt fn.toNat 2 3) * (32 * 2 ^ bitsAt fn.toNat 2 3))).take (32 * 2 ^ bitsAt fn.toNat 2 3))).getD
            (i % (32 * 2 ^ bitsAt fn.toNat 2 3)) 0#32)) ∧
    (1 ≤ fn.toNat % 64 → fn.toNat % 64 ≤ 32 → c.areg (vb.toNat % 8) + 64 * (fn.toNat % 64) ≤ lsUnits → c.xfers = [] → bitsAt fn.toNat 6 1 = 1 →
      ∃ t, exec (.vtsum e vd va vb km fn) s = .next t ∧ writesV s t e vd.toNat km.toNat (fun i => lane c vd.toNat i +
        ((List.range (fn.toNat % 64)).map (fun r =>
          (rowLanes .int32 (c.lsRead (c.areg (vb.toNat % 8) + 64 * r) 64)).getD i 0#32)).foldl (· + ·) 0#32)) ∧
    (1 ≤ fn.toNat % 64 → fn.toNat % 64 ≤ 32 → c.areg (vb.toNat % 8) + 64 * (fn.toNat % 64) ≤ lsUnits → c.xfers = [] → bitsAt fn.toNat 6 1 = 0 →
      ∃ t, exec (.vtsum e vd va vb km fn) s = .next t ∧ writesV s t e vd.toNat km.toNat (fun i => f32Add (lane c vd.toNat i)
        (tree32 f32Add 0#32 ((List.range 32).map (fun r => if r < fn.toNat % 64 then
          (rowLanes .int32 (c.lsRead (c.areg (vb.toNat % 8) + 64 * r) 64)).getD i 0#32 else 0#32))))) ∧
    (∃ t, exec (.vperm e vd va vb km fn) s = .next t ∧ writesV s t e vd.toNat km.toNat (fun i =>
      lane c va.toNat ((lane c vb.toNat i).toNat % 1024))) ∧
    (fn.toNat / 16 ≤ 9 → 1 ≤ fn.toNat % 16 → fn.toNat % 16 ≤ 10 →
      ∃ t, exec (.vcmpx e vd va vb km fn) s = .next t ∧ writesV s t e vd.toNat km.toNat (fun i =>
        if i.testBit (fn.toNat / 16) = i.testBit (fn.toNat % 16) ∧ i.testBit (fn.toNat / 16) = false ∨
            i.testBit (fn.toNat / 16) = true ∧ (i - 2 ^ (fn.toNat / 16)).testBit (fn.toNat % 16) = true
        then f32Min (lane c va.toNat (if i.testBit (fn.toNat / 16) then i - 2 ^ (fn.toNat / 16) else i))
          (lane c va.toNat (if i.testBit (fn.toNat / 16) then i else i + 2 ^ (fn.toNat / 16)))
        else f32Max (lane c va.toNat (if i.testBit (fn.toNat / 16) then i - 2 ^ (fn.toNat / 16) else i))
          (lane c va.toNat (if i.testBit (fn.toNat / 16) then i else i + 2 ^ (fn.toNat / 16))))) ∧
    (3 < fn.toNat → c.pc < 65536 → ∃ t, exec (.kop e vd va vb km fn) s = .next t ∧
      carderIs s t e { c with err := BitVec.ofNat 32 (0x05000000 + c.pc) })

/-- The window unit (R178 to R180): a WIN whose fields and geometry record pass their checks, of formats without block scales, completes when
its context may access the maps it reads and writes; no byte outside the output map changes. A function that Table 9-4 does
not list is an error of class 0x05. -/
def Obligations.WindowUnitCompletes : Prop :=
  ∀ (e : Fin 8) (c : Carder) (d : CDesc) (vd va vb : BitVec 5) (km : BitVec 3) (fn : Byte) (base : Nat) (s : State), s.carder e = c →
    c.issues = true → clean s = true → cdescOf c.desc = d → base = (s.ctxOf c.ctx).base →
    (∀ (f : EFmt × EFmt) (b : List Byte) (g : Geom), 1 ≤ fn.toNat % 8 → fn.toNat % 8 ≤ 4 → d.winCheck = none → d.winFmt = .ok f →
      efmtIsMx f.1 = false → efmtIsMx f.2 = false → s.load (s.carderWho e) (d.addr6 base d.geom) 32 = .ok b → g = geomOf b →
      d.winGeomCheck f base (fn.toNat % 8) g = none → fn.toNat % 8 ≤ 2 ∨ d.t.n ≤ g.cin →
      s.judgeRange (s.carderWho e) (d.t.addr base 0) ((g.cin + d.t.cb - 1) / d.t.cb * d.t.aPitch) = none →
      s.judgeRange (s.carderWho e) (d.t.addr base 2) ((d.winChannels (fn.toNat % 8) g + d.t.cb - 1) / d.t.cb * d.t.oPitch) = none →
      ∃ t, exec (.win e vd va vb km fn) s = .next t ∧ t = { s with carders := t.carders, mem := t.mem } ∧ t.carder e = c.advance ∧
        (∀ i, i ≠ e.val → t.carder i = s.carder i) ∧
        (∀ a, a < d.t.addr base 2 ∨ d.t.addr base 2 + (d.winChannels (fn.toNat % 8) g + d.t.cb - 1) / d.t.cb * d.t.oPitch ≤ a → t.byteAt a = s.byteAt a)) ∧
    (fn.toNat % 8 = 0 ∨ 4 < fn.toNat % 8 → c.pc < 65536 →
      ∃ t, exec (.win e vd va vb km fn) s = .next t ∧ carderIs s t e { c with err := BitVec.ofNat 32 (0x05000000 + c.pc) })

/-- Blocker sheaves of one candidate (R276 to R281, Table 13-7). SEED of an EMPTY entry clears STATUS alone; of a library entry it writes STATUS 1,
SOURCE, the row, the start values and the row's knots turned into the plan's frame. OPTIMISE of a candidate whose cost is not
finite leaves its knots and sets STATUS 4, else it writes what COUNT iterations reach and the map epoch. CHECK sets STATUS 3
with the place of the first hit, or 2. Outside the candidate no byte changes. -/
def Obligations.BlockerCandidateSheaves : Prop :=
  ∀ (k : Die) (r : Running) (d : BDesc) (base set a : Nat) (w : Who) (pl : Plan) (s : State),
    (s.eng (24 + k.val)).running = some r → r.result = none → bdescOf r.desc = d → s.sheafBase (24 + k.val) r.sheaf = base →
    w = whoEngine k.val r.sheaf.index.ctx → set = d.addr base 0 → rdPlan s w set = .ok pl → d.cnt = 1 → d.first < pl.nCand →
    a = candAddr set d.first → s.judgeRange w a 1088 = none → clean s = true →
    (∀ e : List Byte, d.op = 1 → s.load w (d.addr base 1 + 8 * d.first) 8 = .ok e → seedOk e = true → fld e 0 1 = 3 →
      ∃ t, exec (.seed k) s = .next t ∧ ranWith s t (24 + k.val) r resOk ∧ t.byteAt a = 0#8 ∧
        ∀ x, x ≠ a → t.byteAt x = s.byteAt x) ∧
    (∀ (e : List Byte) (p : List P2), d.op = 1 → s.load w (d.addr base 1 + 8 * d.first) 8 = .ok e → seedOk e = true →
      fld e 0 1 = 2 → rdKnots s w ((pl.lib + 1024 * fld e 2 2) % 2 ^ 40) = .ok p →
      ∃ t, exec (.seed k) s = .next t ∧ ranWith s t (24 + k.val) r resOk ∧ t.bytesAt a 3 = [1, 2, 0] ∧
        t.bytesAt (a + 8) 12 = f32Bytes (f32Inf false) ++ f32Bytes pl.alpha0 ++ leBytes 4 0 ∧ leNat (t.bytesAt (a + 20) 2) = fld e 2 2 ∧
        t.bytesAt (a + 64) 1024 = knotBytes pl ((libKnots pl p).set 0 (pl.x0, pl.y0)) ∧
        ∀ x, x < a ∨ a + 1088 ≤ x → t.byteAt x = s.byteAt x) ∧
    (∀ (l : Latch) (m : MapHdr) (p : List P2) (g : F32 × List P2), d.op = 2 → (s.blkOf k.val).latch = some l → rdMap s w l = .ok m →
      discsFit m pl = .ok () → leNat (s.bytesAt a 1) ≠ 0 → leNat (s.bytesAt a 1) ≠ 4 → rdKnots s w (a + 64) = .ok p →
      planEval s w m pl p = .ok g →
      (f32Finite g.1 = false →
        ∃ t, exec (.optimise k) s = .next t ∧ ranWith s t (24 + k.val) r resOk ∧ t.byteAt a = 4#8 ∧
          t.bytesAt (a + 8) 4 = f32Bytes g.1 ∧ ∀ x, x ≠ a → x ≠ a + 2 → (x < a + 8 ∨ a + 12 ≤ x) → t.byteAt x = s.byteAt x) ∧
      (∀ o : OptSt, f32Finite g.1 = true →
        (List.range d.count).foldlM (fun x _ => optIter s w m pl x)
          { p := p, j := g.1, g := g.2, alpha := f32At (s.bytesAt a 64) 12, moved := false } = .ok o →
        ∃ t, exec (.optimise k) s = .next t ∧ ranWith s t (24 + k.val) r resOk ∧
          t.byteAt a = (if o.moved then 1#8 else s.byteAt a) ∧ t.bytesAt (a + 8) 8 = f32Bytes o.j ++ f32Bytes o.alpha ∧
          leNat (t.bytesAt (a + 16) 4) = (leNat (s.bytesAt (a + 16) 4) + d.count) % 2 ^ 32 ∧
          leNat (t.bytesAt (a + 32) 8) = l.epoch.toNat ∧ t.bytesAt (a + 64) 1024 = knotBytes pl o.p ∧
          ∀ x, x < a ∨ a + 1088 ≤ x → t.byteAt x = s.byteAt x)) ∧
    (∀ (l : Latch) (m : MapHdr) (p : List P2) (h : Option Hit), d.op = 3 → (s.blkOf k.val).latch = some l → rdMap s w l = .ok m →
      discsFit m pl = .ok () → leNat (s.bytesAt a 1) ≠ 0 → leNat (s.bytesAt a 1) ≠ 4 → rdKnots s w (a + 64) = .ok p →
      riddle s w m pl.discs pl.sub (candPoses pl p) (fun i u => f32Mul (f32Add (f32OfNat i) u) pl.dt) = .ok h →
      ∃ t, exec (.check k) s = .next t ∧ ranWith s t (24 + k.val) r resOk ∧ t.byteAt a = (if h.isSome then 3#8 else 2#8) ∧
        (∀ x, h = some x → t.bytesAt (a + 3) 4 = [BitVec.ofNat 8 x.disc] ++ leBytes 2 x.knot ++ [BitVec.ofNat 8 x.sub]) ∧
        leNat (t.bytesAt (a + 24) 8) = l.epoch.toNat ∧ t.bytesAt (a + 64) 1024 = s.bytesAt (a + 64) 1024 ∧
        ∀ x, x < a ∨ a + 1088 ≤ x → t.byteAt x = s.byteAt x)

/-- Blocker sheaves over lists (R281, R282, Tables 13-8 and 13-9). SELECT writes the rank record of its candidates and nothing else: the
ones with STATUS 2 and the greatest MAP_EPOCH are ranked, the count of blocked ones is that of STATUS 3. CHECK_LIST writes
one 32-byte result: 2 where an entry is not finite, else whether the path hits. A plan header with a bad field, and a range
of candidates beyond N_CAND, fail and store nothing. -/
def Obligations.BlockerListSheaves : Prop :=
  ∀ (k : Die) (r : Running) (d : BDesc) (base set out : Nat) (w : Who) (s : State),
    (s.eng (24 + k.val)).running = some r → r.result = none → bdescOf r.desc = d → s.sheafBase (24 + k.val) r.sheaf = base →
    w = whoEngine k.val r.sheaf.index.ctx → set = d.addr base 0 → out = d.addr base 2 → clean s = true →
    (∀ (pl : Plan) (l : List SelCand), d.op = 4 → rdPlan s w set = .ok pl → d.first = 0 → d.cnt = pl.nCand →
      (∀ n < pl.nCand, s.judgeRange w (candAddr set n) 64 = none) → s.judgeRange w out 128 = none →
      l = (List.range pl.nCand).map (fun n =>
        let h := s.bytesAt (candAddr set n) 64
        { idx := n, status := fld h 0 1, cost := if f32IsNaN (f32At h 8) then Config.nanCost (f32At h 8) n else f32At h 8, epoch := fld h 24 8 }) →
      ∃ t, exec (.select k) s = .next t ∧ ranWith s t (24 + k.val) r resOk ∧ t.bytesAt out 128 = rankRecord l ∧
        (t.byteAt (out + 2)).toNat = (l.filter (fun c => c.status = 3)).length ∧
        (∀ n < pl.nCand, (∃ i < (t.byteAt out).toNat, (t.byteAt (out + 64 + i)).toNat = n) ↔
          ∃ c ∈ l, c.idx = n ∧ c.status = 2 ∧ ∀ e ∈ l, e.status = 2 → e.epoch ≤ c.epoch) ∧
        ∀ x, x < out ∨ out + 128 ≤ x → t.byteAt x = s.byteAt x) ∧
    (∀ (pl : Plan) (l : Latch) (m : MapHdr) (b v : List Byte) (q : List Pose), d.op = 6 → rdPlan s w set = .ok pl →
      (s.blkOf k.val).latch = some l → rdMap s w l = .ok m → discsFit m pl = .ok () →
      s.load w (d.addr base 3) (24 * d.count) = .ok b → q = (List.range d.count).map (listPose b) →
      listResult s w m pl q l.epoch (s.isStale k.val l) = .ok v → s.judgeRange w out 32 = none →
      ∃ t, exec (.checkList k) s = .next t ∧ ranWith s t (24 + k.val) r resOk ∧ t.bytesAt out 32 = v ∧
        (q.all poseFinite = false → t.byteAt out = 2#8) ∧
        (∀ h, q.all poseFinite = true → riddle s w m pl.discs pl.sub q (listTime q) = .ok h → t.byteAt out = if h.isSome then 1#8 else 0#8) ∧
        leNat (t.bytesAt (out + 8) 8) = l.epoch.toNat ∧ ∀ x, x < out ∨ out + 32 ≤ x → t.byteAt x = s.byteAt x) ∧
    (∀ (op o : Nat) (i : Instr) (b : List Byte), (i, op) ∈ [(Instr.seed k, 1), (.select k, 4)] → d.op = op →
      s.load w set 256 = .ok b → planBad (planOf b) = some o →
      ∃ t, exec i s = .next t ∧ ranWith s t (24 + k.val) r (resPlan o) ∧ t.mem = s.mem) ∧
    (∀ pl : Plan, d.op = 1 → rdPlan s w set = .ok pl → pl.nCand < d.first + d.cnt →
      ∃ t, exec (.seed k) s = .next t ∧ ranWith s t (24 + k.val) r (resFail 4 3 0) ∧ t.mem = s.mem) ∧
    ((s.blkOf k.val).latch = none → ∀ (op : Nat) (i : Instr), (i, op) ∈ [(Instr.optimise k, 2), (.check k, 3), (.checkList k, 6)] →
      d.op = op → ∃ t, exec i s = .next t ∧ ranWith s t (24 + k.val) r (resFail 5 1 0) ∧ t.mem = s.mem)

/-- Map slots (R268, R269, Table 13-3). A commit with the slot's epoch, nothing latched on the back buffer, a good header and
ENABLE makes the back buffer current and counts the epoch; otherwise RESULT says why and the map stays. The COMMIT sheaf and
the register write do the same; a write without GO or of 4 bytes does nothing. ENABLE starts a slot at epoch 0 and clears
only while no map of the slot is latched. -/
def Obligations.MapSlotsCommit : Prop :=
  (∀ x : MapSlot, x.backBuf = (if x.cur then x.buf0.toNat else x.buf1.toNat)) ∧
  (∀ (w : Initiator) (k : Die) (m : Fin 4) (v : BitVec 64) (x : MapSlot) (s : State), coreOrReeve w = true → s.dieRuns k.val = true →
    (s.blkOf k.val).slot m.val = x → v.getLsbD 63 = true → clean s = true →
    ∃ t, exec (.blkMapCommitWrite w k m true v) s = .next t ∧ t = { s with blk := t.blk } ∧
      (∀ i, i ≠ k.val → t.blkOf i = s.blkOf i) ∧ (∀ j, j ≠ m.val → (t.blkOf k.val).slot j = (s.blkOf k.val).slot j) ∧
      (∀ b, x.epoch.extractLsb' 0 32 = v.extractLsb' 0 32 → s.heldBack k.val m.val = false →
        s.load (whoEngine k.val x.ctx.toNat) x.backBuf 320 = .ok b → mapHdrOk b = true → x.enable = true →
        (t.blkOf k.val).slot m.val = { x with result := 0#3, cur := !x.cur, epoch := x.epoch + 1 }) ∧
      (x.epoch.extractLsb' 0 32 ≠ v.extractLsb' 0 32 → (t.blkOf k.val).slot m.val = { x with result := 1#3 }) ∧
      (x.epoch.extractLsb' 0 32 = v.extractLsb' 0 32 → s.heldBack k.val m.val = true →
        (t.blkOf k.val).slot m.val = { x with result := 2#3 }) ∧
      (x.epoch.extractLsb' 0 32 = v.extractLsb' 0 32 → s.heldBack k.val m.val = false →
        (∀ b, s.load (whoEngine k.val x.ctx.toNat) x.backBuf 320 = .ok b → mapHdrOk b = false) →
        (t.blkOf k.val).slot m.val = { x with result := 3#3 }) ∧
      (∀ b, x.epoch.extractLsb' 0 32 = v.extractLsb' 0 32 → s.heldBack k.val m.val = false →
        s.load (whoEngine k.val x.ctx.toNat) x.backBuf 320 = .ok b → mapHdrOk b = true → x.enable = false →
        (t.blkOf k.val).slot m.val = { x with result := 4#3 })) ∧
  (∀ (w : Initiator) (k : Die) (m : Fin 4) (wide : Bool) (v : BitVec 64) (s : State), (wide = false ∨ v.getLsbD 63 = false) →
    exec (.blkMapCommitWrite w k m wide v) s = .next s) ∧
  (∀ (k : Die) (r : Running) (d : BDesc) (n : Nat) (s : State), (s.eng (24 + k.val)).running = some r → r.result = none →
    bdescOf r.desc = d → d.op = 5 → clean s = true → s.commitCheck k.val d.slot r.sheaf.index.ctx (BitVec.ofNat 32 d.expect) = n →
    ∃ t, exec (.commit k) s = .next t ∧ t = { s with cx := t.cx, blk := t.blk } ∧
      (t.eng (24 + k.val)).running = some { r with result := some (
        if n = 0 then resOk
        else match n, s.load (whoEngine k.val r.sheaf.index.ctx) ((s.blkOf k.val).slot d.slot).backBuf 320 with
          | 3, .error e => resAccess (e.1, e.2, 4)
          | _, _ => resFail 5 (0x10 + n) 0) } ∧
      (n ≠ 0 → (t.blkOf k.val).slot d.slot = { (s.blkOf k.val).slot d.slot with result := BitVec.ofNat 3 n }) ∧
      (n = 0 → (t.blkOf k.val).slot d.slot = { (s.blkOf k.val).slot d.slot with
        result := 0#3, cur := !((s.blkOf k.val).slot d.slot).cur, epoch := ((s.blkOf k.val).slot d.slot).epoch + 1 }) ∧
      (∀ j, j ≠ d.slot → (t.blkOf k.val).slot j = (s.blkOf k.val).slot j)) ∧
  (∀ (w : Initiator) (k : Die) (m : Fin 4) (v : BitVec 32) (x : MapSlot) (s : State), coreOrReeve w = true → s.dieRuns k.val = true →
    (s.blkOf k.val).slot m.val = x →
    ∃ t, exec (.blkMapEnable w k m v) s = .next t ∧ t = { s with blk := t.blk } ∧
      (∀ j, j ≠ m.val → (t.blkOf k.val).slot j = (s.blkOf k.val).slot j) ∧
      (t.blkOf k.val).slot m.val =
        if x.enable then (if v.getLsbD 7 || s.heldCur k.val m.val || s.heldBack k.val m.val then x else { x with enable := false })
        else if v.getLsbD 7 then { x with ctx := v.extractLsb' 0 6, enable := true, cur := true, epoch := 0#64 }
        else { x with ctx := v.extractLsb' 0 6 })

/-- Core gates (R117 to R119, Table 5-7). GATE_ENTRY_OPEN writes the first free entry of the ring for the waiting CORE node; an accepted
doorbell puts a sheaf at the tail of the context's lane and counts it; a refused one changes EQ_REFUSE alone; EQ_GATE_DONE
with work outstanding closes the gate to further doorbells. -/
def Obligations.CoreGates : Prop :=
  (∀ (c : Fin 64) (i j : Nat) (n : BitVec 64) (gr : Graph) (nd : Node) (s : State), quiet s = true → s.cx.coreWait = [(n, c.val, i)] →
    clean s = true → s.graphAt n c.val = some gr → gr.nodes[i]? = some nd → s.dieRuns (nd.home - 32) = true →
    s.freeGate n c.val (nd.home - 32) gr.ringLen = .ok (some j) → s.judgeRange (whoDeputy (nd.home - 32)) (s.gateAddr n c.val j) 32 = none →
    ∃ t, exec (.gateEntryOpen c i) s = .next t ∧ t = { s with cx := t.cx, mem := t.mem } ∧
      t.cx = { s.cx with coreWait := [], gates := s.cx.gates ++ [{ ctx := c.val, entry := j, epoch := n, node := i, die := nd.home - 32,
                                                                    closing := false, ords := [], out := 0 }] } ∧
      leNat (t.bytesAt (s.gateAddr n c.val j) 8) = n.toNat ∧ leNat (t.bytesAt (s.gateAddr n c.val j + 8) 4) = i % 2 ^ 32 ∧
      t.byteAt (s.gateAddr n c.val j + 16) = 1#8 ∧
      ∀ x, x < s.gateAddr n c.val j ∨ s.gateAddr n c.val j + 32 ≤ x → t.byteAt x = s.byteAt x) ∧
  (∀ (w : Initiator) (u : Fin 24) (v : BitVec 64) (c gate ord a r : Nat) (s : State), isCore w = true → s.dieRuns (unitDie u.val) = true →
    c = bitsAt v.toNat 0 6 → a = bitsAt v.toNat 6 34 * 64 → ord = bitsAt v.toNat 40 10 → gate = bitsAt v.toNat 50 14 →
    s.doorbellCheck u.val c gate ord a = r →
    (∀ g, r = 0 → s.cx.gates.find? (fun g => g.ctx = c && g.entry = gate) = some g → g.closing = false →
      ∃ t, exec (.eqDoorbell w u true v) s = .next t ∧ t = { s with cx := t.cx } ∧
        (t.eng u.val).lane (s.ctxOf c).sc = (s.eng u.val).lane (s.ctxOf c).sc ++
          [{ index := { epoch := g.epoch, ctx := c, node := g.node, ord := ord }, src := .core gate u.val, kind := unitKind u.val,
             place := 0, home := u.val, desc := a, ref := 0, bound := 30400, expired := 0 }] ∧
        (t.eng u.val).accepted = (s.eng u.val).accepted + 1 ∧ (∀ i, i ≠ u.val → t.eng i = s.eng i) ∧
        t.cx.gates.find? (fun g => g.ctx = c && g.entry = gate) = some { g with ords := g.ords ++ [ord], out := g.out + 1 }) ∧
    (r ≠ 0 →
      ∃ t, exec (.eqDoorbell w u true v) s = .next t ∧ t = { s with cx := t.cx } ∧ (∀ i, i ≠ u.val → t.eng i = s.eng i) ∧
        t.cx.gates = s.cx.gates ∧ t.eng u.val = { s.eng u.val with
          refCode := BitVec.ofNat 8 r, refCtx := BitVec.ofNat 6 c, refOrd := BitVec.ofNat 10 ord, refCnt := (s.eng u.val).refCnt + 1 }) ∧
    (r ≠ 0x10 ↔ ∃ g ∈ s.cx.gates, g.ctx = c ∧ g.entry = gate ∧ g.closing = false)) ∧
  (∀ (w : Initiator) (u : Fin 24) (v : BitVec 64) (s : State), exec (.eqDoorbell w u false v) s = .next s) ∧
  (∀ (w : Initiator) (k : Die) (v : BitVec 32) (g : Gate) (s : State), quiet s = true → isCore w = true → s.dieRuns k.val = true →
    s.cx.gates = [g] → g.ctx = bitsAt v.toNat 0 6 → g.entry = bitsAt v.toNat 8 14 → g.die = k.val → g.closing = false → g.out ≠ 0 →
    bitsAt v.toNat 24 8 = 0 → clean s = true → s.judgeRange (whoDeputy k.val) (s.gateAddr g.epoch g.ctx g.entry + 16) 1 = none →
    ∃ t, exec (.eqGateDone w k v) s = .next t ∧ t = { s with cx := t.cx, mem := t.mem } ∧
      t.cx = { s.cx with gates := [{ g with closing := true }] } ∧ t.byteAt (s.gateAddr g.epoch g.ctx g.entry + 16) = 2#8 ∧
      ∀ x, x ≠ s.gateAddr g.epoch g.ctx g.entry + 16 → t.byteAt x = s.byteAt x)

/-- Steps of the output stage (R290, R291, R293). A completed step is appended to the stage's steps: the first tries the continuation, with
FAIL 8 without a usable request and FAIL 9 without a base or points to continue; the next the candidate of the first rank
that is left, with the reason of a failed time scaling. A cut that is due marks the stage with the tick and ends it. -/
def Obligations.OutputStageSteps : Prop :=
  (∀ (k : Die) (g : Stage) (c : TrajCfg) (pl : Plan) (rk : List Byte) (rq : OutReq) (n : Option (Nat × Nat)) (s : State),
    s.bpStage k.val = some g → s.outStage? g.epoch = some g → s.out.cfg = some c → stageInputs s g = .ok (pl, rk, rq) →
    nextStep c (fld rk 0 1) g.steps = some n →
    (∀ r : StepRes, stageStep s c g = .ok (some r) → s.stageMore c { g with steps := g.steps ++ [r] } = true →
      ∃ u : State, exec (.outputStepComplete k) s = .next u.settle ∧ u = { s with out := u.out } ∧
        u.outStage? g.epoch = some { g with steps := g.steps ++ [r] } ∧
        (∀ e, e ≠ g.epoch → u.outStage? e = s.outStage? e)) ∧
    (n = none → rq.ok = false →
      stageStep s c g = .ok (some { cand := none, fail := 8, newer := false, horizon := false, points := [], baseEp := 0 })) ∧
    (n = none → rq.ok = true → s.lastWasMrp = true ∨ contPoints c s.trajBase rq = none →
      stageStep s c g = .ok (some { cand := none, fail := 9, newer := false, horizon := false, points := [], baseEp := 0 })) ∧
    (∀ (rank lv f : Nat) (p : List P2) (a : Nat) (h : List Byte), n = some (rank, lv) → rq.ok = true →
      a = candAddr g.setAddr (fld rk (64 + rank) 1) → s.load (whoEngine g.bp g.ctx) a 64 = .ok h →
      rdKnots s (whoEngine g.bp g.ctx) (a + 64) = .ok p → timeScale c pl rq.v0 (smoothLevel c lv p) = .error f →
      ∃ r, stageStep s c g = .ok (some r) ∧ r.cand = some (rank, fld rk (64 + rank) 1, lv) ∧ r.fail = f ∧ r.points = [])) ∧
  (∀ (k : Die) (n : BitVec 64) (c : Nat) (nd : Node) (g : Stage) (e : OpenEp) (s : State), s.cutsDue k.val = [(n, c, nd)] →
    s.outStage? n = some g → g.cut = false → g.ended = false → s.openEp? n = some e → s.needsTwin e = true → e.twin.progressTwin = none →
    ∃ u : State, exec (.outputCut k) s = .next u.settle ∧ u = { s with out := u.out, dnp := u.dnp } ∧
      u.dnp = (s.send (.progress n (BitVec.ofNat 8 g.steps.length))).dnp ∧
      u.outStage? n = some { g with
        cut := true, cutTick := s.now, ended := true,
        stale := match g.latch with | some l => s.isStale g.bp l | none => false }) ∧
  (∀ (k : Die) (s : State), s.cutsDue k.val = [] → exec (.outputCut k) s = .next s.settle)

/-- The output of an epoch (R293, R296 to R299, Table 14-5), here when 300 ticks after the cut the twin's P has not come. The last valid
candidate of the steps is published: SEL_CASE 1, 2 if it was checked against a newer map, 3 if it is not of the first
rank; without one the continuation, SEL_CASE 4; without either, or on fallback duty, the minimum-risk profile, SEL_CASE 5;
on FALLBACK_REQUEST the profile as SEL_CASE 6. The stage ends. -/
def Obligations.OutputIsSelected : Prop :=
  ∀ (k : Die) (g : Stage) (c : TrajCfg) (e : OpenEp) (x : Inst) (pl : Plan) (rk : List Byte) (rq : OutReq) (s : State),
    s.out.stages = [g] → g.bp = k.val → g.ended = true → g.cut = true → g.cutTick + 300 ≤ s.now → s.out.cfg = some c →
    s.openEp? g.epoch = some e → stageInputs s g = .ok (pl, rk, rq) → s.inst? g.epoch g.ctx = some x → 1 < x.left →
    (∀ (b : StepRes) (rank idx lv : Nat), e.fallback = false → e.duty = false →
      (g.steps.filter (fun r => r.cand.isSome && r.fail = 0)).getLast? = some b → b.cand = some (rank, idx, lv) →
      ∃ (u : State) (f : OpenEp), exec (.progressTimeout k) s = .next u.settle ∧ u = { s with out := u.out, tly := u.tly, cx := u.cx } ∧ u.out.stages = [] ∧
        f.selCase = (if rank ≠ 0 then 3 else if b.newer then 2 else 1) ∧
        f.traj = trajBytes c.staleMs {
          epoch := g.epoch.toNat, sel := f.selCase, issuer := 0, level := lv, stale := g.stale, horizon := b.horizon,
          trunc := (nextStep c (fld rk 0 1) g.steps).isSome, rel := false, cand := idx, steps := g.steps.length,
          fail := if rank = 0 then 0 else failOfTop g.steps (fld rk 0 1),
          mapEp := match g.latch with | some l => l.epoch.toNat | none => 0, baseEp := 0, ts := rq.ts, v0 := rq.v0, a0 := rq.a0 } b.points ∧
        u.openEp? g.epoch = some { e with selCase := f.selCase, traj := f.traj, trajMapEpoch := f.trajMapEpoch } ∧
        (∀ l, g.latch = some l → f.trajMapEpoch = l.epoch)) ∧
    (∀ r : StepRes, e.fallback = false → e.duty = false →
      (g.steps.filter (fun r => r.cand.isSome && r.fail = 0)).getLast? = none → g.steps.head? = some r → r.cand = none → r.fail = 0 →
      ∃ (u : State) (f : List Byte), exec (.progressTimeout k) s = .next u.settle ∧ u = { s with out := u.out, tly := u.tly, cx := u.cx } ∧ u.out.stages = [] ∧
        u.openEp? g.epoch = some { e with selCase := 4, traj := f, trajMapEpoch := match g.latch with | some l => l.epoch | none => 0#64 } ∧
        (f.drop 64) = r.points.flatMap pointBytes ∧ f.getD 8 0#8 = 4#8 ∧ f.getD 9 0#8 = 0#8) ∧
    (s.trajBase = none →
      (e.fallback = true ∨ e.duty = true ∨
        ((g.steps.filter (fun r => r.cand.isSome && r.fail = 0)).getLast? = none ∧ (∀ r, g.steps.head? = some r → r.fail ≠ 0))) →
      ∃ (u : State) (f : List Byte), exec (.progressTimeout k) s = .next u.settle ∧ u = { s with out := u.out, tly := u.tly, cx := u.cx } ∧ u.out.stages = [] ∧
        u.openEp? g.epoch = some { e with selCase := if e.fallback then 6 else 5, traj := f, trajMapEpoch := 0#64 } ∧
        (f.drop 64) = (mrpPoints c (rayOf pl) (0#32, rq.v0, rq.a0)).flatMap pointBytes ∧
        f.getD 8 0#8 = (if e.fallback then 6#8 else 5#8))

/-- The minimum-risk profile that Hayward A issues alone (R301): once no record has been published for STALE_MS and no heartbeat edge
of a twin is recent, an ISSUER 1 record with SEL_CASE 5 and EPOCH 0 is issued, and again every period; before that nothing is. -/
def Obligations.LoneProfilesRepeat : Prop :=
  ∀ (c : TrajCfg) (s : State), s.out.cfg = some c →
    (s.mrpDue = true ↔ s.islandOn false = true ∧ s.out.lastPub + c.staleMs * 100000 ≤ s.now ∧ s.twinAlive = false) ∧
    (∀ i : Instr, i = .mrpStaleExpiry ∧ s.out.alone = false ∨ i = .mrpPeriodExpiry ∧ s.out.alone = true ∧ s.out.nextMrp ≤ s.now →
      s.mrpDue = true → s.tly.recSched.mask.getLsbD 2 = false →
      ∃ t b, exec i s = .next t ∧ t = { s with out := t.out, freeCnt := t.freeCnt } ∧
        t.out = { s.out with alone := true, nextMrp := s.now + c.mrpPeriod, issued := s.out.issued ++ [b] } ∧
        leNat (b.take 8) = 0 ∧ b.getD 8 0#8 = 5#8 ∧ b.getD 9 0#8 = 1#8 ∧
        (∀ r, s.trajBase = some r → b.drop 64 = (mrpPoints c (trajPoints r.traj) (lateStart r)).flatMap pointBytes)) ∧
    (s.mrpDue = false ∨ s.out.alone = true → exec .mrpStaleExpiry s = .next s) ∧
    (s.mrpDue = false ∨ s.out.alone = false ∨ s.now < s.out.nextMrp → exec .mrpPeriodExpiry s = .next s)

/-- Units offered to a stream of this module's side (R303, R306, R308). A unit that no channel matches is counted UNMATCHED. A unit
whose state entry holds, consumes and goes to NEXT_T performs the entry's action: BEGIN starts a sample of the next epoch, COPY
appends the selected bytes, END files the sample of a FRAME channel, ABORT discards it; an entry that fails goes to NEXT_F. A frame that the
switch has not given to ingest changes nothing. Closing a FRAME channel for an open epoch (R308, R309, R311, Table 15-6). A sample that has ended lands in the slot of the epoch with
its record, PRESENT = 1, and closes the channel; CLOSE_TICKS after the open event a channel without a sample closes with
cause 3 and PRESENT = 0, or with MISS_ZERO waits for its zero fill, which then lands. No other byte of memory changes. -/
def Obligations.IngestUnitsRunAndChannelsClose : Prop :=
  (∀ (b : Fin 64) (un : IngUnit) (s : State), quiet s = true → s.ingestOn = true → s.isLocal b.val = true →
    un ≠ .badHeader → (s.takeUnit b.val un).isSome = true →
    ((dtOk un = false ∨ s.tableOn b.val = none ∨ ∃ t, s.tableOn b.val = some t ∧ t.matchUnit un = none) →
      ∃ u, exec (.ingestUnit b un) s = .next u ∧ u = { s with ing := u.ing, sw := { s.sw with ingest := u.sw.ingest } } ∧ (∀ i, i ≠ b.val → u.stream i = s.stream i) ∧
        u.stream b.val = { s.stream b.val with unmatched := satInc (s.stream b.val).unmatched }) ∧
    (∀ (t : IngTable) (ch : Nat) (c : IngChanCfg) (v : IngView) (e : IngState) (x : IngChan), dtOk un = true →
      s.tableOn b.val = some t → t.matchUnit un = some (ch, c, v) → t.fwd = false → s.chan b.val ch = x → x.fault = false →
      t.states[x.cur]? = some e → s.isTrigger b.val ch = false →
      (e.cond' v = true → e.consT = true →
        (∀ n, e.action = 1 → x.live = none → n = s.tly.opened + 1 → s.tly.opened ≠ BitVec.allOnes 64 → x.ep? n = none →
          x.closedTo.toNat < n.toNat → (c.batch = true → 0 < c.maxMsgs) →
          ∃ u, exec (.ingestUnit b un) s = .next u ∧ u = { s with ing := u.ing, sw := { s.sw with ingest := u.sw.ingest } } ∧
            (∀ i, i ≠ b.val → u.stream i = s.stream i) ∧
            u.chan b.val ch = { x with
              cur := e.nextT, begun := x.begun + 1, live := some (newSample n (x.begun + 1) s.now v.crcBad),
              topTag := if x.topTag.toNat < n.toNat then n else x.topTag }) ∧
        (∀ m, e.action = 2 → x.live = some m →
          ∃ u, exec (.ingestUnit b un) s = .next u ∧ u = { s with ing := u.ing, sw := { s.sw with ingest := u.sw.ingest } } ∧ (∀ i, i ≠ b.val → u.stream i = s.stream i) ∧
            u.chan b.val ch = { x with
              cur := e.nextT, live := some (({ m with crc := m.crc || v.crcBad } : IngSample).copy c (e.copied v.bytes)) }) ∧
        (∀ m, e.action = 5 → x.live = some m → m.epoch ≠ noTag → c.batch = false →
          ∃ u, exec (.ingestUnit b un) s = .next u ∧ u = { s with ing := u.ing, sw := { s.sw with ingest := u.sw.ingest } } ∧ (∀ i, i ≠ b.val → u.stream i = s.stream i) ∧
            (u.chan b.val ch).live = none ∧ (u.chan b.val ch).cur = e.nextT ∧
            ((u.chan b.val ch).ep? m.epoch).map (·.sample) = some (some { m with crc := m.crc || v.crcBad, ended := true })) ∧
        (∀ m, e.action = 6 → x.live = some m → m.epoch ≠ noTag →
          ∃ u, exec (.ingestUnit b un) s = .next u ∧ u = { s with ing := u.ing, sw := { s.sw with ingest := u.sw.ingest } } ∧ (∀ i, i ≠ b.val → u.stream i = s.stream i) ∧
            u.chan b.val ch = { x with cur := e.nextT, live := none })) ∧
      (e.cond' v = false → e.consF = true → x.live = none →
        ∃ u, exec (.ingestUnit b un) s = .next u ∧ u = { s with ing := u.ing, sw := { s.sw with ingest := u.sw.ingest } } ∧ (∀ i, i ≠ b.val → u.stream i = s.stream i) ∧
          u.chan b.val ch = { x with cur := e.nextF }))) ∧
  (∀ (b : Fin 64) (un : IngUnit) (s : State), (s.takeUnit b.val un).isNone = true → exec (.ingestUnit b un) s = .next s) ∧
  (∀ (b : Fin 64) (ch : Fin 8) (n : BitVec 64) (t : IngTable) (c : IngChanCfg) (e : OpenEp) (k buf rec : Nat) (s : State),
    s.nextClose b.val ch.val = n → n ≠ BitVec.allOnes 64 → (s.stream b.val).tableFor n = some t → t.enable = true →
    t.chans[ch.val]? = some c → c.batch = false → s.tly.openEps = [e] → e.n = n → (s.chan b.val ch.val).fault = false →
    s.closesSelf b.val = true → k = n.toNat % max 1 c.nbuf → buf = c.bufAddr + k * c.slotBytes → rec = c.recAddr + 64 * k →
    s.judgeRange (whoIngest c.ctx) rec 64 = none →
    (∀ (p : IngEp) (m : IngSample), (s.chan b.val ch.val).ep? n = some p → p.closed = false → p.cause = none → p.sample = some m →
      s.judgeRange (whoIngest c.ctx) buf m.bytes.length = none → (buf + m.bytes.length ≤ rec ∨ rec + 64 ≤ buf) →
      ∃ u : State, exec (.ingestSampleLanded b ch) s = .next u.settle ∧
        ((u.chan b.val ch.val).ep? n).map (fun q => (q.closed, q.present, q.cause)) = some (true, true, some 1) ∧
        (u.chan b.val ch.val).closedTo = n ∧ u.bytesAt buf m.bytes.length = m.bytes ∧ leNat (u.bytesAt rec 8) = n.toNat ∧
        (u.byteAt (rec + 12)).toNat = b.val ∧ (u.byteAt (rec + 13)).toNat = ch.val ∧ (u.byteAt (rec + 14)).getLsbD 0 = true ∧
        leNat (u.bytesAt (rec + 28) 4) = m.bytes.length % 2 ^ 32 ∧
        ∀ a, (a < buf ∨ buf + m.bytes.length ≤ a) → (a < rec ∨ rec + 64 ≤ a) → u.byteAt a = s.byteAt a) ∧
    ((s.chan b.val ch.val).ep? n = none → (s.chan b.val ch.val).live = none → e.openTick + t.closeTicks ≤ s.now →
      (c.missZero = false →
        ∃ u : State, exec (.ingestCloseTimeout b ch) s = .next u.settle ∧
          ((u.chan b.val ch.val).ep? n).map (fun q => (q.closed, q.present, q.cause)) = some (true, false, some 3) ∧
          (u.chan b.val ch.val).closedTo = n ∧ leNat (u.bytesAt rec 8) = n.toNat ∧ (u.byteAt (rec + 14)).getLsbD 0 = false ∧
          ∀ a, (a < rec ∨ rec + 64 ≤ a) → u.byteAt a = s.byteAt a) ∧
      (c.missZero = true →
        ∃ u : State, exec (.ingestCloseTimeout b ch) s = .next u.settle ∧ u = { s with ing := u.ing } ∧
          ((u.chan b.val ch.val).ep? n).map (fun q => (q.closed, q.present, q.cause)) = some (false, false, some 3))) ∧
    (∀ p : IngEp, (s.chan b.val ch.val).ep? n = some p → p.closed = false → p.cause.isSome = true → p.sample = none → p.msgs = [] →
      p.present = false → c.missZero = true → s.judgeRange (whoIngest c.ctx) buf c.slotBytes = none →
      (buf + c.slotBytes ≤ rec ∨ rec + 64 ≤ buf) →
      ∃ u : State, exec (.ingestZeroFillDone b ch) s = .next u.settle ∧
        ((u.chan b.val ch.val).ep? n).map (fun q => (q.closed, q.present, q.zeroed)) = some (true, false, true) ∧
        u.bytesAt buf c.slotBytes = List.replicate c.slotBytes 0 ∧ (u.byteAt (rec + 14)).getLsbD 0 = false ∧
        (u.byteAt (rec + 14)).getLsbD 6 = true ∧
        ∀ a, (a < buf ∨ buf + c.slotBytes ≤ a) → (a < rec ∨ rec + 64 ≤ a) → u.byteAt a = s.byteAt a))

/-- Coolant inputs (R315, R485, R486). Every 10,000 ticks both inputs are sampled: a sample in range is taken over, another keeps the value and sets its BAD bit. FLOW_PULSE is filtered: a level
that has held for 2,000 ticks becomes the filtered level, and its rise is one pulse. Every 1,000,000 ticks FLOW follows from the
pulses of the last ten intervals, valid from the tenth on; LOW_FLOW counts updates below half of FLOW_MIN, and the 21st in a row
begins the coolant-loss state with PCAP 0. -/
def Obligations.CoolantInputs : Prop :=
  (∀ (tin tout : Option Nat) (s : State), s.busOn = true → s.isDue 6 = false → exec (.coolantSample tin tout) s = .next s) ∧
  (∀ (tin tout : Option Nat) (s : State), s.busOn = true → s.isDue 6 = true →
    ∃ t, exec (.coolantSample tin tout) s = .next t ∧ t = { s with cool := t.cool, thm := (s.ran 6 10000).thm } ∧
      t.cool = { s.cool with tin := t.cool.tin, tinBad := t.cool.tinBad, tout := t.cool.tout, toutBad := t.cool.toutBad } ∧
      (∀ v, s.thermistor tin = some v → t.cool.tin.toInt = v ∧ t.cool.tinBad = false) ∧
      (s.thermistor tin = none → t.cool.tin = s.cool.tin ∧ t.cool.tinBad = true) ∧
      (∀ v, s.thermistor tout = some v → t.cool.tout.toInt = v ∧ t.cool.toutBad = false) ∧
      (s.thermistor tout = none → t.cool.tout = s.cool.tout ∧ t.cool.toutBad = true) ∧ s.thermistor none = none) ∧
  (∀ (level held : Bool) (s : State), s.busOn = true →
    held = (decide (s.cool.rawLevel ≠ s.cool.level) && decide (s.cool.rawTick + 2000 ≤ s.now)) →
    ∃ t, exec (.flowPulse level) s = .next t ∧ t = { s with cool := t.cool } ∧
      t.cool = { s.cool with
        level := if held then s.cool.rawLevel else s.cool.level
        pulses := if held && s.cool.rawLevel then s.cool.pulses + 1 else s.cool.pulses
        rawLevel := level
        rawTick := if s.cool.rawLevel = level then s.cool.rawTick else s.now }) ∧
  (∀ (h : List Nat) (s : State), quiet s = true → s.busOn = true → (s.cool.updates + 1) * 1000000 ≤ s.now →
    s.cool.rawLevel = s.cool.level → s.cool.kPulses ≠ 0#16 → h = (s.cool.pulses :: s.cool.history).take 10 →
    ∃ t, exec .flowUpdate s = .next t ∧ t.cool.history = h ∧ t.cool.pulses = 0 ∧ t.cool.updates = s.cool.updates + 1 ∧
      t.cool.flow.toNat = min 0xFFFFF (600000 * h.foldl (· + ·) 0 / s.cool.kPulses.toNat) ∧
      (t.cool.flowValid = true ↔ 9 ≤ s.cool.updates) ∧
      (s.cool.updates < 9 → t = { s with cool := t.cool }) ∧
      (9 ≤ s.cool.updates → s.thm.coolLoss = false → s.pair.pstate ≠ 2#3 →
        t.thm.lowFlow.toNat = (if 2 * t.cool.flow.toNat < s.thm.flowMin then min 255 (s.thm.lowFlow.toNat + 1) else 0) ∧
        (t.thm.lowFlow.toNat < 21 → t = { s with cool := t.cool, thm := t.thm } ∧ t.thm.coolLoss = false ∧ t.thm.pcap = s.thm.pcap) ∧
        (21 ≤ t.thm.lowFlow.toNat → t.thm.coolLoss = true ∧ t.thm.pcap = 0#4 ∧ t.mem = s.mem)) ∧
      (9 ≤ s.cool.updates → s.thm.coolLoss = true → t = { s with cool := t.cool, thm := t.thm } ∧
        (t.thm.coolLoss = false ↔ s.thm.flowMin ≤ t.cool.flow.toNat ∧ 99 ≤ s.thm.goodFlow)))

/-- Sensor pairs (R477 to R479, R487). Two good readings give the higher one, and one more disagreement where they differ by more than 8
degrees, the 16th of which in a row makes the pair faulty for good: it then gives 10 degrees more; with one reading out of range the
pair takes the other plus 10 degrees and marks the bad one; with none it is not valid. A unit is sampled when its 10,000 ticks have passed,
and not before (Table 2-4). A die's hottest reading is its highest pair value. A die that delivers no value for 16 samples is fenced, and a
reading at the hard limit starts the shutdown, of the safety die's sensors the safe state. -/
def Obligations.ThermalSamples : Prop :=
  (∀ (p : SPair) (a b : Int), -720 ≤ a → a ≤ 2400 →
    (-720 ≤ b → b ≤ 2400 →
      (p.sample a b).valid = true ∧ (p.sample a b).badA = false ∧ (p.sample a b).badB = false ∧
      (p.sample a b).disagree.toNat = (if (a - b).natAbs ≤ 128 then 0 else min 16 (p.disagree.toNat + 1)) ∧
      (p.sample a b).faulty = (p.faulty || decide ((p.sample a b).disagree.toNat = 16)) ∧
      (p.sample a b).value.toInt = max a b + (if (p.sample a b).faulty then 160 else 0)) ∧
    (b < -720 ∨ 2400 < b → p.sample a b = { p with value := BitVec.ofInt 16 (a + 160), valid := true, badA := false, badB := true }) ∧
    (b < -720 ∨ 2400 < b → p.sample b a = { p with value := BitVec.ofInt 16 (a + 160), valid := true, badA := true, badB := false }) ∧
    (b < -720 ∨ 2400 < b → p.sample b b = { p with valid := false, badA := true, badB := true })) ∧
  (∀ (k : Die) (s : State), (s.hottest k.val = none ↔ ∀ i < 12, (Tab.get SPair.init (s.opc k.val).pairs i).valid = false) ∧
    ∀ r, s.hottest k.val = some r →
      (∃ i < 12, (Tab.get SPair.init (s.opc k.val).pairs i).valid = true ∧ (Tab.get SPair.init (s.opc k.val).pairs i).value.toInt = r) ∧
      ∀ i < 12, (Tab.get SPair.init (s.opc k.val).pairs i).valid = true → (Tab.get SPair.init (s.opc k.val).pairs i).value.toInt ≤ r) ∧
  (∀ (k : Die) (u : Fin 6) (l : List (Int × Int)) (v : List Int) (s : State), u.val = k.val → quiet s = true → s.reeveOn = true →
    s.dieRuns k.val = true → s.isDue k.val = true → v = pairValues 12 (samplePairs (s.opc k.val).pairs (l.take 12)) →
    ((∀ x ∈ v, x < 2000) → (v ≠ [] ∨ (s.opc k.val).missing + 1 < 16) →
      ∃ t, exec (.thermalSample u l) s = .next t ∧ t = { s with thm := t.thm } ∧ (∀ i, i ≠ k.val → t.opc i = s.opc i) ∧
        t.thm.due = (s.ran k.val 10000).thm.due ∧ t.opc k.val = { s.opc k.val with pairs := (t.opc k.val).pairs, missing := if v = [] then (s.opc k.val).missing + 1 else 0 } ∧
        (∀ i < 12, Tab.get SPair.init (t.opc k.val).pairs i =
          if i < l.length then (Tab.get SPair.init (s.opc k.val).pairs i).sample (l.getD i (0, 0)).1 (l.getD i (0, 0)).2
          else Tab.get SPair.init (s.opc k.val).pairs i)) ∧
    (v = [] → 15 ≤ (s.opc k.val).missing →
      ∃ t, exec (.thermalSample u l) s = .next t ∧ logged s t 2 0x11 k.val 0x29 4 ∧ t.dieState k.val = .fenced ∧
        t.flt.fence.getLsbD k.val = true ∧ t.mem = s.mem) ∧
    (∀ x ∈ v, 2000 ≤ x → s.thm.shutdown = false →
      ∃ t : State, exec (.thermalSample u l) s = .next t.shutdown.settle ∧ logged s t 3 0x11 k.val 0x2A 9 ∧ t.mem = s.mem)) ∧
  (∀ (u : Fin 6) (l : List (Int × Int)) (s : State), quiet s = true → s.isDue u.val = false → exec (.thermalSample u l) s = .next s) ∧
  (∀ (l : List (Int × Int)) (s : State), quiet s = true → s.reeveOn = true → s.isDue 4 = true →
    (∀ x ∈ pairValues 4 (samplePairs s.thm.iod (l.take 4)), x < 2000) →
    ∃ t, exec (.thermalSample 4 l) s = .next t ∧ t = { s with thm := t.thm } ∧ t.thm = { (s.ran 4 10000).thm with iod := samplePairs s.thm.iod (l.take 4) }) ∧
  (∀ (l : List (Int × Int)) (s : State), quiet s = true → s.awake = true → s.isDue 5 = true →
    ((∀ x ∈ pairValues 2 (samplePairs s.thm.sd (l.take 2)), x < 2160) →
      ∃ t, exec (.thermalSample 5 l) s = .next t ∧ t = { s with thm := t.thm } ∧ t.thm = { (s.ran 5 10000).thm with sd := samplePairs s.thm.sd (l.take 2) }) ∧
    (∀ x ∈ pairValues 2 (samplePairs s.thm.sd (l.take 2)), 2160 ≤ x →
      exec (.thermalSample 5 l) s = .next s.safeState))

/-- One evaluation of power and heat, every 100,000 ticks (R53, R239, R259, R476, R480, R484). A running die without a valid reading is in band 3 and at Loft step 3; a
reading above its band or Loft step raises them at once. The effective level is the lowest of the commanded one and the two
caps; the package cap falls by 2 levels above PEAK_LIMIT and to 0 in the coolant-loss state; the pump's duty follows the highest reading
between its two limits and is full without one; a stack's reading sets TEMP and HOT. -/
def Obligations.ThermalEvaluationActs : Prop :=
  ∀ (veh : Bool) (stks : List (Option Int)) (s : State), quiet s = true → s.reeveOn = true →
    (s.isDue 7 = false → exec (.thermalEvaluation veh stks) s = .next s) ∧
    (s.isDue 7 = true → (∀ k x, stks.getD k none = some x → x < 1680) →
    ∃ t, exec (.thermalEvaluation veh stks) s = .next t ∧
      t = { s with thm := t.thm, grn := t.grn, hmc := t.hmc, cool := t.cool, cx := t.cx } ∧ t.thm.vehReady = veh ∧ t.thm.due = (s.ran 7 100000).thm.due ∧
      (∀ k < 4, s.dieRuns k = true →
        (s.hottest k = none → (t.opc k).band = 3#2 ∧ (t.grnDie k).step = 4#3) ∧
        (∀ r, s.hottest k = some r →
          ((s.opc k).band.toNat < bandOf r → (t.opc k).band.toNat = bandOf r) ∧
          ((s.opc k).band.toNat = bandOf r → (t.opc k).band = (s.opc k).band) ∧
          ((s.grnDie k).step.toNat < (s.grnDie k).loftSel r → (t.grnDie k).step.toNat = (s.grnDie k).loftSel r)) ∧
        (t.opc k).levelCmd = (s.opc k).levelCmd ∧
        (t.opc k).levelEff.toNat = min (s.opc k).levelCmd.toNat (min (t.thrCap k) t.thm.pcap.toNat) ∧
        (∀ x, (s.hmcOf k).state ≠ 0#2 → stks.getD k none = some x →
          (t.hmcOf k).temp = BitVec.ofInt 16 x ∧ (t.hmcOf k).tempValid = true ∧ ((t.hmcOf k).hot = true ↔ 1360 ≤ x)) ∧
        (stks.getD k none = none → (t.hmcOf k).tempValid = false ∧ (t.hmcOf k).hot = false)) ∧
      (s.thm.coolLoss = true ∨ s.thm.shutdown = true → t.thm.pcap = 0#4 ∧ t.cool.duty = 0xFF#8) ∧
      (s.thm.coolLoss = false → s.thm.shutdown = false → s.thm.peak < s.thm.power.toNat → t.thm.pcap.toNat = s.thm.pcap.toNat - 2) ∧
      ((∀ k < 4, s.dieRuns k = true → s.hottest k = none) → t.cool.duty = 0xFF#8) ∧
      (∀ (r span : Int), s.thm.coolLoss = false → s.thm.shutdown = false → span = 16 * ((s.thm.tHi : Int) - s.thm.tLo) → 0 < span →
        (∃ k < 4, s.dieRuns k = true ∧ s.hottest k = some r) → (∀ k < 4, ∀ x, s.dieRuns k = true → s.hottest k = some x → x ≤ r) →
        (t.cool.duty.toNat : Int) = max 0x40 (min 0xFF ((0x40 * span + 0xBF * (r - 16 * s.thm.tLo)) / span))))

/-- Voltage, rate and power monitors (R54, R57, R475). A finished AVSBus write makes its code the one in force. A window of the rate
monitor records the rate; the third in a row that is more than 2 % short raises the voltage by two steps and sets MARGIN.
A telemetry round takes over the answers and computes the power; a missing answer sets TELEM_STALE. -/
def Obligations.PowerMonitors : Prop :=
  (∀ (k : Die) (s : State), s.busOn = true →
    ∃ t, exec (.avsWriteComplete k) s = .next t ∧ t = { s with thm := t.thm } ∧
      t.opc k.val = { s.opc k.val with vcode := (s.opc k.val).target, slewing := false } ∧ (∀ i, i ≠ k.val → t.opc i = s.opc i)) ∧
  (∀ (k : Die) (rate : BitVec 16) (o : OpcDie) (want g : Nat) (s : State), s.reeveOn = true → s.dieRuns k.val = true → s.isDue (9 + k.val) = true → s.opc k.val = o →
    want = (o.level o.levelEff.toNat).rate.toNat → g = (if want ≤ rate.toNat then min 16 (o.goodCnt + 1) else 0) →
    o.raiseDue = false → o.shortCnt < 3 →
    ∃ t, exec (.rateMonitorWindow k rate) s = .next t ∧ t = { s with thm := t.thm } ∧ (∀ i, i ≠ k.val → t.opc i = s.opc i) ∧
      (49 * want ≤ 50 * rate.toNat → t.opc k.val = { o with
        monValid := true, rate := rate, goodCnt := g, shortCnt := 0, margin := o.margin && decide (g ≠ 16) }) ∧
      (50 * rate.toNat < 49 * want → o.shortCnt < 2 → t.opc k.val = { o with
        monValid := true, rate := rate, goodCnt := 0, shortCnt := o.shortCnt + 1 }) ∧
      (50 * rate.toNat < 49 * want → o.shortCnt = 2 → s.voltTarget k.val < 0x78 →
        (t.opc k.val).raise = o.raise + 2 ∧ (t.opc k.val).margin = true ∧ (t.opc k.val).shortCnt = 0)) ∧
  (∀ (rails dies : List (Option (BitVec 16 × BitVec 16))) (on : List Nat) (s : State), s.busOn = true → s.isDue 8 = true →
    on = (List.range 16).filter (fun r => s.thm.railAddr.getD r 0 ≠ 0) →
    ∃ t, exec (.telemetryRound rails dies) s = .next t ∧ t = { s with thm := t.thm } ∧
      (∀ r ∈ on, Tab.get (0, 0) t.thm.rails r = (rails.getD r none).getD (Tab.get (0, 0) s.thm.rails r)) ∧
      (∀ r < 16, r ∉ on → Tab.get (0, 0) t.thm.rails r = Tab.get (0, 0) s.thm.rails r) ∧
      (∀ k < 4, Tab.get (0, 0) t.thm.dieVI k = (dies.getD k none).getD (Tab.get (0, 0) s.thm.dieVI k) ∧
        (t.opc k).power = deciWatt (railPower (Tab.get (0, 0) t.thm.dieVI k))) ∧
      (t.thm.stale = true ↔ (∃ r ∈ on, rails.getD r none = none) ∨ ∃ k < 4, dies.getD k none = none) ∧
      t.thm.power = deciWatt ((on.map (fun r => railPower (Tab.get (0, 0) t.thm.rails r))).foldl (· + ·) 0 +
        ((List.range 4).map (fun k => railPower (Tab.get (0, 0) t.thm.dieVI k))).foldl (· + ·) 0)) ∧
  (∀ s : State, s.busOn = true →
    ∃ t, exec .telemetryTimeout s = .next t ∧ t = { s with thm := t.thm } ∧ t.thm = { s.thm with stale := true })

/-- Reference clocks (R416, Table 20-7). The loss of an HBM reference is recorded and fails the stack's controller; of DNP_REFCLK it is a link
fault, of SW_REFCLK it is recorded, of a crystal it leads to the safe state; once lost, a reference is not lost again. A
reference that is back trains its stack anew or resets the switch. -/
def Obligations.ReferenceClocks : Prop :=
  (∀ (r : Fin 7) (s : State), quiet s = true → s.awake = true → Tab.get false s.flt.refLost r.val = false →
    (r.val < 4 → ∃ t, exec (.refclkLoss r) s = .next t ∧ logged s t 2 0x10 r.val 0x22 5 ∧ (t.hmcOf r.val).state = 3#2 ∧
      Tab.get false t.flt.refLost r.val = true ∧ t.mem = s.mem ∧ (∀ k, k ≠ r.val → (t.hmcOf k).state = (s.hmcOf k).state)) ∧
    (r.val = 4 → s.pair.pstate = 0#3 → ∃ t, exec (.refclkLoss r) s = .next t ∧ t.dnp.state = 0 ∧ t.dnp.out = [] ∧ t.dnp.unacked = [] ∧
      t.flt.total = s.flt.total + 2 ∧ Tab.get false t.flt.refLost 4 = true ∧ t.mem = s.mem) ∧
    (r.val = 5 → ∃ t, exec (.refclkLoss r) s = .next t ∧ t = { s with flt := t.flt, freeCnt := t.freeCnt } ∧ logged s t 2 0x10 5 0x22 6 ∧
      Tab.get false t.flt.refLost 5 = true) ∧
    (r.val = 6 → exec (.refclkLoss r) s = .next s.safeState)) ∧
  (∀ (r : Fin 7) (s : State), quiet s = true → Tab.get false s.flt.refLost r.val = true → exec (.refclkLoss r) s = .next s) ∧
  (∀ (r : Fin 7) (s : State), quiet s = true → s.awake = true → Tab.get false s.flt.refLost r.val = true →
    ∃ t, exec (.refclkStable r) s = .next t ∧ Tab.get false t.flt.refLost r.val = false ∧
      (r.val < 4 → s.dieRuns r.val = true → (t.hmcOf r.val).state = 0#2 ∧ Tab.get false t.flt.stackRst r.val = true ∧
        (∀ a, (r.val * stackBytes ≤ a ∧ a < (r.val + 1) * stackBytes → t.byteAt a = 0#8) ∧
          (a < r.val * stackBytes ∨ (r.val + 1) * stackBytes ≤ a → t.byteAt a = s.byteAt a))) ∧
      (r.val = 4 → t = { s with flt := t.flt }) ∧
      (r.val = 5 → Tab.get false t.flt.iodSub 2 = true ∧ t.sw.host = [] ∧ t.sw.ingest = [] ∧
        ∀ p < 16, (t.portOf p).queues = [] ∧ (t.portOf p).sending = none))

/-- Frames received by the switch (R318, R319, R323, Tables 16-1 and 16-2). On a port that is down nothing is taken; a frame of more than 2,048 bytes
is dropped and counted; one with a bad FCS or of less than 64 bytes is dropped. Any other goes to HOST where it is addressed to
the KCP endpoint, to INGEST where its stream's filter says so, else by the forwarding table into the queue of its class, or,
with no entry, is dropped and counted. -/
def Obligations.SwitchReceivesFrames : Prop :=
  ∀ (p : Fin 16) (f g : SwFrame) (vid : Nat) (s : State), vid = s.vidOf p.val f → g = (if f.vid.isNone then { f with pcp := 0#3 } else f) →
    (s.switchOn = false ∨ (s.portOf p.val).up = false → exec (.switchFrameRx p f) s = .next s) ∧
    (s.switchOn = true → (s.portOf p.val).up = true →
      (2048 < f.len →
        ∃ t, exec (.switchFrameRx p f) s = .next t ∧ t = { s with sw := t.sw } ∧ (∀ i, i ≠ p.val → t.portOf i = s.portOf i) ∧
          t.portOf p.val = { s.portOf p.val with tooLong := (s.portOf p.val).tooLong + 1 }) ∧
      (f.len ≤ 2048 → (f.fcsOk = false ∨ f.len < 64) → exec (.switchFrameRx p f) s = .next s) ∧
      (f.len ≤ 2048 → f.fcsOk = true → 64 ≤ f.len → isPtp g = false →
        (s.streamOf vid g = none → s.forKcp vid g = true →
          ∃ t, exec (.switchFrameRx p f) s = .next t ∧ t = { s with sw := t.sw } ∧ t.sw = { s.sw with host := s.sw.host ++ [g] }) ∧
        (∀ h i, s.streamOf vid g = some h → s.swFind 0x13 (fun i => decide (s.swField 0x13 i 0 = h)) = some i → s.swField 0x13 i 4 = 1 →
          s.filterPass i g = (true, s) → s.recovered h g = (true, s) →
          ∃ t, exec (.switchFrameRx p f) s = .next t ∧ t = { s with sw := t.sw } ∧ t.sw = { s.sw with ingest := s.sw.ingest ++ [(p.val, g)] }) ∧
        (s.streamOf vid g = none → s.forKcp vid g = false → s.solicits vid g = false →
          (s.fwdPorts vid g.dst = none →
            ∃ t, exec (.switchFrameRx p f) s = .next t ∧ t = { s with sw := t.sw } ∧ (∀ i, i ≠ p.val → t.portOf i = s.portOf i) ∧
              t.portOf p.val = { s.portOf p.val with noMatch := (s.portOf p.val).noMatch + 1 }) ∧
          (∀ q c, s.fwdPorts vid g.dst = some [q] → q ≠ p.val → c = s.trafficClass vid g.pcp.toNat → (s.portOf q).up = true →
            s.queueFits q c g.len = true →
            ((s.portOf q).sending.isSome = true →
              ∃ t, exec (.switchFrameRx p f) s = .next t ∧ t = { s with sw := t.sw } ∧ (∀ i, i ≠ q → t.portOf i = s.portOf i) ∧
                (t.portOf q).queue c = (s.portOf q).queue c ++ [{ frame := g, inQ := s.time.swq, own := false }] ∧
                (∀ d, d ≠ c → (t.portOf q).queue d = (s.portOf q).queue d) ∧ (t.portOf q).sending = (s.portOf q).sending) ∧
            ((s.portOf q).sending = none → (s.portOf q).queues = [] → (s.portOf q).paused = none → (s.portOf q).gcl = [] → c < 8 →
              ∃ t, exec (.switchFrameRx p f) s = .next t ∧ t = { s with sw := t.sw } ∧ (∀ i, i ≠ q → t.portOf i = s.portOf i) ∧
                (t.portOf q).sending = some { q := { frame := g, inQ := s.time.swq, own := false }, cls := c, sent := 0, start := s.time.swq, first := s.time.swq } ∧
                ∀ d, (t.portOf q).queue d = [])))))

/-- Ports of the switch (R319 to R321, Tables 15-8 and 16-1). A frame whose bytes are on the wire leaves, and the frame of the highest class
that waits begins; what Hayward A holds for the port follows, an answer ahead of a piece of a record, one of them on the wire and
one in the queue of class 7 (R422); the end of a gate entry begins the next; link loss flushes the queues and counts the frames;
link changes of EP and CP ports show in LINK_UP of their streams. -/
def Obligations.SwitchPortsAct : Prop :=
  (∀ (p : Fin 16) (r : TxRun) (s : State), s.switchOn = true → (s.portOf p.val).sending = some r → isPtp r.q.frame = false →
    r.left ≤ r.onWire s.time.swq →
    ((s.portOf p.val).queues = [] → (s.portOf p.val).paused = none → (s.portOf p.val).hwaOut = [] →
      ∃ t, exec (.egressFrameSent p) s = .next t ∧ t = { s with sw := t.sw } ∧ t.sw.egress = (p.val, r.q.frame) :: s.sw.egress ∧
        t.portOf p.val = { s.portOf p.val with sending := none } ∧ (∀ i, i ≠ p.val → t.portOf i = s.portOf i)) ∧
    (∀ (c : Nat) (q : QFrame) (l : List QFrame), (s.portOf p.val).up = true → (s.portOf p.val).verified = false → (s.portOf p.val).gcl = [] →
      (s.portOf p.val).hwaOut = [] → c < 8 → (s.portOf p.val).queue c = q :: l → (∀ d, c < d → d < 8 → (s.portOf p.val).queue d = []) →
      ∃ t, exec (.egressFrameSent p) s = .next t ∧ t = { s with sw := t.sw } ∧ t.sw.egress = (p.val, r.q.frame) :: s.sw.egress ∧
        (t.portOf p.val).sending = some { q := q, cls := c, sent := 0, start := s.time.swq, first := s.time.swq } ∧ (t.portOf p.val).queue c = l ∧
        (∀ d, d ≠ c → (t.portOf p.val).queue d = (s.portOf p.val).queue d) ∧ (∀ i, i ≠ p.val → t.portOf i = s.portOf i)) ∧
    (∀ f g : SwFrame, (s.portOf p.val).up = true → (s.portOf p.val).gcl = [] → (s.portOf p.val).queues = [] → (s.portOf p.val).paused = none →
      (s.portOf p.val).hwaOut = [(false, f), (true, g)] → f.len ≤ 16384 → g.len ≤ 16384 →
      ∃ t, exec (.egressFrameSent p) s = .next t ∧ t = { s with sw := t.sw } ∧ t.sw.egress = (p.val, r.q.frame) :: s.sw.egress ∧
        t.portOf p.val = { s.portOf p.val with
          sending := some { q := { frame := g, inQ := s.time.swq, own := true }, cls := 7, sent := 0, start := s.time.swq, first := s.time.swq }
          queues := [(7, [{ frame := f, inQ := s.time.swq, own := true }])]
          hwaOut := [] } ∧ (∀ i, i ≠ p.val → t.portOf i = s.portOf i))) ∧
  (∀ (p : Fin 16) (x : SwPort) (s : State), s.switchOn = true → s.portOf p.val = x → x.gcl ≠ [] → x.gclEnd ≤ s.time.swq →
    x.sending.isSome = true → x.hwaOut = [] →
    ∃ t, exec (.qbvGateEntry p) s = .next t ∧ t = { s with sw := t.sw } ∧ (∀ i, i ≠ p.val → t.portOf i = s.portOf i) ∧
      t.portOf p.val = { x with
        gclPos := (x.gclPos + 1) % x.gcl.length
        gclEnd := x.gclEnd + 4 * ((x.gcl[(x.gclPos + 1) % x.gcl.length]?).map (·.2)).getD 0 }) ∧
  (∀ (p : Fin 16) (s : State),
    ∃ t, exec (.epLinkDown p) s = .next t ∧ t = { s with sw := t.sw } ∧
      t.portOf p.val = { s.portOf p.val with up := false, verified := false, queues := [], sending := none, paused := none,
                                             hwaOut := [], flushed := (s.portOf p.val).flushed + (s.portOf p.val).frames } ∧
      (∀ i, i ≠ p.val → t.portOf i = s.portOf i) ∧ t.portUp (32 * s.side + 16 + p.val) = false ∧
      (∀ b < 64, b ≠ 32 * s.side + 16 + p.val → t.portUp b = s.portUp b)) ∧
  (∀ (p : Fin 16) (v : Bool) (s : State), s.switchOn = true → s.pins.epTx = true → (s.portOf p.val).queues = [] →
    (s.portOf p.val).paused = none → (s.portOf p.val).hwaOut = [] →
    ∃ t, exec (.epLinkUp p v) s = .next t ∧ t = { s with sw := t.sw } ∧
      t.portOf p.val = { s.portOf p.val with up := true, verified := v } ∧ (∀ i, i ≠ p.val → t.portOf i = s.portOf i) ∧
      t.portUp (32 * s.side + 16 + p.val) = true ∧ (∀ b < 64, b ≠ 32 * s.side + 16 + p.val → t.portUp b = s.portUp b)) ∧
  (∀ (p : Fin 16) (s : State), ∃ t, exec (.cpLinkUp p) s = .next t ∧ t = { s with ing := { s.ing with cpUp := t.ing.cpUp } } ∧
    t.portUp (32 * s.side + p.val) = true ∧ (∀ b < 64, b ≠ 32 * s.side + p.val → t.portUp b = s.portUp b)) ∧
  (∀ (p : Fin 16) (s : State), ∃ t, exec (.cpLinkDown p) s = .next t ∧ t = { s with ing := { s.ing with cpUp := t.ing.cpUp } } ∧
    t.portUp (32 * s.side + p.val) = false ∧ (∀ b < 64, b ≠ 32 * s.side + p.val → t.portUp b = s.portUp b))

/-- KCP requests (R327 to R331, Table 16-4): the head of the queue is performed, leaves the queue and is answered with its session, OP and
SEQ. SLOT_WRITE, SLOT_POST, DOORBELL and RELEASE act on the mailbox, STATUS 8 where the slot is not FREE; REG_READ reads
words of the IOD block; BULK_WRITE stores its data in a staging range, else STATUS 9; LEDGER_READ answers from window 0, after
it has selected the epoch; a session without the right to write gets STATUS 6, before READY STATUS 5, and where the KCP
endpoint is not the master STATUS 4. -/
def Obligations.KcpRequestsArePerformed : Prop :=
  ∀ (q : KcpReq) (x : Session) (p : List Byte) (s : State), s.kcpOn = true → s.kcp.queue = [q] → s.session? q.session = some x → x.key = q.key → q.payload = p →
    (∀ (i : Instr) (op : Nat), (i, op) ∈ [(Instr.regRead, 1), (.slotWrite, 2), (.slotPost, 3), (.doorbell, 4), (.release, 5), (.ledgerRead, 6),
        (.bulkWrite, 7)] → q.op ≠ op → exec i s = .next s) ∧
    (∀ (n off : Nat) (b : List Byte) (u : State), q.op = 1 → p.length = 6 → off = beNat (sub p 0 4) → n = beNat (sub p 4 2) → off % 4 = 0 →
      1 ≤ n → n ≤ 256 → off + 4 * n ≤ 0x1000000 → kcpReadWords n off s = (some b, u) →
      ∃ t, exec .regRead s = .next t ∧ t = { u with kcp := t.kcp, sw := t.sw } ∧ answeredKcp q 0 b u t) ∧
    (∀ st : Nat, s.kcpGate q = some st →
      ∃ t i, (i, q.op) ∈ [(Instr.slotWrite, 2), (.slotPost, 3), (.doorbell, 4), (.release, 5), (.bulkWrite, 7)] ∧ exec i s = .next t ∧
        t = { s with kcp := t.kcp, sw := t.sw } ∧ answeredKcp q st [] s t ∧ (q.write = false → st = 6) ∧
        (q.write = true → q.op ≠ 7 → s.mbx.ready = false → st = 5)) ∧
    (s.kcpGate q = none →
      (∀ (i : Fin 16) (off : Nat) (d : List Byte), q.op = 2 → fld p 0 1 = i.val → off = beNat (sub p 2 2) → d = p.drop 4 → d ≠ [] →
        off + d.length ≤ 256 →
        ((s.slotOf i.val).state = 0#2 →
          ∃ t, exec .slotWrite s = .next t ∧ t = { s with kcp := t.kcp, sw := t.sw, mbx := t.mbx } ∧ answeredKcp q 0 [] s t ∧
            (∀ j, j ≠ i.val → t.slotOf j = s.slotOf j) ∧ t.slotOf i.val = { s.slotOf i.val with body := (t.slotOf i.val).body } ∧
            ∀ o < 256, Tab.get 0#8 (t.slotOf i.val).body o =
              if off ≤ o ∧ o < off + d.length then d.getD (o - off) 0#8 else Tab.get 0#8 (s.slotOf i.val).body o) ∧
        ((s.slotOf i.val).state ≠ 0#2 →
          ∃ t, exec .slotWrite s = .next t ∧ answeredKcp q 8 [] s t ∧ t.mbx =
            { s.mbx with sticky := s.mbx.sticky ||| 2#4, anomaly := satInc s.mbx.anomaly })) ∧
      (∀ (i : Fin 16) (d : List Byte), q.op = 3 → fld p 0 1 = i.val → d = p.drop 4 → d.length = beNat (sub p 2 2) → 32 ≤ d.length →
        d.length ≤ 256 → (s.slotOf i.val).state = 0#2 →
        ∃ t, exec .slotPost s = .next t ∧ t = { s with kcp := t.kcp, sw := t.sw, mbx := t.mbx } ∧ answeredKcp q 0 [] s t ∧
          (∀ j, j ≠ i.val → t.slotOf j = s.slotOf j) ∧ (t.slotOf i.val).state = 1#2 ∧ (t.slotOf i.val).dbSeq.toNat = fld d 2 2 ∧
          (∀ o < d.length, Tab.get 0#8 (t.slotOf i.val).body o = d.getD o 0#8) ∧ t.mbx.order = s.mbx.order ++ [i.val]) ∧
      (∀ i : Fin 16, q.op = 4 → p.length = 4 → fld p 0 1 = i.val → (s.slotOf i.val).state = 0#2 →
        ∃ t, exec .doorbell s = .next t ∧ t = { s with kcp := t.kcp, sw := t.sw, mbx := t.mbx } ∧ answeredKcp q 0 [] s t ∧
          t.slotOf i.val = { s.slotOf i.val with state := 1#2, dbSeq := BitVec.ofNat 16 (beNat (sub p 2 2)) } ∧
          (∀ j, j ≠ i.val → t.slotOf j = s.slotOf j) ∧ t.mbx.order = s.mbx.order ++ [i.val]) ∧
      (q.op = 5 → p.length = 2 → (∀ i : Fin 16, bitsAt (beNat p) i.val 1 = 1 → (s.slotOf i.val).state = 3#2) →
        ∃ t, exec .release s = .next t ∧ t = { s with kcp := t.kcp, sw := t.sw, mbx := t.mbx } ∧ answeredKcp q 0 [] s t ∧
          ∀ i : Fin 16, t.slotOf i.val = if bitsAt (beNat p) i.val 1 = 1 then { s.slotOf i.val with state := 0#2 } else s.slotOf i.val) ∧
      (∀ n off len : Nat, q.op = 6 → p.length = 12 → n = beNat (sub p 0 8) → off = beNat (sub p 8 2) → len = beNat (sub p 10 2) →
        off % 4 = 0 → len % 4 = 0 → 4 ≤ len → len ≤ 1024 → off + len ≤ 8192 → s.kcp.copying = false →
        ((s.winOf 0).wanted = n → (s.winOf 0).wstate = 2#3 →
          ∃ t, exec .ledgerRead s = .next t ∧ t = { s with kcp := t.kcp, sw := t.sw } ∧
            answeredKcp q 0 (beBytes 8 n ++ [2#8, 0] ++ beBytes 2 len ++ [0, 0, 0, 0] ++ sub (s.winOf 0).bytes off len) s t) ∧
        ((s.winOf 0).wanted ≠ n →
          ∃ t, exec .ledgerRead s = .next t ∧ t = { s with kcp := t.kcp, tly := t.tly } ∧ t.kcp = { s.kcp with copying := true } ∧
            (t.winOf 0).wanted = n ∧ (t.winOf 0).wstate = 1#3 ∧ ∀ j, j ≠ 0 → t.winOf j = s.winOf j)) ∧
      (∀ (a : Nat) (d : List Byte), q.op = 7 → a = beNat (sub p 0 5) → d = p.drop 8 → a % 64 = 0 → 64 ≤ d.length → d.length ≤ 1024 →
        d.length % 64 = 0 →
        (s.staged a d.length = true → s.judgeRange { whoKcp with anyHbm := true } a d.length = none → clean s = true →
          ∃ t, exec .bulkWrite s = .next t ∧ t = { s with kcp := t.kcp, sw := t.sw, mem := t.mem } ∧ answeredKcp q 0 [] s t ∧
            t.bytesAt a d.length = d ∧ ∀ y, y < a ∨ a + d.length ≤ y → t.byteAt y = s.byteAt y) ∧
        (s.staged a d.length = false →
          ∃ t, exec .bulkWrite s = .next t ∧ t = { s with kcp := t.kcp, sw := t.sw } ∧ answeredKcp q 9 [] s t)))

/-- KCP sessions (R325 to R327, R467). A request with a good tag and a SEQ above the last is queued and its SEQ taken; at a full queue it is
counted and its SEQ is not taken; a frame that fails a check is dropped and counted. SESSION_OPEN of a known credential
opens a free session number, with every number taken it answers BUSY; SESSION_CLOSE, and SESSION_IDLE without a request,
close the session. -/
def Obligations.KcpSessionsOpenAndClose : Prop :=
  (∀ (b : List Byte) (k : KFrame) (s : State), s.kcpOn = true → kframeOf b = k →
    (∀ x, k.ty = 1 → kframeOk b k = true → s.session? k.session = some x → k.tagOk x.key k.session = true → seqAbove x.lastSeq k.seq = true →
      (s.kcp.queue = [] → 1 ≤ k.op → k.op ≤ 7 →
        ∃ t, exec (.kcpFrameRx b) s = .next t ∧ t = { s with kcp := t.kcp, sw := t.sw } ∧
          t.kcp.queue = [{ session := k.session, op := k.op, seq := k.seq, payload := k.payload, peer := (s.hostFrame b).1,
                            key := x.key, write := x.write }] ∧
          t.session? k.session = some { x with lastSeq := some k.seq, lastTick := s.now } ∧
          (∀ n, n ≠ k.session → t.session? n = s.session? n) ∧ t.kcp.dropped = s.kcp.dropped) ∧
      (16 ≤ s.kcp.queue.length →
        ∃ t, exec (.kcpFrameRx b) s = .next t ∧ t = { s with kcp := t.kcp, sw := t.sw } ∧
          t.kcp = { s.kcp with full := s.kcp.full + 1 })) ∧
    (k.ty = 1 → (kframeOk b k = false ∨ s.session? k.session = none ∨
        ∃ x, s.session? k.session = some x ∧ (k.tagOk x.key k.session = false ∨ seqAbove x.lastSeq k.seq = false)) →
      ∃ t, exec (.kcpFrameRx b) s = .next t ∧ t = { s with kcp := t.kcp, sw := t.sw } ∧
        t.kcp = { s.kcp with dropped := s.kcp.dropped + 1 }) ∧
    (∀ (c : Nat) (cr : Cred), k.ty = 0x10 → c = fld k.payload 0 1 → s.kcp.creds[c]? = some (some cr) → kframeOk b k = true → k.session = 0 →
      k.op = 0 → k.len = 64 → k.tagOk (keyOf (sha384 (asciiBytes "GX4-KCP-OPEN" ++ keyBytes cr.key))) 0 = true →
      seqAbove cr.lastSeq k.seq = true →
      ((∃ n, 1 ≤ n ∧ n ≤ 4 ∧ s.session? n = none) →
        ∃ t n y, exec (.sessionOpen b) s = .next t ∧ t = { s with kcp := t.kcp, sw := t.sw, sec := t.sec, freeCnt := t.freeCnt } ∧
          1 ≤ n ∧ n ≤ 4 ∧ s.session? n = none ∧ t.session? n = some y ∧ y.cred = c ∧ y.write = cr.write ∧ y.lastSeq = none ∧
          y.lastTick = s.now ∧ (∀ m, m ≠ n → t.session? m = s.session? m) ∧ t.sec = { s.sec with rng := s.sec.rng + 1 } ∧
          t.kcp.creds[c]? = some (some { cr with lastSeq := some k.seq }) ∧
          (∃ r, t.kcp.sent = r :: s.kcp.sent ∧ r.ftype = 0x11 ∧ r.session = n ∧ r.status = 0 ∧ r.seq = k.seq)) ∧
      ((∀ n, 1 ≤ n → n ≤ 4 → (s.session? n).isSome = true) →
        ∃ t, exec (.sessionOpen b) s = .next t ∧ t = { s with kcp := t.kcp, sw := t.sw, freeCnt := t.freeCnt } ∧
          (∀ m, t.session? m = s.session? m) ∧ ∃ r, t.kcp.sent = r :: s.kcp.sent ∧ r.ftype = 0x11 ∧ r.status = 0x0B ∧ r.seq = k.seq)) ∧
    (∀ x, k.ty = 0x12 → kframeOk b k = true → k.op = 0 → k.len = 0 → s.session? k.session = some x → k.tagOk x.key k.session = true →
      seqAbove x.lastSeq k.seq = true →
      ∃ t, exec (.sessionClose b) s = .next t ∧ t = { s with kcp := t.kcp, sw := t.sw } ∧ t.session? k.session = none ∧
        (∀ m, m ≠ k.session → t.session? m = s.session? m) ∧ t.kcp.sent = s.kcp.sent)) ∧
  (∀ (n : Fin 4) (x : Session) (s : State), s.awake = true → s.session? (n.val + 1) = some x →
    (x.lastTick + s.kcp.idle ≤ s.now →
      ∃ t, exec (.sessionIdleExpiry n) s = .next t ∧ t = { s with kcp := t.kcp } ∧ t.session? (n.val + 1) = none ∧
        ∀ m, m ≠ n.val + 1 → t.session? m = s.session? m) ∧
    (s.now < x.lastTick + s.kcp.idle → exec (.sessionIdleExpiry n) s = .next s))

/-- Lockstep islands and the exchange unit (R347 to R352, R367, R368, Tables 18-1 and 18-8). A transaction of one core is held; the other
core's within 64 ticks that is the same is performed once: a write reaches the shared memory, the data of a read both cores; a corrected error
of the memory is counted, an uncorrectable word a lockstep fault. One that differs or comes late,
and a held one that stays alone, is a fault: of Hayward A it stops the island, of Hayward B it leads to the safe state. In a
split island the cores watch each other's alive words. Inputs queue in order, 64 at most; a poll by both copies takes the
head for both. A challenge in order is answered with mix64; one out of order, or a fifth that waits, is dropped. -/
def Obligations.IslandsCompareAndExchange : Prop :=
  (∀ (core : Bool) (x : Txn) (ecc : SramEcc) (s : State), s.islandOn false = true → s.hwa.splitA = false → x.kind ≠ 3#4 →
    (s.hwa.held = none →
      ∃ t, exec (.islandTransaction false core ⟨x, ecc⟩) s = .next t ∧ t = { s with hwa := t.hwa } ∧
        t.hwa = { s.hwa with held := some { core := core, txn := x, tick := s.now } }) ∧
    (∀ h, s.hwa.held = some h → h.core ≠ core →
      (h.txn = x → s.now ≤ h.tick + 64 →
        (x.kind = 1#4 → x.addr.toNat < 0x80000 →
          ∃ t, exec (.islandTransaction false core ⟨x, ecc⟩) s = .next t ∧ t = { s with hwa := t.hwa } ∧
            t.hwa = { s.hwa with held := none, sram := t.hwa.sram } ∧ ∀ a, Tab.get 0#8 t.hwa.sram a =
              if a / 4 = x.addr.toNat / 4 ∧ x.be.getLsbD (a % 4) = true then BitVec.ofNat 8 (bitsAt x.data.toNat (8 * (a % 4)) 8)
              else Tab.get 0#8 s.hwa.sram a) ∧
        (x.kind = 0#4 ∧ ecc ≠ .uncorrectable ∨ x.kind = 2#4 →
          ∃ t, exec (.islandTransaction false core ⟨x, ecc⟩) s = .next t ∧ t = { s with hwa := t.hwa } ∧
            t.hwa = { s.hwa with
              held := none, rdata := t.hwa.rdata,
              eccCorr := if x.kind = 0#4 ∧ ecc = .corrected then satInc s.hwa.eccCorr else s.hwa.eccCorr } ∧
            ∀ c < 2, Tab.get 0#32 t.hwa.rdata c = s.islandData false x) ∧
        (x.kind = 0#4 → ecc = .uncorrectable → ∃ t, exec (.islandTransaction false core ⟨x, ecc⟩) s = .next t ∧ faultedA s t)) ∧
      (h.txn ≠ x ∨ h.tick + 64 < s.now → ∃ t, exec (.islandTransaction false core ⟨x, ecc⟩) s = .next t ∧ faultedA s t))) ∧
  (∀ (core : Bool) (x : Txn) (ecc : SramEcc) (s : State), s.islandOn true = true → s.hwa.splitB = false →
    (s.hwb.held = none →
      ∃ t, exec (.islandTransaction true core ⟨x, ecc⟩) s = .next t ∧ t = { s with hwb := t.hwb } ∧
        t.hwb = { s.hwb with held := some { core := core, txn := x, tick := s.time.tickB } }) ∧
    (∀ h, s.hwb.held = some h → h.core ≠ core →
      (h.txn = x → s.time.tickB ≤ h.tick + 64 → x.kind ≠ 0#4 ∨ ecc ≠ .uncorrectable →
        ∃ t, exec (.islandTransaction true core ⟨x, ecc⟩) s = .next t ∧ t = { s with hwb := t.hwb } ∧
          t.hwb = { s.hwb with held := none, sram := t.hwb.sram, rdata := t.hwb.rdata } ∧ (x.kind ≠ 1#4 → t.hwb.sram = s.hwb.sram) ∧
          (x.kind = 0#4 → ∀ c < 2, Tab.get 0#32 t.hwb.rdata c = s.islandData true x)) ∧
      (h.txn ≠ x ∨ h.tick + 64 < s.time.tickB ∨ x.kind = 0#4 ∧ ecc = .uncorrectable →
        exec (.islandTransaction true core ⟨x, ecc⟩) s = .next s.safeState))) ∧
  (∀ (h : HeldTxn) (s : State),
    (s.hwa.held = some h → s.islandOn false = true → h.tick + 64 < s.now →
      ∃ t, exec (.lockstepTimeout false) s = .next t ∧ faultedA s t) ∧
    (s.hwb.held = some h → s.islandOn true = true → h.tick + 64 < s.time.tickB →
      exec (.lockstepTimeout true) s = .next s.safeState) ∧
    (s.hwa.held = none ∨ s.hwa.held = some h ∧ s.now ≤ h.tick + 64 → exec (.lockstepTimeout false) s = .next s)) ∧
  (∀ (core : Bool) (me other : Nat) (s : State), me = (if core then 1 else 0) → other = (if core then 0 else 1) →
    (s.hwa.splitA = true → s.islandOn false = true → s.now ≤ Tab.get 0 s.hwa.aliveSeen other + 10000 →
      ∃ t, exec (.splitAliveCheck false core) s = .next t ∧ t = { s with hwa := t.hwa } ∧
        t.hwa = { s.hwa with aliveSeen := t.hwa.aliveSeen } ∧ Tab.get 0 t.hwa.aliveSeen me = s.now ∧
        Tab.get 0 t.hwa.aliveSeen other = Tab.get 0 s.hwa.aliveSeen other) ∧
    (s.hwa.splitA = true → s.islandOn false = true → Tab.get 0 s.hwa.aliveSeen other + 10000 < s.now →
      ∃ t, exec (.splitAliveCheck false core) s = .next t ∧ t.hwa.fault = true ∧ t.flt.total = s.flt.total + 1 ∧ t.mem = s.mem) ∧
    (s.hwa.splitB = true → s.islandOn true = true → Tab.get 0 s.hwb.aliveSeen other + 10000 < s.time.tickB →
      ∃ t, exec (.splitAliveCheck true core) s = .next t ∧ t.flt.safe = true ∧ t.pins.safeN = false)) ∧
  (∀ (i : ExchInput) (s : State), s.islandOn false = true →
    (s.hwa.queue.length < 64 → s.hwa.waiting = [] → (∀ e ∈ s.hwa.queue, e.tick < s.now) →
      ∃ t, exec (.exchangeInputRelease i) s = .next t ∧ t = { s with hwa := t.hwa } ∧
        t.hwa = { s.hwa with queue := s.hwa.queue ++ [{ input := i, tick := s.now }] }) ∧
    (∀ e, s.hwa.queue = [e] → s.hwa.waiting = [] → e.tick = s.now → exchRank i.kind < exchRank e.input.kind →
      ∃ t, exec (.exchangeInputRelease i) s = .next t ∧ t = { s with hwa := t.hwa } ∧
        t.hwa = { s.hwa with queue := [{ input := i, tick := s.now }, e] }) ∧
    (64 ≤ s.hwa.queue.length →
      ∃ t, exec (.exchangeInputRelease i) s = .next t ∧ t = { s with hwa := t.hwa } ∧
        t.hwa = { s.hwa with waiting := s.hwa.waiting ++ [i] })) ∧
  (∀ (core : Bool) (s : State), s.islandOn false = true → s.hwa.splitA = false →
    (s.hwa.pollAns = none →
      ∃ t, exec (.exchangePoll core) s = .next t ∧ t = { s with hwa := t.hwa } ∧
        t.hwa = { s.hwa with pollAns := some (core, s.hwa.queue.head?) }) ∧
    (∀ a, s.hwa.pollAns = some (core, a) → exec (.exchangePoll core) s = .next s) ∧
    (∀ e, s.hwa.pollAns = some (!core, some e) → e.input.kind ≠ .challenge → s.hwa.waiting = [] →
      ∃ t, exec (.exchangePoll core) s = .next t ∧ t = { s with hwa := t.hwa } ∧
        t.hwa = { s.hwa with
          pollAns := none
          queue := s.hwa.queue.erase e
          taken := s.hwa.taken ++ [e]
          exchMax := BitVec.ofNat 8 (min 0xFF (max s.hwa.exchMax.toNat (s.now - e.tick))) })) ∧
  (∀ (port : Fin 16) (src : BitVec 48) (p : List Byte) (c : BitVec 32) (s : State), s.islandOn false = true → s.switchOn = true →
    c = BitVec.ofNat 32 (beNat (sub p 4 4)) →
    (s.challengesWaiting < 4 → s.hwa.queue = [] → fld p 0 1 = 1 → fld p 1 1 = 1 → s.cseqAbove c = true →
      ∃ t a, exec (.hbChallenge port src p) s = .next t ∧ t = { s with hwa := t.hwa, sw := t.sw } ∧
        t.hwa = { s.hwa with
          answered := s.hwa.answered + 1
          lastCseq := c
          lastAns := some s.now
          hbSent := a :: s.hwa.hbSent } ∧
        a = { port := port.val, dst := src, hstate := s.hstate, cseq := c, latest := s.tly.latest, since := s.sincePub,
              answer := mix64 (BitVec.ofNat 64 (beNat (sub p 8 8)) ^^^ s.hwa.key ^^^ c.setWidth 64) }) ∧
    (4 ≤ s.challengesWaiting ∨ s.hwa.queue = [] ∧ (fld p 0 1 ≠ 1 ∨ fld p 1 1 ≠ 1 ∨ s.cseqAbove c = false) →
      ∃ t, exec (.hbChallenge port src p) s = .next t ∧ t = { s with hwa := t.hwa, sw := t.sw } ∧
        t.hwa = { s.hwa with hbDropped := satInc s.hwa.hbDropped }) ∧
    (s.challengesWaiting < 4 → s.hwa.queue ≠ [] → s.hwa.queue.length < 64 → s.hwa.waiting = [] → (∀ e ∈ s.hwa.queue, e.tick < s.now) →
      ∃ t, exec (.hbChallenge port src p) s = .next t ∧ t = { s with hwa := t.hwa, sw := t.sw } ∧
        t.hwa = { s.hwa with
          queue := s.hwa.queue ++ [{ input := { kind := .challenge, data := port.val :: src.toNat :: p.map (·.toNat) }, tick := s.now }] }))

/-- Stage watchdogs, golden sheaves and self-test slices (R356 to R365, R404, Tables 18-4, 18-5 and 18-12). The first event of a stage for an
open epoch is judged by its window and the epoch's deadline, a further one counted as a duplicate. GOLDEN_DUE after the open
event a golden sheaf moves to the tail of SC0; a completed one that gives the known answer passes, one that does not resets its
engine for a second run. Slices fall due every STEST_PERIOD, run, pass or fail; a first failure resets the unit, a second
fails it. -/
def Obligations.WatchdogsGoldenAndSelfTest : Prop :=
  (∀ (st : Fin 16) (n : BitVec 64) (stamp d : Nat) (e : OpenEp) (c : WdgCfg) (s : State), s.islandOn false = true → s.openEp? n = some e →
    (s.wdgFor n).find? (fun c => c.1 = st.val) = some (st.val, c) → d = stamp - e.openTick →
    ((s.judge? n st).isSome = true →
      ∃ u : State, exec (.stageEvent st n stamp) s = .next u.settle ∧ u = { s with hwa := u.hwa } ∧
        (u.stage st).dup = satInc (s.stage st).dup ∧ ∀ i, i ≠ st.val → u.stage i = s.stage i) ∧
    (s.judge? n st = none → c.nearEdge d = false →
      (∀ o, o = (if d < c.openT then 2 else if c.closeT < e.deadline ∧ c.closeT < d then 3 else 1) →
        (d < c.openT ∨ c.closeT < e.deadline ∨ d ≤ e.deadline) →
        ∃ u : State, exec (.stageEvent st n stamp) s = .next (u.tryDigest n).settle ∧ u = { s with hwa := u.hwa } ∧
          u.hwa = { s.hwa with judged := s.hwa.judged ++ [{ stage := st, epoch := n, outcome := o, edge := false, tick := d }] }) ∧
      (c.openT ≤ d → e.deadline ≤ c.closeT → e.deadline < d → exec (.stageEvent st n stamp) s = .next s.settle)) ∧
    (s.judge? n st = none → c.nearEdge d = true → d < c.openT →
      ∃ u : State, exec (.stageEvent st n stamp) s = .next (u.tryDigest n).settle ∧ (u.stage st).edgeCnt = satInc (s.stage st).edgeCnt ∧
        (u.openEp? n).map (·.edge) = some true ∧
        u.hwa.judged = s.hwa.judged ++ [{ stage := st, epoch := n, outcome := 2, edge := true, tick := d }])) ∧
  (∀ (n : BitVec 64) (g : GoldEp) (e : OpenEp) (s : State), s.islandOn false = true → s.gold? n = some g → s.openEp? n = some e →
    g.state = 0 →
    (e.openTick + s.hwa.goldDue ≤ s.now →
      ∃ t, exec (.goldenDueExpiry n) s = .next t ∧ t = { s with cx := t.cx, hwa := t.hwa } ∧ t.gold? n = some { g with state := 1 } ∧
        (t.eng g.engine).lane 0 =
          ((s.eng g.engine).lane 0).filter (fun sh => !(isGolden sh && sh.index.epoch = n)) ++ [goldSheaf n g.engine g.variant] ∧
        ∀ u, u ≠ g.engine → t.eng u = s.eng u) ∧
    (s.now < e.openTick + s.hwa.goldDue → exec (.goldenDueExpiry n) s = .next s)) ∧
  (∀ (n : BitVec 64) (g : GoldEp) (u : Nat) (s : State), quiet s = true → s.islandOn false = true → s.gold? n = some g → g.state = 3 →
    g.engine = u → s.goldOnUnit n u = false →
    (s.goldMatches u g.variant = true →
      ∃ t, exec (.goldenCompare n) s = .next t ∧ t = { s with hwa := t.hwa } ∧ t.gold? n = none ∧
        t.hwa.goldPass = s.hwa.goldPass + 1 ∧ t.hwa.goldLast = (if g.late then 3#2 else 0#2) ∧ t.hwa.deferrals = 0#4 ∧
        t.hwa.engine = BitVec.ofNat 5 ((u + 1) % 24) ∧ t.hwa.goldFail = s.hwa.goldFail) ∧
    (s.goldMatches u g.variant = false → u < 24 → (s.eng u).retest = 0 → (s.eng u).failed = false → (s.eng u).running = none →
      ∃ t, exec (.goldenCompare n) s = .next t ∧ t.gold? n = none ∧ t.hwa.goldFail = satInc s.hwa.goldFail ∧ t.hwa.goldLast = 1#2 ∧
        t.hwa.known = s.hwa.known ++ [s.now] ∧ t.hwa.goldPass = s.hwa.goldPass ∧ logged s t 2 (unitKind u) (unitIdx u) 0x23 2 ∧
        (t.eng u).retest = 1 ∧ (t.eng u).resetting = true ∧ (t.eng u).lane 0 = retestSheaf u g.variant :: (s.eng u).lane 0 ∧
        t.mem = s.mem ∧ ∀ i, i ≠ u → t.eng i = s.eng i)) ∧
  (∀ (u : Fin 28) (x : Stest) (r due : Nat) (s : State), s.stest u = x → s.tly.readyTick = some r → (s.eng u).enabled = true →
    (s.eng u).failed = false → due = (if x.dueAt = 0 then r + s.hwa.stPeriod else x.dueAt) →
    (due ≤ s.now →
      ∃ t, exec (.stestSliceDue u) s = .next t ∧ t = { s with hwa := t.hwa } ∧ (∀ i, i ≠ u.val → t.stest i = s.stest i) ∧
        t.stest u = { x with dueAt := due + s.hwa.stPeriod, waiting := x.waiting + 1, forced := x.forced || decide (0 < x.waiting) } ∧
        t.hwa.stMissed = if 0 < x.waiting then satInc s.hwa.stMissed else s.hwa.stMissed) ∧
    (s.now < due → exec (.stestSliceDue u) s = .next s)) ∧
  (∀ (u : Fin 28) (x : Stest) (s : State), s.stest u = x →
    (s.sliceMayStart u = true → (s.eng u).retest = 0 →
      ∃ t, exec (.stestSliceStart u) s = .next t ∧ t = { s with hwa := t.hwa } ∧ (∀ i, i ≠ u.val → t.stest i = s.stest i) ∧
        t.stest u = { x with running := some s.now, waiting := x.waiting - 1, forced := x.forced && decide (1 < x.waiting) } ∧
        t.hwa.stLast = 3#3 ∧ t.hwa.stUnit.toNat = u.val ∧ t.hwa.stForced = if x.forced then satInc s.hwa.stForced else s.hwa.stForced) ∧
    (s.sliceMayStart u = true → (s.eng u).retest = 2 →
      ∃ t, exec (.stestSliceStart u) s = .next t ∧ t = { s with hwa := t.hwa } ∧ t.stest u = { x with running := some s.now }) ∧
    (s.sliceMayStart u = false → exec (.stestSliceStart u) s = .next s)) ∧
  (∀ (u : Fin 28) (x : Stest) (r : Nat) (s : State), quiet s = true → s.stest u = x → x.running = some r →
    ∃ t, exec (.stestSliceEnd u true) s = .next t ∧ t = { s with cx := t.cx, hwa := t.hwa } ∧
      t.stest u = { x with running := none, next := (x.next + 1) % sliceCount u } ∧ t.hwa.stLast = 0#3 ∧ t.hwa.stUnit.toNat = u.val ∧
      t.eng u = { s.eng u with retest := if (s.eng u).retest = 2 then 0 else (s.eng u).retest } ∧
      (∀ i, i ≠ u.val → t.stest i = s.stest i ∧ t.eng i = s.eng i)) ∧
  (∀ (u : Fin 28) (r : Nat) (s : State), quiet s = true → (s.stest u).running = some r → (s.eng u).running = none →
    (24 ≤ u.val → s.bpStage (u.val - 24) = none) →
    ((s.eng u).retest = 0 →
      ∃ t, exec (.stestSliceEnd u false) s = .next t ∧ logged s t 2 (unitKind u) (unitIdx u) 0x24 2 ∧ (t.stest u).running = none ∧
        t.hwa.stLast = 1#3 ∧ t.hwa.stFail = satInc s.hwa.stFail ∧ t.hwa.known = s.hwa.known ++ [s.now] ∧
        (t.eng u).retest = 2 ∧ (t.eng u).resetting = true ∧ (t.eng u).failed = (s.eng u).failed) ∧
    ((s.eng u).retest = 2 →
      ∃ t, exec (.stestSliceEnd u false) s = .next t ∧ logged s t 2 (unitKind u) (unitIdx u) 0x24 7 ∧ (t.stest u).running = none ∧
        t.hwa.stFail = satInc s.hwa.stFail ∧ (t.eng u).failed = true)) ∧
  (∀ (u : Fin 28) (r : Nat) (s : State), quiet s = true → (s.stest u).running = some r → r + sliceTicks u ≤ s.now → (s.eng u).running = none →
    (24 ≤ u.val → s.bpStage (u.val - 24) = none) →
    ((s.eng u).retest = 0 →
      ∃ t, exec (.stestSliceOverrun u) s = .next t ∧ logged s t 2 (unitKind u) (unitIdx u) 0x25 2 ∧ (t.stest u).running = none ∧
        t.hwa.stLast = 2#3 ∧ t.hwa.stFail = satInc s.hwa.stFail ∧ t.hwa.known = s.hwa.known ++ [s.now] ∧
        (t.eng u).retest = 2 ∧ (t.eng u).resetting = true ∧ (t.eng u).failed = (s.eng u).failed) ∧
    ((s.eng u).retest = 2 →
      ∃ t, exec (.stestSliceOverrun u) s = .next t ∧ logged s t 2 (unitKind u) (unitIdx u) 0x25 7 ∧ (t.stest u).running = none ∧
        t.hwa.stFail = satInc s.hwa.stFail ∧ (t.eng u).failed = true)) ∧
  (∀ (u : Fin 28) (r : Nat) (s : State), (s.stest u).running = some r → s.now < r + sliceTicks u →
    exec (.stestSliceOverrun u) s = .next s)

/-- Reset, power good, the boot steps and the safe state (R347, R353, R354, R439 to R448, R493, R497, Tables 23-4 and 23-8). RESET_N asserted
puts every domain in reset, flash and fuses stay; released with every power-good input high it begins step 1. A step whose units have
all passed gives way to the next, the last to READY with the chosen master; a failed or late package step halts the start; a die that
fails step 7 is disabled. A sentry message in its window deasserts PKG_SAFE_N; a bad, late or missing one, a rail outside its
limits and a power-good input that falls after the start lead to the safe state, in which Hayward B alone goes on. -/
def Obligations.StartAndSafeState : Prop :=
  (∀ s : State, ∃ t, exec .resetNAssert s = .next t ∧ t.pins = { s.pins with resetN := false, safeN := false, epTx := false } ∧
    t.boot.started = false ∧ t.boot.half0 = s.boot.half0 ∧ t.boot.half1 = s.boot.half1 ∧ t.boot.images = s.boot.images ∧
    t.sec.roots = s.sec.roots ∧ t.sec.rollback = s.sec.rollback ∧ t.tap = s.tap ∧ t.mem = State.reset.mem ∧ t.cx = State.reset.cx ∧
    t.tly = State.reset.tly ∧ t.mbx = State.reset.mbx ∧ t.grn = State.reset.grn ∧ t.time = State.reset.time) ∧
  (∀ (p : PinS) (tap : TapS) (s : State), s.boot.started = false → p = { s.pins with resetN := true } →
    tap = (if s.tap.ir = 4#8 ∨ s.tap.ir = 0x20#8 then { s.tap with ir := 0xFF#8, driven := false, wireRun := false } else s.tap) →
    (p.resetN = false ∨ p.pg ≠ 0x1FF#9 → ∃ t, exec .resetNRelease s = .next t ∧ t = { s with pins := p, tap := tap }) ∧
    (p.resetN = true → p.pg = 0x1FF#9 →
      ∃ t, exec .resetNRelease s = .next t ∧ t = { s with pins := p, tap := tap, boot := t.boot, flt := t.flt, hwb := t.hwb } ∧
        t.boot.started = true ∧ t.boot.startTick = s.now ∧ t.boot.step = 1#8 ∧ t.boot.stepTick = s.now ∧ t.boot.left = [(0, 0)] ∧
        t.flt = { s.flt with refLost := [] } ∧ t.hwb = { s.hwb with startB := s.time.tickB })) ∧
  (∀ (i : Fin 9) (p : PinS) (tap : TapS) (s : State), s.boot.started = false →
    p = { s.pins with pg := s.pins.pg ||| BitVec.ofNat 9 (2 ^ i.val) } → tap = s.tap →
    (p.resetN = false ∨ p.pg ≠ 0x1FF#9 → ∃ t, exec (.powerGoodRise i) s = .next t ∧ t = { s with pins := p, tap := tap }) ∧
    (p.resetN = true → p.pg = 0x1FF#9 →
      ∃ t, exec (.powerGoodRise i) s = .next t ∧ t = { s with pins := p, tap := tap, boot := t.boot, flt := t.flt, hwb := t.hwb } ∧
        t.boot.started = true ∧ t.boot.startTick = s.now ∧ t.boot.step = 1#8 ∧ t.boot.stepTick = s.now ∧ t.boot.left = [(0, 0)] ∧
        t.flt = { s.flt with refLost := [] } ∧ t.hwb = { s.hwb with startB := s.time.tickB })) ∧
  (∀ (i : Fin 9) (s : State),
    (s.boot.started = false →
      ∃ t, exec (.pgLow i) s = .next t ∧ t = { s with pins := t.pins, tap := t.tap } ∧
        t.pins = { s.pins with pg := s.pins.pg &&& ~~~(BitVec.ofNat 9 (2 ^ i.val)) }) ∧
    (s.boot.started = true → s.flt.safe = false →
      ∃ t, exec (.pgLow i) s = .next t ∧ t.flt.safe = true ∧ t.pins.safeN = false ∧ t.pins.pg.getLsbD i.val = false)) ∧
  (∀ s : State, s.safeState.flt.safe = true ∧ s.safeState.pins = { s.pins with safeN := false, epTx := false } ∧
    s.safeState.boot.started = true ∧ s.safeState.time.tickB = s.time.tickB ∧ s.safeState.hwb = { s.hwb with fault := true, held := none } ∧
    s.safeState.hwa = State.reset.hwa ∧ s.safeState.mbx = State.reset.mbx ∧ s.safeState.tly = State.reset.tly ∧
    s.safeState.mem = State.reset.mem ∧ (∀ k, s.safeState.dieState k = State.reset.dieState k) ∧
    s.safeState.boot.half0 = s.boot.half0 ∧ s.safeState.sec.roots = s.sec.roots) ∧
  (∀ (r : Fin 11) (s : State), s.boot.started = true → s.flt.safe = false →
    exec (.railFault r) s = .next s.safeState ∧
    (s.hwb.first = true → s.hwb.lastB + 10100 < s.time.tickB → exec .sentryWindowExpiry s = .next s.safeState) ∧
    (s.hwb.first = true → s.time.tickB ≤ s.hwb.lastB + 10100 → exec .sentryWindowExpiry s = .next s) ∧
    (s.hwb.first = false → s.hwb.startB + 200000000 ≤ s.time.tickB → exec .firstSentryTimeout s = .next s.safeState) ∧
    (s.hwb.first = true → exec .firstSentryTimeout s = .next s)) ∧
  (∀ s : State, s.islandOn false = true →
    (s.hwa.lastSentry + 10000 ≤ s.now →
      ∃ t, exec .sentryMessageSend s = .next t ∧ t = { s with hwa := t.hwa, hwb := t.hwb } ∧ t.hwa = { s.hwa with lastSentry := s.now } ∧
        t.hwb = { s.hwb with
          sent := s.hwb.sent ++ [{ tick := BitVec.ofNat 32 s.now, fault := false, halt := decide (s.boot.state = 2#2) }] }) ∧
    (s.now < s.hwa.lastSentry + 10000 → exec .sentryMessageSend s = .next s)) ∧
  (∀ (a : BitVec 32) (h : List (BitVec 32 × Nat)) (s : State), s.islandOn true = true → h = ((a, s.time.tickB) :: s.hwb.history).take 100 →
    ((s.hwb.first = true → s.hwb.lastB + 9900 ≤ s.time.tickB ∧ s.time.tickB ≤ s.hwb.lastB + 10100) →
      (h.length < 100 ∨ clockDrift h = false) →
      ∃ t, exec (.sentryMessage a true false false) s = .next t ∧ t = { s with pins := t.pins, hwb := t.hwb } ∧
        t.pins = { s.pins with safeN := true } ∧
        t.hwb = { s.hwb with first := true, lastB := s.time.tickB, history := h, sent := s.hwb.sent.drop 1 }) ∧
    (∀ crc fault halt, crc = false ∨ fault = true ∨ halt = true → exec (.sentryMessage a crc fault halt) s = .next s.safeState) ∧
    (s.hwb.first = true → s.time.tickB < s.hwb.lastB + 9900 ∨ s.hwb.lastB + 10100 < s.time.tickB → exec (.sentryMessage a true false false) s = .next s.safeState) ∧
    (h.length = 100 → clockDrift h = true → exec (.sentryMessage a true false false) s = .next s.safeState)) ∧
  (∀ (d : BitVec 32) (s : State), s.booting = true → s.boot.left = [(0, 0)] → s.boot.step.toNat = 1 ∨ s.boot.step.toNat = 2 →
    ∃ t, exec (.bootStepComplete 0 0 1 d) s = .next t ∧ t = { s with boot := t.boot } ∧ t.boot.step = s.boot.step + 1 ∧
      t.boot.stepTick = s.now ∧ t.boot.left = [(0, 0)] ∧ t.boot.state = 0#2) ∧
  (∀ (o : Byte) (d : BitVec 32) (s : State), s.booting = true → s.boot.left = [(0, 0)] → 1 ≤ s.boot.step.toNat → s.boot.step.toNat ≤ 3 →
    o = 2#8 ∨ o = 3#8 →
    ∃ t, exec (.bootStepComplete 0 0 o d) s = .next t ∧ t = { s with boot := t.boot } ∧ t.boot.state = 2#2 ∧ t.boot.left = [] ∧
      t.boot.failStep = s.boot.step ∧ t.boot.failOut = o ∧ t.boot.failKind = 0#8 ∧ t.boot.failIdx = 0#8) ∧
  (∀ (k : Die) (o : Byte) (d : BitVec 32) (rest : List (Nat × Nat)) (s : State), s.booting = true → s.boot.step = 7#8 →
    s.boot.left = (3, k.val) :: rest → rest ≠ [] → (3, k.val) ∉ rest →
    (o = 1#8 → s.dieFits k = true →
      ∃ t, exec (.bootStepComplete 3 (BitVec.ofNat 8 k.val) o d) s = .next t ∧ t = { s with boot := t.boot } ∧ t.boot.left = rest ∧
        t.boot.step = 7#8 ∧ t.boot.dieDis = s.boot.dieDis) ∧
    (o = 2#8 ∨ o = 1#8 ∧ s.dieFits k = false →
      ∃ t, exec (.bootStepComplete 3 (BitVec.ofNat 8 k.val) o d) s = .next t ∧ t = { s with boot := t.boot } ∧
        t.boot.dieDis.getLsbD k.val = true ∧ t.boot.failStep = 7#8 ∧ t.boot.failOut = 2#8 ∧ t.boot.failKind = 3#8 ∧
        t.boot.failIdx = BitVec.ofNat 8 k.val)) ∧
  (∀ (x : Byte) (d : BitVec 32) (m : BitVec 2) (s : State), s.booting = true → s.boot.step = 12#8 → s.boot.left = [(6, x.toNat)] →
    s.chooseMaster = some m →
    ∃ t, exec (.bootStepComplete 6 x 1 d) s = .next t ∧ t.mbx = { s.mbx with master := m, ready := true, ifVer := 1#8 } ∧
      t.tly = { s.tly with readyTick := some s.now } ∧ t.pins = { s.pins with epTx := true } ∧ t.boot.state = 1#2 ∧
      t.boot.step = 0x0D#8 ∧ s.sec.rollback ≤ t.sec.rollback ∧ t.mem = s.mem) ∧
  (∀ s : State, s.booting = true →
    (s.boot.stepTick + stepMax s.boot.step.toNat < s.now →
      (s.boot.left = [] → ∃ t, exec .bootStepTimeout s = .next t ∧ t = { s with boot := { s.boot with state := 2#2 } }) ∧
      (s.boot.left = [(0, 0)] → ∃ t, exec .bootStepTimeout s = .next t ∧ t = { s with boot := t.boot } ∧ t.boot.state = 2#2 ∧
        t.boot.failStep = s.boot.step ∧ t.boot.failOut = 3#8)) ∧
    (s.now ≤ s.boot.stepTick + stepMax s.boot.step.toNat → exec .bootStepTimeout s = .next s))

/-- The TAP (R502 to R504, Tables 26-8 and 26-9). Each instruction becomes current; PRELOAD loads the cells, EXTEST drives them and WIREPAT
starts a run only while RESET_N is asserted and every power-good input reads high, else BYPASS is current instead; a run that
ends sets its result, where an HBM interface without its reference fails. No instruction changes anything else in the module. Where RESET_N
is released with EXTEST or WIREPAT current, BYPASS is current first, and the start goes on. -/
def Obligations.TapInstructions : Prop :=
  (∀ s : State,
    (∃ t, exec .idcode s = .next t ∧ t = { s with tap := { s.tap with ir := 0x01#8, driven := false, wireRun := false } }) ∧
    (∃ t, exec .bypass s = .next t ∧ t = { s with tap := { s.tap with ir := 0xFF#8, driven := false, wireRun := false, bypass := false } }) ∧
    (∃ t, exec .sample s = .next t ∧ t = { s with tap := t.tap, freeCnt := t.freeCnt } ∧
      t.tap = { s.tap with ir := 0x02#8, driven := false, wireRun := false, bound := t.tap.bound })) ∧
  (∀ (v : List Bool) (s : State),
    ∃ t, exec (.preload v) s = .next t ∧ t = { s with tap := { s.tap with ir := 0x03#8, driven := false, wireRun := false, bound := v } }) ∧
  (∀ s : State, s.pins.resetN = false → s.pins.pg = 0x1FF#9 →
    (∃ t, exec .extest s = .next t ∧ t = { s with tap := { s.tap with ir := 0x04#8, driven := true, wireRun := false } }) ∧
    (∃ t, exec .wirepat s = .next t ∧ t = { s with tap := t.tap } ∧ t.tap = { s.tap with
      ir := 0x20#8
      driven := false
      wireRun := true
      done := false
      hbmFail := 0#4
      loftFail := 0#4
      iodFail := 0#4
      ringFail := 0#4 })) ∧
  (∀ s : State, s.pins.resetN = true ∨ s.pins.pg ≠ 0x1FF#9 →
    (∃ t, exec .extest s = .next t ∧ t = { s with tap := { s.tap with ir := 0xFF#8, driven := false, wireRun := false, bypass := false } }) ∧
    (∃ t, exec .wirepat s = .next t ∧ t = { s with tap := { s.tap with ir := 0xFF#8, driven := false, wireRun := false, bypass := false } })) ∧
  (∀ (hbm loft iod ring : BitVec 4) (s : State),
    (s.tap.wireRun = true →
      ∃ t, exec (.wirepatDone hbm loft iod ring) s = .next t ∧ t = { s with tap := t.tap } ∧
        t.tap = { s.tap with
          wireRun := false
          done := true
          hbmFail := t.tap.hbmFail
          loftFail := loft
          iodFail := iod
          ringFail := ring } ∧
        ∀ k < 4, t.tap.hbmFail.getLsbD k = (hbm.getLsbD k || Tab.get false s.flt.refLost k)) ∧
    (s.tap.wireRun = false → exec (.wirepatDone hbm loft iod ring) s = .next s)) ∧
  (∀ s : State, s.tap.ir = 0x04#8 ∨ s.tap.ir = 0x20#8 →
    ∃ t, exec .resetNRelease s = .next t ∧ t.tap = { s.tap with ir := 0xFF#8, driven := false, wireRun := false } ∧
      t.pins = { s.pins with resetN := true } ∧ (s.boot.started = false → s.pins.pg = 0x1FF#9 → t.boot.started = true ∧ t.boot.step = 1#8))

/-- Progress monitors (R401 to R404, R415, R419, Table 20-4). A sheaf that runs past its limit is recorded, its engine is reset and the sheaf
waits again at the head of its lane; the third expiry in 100,000,000 ticks fails the unit. An output stage past its limit is an uncorrected
error of its epoch and resets the Blocker. A fabric tracker with an entry outstanding for more than 50,000 ticks, of which none has retired for
longer, fences its die, and so does a deputy after 30,000 ticks; a link on which a request waits for more than 10,000 ticks is fenced, and on a
link that has already cost its die a reset the die fails. A hung Reeve clears CAN_CMD. Before its limit no monitor changes anything. -/
def Obligations.MonitorsExpire : Prop :=
  (∀ (u : Fin 28) (r : Running) (s : State), quiet s = true → (s.eng u).running = some r → s.awake = true →
    (s.now ≤ r.tick + sheafLimit r.sheaf.bound → exec (.sheafMonitorExpiry u) s = .next s) ∧
    (r.tick + sheafLimit r.sheaf.bound < s.now → r.sheaf.src = .graph → r.dropped = false → r.sheaf.home = u.val → r.sheaf.expired = 0 →
      (u.val < 24 ∨ s.bpStage (u.val - 24) = none) →
      (((s.eng u).expiries.filter (fun t => decide (s.now < t + 100000000))).length < 2 →
        ∃ t sc, exec (.sheafMonitorExpiry u) s = .next t ∧ logged s t 2 (unitKind u) (unitIdx u) 0x20 1 ∧ t.mem = s.mem ∧
          sc = (s.ctxOf r.sheaf.index.ctx).sc ∧ (t.eng u).running = none ∧ (t.eng u).resetting = true ∧
          (t.eng u).failed = (s.eng u).failed ∧ (t.eng u).lane sc = { r.sheaf with expired := 1 } :: (s.eng u).lane sc ∧
          ∀ i, i ≠ u.val → t.eng i = s.eng i) ∧
      (2 ≤ ((s.eng u).expiries.filter (fun t => decide (s.now < t + 100000000))).length →
        ∃ t, exec (.sheafMonitorExpiry u) s = .next t ∧ logged s t 2 (unitKind u) (unitIdx u) 0x20 7 ∧ t.mem = s.mem ∧
          (t.eng u).failed = true ∧ (t.eng u).running = none ∧ ∀ i, i ≠ u.val → t.eng i = s.eng i))) ∧
  (∀ (k : Die) (g : Stage) (c : TrajCfg) (o : Nat) (s : State), s.awake = true → s.bpStage k = some g → s.out.cfg = some c →
    s.openTickOf g.epoch = some o → (s.eng (24 + k.val)).running = none → s.inst? g.epoch g.ctx = none →
    (o + c.outTicks + 600 < s.now →
      ∃ u : State, exec (.outputStageMonitorExpiry k) s = .next u.settle ∧ logged s u 2 3 k.val 0x20 2 ∧ (u.eng (24 + k.val)).resetting = true ∧
        (∀ e, s.openEp? g.epoch = some e → (u.openEp? g.epoch).map (·.withhold) = some (e.withhold ||| 2#32)) ∧ u.mem = s.mem) ∧
    (s.now ≤ o + c.outTicks + 600 → exec (.outputStageMonitorExpiry k) s = .next s.settle)) ∧
  (∀ (k : Die) (j : Fin 2) (s : State), quiet s = true → s.awake = true → s.dieRuns k = true →
    (s.trackerStuck k = true →
      ∃ t kind unit, exec (.fabricMonitorExpiry k) s = .next t ∧ logged s t 2 kind unit 0x20 4 ∧ t.dieState k = .fenced ∧
        t.flt.fence.getLsbD k.val = true ∧ t.mem = s.mem ∧ ∀ i, i ≠ k.val → t.dieState i = s.dieState i) ∧
    (s.trackerStuck k = false → exec (.fabricMonitorExpiry k) s = .next s) ∧
    (s.now ≤ Tab.get 0 s.flt.upAt k + 30000 → exec (.deputyMonitorExpiry k j) s = .next s) ∧
    (Tab.get 0 s.flt.upAt k + 30000 < s.now → ∃ t, exec (.deputyMonitorExpiry k j) s = .next t ∧ logged s t 2 0x0E (2 * k.val + j.val) 0x20 4 ∧ t.dieState k = .fenced ∧
      t.flt.fence.getLsbD k.val = true ∧ t.mem = s.mem ∧ ∀ i, i ≠ k.val → t.dieState i = s.dieState i)) ∧
  (∀ (l : Fin 8) (s : State), quiet s = true → s.linkStuck l = false → exec (.linkMonitorExpiry l) s = .next s) ∧
  (∀ (l : Fin 8) (s : State), s.awake = true → s.linkOk l = true → s.linkLive l = true → s.linkStuck l = true →
    (quiet s = true → Tab.get false s.flt.linkBad l = false →
      ∃ t, exec (.linkMonitorExpiry l) s = .next t ∧ t = { s with flt := t.flt, fab := t.fab, freeCnt := t.freeCnt } ∧
        logged s t 2 (linkKind l).1 (linkKind l).2 0x20 0 ∧ t.linkOk l = false ∧ ∀ i, i ≠ l.val → t.linkOk i = s.linkOk i) ∧
    (Tab.get false s.flt.linkBad l = true →
      ∃ u : State, exec (.linkMonitorExpiry l) s = .next u.settle ∧ u.dieState (linkDie l) = .failed ∧ ∀ k, k ≠ linkDie l → u.dieState k = s.dieState k)) ∧
  (∀ s : State, quiet s = true → s.islandOn false = true →
    (s.now ≤ s.boot.startTick + 30000 → exec .reeveMonitorExpiry s = .next s) ∧
    (s.flt.reeveHung = false → s.boot.startTick + 30000 < s.now →
      ∃ t, exec .reeveMonitorExpiry s = .next t ∧ t = { s with flt := t.flt, freeCnt := t.freeCnt } ∧ logged s t 3 0x0F 0 0x20 8 ∧
        t.flt.reeveHung = true ∧ t.canCmd = false) ∧
    (s.flt.reeveHung = true → exec .reeveMonitorExpiry s = .next s))

/-- A step of the return of die k has failed: recorded with ACTION 7, the die failed, the others as before. -/
def stepFailed (k : Die) (s t : State) : Prop :=
  t = { s with flt := t.flt, boot := t.boot, freeCnt := t.freeCnt } ∧ t.dieState k = .failed ∧ (∃ kind unit cls, logged s t 2 kind unit cls 7) ∧
    ∀ j, j ≠ k.val → t.dieState j = s.dieState j

/-- The return of units to service (R404, R407, R411 to R415, Tables 20-5 and 20-6). A fenced die that has drained goes into reset and loses its
memories; images, self-test, links and injection bring it to the next step, a failure of one fails it; at the end it runs again with a new
GEN and FENCED cleared. A smaller unit leaves reset, which may pass a rehearsal (R394). A suspect whose fault recurs fails its unit.
A link is retrained and counted at both ends, or costs its die a reset. -/
def Obligations.UnitsReturnToService : Prop :=
  (∀ (k : Die) (s : State), s.awake = true → s.thm.shutdown = false →
    (s.dieState k = .fenced →
      ∃ u : State, exec (.dieFenceDrained k) s = .next u.settle ∧ u.dieState k = .inReset ∧
        (∀ a, k.val * stackBytes ≤ a → a < (k.val + 1) * stackBytes → u.byteAt a = 0#8) ∧
        (∀ a, bankAddr k 0 ≤ a → a < bankAddr k 0 + 0x10000000 → u.byteAt a = 0#8) ∧
        ∀ e < 28, unitDie e = k.val → (u.eng e).running = none ∧ (u.eng e).lanes = []) ∧
    (s.dieState k ≠ .fenced → exec (.dieFenceDrained k) s = .next s) ∧
    (s.dieState k = .inReset →
      ∃ t, exec (.dieImagesLoaded k true) s = .next t ∧ t = { s with flt := t.flt } ∧ t.dieState k = .testing) ∧
    (s.dieState k = .testing →
      ∃ t, exec (.dieSelfTestDone k true) s = .next t ∧ t = { s with flt := t.flt, hmc := t.hmc } ∧ t.dieState k = .linking ∧
        (t.hmcOf k).state = 1#2 ∧ (t.hmcOf k).trainRes = 0#2 ∧ ∀ i, i ≠ k.val → t.hmcOf i = s.hmcOf i) ∧
    (s.dieState k = .linking →
      ∃ t, exec (.dieLinksTrained k true) s = .next t ∧ t = { s with flt := t.flt } ∧ t.dieState k = .injecting) ∧
    (s.dieState k = .injecting →
      ∃ u : State, exec (.dieInjectionDone k true) s = .next u.settle ∧ u.dieState k = .running ∧ u.flt.fence.getLsbD k.val = false ∧
        Tab.get 0#8 u.flt.gens k = Tab.get 0#8 s.flt.gens k + 1 ∧ (u.opc k).levelCmd = (s.opc k).keepLvl ∧
        (∀ l < 8, (linkEnds l).1 = k.val ∨ (linkEnds l).2 = k.val → u.linkOk l = true) ∧
        ∀ i, i ≠ k.val → u.dieState i = s.dieState i) ∧
    (s.dieState k = .inReset → ∃ t, exec (.dieImagesLoaded k false) s = .next t ∧ stepFailed k s t) ∧
    (s.dieState k = .testing → ∃ t, exec (.dieSelfTestDone k false) s = .next t ∧ stepFailed k s t) ∧
    (s.dieState k = .linking → ∃ t, exec (.dieLinksTrained k false) s = .next t ∧ stepFailed k s t) ∧
    (s.dieState k = .injecting → ∃ t, exec (.dieInjectionDone k false) s = .next t ∧ stepFailed k s t)) ∧
  (∀ (i : Fin 28) (s : State), quiet s = true → s.awake = true →
    (s.pair.rehAt = none →
      (∃ t, exec (.unitResetDone 1 i) s = .next t ∧ t = { s with cx := t.cx } ∧ t.eng i = { s.eng i with resetting := false } ∧
        ∀ u, u ≠ i.val → t.eng u = s.eng u) ∧
      (i.val < 8 →
        ∃ t, exec (.unitResetDone 2 i) s = .next t ∧ t = { s with flt := t.flt } ∧ Tab.get false t.flt.clusters i = false ∧
          ∀ c, c ≠ i.val → Tab.get false t.flt.clusters c = Tab.get false s.flt.clusters c) ∧
      (i.val < 4 → s.thm.shutdown = false →
        ∃ t, exec (.unitResetDone 5 i) s = .next t ∧ t = { s with flt := t.flt } ∧ Tab.get false t.flt.iodSub i = false ∧
          ∀ c, c ≠ i.val → Tab.get false t.flt.iodSub c = Tab.get false s.flt.iodSub c) ∧
      (i.val < 4 → s.dieRuns i = true → Tab.get false s.flt.stackRst i = true → (s.hmcOf i).state = 2#2 → s.sec.replays = [] →
        ∃ t, exec (.unitResetDone 4 i) s = .next t ∧ t = { s with flt := t.flt } ∧ Tab.get false t.flt.stackRst i = false)) ∧
    (∀ a, s.pair.rehAt = some (a, i.val) → s.pair.rehKind = 0#4 → s.pair.pstate = 2#3 → s.now ≤ a + 2000000000 →
      ∃ t, exec (.unitResetDone 1 i) s = .next t ∧ t = { s with cx := t.cx, pair := t.pair } ∧ (t.eng i).resetting = false ∧
        t.pair = { s.pair with rehAt := none, rehLast := 1#2, rehPass := s.pair.rehPass + 1 })) ∧
  (∀ (p : Suspect) (s : State), quiet s = true → s.flt.suspects = [p] → s.cx.insts = [] → (s.eng p.unit).running = none → p.unit < 24 →
    (∃ t, exec (.suspectReplay false) s = .next t ∧ t = { s with flt := { s.flt with suspects := [] } }) ∧
    (∃ t, exec (.suspectReplay true) s = .next t ∧ t.flt.suspects = [] ∧ logged s t 2 (unitKind p.unit) (unitIdx p.unit) p.cls 7 ∧
      (t.eng p.unit).failed = true ∧ (∀ i, i ≠ p.unit → t.eng i = s.eng i) ∧ t.mem = s.mem)) ∧
  (∀ s : State, quiet s = true → s.flt.suspects = [] → ∀ b, exec (.suspectReplay b) s = .next s) ∧
  (∀ (l : Fin 8) (a b : Nat) (s : State), quiet s = true → s.awake = true → s.linkOk l = false → linkEnds l = (a, b) →
    (∃ t, exec (.linkRetrainDone l true) s = .next t ∧ t = { s with flt := t.flt } ∧ t.linkOk l = true ∧
      Tab.get 0#8 t.flt.retrains a = satInc (Tab.get 0#8 s.flt.retrains a) ∧
      Tab.get 0#8 t.flt.retrains b = satInc (Tab.get 0#8 s.flt.retrains b) ∧ ∀ i, i ≠ l.val → t.linkOk i = s.linkOk i) ∧
    (s.dieRuns (linkDie l) = true →
      ∃ t, exec (.linkRetrainDone l false) s = .next t ∧ logged s t 2 (linkKind l).1 (linkKind l).2 0x21 4 ∧
        Tab.get false t.flt.linkBad l = true ∧ t.dieState (linkDie l) = .fenced ∧ t.linkOk l = false ∧ t.mem = s.mem))

/-- A training attempt has begun: sequence numbers and credits start anew, IDENT waits to go, and the twin is not known. -/
def trainsAnew (s t : State) : Prop :=
  t = { s with dnp := t.dnp, pair := t.pair } ∧ t.pair = { s.pair with twin := none, hbSent := false } ∧
    t.dnp.state = 1 ∧ t.dnp.changed = s.time.dnp ∧ t.dnp.txSeq = 0#12 ∧ t.dnp.rxSeq = 0#12 ∧ t.dnp.unacked = [] ∧ t.dnp.credits = [] ∧
    Tab.get [] t.dnp.out 0 = msgBytes (.ident s.pair.serial (BitVec.ofNat 8 (bitsAt (s.dieIdWord 4).toNat 16 8)) 1#8)

/-- A link fault has been seen: the link is lost; a module that goes on alone does, a standby begins to decide (R373, R385). -/
def linkFaultSeen (o : Host.Outcome State Fault Refusal) (s : State) : Prop :=
  (s.pair.pstate = 0#3 → ∃ t, o = .next t ∧ t = { s with dnp := t.dnp, pair := t.pair, ing := t.ing, flt := t.flt, freeCnt := t.freeCnt } ∧
    linkLost s t ∧ t.pair.pstate = 0#3 ∧ ∀ b, t.stream b = { s.stream b with fwdQ := [] }) ∧
  (s.pair.pstate = 2#3 → ∃ t, o = .next t ∧ linkLost s t ∧ t.pair.pstate = 5#3 ∧ t.mbx.role = false ∧ t.mem = s.mem)

/-- The Denpa link (R372 to R375). Training starts sequence numbers anew with IDENT to go, comes up with credits once IDENT has come, or fails
and is tried again 1,000,000 periods later; after a link fault it is retried after 10,000. Every four periods a frame goes out: a replayed one,
else data of the lowest channel with credit, else an idle one. A frame in order joins its channel and whole messages wait; one out of order
or with a bad CRC asks for a replay, and the fourth bad CRC in a row, a late acknowledgement or a starved channel is a link
fault, on which a standby begins to decide. -/
def Obligations.DenpaLinkCarriesFrames : Prop :=
  (∀ s : State, s.dnpOn = true → s.dnp.state = 1 →
    (∃ t, exec (.denpaTrainingDone false) s = .next t ∧ t = { s with dnp := { s.dnp with state := 3, changed := s.time.dnp, out := [], msgs := [] } }) ∧
    (s.pair.twin.isSome = true → s.pair.pstate ≠ 3#3 → s.pair.pstate ≠ 4#3 → s.pair.rehAt = none →
      ∃ t, exec (.denpaTrainingDone true) s = .next t ∧ t = { s with dnp := t.dnp } ∧
        t.dnp = { s.dnp with state := 2, changed := s.time.dnp, credits := [(1, 32), (2, 512), (3, 8192)] }) ∧
    (s.pair.twin = none → exec (.denpaTrainingDone true) s = .next s)) ∧
  (∀ s : State, s.dnpOn = true →
    (s.dnp.state = 3 → s.dnp.changed + 1000000 ≤ s.time.dnp → ∃ t, exec .denpaTrainingRetry s = .next t ∧ trainsAnew s t) ∧
    (s.dnp.state = 3 → s.time.dnp < s.dnp.changed + 1000000 → exec .denpaTrainingRetry s = .next s) ∧
    (s.dnp.state = 0 → s.dnp.changed + 10000 ≤ s.time.dnp → ∃ t, exec .denpaRetrainStart s = .next t ∧ trainsAnew s t) ∧
    (s.dnp.state = 0 → s.time.dnp < s.dnp.changed + 10000 → exec .denpaRetrainStart s = .next s)) ∧
  (∀ s : State, s.dnpOn = true → s.dnp.state = 1 ∨ s.dnp.state = 2 →
    (s.dnp.lastTx + 4 ≤ s.time.dnp →
      (∀ f r, s.dnp.replay = f :: r →
        ∃ t, exec .denpaFrameTx s = .next t ∧ t = { s with dnp := t.dnp } ∧ t.dnp = { s.dnp with
          replay := r
          sent := s.dnp.frame f.ch f.fseq f.payload :: s.dnp.sent
          nak := false
          lastTx := s.time.dnp }) ∧
      (∀ c l, s.dnp.replay = [] → s.dnp.ready = some c → Tab.get [] s.dnp.out c = l →
        ∃ t, exec .denpaFrameTx s = .next t ∧ t = { s with dnp := t.dnp } ∧
          t.dnp = { s.dnp with
            txSeq := s.dnp.txSeq + 1
            unacked := s.dnp.unacked ++ [{ fseq := s.dnp.txSeq + 1, ch := c, payload := l.take 248, sent := s.time.dnp }]
            out := t.dnp.out
            credits := t.dnp.credits
            starved := t.dnp.starved
            sent := s.dnp.frame c (s.dnp.txSeq + 1) (l.take 248) :: s.dnp.sent
            nak := false
            lastTx := s.time.dnp } ∧
          Tab.get [] t.dnp.out c = l.drop 248 ∧ (∀ d, d ≠ c → Tab.get [] t.dnp.out d = Tab.get [] s.dnp.out d) ∧
          Tab.get 0 t.dnp.credits c = (if c = 0 then Tab.get 0 s.dnp.credits 0 else Tab.get 0 s.dnp.credits c - 1)) ∧
      (s.dnp.replay = [] → s.dnp.ready = none →
        ∃ t, exec .denpaFrameTx s = .next t ∧ t = { s with dnp := t.dnp } ∧ t.dnp = { s.dnp with
          sent := s.dnp.frame 15 s.dnp.txSeq [] :: s.dnp.sent
          nak := false
          lastTx := s.time.dnp })) ∧
    (s.time.dnp < s.dnp.lastTx + 4 → exec .denpaFrameTx s = .next s)) ∧
  (∀ (f : DFrame) (s : State), calm s = true → s.dnpOn = true → s.dnp.state = 1 ∨ s.dnp.state = 2 →
    (f.crc = crc32 (frameBytes f.ch.toNat f.fseq.toNat f.ackSeq.toNat f.nak f.payload) →
      (f.ch = 15#4 → f.nak = false → s.dnp.unacked = [] → s.dnp.replay = [] →
        ∃ t, exec (.denpaFrameRx f) s = .next t ∧ t = { s with dnp := t.dnp } ∧
          t.dnp = { s.dnp with crcRun := 0, nak := s.dnp.nak || decide (f.fseq ≠ s.dnp.rxSeq) }) ∧
      (∀ a r, f.ch = 15#4 → s.dnp.unacked = a :: r → a.fseq = f.ackSeq →
        ∃ t, exec (.denpaFrameRx f) s = .next t ∧ t = { s with dnp := t.dnp } ∧ t.dnp.unacked = r ∧
          Tab.get 0 t.dnp.acked a.ch = Tab.get 0 s.dnp.acked a.ch + a.payload.length ∧ (f.nak = true → t.dnp.replay = r)) ∧
      (∀ c l q, f.ch.toNat = c → c < 4 → f.fseq = s.dnp.rxSeq + 1 → l = Tab.get [] s.dnp.inp c ++ pad 248 f.payload →
        q = parseMsgs (l.length + 1) l →
        ∃ t, exec (.denpaFrameRx f) s = .next t ∧ t = { s with dnp := t.dnp } ∧ t.dnp.rxSeq = f.fseq ∧ t.dnp.nak = s.dnp.nak ∧
          t.dnp.msgs = s.dnp.msgs ++ q.1.filterMap id ∧ Tab.get [] t.dnp.inp c = q.2 ∧
          Tab.get [] t.dnp.out 0 = Tab.get [] s.dnp.out 0 ++ (if c = 0 then [] else msgBytes (.credit (BitVec.ofNat 8 c) 1#32)) ∧
          (∀ n, c = 2 → Tab.get [] s.dnp.inp c = [] → f.payload = msgBytes (.digestAck n) → t.dnp.msgs = s.dnp.msgs ++ [.digestAck n])) ∧
      (f.ch ≠ 15#4 → f.fseq ≠ s.dnp.rxSeq + 1 →
        ∃ t, exec (.denpaFrameRx f) s = .next t ∧ t = { s with dnp := t.dnp } ∧ t.dnp.nak = true ∧ t.dnp.rxSeq = s.dnp.rxSeq ∧
          t.dnp.msgs = s.dnp.msgs ∧ t.dnp.inp = s.dnp.inp)) ∧
    (f.crc ≠ crc32 (frameBytes f.ch.toNat f.fseq.toNat f.ackSeq.toNat f.nak f.payload) → s.dnp.crcRun < 3 →
      ∃ t, exec (.denpaFrameRx f) s = .next t ∧ t = { s with dnp := { s.dnp with crcRun := s.dnp.crcRun + 1, nak := true } })) ∧
  (∀ (f : DFrame) (ch : Fin 4) (a : Nat) (s : State), calm s = true → s.linkUp = true →
    (s.dnpOn = true → f.crc ≠ crc32 (frameBytes f.ch.toNat f.fseq.toNat f.ackSeq.toNat f.nak f.payload) → 3 ≤ s.dnp.crcRun →
      linkFaultSeen (exec (.denpaFrameRx f) s) s) ∧
    ((∃ x ∈ s.dnp.unacked, x.sent + 2000 < s.time.dnp) → s.pair.pstate = 0#3 →
      ∃ t, exec .denpaAckTimeout s = .next t ∧ t = { s with dnp := t.dnp, pair := t.pair, ing := t.ing, flt := t.flt, freeCnt := t.freeCnt } ∧
        linkLost s t ∧ t.pair.pstate = 0#3) ∧
    ((∃ x ∈ s.dnp.unacked, x.sent + 2000 < s.time.dnp) → linkFaultSeen (exec .denpaAckTimeout s) s) ∧
    (Tab.get none s.dnp.starved ch = some a → a + 100000 ≤ s.time.dnp → s.pair.pstate = 0#3 →
      ∃ t, exec (.denpaCreditTimeout ch) s = .next t ∧ t = { s with dnp := t.dnp, pair := t.pair, ing := t.ing, flt := t.flt, freeCnt := t.freeCnt } ∧
        linkLost s t ∧ t.pair.pstate = 0#3) ∧
    (Tab.get none s.dnp.starved ch = some a → a + 100000 ≤ s.time.dnp → linkFaultSeen (exec (.denpaCreditTimeout ch) s) s)) ∧
  (∀ (ch : Fin 4) (s : State), calm s = true →
    ((∀ x ∈ s.dnp.unacked, s.time.dnp ≤ x.sent + 2000) → exec .denpaAckTimeout s = .next s) ∧
    (Tab.get none s.dnp.starved ch = none → exec (.denpaCreditTimeout ch) s = .next s))

/-- The timers of the pair (R385 to R387, R394, R395, R498, Tables 19-8 to 19-10). ROLE_HB goes out every 10,000 ticks; without one for 200,000
ticks a commander goes on alone and a standby decides. PAIR_ALIVE_OUT toggles every 50,000 ticks while CAN_CMD is set; a level
that has held for 1,000 ticks is an edge; a module that decides, or sees neither twin nor edges, takes the role after 290,000
silent ticks, and one that decides with edges is OUT. A rehearsal that is due injects its fault, and fails after 2,000,000,000 ticks. -/
def Obligations.PairTimersAct : Prop :=
  (∀ s : State, calm s = true → s.roleOn = true →
    (s.pair.lastHb + 10000 ≤ s.now → s.linkUp = true → s.pair.pstate = 0#3 →
      ∃ t, exec .roleHbSend s = .next t ∧ t = { s with dnp := t.dnp, pair := t.pair } ∧
        t.pair = { s.pair with lastHb := s.now, hbSent := true } ∧
        Tab.get [] t.dnp.out 1 = Tab.get [] s.dnp.out 1 ++ msgBytes (.roleHb 0#8 s.canCmd s.pair.term s.tly.opened
          (match s.tly.recs.getLast? with | some r => r.epoch | none => 0#64) s.tly.configGen)) ∧
    (s.now < s.pair.lastHb + 10000 → exec .roleHbSend s = .next s)) ∧
  (∀ (a e : Nat) (s : State), s.roleOn = true → s.pair.twinHb = some a → a + 200000 ≤ s.now → s.pair.lastEdge = some e →
    s.now < e + 290000 → s.tly.openEps = [] → s.cmds.active = [] → s.pair.carried = [] → s.pair.swapAt = none →
    (s.pair.pstate = 1#3 →
      ∃ t, exec .roleHbTimeout s = .next t ∧ t = { s with pair := t.pair, mbx := t.mbx, ing := t.ing } ∧ t.pair.pstate = 0#3 ∧
        t.pair.term = s.pair.term ∧ t.pair.twinOpen = [] ∧ t.mbx.role = true) ∧
    (s.pair.pstate = 2#3 →
      ∃ t, exec .roleHbTimeout s = .next t ∧ t = { s with pair := t.pair, mbx := t.mbx } ∧ t.pair.pstate = 5#3 ∧ t.pair.since = s.now ∧
        t.mbx.role = false)) ∧
  (∀ (a : Nat) (s : State), calm s = true → s.pair.twinHb = some a → s.now < a + 200000 → exec .roleHbTimeout s = .next s) ∧
  (∀ s : State, s.roleOn = true → s.canCmd = true →
    (s.pair.lastTog + 50000 ≤ s.now →
      ∃ t, exec .pairAliveToggle s = .next t ∧ t = { s with pair := { s.pair with aliveOut := !s.pair.aliveOut, lastTog := s.now } }) ∧
    (s.now < s.pair.lastTog + 50000 → exec .pairAliveToggle s = .next s)) ∧
  (∀ s : State, s.canCmd = false → exec .pairAliveToggle s = .next s) ∧
  (∀ (level : Bool) (s : State), s.islandOn false = true → 1000 ≤ s.now →
    (level ≠ s.pair.aliveIn →
      ∃ t, exec (.pairAliveInEdge level) s = .next t ∧ t = { s with pair := t.pair } ∧ t.pair = { s.pair with
        aliveIn := level
        lastEdge := some (s.now - 1000)
        edgeIn := s.pair.edgeIn || decide (s.pair.pstate = 5#3) }) ∧
    (level = s.pair.aliveIn → exec (.pairAliveInEdge level) s = .next s)) ∧
  (∀ s : State, calm s = true → s.roleOn = true →
    (s.aliveSilent = true → s.pair.pstate = 5#3 ∨ (s.pair.pstate = 4#3 ∧ s.pair.lastEdge = none) ∨
        ((s.pair.pstate = 3#3 ∨ s.pair.pstate = 4#3) ∧ s.seesTwin = false) →
      ∃ t, exec .pairAliveSilence s = .next t ∧ t = { s with pair := t.pair, mbx := t.mbx, tly := t.tly, ing := t.ing } ∧
        t.pair.pstate = 0#3 ∧ t.pair.term = s.pair.term + 1 ∧ t.mbx.role = true ∧ t.tly = { s.tly with sched := t.tly.sched }) ∧
    (s.aliveSilent = false → exec .pairAliveSilence s = .next s) ∧
    (s.pair.pstate = 0#3 ∨ s.pair.pstate = 2#3 → exec .pairAliveSilence s = .next s) ∧
    (s.pair.pstate = 5#3 → s.pair.edgeIn = true → s.pair.since + 290000 ≤ s.now → s.seesTwin = false →
      ∃ t, exec .decidingTimeout s = .next t ∧ t.pair.pstate = 4#3 ∧ t.pair.leaves = satInc s.pair.leaves ∧ t.mbx.role = false ∧
        t.mem = s.mem ∧ t.tly = s.tly) ∧
    (s.pair.edgeIn = false → exec .decidingTimeout s = .next s)) ∧
  (∀ (k x : Nat) (s : State), s.rehMay = true → s.rehPick = some (k, x) →
    ∃ u : State, exec .rehearsalDue s = .next u.settle.carryCheck ∧ u.pair.rehAt = some (s.now, x) ∧ u.pair.rehLast = 3#2 ∧ u.pair.rehKind.toNat = k ∧
      u.pair.lastReh = s.now ∧ (k = 0 → (u.eng x).resetting = true) ∧ (k = 1 → Tab.get false u.flt.clusters x = true) ∧
      (k = 2 → u.dieState x = .fenced) ∧ (k = 3 → Tab.get false u.flt.stackRst x = true) ∧ (k = 4 → u.dnp.state = 0) ∧
      (k = 5 → Tab.get false u.flt.iodSub 0 = true)) ∧
  (∀ s : State, calm s = true → s.rehMay = false → exec .rehearsalDue s = .next s) ∧
  (∀ (a x : Nat) (s : State),
    (s.pair.rehAt = some (a, x) → a + 2000000000 < s.now →
      ∃ t, exec .rehearsalTimeout s = .next t ∧
        t = { s with pair := { s.pair with rehAt := none, rehLast := 2#2, rehFail := satInc s.pair.rehFail } }) ∧
    (s.pair.rehAt = none → exec .rehearsalTimeout s = .next s))

/-- Messages of the twin (R86, R374 to R383, R386 to R391, Tables 19-3, 19-5 and 19-7). CREDIT adds credits; IDENT names the twin, or fails the
training. ROLE_HB gives the twin's state: at the first start the module with the lower serial commands and the other stands by, and a standby
whose commander has gone on alone leaves. RESIGN hands over the role, EXPEL ends membership. OPEN opens an epoch in the standby. -/
def Obligations.LinkAndRoleMessages : Prop :=
  (∀ (ch : BitVec 8) (n : BitVec 32) (s : State), calm s = true → s.linkUp = true →
    (1 ≤ ch.toNat → ch.toNat ≤ 3 →
      ∃ t, exec (.msgCredit ch n) s = .next t ∧ t = { s with dnp := t.dnp } ∧
        t.dnp = { s.dnp with msgs := s.dnp.msgs.erase (.credit ch n), credits := t.dnp.credits, starved := t.dnp.starved } ∧
        Tab.get 0 t.dnp.credits ch.toNat = Tab.get 0 s.dnp.credits ch.toNat + n.toNat ∧
        ∀ d, d ≠ ch.toNat → Tab.get 0 t.dnp.credits d = Tab.get 0 s.dnp.credits d) ∧
    (ch.toNat = 0 ∨ 3 < ch.toNat → ∃ t, exec (.msgCredit ch n) s = .next t ∧ t = { s with dnp := t.dnp } ∧ took s t (.credit ch n))) ∧
  (∀ (sn : BitVec 64) (rev v : BitVec 8) (s : State), calm s = true → s.dnpOn = true → s.dnp.state = 1 →
    (sn ≠ s.pair.serial → v = 1#8 →
      ∃ t, exec (.msgIdent sn rev v) s = .next t ∧ t = { s with dnp := t.dnp, pair := t.pair } ∧ took s t (.ident sn rev v) ∧
        t.pair = { s.pair with twin := some (sn, rev) }) ∧
    (sn = s.pair.serial ∨ v ≠ 1#8 →
      ∃ t, exec (.msgIdent sn rev v) s = .next t ∧ t = { s with dnp := t.dnp } ∧ t.dnp.state = 3 ∧ t.dnp.changed = s.time.dnp)) ∧
  (∀ (p term : BitVec 8) (can : Bool) (o d g : BitVec 64) (x : PairS) (s : State), calm s = true → s.ch1On = true →
    x = { s.pair with
      twinHb := some s.now
      twinState := p
      twinCan := can
      twinOpened := o
      twinDecided := d
      twinGen := g } →
    (s.pair.pstate = 0#3 →
      ∃ t, exec (.msgRoleHb p can term o d g) s = .next t ∧ t = { s with dnp := t.dnp, pair := x } ∧ took s t (.roleHb p can term o d g)) ∧
    (∀ sn rev, s.pair.pstate = 4#3 → p = 4#8 → s.pair.hbSent = true → s.pair.twin = some (sn, rev) →
      (s.pair.serial.toNat < sn.toNat → s.canCmd = true → s.tly.opened = 0#64 → s.tly.configGen = 0#64 →
        ∃ t, exec (.msgRoleHb p can term o d g) s = .next t ∧ t = { s with dnp := t.dnp, pair := t.pair, mbx := t.mbx } ∧
          t.pair.pstate = 1#3 ∧ t.mbx.role = true ∧ t.pair.term = s.pair.term + 1) ∧
      (sn.toNat < s.pair.serial.toNat → can = true → o = 0#64 → g = 0#64 →
        ∃ t, exec (.msgRoleHb p can term o d g) s = .next t ∧ t = { s with dnp := t.dnp, pair := t.pair, mbx := t.mbx } ∧
          t.pair.pstate = 2#3 ∧ t.mbx.role = false ∧ t.pair.term = s.pair.term)) ∧
    (s.pair.pstate = 2#3 → s.pair.twinState = 1#8 → p = 0#8 →
      ∃ t, exec (.msgRoleHb p can term o d g) s = .next t ∧ t.pair.pstate = 3#3 ∧ t.pair.leaves = satInc s.pair.leaves ∧
        t.mbx.role = false ∧ t.mem = s.mem)) ∧
  (∀ (cause : BitVec 8) (first : BitVec 64) (s : State), calm s = true → s.ch1On = true →
    (s.pair.pstate = 2#3 ∨ s.pair.pstate = 5#3 →
      (cause ≠ 3#8 → ∃ t, exec (.msgResign cause first) s = .next t ∧
        t = { s with dnp := t.dnp, pair := t.pair, mbx := t.mbx, tly := t.tly, ing := t.ing } ∧ t.pair.pstate = 0#3 ∧
        t.pair.term = s.pair.term + 1 ∧ t.mbx.role = true ∧ t.tly = { s.tly with sched := t.tly.sched }) ∧
      (cause = 3#8 → s.canCmd = true → ∃ t, exec (.msgResign cause first) s = .next t ∧
        t = { s with dnp := t.dnp, pair := t.pair, mbx := t.mbx, tly := t.tly } ∧ t.pair.pstate = 1#3 ∧
        t.pair.term = s.pair.term + 1 ∧ t.mbx.role = true ∧ t.tly = { s.tly with sched := t.tly.sched })) ∧
    (s.pair.pstate = 0#3 → ∃ t, exec (.msgResign cause first) s = .next t ∧ t = { s with dnp := t.dnp } ∧ took s t (.resign cause first))) ∧
  (∀ (n : BitVec 64) (s : State), s.ch1On = true →
    (calm s = true → s.pair.pstate = 2#3 →
      ∃ t, exec (.msgExpel n) s = .next t ∧ t.pair.pstate = 3#3 ∧ t.pair.leaves = satInc s.pair.leaves ∧ t.mbx.role = false ∧ t.mem = s.mem) ∧
    (s.pair.pstate = 2#3 → (s.openEp? n).isSome = true →
      ∃ u : State, exec (.msgExpel n) s = .next u.settle.carryCheck ∧ u = { s with dnp := u.dnp, pair := u.pair } ∧ took s u (.expel n) ∧
        u.pair = { s.pair with expelled := some n }) ∧
    (calm s = true → s.pair.pstate = 0#3 → ∃ t, exec (.msgExpel n) s = .next t ∧ t = { s with dnp := t.dnp } ∧ took s t (.expel n))) ∧
  (∀ (n : BitVec 64) (d : BitVec 32) (paired first : Bool) (l : List (BitVec 8 × BitVec 16)) (s : State), s.ch1On = true →
    (calm s = true → s.pair.pstate = 2#3 → s.pair.earlyTwin = [] → s.contributors n = [] →
      ∃ t, exec (.msgOpen n d paired first l) s = .next t ∧ t.tly.opened = n ∧ t.mem = s.mem ∧ t.mbx = s.mbx ∧ t.tly.recs = s.tly.recs ∧
        t.tly.openEps.map (fun e => (e.n, e.openTick, e.deadline, e.paired)) = [(n, s.now, d.toNat, true)]) ∧
    ((s.openEp? n).isSome = true →
      ∃ u : State, exec (.msgOpen n d paired first l) s = .next u.settle.carryCheck ∧ u = { s with dnp := u.dnp } ∧ took s u (.openMsg n d paired first l)) ∧
    (calm s = true → s.pair.pstate = 0#3 →
      ∃ t, exec (.msgOpen n d paired first l) s = .next t ∧ t = { s with dnp := t.dnp } ∧ took s t (.openMsg n d paired first l)))

/-- A commander with a standby, of which neither a resignation nor a role swap nor an output is due. -/
def commandsIdle (s : State) : Bool :=
  s.linkUp && s.pair.pstate == 1#3 && s.canCmd && s.pair.swapAt.isNone && s.out.stages.isEmpty

/-- Its one open epoch has ended here and is not withheld: it waits for what the twin says. -/
def waitsForTwin (s : State) (e : OpenEp) : Bool :=
  commandsIdle s && s.tly.openEps == [e] && e.withhold == 0#32 && e.doneTick.isSome && (s.gold? e.n).isNone

/-- The message is taken, and its word noted of the open epoch e; of an epoch whose open event is held. -/
def noted (s : State) (e : OpenEp) (m : DMsg) (x : TwinEp) : State :=
  { s with dnp := { s.dnp with msgs := s.dnp.msgs.erase m }, tly := { s.tly with openEps := [{ e with twin := x }] } }
def notedEarly (s : State) (n : BitVec 64) (m : DMsg) (x : TwinEp) : State :=
  { s with
    dnp := { s.dnp with msgs := s.dnp.msgs.erase m }
    pair := { s.pair with earlyTwin := (n, x) :: s.pair.earlyTwin.filter (fun p => p.1 ≠ n) } }

/-- Carried commands, agreement, joins and forwarded samples (R314, R378 to R382, R391). A CFG waits for its data; valid, it is answered and pends,
for a passed epoch the standby leaves. What the twin says of an epoch joins that epoch, or waits for its open event. Evidence
of both settles a mismatch: the higher level does not stand, of equal ones the commander's copy. JOIN_REQ gets the store, which
replaces the joiner's; JOIN_DONE makes the next OPEN a paired one. Forwarded units, tags and closures act on their channel. -/
def Obligations.AgreementAndJoinMessages : Prop :=
  (∀ (slot : Fin 16) (b : List Byte) (len : BitVec 64) (s u : State), calm s = true → s.ch2On = true → s.pair.pstate = 2#3 → s.pair.cfgBodies = [] →
    u = { s with
      dnp := { s.dnp with msgs := s.dnp.msgs.erase (.cfg (BitVec.ofNat 8 slot) b len) }
      pair := { s.pair with cfgGot := s.pair.cfgGot - len.toNat } } →
    (s.pair.cfgGot < len.toNat →
      ∃ t, exec (.msgCfg slot b len) s = .next t ∧
        t = { u with pair := { s.pair with cfgBodies := [(slot.val, b, len.toNat)] } }) ∧
    (len.toNat ≤ s.pair.cfgGot → (s.epochBad b).isSome = true →
      ∃ t, exec (.msgCfg slot b len) s = .next t ∧ t.pair.pstate = 3#3 ∧ t.pair.leaves = satInc s.pair.leaves ∧ t.mem = s.mem) ∧
    (∀ a, len.toNat ≤ s.pair.cfgGot → s.epochBad b = none → u.validate { u.actOf slot b with remote := true } = .ok a →
      cmdClass (bodyOpcode b) = some .epoch → s.scheduled = true →
      ∃ t, exec (.msgCfg slot b len) s = .next t ∧ t = { u with dnp := t.dnp, cmds := t.cmds, freeCnt := t.freeCnt } ∧
        t.cmds.active = [{ a with phase := .pending }] ∧ a.slot = slot.val ∧ a.opcode = bodyOpcode b ∧ a.seq = bodySeq b ∧ a.remote = true ∧
        Tab.get [] t.dnp.out 2 = Tab.get [] s.dnp.out 2 ++ msgBytes (.cfgAck (BitVec.ofNat 8 slot) 0#8 (bodySeq b) 0#32))) ∧
  (∀ (slot : Fin 16) (code : Byte) (seq : BitVec 16) (d : BitVec 32) (s : State), quiet s = true → s.ch2On = true → s.cmds.active = [] →
    (s.pair.carried = [{ slot := slot, seq := seq }] → code = 0#8 →
      ∃ t, exec (.msgCfgAck slot code seq d) s = .next t ∧ t = { s with dnp := t.dnp, pair := { s.pair with carried := [] } }) ∧
    (s.pair.carried = [] → s.pair.pstate = 0#3 → code ≠ 0#8 →
      ∃ t, exec (.msgCfgAck slot code seq d) s = .next t ∧
        t = { s with dnp := t.dnp, pair := { s.pair with joiner := false, joinRun := false, joinMark := none, joinPair := false } } ∧
        took s t (.cfgAck (BitVec.ofNat 8 slot) code seq d))) ∧
  (∀ (a : BitVec 40) (d : List Byte) (s : State), calm s = true → s.ch2On = true → s.pair.pstate = 2#3 → s.pair.cfgBodies = [] →
    clean s = true → s.judgeRange whoReeve a.toNat d.length = none →
    ∃ t, exec (.msgCfgData a d) s = .next t ∧ t = { s with dnp := t.dnp, mem := t.mem, pair := { s.pair with cfgGot := s.pair.cfgGot + d.length } } ∧
      t.bytesAt a.toNat d.length = d ∧ ∀ y, y < a.toNat ∨ a.toNat + d.length ≤ y → t.byteAt y = s.byteAt y) ∧
  (∀ (n : BitVec 64) (c wh : BitVec 32) (whole : Bool) (b : List Byte) (w : Byte) (e : OpenEp) (s : State),
    s.ch2On = true → waitsForTwin s e = true → e.n = n →
    (e.twin.inputSent = false →
      exec (.msgInput n c b) s = .next (noted s e (.input n c b) { e.twin with inputTwin := some (c.toNat, BitVec.ofNat 384 (leNat b)) })) ∧
    (e.digest = none → e.twin.evidenceSent = none →
      exec (.msgDigest n whole wh b) s = .next { noted s e (.digest n whole wh b) { e.twin with digestTwin := some (whole, wh, BitVec.ofNat 384 (leNat b)) } with
        pair := { s.pair with twinOpen := s.pair.twinOpen.filter (fun m => m ≠ n) } }) ∧
    exec (.msgDigestAck n) s = .next (noted s e (.digestAck n) { e.twin with acked := true }) ∧
    (e.digest = none → e.twin.evidenceSent = none →
      exec (.msgEvidence n w) s = .next (noted s e (.evidence n w) { e.twin with evidenceTwin := some w.toNat })) ∧
    exec (.msgProgress n w) s = .next (noted s e (.progress n w) { e.twin with progressTwin := some w.toNat })) ∧
  (∀ (n : BitVec 64) (c wh : BitVec 32) (whole : Bool) (b : List Byte) (w : Byte) (s : State),
    s.ch2On = true → commandsIdle s = true → s.tly.openEps = [] → (∃ h ∈ s.pair.openHeld, h.1.epoch = n) →
    exec (.msgInput n c b) s = .next (notedEarly s n (.input n c b) { s.earlyTwin n with inputTwin := some (c.toNat, BitVec.ofNat 384 (leNat b)) }) ∧
    (s.withheldOwn n = false →
      ∃ t, exec (.msgDigest n whole wh b) s = .next t ∧ t = { s with dnp := t.dnp, pair := t.pair } ∧
        t.pair = { (notedEarly s n (.digest n whole wh b) { s.earlyTwin n with digestTwin := some (whole, wh, BitVec.ofNat 384 (leNat b)) }).pair with
          twinOpen := s.pair.twinOpen.filter (fun m => m ≠ n) }) ∧
    exec (.msgDigestAck n) s = .next (notedEarly s n (.digestAck n) { s.earlyTwin n with acked := true }) ∧
    exec (.msgEvidence n w) s = .next (notedEarly s n (.evidence n w) { s.earlyTwin n with evidenceTwin := some w.toNat }) ∧
    exec (.msgProgress n w) s = .next (notedEarly s n (.progress n w) { s.earlyTwin n with progressTwin := some w.toNat })) ∧
  (∀ (n : BitVec 64) (c : BitVec 32) (b : List Byte) (e : OpenEp) (s : State), s.ch2On = true → s.tly.openEps = [e] → e.n = n →
    e.twin.inputSent = true → e.twin.inputAgreed = none → s.cx.insts = [] →
    ∃ u : State, exec (.msgInput n c b) s = .next u.settle.carryCheck ∧ u = { s with dnp := u.dnp, tly := u.tly } ∧
      u.tly.openEps.map (·.twin.inputAgreed) = [some (decide (s.inputSet n = (c.toNat, BitVec.ofNat 384 (leNat b))))]) ∧
  (∀ (n : BitVec 64) (w : Byte) (e : OpenEp) (o own : Nat) (s : State), s.ch2On = true → s.tly.openEps = [e] → e.n = n →
    e.twin.evidenceSent = some o → e.twin.resolved = none → own = evLevel o →
    ∃ u : State, exec (.msgEvidence n w) s = .next u.settle.carryCheck ∧ u = { s with dnp := u.dnp, tly := u.tly } ∧
      (own < evLevel w.toNat → u.tly.openEps.map (fun x => (x.twin.resolved, x.withhold)) = [(some true, e.withhold)]) ∧
      (evLevel w.toNat < own → u.tly.openEps.map (fun x => (x.twin.resolved, x.withhold)) = [(some false, e.withhold ||| 0x20#32)]) ∧
      (own = evLevel w.toNat → s.pair.pstate = 1#3 →
        u.tly.openEps.map (fun x => (x.twin.resolved, x.twin.unresolved, x.withhold)) = [(some true, true, e.withhold)]) ∧
      (own = evLevel w.toNat → s.pair.pstate = 2#3 →
        u.tly.openEps.map (fun x => (x.twin.resolved, x.twin.unresolved, x.withhold)) = [(some false, true, e.withhold ||| 0x20#32)])) ∧
  (∀ (g : BitVec 64) (s : State), calm s = true → s.ch2On = true →
    (s.pair.pstate = 0#3 → s.cmds.store = [] →
      ∃ t, exec (.msgJoinReq g) s = .next t ∧ t = { s with dnp := t.dnp, pair := t.pair } ∧
        t.pair = { s.pair with
          joiner := true
          joinRun := false
          joinPair := false
          joinMark := some (Tab.get 0 t.dnp.handed 2) } ∧
        Tab.get [] t.dnp.out 2 = Tab.get [] s.dnp.out 2 ++ msgBytes (.joinImage 0#32 8#32 (leBytes 8 s.tly.configGen.toNat))) ∧
    (s.pair.pstate = 2#3 → ∃ t, exec (.msgJoinReq g) s = .next t ∧ t = { s with dnp := t.dnp } ∧ took s t (.joinReq g)) ∧
    (s.pair.pstate = 0#3 → s.pair.joinRun = true →
      ∃ t, exec (.msgJoinDone g) s = .next t ∧ t = { s with dnp := t.dnp, pair := { s.pair with joinPair := true } }) ∧
    (s.pair.joinRun = false → ∃ t, exec (.msgJoinDone g) s = .next t ∧ t = { s with dnp := t.dnp } ∧ took s t (.joinDone g)) ∧
    (s.pair.pstate = 3#3 → s.pair.joinSent = true →
      (∀ (off total : BitVec 32) (part : List Byte), off.toNat + part.length ≠ total.toNat →
        ∃ t, exec (.msgJoinImage off total part) s = .next t ∧ t = { s with dnp := t.dnp, pair := t.pair } ∧
          t.pair = { s.pair with joinImage := t.pair.joinImage } ∧
          ∀ k < part.length, Tab.get 0#8 t.pair.joinImage (off.toNat + k) = part.getD k 0#8) ∧
      ∃ t, exec (.msgJoinImage 0#32 8#32 (leBytes 8 g.toNat)) s = .next t ∧ t.cx = { s.cx with ctxs := [] } ∧ t.cmds.store = [] ∧
        t.cmds.fallback = false ∧ t.tly.configGen = g ∧ t.pair.joinHas = true ∧ t.pair.joinImage = [] ∧ t.mem = s.mem)) ∧
  (∀ (b : Fin 64) (ch : Fin 8) (t : IngTable) (c : IngChanCfg) (x : IngChan) (s : State), calm s = true → s.isLocal b = false →
    s.tableOn b = some t → t.chans[ch.val]? = some c → s.chan b ch = x →
    (∀ (un : IngUnit) (v : IngView) (e : IngState) (m : IngSample), s.linkUp = true → s.ingestOn = true → un ≠ .badHeader →
      chanView c un = some v → x.fault = false → t.states[x.cur]? = some e → e.cond' v = true → e.consT = true → e.action = 2 → x.live = some m →
      ∃ u, exec (.msgFwdUnit b ch un) s = .next u ∧ u = { s with dnp := u.dnp, ing := u.ing } ∧
        u.chan b ch = { x with
          cur := e.nextT
          live := some (({ m with crc := m.crc || v.crcBad } : IngSample).copy c (e.copied v.bytes)) } ∧
        ∀ k, k ≠ b.val → u.stream k = s.stream k) ∧
    (∀ (n : BitVec 64) (a : BitVec 32), s.linkUp = true → n ≠ noTag →
      ∃ u, exec (.msgFwdBegin b ch n a) s = .next u ∧ u = { s with dnp := u.dnp, ing := u.ing } ∧
        u.chan b ch = { x with tagQ := x.tagQ ++ [(n, a.toInt)] } ∧ ∀ k, k ≠ b.val → u.stream k = s.stream k) ∧
    (∀ a : BitVec 32, s.linkUp = true → s.isRole = true → s.isTrigger b ch = false →
      ∃ u, exec (.msgFwdBegin b ch noTag a) s = .next u ∧ u = { s with dnp := u.dnp, ing := u.ing } ∧
        u.chan b ch = { x with tagQ := x.tagQ ++ [(s.plainTag, a.toInt)] } ∧
        Tab.get [] u.dnp.out 1 = Tab.get [] s.dnp.out 1 ++ msgBytes (.tag (BitVec.ofNat 8 b) (BitVec.ofNat 8 ch) s.plainTag)) ∧
    (∀ (n : BitVec 64) (m : IngSample), s.ch1On = true → x.untagged = [] → x.live = some m → m.epoch = noTag → m.ended = false →
      c.batch = false → x.ep? n = none → x.closedTo.toNat < n.toNat → s.tly.opened.toNat < n.toNat →
      ∃ u, exec (.msgTag b ch n) s = .next u ∧ u = { s with dnp := u.dnp, ing := u.ing } ∧
        u.chan b ch = { x with live := some { m with epoch := n }, topTag := if x.topTag.toNat < n.toNat then n else x.topTag } ∧
        ∀ k, k ≠ b.val → u.stream k = s.stream k)) ∧
  (∀ (b : Fin 64) (ch : Fin 8) (n : BitVec 64) (cause : Byte) (c : IngChanCfg) (x : IngChan) (p : IngEp) (s : State), s.linkUp = true →
    s.chan b ch = x → s.chanCfg n b ch = some c → c.batch = false → x.fault = false → x.ep? n = some p → p.closed = false → p.cause = none →
    p.sample.isSome = true → x.live = none →
    (s.closesSelf b = false → calm s = true →
      ∃ t, exec (.msgFwdClose b ch cause n) s = .next t ∧ t = { s with dnp := t.dnp, ing := t.ing } ∧
        (t.chan b ch).ep? n = some { p with cause := some cause.toNat } ∧ ∀ k, k ≠ b.val → t.stream k = s.stream k) ∧
    (s.closesSelf b = true → calm s = true →
      ∃ t, exec (.msgFwdClose b ch cause n) s = .next t ∧ t = { s with dnp := t.dnp } ∧
        took s t (.fwdClose (BitVec.ofNat 8 b) (BitVec.ofNat 8 ch) cause n)) ∧
    (s.closesSelf b = false →
      ∃ u : State, exec (.msgFwdClose b ch cause n) s = .next u.settle.carryCheck ∧ u = { s with dnp := u.dnp, ing := u.ing } ∧
        (u.chan b ch).ep? n = some { p with cause := some cause.toNat } ∧ ∀ k, k ≠ b.val → u.stream k = s.stream k) ∧
    (s.closesSelf b = true →
      ∃ u : State, exec (.msgFwdClose b ch cause n) s = .next u.settle.carryCheck ∧ u = { s with dnp := u.dnp } ∧
        took s u (.fwdClose (BitVec.ofNat 8 b) (BitVec.ofNat 8 ch) cause n)))
end

