-- ==== Sys2Proof/Laws/Tab.lean ====
section
/-! SUPPORT. The sparse tables: reads after writes, in every table, and the canonical form that every write keeps. -/

namespace Sys2Proof.Tab


variable {α : Type}

theorem get_ins_self (d v : α) (k : Nat) : ∀ t : Tab α, (∀ e ∈ t, e.1 ≠ k) → get d (ins t k v) k = v
  | [], _ => by simp [ins, get]
  | (i, w) :: t, h => by
    have hi : k ≠ i := fun e => h (i, w) (by simp) e.symm
    unfold ins
    split
    · simp [get]
    · simp only [get, hi, if_false]
      exact get_ins_self d v k t (fun e he => h e (by simp [he]))

theorem get_ins_ne (d v : α) {j k : Nat} (h : j ≠ k) : ∀ t : Tab α, get d (ins t k v) j = get d t j
  | [] => by simp [ins, get, h]
  | (i, w) :: t => by
    unfold ins
    split
    · simp [get, h]
    · simp only [get, get_ins_ne d v h t]

theorem get_filter_self (d : α) (k : Nat) : ∀ t : Tab α, get d (t.filter (fun e => decide (e.1 ≠ k))) k = d
  | [] => rfl
  | (i, w) :: t => by
    by_cases hi : i = k
    · simpa [hi] using get_filter_self d k t
    · have : k ≠ i := fun e => hi e.symm
      simp only [List.filter_cons, hi, ne_eq, not_false_eq_true, decide_true, if_true, get, this, if_false]
      simpa using get_filter_self d k t

theorem get_filter_ne (d : α) {j k : Nat} (h : j ≠ k) : ∀ t : Tab α, get d (t.filter (fun e => decide (e.1 ≠ k))) j = get d t j
  | [] => rfl
  | (i, w) :: t => by
    have ih := get_filter_ne d h t
    by_cases hi : i = k
    · subst hi
      simp only [List.filter_cons, ne_eq, not_true_eq_false, decide_false, get, h, if_false]
      simpa using ih
    · simp only [List.filter_cons, hi, ne_eq, not_false_eq_true, decide_true, if_true, get]
      split
      · rfl
      · simpa using ih

variable [DecidableEq α]

/-- A read after a write to the same index gives the value written. -/
@[simp] theorem get_set_self (d : α) (t : Tab α) (k : Nat) (v : α) : get d (set d t k v) k = v := by
  unfold set
  dsimp only
  split
  · rename_i h; rw [get_filter_self, h]
  · exact get_ins_self d v k _ (fun e he => by simpa using (List.mem_filter.1 he).2)

/-- A write leaves every other index alone. -/
theorem get_set_ne (d : α) (t : Tab α) {j k : Nat} (h : j ≠ k) (v : α) : get d (set d t k v) j = get d t j := by
  unfold set
  dsimp only
  split
  · exact get_filter_ne d h t
  · rw [get_ins_ne d v h, get_filter_ne d h]

theorem get_set (d : α) (t : Tab α) (j k : Nat) (v : α) : get d (set d t k v) j = if j = k then v else get d t j := by
  split
  · rename_i h; rw [h, get_set_self]
  · exact get_set_ne d t ‹_› v

@[simp] theorem get_upd_self (d : α) (t : Tab α) (k : Nat) (f : α → α) : get d (upd d t k f) k = f (get d t k) :=
  get_set_self d t k _

theorem get_upd_ne (d : α) (t : Tab α) {j k : Nat} (h : j ≠ k) (f : α → α) : get d (upd d t k f) j = get d t j :=
  get_set_ne d t h _

theorem get_upd (d : α) (t : Tab α) (j k : Nat) (f : α → α) : get d (upd d t k f) j = if j = k then f (get d t k) else get d t j :=
  get_set d t j k _

/-- A table canonical above `i` is canonical above every smaller bound. -/
theorem wfAbove_mono {d : α} {t : Tab α} {b c : Option Nat} (hb : wfAbove d b t = true)
    (h : ∀ j, c = some j → ∃ i, b = some i ∧ j ≤ i) : wfAbove d c t = true := by
  cases t with
  | nil => rfl
  | cons e t =>
    obtain ⟨i, v⟩ := e
    simp only [wfAbove, Bool.and_eq_true] at hb ⊢
    refine ⟨⟨?_, hb.1.2⟩, hb.2⟩
    cases c with
    | none => rfl
    | some j =>
      obtain ⟨k, rfl, hk⟩ := h j rfl
      have := hb.1.1
      simp only [decide_eq_true_eq] at this ⊢
      omega

theorem wfAbove_filter {d : α} (p : Nat × α → Bool) : ∀ (t : Tab α) (b : Option Nat), wfAbove d b t = true → wfAbove d b (t.filter p) = true
  | [], _, _ => rfl
  | (i, v) :: t, b, h => by
    simp only [wfAbove, Bool.and_eq_true] at h
    rw [List.filter_cons]
    split
    · simp only [wfAbove, Bool.and_eq_true]
      exact ⟨h.1, wfAbove_filter p t (some i) h.2⟩
    · refine wfAbove_mono (wfAbove_filter p t (some i) h.2) (fun j hj => ⟨i, rfl, ?_⟩)
      subst hj
      have := h.1.1
      simp only [decide_eq_true_eq] at this
      omega

theorem wfAbove_ins {d v : α} (hv : v ≠ d) : ∀ (t : Tab α) (b : Option Nat) (k : Nat), wfAbove d b t = true →
    (∀ j, b = some j → j < k) → (∀ e ∈ t, e.1 ≠ k) → wfAbove d b (ins t k v) = true
  | [], b, k, _, hb, _ => by
    simp only [ins, wfAbove, Bool.and_eq_true, Bool.and_true, decide_eq_true_eq]
    refine ⟨?_, hv⟩
    cases b with
    | none => rfl
    | some j => simpa using hb j rfl
  | (i, w) :: t, b, k, h, hb, hk => by
    simp only [wfAbove, Bool.and_eq_true, decide_eq_true_eq] at h
    have hi : i ≠ k := hk (i, w) (by simp)
    unfold ins
    split
    · rename_i hlt
      simp only [wfAbove, Bool.and_eq_true, decide_eq_true_eq]
      refine ⟨⟨?_, hv⟩, ⟨hlt, h.1.2⟩, h.2⟩
      cases b with
      | none => rfl
      | some j => simpa using hb j rfl
    · simp only [wfAbove, Bool.and_eq_true, decide_eq_true_eq]
      exact ⟨h.1, wfAbove_ins hv t (some i) k h.2 (fun j hj => by cases hj; omega) (fun e he => hk e (by simp [he]))⟩

/-- A write keeps the canonical form. -/
theorem wf_set {d : α} {t : Tab α} (h : wf d t = true) (k : Nat) (v : α) : wf d (set d t k v) = true := by
  unfold set
  dsimp only
  split
  · exact wfAbove_filter _ t none h
  · exact wfAbove_ins ‹_› _ none k (wfAbove_filter _ t none h) (fun _ hj => by cases hj)
      (fun e he => by simpa using (List.mem_filter.1 he).2)

theorem wf_upd {d : α} {t : Tab α} (h : wf d t = true) (k : Nat) (f : α → α) : wf d (upd d t k f) = true :=
  wf_set h k _

/-- Forgetting entries keeps the canonical form. -/
theorem wf_drop {d : α} {t : Tab α} (h : wf d t = true) (p : Nat → Bool) : wf d (drop p t) = true :=
  wfAbove_filter _ t none h

end Sys2Proof.Tab
end

