-- ==== Sys2Proof/Laws/Keeps.lean ====
section
/-! SUPPORT. `Keeps a t`: what every operation on the state leaves as it was, or lets change in one direction only. Each
lemma says that one operation carries `Keeps a` on from its argument to its result. -/

namespace Sys2Proof.Machine

set_option linter.unusedTactic false
set_option linter.unreachableTactic false

/-- From `a` to `t`: the queue is untouched; free values are only drawn; memory keeps its canonical form; the written security
fuses and the fused identity stand, the ROLLBACK fuse only rises (R452, R456); at most 64 ledger records are kept (R97). -/
structure Keeps (a t : State) : Prop where
  pending : t.pending = a.pending
  free : a.freeCnt ≤ t.freeCnt
  mem : Tab.wf 0#8 a.mem = true → Tab.wf 0#8 t.mem = true
  roots : t.sec.roots = a.sec.roots
  revoke : t.sec.revoke = a.sec.revoke
  rollback : a.sec.rollback ≤ t.sec.rollback
  lock : t.sec.testLock = a.sec.testLock
  dieId : t.boot.dieId = a.boot.dieId
  cap : t.boot.cap = a.boot.cap
  serial : t.pair.serial = a.pair.serial
  recs : a.tly.recs.length ≤ 64 → t.tly.recs.length ≤ 64

variable {a s t : State}

theorem Keeps.refl (s : State) : Keeps s s :=
  ⟨rfl, Nat.le_refl _, id, rfl, rfl, Nat.le_refl _, rfl, rfl, rfl, rfl, id⟩

theorem Keeps.trans (h : Keeps a s) (k : Keeps s t) : Keeps a t :=
  ⟨k.pending.trans h.pending, Nat.le_trans h.free k.free, fun m => k.mem (h.mem m), k.roots.trans h.roots,
   k.revoke.trans h.revoke, Nat.le_trans h.rollback k.rollback, k.lock.trans h.lock, k.dieId.trans h.dieId,
   k.cap.trans h.cap, k.serial.trans h.serial, fun m => k.recs (h.recs m)⟩

theorem keeps_foldl {β : Type} {f : State → β → State} {l : List β} (hf : ∀ s x, Keeps a s → Keeps a (f s x)) (h : Keeps a s) :
    Keeps a (l.foldl f s) := by
  induction l generalizing s with
  | nil => exact h
  | cons x l ih => exact ih (hf _ _ h)

theorem keeps_foldr {β : Type} {f : β → State → State} {l : List β} (hf : ∀ s x, Keeps a s → Keeps a (f x s)) (h : Keeps a s) :
    Keeps a (l.foldr f s) := by
  induction l with
  | nil => exact h
  | cons x l ih => exact hf _ _ ih

theorem keeps_foldl_fst {β γ : Type} {f : State × γ → β → State × γ} {l : List β} {p : State × γ}
    (hf : ∀ p x, Keeps a p.1 → Keeps a (f p x).1) (h : Keeps a p.1) : Keeps a (l.foldl f p).1 := by
  induction l generalizing p with
  | nil => exact h
  | cons x l ih => exact ih (hf _ _ h)

/-- A bind that answers ok ran both parts ok. -/
theorem except_bind_ok {ε α β : Type} {x : Except ε α} {f : α → Except ε β} {r : β} (h : (x >>= f) = .ok r) :
    ∃ v, x = .ok v ∧ f v = .ok r := by
  cases x with
  | error e => cases h
  | ok v => exact ⟨v, rfl, h⟩

theorem keeps_foldlM {ε β : Type} {f : State → β → Except ε State} (hf : ∀ {s x t}, f s x = .ok t → Keeps a s → Keeps a t) :
    ∀ (l : List β) {s t : State}, l.foldlM f s = .ok t → Keeps a s → Keeps a t
  | [], s, t, e, h => by cases e; exact h
  | x :: l, s, t, e, h => by
    rw [List.foldlM_cons] at e
    obtain ⟨u, hu, e⟩ := except_bind_ok e
    exact keeps_foldlM hf l e (hf hu h)

theorem keeps_forUpto {n : Nat} {f : Nat → State → State} (hf : ∀ s x, Keeps a s → Keeps a (f x s)) (h : Keeps a s) :
    Keeps a (forUpto n f s) := keeps_foldl hf h

theorem keeps_ite {p : Prop} [Decidable p] {x y : State} (hx : p → Keeps a x) (hy : ¬p → Keeps a y) : Keeps a (if p then x else y) := by
  split
  · exact hx ‹_›
  · exact hy ‹_›

theorem keeps_freeCnt {n : Nat} (hn : s.freeCnt ≤ n) (h : Keeps a s) : Keeps a { s with freeCnt := n } :=
  { h with free := Nat.le_trans h.free hn }

theorem keeps_mapTime {f : TimeS → TimeS} (h : Keeps a s) : Keeps a (s.mapTime f) := { h with }
theorem keeps_mapPins {f : PinS → PinS} (h : Keeps a s) : Keeps a (s.mapPins f) := { h with }
theorem keeps_mapFab {f : FabS → FabS} (h : Keeps a s) : Keeps a (s.mapFab f) := { h with }
theorem keeps_mapMbx {f : MbxS → MbxS} (h : Keeps a s) : Keeps a (s.mapMbx f) := { h with }
theorem keeps_mapCmds {f : CmdS → CmdS} (h : Keeps a s) : Keeps a (s.mapCmds f) := { h with }
theorem keeps_mapCx {f : CtxS → CtxS} (h : Keeps a s) : Keeps a (s.mapCx f) := { h with }
theorem keeps_mapCarders {f : CarderS → CarderS} (h : Keeps a s) : Keeps a (s.mapCarders f) := { h with }
theorem keeps_mapGrn {f : GrnS → GrnS} (h : Keeps a s) : Keeps a (s.mapGrn f) := { h with }
theorem keeps_mapGln {f : GlnS → GlnS} (h : Keeps a s) : Keeps a (s.mapGln f) := { h with }
theorem keeps_mapKvw {f : KvwS → KvwS} (h : Keeps a s) : Keeps a (s.mapKvw f) := { h with }
theorem keeps_mapHmc {f : HmcS → HmcS} (h : Keeps a s) : Keeps a (s.mapHmc f) := { h with }
theorem keeps_mapBlk {f : BlkS → BlkS} (h : Keeps a s) : Keeps a (s.mapBlk f) := { h with }
theorem keeps_mapOut {f : OutS → OutS} (h : Keeps a s) : Keeps a (s.mapOut f) := { h with }
theorem keeps_mapIng {f : IngS → IngS} (h : Keeps a s) : Keeps a (s.mapIng f) := { h with }
theorem keeps_mapCool {f : CoolS → CoolS} (h : Keeps a s) : Keeps a (s.mapCool f) := { h with }
theorem keeps_mapSw {f : SwS → SwS} (h : Keeps a s) : Keeps a (s.mapSw f) := { h with }
theorem keeps_mapKcp {f : KcpS → KcpS} (h : Keeps a s) : Keeps a (s.mapKcp f) := { h with }
theorem keeps_mapCore {f : CoreS → CoreS} (h : Keeps a s) : Keeps a (s.mapCore f) := { h with }
theorem keeps_mapHwa {f : HwaS → HwaS} (h : Keeps a s) : Keeps a (s.mapHwa f) := { h with }
theorem keeps_mapHwb {f : HwbS → HwbS} (h : Keeps a s) : Keeps a (s.mapHwb f) := { h with }
theorem keeps_mapDnp {f : DnpS → DnpS} (h : Keeps a s) : Keeps a (s.mapDnp f) := { h with }
theorem keeps_mapFlt {f : FltS → FltS} (h : Keeps a s) : Keeps a (s.mapFlt f) := { h with }
theorem keeps_mapThm {f : ThmS → ThmS} (h : Keeps a s) : Keeps a (s.mapThm f) := { h with }
theorem keeps_mapTap {f : TapS → TapS} (h : Keeps a s) : Keeps a (s.mapTap f) := { h with }

theorem keeps_mapMem {f : Tab Byte → Tab Byte} (hf : ∀ m, Tab.wf 0#8 m = true → Tab.wf 0#8 (f m) = true) (h : Keeps a s) :
    Keeps a (s.mapMem f) := { h with mem := fun m => hf _ (h.mem m) }

theorem keeps_mapTly {f : TlyS → TlyS} (hf : ∀ x, x.recs.length ≤ 64 → (f x).recs.length ≤ 64) (h : Keeps a s) :
    Keeps a (s.mapTly f) := { h with recs := fun m => hf _ (h.recs m) }

theorem keeps_mapSec {f : SecS → SecS} (h1 : ∀ x, (f x).roots = x.roots) (h2 : ∀ x, (f x).revoke = x.revoke)
    (h3 : ∀ x, x.rollback ≤ (f x).rollback) (h4 : ∀ x, (f x).testLock = x.testLock) (h : Keeps a s) : Keeps a (s.mapSec f) :=
  { h with roots := (h1 _).trans h.roots, revoke := (h2 _).trans h.revoke, rollback := Nat.le_trans h.rollback (h3 _),
           lock := (h4 _).trans h.lock }

theorem keeps_mapBoot {f : BootS → BootS} (h1 : ∀ x, (f x).dieId = x.dieId) (h2 : ∀ x, (f x).cap = x.cap) (h : Keeps a s) :
    Keeps a (s.mapBoot f) := { h with dieId := (h1 _).trans h.dieId, cap := (h2 _).trans h.cap }

theorem keeps_mapPair {f : PairS → PairS} (h1 : ∀ x, (f x).serial = x.serial) (h : Keeps a s) :
    Keeps a (s.mapPair f) := { h with serial := (h1 _).trans h.serial }

theorem wf_memStore : ∀ (bs : List Byte) (m : Tab Byte) (x : Nat), Tab.wf 0#8 m = true → Tab.wf 0#8 (memStore m x bs) = true
  | [], _, _, h => h
  | b :: bs, _, x, h => wf_memStore bs _ (x + 1) (Tab.wf_set h x b)

end Sys2Proof.Machine
end

