-- ==== Sys2Proof/Laws/KeepsOps.lean ====
section
/-! SUPPORT. Every operation of Machine/Ops.lean carries `Keeps` on. -/

namespace Sys2Proof.Machine

set_option linter.unusedTactic false
set_option linter.unreachableTactic false

variable {a s t : State}

theorem State.updEng_keeps {x1 x2} (h : Keeps a s) : Keeps a (State.updEng s x1 x2) := by
  unfold State.updEng
  try dsimp only
  repeat' (first | with_reducible assumption | with_reducible apply keeps_mapCx | with_reducible refine keeps_foldl (fun _ _ _ => ?_) ?_ | with_reducible refine keeps_forUpto (fun _ _ _ => ?_) ?_ | split | with_reducible refine keeps_freeCnt (Nat.le_add_right _ _) ?_)

theorem State.updCtx_keeps {x1 x2} (h : Keeps a s) : Keeps a (State.updCtx s x1 x2) := by
  unfold State.updCtx
  try dsimp only
  repeat' (first | with_reducible assumption | with_reducible apply keeps_mapCx | with_reducible refine keeps_foldl (fun _ _ _ => ?_) ?_ | with_reducible refine keeps_forUpto (fun _ _ _ => ?_) ?_ | split | with_reducible refine keeps_freeCnt (Nat.le_add_right _ _) ?_)

theorem State.updBank_keeps {x1 x2} (h : Keeps a s) : Keeps a (State.updBank s x1 x2) := by
  unfold State.updBank
  try dsimp only
  repeat' (first | with_reducible assumption | with_reducible apply keeps_mapGrn | with_reducible refine keeps_foldl (fun _ _ _ => ?_) ?_ | with_reducible refine keeps_forUpto (fun _ _ _ => ?_) ?_ | split | with_reducible refine keeps_freeCnt (Nat.le_add_right _ _) ?_)

theorem State.updGrnDie_keeps {x1 x2} (h : Keeps a s) : Keeps a (State.updGrnDie s x1 x2) := by
  unfold State.updGrnDie
  try dsimp only
  repeat' (first | with_reducible assumption | with_reducible apply keeps_mapGrn | with_reducible refine keeps_foldl (fun _ _ _ => ?_) ?_ | with_reducible refine keeps_forUpto (fun _ _ _ => ?_) ?_ | split | with_reducible refine keeps_freeCnt (Nat.le_add_right _ _) ?_)

theorem State.updGleaner_keeps {x1 x2} (h : Keeps a s) : Keeps a (State.updGleaner s x1 x2) := by
  unfold State.updGleaner
  try dsimp only
  repeat' (first | with_reducible assumption | with_reducible apply keeps_mapGln | with_reducible refine keeps_foldl (fun _ _ _ => ?_) ?_ | with_reducible refine keeps_forUpto (fun _ _ _ => ?_) ?_ | split | with_reducible refine keeps_freeCnt (Nat.le_add_right _ _) ?_)

theorem State.updHmc_keeps {x1 x2} (h : Keeps a s) : Keeps a (State.updHmc s x1 x2) := by
  unfold State.updHmc
  try dsimp only
  repeat' (first | with_reducible assumption | with_reducible apply keeps_mapHmc | with_reducible refine keeps_foldl (fun _ _ _ => ?_) ?_ | with_reducible refine keeps_forUpto (fun _ _ _ => ?_) ?_ | split | with_reducible refine keeps_freeCnt (Nat.le_add_right _ _) ?_)

theorem State.updBlk_keeps {x1 x2} (h : Keeps a s) : Keeps a (State.updBlk s x1 x2) := by
  unfold State.updBlk
  try dsimp only
  repeat' (first | with_reducible assumption | with_reducible apply keeps_mapBlk | with_reducible refine keeps_foldl (fun _ _ _ => ?_) ?_ | with_reducible refine keeps_forUpto (fun _ _ _ => ?_) ?_ | split | with_reducible refine keeps_freeCnt (Nat.le_add_right _ _) ?_)

theorem State.updKvw_keeps {x1 x2} (h : Keeps a s) : Keeps a (State.updKvw s x1 x2) := by
  unfold State.updKvw
  try dsimp only
  repeat' (first | with_reducible assumption | with_reducible apply keeps_mapKvw | with_reducible refine keeps_foldl (fun _ _ _ => ?_) ?_ | with_reducible refine keeps_forUpto (fun _ _ _ => ?_) ?_ | split | with_reducible refine keeps_freeCnt (Nat.le_add_right _ _) ?_)

theorem State.updStream_keeps {x1 x2} (h : Keeps a s) : Keeps a (State.updStream s x1 x2) := by
  unfold State.updStream
  try dsimp only
  repeat' (first | with_reducible assumption | with_reducible apply keeps_mapIng | with_reducible refine keeps_foldl (fun _ _ _ => ?_) ?_ | with_reducible refine keeps_forUpto (fun _ _ _ => ?_) ?_ | split | with_reducible refine keeps_freeCnt (Nat.le_add_right _ _) ?_)

theorem State.updPort_keeps {x1 x2} (h : Keeps a s) : Keeps a (State.updPort s x1 x2) := by
  unfold State.updPort
  try dsimp only
  repeat' (first | with_reducible assumption | with_reducible apply keeps_mapSw | with_reducible refine keeps_foldl (fun _ _ _ => ?_) ?_ | with_reducible refine keeps_forUpto (fun _ _ _ => ?_) ?_ | split | with_reducible refine keeps_freeCnt (Nat.le_add_right _ _) ?_)

theorem State.updSlot_keeps {x1 x2} (h : Keeps a s) : Keeps a (State.updSlot s x1 x2) := by
  unfold State.updSlot
  try dsimp only
  repeat' (first | with_reducible assumption | with_reducible apply keeps_mapMbx | with_reducible refine keeps_foldl (fun _ _ _ => ?_) ?_ | with_reducible refine keeps_forUpto (fun _ _ _ => ?_) ?_ | split | with_reducible refine keeps_freeCnt (Nat.le_add_right _ _) ?_)

theorem State.updCoreOf_keeps {x1 x2} (h : Keeps a s) : Keeps a (State.updCoreOf s x1 x2) := by
  unfold State.updCoreOf
  try dsimp only
  repeat' (first | with_reducible assumption | with_reducible apply keeps_mapCore | with_reducible refine keeps_foldl (fun _ _ _ => ?_) ?_ | with_reducible refine keeps_forUpto (fun _ _ _ => ?_) ?_ | split | with_reducible refine keeps_freeCnt (Nat.le_add_right _ _) ?_)

theorem State.updOpc_keeps {x1 x2} (h : Keeps a s) : Keeps a (State.updOpc s x1 x2) := by
  unfold State.updOpc
  try dsimp only
  repeat' (first | with_reducible assumption | with_reducible apply keeps_mapThm | with_reducible refine keeps_foldl (fun _ _ _ => ?_) ?_ | with_reducible refine keeps_forUpto (fun _ _ _ => ?_) ?_ | split | with_reducible refine keeps_freeCnt (Nat.le_add_right _ _) ?_)

theorem State.updCarder_keeps {x1 x2} (h : Keeps a s) : Keeps a (State.updCarder s x1 x2) := by
  unfold State.updCarder
  try dsimp only
  repeat' (first | with_reducible assumption | with_reducible apply keeps_mapCarders | with_reducible refine keeps_foldl (fun _ _ _ => ?_) ?_ | with_reducible refine keeps_forUpto (fun _ _ _ => ?_) ?_ | split | with_reducible refine keeps_freeCnt (Nat.le_add_right _ _) ?_)

theorem State.updWdgStage_keeps {x1 x2} (h : Keeps a s) : Keeps a (State.updWdgStage s x1 x2) := by
  unfold State.updWdgStage
  try dsimp only
  repeat' (first | with_reducible assumption | with_reducible apply keeps_mapHwa | with_reducible refine keeps_foldl (fun _ _ _ => ?_) ?_ | with_reducible refine keeps_forUpto (fun _ _ _ => ?_) ?_ | split | with_reducible refine keeps_freeCnt (Nat.le_add_right _ _) ?_)

theorem State.updStest_keeps {x1 x2} (h : Keeps a s) : Keeps a (State.updStest s x1 x2) := by
  unfold State.updStest
  try dsimp only
  repeat' (first | with_reducible assumption | with_reducible apply keeps_mapHwa | with_reducible refine keeps_foldl (fun _ _ _ => ?_) ?_ | with_reducible refine keeps_forUpto (fun _ _ _ => ?_) ?_ | split | with_reducible refine keeps_freeCnt (Nat.le_add_right _ _) ?_)

theorem State.updWin_keeps {x1 x2} (h : Keeps a s) : Keeps a (State.updWin s x1 x2) := by
  unfold State.updWin
  try dsimp only
  repeat' (first | with_reducible assumption | with_reducible refine keeps_mapTly (by intro x hx; first | exact hx | (dsimp only; split <;> exact hx)) ?_ | with_reducible refine keeps_foldl (fun _ _ _ => ?_) ?_ | with_reducible refine keeps_forUpto (fun _ _ _ => ?_) ?_ | split | with_reducible refine keeps_freeCnt (Nat.le_add_right _ _) ?_)

theorem State.freeWord_keeps (h : Keeps a s) : Keeps a (State.freeWord s).2 := by
  unfold State.freeWord
  try dsimp only
  repeat' (first | with_reducible assumption | with_reducible refine keeps_foldl (fun _ _ _ => ?_) ?_ | with_reducible refine keeps_forUpto (fun _ _ _ => ?_) ?_ | split | with_reducible refine keeps_freeCnt (Nat.le_add_right _ _) ?_)

theorem State.freeWord_keepsEq { r} (e : State.freeWord s = (r, t)) (h : Keeps a s) : Keeps a t := by
  have k := State.freeWord_keeps (a := a)  h
  rw [e] at k; exact k

theorem State.freeWide_keeps (h : Keeps a s) : Keeps a (State.freeWide s).2 := by
  unfold State.freeWide
  try dsimp only
  repeat' (first | with_reducible assumption | with_reducible refine keeps_foldl (fun _ _ _ => ?_) ?_ | with_reducible refine keeps_forUpto (fun _ _ _ => ?_) ?_ | split | with_reducible refine keeps_freeCnt (Nat.le_add_right _ _) ?_)

theorem State.freeWide_keepsEq { r} (e : State.freeWide s = (r, t)) (h : Keeps a s) : Keeps a t := by
  have k := State.freeWide_keeps (a := a)  h
  rw [e] at k; exact k

theorem State.freeBytes_keeps {x1} (h : Keeps a s) : Keeps a (State.freeBytes s x1).2 := by
  unfold State.freeBytes
  try dsimp only
  repeat' (first | with_reducible assumption | with_reducible refine keeps_foldl (fun _ _ _ => ?_) ?_ | with_reducible refine keeps_forUpto (fun _ _ _ => ?_) ?_ | split | with_reducible refine keeps_freeCnt (Nat.le_add_right _ _) ?_)

theorem State.freeBytes_keepsEq {x1 r} (e : State.freeBytes s x1 = (r, t)) (h : Keeps a s) : Keeps a t := by
  have k := State.freeBytes_keeps (a := a) (x1 := x1) h
  rw [e] at k; exact k

theorem State.setDie_keeps {x1 x2} (h : Keeps a s) : Keeps a (State.setDie s x1 x2) := by
  unfold State.setDie
  try dsimp only
  repeat' (first | with_reducible assumption | with_reducible apply keeps_mapFlt | with_reducible refine keeps_foldl (fun _ _ _ => ?_) ?_ | with_reducible refine keeps_forUpto (fun _ _ _ => ?_) ?_ | split | with_reducible refine keeps_freeCnt (Nat.le_add_right _ _) ?_)

theorem State.put_keeps {x1 x2} (h : Keeps a s) : Keeps a (State.put s x1 x2) := by
  unfold State.put
  try dsimp only
  repeat' (first | with_reducible assumption | with_reducible refine keeps_mapMem (fun _ hx => by first | exact wf_memStore _ _ _ hx | exact Tab.wf_set hx _ _ | exact Tab.wf_drop hx _) ?_ | with_reducible refine keeps_foldl (fun _ _ _ => ?_) ?_ | with_reducible refine keeps_forUpto (fun _ _ _ => ?_) ?_ | split | with_reducible refine keeps_freeCnt (Nat.le_add_right _ _) ?_)

theorem State.wipe_keeps {x1 x2} (h : Keeps a s) : Keeps a (State.wipe s x1 x2) := by
  unfold State.wipe
  try dsimp only
  repeat' (first | with_reducible assumption | with_reducible refine keeps_mapMem (fun _ hx => by first | exact wf_memStore _ _ _ hx | exact Tab.wf_set hx _ _ | exact Tab.wf_drop hx _) ?_ | with_reducible apply keeps_mapGrn | with_reducible refine keeps_foldl (fun _ _ _ => ?_) ?_ | with_reducible refine keeps_forUpto (fun _ _ _ => ?_) ?_ | split | with_reducible refine keeps_freeCnt (Nat.le_add_right _ _) ?_)

theorem State.updEp_keeps {x1 x2} (h : Keeps a s) : Keeps a (State.updEp s x1 x2) := by
  unfold State.updEp
  try dsimp only
  repeat' (first | with_reducible assumption | with_reducible refine keeps_mapTly (by intro x hx; first | exact hx | (dsimp only; split <;> exact hx)) ?_ | with_reducible refine keeps_foldl (fun _ _ _ => ?_) ?_ | with_reducible refine keeps_forUpto (fun _ _ _ => ?_) ?_ | split | with_reducible refine keeps_freeCnt (Nat.le_add_right _ _) ?_)

theorem State.updEps_keeps {x1} (h : Keeps a s) : Keeps a (State.updEps s x1) := by
  unfold State.updEps
  try dsimp only
  repeat' (first | with_reducible assumption | with_reducible refine keeps_mapTly (by intro x hx; first | exact hx | (dsimp only; split <;> exact hx)) ?_ | with_reducible refine keeps_foldl (fun _ _ _ => ?_) ?_ | with_reducible refine keeps_forUpto (fun _ _ _ => ?_) ?_ | split | with_reducible refine keeps_freeCnt (Nat.le_add_right _ _) ?_)

theorem State.withhold_keeps {x1 x2} (h : Keeps a s) : Keeps a (State.withhold s x1 x2) := by
  unfold State.withhold
  try dsimp only
  repeat' (first | with_reducible assumption | with_reducible apply State.updEp_keeps | with_reducible refine keeps_foldl (fun _ _ _ => ?_) ?_ | with_reducible refine keeps_forUpto (fun _ _ _ => ?_) ?_ | split | with_reducible refine keeps_freeCnt (Nat.le_add_right _ _) ?_)

theorem State.withholdCtx_keeps {x1} (h : Keeps a s) : Keeps a (State.withholdCtx s x1) := by
  unfold State.withholdCtx
  try dsimp only
  repeat' (first | with_reducible assumption | with_reducible apply State.updEps_keeps | with_reducible refine keeps_foldl (fun _ _ _ => ?_) ?_ | with_reducible refine keeps_forUpto (fun _ _ _ => ?_) ?_ | split | with_reducible refine keeps_freeCnt (Nat.le_add_right _ _) ?_)

theorem State.withholdLost_keeps (h : Keeps a s) : Keeps a (State.withholdLost s) := by
  unfold State.withholdLost
  try dsimp only
  repeat' (first | with_reducible assumption | with_reducible apply State.updEps_keeps | with_reducible refine keeps_foldl (fun _ _ _ => ?_) ?_ | with_reducible refine keeps_forUpto (fun _ _ _ => ?_) ?_ | split | with_reducible refine keeps_freeCnt (Nat.le_add_right _ _) ?_)

theorem State.faultTick_keeps {x1} (h : Keeps a s) : Keeps a (State.faultTick s x1).2 := by
  unfold State.faultTick
  try dsimp only
  repeat' (first | with_reducible assumption | with_reducible apply State.freeWord_keeps | with_reducible refine State.freeWord_keepsEq (by assumption) ?_ | with_reducible refine keeps_foldl (fun _ _ _ => ?_) ?_ | with_reducible refine keeps_forUpto (fun _ _ _ => ?_) ?_ | split | with_reducible refine keeps_freeCnt (Nat.le_add_right _ _) ?_)

theorem State.faultTick_keepsEq {x1 r} (e : State.faultTick s x1 = (r, t)) (h : Keeps a s) : Keeps a t := by
  have k := State.faultTick_keeps (a := a) (x1 := x1) h
  rw [e] at k; exact k

theorem State.fault_keeps {x1} (h : Keeps a s) : Keeps a (State.fault s x1) := by
  unfold State.fault
  try dsimp only
  repeat' (first | with_reducible assumption | with_reducible apply State.updEp_keeps | with_reducible apply keeps_mapFlt | with_reducible apply State.faultTick_keeps | with_reducible refine State.faultTick_keepsEq (by assumption) ?_ | with_reducible refine keeps_foldl (fun _ _ _ => ?_) ?_ | with_reducible refine keeps_forUpto (fun _ _ _ => ?_) ?_ | split | with_reducible refine keeps_freeCnt (Nat.le_add_right _ _) ?_)

theorem State.faultOpen_keeps {x1} (h : Keeps a s) : Keeps a (State.faultOpen s x1) := by
  unfold State.faultOpen
  try dsimp only
  repeat' (first | with_reducible assumption | with_reducible apply State.freeWord_keeps | with_reducible refine State.freeWord_keepsEq (by assumption) ?_ | with_reducible apply State.fault_keeps | with_reducible refine keeps_foldl (fun _ _ _ => ?_) ?_ | with_reducible refine keeps_forUpto (fun _ _ _ => ?_) ?_ | split | with_reducible refine keeps_freeCnt (Nat.le_add_right _ _) ?_)

theorem State.corrected_keeps {x1} (h : Keeps a s) : Keeps a (State.corrected s x1) := by
  unfold State.corrected
  try dsimp only
  repeat' (first | with_reducible assumption | with_reducible apply State.updEps_keeps | with_reducible refine keeps_foldl (fun _ _ _ => ?_) ?_ | with_reducible refine keeps_forUpto (fun _ _ _ => ?_) ?_ | split | with_reducible refine keeps_freeCnt (Nat.le_add_right _ _) ?_)

theorem State.eccRead_keeps {x1 x2} (h : Keeps a s) : Keeps a (State.eccRead s x1 x2) := by
  unfold State.eccRead
  try dsimp only
  repeat' (first | with_reducible assumption | with_reducible apply State.corrected_keeps | with_reducible apply keeps_mapGrn | with_reducible refine keeps_foldl (fun _ _ _ => ?_) ?_ | with_reducible refine keeps_forUpto (fun _ _ _ => ?_) ?_ | split | with_reducible refine keeps_freeCnt (Nat.le_add_right _ _) ?_)

theorem State.partUnc_keeps {x1 x2 x3} (h : Keeps a s) : Keeps a (State.partUnc s x1 x2 x3) := by
  unfold State.partUnc
  try dsimp only
  repeat' (first | with_reducible assumption | with_reducible apply State.fault_keeps | with_reducible apply State.withholdCtx_keeps | with_reducible refine keeps_mapMem (fun _ hx => by first | exact wf_memStore _ _ _ hx | exact Tab.wf_set hx _ _ | exact Tab.wf_drop hx _) ?_ | with_reducible refine keeps_foldl (fun _ _ _ => ?_) ?_ | with_reducible refine keeps_forUpto (fun _ _ _ => ?_) ?_ | split | with_reducible refine keeps_freeCnt (Nat.le_add_right _ _) ?_)

theorem State.writeEcc_keeps {x1 x2} (h : Keeps a s) : Keeps a (State.writeEcc s x1 x2) := by
  unfold State.writeEcc
  try dsimp only
  repeat' (first | with_reducible assumption | with_reducible apply keeps_mapGrn | with_reducible apply State.eccRead_keeps | with_reducible apply State.partUnc_keeps | with_reducible refine keeps_foldl (fun _ _ _ => ?_) ?_ | with_reducible refine keeps_forUpto (fun _ _ _ => ?_) ?_ | split | with_reducible refine keeps_freeCnt (Nat.le_add_right _ _) ?_)

theorem State.writeUnc_keeps {x1 x2} (h : Keeps a s) : Keeps a (State.writeUnc s x1 x2) := by
  unfold State.writeUnc
  try dsimp only
  repeat' (first | with_reducible assumption | with_reducible apply State.updHmc_keeps | with_reducible refine keeps_mapMem (fun _ hx => by first | exact wf_memStore _ _ _ hx | exact Tab.wf_set hx _ _ | exact Tab.wf_drop hx _) ?_ | with_reducible refine keeps_foldl (fun _ _ _ => ?_) ?_ | with_reducible refine keeps_forUpto (fun _ _ _ => ?_) ?_ | split | with_reducible refine keeps_freeCnt (Nat.le_add_right _ _) ?_)

theorem State.write_keeps {x1 x2} (h : Keeps a s) : Keeps a (State.write s x1 x2) := by
  unfold State.write
  try dsimp only
  repeat' (first | with_reducible assumption | with_reducible apply State.writeEcc_keeps | with_reducible apply State.writeUnc_keeps | with_reducible apply State.put_keeps | with_reducible refine keeps_foldl (fun _ _ _ => ?_) ?_ | with_reducible refine keeps_forUpto (fun _ _ _ => ?_) ?_ | split | with_reducible refine keeps_freeCnt (Nat.le_add_right _ _) ?_)

theorem State.store_keeps {x1 x2 x3} (h : Keeps a s) : Keeps a (State.store s x1 x2 x3).2 := by
  unfold State.store
  try dsimp only
  repeat' (first | with_reducible assumption | with_reducible apply State.write_keeps | with_reducible refine keeps_foldl (fun _ _ _ => ?_) ?_ | with_reducible refine keeps_forUpto (fun _ _ _ => ?_) ?_ | split | with_reducible refine keeps_freeCnt (Nat.le_add_right _ _) ?_)

theorem State.store_keepsEq {x1 x2 x3 r} (e : State.store s x1 x2 x3 = (r, t)) (h : Keeps a s) : Keeps a t := by
  have k := State.store_keeps (a := a) (x1 := x1) (x2 := x2) (x3 := x3) h
  rw [e] at k; exact k

theorem State.chaff_keeps {x1} (h : Keeps a s) : Keeps a (State.chaff s x1) := by
  unfold State.chaff
  try dsimp only
  repeat' (first | with_reducible assumption | with_reducible apply keeps_mapFlt | with_reducible apply State.updEps_keeps | with_reducible refine keeps_foldl (fun _ _ _ => ?_) ?_ | with_reducible refine keeps_forUpto (fun _ _ _ => ?_) ?_ | split | with_reducible refine keeps_freeCnt (Nat.le_add_right _ _) ?_)

theorem State.journal_keeps {x1} (h : Keeps a s) : Keeps a (State.journal s x1) := by
  unfold State.journal
  try dsimp only
  repeat' (first | with_reducible assumption | with_reducible refine keeps_mapBoot (by intro x; first | with_reducible rfl | (dsimp only; repeat' split) <;> with_reducible rfl) (by intro x; first | with_reducible rfl | (dsimp only; repeat' split) <;> with_reducible rfl) ?_ | with_reducible refine keeps_foldl (fun _ _ _ => ?_) ?_ | with_reducible refine keeps_forUpto (fun _ _ _ => ?_) ?_ | split | with_reducible refine keeps_freeCnt (Nat.le_add_right _ _) ?_)

theorem State.journalUnit_keeps {x1 x2 x3 x4} (h : Keeps a s) : Keeps a (State.journalUnit s x1 x2 x3 x4) := by
  unfold State.journalUnit
  try dsimp only
  repeat' (first | with_reducible assumption | with_reducible apply State.journal_keeps | with_reducible refine keeps_foldl (fun _ _ _ => ?_) ?_ | with_reducible refine keeps_forUpto (fun _ _ _ => ?_) ?_ | split | with_reducible refine keeps_freeCnt (Nat.le_add_right _ _) ?_)

end Sys2Proof.Machine
end

