-- ==== Sys2Proof/Laws/KeepsSwitchQueue.lean ====
section
/-! SUPPORT. Every operation of Machine/SwitchQueue.lean carries `Keeps` on. -/

namespace Sys2Proof.Machine

set_option linter.unusedTactic false
set_option linter.unreachableTactic false

variable {a s t : State}

theorem State.txStart_keeps {x1} (h : Keeps a s) : Keeps a (State.txStart s x1) := by
  unfold State.txStart
  try dsimp only
  repeat' (first | with_reducible assumption | with_reducible apply State.updPort_keeps | with_reducible refine keeps_foldl (fun _ _ _ => ?_) ?_ | with_reducible refine keeps_forUpto (fun _ _ _ => ?_) ?_ | split | with_reducible refine keeps_freeCnt (Nat.le_add_right _ _) ?_)

theorem State.enqueueBy_keeps {x1 x2 x3 x4} (h : Keeps a s) : Keeps a (State.enqueueBy s x1 x2 x3 x4) := by
  unfold State.enqueueBy
  try dsimp only
  repeat' (first | with_reducible assumption | with_reducible apply State.txStart_keeps | with_reducible apply State.updPort_keeps | with_reducible refine keeps_foldl (fun _ _ _ => ?_) ?_ | with_reducible refine keeps_forUpto (fun _ _ _ => ?_) ?_ | split | with_reducible refine keeps_freeCnt (Nat.le_add_right _ _) ?_)

theorem State.enqueue_keeps {x1 x2 x3} (h : Keeps a s) : Keeps a (State.enqueue s x1 x2 x3) := by
  unfold State.enqueue
  try dsimp only
  repeat' (first | with_reducible assumption | with_reducible apply State.enqueueBy_keeps | with_reducible refine keeps_foldl (fun _ _ _ => ?_) ?_ | with_reducible refine keeps_forUpto (fun _ _ _ => ?_) ?_ | split | with_reducible refine keeps_freeCnt (Nat.le_add_right _ _) ?_)

theorem State.hwaHand_keeps {x1} (h : Keeps a s) : Keeps a (State.hwaHand s x1) := by
  unfold State.hwaHand
  try dsimp only
  repeat' (first | with_reducible assumption | with_reducible apply State.updPort_keeps | with_reducible apply State.enqueueBy_keeps | with_reducible refine keeps_foldl (fun _ _ _ => ?_) ?_ | with_reducible refine keeps_forUpto (fun _ _ _ => ?_) ?_ | split | with_reducible refine keeps_freeCnt (Nat.le_add_right _ _) ?_)

theorem State.hwaSend_keeps {x1 x2 x3} (h : Keeps a s) : Keeps a (State.hwaSend s x1 x2 x3) := by
  unfold State.hwaSend
  try dsimp only
  repeat' (first | with_reducible assumption | with_reducible apply State.enqueueBy_keeps | with_reducible apply State.updPort_keeps | with_reducible apply State.hwaHand_keeps | with_reducible refine keeps_foldl (fun _ _ _ => ?_) ?_ | with_reducible refine keeps_forUpto (fun _ _ _ => ?_) ?_ | split | with_reducible refine keeps_freeCnt (Nat.le_add_right _ _) ?_)

theorem State.txNext_keeps {x1} (h : Keeps a s) : Keeps a (State.txNext s x1) := by
  unfold State.txNext
  try dsimp only
  repeat' (first | with_reducible assumption | with_reducible apply State.txStart_keeps | with_reducible apply State.hwaHand_keeps | with_reducible refine keeps_foldl (fun _ _ _ => ?_) ?_ | with_reducible refine keeps_forUpto (fun _ _ _ => ?_) ?_ | split | with_reducible refine keeps_freeCnt (Nat.le_add_right _ _) ?_)

theorem State.hostSend_keeps {x1} (h : Keeps a s) : Keeps a (State.hostSend s x1) := by
  unfold State.hostSend
  try dsimp only
  repeat' (first | with_reducible assumption | with_reducible apply keeps_mapSw | with_reducible apply State.enqueue_keeps | with_reducible refine keeps_foldl (fun _ _ _ => ?_) ?_ | with_reducible refine keeps_forUpto (fun _ _ _ => ?_) ?_ | split | with_reducible refine keeps_freeCnt (Nat.le_add_right _ _) ?_)

theorem State.recordTag_keeps {x1 x2 x3} (h : Keeps a s) : Keeps a (State.recordTag s x1 x2 x3).2 := by
  unfold State.recordTag
  try dsimp only
  repeat' (first | with_reducible assumption | with_reducible apply State.freeBytes_keeps | with_reducible refine State.freeBytes_keepsEq (by assumption) ?_ | with_reducible refine keeps_foldl (fun _ _ _ => ?_) ?_ | with_reducible refine keeps_forUpto (fun _ _ _ => ?_) ?_ | split | with_reducible refine keeps_freeCnt (Nat.le_add_right _ _) ?_)

theorem State.recordTag_keepsEq {x1 x2 x3 r} (e : State.recordTag s x1 x2 x3 = (r, t)) (h : Keeps a s) : Keeps a t := by
  have k := State.recordTag_keeps (a := a) (x1 := x1) (x2 := x2) (x3 := x3) h
  rw [e] at k; exact k

theorem State.recordFrame_keeps {x1 x2 x3 x4 x5 x6} (h : Keeps a s) : Keeps a (State.recordFrame s x1 x2 x3 x4 x5 x6).2 := by
  unfold State.recordFrame
  try dsimp only
  repeat' (first | with_reducible assumption | with_reducible refine keeps_mapTly (by intro x hx; first | exact hx | (dsimp only; split <;> exact hx)) ?_ | with_reducible apply State.recordTag_keeps | with_reducible refine State.recordTag_keepsEq (by assumption) ?_ | with_reducible refine keeps_foldl (fun _ _ _ => ?_) ?_ | with_reducible refine keeps_forUpto (fun _ _ _ => ?_) ?_ | split | with_reducible refine keeps_freeCnt (Nat.le_add_right _ _) ?_)

theorem State.recordFrame_keepsEq {x1 x2 x3 x4 x5 x6 r} (e : State.recordFrame s x1 x2 x3 x4 x5 x6 = (r, t)) (h : Keeps a s) : Keeps a t := by
  have k := State.recordFrame_keeps (a := a) (x1 := x1) (x2 := x2) (x3 := x3) (x4 := x4) (x5 := x5) (x6 := x6) h
  rw [e] at k; exact k

theorem State.sendRecord_keeps {x1 x2 x3 x4 x5 x6} (h : Keeps a s) : Keeps a (State.sendRecord s x1 x2 x3 x4 x5 x6) := by
  unfold State.sendRecord
  try dsimp only
  repeat' (first | with_reducible assumption | with_reducible refine keeps_mapTly (by intro x hx; first | exact hx | (dsimp only; split <;> exact hx)) ?_ | with_reducible apply State.hostSend_keeps | with_reducible apply State.recordFrame_keeps | with_reducible refine State.recordFrame_keepsEq (by assumption) ?_ | with_reducible refine keeps_foldl (fun _ _ _ => ?_) ?_ | with_reducible refine keeps_forUpto (fun _ _ _ => ?_) ?_ | split | with_reducible refine keeps_freeCnt (Nat.le_add_right _ _) ?_)

theorem State.sendAlone_keeps {x1 x2 x3} (h : Keeps a s) : Keeps a (State.sendAlone s x1 x2 x3) := by
  unfold State.sendAlone
  try dsimp only
  repeat' (first | with_reducible assumption | with_reducible apply keeps_mapSw | with_reducible apply State.hwaSend_keeps | with_reducible refine keeps_mapTly (by intro x hx; first | exact hx | (dsimp only; split <;> exact hx)) ?_ | with_reducible apply State.recordFrame_keeps | with_reducible refine State.recordFrame_keepsEq (by assumption) ?_ | with_reducible refine keeps_foldl (fun _ _ _ => ?_) ?_ | with_reducible refine keeps_forUpto (fun _ _ _ => ?_) ?_ | split | with_reducible refine keeps_freeCnt (Nat.le_add_right _ _) ?_)

end Sys2Proof.Machine
end

