-- ==== Sys2Proof/Laws/KeepsGraph.lean ====
section
/-! SUPPORT. Every operation of Machine/Graph.lean carries `Keeps` on. -/

namespace Sys2Proof.Machine

set_option linter.unusedTactic false
set_option linter.unreachableTactic false

variable {a s t : State}

theorem State.updInst_keeps {x1 x2 x3} (h : Keeps a s) : Keeps a (State.updInst s x1 x2 x3) := by
  unfold State.updInst
  try dsimp only
  repeat' (first | with_reducible assumption | with_reducible apply keeps_mapCx | with_reducible refine keeps_foldl (fun _ _ _ => ?_) ?_ | with_reducible refine keeps_forUpto (fun _ _ _ => ?_) ?_ | split | with_reducible refine keeps_freeCnt (Nat.le_add_right _ _) ?_)

theorem State.pushLane_keeps {x1 x2 x3} (h : Keeps a s) : Keeps a (State.pushLane s x1 x2 x3) := by
  unfold State.pushLane
  try dsimp only
  repeat' (first | with_reducible assumption | with_reducible apply State.updEng_keeps | with_reducible refine keeps_foldl (fun _ _ _ => ?_) ?_ | with_reducible refine keeps_forUpto (fun _ _ _ => ?_) ?_ | split | with_reducible refine keeps_freeCnt (Nat.le_add_right _ _) ?_)

theorem State.drainReady_keeps {x1} (h : Keeps a s) : Keeps a (State.drainReady s x1) := by
  unfold State.drainReady
  refine keeps_mapCx (keeps_foldl_fst (fun p w hp => ?_) h)
  dsimp only
  repeat' (first | with_reducible assumption | with_reducible apply State.pushLane_keeps | split)

theorem State.releaseNode_keeps {x1 x2 x3 x4} (h : Keeps a s) : Keeps a (State.releaseNode s x1 x2 x3 x4) := by
  unfold State.releaseNode
  try dsimp only
  repeat' (first | with_reducible assumption | with_reducible apply State.drainReady_keeps | with_reducible apply keeps_mapCx | with_reducible apply State.updInst_keeps | with_reducible refine keeps_foldl (fun _ _ _ => ?_) ?_ | with_reducible refine keeps_forUpto (fun _ _ _ => ?_) ?_ | split | with_reducible refine keeps_freeCnt (Nat.le_add_right _ _) ?_)

theorem State.tryRelease_keeps {x1 x2 x3} (h : Keeps a s) : Keeps a (State.tryRelease s x1 x2 x3) := by
  unfold State.tryRelease
  try dsimp only
  repeat' (first | with_reducible assumption | with_reducible apply State.releaseNode_keeps | with_reducible refine keeps_foldl (fun _ _ _ => ?_) ?_ | with_reducible refine keeps_forUpto (fun _ _ _ => ?_) ?_ | split | with_reducible refine keeps_freeCnt (Nat.le_add_right _ _) ?_)

theorem State.tryAll_keeps {x1 x2} (h : Keeps a s) : Keeps a (State.tryAll s x1 x2) := by
  unfold State.tryAll
  try dsimp only
  repeat' (first | with_reducible assumption | with_reducible apply State.tryRelease_keeps | with_reducible refine keeps_foldl (fun _ _ _ => ?_) ?_ | with_reducible refine keeps_forUpto (fun _ _ _ => ?_) ?_ | split | with_reducible refine keeps_freeCnt (Nat.le_add_right _ _) ?_)

theorem State.tryEpoch_keeps {x1} (h : Keeps a s) : Keeps a (State.tryEpoch s x1) := by
  unfold State.tryEpoch
  try dsimp only
  repeat' (first | with_reducible assumption | with_reducible apply State.tryAll_keeps | with_reducible refine keeps_foldl (fun _ _ _ => ?_) ?_ | with_reducible refine keeps_forUpto (fun _ _ _ => ?_) ?_ | split | with_reducible refine keeps_freeCnt (Nat.le_add_right _ _) ?_)

theorem State.startChains_keeps {x1 x2} (h : Keeps a s) : Keeps a (State.startChains s x1 x2) := by
  unfold State.startChains
  try dsimp only
  repeat' (first | with_reducible assumption | with_reducible apply State.updGleaner_keeps | with_reducible refine keeps_foldl (fun _ _ _ => ?_) ?_ | with_reducible refine keeps_forUpto (fun _ _ _ => ?_) ?_ | split | with_reducible refine keeps_freeCnt (Nat.le_add_right _ _) ?_)

theorem State.advanceCtx_keeps {x1} (h : Keeps a s) : Keeps a (State.advanceCtx s x1) := by
  unfold State.advanceCtx
  try dsimp only
  repeat' (first | with_reducible assumption | with_reducible apply State.startChains_keeps | with_reducible apply State.tryAll_keeps | with_reducible apply State.updInst_keeps | with_reducible refine keeps_foldl (fun _ _ _ => ?_) ?_ | with_reducible refine keeps_forUpto (fun _ _ _ => ?_) ?_ | split | with_reducible refine keeps_freeCnt (Nat.le_add_right _ _) ?_)

theorem State.endWalks_keeps {x1 x2} (h : Keeps a s) : Keeps a (State.endWalks s x1 x2) := by
  unfold State.endWalks
  try dsimp only
  repeat' (first | with_reducible assumption | with_reducible apply State.updKvw_keeps | with_reducible refine keeps_foldl (fun _ _ _ => ?_) ?_ | with_reducible refine keeps_forUpto (fun _ _ _ => ?_) ?_ | split | with_reducible refine keeps_freeCnt (Nat.le_add_right _ _) ?_)

theorem State.dropWalks_keeps {x1} (h : Keeps a s) : Keeps a (State.dropWalks s x1) := by
  unfold State.dropWalks
  try dsimp only
  repeat' (first | with_reducible assumption | with_reducible apply State.updKvw_keeps | with_reducible refine keeps_foldl (fun _ _ _ => ?_) ?_ | with_reducible refine keeps_forUpto (fun _ _ _ => ?_) ?_ | split | with_reducible refine keeps_freeCnt (Nat.le_add_right _ _) ?_)

theorem State.glnHalt_keeps {x1} (h : Keeps a s) : Keeps a (State.glnHalt s x1) := by
  unfold State.glnHalt
  try dsimp only
  repeat' (first | with_reducible assumption | with_reducible apply State.endWalks_keeps | with_reducible apply State.dropWalks_keeps | with_reducible apply State.updGleaner_keeps | with_reducible refine keeps_foldl (fun _ _ _ => ?_) ?_ | with_reducible refine keeps_forUpto (fun _ _ _ => ?_) ?_ | split | with_reducible refine keeps_freeCnt (Nat.le_add_right _ _) ?_)

theorem State.endChains_keeps {x1 x2} (h : Keeps a s) : Keeps a (State.endChains s x1 x2) := by
  unfold State.endChains
  try dsimp only
  repeat' (first | with_reducible assumption | with_reducible apply State.glnHalt_keeps | with_reducible apply State.updGleaner_keeps | with_reducible refine keeps_foldl (fun _ _ _ => ?_) ?_ | with_reducible refine keeps_forUpto (fun _ _ _ => ?_) ?_ | split | with_reducible refine keeps_freeCnt (Nat.le_add_right _ _) ?_)

theorem State.nextChain_keeps {x1} (h : Keeps a s) : Keeps a (State.nextChain s x1) := by
  unfold State.nextChain
  try dsimp only
  repeat' (first | with_reducible assumption | with_reducible apply State.updGleaner_keeps | with_reducible refine keeps_foldl (fun _ _ _ => ?_) ?_ | with_reducible refine keeps_forUpto (fun _ _ _ => ?_) ?_ | split | with_reducible refine keeps_freeCnt (Nat.le_add_right _ _) ?_)

theorem State.instDone_keeps {x1 x2} (h : Keeps a s) : Keeps a (State.instDone s x1 x2) := by
  unfold State.instDone
  try dsimp only
  repeat' (first | with_reducible assumption | with_reducible apply State.advanceCtx_keeps | with_reducible apply State.updEp_keeps | with_reducible apply keeps_mapCx | with_reducible refine keeps_foldl (fun _ _ _ => ?_) ?_ | with_reducible refine keeps_forUpto (fun _ _ _ => ?_) ?_ | split | with_reducible refine keeps_freeCnt (Nat.le_add_right _ _) ?_)

theorem State.completeNode_keeps {x1 x2 x3} (h : Keeps a s) : Keeps a (State.completeNode s x1 x2 x3) := by
  unfold State.completeNode
  try dsimp only
  repeat' (first | with_reducible assumption | with_reducible apply State.instDone_keeps | with_reducible apply State.tryRelease_keeps | with_reducible apply State.updInst_keeps | with_reducible refine keeps_foldl (fun _ _ _ => ?_) ?_ | with_reducible refine keeps_forUpto (fun _ _ _ => ?_) ?_ | split | with_reducible refine keeps_freeCnt (Nat.le_add_right _ _) ?_)

theorem State.cplRecord_keeps {x1 x2} (h : Keeps a s) : Keeps a (State.cplRecord s x1 x2) := by
  unfold State.cplRecord
  try dsimp only
  repeat' (first | with_reducible assumption | with_reducible apply State.updEng_keeps | with_reducible refine keeps_foldl (fun _ _ _ => ?_) ?_ | with_reducible refine keeps_forUpto (fun _ _ _ => ?_) ?_ | split | with_reducible refine keeps_freeCnt (Nat.le_add_right _ _) ?_)

theorem State.gateError_keeps {x1 x2 x3 x4} (h : Keeps a s) : Keeps a (State.gateError s x1 x2 x3 x4) := by
  unfold State.gateError
  try dsimp only
  repeat' (first | with_reducible assumption | with_reducible apply State.withhold_keeps | with_reducible apply State.fault_keeps | with_reducible refine keeps_foldl (fun _ _ _ => ?_) ?_ | with_reducible refine keeps_forUpto (fun _ _ _ => ?_) ?_ | split | with_reducible refine keeps_freeCnt (Nat.le_add_right _ _) ?_)

theorem State.writeGateState_keeps {x1 x2} (h : Keeps a s) : Keeps a (State.writeGateState s x1 x2).2 := by
  unfold State.writeGateState
  try dsimp only
  repeat' (first | with_reducible assumption | with_reducible apply State.store_keeps | with_reducible refine State.store_keepsEq (by assumption) ?_ | with_reducible refine keeps_foldl (fun _ _ _ => ?_) ?_ | with_reducible refine keeps_forUpto (fun _ _ _ => ?_) ?_ | split | with_reducible refine keeps_freeCnt (Nat.le_add_right _ _) ?_)

theorem State.writeGateState_keepsEq {x1 x2 r} (e : State.writeGateState s x1 x2 = (r, t)) (h : Keeps a s) : Keeps a t := by
  have k := State.writeGateState_keeps (a := a) (x1 := x1) (x2 := x2) h
  rw [e] at k; exact k

theorem State.dropGate_keeps {x1} (h : Keeps a s) : Keeps a (State.dropGate s x1) := by
  unfold State.dropGate
  try dsimp only
  repeat' (first | with_reducible assumption | with_reducible apply keeps_mapCx | with_reducible refine keeps_foldl (fun _ _ _ => ?_) ?_ | with_reducible refine keeps_forUpto (fun _ _ _ => ?_) ?_ | split | with_reducible refine keeps_freeCnt (Nat.le_add_right _ _) ?_)

theorem State.giveUpGate_keeps {x1} (h : Keeps a s) : Keeps a (State.giveUpGate s x1) := by
  unfold State.giveUpGate
  try dsimp only
  repeat' (first | with_reducible assumption | with_reducible apply State.store_keeps | with_reducible refine State.store_keepsEq (by assumption) ?_ | with_reducible apply State.dropGate_keeps | with_reducible refine keeps_foldl (fun _ _ _ => ?_) ?_ | with_reducible refine keeps_forUpto (fun _ _ _ => ?_) ?_ | split | with_reducible refine keeps_freeCnt (Nat.le_add_right _ _) ?_)

theorem State.closeGate_keeps {x1} (h : Keeps a s) : Keeps a (State.closeGate s x1) := by
  unfold State.closeGate
  try dsimp only
  repeat' (first | with_reducible assumption | with_reducible apply State.completeNode_keeps | with_reducible apply State.dropGate_keeps | with_reducible apply State.gateError_keeps | with_reducible apply State.writeGateState_keeps | with_reducible refine State.writeGateState_keepsEq (by assumption) ?_ | with_reducible refine keeps_foldl (fun _ _ _ => ?_) ?_ | with_reducible refine keeps_forUpto (fun _ _ _ => ?_) ?_ | split | with_reducible refine keeps_freeCnt (Nat.le_add_right _ _) ?_)

theorem State.gateSheafDone_keeps {x1 x2} (h : Keeps a s) : Keeps a (State.gateSheafDone s x1 x2) := by
  unfold State.gateSheafDone
  try dsimp only
  repeat' (first | with_reducible assumption | with_reducible apply State.closeGate_keeps | with_reducible apply keeps_mapCx | with_reducible refine keeps_foldl (fun _ _ _ => ?_) ?_ | with_reducible refine keeps_forUpto (fun _ _ _ => ?_) ?_ | split | with_reducible refine keeps_freeCnt (Nat.le_add_right _ _) ?_)

theorem State.discardQueued_keeps {x1 x2 x3} (h : Keeps a s) : Keeps a (State.discardQueued s x1 x2 x3) := by
  unfold State.discardQueued
  try dsimp only
  repeat' (first | with_reducible assumption | with_reducible apply State.cplRecord_keeps | with_reducible apply State.updEng_keeps | with_reducible refine keeps_foldl (fun _ _ _ => ?_) ?_ | with_reducible refine keeps_forUpto (fun _ _ _ => ?_) ?_ | split | with_reducible refine keeps_freeCnt (Nat.le_add_right _ _) ?_)

theorem State.abandonInst_keeps {x1 x2} (h : Keeps a s) : Keeps a (State.abandonInst s x1 x2) := by
  unfold State.abandonInst
  try dsimp only
  repeat' (first | with_reducible assumption | with_reducible apply State.advanceCtx_keeps | with_reducible apply State.drainReady_keeps | with_reducible apply keeps_mapOut | with_reducible apply State.endChains_keeps | with_reducible apply State.giveUpGate_keeps | with_reducible apply keeps_mapCx | with_reducible apply State.discardQueued_keeps | with_reducible refine keeps_foldl (fun _ _ _ => ?_) ?_ | with_reducible refine keeps_forUpto (fun _ _ _ => ?_) ?_ | split | with_reducible refine keeps_freeCnt (Nat.le_add_right _ _) ?_)

theorem State.abandonEpoch_keeps {x1} (h : Keeps a s) : Keeps a (State.abandonEpoch s x1) := by
  unfold State.abandonEpoch
  try dsimp only
  repeat' (first | with_reducible assumption | with_reducible apply State.abandonInst_keeps | with_reducible refine keeps_foldl (fun _ _ _ => ?_) ?_ | with_reducible refine keeps_forUpto (fun _ _ _ => ?_) ?_ | split | with_reducible refine keeps_freeCnt (Nat.le_add_right _ _) ?_)

end Sys2Proof.Machine
end

