-- ==== Sys2Proof/Laws/KeepsDenpaMsg.lean ====
section
/-! SUPPORT. Every operation of Machine/DenpaMsg.lean carries `Keeps` on. -/

namespace Sys2Proof.Machine

set_option linter.unusedTactic false
set_option linter.unreachableTactic false

variable {a s t : State}

theorem State.send_keeps {x1} (h : Keeps a s) : Keeps a (State.send s x1) := by
  unfold State.send
  try dsimp only
  repeat' (first | with_reducible assumption | with_reducible apply keeps_mapDnp | with_reducible refine keeps_foldl (fun _ _ _ => ?_) ?_ | with_reducible refine keeps_forUpto (fun _ _ _ => ?_) ?_ | split | with_reducible refine keeps_freeCnt (Nat.le_add_right _ _) ?_)

end Sys2Proof.Machine
end

