-- ==== Sys2Proof/Laws/KeepsIngestBase.lean ====
section
/-! SUPPORT. Every operation of Machine/IngestBase.lean carries `Keeps` on. -/

namespace Sys2Proof.Machine

set_option linter.unusedTactic false
set_option linter.unreachableTactic false

variable {a s t : State}

theorem State.updChan_keeps {x1 x2 x3} (h : Keeps a s) : Keeps a (State.updChan s x1 x2 x3) := by
  unfold State.updChan
  try dsimp only
  repeat' (first | with_reducible assumption | with_reducible apply State.updStream_keeps | with_reducible refine keeps_foldl (fun _ _ _ => ?_) ?_ | with_reducible refine keeps_forUpto (fun _ _ _ => ?_) ?_ | split | with_reducible refine keeps_freeCnt (Nat.le_add_right _ _) ?_)

theorem State.dropUntagged_keeps (h : Keeps a s) : Keeps a (State.dropUntagged s) := by
  unfold State.dropUntagged
  try dsimp only
  repeat' (first | with_reducible assumption | with_reducible apply keeps_mapIng | with_reducible refine keeps_foldl (fun _ _ _ => ?_) ?_ | with_reducible refine keeps_forUpto (fun _ _ _ => ?_) ?_ | split | with_reducible refine keeps_freeCnt (Nat.le_add_right _ _) ?_)

end Sys2Proof.Machine
end

