-- ==== Sys2Proof/Laws/KeepsTally.lean ====
section
/-! SUPPORT. Every operation of Machine/Tally.lean carries `Keeps` on. -/

namespace Sys2Proof.Machine

set_option linter.unusedTactic false
set_option linter.unreachableTactic false

variable {a s t : State}

theorem State.updGold_keeps {x1 x2} (h : Keeps a s) : Keeps a (State.updGold s x1 x2) := by
  unfold State.updGold
  try dsimp only
  repeat' (first | with_reducible assumption | with_reducible apply keeps_mapHwa | with_reducible refine keeps_foldl (fun _ _ _ => ?_) ?_ | with_reducible refine keeps_forUpto (fun _ _ _ => ?_) ?_ | split | with_reducible refine keeps_freeCnt (Nat.le_add_right _ _) ?_)

theorem State.pullGold_keeps {x1 x2} (h : Keeps a s) : Keeps a (State.pullGold s x1 x2) := by
  unfold State.pullGold
  try dsimp only
  repeat' (first | with_reducible assumption | with_reducible apply State.updEng_keeps | with_reducible refine keeps_foldl (fun _ _ _ => ?_) ?_ | with_reducible refine keeps_forUpto (fun _ _ _ => ?_) ?_ | split | with_reducible refine keeps_freeCnt (Nat.le_add_right _ _) ?_)

theorem State.goldOpen_keeps {x1} (h : Keeps a s) : Keeps a (State.goldOpen s x1) := by
  unfold State.goldOpen
  try dsimp only
  repeat' (first | with_reducible assumption | with_reducible apply keeps_mapHwa | with_reducible apply State.updEng_keeps | with_reducible refine keeps_foldl (fun _ _ _ => ?_) ?_ | with_reducible refine keeps_forUpto (fun _ _ _ => ?_) ?_ | split | with_reducible refine keeps_freeCnt (Nat.le_add_right _ _) ?_)

theorem State.goldDefer_keeps {x1} (h : Keeps a s) : Keeps a (State.goldDefer s x1) := by
  unfold State.goldDefer
  try dsimp only
  repeat' (first | with_reducible assumption | with_reducible apply State.updGold_keeps | with_reducible apply State.updEp_keeps | with_reducible apply State.pullGold_keeps | with_reducible apply keeps_mapHwa | with_reducible refine keeps_foldl (fun _ _ _ => ?_) ?_ | with_reducible refine keeps_forUpto (fun _ _ _ => ?_) ?_ | split | with_reducible refine keeps_freeCnt (Nat.le_add_right _ _) ?_)

theorem State.schedRecord_keeps {x1 x2 x3} (h : Keeps a s) : Keeps a (State.schedRecord s x1 x2 x3) := by
  unfold State.schedRecord
  try dsimp only
  repeat' (first | with_reducible assumption | with_reducible apply State.sendRecord_keeps | with_reducible refine keeps_foldl (fun _ _ _ => ?_) ?_ | with_reducible refine keeps_forUpto (fun _ _ _ => ?_) ?_ | split | with_reducible refine keeps_freeCnt (Nat.le_add_right _ _) ?_)

theorem State.stageRegs_keeps {x1} (h : Keeps a s) : Keeps a (State.stageRegs s x1) := by
  unfold State.stageRegs
  try dsimp only
  repeat' (first | with_reducible assumption | with_reducible apply State.updWdgStage_keeps | with_reducible refine keeps_foldl (fun _ _ _ => ?_) ?_ | with_reducible refine keeps_forUpto (fun _ _ _ => ?_) ?_ | split | with_reducible refine keeps_freeCnt (Nat.le_add_right _ _) ?_)

theorem State.forgetEpoch_keeps {x1} (h : Keeps a s) : Keeps a (State.forgetEpoch s x1) := by
  unfold State.forgetEpoch
  try dsimp only
  repeat' (first | with_reducible assumption | with_reducible apply keeps_mapIng | with_reducible apply keeps_mapOut | with_reducible apply keeps_mapHwa | with_reducible refine keeps_mapTly (by intro x hx; first | exact hx | (dsimp only; split <;> exact hx)) ?_ | with_reducible refine keeps_foldl (fun _ _ _ => ?_) ?_ | with_reducible refine keeps_forUpto (fun _ _ _ => ?_) ?_ | split | with_reducible refine keeps_freeCnt (Nat.le_add_right _ _) ?_)

theorem State.scrub_keeps {x1} (h : Keeps a s) : Keeps a (State.scrub s x1) := by
  unfold State.scrub
  try dsimp only
  repeat' (first | with_reducible assumption | with_reducible apply State.write_keeps | with_reducible apply State.freeBytes_keeps | with_reducible refine State.freeBytes_keepsEq (by assumption) ?_ | with_reducible refine keeps_foldl (fun _ _ _ => ?_) ?_ | with_reducible refine keeps_forUpto (fun _ _ _ => ?_) ?_ | split | with_reducible refine keeps_freeCnt (Nat.le_add_right _ _) ?_)

theorem State.decideEpoch_keeps {x1 x2 x3} (h : Keeps a s) : Keeps a (State.decideEpoch s x1 x2 x3) := by
  unfold State.decideEpoch
  extract_lets s1 e1 r1 s2 s3 s4 s5 s6 s7
  have h1 : Keeps a s1 := by
    dsimp only [s1]
    repeat' (first | with_reducible assumption | with_reducible apply State.goldDefer_keeps | split)
  clear_value s1
  have h2 : Keeps a s2 := by
    refine keeps_mapTly (fun x hx => ?_) h1
    dsimp only
    rw [List.length_drop, List.length_append, List.length_singleton]
    omega
  clear_value s2
  have h3 : Keeps a s3 := by
    dsimp only [s3]
    apply State.stageRegs_keeps
    split
    · exact h2
    · exact State.scrub_keeps h2
  clear_value s3
  have h4 : Keeps a s4 := by
    dsimp only [s4]
    split
    · exact keeps_mapOut h3
    · exact h3
  clear_value s4
  have h5 : Keeps a s5 := by
    dsimp only [s5]
    refine keeps_mapPair (by intro x; rfl) ?_
    exact keeps_forUpto (fun _ _ k => State.updOpc_keeps k) h4
  clear_value s5
  have h6 : Keeps a s6 := by
    dsimp only [s6]
    split
    · exact keeps_mapPair (by intro x; rfl) h5
    · exact h5
  clear_value s6
  have h7 : Keeps a s7 := by
    dsimp only [s7]
    split
    · exact State.send_keeps h6
    · exact h6
  clear_value s7
  exact State.schedRecord_keeps (State.forgetEpoch_keeps h7)

end Sys2Proof.Machine
end

