-- ==== Sys2Proof/Laws/KeepsComplete.lean ====
section
/-! SUPPORT. Every operation of Machine/Complete.lean carries `Keeps` on. -/

namespace Sys2Proof.Machine

set_option linter.unusedTactic false
set_option linter.unreachableTactic false

variable {a s t : State}

theorem State.slip_keeps {x1} (h : Keeps a s) : Keeps a (State.slip s x1) := by
  unfold State.slip
  try dsimp only
  repeat' (first | with_reducible assumption | with_reducible apply keeps_mapMbx | with_reducible refine keeps_foldl (fun _ _ _ => ?_) ?_ | with_reducible refine keeps_forUpto (fun _ _ _ => ?_) ?_ | split | with_reducible refine keeps_freeCnt (Nat.le_add_right _ _) ?_)

theorem State.complete_keeps {x1 x2 x3 x4} (h : Keeps a s) : Keeps a (State.complete s x1 x2 x3 x4) := by
  unfold State.complete
  try dsimp only
  repeat' (first | with_reducible assumption | with_reducible apply State.slip_keeps | with_reducible apply State.updSlot_keeps | with_reducible apply State.freeWord_keeps | with_reducible refine State.freeWord_keepsEq (by assumption) ?_ | with_reducible apply State.freeBytes_keeps | with_reducible refine State.freeBytes_keepsEq (by assumption) ?_ | with_reducible refine keeps_foldl (fun _ _ _ => ?_) ?_ | with_reducible refine keeps_forUpto (fun _ _ _ => ?_) ?_ | split | with_reducible refine keeps_freeCnt (Nat.le_add_right _ _) ?_)

theorem State.promotePair_keeps (h : Keeps a s) : Keeps a (State.promotePair s) := by
  unfold State.promotePair
  try dsimp only
  repeat' (first | with_reducible assumption | with_reducible refine keeps_mapSec (by intro x; rfl) (by intro x; rfl) (by intro x; exact Nat.le_refl _) (by intro x; rfl) ?_ | with_reducible refine keeps_foldl (fun _ _ _ => ?_) ?_ | with_reducible refine keeps_forUpto (fun _ _ _ => ?_) ?_ | split | with_reducible refine keeps_freeCnt (Nat.le_add_right _ _) ?_)

theorem State.endCmd_keeps {x1 x2} (h : Keeps a s) : Keeps a (State.endCmd s x1 x2) := by
  unfold State.endCmd
  try dsimp only
  repeat' (first | with_reducible assumption | with_reducible apply State.complete_keeps | with_reducible apply State.promotePair_keeps | with_reducible apply keeps_mapCmds | with_reducible refine keeps_foldl (fun _ _ _ => ?_) ?_ | with_reducible refine keeps_forUpto (fun _ _ _ => ?_) ?_ | split | with_reducible refine keeps_freeCnt (Nat.le_add_right _ _) ?_)

theorem State.noteApplied_keeps {x1} (h : Keeps a s) : Keeps a (State.noteApplied s x1) := by
  unfold State.noteApplied
  try dsimp only
  repeat' (first | with_reducible assumption | with_reducible refine keeps_mapTly (by intro x hx; first | exact hx | (dsimp only; split <;> exact hx)) ?_ | with_reducible apply keeps_mapCmds | with_reducible refine keeps_foldl (fun _ _ _ => ?_) ?_ | with_reducible refine keeps_forUpto (fun _ _ _ => ?_) ?_ | split | with_reducible refine keeps_freeCnt (Nat.le_add_right _ _) ?_)

theorem State.dropCmds_keeps (h : Keeps a s) : Keeps a (State.dropCmds s) := by
  unfold State.dropCmds
  try dsimp only
  repeat' (first | with_reducible assumption | with_reducible apply State.endCmd_keeps | with_reducible refine keeps_foldl (fun _ _ _ => ?_) ?_ | with_reducible refine keeps_forUpto (fun _ _ _ => ?_) ?_ | split | with_reducible refine keeps_freeCnt (Nat.le_add_right _ _) ?_)

end Sys2Proof.Machine
end

