-- ==== Sys2Proof/Laws/KeepsRoles.lean ====
section
/-! SUPPORT. Every operation of Machine/Roles.lean carries `Keeps` on. -/

namespace Sys2Proof.Machine

set_option linter.unusedTactic false
set_option linter.unreachableTactic false

variable {a s t : State}

theorem State.setPState_keeps {x1} (h : Keeps a s) : Keeps a (State.setPState s x1) := by
  unfold State.setPState
  try dsimp only
  repeat' (first | with_reducible assumption | with_reducible apply keeps_mapMbx | with_reducible refine keeps_mapPair (by intro x; first | with_reducible rfl | (dsimp only; repeat' split) <;> with_reducible rfl) ?_ | with_reducible refine keeps_foldl (fun _ _ _ => ?_) ?_ | with_reducible refine keeps_forUpto (fun _ _ _ => ?_) ?_ | split | with_reducible refine keeps_freeCnt (Nat.le_add_right _ _) ?_)

theorem State.twinLeaves_keeps (h : Keeps a s) : Keeps a (State.twinLeaves s) := by
  unfold State.twinLeaves
  try dsimp only
  repeat' (first | with_reducible assumption | with_reducible apply State.tryEpoch_keeps | with_reducible apply State.endCmd_keeps | with_reducible apply State.dropUntagged_keeps | with_reducible refine keeps_mapPair (by intro x; first | with_reducible rfl | (dsimp only; repeat' split) <;> with_reducible rfl) ?_ | with_reducible apply State.updEps_keeps | with_reducible apply State.setPState_keeps | with_reducible refine keeps_foldl (fun _ _ _ => ?_) ?_ | with_reducible refine keeps_forUpto (fun _ _ _ => ?_) ?_ | split | with_reducible refine keeps_freeCnt (Nat.le_add_right _ _) ?_)

theorem State.commanderLost_keeps (h : Keeps a s) : Keeps a (State.commanderLost s) := by
  unfold State.commanderLost
  try dsimp only
  repeat' (first | with_reducible assumption | with_reducible apply State.updEps_keeps | with_reducible apply State.setPState_keeps | with_reducible refine keeps_foldl (fun _ _ _ => ?_) ?_ | with_reducible refine keeps_forUpto (fun _ _ _ => ?_) ?_ | split | with_reducible refine keeps_freeCnt (Nat.le_add_right _ _) ?_)

theorem State.startJoin_keeps (h : Keeps a s) : Keeps a (State.startJoin s) := by
  unfold State.startJoin
  refine State.send_keeps (State.setPState_keeps (keeps_mapPair (by intro x; rfl) (keeps_mapTly (fun x _ => ?_) h)))
  exact Nat.zero_le _

theorem State.tryJoin_keeps (h : Keeps a s) : Keeps a (State.tryJoin s) := by
  unfold State.tryJoin
  try dsimp only
  repeat' (first | with_reducible assumption | with_reducible apply State.startJoin_keeps | with_reducible refine keeps_foldl (fun _ _ _ => ?_) ?_ | with_reducible refine keeps_forUpto (fun _ _ _ => ?_) ?_ | split | with_reducible refine keeps_freeCnt (Nat.le_add_right _ _) ?_)

theorem State.dropEpoch_keeps {x1} (h : Keeps a s) : Keeps a (State.dropEpoch s x1) := by
  unfold State.dropEpoch
  try dsimp only
  repeat' (first | with_reducible assumption | with_reducible apply State.abandonEpoch_keeps | with_reducible apply State.forgetEpoch_keeps | with_reducible apply State.pullGold_keeps | with_reducible apply State.updGold_keeps | with_reducible refine keeps_foldl (fun _ _ _ => ?_) ?_ | with_reducible refine keeps_forUpto (fun _ _ _ => ?_) ?_ | split | with_reducible refine keeps_freeCnt (Nat.le_add_right _ _) ?_)

theorem State.dropRemote_keeps (h : Keeps a s) : Keeps a (State.dropRemote s) := by
  unfold State.dropRemote
  try dsimp only
  repeat' (first | with_reducible assumption | with_reducible apply keeps_mapCmds | with_reducible refine keeps_foldl (fun _ _ _ => ?_) ?_ | with_reducible refine keeps_forUpto (fun _ _ _ => ?_) ?_ | split | with_reducible refine keeps_freeCnt (Nat.le_add_right _ _) ?_)

theorem State.leaveTo_keeps {x1} (h : Keeps a s) : Keeps a (State.leaveTo s x1) := by
  unfold State.leaveTo
  try dsimp only
  repeat' (first | with_reducible assumption | with_reducible refine keeps_mapPair (by intro x; first | with_reducible rfl | (dsimp only; repeat' split) <;> with_reducible rfl) ?_ | with_reducible apply State.dropUntagged_keeps | with_reducible apply State.setPState_keeps | with_reducible apply State.dropEpoch_keeps | with_reducible apply State.dropRemote_keeps | with_reducible apply State.dropCmds_keeps | with_reducible refine keeps_foldl (fun _ _ _ => ?_) ?_ | with_reducible refine keeps_forUpto (fun _ _ _ => ?_) ?_ | split | with_reducible refine keeps_freeCnt (Nat.le_add_right _ _) ?_)

theorem State.leavePair_keeps (h : Keeps a s) : Keeps a (State.leavePair s) := by
  unfold State.leavePair
  try dsimp only
  repeat' (first | with_reducible assumption | with_reducible apply State.leaveTo_keeps | with_reducible apply State.tryJoin_keeps | with_reducible refine keeps_foldl (fun _ _ _ => ?_) ?_ | with_reducible refine keeps_forUpto (fun _ _ _ => ?_) ?_ | split | with_reducible refine keeps_freeCnt (Nat.le_add_right _ _) ?_)

theorem State.joinAgain_keeps (h : Keeps a s) : Keeps a (State.joinAgain s) := by
  unfold State.joinAgain
  try dsimp only
  repeat' (first | with_reducible assumption | with_reducible refine keeps_mapPair (by intro x; first | with_reducible rfl | (dsimp only; repeat' split) <;> with_reducible rfl) ?_ | with_reducible apply State.tryJoin_keeps | with_reducible apply State.dropRemote_keeps | with_reducible apply State.dropEpoch_keeps | with_reducible refine keeps_foldl (fun _ _ _ => ?_) ?_ | with_reducible refine keeps_forUpto (fun _ _ _ => ?_) ?_ | split | with_reducible refine keeps_freeCnt (Nat.le_add_right _ _) ?_)

theorem State.resign_keeps {x1 x2} (h : Keeps a s) : Keeps a (State.resign s x1 x2) := by
  unfold State.resign
  try dsimp only
  repeat' (first | with_reducible assumption | with_reducible apply State.leavePair_keeps | with_reducible apply State.dropCmds_keeps | with_reducible refine keeps_mapPair (by intro x; first | with_reducible rfl | (dsimp only; repeat' split) <;> with_reducible rfl) ?_ | with_reducible apply State.setPState_keeps | with_reducible apply State.send_keeps | with_reducible refine keeps_foldl (fun _ _ _ => ?_) ?_ | with_reducible refine keeps_forUpto (fun _ _ _ => ?_) ?_ | split | with_reducible refine keeps_freeCnt (Nat.le_add_right _ _) ?_)

theorem State.resumeSched_keeps (h : Keeps a s) : Keeps a (State.resumeSched s) := by
  unfold State.resumeSched
  try dsimp only
  repeat' (first | with_reducible assumption | with_reducible refine keeps_mapTly (by intro x hx; first | exact hx | (dsimp only; split <;> exact hx)) ?_ | with_reducible refine keeps_foldl (fun _ _ _ => ?_) ?_ | with_reducible refine keeps_forUpto (fun _ _ _ => ?_) ?_ | split | with_reducible refine keeps_freeCnt (Nat.le_add_right _ _) ?_)

theorem State.takeRole_keeps {x1} (h : Keeps a s) : Keeps a (State.takeRole s x1) := by
  unfold State.takeRole
  try dsimp only
  repeat' (first | with_reducible assumption | with_reducible apply State.tryEpoch_keeps | with_reducible apply State.dropUntagged_keeps | with_reducible refine keeps_mapPair (by intro x; first | with_reducible rfl | (dsimp only; repeat' split) <;> with_reducible rfl) ?_ | with_reducible apply State.setPState_keeps | with_reducible apply State.updEps_keeps | with_reducible apply State.resumeSched_keeps | with_reducible apply State.dropRemote_keeps | with_reducible refine keeps_foldl (fun _ _ _ => ?_) ?_ | with_reducible refine keeps_forUpto (fun _ _ _ => ?_) ?_ | split | with_reducible refine keeps_freeCnt (Nat.le_add_right _ _) ?_)

theorem State.lostTwin_keeps (h : Keeps a s) : Keeps a (State.lostTwin s) := by
  unfold State.lostTwin
  try dsimp only
  repeat' (first | with_reducible assumption | with_reducible apply State.dropEpoch_keeps | with_reducible refine keeps_mapPair (by intro x; first | with_reducible rfl | (dsimp only; repeat' split) <;> with_reducible rfl) ?_ | with_reducible apply State.setPState_keeps | with_reducible apply State.commanderLost_keeps | with_reducible apply State.twinLeaves_keeps | with_reducible refine keeps_foldl (fun _ _ _ => ?_) ?_ | with_reducible refine keeps_forUpto (fun _ _ _ => ?_) ?_ | split | with_reducible refine keeps_freeCnt (Nat.le_add_right _ _) ?_)

theorem State.linkFault_keeps (h : Keeps a s) : Keeps a (State.linkFault s) := by
  unfold State.linkFault
  try dsimp only
  repeat' (first | with_reducible assumption | with_reducible apply State.fault_keeps | with_reducible apply State.lostTwin_keeps | with_reducible apply State.freeWord_keeps | with_reducible refine State.freeWord_keepsEq (by assumption) ?_ | with_reducible apply keeps_mapIng | with_reducible refine keeps_mapPair (by intro x; first | with_reducible rfl | (dsimp only; repeat' split) <;> with_reducible rfl) ?_ | with_reducible apply keeps_mapDnp | with_reducible refine keeps_foldl (fun _ _ _ => ?_) ?_ | with_reducible refine keeps_forUpto (fun _ _ _ => ?_) ?_ | split | with_reducible refine keeps_freeCnt (Nat.le_add_right _ _) ?_)

theorem State.afterDecision_keeps {x1 x2} (h : Keeps a s) : Keeps a (State.afterDecision s x1 x2) := by
  unfold State.afterDecision
  try dsimp only
  repeat' (first | with_reducible assumption | with_reducible apply State.send_keeps | with_reducible apply State.resign_keeps | with_reducible apply State.twinLeaves_keeps | with_reducible apply State.leavePair_keeps | with_reducible refine keeps_foldl (fun _ _ _ => ?_) ?_ | with_reducible refine keeps_forUpto (fun _ _ _ => ?_) ?_ | split | with_reducible refine keeps_freeCnt (Nat.le_add_right _ _) ?_)

theorem State.resignCheck_keeps (h : Keeps a s) : Keeps a (State.resignCheck s) := by
  unfold State.resignCheck
  try dsimp only
  repeat' (first | with_reducible assumption | with_reducible apply State.resign_keeps | with_reducible refine keeps_foldl (fun _ _ _ => ?_) ?_ | with_reducible refine keeps_forUpto (fun _ _ _ => ?_) ?_ | split | with_reducible refine keeps_freeCnt (Nat.le_add_right _ _) ?_)

theorem State.settleOnce_keeps (h : Keeps a s) : Keeps a (State.settleOnce s) := by
  unfold State.settleOnce
  try dsimp only
  repeat' (first | with_reducible assumption | with_reducible refine keeps_mapPair (by intro x; first | with_reducible rfl | (dsimp only; repeat' split) <;> with_reducible rfl) ?_ | with_reducible apply State.forgetEpoch_keeps | with_reducible apply State.decideEpoch_keeps | with_reducible apply State.afterDecision_keeps | with_reducible apply State.updEp_keeps | with_reducible apply State.goldDefer_keeps | with_reducible apply State.abandonEpoch_keeps | with_reducible refine keeps_foldl (fun _ _ _ => ?_) ?_ | with_reducible refine keeps_forUpto (fun _ _ _ => ?_) ?_ | split | with_reducible refine keeps_freeCnt (Nat.le_add_right _ _) ?_)

theorem settleN_keeps {n : Nat} (h : Keeps a s) : Keeps a (settleN n s) := by
  induction n generalizing s with
  | zero => exact h
  | succ n ih => exact ih (State.settleOnce_keeps h)

theorem State.swapCheck_keeps (h : Keeps a s) : Keeps a (State.swapCheck s) := by
  unfold State.swapCheck
  try dsimp only
  repeat' (first | with_reducible assumption | with_reducible apply State.resign_keeps | with_reducible apply State.noteApplied_keeps | with_reducible apply State.endCmd_keeps | with_reducible refine keeps_foldl (fun _ _ _ => ?_) ?_ | with_reducible refine keeps_forUpto (fun _ _ _ => ?_) ?_ | split | with_reducible refine keeps_freeCnt (Nat.le_add_right _ _) ?_)

theorem State.settle_keeps (h : Keeps a s) : Keeps a (State.settle s) := by
  unfold State.settle
  try dsimp only
  repeat' (first | with_reducible assumption | with_reducible apply State.resignCheck_keeps | with_reducible apply settleN_keeps | with_reducible apply State.swapCheck_keeps | with_reducible refine keeps_foldl (fun _ _ _ => ?_) ?_ | with_reducible refine keeps_forUpto (fun _ _ _ => ?_) ?_ | split | with_reducible refine keeps_freeCnt (Nat.le_add_right _ _) ?_)

end Sys2Proof.Machine
end

