-- ==== Sys2Proof/Laws/KeepsFlags.lean ====
section
/-! SUPPORT. Every operation of Machine/Flags.lean carries `Keeps` on. -/

namespace Sys2Proof.Machine

set_option linter.unusedTactic false
set_option linter.unreachableTactic false

variable {a s t : State}

theorem State.sheafFault_keeps {x1 x2 x3 x4} (h : Keeps a s) : Keeps a (State.sheafFault s x1 x2 x3 x4) := by
  unfold State.sheafFault
  try dsimp only
  repeat' (first | with_reducible assumption | with_reducible apply State.fault_keeps | with_reducible refine keeps_foldl (fun _ _ _ => ?_) ?_ | with_reducible refine keeps_forUpto (fun _ _ _ => ?_) ?_ | split | with_reducible refine keeps_freeCnt (Nat.le_add_right _ _) ?_)

end Sys2Proof.Machine
end

