-- ==== Sys2Proof/Laws/KeepsOperands.lean ====
section
/-! SUPPORT. Every operation of Machine/Operands.lean carries `Keeps` on. -/

namespace Sys2Proof.Machine

set_option linter.unusedTactic false
set_option linter.unreachableTactic false

variable {a s t : State}

theorem doWrites_keepsOk {w f} : ∀ (l : List (Nat × List Byte)) {s t : State}, doWrites w f l s = .ok t → Keeps a s → Keeps a t
  | [], s, t, e, h => by cases e; exact h
  | x :: r, s, t, e, h => by
    unfold doWrites at e
    split at e
    · rename_i u hu
      exact doWrites_keepsOk r e (State.store_keepsEq hu h)
    · cases e

end Sys2Proof.Machine
end

