-- ==== Sys2Proof/Laws/KeepsThresher.lean ====
section
/-! SUPPORT. Every operation of Machine/Thresher.lean carries `Keeps` on. -/

namespace Sys2Proof.Machine

set_option linter.unusedTactic false
set_option linter.unreachableTactic false

variable {a s t : State}

theorem tProduct_keepsOk {x1 x2 x3 x4 x5 x6} (e : tProduct s x1 x2 x3 x4 x5 x6 = .ok t) (h : Keeps a s) : Keeps a t := by
  unfold tProduct at e
  obtain ⟨_, _, e⟩ := except_bind_ok e
  obtain ⟨_, _, e⟩ := except_bind_ok e
  obtain ⟨_, _, e⟩ := except_bind_ok e
  exact doWrites_keepsOk _ e h

theorem State.eccRanges_keeps {x1} (h : Keeps a s) : Keeps a (State.eccRanges s x1) := by
  unfold State.eccRanges
  try dsimp only
  repeat' (first | with_reducible assumption | with_reducible apply State.eccRead_keeps | with_reducible refine keeps_foldl (fun _ _ _ => ?_) ?_ | with_reducible refine keeps_forUpto (fun _ _ _ => ?_) ?_ | split | with_reducible refine keeps_freeCnt (Nat.le_add_right _ _) ?_)

theorem thrSheaf_keeps {x1 x2 x3 x4} (h : Keeps a s) : Keeps a (thrSheaf s x1 x2 x3 x4).2 := by
  unfold thrSheaf
  try dsimp only
  repeat' (first | with_reducible assumption | with_reducible apply State.eccRanges_keeps | with_reducible refine tProduct_keepsOk (by assumption) ?_ | with_reducible refine keeps_foldl (fun _ _ _ => ?_) ?_ | with_reducible refine keeps_forUpto (fun _ _ _ => ?_) ?_ | split | with_reducible refine keeps_freeCnt (Nat.le_add_right _ _) ?_)

theorem thrSheaf_keepsEq {x1 x2 x3 x4 r} (e : thrSheaf s x1 x2 x3 x4 = (r, t)) (h : Keeps a s) : Keeps a t := by
  have k := thrSheaf_keeps (a := a) (x1 := x1) (x2 := x2) (x3 := x3) (x4 := x4) h
  rw [e] at k; exact k

end Sys2Proof.Machine
end

