-- ==== Sys2Proof/Laws/KeepsCarderUnit.lean ====
section
/-! SUPPORT. Every operation of Machine/CarderUnit.lean carries `Keeps` on. -/

namespace Sys2Proof.Machine

set_option linter.unusedTactic false
set_option linter.unreachableTactic false

variable {a s t : State}

theorem State.cIssue_keeps {x1 x2 x3} (h : Keeps a s) : Keeps a (State.cIssue s x1 x2 x3) := by
  unfold State.cIssue
  try dsimp only
  repeat' (first | with_reducible assumption | with_reducible apply State.updCarder_keeps | with_reducible refine keeps_foldl (fun _ _ _ => ?_) ?_ | with_reducible refine keeps_forUpto (fun _ _ _ => ?_) ?_ | split | with_reducible refine keeps_freeCnt (Nat.le_add_right _ _) ?_)

theorem State.cAccess_keeps {x1 x2 x3} (h : Keeps a s) : Keeps a (State.cAccess s x1 x2 x3) := by
  unfold State.cAccess
  try dsimp only
  repeat' (first | with_reducible assumption | with_reducible apply State.updCarder_keeps | with_reducible refine keeps_foldl (fun _ _ _ => ?_) ?_ | with_reducible refine keeps_forUpto (fun _ _ _ => ?_) ?_ | split | with_reducible refine keeps_freeCnt (Nat.le_add_right _ _) ?_)

theorem State.cNopI_keeps {x1} (h : Keeps a s) : Keeps a (State.cNopI s x1) := by
  unfold State.cNopI
  try dsimp only
  repeat' (first | with_reducible assumption | with_reducible apply State.cIssue_keeps | with_reducible refine keeps_foldl (fun _ _ _ => ?_) ?_ | with_reducible refine keeps_forUpto (fun _ _ _ => ?_) ?_ | split | with_reducible refine keeps_freeCnt (Nat.le_add_right _ _) ?_)

theorem State.cEndI_keeps {x1} (h : Keeps a s) : Keeps a (State.cEndI s x1) := by
  unfold State.cEndI
  try dsimp only
  repeat' (first | with_reducible assumption | with_reducible apply State.updCarder_keeps | with_reducible refine keeps_foldl (fun _ _ _ => ?_) ?_ | with_reducible refine keeps_forUpto (fun _ _ _ => ?_) ?_ | split | with_reducible refine keeps_freeCnt (Nat.le_add_right _ _) ?_)

theorem State.cLoopI_keeps {x1 x2 x3} (h : Keeps a s) : Keeps a (State.cLoopI s x1 x2 x3) := by
  unfold State.cLoopI
  try dsimp only
  repeat' (first | with_reducible assumption | with_reducible apply State.cIssue_keeps | with_reducible refine keeps_foldl (fun _ _ _ => ?_) ?_ | with_reducible refine keeps_forUpto (fun _ _ _ => ?_) ?_ | split | with_reducible refine keeps_freeCnt (Nat.le_add_right _ _) ?_)

theorem State.cSetaI_keeps {x1 x2 x3} (h : Keeps a s) : Keeps a (State.cSetaI s x1 x2 x3) := by
  unfold State.cSetaI
  try dsimp only
  repeat' (first | with_reducible assumption | with_reducible apply State.cIssue_keeps | with_reducible refine keeps_foldl (fun _ _ _ => ?_) ?_ | with_reducible refine keeps_forUpto (fun _ _ _ => ?_) ?_ | split | with_reducible refine keeps_freeCnt (Nat.le_add_right _ _) ?_)

theorem State.cSetsI_keeps {x1 x2 x3} (h : Keeps a s) : Keeps a (State.cSetsI s x1 x2 x3) := by
  unfold State.cSetsI
  try dsimp only
  repeat' (first | with_reducible assumption | with_reducible apply State.cIssue_keeps | with_reducible refine keeps_foldl (fun _ _ _ => ?_) ?_ | with_reducible refine keeps_forUpto (fun _ _ _ => ?_) ?_ | split | with_reducible refine keeps_freeCnt (Nat.le_add_right _ _) ?_)

theorem State.cSparI_keeps {x1 x2 x3} (h : Keeps a s) : Keeps a (State.cSparI s x1 x2 x3) := by
  unfold State.cSparI
  try dsimp only
  repeat' (first | with_reducible assumption | with_reducible apply State.cAccess_keeps | with_reducible apply State.eccRead_keeps | with_reducible apply State.updCarder_keeps | with_reducible refine keeps_foldl (fun _ _ _ => ?_) ?_ | with_reducible refine keeps_forUpto (fun _ _ _ => ?_) ?_ | split | with_reducible refine keeps_freeCnt (Nat.le_add_right _ _) ?_)

theorem State.cFenceI_keeps {x1} (h : Keeps a s) : Keeps a (State.cFenceI s x1) := by
  unfold State.cFenceI
  try dsimp only
  repeat' (first | with_reducible assumption | with_reducible apply State.cIssue_keeps | with_reducible refine keeps_foldl (fun _ _ _ => ?_) ?_ | with_reducible refine keeps_forUpto (fun _ _ _ => ?_) ?_ | split | with_reducible refine keeps_freeCnt (Nat.le_add_right _ _) ?_)

theorem State.cXldI_keeps {x1 x2 x3 x4 x5} (h : Keeps a s) : Keeps a (State.cXldI s x1 x2 x3 x4 x5) := by
  unfold State.cXldI
  try dsimp only
  repeat' (first | with_reducible assumption | with_reducible apply State.cAccess_keeps | with_reducible apply State.eccRead_keeps | with_reducible apply State.updCarder_keeps | with_reducible refine keeps_foldl (fun _ _ _ => ?_) ?_ | with_reducible refine keeps_forUpto (fun _ _ _ => ?_) ?_ | split | with_reducible refine keeps_freeCnt (Nat.le_add_right _ _) ?_)

theorem State.cXstI_keeps {x1 x2 x3 x4 x5} (h : Keeps a s) : Keeps a (State.cXstI s x1 x2 x3 x4 x5) := by
  unfold State.cXstI
  try dsimp only
  repeat' (first | with_reducible assumption | with_reducible apply State.cAccess_keeps | with_reducible apply State.store_keeps | with_reducible refine State.store_keepsEq (by assumption) ?_ | with_reducible apply State.updCarder_keeps | with_reducible refine keeps_foldl (fun _ _ _ => ?_) ?_ | with_reducible refine keeps_forUpto (fun _ _ _ => ?_) ?_ | split | with_reducible refine keeps_freeCnt (Nat.le_add_right _ _) ?_)

theorem State.cLaneFail_keeps {x1 x2 x3} (h : Keeps a s) : Keeps a (State.cLaneFail s x1 x2 x3) := by
  unfold State.cLaneFail
  try dsimp only
  repeat' (first | with_reducible assumption | with_reducible apply State.cAccess_keeps | with_reducible apply State.updCarder_keeps | with_reducible refine keeps_foldl (fun _ _ _ => ?_) ?_ | with_reducible refine keeps_forUpto (fun _ _ _ => ?_) ?_ | split | with_reducible refine keeps_freeCnt (Nat.le_add_right _ _) ?_)

theorem State.cGatherI_keeps {x1 x2 x3 x4 x5 x6} (h : Keeps a s) : Keeps a (State.cGatherI s x1 x2 x3 x4 x5 x6) := by
  unfold State.cGatherI
  try dsimp only
  repeat' (first | with_reducible assumption | with_reducible apply State.eccRead_keeps | with_reducible apply State.cLaneFail_keeps | with_reducible apply State.updCarder_keeps | with_reducible refine keeps_foldl (fun _ _ _ => ?_) ?_ | with_reducible refine keeps_forUpto (fun _ _ _ => ?_) ?_ | split | with_reducible refine keeps_freeCnt (Nat.le_add_right _ _) ?_)

theorem scatterLanes_keeps {w v} : ∀ (l : List (Nat × Nat × Bool)) {s : State}, Keeps a s → Keeps a (scatterLanes w v l s).2
  | [], s, h => h
  | (i, x, ok) :: r, s, h => by
    unfold scatterLanes
    split
    · exact h
    · split
      · rename_i hu; exact State.store_keepsEq hu h
      · rename_i hu; exact scatterLanes_keeps r (State.store_keepsEq hu h)

theorem scatterLanes_keepsEq {w v l r} (e : scatterLanes w v l s = (r, t)) (h : Keeps a s) : Keeps a t := by
  have k := scatterLanes_keeps (w := w) (v := v) l h
  rw [e] at k; exact k

theorem State.cScatterI_keeps {x1 x2 x3 x4 x5 x6} (h : Keeps a s) : Keeps a (State.cScatterI s x1 x2 x3 x4 x5 x6) := by
  unfold State.cScatterI
  try dsimp only
  repeat' (first | with_reducible assumption | with_reducible apply State.cLaneFail_keeps | with_reducible apply scatterLanes_keeps | with_reducible refine scatterLanes_keepsEq (by assumption) ?_ | with_reducible apply State.updCarder_keeps | with_reducible refine keeps_foldl (fun _ _ _ => ?_) ?_ | with_reducible refine keeps_forUpto (fun _ _ _ => ?_) ?_ | split | with_reducible refine keeps_freeCnt (Nat.le_add_right _ _) ?_)

theorem State.cLdI_keeps {x1 x2 x3 x4 x5 x6 x7} (h : Keeps a s) : Keeps a (State.cLdI s x1 x2 x3 x4 x5 x6 x7) := by
  unfold State.cLdI
  try dsimp only
  repeat' (first | with_reducible assumption | with_reducible apply State.cIssue_keeps | with_reducible refine keeps_foldl (fun _ _ _ => ?_) ?_ | with_reducible refine keeps_forUpto (fun _ _ _ => ?_) ?_ | split | with_reducible refine keeps_freeCnt (Nat.le_add_right _ _) ?_)

theorem State.cStI_keeps {x1 x2 x3 x4 x5 x6 x7 x8 x9} (h : Keeps a s) : Keeps a (State.cStI s x1 x2 x3 x4 x5 x6 x7 x8 x9) := by
  unfold State.cStI
  try dsimp only
  repeat' (first | with_reducible assumption | with_reducible apply State.cIssue_keeps | with_reducible refine keeps_foldl (fun _ _ _ => ?_) ?_ | with_reducible refine keeps_forUpto (fun _ _ _ => ?_) ?_ | split | with_reducible refine keeps_freeCnt (Nat.le_add_right _ _) ?_)

theorem State.cValuFI_keeps {x1 x2 x3 x4 x5 x6} (h : Keeps a s) : Keeps a (State.cValuFI s x1 x2 x3 x4 x5 x6) := by
  unfold State.cValuFI
  try dsimp only
  repeat' (first | with_reducible assumption | with_reducible apply State.cIssue_keeps | with_reducible refine keeps_foldl (fun _ _ _ => ?_) ?_ | with_reducible refine keeps_forUpto (fun _ _ _ => ?_) ?_ | split | with_reducible refine keeps_freeCnt (Nat.le_add_right _ _) ?_)

theorem State.cValuII_keeps {x1 x2 x3 x4 x5 x6} (h : Keeps a s) : Keeps a (State.cValuII s x1 x2 x3 x4 x5 x6) := by
  unfold State.cValuII
  try dsimp only
  repeat' (first | with_reducible assumption | with_reducible apply State.cIssue_keeps | with_reducible refine keeps_foldl (fun _ _ _ => ?_) ?_ | with_reducible refine keeps_forUpto (fun _ _ _ => ?_) ?_ | split | with_reducible refine keeps_freeCnt (Nat.le_add_right _ _) ?_)

theorem State.cVcmpFI_keeps {x1 x2 x3 x4 x5 x6} (h : Keeps a s) : Keeps a (State.cVcmpFI s x1 x2 x3 x4 x5 x6) := by
  unfold State.cVcmpFI
  try dsimp only
  repeat' (first | with_reducible assumption | with_reducible apply State.cIssue_keeps | with_reducible refine keeps_foldl (fun _ _ _ => ?_) ?_ | with_reducible refine keeps_forUpto (fun _ _ _ => ?_) ?_ | split | with_reducible refine keeps_freeCnt (Nat.le_add_right _ _) ?_)

theorem State.cVcmpII_keeps {x1 x2 x3 x4 x5 x6} (h : Keeps a s) : Keeps a (State.cVcmpII s x1 x2 x3 x4 x5 x6) := by
  unfold State.cVcmpII
  try dsimp only
  repeat' (first | with_reducible assumption | with_reducible apply State.cIssue_keeps | with_reducible refine keeps_foldl (fun _ _ _ => ?_) ?_ | with_reducible refine keeps_forUpto (fun _ _ _ => ?_) ?_ | split | with_reducible refine keeps_freeCnt (Nat.le_add_right _ _) ?_)

theorem State.cVselI_keeps {x1 x2 x3 x4 x5} (h : Keeps a s) : Keeps a (State.cVselI s x1 x2 x3 x4 x5) := by
  unfold State.cVselI
  try dsimp only
  repeat' (first | with_reducible assumption | with_reducible apply State.cIssue_keeps | with_reducible refine keeps_foldl (fun _ _ _ => ?_) ?_ | with_reducible refine keeps_forUpto (fun _ _ _ => ?_) ?_ | split | with_reducible refine keeps_freeCnt (Nat.le_add_right _ _) ?_)

theorem State.cKopI_keeps {x1 x2 x3 x4 x5 x6} (h : Keeps a s) : Keeps a (State.cKopI s x1 x2 x3 x4 x5 x6) := by
  unfold State.cKopI
  try dsimp only
  repeat' (first | with_reducible assumption | with_reducible apply State.cIssue_keeps | with_reducible refine keeps_foldl (fun _ _ _ => ?_) ?_ | with_reducible refine keeps_forUpto (fun _ _ _ => ?_) ?_ | split | with_reducible refine keeps_freeCnt (Nat.le_add_right _ _) ?_)

theorem State.cVfuncI_keeps {x1 x2 x3 x4 x5} (h : Keeps a s) : Keeps a (State.cVfuncI s x1 x2 x3 x4 x5) := by
  unfold State.cVfuncI
  try dsimp only
  repeat' (first | with_reducible assumption | with_reducible apply State.cIssue_keeps | with_reducible refine keeps_foldl (fun _ _ _ => ?_) ?_ | with_reducible refine keeps_forUpto (fun _ _ _ => ?_) ?_ | split | with_reducible refine keeps_freeCnt (Nat.le_add_right _ _) ?_)

theorem State.cVredI_keeps {x1 x2 x3 x4 x5} (h : Keeps a s) : Keeps a (State.cVredI s x1 x2 x3 x4 x5) := by
  unfold State.cVredI
  try dsimp only
  repeat' (first | with_reducible assumption | with_reducible apply State.cIssue_keeps | with_reducible refine keeps_foldl (fun _ _ _ => ?_) ?_ | with_reducible refine keeps_forUpto (fun _ _ _ => ?_) ?_ | split | with_reducible refine keeps_freeCnt (Nat.le_add_right _ _) ?_)

theorem State.cVtsumI_keeps {x1 x2 x3 x4 x5} (h : Keeps a s) : Keeps a (State.cVtsumI s x1 x2 x3 x4 x5) := by
  unfold State.cVtsumI
  try dsimp only
  repeat' (first | with_reducible assumption | with_reducible apply State.cIssue_keeps | with_reducible refine keeps_foldl (fun _ _ _ => ?_) ?_ | with_reducible refine keeps_forUpto (fun _ _ _ => ?_) ?_ | split | with_reducible refine keeps_freeCnt (Nat.le_add_right _ _) ?_)

theorem State.cVpermI_keeps {x1 x2 x3 x4 x5} (h : Keeps a s) : Keeps a (State.cVpermI s x1 x2 x3 x4 x5) := by
  unfold State.cVpermI
  try dsimp only
  repeat' (first | with_reducible assumption | with_reducible apply State.cIssue_keeps | with_reducible refine keeps_foldl (fun _ _ _ => ?_) ?_ | with_reducible refine keeps_forUpto (fun _ _ _ => ?_) ?_ | split | with_reducible refine keeps_freeCnt (Nat.le_add_right _ _) ?_)

theorem State.cVcmpxI_keeps {x1 x2 x3 x4 x5} (h : Keeps a s) : Keeps a (State.cVcmpxI s x1 x2 x3 x4 x5) := by
  unfold State.cVcmpxI
  try dsimp only
  repeat' (first | with_reducible assumption | with_reducible apply State.cIssue_keeps | with_reducible refine keeps_foldl (fun _ _ _ => ?_) ?_ | with_reducible refine keeps_forUpto (fun _ _ _ => ?_) ?_ | split | with_reducible refine keeps_freeCnt (Nat.le_add_right _ _) ?_)

theorem State.cTransferEnd_keeps {x1 x2} (h : Keeps a s) : Keeps a (State.cTransferEnd s x1 x2) := by
  unfold State.cTransferEnd
  try dsimp only
  repeat' (first | with_reducible assumption | with_reducible apply State.updCarder_keeps | with_reducible refine keeps_foldl (fun _ _ _ => ?_) ?_ | with_reducible refine keeps_forUpto (fun _ _ _ => ?_) ?_ | split | with_reducible refine keeps_freeCnt (Nat.le_add_right _ _) ?_)

end Sys2Proof.Machine
end

