-- ==== Sys2Proof/Laws/KeepsCarderSheaf.lean ====
section
/-! SUPPORT. Every operation of Machine/CarderSheaf.lean carries `Keeps` on. -/

namespace Sys2Proof.Machine

set_option linter.unusedTactic false
set_option linter.unreachableTactic false

variable {a s t : State}

theorem depthProduct_keepsOk {x1 x2 x3 x4 x5 x6} (e : depthProduct s x1 x2 x3 x4 x5 x6 = .ok t) (h : Keeps a s) : Keeps a t := by
  unfold depthProduct at e
  obtain ⟨_, _, e⟩ := except_bind_ok e
  obtain ⟨_, _, e⟩ := except_bind_ok e
  exact doWrites_keepsOk _ e h

theorem depthSheaf_keeps {x1 x2 x3 x4} (h : Keeps a s) : Keeps a (depthSheaf s x1 x2 x3 x4).2 := by
  unfold depthSheaf
  try dsimp only
  repeat' (first | with_reducible assumption | with_reducible apply State.eccRanges_keeps | with_reducible refine depthProduct_keepsOk (by assumption) ?_ | with_reducible refine keeps_foldl (fun _ _ _ => ?_) ?_ | with_reducible refine keeps_forUpto (fun _ _ _ => ?_) ?_ | split | with_reducible refine keeps_freeCnt (Nat.le_add_right _ _) ?_)

theorem depthSheaf_keepsEq {x1 x2 x3 x4 r} (e : depthSheaf s x1 x2 x3 x4 = (r, t)) (h : Keeps a s) : Keeps a t := by
  have k := depthSheaf_keeps (a := a) (x1 := x1) (x2 := x2) (x3 := x3) (x4 := x4) h
  rw [e] at k; exact k

theorem winProduct_keepsOk {x1 x2 x3 x4 x5 x6 x7} (e : winProduct s x1 x2 x3 x4 x5 x6 x7 = .ok t) (h : Keeps a s) : Keeps a t := by
  unfold winProduct at e
  obtain ⟨_, _, e⟩ := except_bind_ok e
  exact doWrites_keepsOk _ e h

theorem State.cWinI_keeps {x1 x2 x3} (h : Keeps a s) : Keeps a (State.cWinI s x1 x2 x3) := by
  unfold State.cWinI
  try dsimp only
  repeat' (first | with_reducible assumption | with_reducible apply State.eccRanges_keeps | with_reducible refine winProduct_keepsOk (by assumption) ?_ | with_reducible apply State.cAccess_keeps | with_reducible apply State.updCarder_keeps | with_reducible refine keeps_foldl (fun _ _ _ => ?_) ?_ | with_reducible refine keeps_forUpto (fun _ _ _ => ?_) ?_ | split | with_reducible refine keeps_freeCnt (Nat.le_add_right _ _) ?_)

theorem State.cWord_keeps {x1 x2 x3} (h : Keeps a s) : Keeps a (State.cWord s x1 x2 x3) := by
  unfold State.cWord
  try dsimp only
  repeat' (first | with_reducible assumption | with_reducible apply State.updCarder_keeps | with_reducible apply State.cWinI_keeps | with_reducible apply State.cVcmpxI_keeps | with_reducible apply State.cVpermI_keeps | with_reducible apply State.cVtsumI_keeps | with_reducible apply State.cVredI_keeps | with_reducible apply State.cVfuncI_keeps | with_reducible apply State.cKopI_keeps | with_reducible apply State.cVselI_keeps | with_reducible apply State.cVcmpII_keeps | with_reducible apply State.cVcmpFI_keeps | with_reducible apply State.cValuII_keeps | with_reducible apply State.cValuFI_keeps | with_reducible apply State.cStI_keeps | with_reducible apply State.cLdI_keeps | with_reducible apply State.cScatterI_keeps | with_reducible apply State.cGatherI_keeps | with_reducible apply State.cXstI_keeps | with_reducible apply State.cXldI_keeps | with_reducible apply State.cFenceI_keeps | with_reducible apply State.cSparI_keeps | with_reducible apply State.cSetsI_keeps | with_reducible apply State.cSetaI_keeps | with_reducible apply State.cLoopI_keeps | with_reducible apply State.cEndI_keeps | with_reducible apply State.cNopI_keeps | with_reducible refine keeps_foldl (fun _ _ _ => ?_) ?_ | with_reducible refine keeps_forUpto (fun _ _ _ => ?_) ?_ | split | with_reducible refine keeps_freeCnt (Nat.le_add_right _ _) ?_)

theorem cRun_keeps {e b} : ∀ (n : Nat) {s : State}, Keeps a s → Keeps a (cRun e b n s)
  | 0, s, h => h
  | n + 1, s, h => by
    unfold cRun
    dsimp only
    split
    · exact h
    · split
      · exact h
      · exact cRun_keeps n (State.cWord_keeps h)

theorem State.progLoad_keeps {x1 x2} (h : Keeps a s) : Keeps a (State.progLoad s x1 x2).2 := by
  unfold State.progLoad
  try dsimp only
  repeat' (first | with_reducible assumption | with_reducible apply State.eccRead_keeps | with_reducible apply State.updCarder_keeps | with_reducible refine keeps_foldl (fun _ _ _ => ?_) ?_ | with_reducible refine keeps_forUpto (fun _ _ _ => ?_) ?_ | split | with_reducible refine keeps_freeCnt (Nat.le_add_right _ _) ?_)

theorem State.progLoad_keepsEq {x1 x2 r} (e : State.progLoad s x1 x2 = (r, t)) (h : Keeps a s) : Keeps a t := by
  have k := State.progLoad_keeps (a := a) (x1 := x1) (x2 := x2) h
  rw [e] at k; exact k

theorem progSheaf_keeps {x1 x2} (h : Keeps a s) : Keeps a (progSheaf s x1 x2).2 := by
  unfold progSheaf
  try dsimp only
  repeat' (first | with_reducible assumption | with_reducible apply cRun_keeps | with_reducible refine keeps_foldl (fun _ _ _ => ?_) ?_ | with_reducible refine keeps_forUpto (fun _ _ _ => ?_) ?_ | split | with_reducible refine keeps_freeCnt (Nat.le_add_right _ _) ?_)

theorem progSheaf_keepsEq {x1 x2 r} (e : progSheaf s x1 x2 = (r, t)) (h : Keeps a s) : Keeps a t := by
  have k := progSheaf_keeps (a := a) (x1 := x1) (x2 := x2) h
  rw [e] at k; exact k

end Sys2Proof.Machine
end

