-- ==== Sys2Proof/Laws/KeepsKvWalk.lean ====
section
/-! SUPPORT. Every operation of Machine/KvWalk.lean carries `Keeps` on. -/

namespace Sys2Proof.Machine

set_option linter.unusedTactic false
set_option linter.unreachableTactic false

variable {a s t : State}

theorem State.updKvCtx_keeps {x1 x2 x3} (h : Keeps a s) : Keeps a (State.updKvCtx s x1 x2 x3) := by
  unfold State.updKvCtx
  try dsimp only
  repeat' (first | with_reducible assumption | with_reducible apply State.updKvw_keeps | with_reducible refine keeps_foldl (fun _ _ _ => ?_) ?_ | with_reducible refine keeps_forUpto (fun _ _ _ => ?_) ?_ | split | with_reducible refine keeps_freeCnt (Nat.le_add_right _ _) ?_)

theorem State.kvFault_keeps {x1 x2 x3} (h : Keeps a s) : Keeps a (State.kvFault s x1 x2 x3) := by
  unfold State.kvFault
  try dsimp only
  repeat' (first | with_reducible assumption | with_reducible apply State.updKvw_keeps | with_reducible refine keeps_foldl (fun _ _ _ => ?_) ?_ | with_reducible refine keeps_forUpto (fun _ _ _ => ?_) ?_ | split | with_reducible refine keeps_freeCnt (Nat.le_add_right _ _) ?_)

theorem State.kvLookup_keeps {x1 x2 x3 x4 x5} (h : Keeps a s) : Keeps a (State.kvLookup s x1 x2 x3 x4 x5).2 := by
  unfold State.kvLookup
  try dsimp only
  repeat' (first | with_reducible assumption | with_reducible apply State.updKvw_keeps | with_reducible refine keeps_foldl (fun _ _ _ => ?_) ?_ | with_reducible refine keeps_forUpto (fun _ _ _ => ?_) ?_ | split | with_reducible refine keeps_freeCnt (Nat.le_add_right _ _) ?_)

theorem State.kvLookup_keepsEq {x1 x2 x3 x4 x5 r} (e : State.kvLookup s x1 x2 x3 x4 x5 = (r, t)) (h : Keeps a s) : Keeps a t := by
  have k := State.kvLookup_keeps (a := a) (x1 := x1) (x2 := x2) (x3 := x3) (x4 := x4) (x5 := x5) h
  rw [e] at k; exact k

theorem State.kvMiss_keeps {x1 x2 x3 x4 x5 x6} (h : Keeps a s) : Keeps a (State.kvMiss s x1 x2 x3 x4 x5 x6).2 := by
  unfold State.kvMiss
  try dsimp only
  repeat' (first | with_reducible assumption | with_reducible apply State.updKvw_keeps | with_reducible apply State.kvFault_keeps | with_reducible refine keeps_foldl (fun _ _ _ => ?_) ?_ | with_reducible refine keeps_forUpto (fun _ _ _ => ?_) ?_ | split | with_reducible refine keeps_freeCnt (Nat.le_add_right _ _) ?_)

theorem State.kvMiss_keepsEq {x1 x2 x3 x4 x5 x6 r} (e : State.kvMiss s x1 x2 x3 x4 x5 x6 = (r, t)) (h : Keeps a s) : Keeps a t := by
  have k := State.kvMiss_keeps (a := a) (x1 := x1) (x2 := x2) (x3 := x3) (x4 := x4) (x5 := x5) (x6 := x6) h
  rw [e] at k; exact k

theorem State.tcMiss_keeps {x1 x2 x3 x4 x5 x6} (h : Keeps a s) : Keeps a (State.tcMiss s x1 x2 x3 x4 x5 x6).2 := by
  unfold State.tcMiss
  try dsimp only
  repeat' (first | with_reducible assumption | with_reducible apply State.updKvw_keeps | with_reducible refine keeps_foldl (fun _ _ _ => ?_) ?_ | with_reducible refine keeps_forUpto (fun _ _ _ => ?_) ?_ | split | with_reducible refine keeps_freeCnt (Nat.le_add_right _ _) ?_)

theorem State.tcMiss_keepsEq {x1 x2 x3 x4 x5 x6 r} (e : State.tcMiss s x1 x2 x3 x4 x5 x6 = (r, t)) (h : Keeps a s) : Keeps a t := by
  have k := State.tcMiss_keeps (a := a) (x1 := x1) (x2 := x2) (x3 := x3) (x4 := x4) (x5 := x5) (x6 := x6) h
  rw [e] at k; exact k

end Sys2Proof.Machine
end

