-- ==== Sys2Proof/Laws/KeepsGranary.lean ====
section
/-! SUPPORT. Every operation of Machine/Granary.lean carries `Keeps` on. -/

namespace Sys2Proof.Machine

set_option linter.unusedTactic false
set_option linter.unreachableTactic false

variable {a s t : State}

theorem State.startTransition_keeps {x1 x2} (h : Keeps a s) : Keeps a (State.startTransition s x1 x2) := by
  unfold State.startTransition
  try dsimp only
  repeat' (first | with_reducible assumption | with_reducible apply State.updBank_keeps | with_reducible apply State.updGrnDie_keeps | with_reducible refine keeps_foldl (fun _ _ _ => ?_) ?_ | with_reducible refine keeps_forUpto (fun _ _ _ => ?_) ?_ | split | with_reducible refine keeps_freeCnt (Nat.le_add_right _ _) ?_)

theorem State.zeroBank_keeps {x1 x2} (h : Keeps a s) : Keeps a (State.zeroBank s x1 x2) := by
  unfold State.zeroBank
  try dsimp only
  repeat' (first | with_reducible assumption | with_reducible apply State.wipe_keeps | with_reducible refine keeps_foldl (fun _ _ _ => ?_) ?_ | with_reducible refine keeps_forUpto (fun _ _ _ => ?_) ?_ | split | with_reducible refine keeps_freeCnt (Nat.le_add_right _ _) ?_)

theorem State.bankDo_keeps {x1 x2 x3} (h : Keeps a s) : Keeps a (State.bankDo s x1 x2 x3) := by
  unfold State.bankDo
  try dsimp only
  repeat' (first | with_reducible assumption | with_reducible apply State.startTransition_keeps | with_reducible apply State.zeroBank_keeps | with_reducible apply State.updBank_keeps | with_reducible refine keeps_foldl (fun _ _ _ => ?_) ?_ | with_reducible refine keeps_forUpto (fun _ _ _ => ?_) ?_ | split | with_reducible refine keeps_freeCnt (Nat.le_add_right _ _) ?_)

theorem State.bankCommand_keeps {x1 x2 x3 x4} (h : Keeps a s) : Keeps a (State.bankCommand s x1 x2 x3 x4) := by
  unfold State.bankCommand
  try dsimp only
  repeat' (first | with_reducible assumption | with_reducible apply State.updBank_keeps | with_reducible apply State.updGrnDie_keeps | with_reducible apply State.bankDo_keeps | with_reducible refine keeps_foldl (fun _ _ _ => ?_) ?_ | with_reducible refine keeps_forUpto (fun _ _ _ => ?_) ?_ | split | with_reducible refine keeps_freeCnt (Nat.le_add_right _ _) ?_)

theorem State.bankCleared_keeps {x1 x2} (h : Keeps a s) : Keeps a (State.bankCleared s x1 x2) := by
  unfold State.bankCleared
  try dsimp only
  repeat' (first | with_reducible assumption | with_reducible apply State.startTransition_keeps | with_reducible apply State.updBank_keeps | with_reducible refine keeps_foldl (fun _ _ _ => ?_) ?_ | with_reducible refine keeps_forUpto (fun _ _ _ => ?_) ?_ | split | with_reducible refine keeps_freeCnt (Nat.le_add_right _ _) ?_)

theorem State.nextWake_keeps {x1} (h : Keeps a s) : Keeps a (State.nextWake s x1) := by
  unfold State.nextWake
  try dsimp only
  repeat' (first | with_reducible assumption | with_reducible apply State.updGrnDie_keeps | with_reducible apply State.updBank_keeps | with_reducible refine keeps_foldl (fun _ _ _ => ?_) ?_ | with_reducible refine keeps_forUpto (fun _ _ _ => ?_) ?_ | split | with_reducible refine keeps_freeCnt (Nat.le_add_right _ _) ?_)

theorem State.bankMoved_keeps {x1 x2} (h : Keeps a s) : Keeps a (State.bankMoved s x1 x2) := by
  unfold State.bankMoved
  try dsimp only
  repeat' (first | with_reducible assumption | with_reducible apply State.updGrnDie_keeps | with_reducible apply State.nextWake_keeps | with_reducible apply State.updBank_keeps | with_reducible apply State.zeroBank_keeps | with_reducible refine keeps_foldl (fun _ _ _ => ?_) ?_ | with_reducible refine keeps_forUpto (fun _ _ _ => ?_) ?_ | split | with_reducible refine keeps_freeCnt (Nat.le_add_right _ _) ?_)

theorem State.releaseBank_keeps {x1 x2} (h : Keeps a s) : Keeps a (State.releaseBank s x1 x2) := by
  unfold State.releaseBank
  try dsimp only
  repeat' (first | with_reducible assumption | with_reducible apply State.zeroBank_keeps | with_reducible apply State.updBank_keeps | with_reducible refine keeps_foldl (fun _ _ _ => ?_) ?_ | with_reducible refine keeps_forUpto (fun _ _ _ => ?_) ?_ | split | with_reducible refine keeps_freeCnt (Nat.le_add_right _ _) ?_)

theorem State.releaseBanks_keeps {x1} (h : Keeps a s) : Keeps a (State.releaseBanks s x1) := by
  unfold State.releaseBanks
  try dsimp only
  repeat' (first | with_reducible assumption | with_reducible apply State.releaseBank_keeps | with_reducible refine keeps_foldl (fun _ _ _ => ?_) ?_ | with_reducible refine keeps_forUpto (fun _ _ _ => ?_) ?_ | split | with_reducible refine keeps_freeCnt (Nat.le_add_right _ _) ?_)

theorem execBankHandover_keeps {x0 x1 x2 x3 x4 x5 x6} (e : execBankHandover x0 x1 x2 x3 x4 x5 x6 s = .next t) : Keeps s t := by
  unfold execBankHandover at e
  have h := Keeps.refl s
  replace e := Host.Outcome.next.inj e
  subst e
  try dsimp only
  repeat' (first | with_reducible assumption | with_reducible apply State.bankCommand_keeps | with_reducible refine keeps_foldl (fun _ _ _ => ?_) ?_ | with_reducible refine keeps_forUpto (fun _ _ _ => ?_) ?_ | split | with_reducible refine keeps_freeCnt (Nat.le_add_right _ _) ?_)

theorem execBankClear_keeps {x0 x1 x2 x3} (e : execBankClear x0 x1 x2 x3 s = .next t) : Keeps s t := by
  unfold execBankClear at e
  have h := Keeps.refl s
  replace e := Host.Outcome.next.inj e
  subst e
  try dsimp only
  repeat' (first | with_reducible assumption | with_reducible apply State.bankCommand_keeps | with_reducible refine keeps_foldl (fun _ _ _ => ?_) ?_ | with_reducible refine keeps_forUpto (fun _ _ _ => ?_) ?_ | split | with_reducible refine keeps_freeCnt (Nat.le_add_right _ _) ?_)

theorem execBankPowerChange_keeps {x0 x1 x2 x3} (e : execBankPowerChange x0 x1 x2 x3 s = .next t) : Keeps s t := by
  unfold execBankPowerChange at e
  have h := Keeps.refl s
  replace e := Host.Outcome.next.inj e
  subst e
  try dsimp only
  repeat' (first | with_reducible assumption | with_reducible apply State.bankCommand_keeps | with_reducible refine keeps_foldl (fun _ _ _ => ?_) ?_ | with_reducible refine keeps_forUpto (fun _ _ _ => ?_) ?_ | split | with_reducible refine keeps_freeCnt (Nat.le_add_right _ _) ?_)

theorem execBankTransitionDone_keeps {x0 x1} (e : execBankTransitionDone x0 x1 s = .next t) : Keeps s t := by
  unfold execBankTransitionDone at e
  have h := Keeps.refl s
  replace e := Host.Outcome.next.inj e
  subst e
  try dsimp only
  repeat' (first | with_reducible assumption | with_reducible apply State.bankMoved_keeps | with_reducible refine keeps_foldl (fun _ _ _ => ?_) ?_ | with_reducible refine keeps_forUpto (fun _ _ _ => ?_) ?_ | split | with_reducible refine keeps_freeCnt (Nat.le_add_right _ _) ?_)

end Sys2Proof.Machine
end

