-- ==== Sys2Proof/Laws/KeepsGleanerUnit.lean ====
section
/-! SUPPORT. Every operation of Machine/GleanerUnit.lean carries `Keeps` on. -/

namespace Sys2Proof.Machine

set_option linter.unusedTactic false
set_option linter.unreachableTactic false

variable {a s t : State}

theorem State.glnFail_keeps {x1 x2} (h : Keeps a s) : Keeps a (State.glnFail s x1 x2) := by
  unfold State.glnFail
  try dsimp only
  repeat' (first | with_reducible assumption | with_reducible apply State.fault_keeps | with_reducible apply State.withhold_keeps | with_reducible apply State.updGleaner_keeps | with_reducible apply State.dropWalks_keeps | with_reducible refine keeps_foldl (fun _ _ _ => ?_) ?_ | with_reducible refine keeps_forUpto (fun _ _ _ => ?_) ?_ | split | with_reducible refine keeps_freeCnt (Nat.le_add_right _ _) ?_)

theorem State.glnRun_keeps {x1 x2 x3} (h : Keeps a s) : Keeps a (State.glnRun s x1 x2 x3) := by
  unfold State.glnRun
  try dsimp only
  repeat' (first | with_reducible assumption | with_reducible apply State.updGleaner_keeps | with_reducible apply State.updKvCtx_keeps | with_reducible refine keeps_foldl (fun _ _ _ => ?_) ?_ | with_reducible refine keeps_forUpto (fun _ _ _ => ?_) ?_ | split | with_reducible refine keeps_freeCnt (Nat.le_add_right _ _) ?_)

theorem State.glnStart_keeps {x1} (h : Keeps a s) : Keeps a (State.glnStart s x1) := by
  unfold State.glnStart
  try dsimp only
  repeat' (first | with_reducible assumption | with_reducible apply State.glnRun_keeps | with_reducible apply State.kvFault_keeps | with_reducible apply State.updGleaner_keeps | with_reducible apply State.glnFail_keeps | with_reducible refine keeps_foldl (fun _ _ _ => ?_) ?_ | with_reducible refine keeps_forUpto (fun _ _ _ => ?_) ?_ | split | with_reducible refine keeps_freeCnt (Nat.le_add_right _ _) ?_)

theorem State.glnEnd_keeps {x1} (h : Keeps a s) : Keeps a (State.glnEnd s x1) := by
  unfold State.glnEnd
  try dsimp only
  repeat' (first | with_reducible assumption | with_reducible apply State.updGleaner_keeps | with_reducible apply State.nextChain_keeps | with_reducible refine keeps_foldl (fun _ _ _ => ?_) ?_ | with_reducible refine keeps_forUpto (fun _ _ _ => ?_) ?_ | split | with_reducible refine keeps_freeCnt (Nat.le_add_right _ _) ?_)

theorem State.glnLand_keeps {x1} (h : Keeps a s) : Keeps a (State.glnLand s x1) := by
  unfold State.glnLand
  try dsimp only
  repeat' (first | with_reducible assumption | with_reducible apply State.tryAll_keeps | with_reducible apply State.glnEnd_keeps | with_reducible apply State.endWalks_keeps | with_reducible apply State.updGleaner_keeps | with_reducible refine keeps_foldl (fun _ _ _ => ?_) ?_ | with_reducible refine keeps_forUpto (fun _ _ _ => ?_) ?_ | split | with_reducible refine keeps_freeCnt (Nat.le_add_right _ _) ?_)

theorem State.glnCtrl_keeps {x1 x2 x3} (h : Keeps a s) : Keeps a (State.glnCtrl s x1 x2 x3) := by
  unfold State.glnCtrl
  try dsimp only
  repeat' (first | with_reducible assumption | with_reducible apply State.glnHalt_keeps | with_reducible apply State.updGleaner_keeps | with_reducible refine keeps_foldl (fun _ _ _ => ?_) ?_ | with_reducible refine keeps_forUpto (fun _ _ _ => ?_) ?_ | split | with_reducible refine keeps_freeCnt (Nat.le_add_right _ _) ?_)

theorem execGlnGo_keeps {x0 x1 x2 x3} (e : execGlnGo x0 x1 x2 x3 s = .next t) : Keeps s t := by
  unfold execGlnGo at e
  have h := Keeps.refl s
  replace e := Host.Outcome.next.inj e
  subst e
  try dsimp only
  repeat' (first | with_reducible assumption | with_reducible apply State.glnCtrl_keeps | with_reducible apply State.settle_keeps | with_reducible refine keeps_foldl (fun _ _ _ => ?_) ?_ | with_reducible refine keeps_forUpto (fun _ _ _ => ?_) ?_ | split | with_reducible refine keeps_freeCnt (Nat.le_add_right _ _) ?_)

theorem execGlnStop_keeps {x0 x1 x2} (e : execGlnStop x0 x1 x2 s = .next t) : Keeps s t := by
  unfold execGlnStop at e
  have h := Keeps.refl s
  replace e := Host.Outcome.next.inj e
  subst e
  try dsimp only
  repeat' (first | with_reducible assumption | with_reducible apply State.glnCtrl_keeps | with_reducible apply State.settle_keeps | with_reducible refine keeps_foldl (fun _ _ _ => ?_) ?_ | with_reducible refine keeps_forUpto (fun _ _ _ => ?_) ?_ | split | with_reducible refine keeps_freeCnt (Nat.le_add_right _ _) ?_)

theorem execGlnStreamLanded_keeps {x0 x1} (e : execGlnStreamLanded x0 x1 s = .next t) : Keeps s t := by
  unfold execGlnStreamLanded at e
  have h := Keeps.refl s
  replace e := Host.Outcome.next.inj e
  subst e
  try dsimp only
  repeat' (first | with_reducible assumption | with_reducible apply State.glnLand_keeps | with_reducible apply State.settle_keeps | with_reducible refine keeps_foldl (fun _ _ _ => ?_) ?_ | with_reducible refine keeps_forUpto (fun _ _ _ => ?_) ?_ | split | with_reducible refine keeps_freeCnt (Nat.le_add_right _ _) ?_)

theorem execKvwBump_keeps {x0 x1 x2 x3} (e : execKvwBump x0 x1 x2 x3 s = .next t) : Keeps s t := by
  unfold execKvwBump at e
  have h := Keeps.refl s
  replace e := Host.Outcome.next.inj e
  subst e
  try dsimp only
  repeat' (first | with_reducible assumption | with_reducible apply State.updKvCtx_keeps | with_reducible refine keeps_foldl (fun _ _ _ => ?_) ?_ | with_reducible refine keeps_forUpto (fun _ _ _ => ?_) ?_ | split | with_reducible refine keeps_freeCnt (Nat.le_add_right _ _) ?_)

end Sys2Proof.Machine
end

