-- ==== Sys2Proof/Laws/KeepsHbmUnit.lean ====
section
/-! SUPPORT. Every operation of Machine/HbmUnit.lean carries `Keeps` on. -/

namespace Sys2Proof.Machine

set_option linter.unusedTactic false
set_option linter.unreachableTactic false

variable {a s t : State}

theorem State.updPc_keeps {x1 x2 x3} (h : Keeps a s) : Keeps a (State.updPc s x1 x2 x3) := by
  unfold State.updPc
  try dsimp only
  repeat' (first | with_reducible assumption | with_reducible apply State.updHmc_keeps | with_reducible refine keeps_foldl (fun _ _ _ => ?_) ?_ | with_reducible refine keeps_forUpto (fun _ _ _ => ?_) ?_ | split | with_reducible refine keeps_freeCnt (Nat.le_add_right _ _) ?_)

theorem State.perform_keeps {x1} (h : Keeps a s) : Keeps a (State.perform s x1).2 := by
  unfold State.perform
  try dsimp only
  repeat' (first | with_reducible assumption | with_reducible apply State.write_keeps | with_reducible apply State.eccRead_keeps | with_reducible refine keeps_foldl (fun _ _ _ => ?_) ?_ | with_reducible refine keeps_forUpto (fun _ _ _ => ?_) ?_ | split | with_reducible refine keeps_freeCnt (Nat.le_add_right _ _) ?_)

theorem State.perform_keepsEq {x1 r} (e : State.perform s x1 = (r, t)) (h : Keeps a s) : Keeps a t := by
  have k := State.perform_keeps (a := a) (x1 := x1) h
  rw [e] at k; exact k

theorem State.answer_keeps {x1 x2 x3 x4} (h : Keeps a s) : Keeps a (State.answer s x1 x2 x3 x4) := by
  unfold State.answer
  try dsimp only
  repeat' (first | with_reducible assumption | with_reducible apply keeps_mapFab | with_reducible refine keeps_foldl (fun _ _ _ => ?_) ?_ | with_reducible refine keeps_forUpto (fun _ _ _ => ?_) ?_ | split | with_reducible refine keeps_freeCnt (Nat.le_add_right _ _) ?_)

theorem State.retire_keeps {x1 x2} (h : Keeps a s) : Keeps a (State.retire s x1 x2) := by
  unfold State.retire
  try dsimp only
  repeat' (first | with_reducible assumption | with_reducible apply keeps_mapFab | with_reducible refine keeps_foldl (fun _ _ _ => ?_) ?_ | with_reducible refine keeps_forUpto (fun _ _ _ => ?_) ?_ | split | with_reducible refine keeps_freeCnt (Nat.le_add_right _ _) ?_)

theorem State.hbmEnter_keeps {x1 x2 x3 x4} (h : Keeps a s) : Keeps a (State.hbmEnter s x1 x2 x3 x4) := by
  unfold State.hbmEnter
  try dsimp only
  repeat' (first | with_reducible assumption | with_reducible apply State.retire_keeps | with_reducible apply State.answer_keeps | with_reducible apply State.updPc_keeps | with_reducible apply State.perform_keeps | with_reducible refine State.perform_keepsEq (by assumption) ?_ | with_reducible apply State.updHmc_keeps | with_reducible refine keeps_foldl (fun _ _ _ => ?_) ?_ | with_reducible refine keeps_forUpto (fun _ _ _ => ?_) ?_ | split | with_reducible refine keeps_freeCnt (Nat.le_add_right _ _) ?_)

theorem hbmAdmitList_keeps {k} : ∀ (l : List HReq) (w : HWait) {s : State}, Keeps a s → Keeps a (hbmAdmitList k l w s)
  | [], _, _, h => h
  | e :: l, w, s, h => by
    unfold hbmAdmitList
    dsimp only
    split
    · exact hbmAdmitList_keeps l _ (State.updHmc_keeps h)
    · split
      · exact hbmAdmitList_keeps l _ (State.updHmc_keeps h)
      · split
        · exact hbmAdmitList_keeps l _ (State.updHmc_keeps h)
        · exact hbmAdmitList_keeps l _ (State.hbmEnter_keeps h)

theorem State.hbmAdmit_keeps {x1} (h : Keeps a s) : Keeps a (State.hbmAdmit s x1) := by
  unfold State.hbmAdmit
  try dsimp only
  repeat' (first | with_reducible assumption | with_reducible apply State.updHmc_keeps | with_reducible apply hbmAdmitList_keeps | with_reducible refine keeps_foldl (fun _ _ _ => ?_) ?_ | with_reducible refine keeps_forUpto (fun _ _ _ => ?_) ?_ | split | with_reducible refine keeps_freeCnt (Nat.le_add_right _ _) ?_)

theorem State.hbmArrive_keeps {x1 x2 x3} (h : Keeps a s) : Keeps a (State.hbmArrive s x1 x2 x3) := by
  unfold State.hbmArrive
  try dsimp only
  repeat' (first | with_reducible assumption | with_reducible apply State.updHmc_keeps | with_reducible apply State.hbmAdmit_keeps | with_reducible refine keeps_foldl (fun _ _ _ => ?_) ?_ | with_reducible refine keeps_forUpto (fun _ _ _ => ?_) ?_ | split | with_reducible refine keeps_freeCnt (Nat.le_add_right _ _) ?_)

theorem State.hbmServe_keeps {x1 x2 x3} (h : Keeps a s) : Keeps a (State.hbmServe s x1 x2 x3) := by
  unfold State.hbmServe
  try dsimp only
  repeat' (first | with_reducible assumption | with_reducible apply State.answer_keeps | with_reducible apply State.updPc_keeps | with_reducible refine keeps_foldl (fun _ _ _ => ?_) ?_ | with_reducible refine keeps_forUpto (fun _ _ _ => ?_) ?_ | split | with_reducible refine keeps_freeCnt (Nat.le_add_right _ _) ?_)

theorem State.redo_keeps {x1 x2 x3} (h : Keeps a s) : Keeps a (State.redo s x1 x2 x3) := by
  unfold State.redo
  try dsimp only
  repeat' (first | with_reducible assumption | with_reducible apply State.updPc_keeps | with_reducible apply State.perform_keeps | with_reducible refine State.perform_keepsEq (by assumption) ?_ | with_reducible refine keeps_foldl (fun _ _ _ => ?_) ?_ | with_reducible refine keeps_forUpto (fun _ _ _ => ?_) ?_ | split | with_reducible refine keeps_freeCnt (Nat.le_add_right _ _) ?_)

theorem State.dropEntry_keeps {x1 x2 x3} (h : Keeps a s) : Keeps a (State.dropEntry s x1 x2 x3) := by
  unfold State.dropEntry
  try dsimp only
  repeat' (first | with_reducible assumption | with_reducible apply State.updPc_keeps | with_reducible refine keeps_foldl (fun _ _ _ => ?_) ?_ | with_reducible refine keeps_forUpto (fun _ _ _ => ?_) ?_ | split | with_reducible refine keeps_freeCnt (Nat.le_add_right _ _) ?_)

theorem State.failEntry_keeps {x1 x2 x3 x4} (h : Keeps a s) : Keeps a (State.failEntry s x1 x2 x3 x4) := by
  unfold State.failEntry
  try dsimp only
  repeat' (first | with_reducible assumption | with_reducible apply State.put_keeps | with_reducible apply State.redo_keeps | with_reducible apply State.answer_keeps | with_reducible apply State.dropEntry_keeps | with_reducible refine keeps_foldl (fun _ _ _ => ?_) ?_ | with_reducible refine keeps_forUpto (fun _ _ _ => ?_) ?_ | split | with_reducible refine keeps_freeCnt (Nat.le_add_right _ _) ?_)

theorem State.hbmFlush_keeps {x1} (h : Keeps a s) : Keeps a (State.hbmFlush s x1) := by
  unfold State.hbmFlush
  try dsimp only
  repeat' (first | with_reducible assumption | with_reducible apply State.updHmc_keeps | with_reducible apply State.answer_keeps | with_reducible apply State.failEntry_keeps | with_reducible refine keeps_foldl (fun _ _ _ => ?_) ?_ | with_reducible refine keeps_forUpto (fun _ _ _ => ?_) ?_ | split | with_reducible refine keeps_freeCnt (Nat.le_add_right _ _) ?_)

theorem State.stackReset_keeps {x1} (h : Keeps a s) : Keeps a (State.stackReset s x1) := by
  unfold State.stackReset
  try dsimp only
  repeat' (first | with_reducible assumption | with_reducible apply keeps_mapFlt | with_reducible apply State.updHmc_keeps | with_reducible apply State.hbmFlush_keeps | with_reducible apply State.wipe_keeps | with_reducible refine keeps_foldl (fun _ _ _ => ?_) ?_ | with_reducible refine keeps_forUpto (fun _ _ _ => ?_) ?_ | split | with_reducible refine keeps_freeCnt (Nat.le_add_right _ _) ?_)

theorem State.stackCfg_keeps {x1} (h : Keeps a s) : Keeps a (State.stackCfg s x1) := by
  unfold State.stackCfg
  try dsimp only
  repeat' (first | with_reducible assumption | with_reducible apply State.updHmc_keeps | with_reducible refine keeps_foldl (fun _ _ _ => ?_) ?_ | with_reducible refine keeps_forUpto (fun _ _ _ => ?_) ?_ | split | with_reducible refine keeps_freeCnt (Nat.le_add_right _ _) ?_)

theorem State.grnCfg_keeps {x1} (h : Keeps a s) : Keeps a (State.grnCfg s x1) := by
  unfold State.grnCfg
  try dsimp only
  repeat' (first | with_reducible assumption | with_reducible apply State.updGrnDie_keeps | with_reducible refine keeps_foldl (fun _ _ _ => ?_) ?_ | with_reducible refine keeps_forUpto (fun _ _ _ => ?_) ?_ | split | with_reducible refine keeps_freeCnt (Nat.le_add_right _ _) ?_)

theorem State.trainDue_keeps {x1} (h : Keeps a s) : Keeps a (State.trainDue s x1) := by
  unfold State.trainDue
  try dsimp only
  repeat' (first | with_reducible assumption | with_reducible apply State.stackCfg_keeps | with_reducible apply State.updHmc_keeps | with_reducible refine keeps_foldl (fun _ _ _ => ?_) ?_ | with_reducible refine keeps_forUpto (fun _ _ _ => ?_) ?_ | split | with_reducible refine keeps_freeCnt (Nat.le_add_right _ _) ?_)

theorem State.stackWork_keeps {x1} (h : Keeps a s) : Keeps a (State.stackWork s x1) := by
  unfold State.stackWork
  try dsimp only
  repeat' (first | with_reducible assumption | with_reducible apply State.stackReset_keeps | with_reducible apply State.trainDue_keeps | with_reducible refine keeps_foldl (fun _ _ _ => ?_) ?_ | with_reducible refine keeps_forUpto (fun _ _ _ => ?_) ?_ | split | with_reducible refine keeps_freeCnt (Nat.le_add_right _ _) ?_)

theorem State.hbmSev3_keeps {x1 x2 x3 x4} (h : Keeps a s) : Keeps a (State.hbmSev3 s x1 x2 x3 x4) := by
  unfold State.hbmSev3
  try dsimp only
  repeat' (first | with_reducible assumption | with_reducible apply State.failEntry_keeps | with_reducible apply State.hbmAdmit_keeps | with_reducible apply State.put_keeps | with_reducible apply State.redo_keeps | with_reducible apply keeps_mapFab | with_reducible apply State.withholdCtx_keeps | with_reducible apply State.fault_keeps | with_reducible apply State.updHmc_keeps | with_reducible refine keeps_foldl (fun _ _ _ => ?_) ?_ | with_reducible refine keeps_forUpto (fun _ _ _ => ?_) ?_ | split | with_reducible refine keeps_freeCnt (Nat.le_add_right _ _) ?_)

theorem State.hbmLinkFail_keeps {x1 x2 x3 x4} (h : Keeps a s) : Keeps a (State.hbmLinkFail s x1 x2 x3 x4) := by
  unfold State.hbmLinkFail
  try dsimp only
  repeat' (first | with_reducible assumption | with_reducible apply keeps_mapFlt | with_reducible apply State.fault_keeps | with_reducible apply State.hbmFlush_keeps | with_reducible apply State.updHmc_keeps | with_reducible apply State.hbmSev3_keeps | with_reducible refine keeps_foldl (fun _ _ _ => ?_) ?_ | with_reducible refine keeps_forUpto (fun _ _ _ => ?_) ?_ | split | with_reducible refine keeps_freeCnt (Nat.le_add_right _ _) ?_)

theorem State.hbmBurst_keeps {x1 x2 x3 x4 x5} (h : Keeps a s) : Keeps a (State.hbmBurst s x1 x2 x3 x4 x5) := by
  unfold State.hbmBurst
  try dsimp only
  repeat' (first | with_reducible assumption | with_reducible apply State.hbmLinkFail_keeps | with_reducible apply State.hbmSev3_keeps | with_reducible apply State.updHmc_keeps | with_reducible apply State.corrected_keeps | with_reducible refine keeps_foldl (fun _ _ _ => ?_) ?_ | with_reducible refine keeps_forUpto (fun _ _ _ => ?_) ?_ | split | with_reducible refine keeps_freeCnt (Nat.le_add_right _ _) ?_)

theorem State.hbmTrained_keeps {x1 x2 x3} (h : Keeps a s) : Keeps a (State.hbmTrained s x1 x2 x3) := by
  unfold State.hbmTrained
  try dsimp only
  repeat' (first | with_reducible assumption | with_reducible apply State.updHmc_keeps | with_reducible refine keeps_foldl (fun _ _ _ => ?_) ?_ | with_reducible refine keeps_forUpto (fun _ _ _ => ?_) ?_ | split | with_reducible refine keeps_freeCnt (Nat.le_add_right _ _) ?_)

theorem execHbmRegulatorWindow_keeps {x0} (e : execHbmRegulatorWindow x0 s = .next t) : Keeps s t := by
  unfold execHbmRegulatorWindow at e
  have h := Keeps.refl s
  replace e := Host.Outcome.next.inj e
  subst e
  try dsimp only
  repeat' (first | with_reducible assumption | with_reducible apply State.updHmc_keeps | with_reducible apply State.hbmAdmit_keeps | with_reducible refine keeps_foldl (fun _ _ _ => ?_) ?_ | with_reducible refine keeps_forUpto (fun _ _ _ => ?_) ?_ | split | with_reducible refine keeps_freeCnt (Nat.le_add_right _ _) ?_)

theorem execHbmPageIdleExpiry_keeps {x0 x1 x2} (e : execHbmPageIdleExpiry x0 x1 x2 s = .next t) : Keeps s t := by
  unfold execHbmPageIdleExpiry at e
  have h := Keeps.refl s
  replace e := Host.Outcome.next.inj e
  subst e
  try dsimp only
  repeat' (first | with_reducible assumption | with_reducible apply State.updPc_keeps | with_reducible refine keeps_foldl (fun _ _ _ => ?_) ?_ | with_reducible refine keeps_forUpto (fun _ _ _ => ?_) ?_ | split | with_reducible refine keeps_freeCnt (Nat.le_add_right _ _) ?_)

theorem execHbmUrgencyStep_keeps {x0 x1 x2} (e : execHbmUrgencyStep x0 x1 x2 s = .next t) : Keeps s t := by
  unfold execHbmUrgencyStep at e
  have h := Keeps.refl s
  replace e := Host.Outcome.next.inj e
  subst e
  try dsimp only
  repeat' (first | with_reducible assumption | with_reducible apply State.updPc_keeps | with_reducible refine keeps_foldl (fun _ _ _ => ?_) ?_ | with_reducible refine keeps_forUpto (fun _ _ _ => ?_) ?_ | split | with_reducible refine keeps_freeCnt (Nat.le_add_right _ _) ?_)

theorem execHbmAgePromotion_keeps {x0 x1 x2} (e : execHbmAgePromotion x0 x1 x2 s = .next t) : Keeps s t := by
  unfold execHbmAgePromotion at e
  have h := Keeps.refl s
  replace e := Host.Outcome.next.inj e
  subst e
  try dsimp only
  repeat' (first | with_reducible assumption | with_reducible apply State.updPc_keeps | with_reducible refine keeps_foldl (fun _ _ _ => ?_) ?_ | with_reducible refine keeps_forUpto (fun _ _ _ => ?_) ?_ | split | with_reducible refine keeps_freeCnt (Nat.le_add_right _ _) ?_)

theorem State.hbmRound_keeps {x1 x2} (h : Keeps a s) : Keeps a (State.hbmRound s x1 x2) := by
  unfold State.hbmRound
  try dsimp only
  repeat' (first | with_reducible assumption | with_reducible apply State.hbmServe_keeps | with_reducible apply State.hbmAdmit_keeps | with_reducible apply State.updHmc_keeps | with_reducible refine keeps_foldl (fun _ _ _ => ?_) ?_ | with_reducible refine keeps_forUpto (fun _ _ _ => ?_) ?_ | split | with_reducible refine keeps_freeCnt (Nat.le_add_right _ _) ?_)

theorem execHbmSchedule_keeps {x0 x1} (e : execHbmSchedule x0 x1 s = .next t) : Keeps s t := by
  unfold execHbmSchedule at e
  have h := Keeps.refl s
  replace e := Host.Outcome.next.inj e
  subst e
  try dsimp only
  repeat' (first | with_reducible assumption | with_reducible apply State.hbmFlush_keeps | with_reducible apply State.hbmRound_keeps | with_reducible refine keeps_foldl (fun _ _ _ => ?_) ?_ | with_reducible refine keeps_forUpto (fun _ _ _ => ?_) ?_ | split | with_reducible refine keeps_freeCnt (Nat.le_add_right _ _) ?_)

theorem execHbmRefreshDue_keeps {x0 x1 x2} (e : execHbmRefreshDue x0 x1 x2 s = .next t) : Keeps s t := by
  unfold execHbmRefreshDue at e
  have h := Keeps.refl s
  replace e := Host.Outcome.next.inj e
  subst e
  try dsimp only
  repeat' (first | with_reducible assumption | with_reducible apply State.updHmc_keeps | with_reducible refine keeps_foldl (fun _ _ _ => ?_) ?_ | with_reducible refine keeps_forUpto (fun _ _ _ => ?_) ?_ | split | with_reducible refine keeps_freeCnt (Nat.le_add_right _ _) ?_)

theorem execHbmRfmRequest_keeps {x0 x1 x2} (e : execHbmRfmRequest x0 x1 x2 s = .next t) : Keeps s t := by
  unfold execHbmRfmRequest at e
  have h := Keeps.refl s
  replace e := Host.Outcome.next.inj e
  subst e
  try dsimp only
  repeat' (first | with_reducible assumption | with_reducible apply State.updHmc_keeps | with_reducible refine keeps_foldl (fun _ _ _ => ?_) ?_ | with_reducible refine keeps_forUpto (fun _ _ _ => ?_) ?_ | split | with_reducible refine keeps_freeCnt (Nat.le_add_right _ _) ?_)

theorem execHbmReadBurstResult_keeps {x0 x1 x2 x3 x4} (e : execHbmReadBurstResult x0 x1 x2 x3 x4 s = .next t) : Keeps s t := by
  unfold execHbmReadBurstResult at e
  have h := Keeps.refl s
  replace e := Host.Outcome.next.inj e
  subst e
  try dsimp only
  repeat' (first | with_reducible assumption | with_reducible apply State.hbmBurst_keeps | with_reducible apply State.settle_keeps | with_reducible refine keeps_foldl (fun _ _ _ => ?_) ?_ | with_reducible refine keeps_forUpto (fun _ _ _ => ?_) ?_ | split | with_reducible refine keeps_freeCnt (Nat.le_add_right _ _) ?_)

end Sys2Proof.Machine
end

