-- ==== Sys2Proof/Laws/KeepsCoherence.lean ====
section
/-! SUPPORT. Every operation of Machine/Coherence.lean carries `Keeps` on. -/

namespace Sys2Proof.Machine

set_option linter.unusedTactic false
set_option linter.unreachableTactic false

variable {a s t : State}

theorem State.hpmCount_keeps {x1 x2} (h : Keeps a s) : Keeps a (State.hpmCount s x1 x2) := by
  unfold State.hpmCount
  try dsimp only
  repeat' (first | with_reducible assumption | with_reducible apply State.updCoreOf_keeps | with_reducible refine keeps_foldl (fun _ _ _ => ?_) ?_ | with_reducible refine keeps_forUpto (fun _ _ _ => ?_) ?_ | split | with_reducible refine keeps_freeCnt (Nat.le_add_right _ _) ?_)

theorem State.retireIns_keeps {x1} (h : Keeps a s) : Keeps a (State.retireIns s x1) := by
  unfold State.retireIns
  try dsimp only
  repeat' (first | with_reducible assumption | with_reducible apply State.updCoreOf_keeps | with_reducible refine keeps_foldl (fun _ _ _ => ?_) ?_ | with_reducible refine keeps_forUpto (fun _ _ _ => ?_) ?_ | split | with_reducible refine keeps_freeCnt (Nat.le_add_right _ _) ?_)

theorem State.coreTrap_keeps {x1 x2 x3 x4} (h : Keeps a s) : Keeps a (State.coreTrap s x1 x2 x3 x4) := by
  unfold State.coreTrap
  try dsimp only
  repeat' (first | with_reducible assumption | with_reducible apply State.updCoreOf_keeps | with_reducible refine keeps_foldl (fun _ _ _ => ?_) ?_ | with_reducible refine keeps_forUpto (fun _ _ _ => ?_) ?_ | split | with_reducible refine keeps_freeCnt (Nat.le_add_right _ _) ?_)

theorem State.setLine_keeps {x1 x2 x3} (h : Keeps a s) : Keeps a (State.setLine s x1 x2 x3) := by
  unfold State.setLine
  try dsimp only
  repeat' (first | with_reducible assumption | with_reducible apply keeps_mapCore | with_reducible refine keeps_foldl (fun _ _ _ => ?_) ?_ | with_reducible refine keeps_forUpto (fun _ _ _ => ?_) ?_ | split | with_reducible refine keeps_freeCnt (Nat.le_add_right _ _) ?_)

theorem State.dropLine_keeps {x1 x2} (h : Keeps a s) : Keeps a (State.dropLine s x1 x2) := by
  unfold State.dropLine
  try dsimp only
  repeat' (first | with_reducible assumption | with_reducible apply State.retireIns_keeps | with_reducible apply State.updCoreOf_keeps | with_reducible apply keeps_mapCore | with_reducible refine keeps_foldl (fun _ _ _ => ?_) ?_ | with_reducible refine keeps_forUpto (fun _ _ _ => ?_) ?_ | split | with_reducible refine keeps_freeCnt (Nat.le_add_right _ _) ?_)

theorem State.writeback_keeps {x1 x2 x3 x4} (h : Keeps a s) : Keeps a (State.writeback s x1 x2 x3 x4) := by
  unfold State.writeback
  try dsimp only
  repeat' (first | with_reducible assumption | with_reducible apply State.withholdCtx_keeps | with_reducible apply State.fault_keeps | with_reducible apply State.updCoreOf_keeps | with_reducible apply State.store_keeps | with_reducible refine State.store_keepsEq (by assumption) ?_ | with_reducible refine keeps_foldl (fun _ _ _ => ?_) ?_ | with_reducible refine keeps_forUpto (fun _ _ _ => ?_) ?_ | split | with_reducible refine keeps_freeCnt (Nat.le_add_right _ _) ?_)

theorem State.cohSend_keeps {x1} (h : Keeps a s) : Keeps a (State.cohSend s x1) := by
  unfold State.cohSend
  try dsimp only
  repeat' (first | with_reducible assumption | with_reducible apply keeps_mapCore | with_reducible refine keeps_foldl (fun _ _ _ => ?_) ?_ | with_reducible refine keeps_forUpto (fun _ _ _ => ?_) ?_ | split | with_reducible refine keeps_freeCnt (Nat.le_add_right _ _) ?_)

theorem State.sendData_keeps {x1 x2 x3} (h : Keeps a s) : Keeps a (State.sendData s x1 x2 x3) := by
  unfold State.sendData
  try dsimp only
  repeat' (first | with_reducible assumption | with_reducible apply State.cohSend_keeps | with_reducible refine keeps_foldl (fun _ _ _ => ?_) ?_ | with_reducible refine keeps_forUpto (fun _ _ _ => ?_) ?_ | split | with_reducible refine keeps_freeCnt (Nat.le_add_right _ _) ?_)

theorem State.setTxn_keeps {x1 x2} (h : Keeps a s) : Keeps a (State.setTxn s x1 x2) := by
  unfold State.setTxn
  try dsimp only
  repeat' (first | with_reducible assumption | with_reducible apply keeps_mapCore | with_reducible refine keeps_foldl (fun _ _ _ => ?_) ?_ | with_reducible refine keeps_forUpto (fun _ _ _ => ?_) ?_ | split | with_reducible refine keeps_freeCnt (Nat.le_add_right _ _) ?_)

theorem State.dirEvict_keeps {x1} (h : Keeps a s) : Keeps a (State.dirEvict s x1) := by
  unfold State.dirEvict
  try dsimp only
  repeat' (first | with_reducible assumption | with_reducible apply keeps_mapCore | with_reducible apply State.setTxn_keeps | with_reducible apply State.cohSend_keeps | with_reducible refine keeps_foldl (fun _ _ _ => ?_) ?_ | with_reducible refine keeps_forUpto (fun _ _ _ => ?_) ?_ | split | with_reducible refine keeps_freeCnt (Nat.le_add_right _ _) ?_)

theorem State.updDir_keeps {x1 x2} (h : Keeps a s) : Keeps a (State.updDir s x1 x2) := by
  unfold State.updDir
  try dsimp only
  repeat' (first | with_reducible assumption | with_reducible apply keeps_mapCore | with_reducible apply State.dirEvict_keeps | with_reducible refine keeps_foldl (fun _ _ _ => ?_) ?_ | with_reducible refine keeps_forUpto (fun _ _ _ => ?_) ?_ | split | with_reducible refine keeps_freeCnt (Nat.le_add_right _ _) ?_)

theorem State.cohServe_keeps {x1 x2 x3} (h : Keeps a s) : Keeps a (State.cohServe s x1 x2 x3) := by
  unfold State.cohServe
  try dsimp only
  repeat' (first | with_reducible assumption | with_reducible apply State.cohSend_keeps | with_reducible apply State.sendData_keeps | with_reducible apply State.setTxn_keeps | with_reducible refine keeps_foldl (fun _ _ _ => ?_) ?_ | with_reducible refine keeps_forUpto (fun _ _ _ => ?_) ?_ | split | with_reducible refine keeps_freeCnt (Nat.le_add_right _ _) ?_)

theorem State.coreDone_keeps {x1 x2 x3} (h : Keeps a s) : Keeps a (State.coreDone s x1 x2 x3) := by
  unfold State.coreDone
  try dsimp only
  repeat' (first | with_reducible assumption | with_reducible apply State.retireIns_keeps | with_reducible apply State.setLine_keeps | with_reducible apply State.updCoreOf_keeps | with_reducible refine keeps_foldl (fun _ _ _ => ?_) ?_ | with_reducible refine keeps_forUpto (fun _ _ _ => ?_) ?_ | split | with_reducible refine keeps_freeCnt (Nat.le_add_right _ _) ?_)

theorem State.cohLeave_keeps {x1 x2} (h : Keeps a s) : Keeps a (State.cohLeave s x1 x2) := by
  unfold State.cohLeave
  try dsimp only
  repeat' (first | with_reducible assumption | with_reducible apply State.cohServe_keeps | with_reducible apply State.setTxn_keeps | with_reducible apply State.coreTrap_keeps | with_reducible apply State.hpmCount_keeps | with_reducible refine keeps_foldl (fun _ _ _ => ?_) ?_ | with_reducible refine keeps_forUpto (fun _ _ _ => ?_) ?_ | split | with_reducible refine keeps_freeCnt (Nat.le_add_right _ _) ?_)

theorem State.cohRequest_keeps {x1 x2} (h : Keeps a s) : Keeps a (State.cohRequest s x1 x2) := by
  unfold State.cohRequest
  try dsimp only
  repeat' (first | with_reducible assumption | with_reducible apply State.cohLeave_keeps | with_reducible apply State.coreDone_keeps | with_reducible apply State.hpmCount_keeps | with_reducible apply State.coreTrap_keeps | with_reducible refine keeps_foldl (fun _ _ _ => ?_) ?_ | with_reducible refine keeps_forUpto (fun _ _ _ => ?_) ?_ | split | with_reducible refine keeps_freeCnt (Nat.le_add_right _ _) ?_)

theorem State.cohNext_keeps {x1} (h : Keeps a s) : Keeps a (State.cohNext s x1) := by
  unfold State.cohNext
  try dsimp only
  repeat' (first | with_reducible assumption | with_reducible apply State.cohServe_keeps | with_reducible apply keeps_mapCore | with_reducible refine keeps_foldl (fun _ _ _ => ?_) ?_ | with_reducible refine keeps_forUpto (fun _ _ _ => ?_) ?_ | split | with_reducible refine keeps_freeCnt (Nat.le_add_right _ _) ?_)

theorem State.cohTake_keeps {x1} (h : Keeps a s) : Keeps a (State.cohTake s x1) := by
  unfold State.cohTake
  try dsimp only
  repeat' (first | with_reducible assumption | with_reducible apply keeps_mapCore | with_reducible refine keeps_foldl (fun _ _ _ => ?_) ?_ | with_reducible refine keeps_forUpto (fun _ _ _ => ?_) ?_ | split | with_reducible refine keeps_freeCnt (Nat.le_add_right _ _) ?_)

theorem State.cohGrant_keeps {x1} (h : Keeps a s) : Keeps a (State.cohGrant s x1) := by
  unfold State.cohGrant
  try dsimp only
  repeat' (first | with_reducible assumption | with_reducible apply State.sendData_keeps | with_reducible apply State.cohSend_keeps | with_reducible apply State.cohNext_keeps | with_reducible refine keeps_foldl (fun _ _ _ => ?_) ?_ | with_reducible refine keeps_forUpto (fun _ _ _ => ?_) ?_ | split | with_reducible refine keeps_freeCnt (Nat.le_add_right _ _) ?_)

theorem State.cohAcked_keeps {x1} (h : Keeps a s) : Keeps a (State.cohAcked s x1) := by
  unfold State.cohAcked
  try dsimp only
  repeat' (first | with_reducible assumption | with_reducible apply State.cohGrant_keeps | with_reducible apply State.setTxn_keeps | with_reducible refine keeps_foldl (fun _ _ _ => ?_) ?_ | with_reducible refine keeps_forUpto (fun _ _ _ => ?_) ?_ | split | with_reducible refine keeps_freeCnt (Nat.le_add_right _ _) ?_)

theorem State.cohAfterPut_keeps {x1} (h : Keeps a s) : Keeps a (State.cohAfterPut s x1) := by
  unfold State.cohAfterPut
  try dsimp only
  repeat' (first | with_reducible assumption | with_reducible apply keeps_mapCore | with_reducible apply State.cohServe_keeps | with_reducible refine keeps_foldl (fun _ _ _ => ?_) ?_ | with_reducible refine keeps_forUpto (fun _ _ _ => ?_) ?_ | split | with_reducible refine keeps_freeCnt (Nat.le_add_right _ _) ?_)

theorem State.cohPut_keeps {x1 x2 x3} (h : Keeps a s) : Keeps a (State.cohPut s x1 x2 x3) := by
  unfold State.cohPut
  try dsimp only
  repeat' (first | with_reducible assumption | with_reducible apply State.cohSend_keeps | with_reducible apply State.cohAfterPut_keeps | with_reducible apply State.cohAcked_keeps | with_reducible apply State.sendData_keeps | with_reducible apply State.dropLine_keeps | with_reducible apply State.updDir_keeps | with_reducible apply State.writeback_keeps | with_reducible apply State.cohTake_keeps | with_reducible refine keeps_foldl (fun _ _ _ => ?_) ?_ | with_reducible refine keeps_forUpto (fun _ _ _ => ?_) ?_ | split | with_reducible refine keeps_freeCnt (Nat.le_add_right _ _) ?_)

theorem State.cohFwd_keeps {x1 x2 x3 x4} (h : Keeps a s) : Keeps a (State.cohFwd s x1 x2 x3 x4) := by
  unfold State.cohFwd
  try dsimp only
  repeat' (first | with_reducible assumption | with_reducible apply State.setLine_keeps | with_reducible apply State.writeback_keeps | with_reducible apply State.dropLine_keeps | with_reducible apply State.updDir_keeps | with_reducible apply State.cohSend_keeps | with_reducible apply State.hpmCount_keeps | with_reducible apply State.cohTake_keeps | with_reducible refine keeps_foldl (fun _ _ _ => ?_) ?_ | with_reducible refine keeps_forUpto (fun _ _ _ => ?_) ?_ | split | with_reducible refine keeps_freeCnt (Nat.le_add_right _ _) ?_)

theorem State.cohInv_keeps {x1 x2} (h : Keeps a s) : Keeps a (State.cohInv s x1 x2) := by
  unfold State.cohInv
  try dsimp only
  repeat' (first | with_reducible assumption | with_reducible apply State.cohSend_keeps | with_reducible apply State.dropLine_keeps | with_reducible apply State.updDir_keeps | with_reducible apply State.writeback_keeps | with_reducible apply State.cohTake_keeps | with_reducible refine keeps_foldl (fun _ _ _ => ?_) ?_ | with_reducible refine keeps_forUpto (fun _ _ _ => ?_) ?_ | split | with_reducible refine keeps_freeCnt (Nat.le_add_right _ _) ?_)

theorem State.l2Evict_keeps {x1} (h : Keeps a s) : Keeps a (State.l2Evict s x1) := by
  unfold State.l2Evict
  try dsimp only
  repeat' (first | with_reducible assumption | with_reducible apply State.cohSend_keeps | with_reducible apply State.dropLine_keeps | with_reducible apply State.freeWord_keeps | with_reducible refine State.freeWord_keepsEq (by assumption) ?_ | with_reducible refine keeps_foldl (fun _ _ _ => ?_) ?_ | with_reducible refine keeps_forUpto (fun _ _ _ => ?_) ?_ | split | with_reducible refine keeps_freeCnt (Nat.le_add_right _ _) ?_)

theorem State.cohData_keeps {x1 x2 x3 x4} (h : Keeps a s) : Keeps a (State.cohData s x1 x2 x3 x4) := by
  unfold State.cohData
  try dsimp only
  repeat' (first | with_reducible assumption | with_reducible apply State.coreDone_keeps | with_reducible apply State.cohNext_keeps | with_reducible apply State.updDir_keeps | with_reducible apply State.setLine_keeps | with_reducible apply State.l2Evict_keeps | with_reducible apply State.cohTake_keeps | with_reducible refine keeps_foldl (fun _ _ _ => ?_) ?_ | with_reducible refine keeps_forUpto (fun _ _ _ => ?_) ?_ | split | with_reducible refine keeps_freeCnt (Nat.le_add_right _ _) ?_)

theorem State.cohAck_keeps {x1 x2} (h : Keeps a s) : Keeps a (State.cohAck s x1 x2) := by
  unfold State.cohAck
  try dsimp only
  repeat' (first | with_reducible assumption | with_reducible apply State.cohNext_keeps | with_reducible apply State.coreDone_keeps | with_reducible apply State.updDir_keeps | with_reducible apply State.setLine_keeps | with_reducible apply State.cohTake_keeps | with_reducible apply State.cohAcked_keeps | with_reducible refine keeps_foldl (fun _ _ _ => ?_) ?_ | with_reducible refine keeps_forUpto (fun _ _ _ => ?_) ?_ | split | with_reducible refine keeps_freeCnt (Nat.le_add_right _ _) ?_)

theorem State.cohArrive_keeps {x1 x2} {f : State → State} (hf : ∀ s, Keeps a s → Keeps a (f s)) (h : Keeps a s) :
    Keeps a (State.cohArrive s x1 x2 f) := by
  unfold State.cohArrive
  split
  · split
    · exact State.chaff_keeps (State.cohTake_keeps h)
    · exact hf s h
  · exact hf s h

theorem State.cboWrite_keeps {x1} (h : Keeps a s) : Keeps a (State.cboWrite s x1) := by
  unfold State.cboWrite
  try dsimp only
  repeat' (first | with_reducible assumption | with_reducible apply State.writeback_keeps | with_reducible apply State.setLine_keeps | with_reducible apply State.updDir_keeps | with_reducible refine keeps_foldl (fun _ _ _ => ?_) ?_ | with_reducible refine keeps_forUpto (fun _ _ _ => ?_) ?_ | split | with_reducible refine keeps_freeCnt (Nat.le_add_right _ _) ?_)

theorem State.cboDrop_keeps {x1} (h : Keeps a s) : Keeps a (State.cboDrop s x1) := by
  unfold State.cboDrop
  try dsimp only
  repeat' (first | with_reducible assumption | with_reducible apply State.dropLine_keeps | with_reducible apply State.updDir_keeps | with_reducible refine keeps_foldl (fun _ _ _ => ?_) ?_ | with_reducible refine keeps_forUpto (fun _ _ _ => ?_) ?_ | split | with_reducible refine keeps_freeCnt (Nat.le_add_right _ _) ?_)

theorem State.cbo_keeps {x1 x2} {f : State → State} (hf : ∀ s, Keeps a s → Keeps a (f s)) (h : Keeps a s) :
    Keeps a (State.cbo s x1 x2 f) := by
  unfold State.cbo
  dsimp only
  split
  · exact State.coreTrap_keeps (State.hpmCount_keeps h)
  · exact State.retireIns_keeps (hf s h)

theorem execGetS_keeps {x0 x1} (e : execGetS x0 x1 s = .next t) : Keeps s t := by
  unfold execGetS at e
  have h := Keeps.refl s
  replace e := Host.Outcome.next.inj e
  subst e
  try dsimp only
  repeat' (first | with_reducible assumption | with_reducible apply State.cohRequest_keeps | with_reducible refine keeps_foldl (fun _ _ _ => ?_) ?_ | with_reducible refine keeps_forUpto (fun _ _ _ => ?_) ?_ | split | with_reducible refine keeps_freeCnt (Nat.le_add_right _ _) ?_)

theorem execGetM_keeps {x0 x1} (e : execGetM x0 x1 s = .next t) : Keeps s t := by
  unfold execGetM at e
  have h := Keeps.refl s
  replace e := Host.Outcome.next.inj e
  subst e
  try dsimp only
  repeat' (first | with_reducible assumption | with_reducible apply State.cohRequest_keeps | with_reducible refine keeps_foldl (fun _ _ _ => ?_) ?_ | with_reducible refine keeps_forUpto (fun _ _ _ => ?_) ?_ | split | with_reducible refine keeps_freeCnt (Nat.le_add_right _ _) ?_)

theorem execUpgrade_keeps {x0 x1} (e : execUpgrade x0 x1 s = .next t) : Keeps s t := by
  unfold execUpgrade at e
  have h := Keeps.refl s
  replace e := Host.Outcome.next.inj e
  subst e
  try dsimp only
  repeat' (first | with_reducible assumption | with_reducible apply State.cohRequest_keeps | with_reducible refine keeps_foldl (fun _ _ _ => ?_) ?_ | with_reducible refine keeps_forUpto (fun _ _ _ => ?_) ?_ | split | with_reducible refine keeps_freeCnt (Nat.le_add_right _ _) ?_)

theorem execPutM_keeps {x0 x1 x2} (e : execPutM x0 x1 x2 s = .next t) : Keeps s t := by
  unfold execPutM at e
  have h := Keeps.refl s
  replace e := Host.Outcome.next.inj e
  subst e
  try dsimp only
  repeat' (first | with_reducible assumption | with_reducible apply State.cohPut_keeps | with_reducible apply State.settle_keeps | with_reducible refine keeps_foldl (fun _ _ _ => ?_) ?_ | with_reducible refine keeps_forUpto (fun _ _ _ => ?_) ?_ | split | with_reducible refine keeps_freeCnt (Nat.le_add_right _ _) ?_)

theorem execPutS_keeps {x0 x1} (e : execPutS x0 x1 s = .next t) : Keeps s t := by
  unfold execPutS at e
  have h := Keeps.refl s
  replace e := Host.Outcome.next.inj e
  subst e
  try dsimp only
  repeat' (first | with_reducible assumption | with_reducible apply State.cohPut_keeps | with_reducible refine keeps_foldl (fun _ _ _ => ?_) ?_ | with_reducible refine keeps_forUpto (fun _ _ _ => ?_) ?_ | split | with_reducible refine keeps_freeCnt (Nat.le_add_right _ _) ?_)

theorem execFwdS_keeps {x0 x1 x2} (e : execFwdS x0 x1 x2 s = .next t) : Keeps s t := by
  unfold execFwdS at e
  have h := Keeps.refl s
  replace e := Host.Outcome.next.inj e
  subst e
  try dsimp only
  repeat' (first | with_reducible assumption | with_reducible apply State.cohFwd_keeps | with_reducible refine State.cohArrive_keeps (fun _ _ => ?_) ?_ | with_reducible apply State.settle_keeps | with_reducible refine keeps_foldl (fun _ _ _ => ?_) ?_ | with_reducible refine keeps_forUpto (fun _ _ _ => ?_) ?_ | split | with_reducible refine keeps_freeCnt (Nat.le_add_right _ _) ?_)

theorem execFwdM_keeps {x0 x1 x2} (e : execFwdM x0 x1 x2 s = .next t) : Keeps s t := by
  unfold execFwdM at e
  have h := Keeps.refl s
  replace e := Host.Outcome.next.inj e
  subst e
  try dsimp only
  repeat' (first | with_reducible assumption | with_reducible apply State.cohFwd_keeps | with_reducible refine State.cohArrive_keeps (fun _ _ => ?_) ?_ | with_reducible refine keeps_foldl (fun _ _ _ => ?_) ?_ | with_reducible refine keeps_forUpto (fun _ _ _ => ?_) ?_ | split | with_reducible refine keeps_freeCnt (Nat.le_add_right _ _) ?_)

theorem execInv_keeps {x0 x1} (e : execInv x0 x1 s = .next t) : Keeps s t := by
  unfold execInv at e
  have h := Keeps.refl s
  replace e := Host.Outcome.next.inj e
  subst e
  try dsimp only
  repeat' (first | with_reducible assumption | with_reducible apply State.cohInv_keeps | with_reducible refine State.cohArrive_keeps (fun _ _ => ?_) ?_ | with_reducible apply State.settle_keeps | with_reducible refine keeps_foldl (fun _ _ _ => ?_) ?_ | with_reducible refine keeps_forUpto (fun _ _ _ => ?_) ?_ | split | with_reducible refine keeps_freeCnt (Nat.le_add_right _ _) ?_)

theorem execCoherenceData_keeps {x0 x1 x2 x3} (e : execCoherenceData x0 x1 x2 x3 s = .next t) : Keeps s t := by
  unfold execCoherenceData at e
  have h := Keeps.refl s
  replace e := Host.Outcome.next.inj e
  subst e
  try dsimp only
  repeat' (first | with_reducible assumption | with_reducible apply State.cohData_keeps | with_reducible refine State.cohArrive_keeps (fun _ _ => ?_) ?_ | with_reducible refine keeps_foldl (fun _ _ _ => ?_) ?_ | with_reducible refine keeps_forUpto (fun _ _ _ => ?_) ?_ | split | with_reducible refine keeps_freeCnt (Nat.le_add_right _ _) ?_)

theorem execCoherenceAck_keeps {x0 x1} (e : execCoherenceAck x0 x1 s = .next t) : Keeps s t := by
  unfold execCoherenceAck at e
  have h := Keeps.refl s
  replace e := Host.Outcome.next.inj e
  subst e
  try dsimp only
  repeat' (first | with_reducible assumption | with_reducible apply State.cohAck_keeps | with_reducible refine State.cohArrive_keeps (fun _ _ => ?_) ?_ | with_reducible refine keeps_foldl (fun _ _ _ => ?_) ?_ | with_reducible refine keeps_forUpto (fun _ _ _ => ?_) ?_ | split | with_reducible refine keeps_freeCnt (Nat.le_add_right _ _) ?_)

theorem execCboClean_keeps {x0 x1} (e : execCboClean x0 x1 s = .next t) : Keeps s t := by
  unfold execCboClean at e
  have h := Keeps.refl s
  replace e := Host.Outcome.next.inj e
  subst e
  try dsimp only
  repeat' (first | with_reducible assumption | with_reducible apply State.cboWrite_keeps | with_reducible refine State.cbo_keeps (fun _ _ => ?_) ?_ | with_reducible apply State.settle_keeps | with_reducible refine keeps_foldl (fun _ _ _ => ?_) ?_ | with_reducible refine keeps_forUpto (fun _ _ _ => ?_) ?_ | split | with_reducible refine keeps_freeCnt (Nat.le_add_right _ _) ?_)

theorem execCboFlush_keeps {x0 x1} (e : execCboFlush x0 x1 s = .next t) : Keeps s t := by
  unfold execCboFlush at e
  have h := Keeps.refl s
  replace e := Host.Outcome.next.inj e
  subst e
  try dsimp only
  repeat' (first | with_reducible assumption | with_reducible apply State.cboWrite_keeps | with_reducible apply State.cboDrop_keeps | with_reducible refine State.cbo_keeps (fun _ _ => ?_) ?_ | with_reducible apply State.settle_keeps | with_reducible refine keeps_foldl (fun _ _ _ => ?_) ?_ | with_reducible refine keeps_forUpto (fun _ _ _ => ?_) ?_ | split | with_reducible refine keeps_freeCnt (Nat.le_add_right _ _) ?_)

theorem execCboInval_keeps {x0 x1} (e : execCboInval x0 x1 s = .next t) : Keeps s t := by
  unfold execCboInval at e
  have h := Keeps.refl s
  replace e := Host.Outcome.next.inj e
  subst e
  try dsimp only
  repeat' (first | with_reducible assumption | with_reducible apply State.cboDrop_keeps | with_reducible refine State.cbo_keeps (fun _ _ => ?_) ?_ | with_reducible refine keeps_foldl (fun _ _ _ => ?_) ?_ | with_reducible refine keeps_forUpto (fun _ _ _ => ?_) ?_ | split | with_reducible refine keeps_freeCnt (Nat.le_add_right _ _) ?_)

theorem execGxctxWrite_keeps {x0 x1} (e : execGxctxWrite x0 x1 s = .next t) : Keeps s t := by
  unfold execGxctxWrite at e
  have h := Keeps.refl s
  replace e := Host.Outcome.next.inj e
  subst e
  try dsimp only
  repeat' (first | with_reducible assumption | with_reducible apply State.updCoreOf_keeps | with_reducible apply State.retireIns_keeps | with_reducible refine keeps_foldl (fun _ _ _ => ?_) ?_ | with_reducible refine keeps_forUpto (fun _ _ _ => ?_) ?_ | split | with_reducible refine keeps_freeCnt (Nat.le_add_right _ _) ?_)

theorem execGxerrClear_keeps {x0 x1} (e : execGxerrClear x0 x1 s = .next t) : Keeps s t := by
  unfold execGxerrClear at e
  have h := Keeps.refl s
  replace e := Host.Outcome.next.inj e
  subst e
  try dsimp only
  repeat' (first | with_reducible assumption | with_reducible apply State.updCoreOf_keeps | with_reducible apply State.retireIns_keeps | with_reducible refine keeps_foldl (fun _ _ _ => ?_) ?_ | with_reducible refine keeps_forUpto (fun _ _ _ => ?_) ?_ | split | with_reducible refine keeps_freeCnt (Nat.le_add_right _ _) ?_)

theorem execMcycleWrite_keeps {x0 x1} (e : execMcycleWrite x0 x1 s = .next t) : Keeps s t := by
  unfold execMcycleWrite at e
  have h := Keeps.refl s
  replace e := Host.Outcome.next.inj e
  subst e
  try dsimp only
  repeat' (first | with_reducible assumption | with_reducible apply State.updCoreOf_keeps | with_reducible apply State.retireIns_keeps | with_reducible refine keeps_foldl (fun _ _ _ => ?_) ?_ | with_reducible refine keeps_forUpto (fun _ _ _ => ?_) ?_ | split | with_reducible refine keeps_freeCnt (Nat.le_add_right _ _) ?_)

theorem execWfi_keeps {x0} (e : execWfi x0 s = .next t) : Keeps s t := by
  unfold execWfi at e
  have h := Keeps.refl s
  replace e := Host.Outcome.next.inj e
  subst e
  try dsimp only
  repeat' (first | with_reducible assumption | with_reducible apply State.retireIns_keeps | with_reducible refine keeps_foldl (fun _ _ _ => ?_) ?_ | with_reducible refine keeps_forUpto (fun _ _ _ => ?_) ?_ | split | with_reducible refine keeps_freeCnt (Nat.le_add_right _ _) ?_)

theorem State.waitResv_keeps {x1 x2} (h : Keeps a s) : Keeps a (State.waitResv s x1 x2) := by
  unfold State.waitResv
  try dsimp only
  repeat' (first | with_reducible assumption | with_reducible apply State.retireIns_keeps | with_reducible apply State.updCoreOf_keeps | with_reducible refine keeps_foldl (fun _ _ _ => ?_) ?_ | with_reducible refine keeps_forUpto (fun _ _ _ => ?_) ?_ | split | with_reducible refine keeps_freeCnt (Nat.le_add_right _ _) ?_)

theorem execWrsNto_keeps {x0} (e : execWrsNto x0 s = .next t) : Keeps s t := by
  unfold execWrsNto at e
  have h := Keeps.refl s
  replace e := Host.Outcome.next.inj e
  subst e
  try dsimp only
  repeat' (first | with_reducible assumption | with_reducible apply State.waitResv_keeps | with_reducible refine keeps_foldl (fun _ _ _ => ?_) ?_ | with_reducible refine keeps_forUpto (fun _ _ _ => ?_) ?_ | split | with_reducible refine keeps_freeCnt (Nat.le_add_right _ _) ?_)

theorem execWrsSto_keeps {x0} (e : execWrsSto x0 s = .next t) : Keeps s t := by
  unfold execWrsSto at e
  have h := Keeps.refl s
  replace e := Host.Outcome.next.inj e
  subst e
  try dsimp only
  repeat' (first | with_reducible assumption | with_reducible apply State.waitResv_keeps | with_reducible refine keeps_foldl (fun _ _ _ => ?_) ?_ | with_reducible refine keeps_forUpto (fun _ _ _ => ?_) ?_ | split | with_reducible refine keeps_freeCnt (Nat.le_add_right _ _) ?_)

theorem State.endWaits_keeps (h : Keeps a s) : Keeps a (State.endWaits s) := by
  unfold State.endWaits
  try dsimp only
  repeat' (first | with_reducible assumption | with_reducible apply State.updCoreOf_keeps | with_reducible apply State.retireIns_keeps | with_reducible refine keeps_foldl (fun _ _ _ => ?_) ?_ | with_reducible refine keeps_forUpto (fun _ _ _ => ?_) ?_ | split | with_reducible refine keeps_freeCnt (Nat.le_add_right _ _) ?_)

end Sys2Proof.Machine
end

