-- ==== Sys2Proof/Laws/KeepsBlockerOps.lean ====
section
/-! SUPPORT. Every operation of Machine/BlockerOps.lean carries `Keeps` on. -/

namespace Sys2Proof.Machine

set_option linter.unusedTactic false
set_option linter.unreachableTactic false

variable {a s t : State}

theorem State.updSlotMap_keeps {x1 x2 x3} (h : Keeps a s) : Keeps a (State.updSlotMap s x1 x2 x3) := by
  unfold State.updSlotMap
  try dsimp only
  repeat' (first | with_reducible assumption | with_reducible apply State.updBlk_keeps | with_reducible refine keeps_foldl (fun _ _ _ => ?_) ?_ | with_reducible refine keeps_forUpto (fun _ _ _ => ?_) ?_ | split | with_reducible refine keeps_freeCnt (Nat.le_add_right _ _) ?_)

theorem State.setLatch_keeps {x1 x2} (h : Keeps a s) : Keeps a (State.setLatch s x1 x2) := by
  unfold State.setLatch
  try dsimp only
  repeat' (first | with_reducible assumption | with_reducible apply State.updBlk_keeps | with_reducible refine keeps_foldl (fun _ _ _ => ?_) ?_ | with_reducible refine keeps_forUpto (fun _ _ _ => ?_) ?_ | split | with_reducible refine keeps_freeCnt (Nat.le_add_right _ _) ?_)

theorem State.commit_keeps {x1 x2 x3 x4} (h : Keeps a s) : Keeps a (State.commit s x1 x2 x3 x4).2 := by
  unfold State.commit
  try dsimp only
  repeat' (first | with_reducible assumption | with_reducible apply State.eccRead_keeps | with_reducible apply State.updSlotMap_keeps | with_reducible refine keeps_foldl (fun _ _ _ => ?_) ?_ | with_reducible refine keeps_forUpto (fun _ _ _ => ?_) ?_ | split | with_reducible refine keeps_freeCnt (Nat.le_add_right _ _) ?_)

theorem State.commit_keepsEq {x1 x2 x3 x4 r} (e : State.commit s x1 x2 x3 x4 = (r, t)) (h : Keeps a s) : Keeps a t := by
  have k := State.commit_keeps (a := a) (x1 := x1) (x2 := x2) (x3 := x3) (x4 := x4) h
  rw [e] at k; exact k

theorem State.mapCfg_keeps {x1 x2 x3} (h : Keeps a s) : Keeps a (State.mapCfg s x1 x2 x3) := by
  unfold State.mapCfg
  try dsimp only
  repeat' (first | with_reducible assumption | with_reducible apply State.updSlotMap_keeps | with_reducible refine keeps_foldl (fun _ _ _ => ?_) ?_ | with_reducible refine keeps_forUpto (fun _ _ _ => ?_) ?_ | split | with_reducible refine keeps_freeCnt (Nat.le_add_right _ _) ?_)

theorem State.blkDropCtx_keeps {x1} (h : Keeps a s) : Keeps a (State.blkDropCtx s x1) := by
  unfold State.blkDropCtx
  try dsimp only
  repeat' (first | with_reducible assumption | with_reducible apply State.updSlotMap_keeps | with_reducible refine keeps_foldl (fun _ _ _ => ?_) ?_ | with_reducible refine keeps_forUpto (fun _ _ _ => ?_) ?_ | split | with_reducible refine keeps_freeCnt (Nat.le_add_right _ _) ?_)

theorem ofRd_ok {α : Type} {x : Rd α} {v : α} (e : ofRd x = .ok v) : x = .ok v := by
  cases x <;> cases e
  rfl

theorem wr_keepsOk {x0 x2 x3} (e : wr x0 s x2 x3 = .ok t) (h : Keeps a s) : Keeps a t :=
  doWrites_keepsOk _ (ofRd_ok e) h

theorem seedOne_keepsOk {x0 x1 x2 x3 x5} (e : seedOne x0 x1 x2 x3 s x5 = .ok t) (h : Keeps a s) : Keeps a t := by
  unfold seedOne at e
  obtain ⟨_, _, e⟩ := except_bind_ok e
  split at e
  · cases e
  · obtain ⟨_, _, e⟩ := except_bind_ok e
    split at e
    · exact wr_keepsOk e h
    · obtain ⟨_, h1, e⟩ := except_bind_ok e
      obtain ⟨_, h2, e⟩ := except_bind_ok e
      obtain ⟨_, h3, e⟩ := except_bind_ok e
      obtain ⟨_, h4, e⟩ := except_bind_ok e
      refine wr_keepsOk e (wr_keepsOk h4 ?_)
      have k2 := wr_keepsOk h2 (wr_keepsOk h1 h)
      split at h3
      · exact wr_keepsOk h3 k2
      · cases h3; exact k2

theorem opSeed_keepsOk {x1 x2 x3} (e : opSeed s x1 x2 x3 = .ok t) (h : Keeps a s) : Keeps a t := by
  unfold opSeed at e
  obtain ⟨_, _, e⟩ := except_bind_ok e
  obtain ⟨_, _, e⟩ := except_bind_ok e
  exact keeps_foldlM (fun e h => seedOne_keepsOk e h) _ e h

theorem optOne_keepsOk {x0 x1 x2 x3 x4 x5 x6 x8} (e : optOne x0 x1 x2 x3 x4 x5 x6 s x8 = .ok t) (h : Keeps a s) : Keeps a t := by
  unfold optOne at e
  obtain ⟨_, _, e⟩ := except_bind_ok e
  dsimp only at e
  split at e
  · cases e; exact h
  · obtain ⟨_, _, e⟩ := except_bind_ok e
    obtain ⟨_, _, e⟩ := except_bind_ok e
    split at e
    · obtain ⟨_, h1, e⟩ := except_bind_ok e
      obtain ⟨_, h2, e⟩ := except_bind_ok e
      exact wr_keepsOk e (wr_keepsOk h2 (wr_keepsOk h1 h))
    · obtain ⟨_, _, e⟩ := except_bind_ok e
      obtain ⟨_, h1, e⟩ := except_bind_ok e
      obtain ⟨_, h2, e⟩ := except_bind_ok e
      obtain ⟨_, h3, e⟩ := except_bind_ok e
      obtain ⟨_, h4, e⟩ := except_bind_ok e
      refine wr_keepsOk e (wr_keepsOk h4 (wr_keepsOk h3 (wr_keepsOk h2 ?_)))
      split at h1
      · exact wr_keepsOk h1 h
      · cases h1; exact h

theorem opOptimise_keepsOk {x1 x2 x3 x4 x5} (e : opOptimise s x1 x2 x3 x4 x5 = .ok t) (h : Keeps a s) : Keeps a t := by
  unfold opOptimise at e
  obtain ⟨_, _, e⟩ := except_bind_ok e
  obtain ⟨_, _, e⟩ := except_bind_ok e
  obtain ⟨_, _, e⟩ := except_bind_ok e
  obtain ⟨_, _, e⟩ := except_bind_ok e
  exact keeps_foldlM (fun e h => optOne_keepsOk e h) _ e h

theorem checkOne_keepsOk {x0 x1 x2 x3 x4 x5 x6 x8} (e : checkOne x0 x1 x2 x3 x4 x5 x6 s x8 = .ok t) (h : Keeps a s) : Keeps a t := by
  unfold checkOne at e
  obtain ⟨_, _, e⟩ := except_bind_ok e
  dsimp only at e
  split at e
  · cases e; exact h
  · obtain ⟨_, _, e⟩ := except_bind_ok e
    obtain ⟨_, _, e⟩ := except_bind_ok e
    obtain ⟨_, h1, e⟩ := except_bind_ok e
    obtain ⟨_, h2, e⟩ := except_bind_ok e
    refine wr_keepsOk e (wr_keepsOk h2 ?_)
    split at h1
    · obtain ⟨_, h3, h1⟩ := except_bind_ok h1
      exact wr_keepsOk h1 (wr_keepsOk h3 h)
    · exact wr_keepsOk h1 h

theorem opCheck_keepsOk {x1 x2 x3 x4 x5} (e : opCheck s x1 x2 x3 x4 x5 = .ok t) (h : Keeps a s) : Keeps a t := by
  unfold opCheck at e
  obtain ⟨_, _, e⟩ := except_bind_ok e
  obtain ⟨_, _, e⟩ := except_bind_ok e
  obtain ⟨_, _, e⟩ := except_bind_ok e
  obtain ⟨_, _, e⟩ := except_bind_ok e
  exact keeps_foldlM (fun e h => checkOne_keepsOk e h) _ e h

theorem opCheckList_keepsOk {x1 x2 x3 x4 x5} (e : opCheckList s x1 x2 x3 x4 x5 = .ok t) (h : Keeps a s) : Keeps a t := by
  unfold opCheckList at e
  obtain ⟨_, _, e⟩ := except_bind_ok e
  obtain ⟨_, _, e⟩ := except_bind_ok e
  obtain ⟨_, _, e⟩ := except_bind_ok e
  obtain ⟨_, _, e⟩ := except_bind_ok e
  obtain ⟨_, _, e⟩ := except_bind_ok e
  exact doWrites_keepsOk _ (ofRd_ok e) h

theorem opSelect_keepsOk {x1 x2 x3} (e : opSelect s x1 x2 x3 = .ok t) (h : Keeps a s) : Keeps a t := by
  unfold opSelect at e
  obtain ⟨_, _, e⟩ := except_bind_ok e
  obtain ⟨_, _, e⟩ := except_bind_ok e
  obtain ⟨_, _, e⟩ := except_bind_ok e
  exact doWrites_keepsOk _ (ofRd_ok e) h

theorem State.blkEccRead_keeps {x1 x2 x3 x4} (h : Keeps a s) : Keeps a (State.blkEccRead s x1 x2 x3 x4) := by
  unfold State.blkEccRead
  try dsimp only
  repeat' (first | with_reducible assumption | with_reducible apply State.eccRanges_keeps | with_reducible refine keeps_foldl (fun _ _ _ => ?_) ?_ | with_reducible refine keeps_forUpto (fun _ _ _ => ?_) ?_ | split | with_reducible refine keeps_freeCnt (Nat.le_add_right _ _) ?_)

theorem blkSheaf_keeps {x1 x2 x3 x4} (h : Keeps a s) : Keeps a (blkSheaf s x1 x2 x3 x4).2 := by
  unfold blkSheaf
  try dsimp only
  repeat' (first | with_reducible assumption | with_reducible refine opCheckList_keepsOk (by assumption) ?_ | with_reducible apply State.commit_keeps | with_reducible refine State.commit_keepsEq (by assumption) ?_ | with_reducible refine opSelect_keepsOk (by assumption) ?_ | with_reducible refine opCheck_keepsOk (by assumption) ?_ | with_reducible refine opOptimise_keepsOk (by assumption) ?_ | with_reducible refine opSeed_keepsOk (by assumption) ?_ | with_reducible apply State.blkEccRead_keeps | with_reducible refine keeps_foldl (fun _ _ _ => ?_) ?_ | with_reducible refine keeps_forUpto (fun _ _ _ => ?_) ?_ | split | with_reducible refine keeps_freeCnt (Nat.le_add_right _ _) ?_)

theorem blkSheaf_keepsEq {x1 x2 x3 x4 r} (e : blkSheaf s x1 x2 x3 x4 = (r, t)) (h : Keeps a s) : Keeps a t := by
  have k := blkSheaf_keeps (a := a) (x1 := x1) (x2 := x2) (x3 := x3) (x4 := x4) h
  rw [e] at k; exact k

theorem State.blkBegin_keeps {x1 x2 x3 x4} (h : Keeps a s) : Keeps a (State.blkBegin s x1 x2 x3 x4).2 := by
  unfold State.blkBegin
  try dsimp only
  repeat' (first | with_reducible assumption | with_reducible apply State.setLatch_keeps | with_reducible refine keeps_foldl (fun _ _ _ => ?_) ?_ | with_reducible refine keeps_forUpto (fun _ _ _ => ?_) ?_ | split | with_reducible refine keeps_freeCnt (Nat.le_add_right _ _) ?_)

theorem State.blkBegin_keepsEq {x1 x2 x3 x4 r} (e : State.blkBegin s x1 x2 x3 x4 = (r, t)) (h : Keeps a s) : Keeps a t := by
  have k := State.blkBegin_keeps (a := a) (x1 := x1) (x2 := x2) (x3 := x3) (x4 := x4) h
  rw [e] at k; exact k

theorem execBlkMapCommitWrite_keeps {x0 x1 x2 x3 x4} (e : execBlkMapCommitWrite x0 x1 x2 x3 x4 s = .next t) : Keeps s t := by
  unfold execBlkMapCommitWrite at e
  have h := Keeps.refl s
  replace e := Host.Outcome.next.inj e
  subst e
  try dsimp only
  repeat' (first | with_reducible assumption | with_reducible apply State.commit_keeps | with_reducible refine State.commit_keepsEq (by assumption) ?_ | with_reducible refine keeps_foldl (fun _ _ _ => ?_) ?_ | with_reducible refine keeps_forUpto (fun _ _ _ => ?_) ?_ | split | with_reducible refine keeps_freeCnt (Nat.le_add_right _ _) ?_)

theorem execBlkMapEnable_keeps {x0 x1 x2 x3} (e : execBlkMapEnable x0 x1 x2 x3 s = .next t) : Keeps s t := by
  unfold execBlkMapEnable at e
  have h := Keeps.refl s
  replace e := Host.Outcome.next.inj e
  subst e
  try dsimp only
  repeat' (first | with_reducible assumption | with_reducible apply State.mapCfg_keeps | with_reducible refine keeps_foldl (fun _ _ _ => ?_) ?_ | with_reducible refine keeps_forUpto (fun _ _ _ => ?_) ?_ | split | with_reducible refine keeps_freeCnt (Nat.le_add_right _ _) ?_)

theorem execBlkMapEpochLoRead_keeps {x0 x1 x2} (e : execBlkMapEpochLoRead x0 x1 x2 s = .next t) : Keeps s t := by
  unfold execBlkMapEpochLoRead at e
  have h := Keeps.refl s
  replace e := Host.Outcome.next.inj e
  subst e
  try dsimp only
  repeat' (first | with_reducible assumption | with_reducible apply State.updSlotMap_keeps | with_reducible refine keeps_foldl (fun _ _ _ => ?_) ?_ | with_reducible refine keeps_forUpto (fun _ _ _ => ?_) ?_ | split | with_reducible refine keeps_freeCnt (Nat.le_add_right _ _) ?_)

end Sys2Proof.Machine
end

