-- ==== Sys2Proof/Laws/KeepsOutput.lean ====
section
/-! SUPPORT. Every operation of Machine/Output.lean carries `Keeps` on. -/

namespace Sys2Proof.Machine

set_option linter.unusedTactic false
set_option linter.unreachableTactic false

variable {a s t : State}

theorem State.mrpFor_keeps {x1 x2 x3} (h : Keeps a s) : Keeps a (State.mrpFor s x1 x2 x3).2.2 := by
  unfold State.mrpFor
  try dsimp only
  repeat' (first | with_reducible assumption | with_reducible refine keeps_foldl (fun _ _ _ => ?_) ?_ | with_reducible refine keeps_forUpto (fun _ _ _ => ?_) ?_ | split | with_reducible refine keeps_freeCnt (Nat.le_add_right _ _) ?_)

theorem State.mrpFor_keepsEq {x1 x2 x3 r q} (e : State.mrpFor s x1 x2 x3 = (r, q, t)) (h : Keeps a s) : Keeps a t := by
  have k := State.mrpFor_keeps (a := a) (x1 := x1) (x2 := x2) (x3 := x3) h
  rw [e] at k; exact k

theorem State.updStage_keeps {x1 x2} (h : Keeps a s) : Keeps a (State.updStage s x1 x2) := by
  unfold State.updStage
  try dsimp only
  repeat' (first | with_reducible assumption | with_reducible apply keeps_mapOut | with_reducible refine keeps_foldl (fun _ _ _ => ?_) ?_ | with_reducible refine keeps_forUpto (fun _ _ _ => ?_) ?_ | split | with_reducible refine keeps_freeCnt (Nat.le_add_right _ _) ?_)

theorem State.handOver_keeps {x1 x2 x3} (h : Keeps a s) : Keeps a (State.handOver s x1 x2 x3) := by
  unfold State.handOver
  try dsimp only
  repeat' (first | with_reducible assumption | with_reducible apply State.updInst_keeps | with_reducible apply State.instDone_keeps | with_reducible apply keeps_mapOut | with_reducible apply State.updEp_keeps | with_reducible apply State.mrpFor_keeps | with_reducible refine State.mrpFor_keepsEq (by assumption) ?_ | with_reducible refine keeps_foldl (fun _ _ _ => ?_) ?_ | with_reducible refine keeps_forUpto (fun _ _ _ => ?_) ?_ | split | with_reducible refine keeps_freeCnt (Nat.le_add_right _ _) ?_)

theorem State.stageError_keeps {x1 x2} (h : Keeps a s) : Keeps a (State.stageError s x1 x2) := by
  unfold State.stageError
  try dsimp only
  repeat' (first | with_reducible assumption | with_reducible apply State.withhold_keeps | with_reducible apply State.abandonInst_keeps | with_reducible apply State.fault_keeps | with_reducible apply State.updBlk_keeps | with_reducible refine keeps_foldl (fun _ _ _ => ?_) ?_ | with_reducible refine keeps_forUpto (fun _ _ _ => ?_) ?_ | split | with_reducible refine keeps_freeCnt (Nat.le_add_right _ _) ?_)

theorem State.takeOutput_keeps {x1 x2} (h : Keeps a s) : Keeps a (State.takeOutput s x1 x2) := by
  unfold State.takeOutput
  try dsimp only
  repeat' (first | with_reducible assumption | with_reducible apply State.handOver_keeps | with_reducible apply State.stageError_keeps | with_reducible refine keeps_foldl (fun _ _ _ => ?_) ?_ | with_reducible refine keeps_forUpto (fun _ _ _ => ?_) ?_ | split | with_reducible refine keeps_freeCnt (Nat.le_add_right _ _) ?_)

theorem State.tryOutput_keeps {x1} (h : Keeps a s) : Keeps a (State.tryOutput s x1) := by
  unfold State.tryOutput
  try dsimp only
  repeat' (first | with_reducible assumption | with_reducible apply State.takeOutput_keeps | with_reducible refine keeps_foldl (fun _ _ _ => ?_) ?_ | with_reducible refine keeps_forUpto (fun _ _ _ => ?_) ?_ | split | with_reducible refine keeps_freeCnt (Nat.le_add_right _ _) ?_)

theorem State.endStage_keeps {x1} (h : Keeps a s) : Keeps a (State.endStage s x1) := by
  unfold State.endStage
  try dsimp only
  repeat' (first | with_reducible assumption | with_reducible apply State.tryOutput_keeps | with_reducible apply State.send_keeps | with_reducible apply State.updStage_keeps | with_reducible refine keeps_foldl (fun _ _ _ => ?_) ?_ | with_reducible refine keeps_forUpto (fun _ _ _ => ?_) ?_ | split | with_reducible refine keeps_freeCnt (Nat.le_add_right _ _) ?_)

theorem State.startStage_keeps {x1 x2 x3 x4} (h : Keeps a s) : Keeps a (State.startStage s x1 x2 x3 x4) := by
  unfold State.startStage
  try dsimp only
  repeat' (first | with_reducible assumption | with_reducible apply State.endStage_keeps | with_reducible apply keeps_mapOut | with_reducible refine keeps_foldl (fun _ _ _ => ?_) ?_ | with_reducible refine keeps_forUpto (fun _ _ _ => ?_) ?_ | split | with_reducible refine keeps_freeCnt (Nat.le_add_right _ _) ?_)

theorem State.stageAdvance_keeps {x1} (h : Keeps a s) : Keeps a (State.stageAdvance s x1) := by
  unfold State.stageAdvance
  try dsimp only
  repeat' (first | with_reducible assumption | with_reducible apply State.updStage_keeps | with_reducible apply State.endStage_keeps | with_reducible apply State.stageError_keeps | with_reducible refine keeps_foldl (fun _ _ _ => ?_) ?_ | with_reducible refine keeps_forUpto (fun _ _ _ => ?_) ?_ | split | with_reducible refine keeps_freeCnt (Nat.le_add_right _ _) ?_)

theorem State.cutEpoch_keeps {x1 x2 x3} (h : Keeps a s) : Keeps a (State.cutEpoch s x1 x2 x3) := by
  unfold State.cutEpoch
  try dsimp only
  repeat' (first | with_reducible assumption | with_reducible apply keeps_mapOut | with_reducible apply State.updStage_keeps | with_reducible apply State.endStage_keeps | with_reducible refine keeps_foldl (fun _ _ _ => ?_) ?_ | with_reducible refine keeps_forUpto (fun _ _ _ => ?_) ?_ | split | with_reducible refine keeps_freeCnt (Nat.le_add_right _ _) ?_)

theorem State.hwaProfile_keeps {x1 x2 x3} (h : Keeps a s) : Keeps a (State.hwaProfile s x1 x2 x3).2 := by
  unfold State.hwaProfile
  try dsimp only
  repeat' (first | with_reducible assumption | with_reducible refine keeps_foldl (fun _ _ _ => ?_) ?_ | with_reducible refine keeps_forUpto (fun _ _ _ => ?_) ?_ | split | with_reducible refine keeps_freeCnt (Nat.le_add_right _ _) ?_)

theorem State.hwaProfile_keepsEq {x1 x2 x3 r} (e : State.hwaProfile s x1 x2 x3 = (r, t)) (h : Keeps a s) : Keeps a t := by
  have k := State.hwaProfile_keeps (a := a) (x1 := x1) (x2 := x2) (x3 := x3) h
  rw [e] at k; exact k

theorem State.issueMrp_keeps (h : Keeps a s) : Keeps a (State.issueMrp s) := by
  unfold State.issueMrp
  try dsimp only
  repeat' (first | with_reducible assumption | with_reducible apply State.sendAlone_keeps | with_reducible apply keeps_mapOut | with_reducible apply State.hwaProfile_keeps | with_reducible refine State.hwaProfile_keepsEq (by assumption) ?_ | with_reducible refine keeps_foldl (fun _ _ _ => ?_) ?_ | with_reducible refine keeps_forUpto (fun _ _ _ => ?_) ?_ | split | with_reducible refine keeps_freeCnt (Nat.le_add_right _ _) ?_)

theorem execOutputStepComplete_keeps {x0} (e : execOutputStepComplete x0 s = .next t) : Keeps s t := by
  unfold execOutputStepComplete at e
  have h := Keeps.refl s
  replace e := Host.Outcome.next.inj e
  subst e
  try dsimp only
  repeat' (first | with_reducible assumption | with_reducible apply State.stageAdvance_keeps | with_reducible apply State.settle_keeps | with_reducible refine keeps_foldl (fun _ _ _ => ?_) ?_ | with_reducible refine keeps_forUpto (fun _ _ _ => ?_) ?_ | split | with_reducible refine keeps_freeCnt (Nat.le_add_right _ _) ?_)

theorem execOutputCut_keeps {x0} (e : execOutputCut x0 s = .next t) : Keeps s t := by
  unfold execOutputCut at e
  have h := Keeps.refl s
  replace e := Host.Outcome.next.inj e
  subst e
  try dsimp only
  repeat' (first | with_reducible assumption | with_reducible apply State.cutEpoch_keeps | with_reducible apply State.settle_keeps | with_reducible refine keeps_foldl (fun _ _ _ => ?_) ?_ | with_reducible refine keeps_forUpto (fun _ _ _ => ?_) ?_ | split | with_reducible refine keeps_freeCnt (Nat.le_add_right _ _) ?_)

theorem execProgressTimeout_keeps {x0} (e : execProgressTimeout x0 s = .next t) : Keeps s t := by
  unfold execProgressTimeout at e
  have h := Keeps.refl s
  replace e := Host.Outcome.next.inj e
  subst e
  try dsimp only
  repeat' (first | with_reducible assumption | with_reducible apply State.takeOutput_keeps | with_reducible apply State.settle_keeps | with_reducible refine keeps_foldl (fun _ _ _ => ?_) ?_ | with_reducible refine keeps_forUpto (fun _ _ _ => ?_) ?_ | split | with_reducible refine keeps_freeCnt (Nat.le_add_right _ _) ?_)

theorem execMrpStaleExpiry_keeps (e : execMrpStaleExpiry s = .next t) : Keeps s t := by
  unfold execMrpStaleExpiry at e
  have h := Keeps.refl s
  replace e := Host.Outcome.next.inj e
  subst e
  try dsimp only
  repeat' (first | with_reducible assumption | with_reducible apply State.issueMrp_keeps | with_reducible refine keeps_foldl (fun _ _ _ => ?_) ?_ | with_reducible refine keeps_forUpto (fun _ _ _ => ?_) ?_ | split | with_reducible refine keeps_freeCnt (Nat.le_add_right _ _) ?_)

theorem execMrpPeriodExpiry_keeps (e : execMrpPeriodExpiry s = .next t) : Keeps s t := by
  unfold execMrpPeriodExpiry at e
  have h := Keeps.refl s
  replace e := Host.Outcome.next.inj e
  subst e
  try dsimp only
  repeat' (first | with_reducible assumption | with_reducible apply State.issueMrp_keeps | with_reducible refine keeps_foldl (fun _ _ _ => ?_) ?_ | with_reducible refine keeps_forUpto (fun _ _ _ => ?_) ?_ | split | with_reducible refine keeps_freeCnt (Nat.le_add_right _ _) ?_)

end Sys2Proof.Machine
end

