-- ==== Sys2Proof/Laws/KeepsUnits.lean ====
section
/-! SUPPORT. Every operation of Machine/Units.lean carries `Keeps` on. -/

namespace Sys2Proof.Machine

set_option linter.unusedTactic false
set_option linter.unreachableTactic false

variable {a s t : State}

theorem State.pushHead_keeps {x1 x2 x3} (h : Keeps a s) : Keeps a (State.pushHead s x1 x2 x3) := by
  unfold State.pushHead
  try dsimp only
  repeat' (first | with_reducible assumption | with_reducible apply State.updEng_keeps | with_reducible refine keeps_foldl (fun _ _ _ => ?_) ?_ | with_reducible refine keeps_forUpto (fun _ _ _ => ?_) ?_ | split | with_reducible refine keeps_freeCnt (Nat.le_add_right _ _) ?_)

theorem State.discarded_keeps {x1 x2 x3 x4} (h : Keeps a s) : Keeps a (State.discarded s x1 x2 x3 x4) := by
  unfold State.discarded
  try dsimp only
  repeat' (first | with_reducible assumption | with_reducible apply State.cplRecord_keeps | with_reducible refine keeps_foldl (fun _ _ _ => ?_) ?_ | with_reducible refine keeps_forUpto (fun _ _ _ => ?_) ?_ | split | with_reducible refine keeps_freeCnt (Nat.le_add_right _ _) ?_)

theorem State.returnSheaf_keeps {x1} (h : Keeps a s) : Keeps a (State.returnSheaf s x1) := by
  unfold State.returnSheaf
  try dsimp only
  repeat' (first | with_reducible assumption | with_reducible apply State.discarded_keeps | with_reducible apply State.pushHead_keeps | with_reducible apply State.updGold_keeps | with_reducible apply State.updEng_keeps | with_reducible refine keeps_foldl (fun _ _ _ => ?_) ?_ | with_reducible refine keeps_forUpto (fun _ _ _ => ?_) ?_ | split | with_reducible refine keeps_freeCnt (Nat.le_add_right _ _) ?_)

theorem State.clearUnit_keeps {x1} (h : Keeps a s) : Keeps a (State.clearUnit s x1) := by
  unfold State.clearUnit
  try dsimp only
  repeat' (first | with_reducible assumption | with_reducible apply State.withhold_keeps | with_reducible apply State.abandonInst_keeps | with_reducible apply State.setLatch_keeps | with_reducible apply State.updCarder_keeps | with_reducible refine keeps_foldl (fun _ _ _ => ?_) ?_ | with_reducible refine keeps_forUpto (fun _ _ _ => ?_) ?_ | split | with_reducible refine keeps_freeCnt (Nat.le_add_right _ _) ?_)

theorem State.resetEngine_keeps {x1} (h : Keeps a s) : Keeps a (State.resetEngine s x1) := by
  unfold State.resetEngine
  try dsimp only
  repeat' (first | with_reducible assumption | with_reducible apply State.updStest_keeps | with_reducible apply State.updEng_keeps | with_reducible apply State.returnSheaf_keeps | with_reducible apply State.clearUnit_keeps | with_reducible refine keeps_foldl (fun _ _ _ => ?_) ?_ | with_reducible refine keeps_forUpto (fun _ _ _ => ?_) ?_ | split | with_reducible refine keeps_freeCnt (Nat.le_add_right _ _) ?_)

theorem State.failUnit_keeps {x1 x2} (h : Keeps a s) : Keeps a (State.failUnit s x1 x2) := by
  unfold State.failUnit
  try dsimp only
  repeat' (first | with_reducible assumption | with_reducible apply State.journalUnit_keeps | with_reducible apply State.updEng_keeps | with_reducible apply State.returnSheaf_keeps | with_reducible apply State.clearUnit_keeps | with_reducible refine keeps_foldl (fun _ _ _ => ?_) ?_ | with_reducible refine keeps_forUpto (fun _ _ _ => ?_) ?_ | split | with_reducible refine keeps_freeCnt (Nat.le_add_right _ _) ?_)

theorem State.unitFault_keeps {x1 x2 x3 x4} (h : Keeps a s) : Keeps a (State.unitFault s x1 x2 x3 x4) := by
  unfold State.unitFault
  try dsimp only
  repeat' (first | with_reducible assumption | with_reducible apply State.fault_keeps | with_reducible refine keeps_foldl (fun _ _ _ => ?_) ?_ | with_reducible refine keeps_forUpto (fun _ _ _ => ?_) ?_ | split | with_reducible refine keeps_freeCnt (Nat.le_add_right _ _) ?_)

theorem State.unitFails_keeps {x1 x2 x3 x4} (h : Keeps a s) : Keeps a (State.unitFails s x1 x2 x3 x4) := by
  unfold State.unitFails
  try dsimp only
  repeat' (first | with_reducible assumption | with_reducible apply State.resetEngine_keeps | with_reducible apply State.updEng_keeps | with_reducible apply State.unitFault_keeps | with_reducible apply State.failUnit_keeps | with_reducible refine keeps_foldl (fun _ _ _ => ?_) ?_ | with_reducible refine keeps_forUpto (fun _ _ _ => ?_) ?_ | split | with_reducible refine keeps_freeCnt (Nat.le_add_right _ _) ?_)

theorem State.goldFails_keeps {x1 x2 x3} (h : Keeps a s) : Keeps a (State.goldFails s x1 x2 x3) := by
  unfold State.goldFails
  try dsimp only
  repeat' (first | with_reducible assumption | with_reducible apply State.pushHead_keeps | with_reducible apply State.withhold_keeps | with_reducible apply State.unitFails_keeps | with_reducible apply keeps_mapHwa | with_reducible apply State.updGold_keeps | with_reducible refine keeps_foldl (fun _ _ _ => ?_) ?_ | with_reducible refine keeps_forUpto (fun _ _ _ => ?_) ?_ | split | with_reducible refine keeps_freeCnt (Nat.le_add_right _ _) ?_)

theorem State.goldPasses_keeps {x1 x2 x3} (h : Keeps a s) : Keeps a (State.goldPasses s x1 x2 x3) := by
  unfold State.goldPasses
  try dsimp only
  repeat' (first | with_reducible assumption | with_reducible apply keeps_mapHwa | with_reducible apply State.updGold_keeps | with_reducible refine keeps_foldl (fun _ _ _ => ?_) ?_ | with_reducible refine keeps_forUpto (fun _ _ _ => ?_) ?_ | split | with_reducible refine keeps_freeCnt (Nat.le_add_right _ _) ?_)

theorem State.sliceDue_keeps {x1} (h : Keeps a s) : Keeps a (State.sliceDue s x1) := by
  unfold State.sliceDue
  try dsimp only
  repeat' (first | with_reducible assumption | with_reducible apply State.updStest_keeps | with_reducible apply keeps_mapHwa | with_reducible refine keeps_foldl (fun _ _ _ => ?_) ?_ | with_reducible refine keeps_forUpto (fun _ _ _ => ?_) ?_ | split | with_reducible refine keeps_freeCnt (Nat.le_add_right _ _) ?_)

theorem State.sliceStart_keeps {x1} (h : Keeps a s) : Keeps a (State.sliceStart s x1) := by
  unfold State.sliceStart
  try dsimp only
  repeat' (first | with_reducible assumption | with_reducible apply State.updStest_keeps | with_reducible apply keeps_mapHwa | with_reducible refine keeps_foldl (fun _ _ _ => ?_) ?_ | with_reducible refine keeps_forUpto (fun _ _ _ => ?_) ?_ | split | with_reducible refine keeps_freeCnt (Nat.le_add_right _ _) ?_)

theorem State.sliceFails_keeps {x1 x2} (h : Keeps a s) : Keeps a (State.sliceFails s x1 x2) := by
  unfold State.sliceFails
  try dsimp only
  repeat' (first | with_reducible assumption | with_reducible apply State.unitFails_keeps | with_reducible apply keeps_mapHwa | with_reducible apply State.updStest_keeps | with_reducible refine keeps_foldl (fun _ _ _ => ?_) ?_ | with_reducible refine keeps_forUpto (fun _ _ _ => ?_) ?_ | split | with_reducible refine keeps_freeCnt (Nat.le_add_right _ _) ?_)

theorem State.sliceEnd_keeps {x1 x2} (h : Keeps a s) : Keeps a (State.sliceEnd s x1 x2) := by
  unfold State.sliceEnd
  try dsimp only
  repeat' (first | with_reducible assumption | with_reducible apply State.sliceFails_keeps | with_reducible apply State.updEng_keeps | with_reducible apply keeps_mapHwa | with_reducible apply State.updStest_keeps | with_reducible refine keeps_foldl (fun _ _ _ => ?_) ?_ | with_reducible refine keeps_forUpto (fun _ _ _ => ?_) ?_ | split | with_reducible refine keeps_freeCnt (Nat.le_add_right _ _) ?_)

theorem execStestSliceDue_keeps {x0} (e : execStestSliceDue x0 s = .next t) : Keeps s t := by
  unfold execStestSliceDue at e
  have h := Keeps.refl s
  replace e := Host.Outcome.next.inj e
  subst e
  try dsimp only
  repeat' (first | with_reducible assumption | with_reducible apply State.sliceDue_keeps | with_reducible refine keeps_foldl (fun _ _ _ => ?_) ?_ | with_reducible refine keeps_forUpto (fun _ _ _ => ?_) ?_ | split | with_reducible refine keeps_freeCnt (Nat.le_add_right _ _) ?_)

theorem execStestSliceStart_keeps {x0} (e : execStestSliceStart x0 s = .next t) : Keeps s t := by
  unfold execStestSliceStart at e
  have h := Keeps.refl s
  replace e := Host.Outcome.next.inj e
  subst e
  try dsimp only
  repeat' (first | with_reducible assumption | with_reducible apply State.sliceStart_keeps | with_reducible refine keeps_foldl (fun _ _ _ => ?_) ?_ | with_reducible refine keeps_forUpto (fun _ _ _ => ?_) ?_ | split | with_reducible refine keeps_freeCnt (Nat.le_add_right _ _) ?_)

theorem execStestSliceEnd_keeps {x0 x1} (e : execStestSliceEnd x0 x1 s = .next t) : Keeps s t := by
  unfold execStestSliceEnd at e
  have h := Keeps.refl s
  replace e := Host.Outcome.next.inj e
  subst e
  try dsimp only
  repeat' (first | with_reducible assumption | with_reducible apply State.sliceEnd_keeps | with_reducible apply State.settle_keeps | with_reducible refine keeps_foldl (fun _ _ _ => ?_) ?_ | with_reducible refine keeps_forUpto (fun _ _ _ => ?_) ?_ | split | with_reducible refine keeps_freeCnt (Nat.le_add_right _ _) ?_)

theorem execStestSliceOverrun_keeps {x0} (e : execStestSliceOverrun x0 s = .next t) : Keeps s t := by
  unfold execStestSliceOverrun at e
  have h := Keeps.refl s
  replace e := Host.Outcome.next.inj e
  subst e
  try dsimp only
  repeat' (first | with_reducible assumption | with_reducible apply State.sliceFails_keeps | with_reducible apply State.settle_keeps | with_reducible refine keeps_foldl (fun _ _ _ => ?_) ?_ | with_reducible refine keeps_forUpto (fun _ _ _ => ?_) ?_ | split | with_reducible refine keeps_freeCnt (Nat.le_add_right _ _) ?_)

end Sys2Proof.Machine
end

