-- ==== Sys2Proof/Laws/KeepsSched.lean ====
section
/-! SUPPORT. Every operation of Machine/Sched.lean carries `Keeps` on. -/

namespace Sys2Proof.Machine

set_option linter.unusedTactic false
set_option linter.unreachableTactic false

variable {a s t : State}

theorem State.startProg_keeps {x1 x2 x3} (h : Keeps a s) : Keeps a (State.startProg s x1 x2 x3) := by
  unfold State.startProg
  try dsimp only
  repeat' (first | with_reducible assumption | with_reducible apply State.updEng_keeps | with_reducible apply State.progLoad_keeps | with_reducible refine State.progLoad_keepsEq (by assumption) ?_ | with_reducible refine keeps_foldl (fun _ _ _ => ?_) ?_ | with_reducible refine keeps_forUpto (fun _ _ _ => ?_) ?_ | split | with_reducible refine keeps_freeCnt (Nat.le_add_right _ _) ?_)

theorem State.startSheaf_keeps {x1 x2} (h : Keeps a s) : Keeps a (State.startSheaf s x1 x2) := by
  unfold State.startSheaf
  extract_lets base r b s1 s2 s3 s4
  have h1 : Keeps a s1 := by
    dsimp only [s1, b]
    repeat' (first | with_reducible assumption | with_reducible apply State.blkBegin_keeps | split)
  clear_value s1
  have h2 : Keeps a s2 := State.updEng_keeps h1
  clear_value s2
  have h3 : Keeps a s3 := by
    dsimp only [s3]
    split
    · exact State.startProg_keeps (State.updCarder_keeps h2)
    · exact h2
  clear_value s3
  have h4 : Keeps a s4 := by
    dsimp only [s4]
    split
    · exact h3
    · exact State.eccRead_keeps h3
  clear_value s4
  split
  · exact State.updGold_keeps h4
  · exact h4

theorem State.takeFrom_keeps {x1 x2 x3} (h : Keeps a s) : Keeps a (State.takeFrom s x1 x2 x3) := by
  unfold State.takeFrom
  try dsimp only
  repeat' (first | with_reducible assumption | with_reducible apply State.updEng_keeps | with_reducible refine keeps_foldl (fun _ _ _ => ?_) ?_ | with_reducible refine keeps_forUpto (fun _ _ _ => ?_) ?_ | split | with_reducible refine keeps_freeCnt (Nat.le_add_right _ _) ?_)

theorem State.sheafStart_keeps {x1} (h : Keeps a s) : Keeps a (State.sheafStart s x1) := by
  unfold State.sheafStart
  try dsimp only
  repeat' (first | with_reducible assumption | with_reducible apply State.takeFrom_keeps | with_reducible apply State.startSheaf_keeps | with_reducible apply State.drainReady_keeps | with_reducible refine keeps_foldl (fun _ _ _ => ?_) ?_ | with_reducible refine keeps_forUpto (fun _ _ _ => ?_) ?_ | split | with_reducible refine keeps_freeCnt (Nat.le_add_right _ _) ?_)

theorem State.steal_keeps {x1} (h : Keeps a s) : Keeps a (State.steal s x1) := by
  unfold State.steal
  try dsimp only
  repeat' (first | with_reducible assumption | with_reducible apply State.startSheaf_keeps | with_reducible apply State.drainReady_keeps | with_reducible apply State.updEng_keeps | with_reducible refine keeps_foldl (fun _ _ _ => ?_) ?_ | with_reducible refine keeps_forUpto (fun _ _ _ => ?_) ?_ | split | with_reducible refine keeps_freeCnt (Nat.le_add_right _ _) ?_)

theorem State.runSheaf_keeps {x1} (h : Keeps a s) : Keeps a (State.runSheaf s x1) := by
  unfold State.runSheaf
  try dsimp only
  repeat' (first | with_reducible assumption | with_reducible apply State.updEng_keeps | with_reducible apply blkSheaf_keeps | with_reducible refine blkSheaf_keepsEq (by assumption) ?_ | with_reducible apply depthSheaf_keeps | with_reducible refine depthSheaf_keepsEq (by assumption) ?_ | with_reducible apply State.updCarder_keeps | with_reducible apply progSheaf_keeps | with_reducible refine progSheaf_keepsEq (by assumption) ?_ | with_reducible apply thrSheaf_keeps | with_reducible refine thrSheaf_keepsEq (by assumption) ?_ | with_reducible refine keeps_foldl (fun _ _ _ => ?_) ?_ | with_reducible refine keeps_forUpto (fun _ _ _ => ?_) ?_ | split | with_reducible refine keeps_freeCnt (Nat.le_add_right _ _) ?_)

theorem State.runOp_keeps {x1 x2} (h : Keeps a s) : Keeps a (State.runOp s x1 x2) := by
  unfold State.runOp
  try dsimp only
  repeat' (first | with_reducible assumption | with_reducible apply State.runSheaf_keeps | with_reducible refine keeps_foldl (fun _ _ _ => ?_) ?_ | with_reducible refine keeps_forUpto (fun _ _ _ => ?_) ?_ | split | with_reducible refine keeps_freeCnt (Nat.le_add_right _ _) ?_)

theorem State.suspect_keeps {x1 x2 x3} (h : Keeps a s) : Keeps a (State.suspect s x1 x2 x3) := by
  unfold State.suspect
  try dsimp only
  repeat' (first | with_reducible assumption | with_reducible apply State.withhold_keeps | with_reducible apply keeps_mapFlt | with_reducible apply State.resetEngine_keeps | with_reducible refine keeps_foldl (fun _ _ _ => ?_) ?_ | with_reducible refine keeps_forUpto (fun _ _ _ => ?_) ?_ | split | with_reducible refine keeps_freeCnt (Nat.le_add_right _ _) ?_)

theorem State.blkEnd_keeps {x1 x2 x3} (h : Keeps a s) : Keeps a (State.blkEnd s x1 x2 x3) := by
  unfold State.blkEnd
  try dsimp only
  repeat' (first | with_reducible assumption | with_reducible apply State.setLatch_keeps | with_reducible apply State.updBlk_keeps | with_reducible refine keeps_foldl (fun _ _ _ => ?_) ?_ | with_reducible refine keeps_forUpto (fun _ _ _ => ?_) ?_ | split | with_reducible refine keeps_freeCnt (Nat.le_add_right _ _) ?_)

theorem State.goldEnd_keeps {x1 x2 x3} (h : Keeps a s) : Keeps a (State.goldEnd s x1 x2 x3) := by
  unfold State.goldEnd
  try dsimp only
  repeat' (first | with_reducible assumption | with_reducible apply State.goldFails_keeps | with_reducible apply State.unitFails_keeps | with_reducible apply State.updEng_keeps | with_reducible refine keeps_foldl (fun _ _ _ => ?_) ?_ | with_reducible refine keeps_forUpto (fun _ _ _ => ?_) ?_ | split | with_reducible refine keeps_freeCnt (Nat.le_add_right _ _) ?_)

theorem State.maybeStage_keeps {x1 x2} (h : Keeps a s) : Keeps a (State.maybeStage s x1 x2) := by
  unfold State.maybeStage
  try dsimp only
  repeat' (first | with_reducible assumption | with_reducible apply State.startStage_keeps | with_reducible refine keeps_foldl (fun _ _ _ => ?_) ?_ | with_reducible refine keeps_forUpto (fun _ _ _ => ?_) ?_ | split | with_reducible refine keeps_freeCnt (Nat.le_add_right _ _) ?_)

theorem State.reportSheaf_keeps {x1 x2 x3} (h : Keeps a s) : Keeps a (State.reportSheaf s x1 x2 x3) := by
  unfold State.reportSheaf
  try dsimp only
  repeat' (first | with_reducible assumption | with_reducible apply State.suspect_keeps | with_reducible apply State.maybeStage_keeps | with_reducible apply State.completeNode_keeps | with_reducible apply State.withhold_keeps | with_reducible apply State.gateSheafDone_keeps | with_reducible apply State.cplRecord_keeps | with_reducible apply State.updEp_keeps | with_reducible apply State.sheafFault_keeps | with_reducible apply State.goldEnd_keeps | with_reducible refine keeps_foldl (fun _ _ _ => ?_) ?_ | with_reducible refine keeps_forUpto (fun _ _ _ => ?_) ?_ | split | with_reducible refine keeps_freeCnt (Nat.le_add_right _ _) ?_)

theorem State.sheafEnd_keeps {x1 x2} (h : Keeps a s) : Keeps a (State.sheafEnd s x1 x2) := by
  unfold State.sheafEnd
  try dsimp only
  repeat' (first | with_reducible assumption | with_reducible apply State.drainReady_keeps | with_reducible apply State.reportSheaf_keeps | with_reducible apply State.blkEnd_keeps | with_reducible apply State.updCarder_keeps | with_reducible apply State.updEng_keeps | with_reducible apply State.corrected_keeps | with_reducible apply State.runSheaf_keeps | with_reducible refine keeps_foldl (fun _ _ _ => ?_) ?_ | with_reducible refine keeps_forUpto (fun _ _ _ => ?_) ?_ | split | with_reducible refine keeps_freeCnt (Nat.le_add_right _ _) ?_)

theorem execSheafStart_keeps {x0} (e : execSheafStart x0 s = .next t) : Keeps s t := by
  unfold execSheafStart at e
  have h := Keeps.refl s
  replace e := Host.Outcome.next.inj e
  subst e
  try dsimp only
  repeat' (first | with_reducible assumption | with_reducible apply State.sheafStart_keeps | with_reducible apply State.settle_keeps | with_reducible refine keeps_foldl (fun _ _ _ => ?_) ?_ | with_reducible refine keeps_forUpto (fun _ _ _ => ?_) ?_ | split | with_reducible refine keeps_freeCnt (Nat.le_add_right _ _) ?_)

theorem execSteal_keeps {x0} (e : execSteal x0 s = .next t) : Keeps s t := by
  unfold execSteal at e
  have h := Keeps.refl s
  replace e := Host.Outcome.next.inj e
  subst e
  try dsimp only
  repeat' (first | with_reducible assumption | with_reducible apply State.steal_keeps | with_reducible apply State.settle_keeps | with_reducible refine keeps_foldl (fun _ _ _ => ?_) ?_ | with_reducible refine keeps_forUpto (fun _ _ _ => ?_) ?_ | split | with_reducible refine keeps_freeCnt (Nat.le_add_right _ _) ?_)

theorem execSheafEnd_keeps {x0} (e : execSheafEnd x0 s = .next t) : Keeps s t := by
  unfold execSheafEnd at e
  have h := Keeps.refl s
  replace e := Host.Outcome.next.inj e
  subst e
  try dsimp only
  repeat' (first | with_reducible assumption | with_reducible apply State.sheafEnd_keeps | with_reducible apply State.settle_keeps | with_reducible refine keeps_foldl (fun _ _ _ => ?_) ?_ | with_reducible refine keeps_forUpto (fun _ _ _ => ?_) ?_ | split | with_reducible refine keeps_freeCnt (Nat.le_add_right _ _) ?_)

theorem execGemm_keeps {x0} (e : execGemm x0 s = .next t) : Keeps s t := by
  unfold execGemm at e
  have h := Keeps.refl s
  replace e := Host.Outcome.next.inj e
  subst e
  try dsimp only
  repeat' (first | with_reducible assumption | with_reducible apply State.runOp_keeps | with_reducible refine keeps_foldl (fun _ _ _ => ?_) ?_ | with_reducible refine keeps_forUpto (fun _ _ _ => ?_) ?_ | split | with_reducible refine keeps_freeCnt (Nat.le_add_right _ _) ?_)

theorem execIgemm_keeps {x0} (e : execIgemm x0 s = .next t) : Keeps s t := by
  unfold execIgemm at e
  have h := Keeps.refl s
  replace e := Host.Outcome.next.inj e
  subst e
  try dsimp only
  repeat' (first | with_reducible assumption | with_reducible apply State.runOp_keeps | with_reducible refine keeps_foldl (fun _ _ _ => ?_) ?_ | with_reducible refine keeps_forUpto (fun _ _ _ => ?_) ?_ | split | with_reducible refine keeps_freeCnt (Nat.le_add_right _ _) ?_)

theorem execGemmWActivation_keeps {x0} (e : execGemmWActivation x0 s = .next t) : Keeps s t := by
  unfold execGemmWActivation at e
  have h := Keeps.refl s
  replace e := Host.Outcome.next.inj e
  subst e
  try dsimp only
  repeat' (first | with_reducible assumption | with_reducible apply State.runOp_keeps | with_reducible refine keeps_foldl (fun _ _ _ => ?_) ?_ | with_reducible refine keeps_forUpto (fun _ _ _ => ?_) ?_ | split | with_reducible refine keeps_freeCnt (Nat.le_add_right _ _) ?_)

theorem execProgram_keeps {x0} (e : execProgram x0 s = .next t) : Keeps s t := by
  unfold execProgram at e
  have h := Keeps.refl s
  replace e := Host.Outcome.next.inj e
  subst e
  try dsimp only
  repeat' (first | with_reducible assumption | with_reducible apply State.runOp_keeps | with_reducible refine keeps_foldl (fun _ _ _ => ?_) ?_ | with_reducible refine keeps_forUpto (fun _ _ _ => ?_) ?_ | split | with_reducible refine keeps_freeCnt (Nat.le_add_right _ _) ?_)

theorem execDepthwise_keeps {x0} (e : execDepthwise x0 s = .next t) : Keeps s t := by
  unfold execDepthwise at e
  have h := Keeps.refl s
  replace e := Host.Outcome.next.inj e
  subst e
  try dsimp only
  repeat' (first | with_reducible assumption | with_reducible apply State.runOp_keeps | with_reducible refine keeps_foldl (fun _ _ _ => ?_) ?_ | with_reducible refine keeps_forUpto (fun _ _ _ => ?_) ?_ | split | with_reducible refine keeps_freeCnt (Nat.le_add_right _ _) ?_)

theorem execSeed_keeps {x0} (e : execSeed x0 s = .next t) : Keeps s t := by
  unfold execSeed at e
  have h := Keeps.refl s
  replace e := Host.Outcome.next.inj e
  subst e
  try dsimp only
  repeat' (first | with_reducible assumption | with_reducible apply State.runOp_keeps | with_reducible refine keeps_foldl (fun _ _ _ => ?_) ?_ | with_reducible refine keeps_forUpto (fun _ _ _ => ?_) ?_ | split | with_reducible refine keeps_freeCnt (Nat.le_add_right _ _) ?_)

theorem execOptimise_keeps {x0} (e : execOptimise x0 s = .next t) : Keeps s t := by
  unfold execOptimise at e
  have h := Keeps.refl s
  replace e := Host.Outcome.next.inj e
  subst e
  try dsimp only
  repeat' (first | with_reducible assumption | with_reducible apply State.runOp_keeps | with_reducible refine keeps_foldl (fun _ _ _ => ?_) ?_ | with_reducible refine keeps_forUpto (fun _ _ _ => ?_) ?_ | split | with_reducible refine keeps_freeCnt (Nat.le_add_right _ _) ?_)

theorem execCheck_keeps {x0} (e : execCheck x0 s = .next t) : Keeps s t := by
  unfold execCheck at e
  have h := Keeps.refl s
  replace e := Host.Outcome.next.inj e
  subst e
  try dsimp only
  repeat' (first | with_reducible assumption | with_reducible apply State.runOp_keeps | with_reducible refine keeps_foldl (fun _ _ _ => ?_) ?_ | with_reducible refine keeps_forUpto (fun _ _ _ => ?_) ?_ | split | with_reducible refine keeps_freeCnt (Nat.le_add_right _ _) ?_)

theorem execSelect_keeps {x0} (e : execSelect x0 s = .next t) : Keeps s t := by
  unfold execSelect at e
  have h := Keeps.refl s
  replace e := Host.Outcome.next.inj e
  subst e
  try dsimp only
  repeat' (first | with_reducible assumption | with_reducible apply State.runOp_keeps | with_reducible refine keeps_foldl (fun _ _ _ => ?_) ?_ | with_reducible refine keeps_forUpto (fun _ _ _ => ?_) ?_ | split | with_reducible refine keeps_freeCnt (Nat.le_add_right _ _) ?_)

theorem execCommit_keeps {x0} (e : execCommit x0 s = .next t) : Keeps s t := by
  unfold execCommit at e
  have h := Keeps.refl s
  replace e := Host.Outcome.next.inj e
  subst e
  try dsimp only
  repeat' (first | with_reducible assumption | with_reducible apply State.runOp_keeps | with_reducible refine keeps_foldl (fun _ _ _ => ?_) ?_ | with_reducible refine keeps_forUpto (fun _ _ _ => ?_) ?_ | split | with_reducible refine keeps_freeCnt (Nat.le_add_right _ _) ?_)

theorem execCheckList_keeps {x0} (e : execCheckList x0 s = .next t) : Keeps s t := by
  unfold execCheckList at e
  have h := Keeps.refl s
  replace e := Host.Outcome.next.inj e
  subst e
  try dsimp only
  repeat' (first | with_reducible assumption | with_reducible apply State.runOp_keeps | with_reducible refine keeps_foldl (fun _ _ _ => ?_) ?_ | with_reducible refine keeps_forUpto (fun _ _ _ => ?_) ?_ | split | with_reducible refine keeps_freeCnt (Nat.le_add_right _ _) ?_)

theorem execCNop_keeps {x0} (e : execCNop x0 s = .next t) : Keeps s t := by
  unfold execCNop at e
  have h := Keeps.refl s
  replace e := Host.Outcome.next.inj e
  subst e
  try dsimp only
  repeat' (first | with_reducible assumption | with_reducible apply State.cNopI_keeps | with_reducible refine keeps_foldl (fun _ _ _ => ?_) ?_ | with_reducible refine keeps_forUpto (fun _ _ _ => ?_) ?_ | split | with_reducible refine keeps_freeCnt (Nat.le_add_right _ _) ?_)

theorem execCEnd_keeps {x0} (e : execCEnd x0 s = .next t) : Keeps s t := by
  unfold execCEnd at e
  have h := Keeps.refl s
  replace e := Host.Outcome.next.inj e
  subst e
  try dsimp only
  repeat' (first | with_reducible assumption | with_reducible apply State.cEndI_keeps | with_reducible refine keeps_foldl (fun _ _ _ => ?_) ?_ | with_reducible refine keeps_forUpto (fun _ _ _ => ?_) ?_ | split | with_reducible refine keeps_freeCnt (Nat.le_add_right _ _) ?_)

theorem execCLoop_keeps {x0 x1 x2} (e : execCLoop x0 x1 x2 s = .next t) : Keeps s t := by
  unfold execCLoop at e
  have h := Keeps.refl s
  replace e := Host.Outcome.next.inj e
  subst e
  try dsimp only
  repeat' (first | with_reducible assumption | with_reducible apply State.cLoopI_keeps | with_reducible refine keeps_foldl (fun _ _ _ => ?_) ?_ | with_reducible refine keeps_forUpto (fun _ _ _ => ?_) ?_ | split | with_reducible refine keeps_freeCnt (Nat.le_add_right _ _) ?_)

theorem execSeta_keeps {x0 x1 x2} (e : execSeta x0 x1 x2 s = .next t) : Keeps s t := by
  unfold execSeta at e
  have h := Keeps.refl s
  replace e := Host.Outcome.next.inj e
  subst e
  try dsimp only
  repeat' (first | with_reducible assumption | with_reducible apply State.cSetaI_keeps | with_reducible refine keeps_foldl (fun _ _ _ => ?_) ?_ | with_reducible refine keeps_forUpto (fun _ _ _ => ?_) ?_ | split | with_reducible refine keeps_freeCnt (Nat.le_add_right _ _) ?_)

theorem execSets_keeps {x0 x1 x2} (e : execSets x0 x1 x2 s = .next t) : Keeps s t := by
  unfold execSets at e
  have h := Keeps.refl s
  replace e := Host.Outcome.next.inj e
  subst e
  try dsimp only
  repeat' (first | with_reducible assumption | with_reducible apply State.cSetsI_keeps | with_reducible refine keeps_foldl (fun _ _ _ => ?_) ?_ | with_reducible refine keeps_forUpto (fun _ _ _ => ?_) ?_ | split | with_reducible refine keeps_freeCnt (Nat.le_add_right _ _) ?_)

theorem execSpar_keeps {x0 x1 x2} (e : execSpar x0 x1 x2 s = .next t) : Keeps s t := by
  unfold execSpar at e
  have h := Keeps.refl s
  replace e := Host.Outcome.next.inj e
  subst e
  try dsimp only
  repeat' (first | with_reducible assumption | with_reducible apply State.cSparI_keeps | with_reducible refine keeps_foldl (fun _ _ _ => ?_) ?_ | with_reducible refine keeps_forUpto (fun _ _ _ => ?_) ?_ | split | with_reducible refine keeps_freeCnt (Nat.le_add_right _ _) ?_)

theorem execCFence_keeps {x0} (e : execCFence x0 s = .next t) : Keeps s t := by
  unfold execCFence at e
  have h := Keeps.refl s
  replace e := Host.Outcome.next.inj e
  subst e
  try dsimp only
  repeat' (first | with_reducible assumption | with_reducible apply State.cFenceI_keeps | with_reducible refine keeps_foldl (fun _ _ _ => ?_) ?_ | with_reducible refine keeps_forUpto (fun _ _ _ => ?_) ?_ | split | with_reducible refine keeps_freeCnt (Nat.le_add_right _ _) ?_)

theorem execXld_keeps {x0 x1 x2 x3 x4} (e : execXld x0 x1 x2 x3 x4 s = .next t) : Keeps s t := by
  unfold execXld at e
  have h := Keeps.refl s
  replace e := Host.Outcome.next.inj e
  subst e
  try dsimp only
  repeat' (first | with_reducible assumption | with_reducible apply State.cXldI_keeps | with_reducible refine keeps_foldl (fun _ _ _ => ?_) ?_ | with_reducible refine keeps_forUpto (fun _ _ _ => ?_) ?_ | split | with_reducible refine keeps_freeCnt (Nat.le_add_right _ _) ?_)

theorem execXst_keeps {x0 x1 x2 x3 x4} (e : execXst x0 x1 x2 x3 x4 s = .next t) : Keeps s t := by
  unfold execXst at e
  have h := Keeps.refl s
  replace e := Host.Outcome.next.inj e
  subst e
  try dsimp only
  repeat' (first | with_reducible assumption | with_reducible apply State.cXstI_keeps | with_reducible refine keeps_foldl (fun _ _ _ => ?_) ?_ | with_reducible refine keeps_forUpto (fun _ _ _ => ?_) ?_ | split | with_reducible refine keeps_freeCnt (Nat.le_add_right _ _) ?_)

theorem execTransferEnd_keeps {x0 x1} (e : execTransferEnd x0 x1 s = .next t) : Keeps s t := by
  unfold execTransferEnd at e
  have h := Keeps.refl s
  replace e := Host.Outcome.next.inj e
  subst e
  try dsimp only
  repeat' (first | with_reducible assumption | with_reducible apply State.cTransferEnd_keeps | with_reducible refine keeps_foldl (fun _ _ _ => ?_) ?_ | with_reducible refine keeps_forUpto (fun _ _ _ => ?_) ?_ | split | with_reducible refine keeps_freeCnt (Nat.le_add_right _ _) ?_)

theorem execGather_keeps {x0 x1 x2 x3 x4 x5} (e : execGather x0 x1 x2 x3 x4 x5 s = .next t) : Keeps s t := by
  unfold execGather at e
  have h := Keeps.refl s
  replace e := Host.Outcome.next.inj e
  subst e
  try dsimp only
  repeat' (first | with_reducible assumption | with_reducible apply State.cGatherI_keeps | with_reducible refine keeps_foldl (fun _ _ _ => ?_) ?_ | with_reducible refine keeps_forUpto (fun _ _ _ => ?_) ?_ | split | with_reducible refine keeps_freeCnt (Nat.le_add_right _ _) ?_)

theorem execScatter_keeps {x0 x1 x2 x3 x4 x5} (e : execScatter x0 x1 x2 x3 x4 x5 s = .next t) : Keeps s t := by
  unfold execScatter at e
  have h := Keeps.refl s
  replace e := Host.Outcome.next.inj e
  subst e
  try dsimp only
  repeat' (first | with_reducible assumption | with_reducible apply State.cScatterI_keeps | with_reducible refine keeps_foldl (fun _ _ _ => ?_) ?_ | with_reducible refine keeps_forUpto (fun _ _ _ => ?_) ?_ | split | with_reducible refine keeps_freeCnt (Nat.le_add_right _ _) ?_)

theorem execLd_keeps {x0 x1 x2 x3 x4 x5 x6} (e : execLd x0 x1 x2 x3 x4 x5 x6 s = .next t) : Keeps s t := by
  unfold execLd at e
  have h := Keeps.refl s
  replace e := Host.Outcome.next.inj e
  subst e
  try dsimp only
  repeat' (first | with_reducible assumption | with_reducible apply State.cLdI_keeps | with_reducible refine keeps_foldl (fun _ _ _ => ?_) ?_ | with_reducible refine keeps_forUpto (fun _ _ _ => ?_) ?_ | split | with_reducible refine keeps_freeCnt (Nat.le_add_right _ _) ?_)

theorem execSt_keeps {x0 x1 x2 x3 x4 x5 x6 x7 x8} (e : execSt x0 x1 x2 x3 x4 x5 x6 x7 x8 s = .next t) : Keeps s t := by
  unfold execSt at e
  have h := Keeps.refl s
  replace e := Host.Outcome.next.inj e
  subst e
  try dsimp only
  repeat' (first | with_reducible assumption | with_reducible apply State.cStI_keeps | with_reducible refine keeps_foldl (fun _ _ _ => ?_) ?_ | with_reducible refine keeps_forUpto (fun _ _ _ => ?_) ?_ | split | with_reducible refine keeps_freeCnt (Nat.le_add_right _ _) ?_)

theorem execValuF_keeps {x0 x1 x2 x3 x4 x5} (e : execValuF x0 x1 x2 x3 x4 x5 s = .next t) : Keeps s t := by
  unfold execValuF at e
  have h := Keeps.refl s
  replace e := Host.Outcome.next.inj e
  subst e
  try dsimp only
  repeat' (first | with_reducible assumption | with_reducible apply State.cValuFI_keeps | with_reducible refine keeps_foldl (fun _ _ _ => ?_) ?_ | with_reducible refine keeps_forUpto (fun _ _ _ => ?_) ?_ | split | with_reducible refine keeps_freeCnt (Nat.le_add_right _ _) ?_)

theorem execValuI_keeps {x0 x1 x2 x3 x4 x5} (e : execValuI x0 x1 x2 x3 x4 x5 s = .next t) : Keeps s t := by
  unfold execValuI at e
  have h := Keeps.refl s
  replace e := Host.Outcome.next.inj e
  subst e
  try dsimp only
  repeat' (first | with_reducible assumption | with_reducible apply State.cValuII_keeps | with_reducible refine keeps_foldl (fun _ _ _ => ?_) ?_ | with_reducible refine keeps_forUpto (fun _ _ _ => ?_) ?_ | split | with_reducible refine keeps_freeCnt (Nat.le_add_right _ _) ?_)

theorem execVcmpF_keeps {x0 x1 x2 x3 x4 x5} (e : execVcmpF x0 x1 x2 x3 x4 x5 s = .next t) : Keeps s t := by
  unfold execVcmpF at e
  have h := Keeps.refl s
  replace e := Host.Outcome.next.inj e
  subst e
  try dsimp only
  repeat' (first | with_reducible assumption | with_reducible apply State.cVcmpFI_keeps | with_reducible refine keeps_foldl (fun _ _ _ => ?_) ?_ | with_reducible refine keeps_forUpto (fun _ _ _ => ?_) ?_ | split | with_reducible refine keeps_freeCnt (Nat.le_add_right _ _) ?_)

theorem execVcmpI_keeps {x0 x1 x2 x3 x4 x5} (e : execVcmpI x0 x1 x2 x3 x4 x5 s = .next t) : Keeps s t := by
  unfold execVcmpI at e
  have h := Keeps.refl s
  replace e := Host.Outcome.next.inj e
  subst e
  try dsimp only
  repeat' (first | with_reducible assumption | with_reducible apply State.cVcmpII_keeps | with_reducible refine keeps_foldl (fun _ _ _ => ?_) ?_ | with_reducible refine keeps_forUpto (fun _ _ _ => ?_) ?_ | split | with_reducible refine keeps_freeCnt (Nat.le_add_right _ _) ?_)

theorem execVsel_keeps {x0 x1 x2 x3 x4 x5} (e : execVsel x0 x1 x2 x3 x4 x5 s = .next t) : Keeps s t := by
  unfold execVsel at e
  have h := Keeps.refl s
  replace e := Host.Outcome.next.inj e
  subst e
  try dsimp only
  repeat' (first | with_reducible assumption | with_reducible apply State.cVselI_keeps | with_reducible refine keeps_foldl (fun _ _ _ => ?_) ?_ | with_reducible refine keeps_forUpto (fun _ _ _ => ?_) ?_ | split | with_reducible refine keeps_freeCnt (Nat.le_add_right _ _) ?_)

theorem execKop_keeps {x0 x1 x2 x3 x4 x5} (e : execKop x0 x1 x2 x3 x4 x5 s = .next t) : Keeps s t := by
  unfold execKop at e
  have h := Keeps.refl s
  replace e := Host.Outcome.next.inj e
  subst e
  try dsimp only
  repeat' (first | with_reducible assumption | with_reducible apply State.cKopI_keeps | with_reducible refine keeps_foldl (fun _ _ _ => ?_) ?_ | with_reducible refine keeps_forUpto (fun _ _ _ => ?_) ?_ | split | with_reducible refine keeps_freeCnt (Nat.le_add_right _ _) ?_)

theorem execVfunc_keeps {x0 x1 x2 x3 x4 x5} (e : execVfunc x0 x1 x2 x3 x4 x5 s = .next t) : Keeps s t := by
  unfold execVfunc at e
  have h := Keeps.refl s
  replace e := Host.Outcome.next.inj e
  subst e
  try dsimp only
  repeat' (first | with_reducible assumption | with_reducible apply State.cVfuncI_keeps | with_reducible refine keeps_foldl (fun _ _ _ => ?_) ?_ | with_reducible refine keeps_forUpto (fun _ _ _ => ?_) ?_ | split | with_reducible refine keeps_freeCnt (Nat.le_add_right _ _) ?_)

theorem execVred_keeps {x0 x1 x2 x3 x4 x5} (e : execVred x0 x1 x2 x3 x4 x5 s = .next t) : Keeps s t := by
  unfold execVred at e
  have h := Keeps.refl s
  replace e := Host.Outcome.next.inj e
  subst e
  try dsimp only
  repeat' (first | with_reducible assumption | with_reducible apply State.cVredI_keeps | with_reducible refine keeps_foldl (fun _ _ _ => ?_) ?_ | with_reducible refine keeps_forUpto (fun _ _ _ => ?_) ?_ | split | with_reducible refine keeps_freeCnt (Nat.le_add_right _ _) ?_)

theorem execVtsum_keeps {x0 x1 x2 x3 x4 x5} (e : execVtsum x0 x1 x2 x3 x4 x5 s = .next t) : Keeps s t := by
  unfold execVtsum at e
  have h := Keeps.refl s
  replace e := Host.Outcome.next.inj e
  subst e
  try dsimp only
  repeat' (first | with_reducible assumption | with_reducible apply State.cVtsumI_keeps | with_reducible refine keeps_foldl (fun _ _ _ => ?_) ?_ | with_reducible refine keeps_forUpto (fun _ _ _ => ?_) ?_ | split | with_reducible refine keeps_freeCnt (Nat.le_add_right _ _) ?_)

theorem execVperm_keeps {x0 x1 x2 x3 x4 x5} (e : execVperm x0 x1 x2 x3 x4 x5 s = .next t) : Keeps s t := by
  unfold execVperm at e
  have h := Keeps.refl s
  replace e := Host.Outcome.next.inj e
  subst e
  try dsimp only
  repeat' (first | with_reducible assumption | with_reducible apply State.cVpermI_keeps | with_reducible refine keeps_foldl (fun _ _ _ => ?_) ?_ | with_reducible refine keeps_forUpto (fun _ _ _ => ?_) ?_ | split | with_reducible refine keeps_freeCnt (Nat.le_add_right _ _) ?_)

theorem execVcmpx_keeps {x0 x1 x2 x3 x4 x5} (e : execVcmpx x0 x1 x2 x3 x4 x5 s = .next t) : Keeps s t := by
  unfold execVcmpx at e
  have h := Keeps.refl s
  replace e := Host.Outcome.next.inj e
  subst e
  try dsimp only
  repeat' (first | with_reducible assumption | with_reducible apply State.cVcmpxI_keeps | with_reducible refine keeps_foldl (fun _ _ _ => ?_) ?_ | with_reducible refine keeps_forUpto (fun _ _ _ => ?_) ?_ | split | with_reducible refine keeps_freeCnt (Nat.le_add_right _ _) ?_)

theorem execWin_keeps {x0 x1 x2 x3 x4 x5} (e : execWin x0 x1 x2 x3 x4 x5 s = .next t) : Keeps s t := by
  unfold execWin at e
  have h := Keeps.refl s
  replace e := Host.Outcome.next.inj e
  subst e
  try dsimp only
  repeat' (first | with_reducible assumption | with_reducible apply State.cWinI_keeps | with_reducible refine keeps_foldl (fun _ _ _ => ?_) ?_ | with_reducible refine keeps_forUpto (fun _ _ _ => ?_) ?_ | split | with_reducible refine keeps_freeCnt (Nat.le_add_right _ _) ?_)

theorem State.openGate_keeps {x1 x2 x3} (h : Keeps a s) : Keeps a (State.openGate s x1 x2 x3) := by
  unfold State.openGate
  try dsimp only
  repeat' (first | with_reducible assumption | with_reducible apply State.store_keeps | with_reducible refine State.store_keepsEq (by assumption) ?_ | with_reducible apply State.gateError_keeps | with_reducible apply keeps_mapCx | with_reducible refine keeps_foldl (fun _ _ _ => ?_) ?_ | with_reducible refine keeps_forUpto (fun _ _ _ => ?_) ?_ | split | with_reducible refine keeps_freeCnt (Nat.le_add_right _ _) ?_)

theorem State.eqDoorbell_keeps {x1 x2} (h : Keeps a s) : Keeps a (State.eqDoorbell s x1 x2) := by
  unfold State.eqDoorbell
  try dsimp only
  repeat' (first | with_reducible assumption | with_reducible apply State.updEng_keeps | with_reducible apply State.pushLane_keeps | with_reducible apply keeps_mapCx | with_reducible refine keeps_foldl (fun _ _ _ => ?_) ?_ | with_reducible refine keeps_forUpto (fun _ _ _ => ?_) ?_ | split | with_reducible refine keeps_freeCnt (Nat.le_add_right _ _) ?_)

theorem State.eqGateDone_keeps {x1 x2} (h : Keeps a s) : Keeps a (State.eqGateDone s x1 x2) := by
  unfold State.eqGateDone
  try dsimp only
  repeat' (first | with_reducible assumption | with_reducible apply State.abandonInst_keeps | with_reducible apply State.closeGate_keeps | with_reducible apply keeps_mapCx | with_reducible apply State.dropGate_keeps | with_reducible apply State.gateError_keeps | with_reducible apply State.writeGateState_keeps | with_reducible refine State.writeGateState_keepsEq (by assumption) ?_ | with_reducible refine keeps_foldl (fun _ _ _ => ?_) ?_ | with_reducible refine keeps_forUpto (fun _ _ _ => ?_) ?_ | split | with_reducible refine keeps_freeCnt (Nat.le_add_right _ _) ?_)

theorem execGateEntryOpen_keeps {x0 x1} (e : execGateEntryOpen x0 x1 s = .next t) : Keeps s t := by
  unfold execGateEntryOpen at e
  have h := Keeps.refl s
  replace e := Host.Outcome.next.inj e
  subst e
  try dsimp only
  repeat' (first | with_reducible assumption | with_reducible apply State.openGate_keeps | with_reducible apply State.settle_keeps | with_reducible refine keeps_foldl (fun _ _ _ => ?_) ?_ | with_reducible refine keeps_forUpto (fun _ _ _ => ?_) ?_ | split | with_reducible refine keeps_freeCnt (Nat.le_add_right _ _) ?_)

theorem execEqDoorbell_keeps {x0 x1 x2 x3} (e : execEqDoorbell x0 x1 x2 x3 s = .next t) : Keeps s t := by
  unfold execEqDoorbell at e
  have h := Keeps.refl s
  replace e := Host.Outcome.next.inj e
  subst e
  try dsimp only
  repeat' (first | with_reducible assumption | with_reducible apply State.eqDoorbell_keeps | with_reducible refine keeps_foldl (fun _ _ _ => ?_) ?_ | with_reducible refine keeps_forUpto (fun _ _ _ => ?_) ?_ | split | with_reducible refine keeps_freeCnt (Nat.le_add_right _ _) ?_)

theorem execEqGateDone_keeps {x0 x1 x2} (e : execEqGateDone x0 x1 x2 s = .next t) : Keeps s t := by
  unfold execEqGateDone at e
  have h := Keeps.refl s
  replace e := Host.Outcome.next.inj e
  subst e
  try dsimp only
  repeat' (first | with_reducible assumption | with_reducible apply State.eqGateDone_keeps | with_reducible apply State.settle_keeps | with_reducible refine keeps_foldl (fun _ _ _ => ?_) ?_ | with_reducible refine keeps_forUpto (fun _ _ _ => ?_) ?_ | split | with_reducible refine keeps_freeCnt (Nat.le_add_right _ _) ?_)

end Sys2Proof.Machine
end

