-- ==== Sys2Proof/Laws/KeepsIngest.lean ====
section
/-! SUPPORT. Every operation of Machine/Ingest.lean carries `Keeps` on. -/

namespace Sys2Proof.Machine

set_option linter.unusedTactic false
set_option linter.unreachableTactic false

variable {a s t : State}

theorem State.forward_keeps {x1 x2 x3} (h : Keeps a s) : Keeps a (State.forward s x1 x2 x3) := by
  unfold State.forward
  try dsimp only
  repeat' (first | with_reducible assumption | with_reducible apply State.updStream_keeps | with_reducible apply State.send_keeps | with_reducible refine keeps_foldl (fun _ _ _ => ?_) ?_ | with_reducible refine keeps_forUpto (fun _ _ _ => ?_) ?_ | split | with_reducible refine keeps_freeCnt (Nat.le_add_right _ _) ?_)

theorem State.forwardBegin_keeps {x1 x2 x3 x4 x5} (h : Keeps a s) : Keeps a (State.forwardBegin s x1 x2 x3 x4 x5) := by
  unfold State.forwardBegin
  try dsimp only
  repeat' (first | with_reducible assumption | with_reducible apply State.updStream_keeps | with_reducible apply State.forward_keeps | with_reducible refine keeps_foldl (fun _ _ _ => ?_) ?_ | with_reducible refine keeps_forUpto (fun _ _ _ => ?_) ?_ | split | with_reducible refine keeps_freeCnt (Nat.le_add_right _ _) ?_)

theorem State.flushFwd_keeps {b} : ∀ {l : List FwdItem} {s : State}, Keeps a s → Keeps a (State.flushFwd b l s)
  | [], _, h => by
    unfold State.flushFwd
    exact State.updStream_keeps h
  | .now _ :: _, _, h => by
    unfold State.flushFwd
    exact State.flushFwd_keeps (State.send_keeps h)
  | .begin _ _ _ :: _, s, h => by
    unfold State.flushFwd
    split
    · exact State.flushFwd_keeps (State.send_keeps h)
    · dsimp only
      split
      · exact State.flushFwd_keeps (State.send_keeps (State.freeWord_keeps h))
      · exact State.updStream_keeps h

theorem State.checkInput_keeps {x1} (h : Keeps a s) : Keeps a (State.checkInput s x1) := by
  unfold State.checkInput
  try dsimp only
  repeat' (first | with_reducible assumption | with_reducible apply State.updEp_keeps | with_reducible apply State.tryEpoch_keeps | with_reducible refine keeps_foldl (fun _ _ _ => ?_) ?_ | with_reducible refine keeps_forUpto (fun _ _ _ => ?_) ?_ | split | with_reducible refine keeps_freeCnt (Nat.le_add_right _ _) ?_)

theorem State.inputsReady_keeps {x1} (h : Keeps a s) : Keeps a (State.inputsReady s x1) := by
  unfold State.inputsReady
  try dsimp only
  repeat' (first | with_reducible assumption | with_reducible apply State.updEp_keeps | with_reducible apply State.checkInput_keeps | with_reducible apply State.send_keeps | with_reducible refine keeps_foldl (fun _ _ _ => ?_) ?_ | with_reducible refine keeps_forUpto (fun _ _ _ => ?_) ?_ | split | with_reducible refine keeps_freeCnt (Nat.le_add_right _ _) ?_)

theorem State.chanFault_keeps {x1 x2 x3 x4 x5} (h : Keeps a s) : Keeps a (State.chanFault s x1 x2 x3 x4 x5) := by
  unfold State.chanFault
  try dsimp only
  repeat' (first | with_reducible assumption | with_reducible apply State.fault_keeps | with_reducible apply State.updChan_keeps | with_reducible apply State.updStream_keeps | with_reducible refine keeps_foldl (fun _ _ _ => ?_) ?_ | with_reducible refine keeps_forUpto (fun _ _ _ => ?_) ?_ | split | with_reducible refine keeps_freeCnt (Nat.le_add_right _ _) ?_)

theorem State.closeDone_keeps {x1 x2 x3} (h : Keeps a s) : Keeps a (State.closeDone s x1 x2 x3) := by
  unfold State.closeDone
  try dsimp only
  repeat' (first | with_reducible assumption | with_reducible apply State.inputsReady_keeps | with_reducible apply State.tryEpoch_keeps | with_reducible apply State.forward_keeps | with_reducible apply State.updChan_keeps | with_reducible refine keeps_foldl (fun _ _ _ => ?_) ?_ | with_reducible refine keeps_forUpto (fun _ _ _ => ?_) ?_ | split | with_reducible refine keeps_freeCnt (Nat.le_add_right _ _) ?_)

theorem State.landSlot_keeps {x1 x2 x3 x4 x5} (h : Keeps a s) : Keeps a (State.landSlot s x1 x2 x3 x4 x5) := by
  unfold State.landSlot
  try dsimp only
  repeat' (first | with_reducible assumption | with_reducible apply State.closeDone_keeps | with_reducible apply State.chanFault_keeps | with_reducible apply State.store_keeps | with_reducible refine State.store_keepsEq (by assumption) ?_ | with_reducible refine keeps_foldl (fun _ _ _ => ?_) ?_ | with_reducible refine keeps_forUpto (fun _ _ _ => ?_) ?_ | split | with_reducible refine keeps_freeCnt (Nat.le_add_right _ _) ?_)

theorem State.landed_keeps {x1 x2} (h : Keeps a s) : Keeps a (State.landed s x1 x2) := by
  unfold State.landed
  try dsimp only
  repeat' (first | with_reducible assumption | with_reducible apply State.landSlot_keeps | with_reducible apply State.updChan_keeps | with_reducible refine keeps_foldl (fun _ _ _ => ?_) ?_ | with_reducible refine keeps_forUpto (fun _ _ _ => ?_) ?_ | split | with_reducible refine keeps_freeCnt (Nat.le_add_right _ _) ?_)

theorem State.closeAbsent_keeps {x1 x2 x3 x4 x5} (h : Keeps a s) : Keeps a (State.closeAbsent s x1 x2 x3 x4 x5) := by
  unfold State.closeAbsent
  try dsimp only
  repeat' (first | with_reducible assumption | with_reducible apply State.landSlot_keeps | with_reducible apply State.updChan_keeps | with_reducible refine keeps_foldl (fun _ _ _ => ?_) ?_ | with_reducible refine keeps_forUpto (fun _ _ _ => ?_) ?_ | split | with_reducible refine keeps_freeCnt (Nat.le_add_right _ _) ?_)

theorem State.beginClose_keeps {x1 x2 x3 x4} (h : Keeps a s) : Keeps a (State.beginClose s x1 x2 x3 x4) := by
  unfold State.beginClose
  try dsimp only
  repeat' (first | with_reducible assumption | with_reducible apply State.closeAbsent_keeps | with_reducible apply State.updChan_keeps | with_reducible refine keeps_foldl (fun _ _ _ => ?_) ?_ | with_reducible refine keeps_forUpto (fun _ _ _ => ?_) ?_ | split | with_reducible refine keeps_freeCnt (Nat.le_add_right _ _) ?_)

theorem State.closeTimeout_keeps {x1 x2} (h : Keeps a s) : Keeps a (State.closeTimeout s x1 x2) := by
  unfold State.closeTimeout
  try dsimp only
  repeat' (first | with_reducible assumption | with_reducible apply State.beginClose_keeps | with_reducible refine keeps_foldl (fun _ _ _ => ?_) ?_ | with_reducible refine keeps_forUpto (fun _ _ _ => ?_) ?_ | split | with_reducible refine keeps_freeCnt (Nat.le_add_right _ _) ?_)

theorem State.zeroFilled_keeps {x1 x2} (h : Keeps a s) : Keeps a (State.zeroFilled s x1 x2) := by
  unfold State.zeroFilled
  try dsimp only
  repeat' (first | with_reducible assumption | with_reducible apply State.landSlot_keeps | with_reducible apply State.updChan_keeps | with_reducible refine keeps_foldl (fun _ _ _ => ?_) ?_ | with_reducible refine keeps_forUpto (fun _ _ _ => ?_) ?_ | split | with_reducible refine keeps_freeCnt (Nat.le_add_right _ _) ?_)

theorem State.batchOnce_keeps {x1 x2} (h : Keeps a s) : Keeps a (State.batchOnce s x1 x2) := by
  unfold State.batchOnce
  try dsimp only
  repeat' (first | with_reducible assumption | with_reducible apply State.beginClose_keeps | with_reducible refine keeps_foldl (fun _ _ _ => ?_) ?_ | with_reducible refine keeps_forUpto (fun _ _ _ => ?_) ?_ | split | with_reducible refine keeps_freeCnt (Nat.le_add_right _ _) ?_)

theorem State.batchClose_keeps {x1 x2} (h : Keeps a s) : Keeps a (State.batchClose s x1 x2) := by
  unfold State.batchClose
  try dsimp only
  repeat' (first | with_reducible assumption | with_reducible apply State.batchOnce_keeps | with_reducible refine keeps_foldl (fun _ _ _ => ?_) ?_ | with_reducible refine keeps_forUpto (fun _ _ _ => ?_) ?_ | split | with_reducible refine keeps_freeCnt (Nat.le_add_right _ _) ?_)

theorem State.applyIngTable_keeps {x1 x2 x3} (h : Keeps a s) : Keeps a (State.applyIngTable s x1 x2 x3) := by
  unfold State.applyIngTable
  try dsimp only
  repeat' (first | with_reducible assumption | with_reducible apply State.updStream_keeps | with_reducible refine keeps_foldl (fun _ _ _ => ?_) ?_ | with_reducible refine keeps_forUpto (fun _ _ _ => ?_) ?_ | split | with_reducible refine keeps_freeCnt (Nat.le_add_right _ _) ?_)

theorem State.ingestReset_keeps (h : Keeps a s) : Keeps a (State.ingestReset s) := by
  unfold State.ingestReset
  try dsimp only
  repeat' (first | with_reducible assumption | with_reducible apply keeps_mapIng | with_reducible apply State.closeAbsent_keeps | with_reducible apply State.updChan_keeps | with_reducible refine keeps_foldl (fun _ _ _ => ?_) ?_ | with_reducible refine keeps_forUpto (fun _ _ _ => ?_) ?_ | split | with_reducible refine keeps_freeCnt (Nat.le_add_right _ _) ?_)

theorem State.flushAll_keeps (h : Keeps a s) : Keeps a (State.flushAll s) := by
  unfold State.flushAll
  try dsimp only
  repeat' (first | with_reducible assumption | with_reducible apply State.flushFwd_keeps | with_reducible refine keeps_foldl (fun _ _ _ => ?_) ?_ | with_reducible refine keeps_forUpto (fun _ _ _ => ?_) ?_ | split | with_reducible refine keeps_freeCnt (Nat.le_add_right _ _) ?_)

theorem State.fixArrivals_keeps {x1 x2} (h : Keeps a s) : Keeps a (State.fixArrivals s x1 x2) := by
  unfold State.fixArrivals
  try dsimp only
  repeat' (first | with_reducible assumption | with_reducible apply keeps_mapIng | with_reducible apply State.flushAll_keeps | with_reducible refine keeps_foldl (fun _ _ _ => ?_) ?_ | with_reducible refine keeps_forUpto (fun _ _ _ => ?_) ?_ | split | with_reducible refine keeps_freeCnt (Nat.le_add_right _ _) ?_)

theorem execIngestSampleLanded_keeps {x0 x1} (e : execIngestSampleLanded x0 x1 s = .next t) : Keeps s t := by
  unfold execIngestSampleLanded at e
  have h := Keeps.refl s
  replace e := Host.Outcome.next.inj e
  subst e
  try dsimp only
  repeat' (first | with_reducible assumption | with_reducible apply State.landed_keeps | with_reducible apply State.batchClose_keeps | with_reducible apply State.settle_keeps | with_reducible refine keeps_foldl (fun _ _ _ => ?_) ?_ | with_reducible refine keeps_forUpto (fun _ _ _ => ?_) ?_ | split | with_reducible refine keeps_freeCnt (Nat.le_add_right _ _) ?_)

theorem execIngestCloseTimeout_keeps {x0 x1} (e : execIngestCloseTimeout x0 x1 s = .next t) : Keeps s t := by
  unfold execIngestCloseTimeout at e
  have h := Keeps.refl s
  replace e := Host.Outcome.next.inj e
  subst e
  try dsimp only
  repeat' (first | with_reducible assumption | with_reducible apply State.closeTimeout_keeps | with_reducible apply State.settle_keeps | with_reducible refine keeps_foldl (fun _ _ _ => ?_) ?_ | with_reducible refine keeps_forUpto (fun _ _ _ => ?_) ?_ | split | with_reducible refine keeps_freeCnt (Nat.le_add_right _ _) ?_)

theorem execIngestZeroFillDone_keeps {x0 x1} (e : execIngestZeroFillDone x0 x1 s = .next t) : Keeps s t := by
  unfold execIngestZeroFillDone at e
  have h := Keeps.refl s
  replace e := Host.Outcome.next.inj e
  subst e
  try dsimp only
  repeat' (first | with_reducible assumption | with_reducible apply State.zeroFilled_keeps | with_reducible apply State.batchClose_keeps | with_reducible apply State.settle_keeps | with_reducible refine keeps_foldl (fun _ _ _ => ?_) ?_ | with_reducible refine keeps_forUpto (fun _ _ _ => ?_) ?_ | split | with_reducible refine keeps_freeCnt (Nat.le_add_right _ _) ?_)

end Sys2Proof.Machine
end

