-- ==== Sys2Proof/Laws/KeepsSecurity.lean ====
section
/-! SUPPORT. Every operation of Machine/Security.lean carries `Keeps` on. -/

namespace Sys2Proof.Machine

set_option linter.unusedTactic false
set_option linter.unreachableTactic false

variable {a s t : State}

theorem State.attestation_keeps {x1} (h : Keeps a s) : Keeps a (State.attestation s x1).2 := by
  unfold State.attestation
  try dsimp only
  repeat' (first | with_reducible assumption | with_reducible refine keeps_mapSec (by intro x; rfl) (by intro x; rfl) (by intro x; exact Nat.le_refl _) (by intro x; rfl) ?_ | with_reducible refine keeps_foldl (fun _ _ _ => ?_) ?_ | with_reducible refine keeps_forUpto (fun _ _ _ => ?_) ?_ | split | with_reducible refine keeps_freeCnt (Nat.le_add_right _ _) ?_)

theorem State.attestation_keepsEq {x1 r} (e : State.attestation s x1 = (r, t)) (h : Keeps a s) : Keeps a t := by
  have k := State.attestation_keeps (a := a) (x1 := x1) h
  rw [e] at k; exact k

theorem State.setKey_keeps {x1 x2} (h : Keeps a s) : Keeps a (State.setKey s x1 x2) := by
  unfold State.setKey
  try dsimp only
  repeat' (first | with_reducible assumption | with_reducible refine keeps_mapSec (by intro x; rfl) (by intro x; rfl) (by intro x; exact Nat.le_refl _) (by intro x; rfl) ?_ | with_reducible refine keeps_foldl (fun _ _ _ => ?_) ?_ | with_reducible refine keeps_forUpto (fun _ _ _ => ?_) ?_ | split | with_reducible refine keeps_freeCnt (Nat.le_add_right _ _) ?_)

theorem State.weightWork_keeps {x1} (h : Keeps a s) : Keeps a (State.weightWork s x1).2 := by
  unfold State.weightWork
  try dsimp only
  repeat' (first | with_reducible assumption | with_reducible apply State.write_keeps | with_reducible apply State.freeBytes_keeps | with_reducible refine State.freeBytes_keepsEq (by assumption) ?_ | with_reducible apply State.store_keeps | with_reducible refine State.store_keepsEq (by assumption) ?_ | with_reducible refine keeps_foldl (fun _ _ _ => ?_) ?_ | with_reducible refine keeps_forUpto (fun _ _ _ => ?_) ?_ | split | with_reducible refine keeps_freeCnt (Nat.le_add_right _ _) ?_)

theorem State.weightWork_keepsEq {x1 r} (e : State.weightWork s x1 = (r, t)) (h : Keeps a s) : Keeps a t := by
  have k := State.weightWork_keeps (a := a) (x1 := x1) h
  rw [e] at k; exact k

theorem State.listReplay_keeps {x1} (h : Keeps a s) : Keeps a (State.listReplay s x1) := by
  unfold State.listReplay
  try dsimp only
  repeat' (first | with_reducible assumption | with_reducible refine keeps_mapSec (by intro x; rfl) (by intro x; rfl) (by intro x; exact Nat.le_refl _) (by intro x; rfl) ?_ | with_reducible refine keeps_foldl (fun _ _ _ => ?_) ?_ | with_reducible refine keeps_forUpto (fun _ _ _ => ?_) ?_ | split | with_reducible refine keeps_freeCnt (Nat.le_add_right _ _) ?_)

theorem State.noteReplay_keeps {x1 x2} (h : Keeps a s) : Keeps a (State.noteReplay s x1 x2) := by
  unfold State.noteReplay
  try dsimp only
  repeat' (first | with_reducible assumption | with_reducible refine keeps_mapSec (by intro x; rfl) (by intro x; rfl) (by intro x; exact Nat.le_refl _) (by intro x; rfl) ?_ | with_reducible refine keeps_foldl (fun _ _ _ => ?_) ?_ | with_reducible refine keeps_forUpto (fun _ _ _ => ?_) ?_ | split | with_reducible refine keeps_freeCnt (Nat.le_add_right _ _) ?_)

theorem State.replayOne_keeps {x0 x2} (h : Keeps a s) : Keeps a (State.replayOne x0 s x2) := by
  unfold State.replayOne
  try dsimp only
  repeat' (first | with_reducible assumption | with_reducible apply State.noteReplay_keeps | with_reducible apply State.store_keeps | with_reducible refine State.store_keepsEq (by assumption) ?_ | with_reducible apply State.fault_keeps | with_reducible refine keeps_foldl (fun _ _ _ => ?_) ?_ | with_reducible refine keeps_forUpto (fun _ _ _ => ?_) ?_ | split | with_reducible refine keeps_freeCnt (Nat.le_add_right _ _) ?_)

theorem State.replayStack_keeps {x1} (h : Keeps a s) : Keeps a (State.replayStack s x1) := by
  unfold State.replayStack
  try dsimp only
  repeat' (first | with_reducible assumption | with_reducible apply State.replayOne_keeps | with_reducible refine keeps_foldl (fun _ _ _ => ?_) ?_ | with_reducible refine keeps_forUpto (fun _ _ _ => ?_) ?_ | split | with_reducible refine keeps_freeCnt (Nat.le_add_right _ _) ?_)

theorem State.cryptoReset_keeps (h : Keeps a s) : Keeps a (State.cryptoReset s) := by
  unfold State.cryptoReset
  try dsimp only
  repeat' (first | with_reducible assumption | with_reducible refine keeps_mapSec (by intro x; rfl) (by intro x; rfl) (by intro x; exact Nat.le_refl _) (by intro x; rfl) ?_ | with_reducible refine keeps_foldl (fun _ _ _ => ?_) ?_ | with_reducible refine keeps_forUpto (fun _ _ _ => ?_) ?_ | split | with_reducible refine keeps_freeCnt (Nat.le_add_right _ _) ?_)

end Sys2Proof.Machine
end

