-- ==== Sys2Proof/Laws/KeepsResets.lean ====
section
/-! SUPPORT. Every operation of Machine/Resets.lean carries `Keeps` on. -/

namespace Sys2Proof.Machine

set_option linter.unusedTactic false
set_option linter.unreachableTactic false

variable {a s t : State}

theorem State.cohGone_keeps {x0 x2} (h : Keeps a s) : Keeps a (State.cohGone x0 s x2) := by
  unfold State.cohGone
  try dsimp only
  repeat' (first | with_reducible assumption | with_reducible apply State.cohPut_keeps | with_reducible apply State.cohTake_keeps | with_reducible refine keeps_foldl (fun _ _ _ => ?_) ?_ | with_reducible refine keeps_forUpto (fun _ _ _ => ?_) ?_ | split | with_reducible refine keeps_freeCnt (Nat.le_add_right _ _) ?_)

theorem State.dropCaches_keeps {x1} (h : Keeps a s) : Keeps a (State.dropCaches s x1) := by
  unfold State.dropCaches
  try dsimp only
  repeat' (first | with_reducible assumption | with_reducible apply State.cohNext_keeps | with_reducible apply State.cohGone_keeps | with_reducible apply keeps_mapCore | with_reducible apply State.withholdCtx_keeps | with_reducible apply State.fault_keeps | with_reducible refine keeps_foldl (fun _ _ _ => ?_) ?_ | with_reducible refine keeps_forUpto (fun _ _ _ => ?_) ?_ | split | with_reducible refine keeps_freeCnt (Nat.le_add_right _ _) ?_)

theorem State.clusterReset_keeps {x1} (h : Keeps a s) : Keeps a (State.clusterReset s x1) := by
  unfold State.clusterReset
  try dsimp only
  repeat' (first | with_reducible assumption | with_reducible apply keeps_mapFlt | with_reducible apply keeps_mapFab | with_reducible apply keeps_mapCore | with_reducible apply State.updCoreOf_keeps | with_reducible apply State.dropCaches_keeps | with_reducible refine keeps_foldl (fun _ _ _ => ?_) ?_ | with_reducible refine keeps_forUpto (fun _ _ _ => ?_) ?_ | split | with_reducible refine keeps_freeCnt (Nat.le_add_right _ _) ?_)

theorem State.withholdStack_keeps {x1} (h : Keeps a s) : Keeps a (State.withholdStack s x1) := by
  unfold State.withholdStack
  try dsimp only
  repeat' (first | with_reducible assumption | with_reducible apply State.updEps_keeps | with_reducible refine keeps_foldl (fun _ _ _ => ?_) ?_ | with_reducible refine keeps_forUpto (fun _ _ _ => ?_) ?_ | split | with_reducible refine keeps_freeCnt (Nat.le_add_right _ _) ?_)

theorem State.stackBack_keeps {x1} (h : Keeps a s) : Keeps a (State.stackBack s x1) := by
  unfold State.stackBack
  try dsimp only
  repeat' (first | with_reducible assumption | with_reducible apply keeps_mapFlt | with_reducible apply State.replayStack_keeps | with_reducible refine keeps_foldl (fun _ _ _ => ?_) ?_ | with_reducible refine keeps_forUpto (fun _ _ _ => ?_) ?_ | split | with_reducible refine keeps_freeCnt (Nat.le_add_right _ _) ?_)

theorem State.switchReset_keeps (h : Keeps a s) : Keeps a (State.switchReset s) := by
  unfold State.switchReset
  try dsimp only
  repeat' (first | with_reducible assumption | with_reducible apply State.updPort_keeps | with_reducible apply keeps_mapSw | with_reducible refine keeps_foldl (fun _ _ _ => ?_) ?_ | with_reducible refine keeps_forUpto (fun _ _ _ => ?_) ?_ | split | with_reducible refine keeps_freeCnt (Nat.le_add_right _ _) ?_)

theorem State.iodReset_keeps {x1} (h : Keeps a s) : Keeps a (State.iodReset s x1) := by
  unfold State.iodReset
  try dsimp only
  repeat' (first | with_reducible assumption | with_reducible apply State.cryptoReset_keeps | with_reducible apply State.endCmd_keeps | with_reducible apply State.switchReset_keeps | with_reducible apply State.linkFault_keeps | with_reducible apply State.ingestReset_keeps | with_reducible apply keeps_mapFlt | with_reducible refine keeps_foldl (fun _ _ _ => ?_) ?_ | with_reducible refine keeps_forUpto (fun _ _ _ => ?_) ?_ | split | with_reducible refine keeps_freeCnt (Nat.le_add_right _ _) ?_)

theorem State.rehomeDie_keeps {x1} (h : Keeps a s) : Keeps a (State.rehomeDie s x1) := by
  unfold State.rehomeDie
  try dsimp only
  repeat' (first | with_reducible assumption | with_reducible apply State.updCtx_keeps | with_reducible refine keeps_foldl (fun _ _ _ => ?_) ?_ | with_reducible refine keeps_forUpto (fun _ _ _ => ?_) ?_ | split | with_reducible refine keeps_freeCnt (Nat.le_add_right _ _) ?_)

theorem State.unrehomeDie_keeps {x1} (h : Keeps a s) : Keeps a (State.unrehomeDie s x1) := by
  unfold State.unrehomeDie
  try dsimp only
  repeat' (first | with_reducible assumption | with_reducible apply State.updCtx_keeps | with_reducible refine keeps_foldl (fun _ _ _ => ?_) ?_ | with_reducible refine keeps_forUpto (fun _ _ _ => ?_) ?_ | split | with_reducible refine keeps_freeCnt (Nat.le_add_right _ _) ?_)

theorem State.fenceDie_keeps {x1} (h : Keeps a s) : Keeps a (State.fenceDie s x1) := by
  unfold State.fenceDie
  try dsimp only
  repeat' (first | with_reducible assumption | with_reducible apply State.setDie_keeps | with_reducible apply keeps_mapFlt | with_reducible apply State.rehomeDie_keeps | with_reducible refine keeps_foldl (fun _ _ _ => ?_) ?_ | with_reducible refine keeps_forUpto (fun _ _ _ => ?_) ?_ | split | with_reducible refine keeps_freeCnt (Nat.le_add_right _ _) ?_)

theorem State.drainDie_keeps {x1} (h : Keeps a s) : Keeps a (State.drainDie s x1) := by
  unfold State.drainDie
  try dsimp only
  repeat' (first | with_reducible assumption | with_reducible apply State.updBank_keeps | with_reducible apply keeps_mapFab | with_reducible apply State.hbmFlush_keeps | with_reducible refine keeps_foldl (fun _ _ _ => ?_) ?_ | with_reducible refine keeps_forUpto (fun _ _ _ => ?_) ?_ | split | with_reducible refine keeps_freeCnt (Nat.le_add_right _ _) ?_)

theorem State.dieMemLost_keeps {x1} (h : Keeps a s) : Keeps a (State.dieMemLost s x1) := by
  unfold State.dieMemLost
  try dsimp only
  repeat' (first | with_reducible assumption | with_reducible apply State.wipe_keeps | with_reducible refine keeps_foldl (fun _ _ _ => ?_) ?_ | with_reducible refine keeps_forUpto (fun _ _ _ => ?_) ?_ | split | with_reducible refine keeps_freeCnt (Nat.le_add_right _ _) ?_)

theorem State.dieBlocksLost_keeps {x1} (h : Keeps a s) : Keeps a (State.dieBlocksLost s x1) := by
  unfold State.dieBlocksLost
  try dsimp only
  repeat' (first | with_reducible assumption | with_reducible apply keeps_mapFlt | with_reducible apply State.updOpc_keeps | with_reducible apply keeps_mapCx | with_reducible apply State.updHmc_keeps | with_reducible apply State.updGrnDie_keeps | with_reducible apply keeps_mapGrn | with_reducible apply State.updBlk_keeps | with_reducible apply State.updKvw_keeps | with_reducible apply State.updGleaner_keeps | with_reducible apply State.updCarder_keeps | with_reducible apply State.updEng_keeps | with_reducible apply State.updStest_keeps | with_reducible refine keeps_foldl (fun _ _ _ => ?_) ?_ | with_reducible refine keeps_forUpto (fun _ _ _ => ?_) ?_ | split | with_reducible refine keeps_freeCnt (Nat.le_add_right _ _) ?_)

theorem State.homeLost_keeps {x1} (h : Keeps a s) : Keeps a (State.homeLost s x1) := by
  unfold State.homeLost
  try dsimp only
  repeat' (first | with_reducible assumption | with_reducible apply keeps_mapCore | with_reducible apply State.dropLine_keeps | with_reducible refine keeps_foldl (fun _ _ _ => ?_) ?_ | with_reducible refine keeps_forUpto (fun _ _ _ => ?_) ?_ | split | with_reducible refine keeps_freeCnt (Nat.le_add_right _ _) ?_)

theorem State.goldsLost_keeps {x1} (h : Keeps a s) : Keeps a (State.goldsLost s x1) := by
  unfold State.goldsLost
  try dsimp only
  repeat' (first | with_reducible assumption | with_reducible apply keeps_mapHwa | with_reducible apply State.goldDefer_keeps | with_reducible refine keeps_foldl (fun _ _ _ => ?_) ?_ | with_reducible refine keeps_forUpto (fun _ _ _ => ?_) ?_ | split | with_reducible refine keeps_freeCnt (Nat.le_add_right _ _) ?_)

theorem State.dieInReset_keeps {x1} (h : Keeps a s) : Keeps a (State.dieInReset s x1) := by
  unfold State.dieInReset
  try dsimp only
  repeat' (first | with_reducible assumption | with_reducible apply State.homeLost_keeps | with_reducible apply State.dieMemLost_keeps | with_reducible apply State.dieBlocksLost_keeps | with_reducible apply State.clusterReset_keeps | with_reducible apply State.abandonEpoch_keeps | with_reducible apply State.withholdLost_keeps | with_reducible apply State.updEng_keeps | with_reducible apply State.setDie_keeps | with_reducible apply State.goldsLost_keeps | with_reducible refine keeps_foldl (fun _ _ _ => ?_) ?_ | with_reducible refine keeps_forUpto (fun _ _ _ => ?_) ?_ | split | with_reducible refine keeps_freeCnt (Nat.le_add_right _ _) ?_)

theorem State.placeGolden_keeps {x1} (h : Keeps a s) : Keeps a (State.placeGolden s x1) := by
  unfold State.placeGolden
  try dsimp only
  repeat' (first | with_reducible assumption | with_reducible apply State.write_keeps | with_reducible apply State.updBank_keeps | with_reducible refine keeps_foldl (fun _ _ _ => ?_) ?_ | with_reducible refine keeps_forUpto (fun _ _ _ => ?_) ?_ | split | with_reducible refine keeps_freeCnt (Nat.le_add_right _ _) ?_)

theorem State.dieBack_keeps {x1} (h : Keeps a s) : Keeps a (State.dieBack s x1) := by
  unfold State.dieBack
  try dsimp only
  repeat' (first | with_reducible assumption | with_reducible apply State.updOpc_keeps | with_reducible apply State.placeGolden_keeps | with_reducible apply State.unrehomeDie_keeps | with_reducible apply State.stackBack_keeps | with_reducible apply State.grnCfg_keeps | with_reducible apply State.updHmc_keeps | with_reducible apply State.setDie_keeps | with_reducible apply keeps_mapFlt | with_reducible refine keeps_foldl (fun _ _ _ => ?_) ?_ | with_reducible refine keeps_forUpto (fun _ _ _ => ?_) ?_ | split | with_reducible refine keeps_freeCnt (Nat.le_add_right _ _) ?_)

theorem State.dieFails_keeps {x1 x2} (h : Keeps a s) : Keeps a (State.dieFails s x1 x2) := by
  unfold State.dieFails
  try dsimp only
  repeat' (first | with_reducible assumption | with_reducible apply State.setDie_keeps | with_reducible apply State.journalUnit_keeps | with_reducible refine keeps_foldl (fun _ _ _ => ?_) ?_ | with_reducible refine keeps_forUpto (fun _ _ _ => ?_) ?_ | split | with_reducible refine keeps_freeCnt (Nat.le_add_right _ _) ?_)

theorem State.resetUnit_keeps {x1 x2} (h : Keeps a s) : Keeps a (State.resetUnit s x1 x2) := by
  unfold State.resetUnit
  try dsimp only
  repeat' (first | with_reducible assumption | with_reducible apply State.iodReset_keeps | with_reducible apply State.withholdStack_keeps | with_reducible apply State.stackReset_keeps | with_reducible apply State.fenceDie_keeps | with_reducible apply State.clusterReset_keeps | with_reducible apply State.resetEngine_keeps | with_reducible refine keeps_foldl (fun _ _ _ => ?_) ?_ | with_reducible refine keeps_forUpto (fun _ _ _ => ?_) ?_ | split | with_reducible refine keeps_freeCnt (Nat.le_add_right _ _) ?_)

end Sys2Proof.Machine
end

