-- ==== Sys2Proof/Laws/KeepsPowerOps.lean ====
section
/-! SUPPORT. Every operation of Machine/PowerOps.lean carries `Keeps` on. -/

namespace Sys2Proof.Machine

set_option linter.unusedTactic false
set_option linter.unreachableTactic false

variable {a s t : State}

theorem State.writeVolt_keeps {x1 x2} (h : Keeps a s) : Keeps a (State.writeVolt s x1 x2) := by
  unfold State.writeVolt
  try dsimp only
  repeat' (first | with_reducible assumption | with_reducible apply State.updOpc_keeps | with_reducible refine keeps_foldl (fun _ _ _ => ?_) ?_ | with_reducible refine keeps_forUpto (fun _ _ _ => ?_) ?_ | split | with_reducible refine keeps_freeCnt (Nat.le_add_right _ _) ?_)

theorem State.applyLevel_keeps {x1 x2} (h : Keeps a s) : Keeps a (State.applyLevel s x1 x2) := by
  unfold State.applyLevel
  try dsimp only
  repeat' (first | with_reducible assumption | with_reducible apply State.updOpc_keeps | with_reducible apply State.writeVolt_keeps | with_reducible refine keeps_foldl (fun _ _ _ => ?_) ?_ | with_reducible refine keeps_forUpto (fun _ _ _ => ?_) ?_ | split | with_reducible refine keeps_freeCnt (Nat.le_add_right _ _) ?_)

theorem State.applyOpcTable_keeps {x1 x2} (h : Keeps a s) : Keeps a (State.applyOpcTable s x1 x2) := by
  unfold State.applyOpcTable
  try dsimp only
  repeat' (first | with_reducible assumption | with_reducible apply State.applyLevel_keeps | with_reducible apply State.updOpc_keeps | with_reducible refine keeps_foldl (fun _ _ _ => ?_) ?_ | with_reducible refine keeps_forUpto (fun _ _ _ => ?_) ?_ | split | with_reducible refine keeps_freeCnt (Nat.le_add_right _ _) ?_)

theorem State.applyOpcLevel_keeps {x1 x2} (h : Keeps a s) : Keeps a (State.applyOpcLevel s x1 x2) := by
  unfold State.applyOpcLevel
  try dsimp only
  repeat' (first | with_reducible assumption | with_reducible apply State.applyLevel_keeps | with_reducible apply State.updOpc_keeps | with_reducible refine keeps_foldl (fun _ _ _ => ?_) ?_ | with_reducible refine keeps_forUpto (fun _ _ _ => ?_) ?_ | split | with_reducible refine keeps_freeCnt (Nat.le_add_right _ _) ?_)

theorem State.applyThr_keeps {x1 x2} (h : Keeps a s) : Keeps a (State.applyThr s x1 x2) := by
  unfold State.applyThr
  try dsimp only
  repeat' (first | with_reducible assumption | with_reducible apply State.updOpc_keeps | with_reducible refine keeps_foldl (fun _ _ _ => ?_) ?_ | with_reducible refine keeps_forUpto (fun _ _ _ => ?_) ?_ | split | with_reducible refine keeps_freeCnt (Nat.le_add_right _ _) ?_)

theorem State.setShares_keeps {x1} (h : Keeps a s) : Keeps a (State.setShares s x1) := by
  unfold State.setShares
  try dsimp only
  repeat' (first | with_reducible assumption | with_reducible apply State.updHmc_keeps | with_reducible refine keeps_foldl (fun _ _ _ => ?_) ?_ | with_reducible refine keeps_forUpto (fun _ _ _ => ?_) ?_ | split | with_reducible refine keeps_freeCnt (Nat.le_add_right _ _) ?_)

theorem State.pumpEval_keeps (h : Keeps a s) : Keeps a (State.pumpEval s) := by
  unfold State.pumpEval
  try dsimp only
  repeat' (first | with_reducible assumption | with_reducible apply keeps_mapCool | with_reducible refine keeps_foldl (fun _ _ _ => ?_) ?_ | with_reducible refine keeps_forUpto (fun _ _ _ => ?_) ?_ | split | with_reducible refine keeps_freeCnt (Nat.le_add_right _ _) ?_)

theorem State.warmEval_keeps {x1} (h : Keeps a s) : Keeps a (State.warmEval s x1) := by
  unfold State.warmEval
  try dsimp only
  repeat' (first | with_reducible assumption | with_reducible apply State.updOpc_keeps | with_reducible refine keeps_foldl (fun _ _ _ => ?_) ?_ | with_reducible refine keeps_forUpto (fun _ _ _ => ?_) ?_ | split | with_reducible refine keeps_freeCnt (Nat.le_add_right _ _) ?_)

theorem State.placeWarm_keeps {x1} (h : Keeps a s) : Keeps a (State.placeWarm s x1) := by
  unfold State.placeWarm
  try dsimp only
  repeat' (first | with_reducible assumption | with_reducible apply State.pushLane_keeps | with_reducible refine keeps_foldl (fun _ _ _ => ?_) ?_ | with_reducible refine keeps_forUpto (fun _ _ _ => ?_) ?_ | split | with_reducible refine keeps_freeCnt (Nat.le_add_right _ _) ?_)

end Sys2Proof.Machine
end

