-- ==== Sys2Proof/Laws/KeepsSwitchTables.lean ====
section
/-! SUPPORT. Every operation of Machine/SwitchTables.lean carries `Keeps` on. -/

namespace Sys2Proof.Machine

set_option linter.unusedTactic false
set_option linter.unreachableTactic false

variable {a s t : State}

theorem State.applySwitch_keeps {x1 x2} (h : Keeps a s) : Keeps a (State.applySwitch s x1 x2) := by
  unfold State.applySwitch
  try dsimp only
  repeat' (first | with_reducible assumption | with_reducible apply State.updPort_keeps | with_reducible apply State.txNext_keeps | with_reducible apply keeps_mapSw | with_reducible refine keeps_foldl (fun _ _ _ => ?_) ?_ | with_reducible refine keeps_forUpto (fun _ _ _ => ?_) ?_ | split | with_reducible refine keeps_freeCnt (Nat.le_add_right _ _) ?_)

end Sys2Proof.Machine
end

