-- ==== Sys2Proof/Laws/KeepsCommands.lean ====
section
/-! SUPPORT. Every operation of Machine/Commands.lean carries `Keeps` on. -/

namespace Sys2Proof.Machine

set_option linter.unusedTactic false
set_option linter.unreachableTactic false

variable {a s t : State}

theorem State.runWork_keeps {x1} (h : Keeps a s) : Keeps a (State.runWork s x1).2 := by
  unfold State.runWork
  try dsimp only
  repeat' (first | with_reducible assumption | with_reducible apply State.resetUnit_keeps | with_reducible apply State.weightWork_keeps | with_reducible refine State.weightWork_keepsEq (by assumption) ?_ | with_reducible refine keeps_foldl (fun _ _ _ => ?_) ?_ | with_reducible refine keeps_forUpto (fun _ _ _ => ?_) ?_ | split | with_reducible refine keeps_freeCnt (Nat.le_add_right _ _) ?_)

theorem State.runWork_keepsEq {x1 r} (e : State.runWork s x1 = (r, t)) (h : Keeps a s) : Keeps a t := by
  have k := State.runWork_keeps (a := a) (x1 := x1) h
  rw [e] at k; exact k

theorem State.destroyCtx_keeps {x1} (h : Keeps a s) : Keeps a (State.destroyCtx s x1) := by
  unfold State.destroyCtx
  try dsimp only
  repeat' (first | with_reducible assumption | with_reducible apply State.updCoreOf_keeps | with_reducible apply State.updKvCtx_keeps | with_reducible apply State.updKvw_keeps | with_reducible apply State.updCtx_keeps | with_reducible apply State.releaseBanks_keeps | with_reducible apply State.blkDropCtx_keeps | with_reducible refine keeps_foldl (fun _ _ _ => ?_) ?_ | with_reducible refine keeps_forUpto (fun _ _ _ => ?_) ?_ | split | with_reducible refine keeps_freeCnt (Nat.le_add_right _ _) ?_)

theorem State.placeGraph_keeps {x1 x2 x3 x4} (h : Keeps a s) : Keeps a (State.placeGraph s x1 x2 x3 x4) := by
  unfold State.placeGraph
  try dsimp only
  repeat' (first | with_reducible assumption | with_reducible apply State.updCtx_keeps | with_reducible apply State.write_keeps | with_reducible refine keeps_foldl (fun _ _ _ => ?_) ?_ | with_reducible refine keeps_forUpto (fun _ _ _ => ?_) ?_ | split | with_reducible refine keeps_freeCnt (Nat.le_add_right _ _) ?_)

theorem State.installKey_keeps {x1 x2} (h : Keeps a s) : Keeps a (State.installKey s x1 x2) := by
  unfold State.installKey
  try dsimp only
  repeat' (first | with_reducible assumption | with_reducible refine keeps_mapTly (by intro x hx; first | exact hx | (dsimp only; split <;> exact hx)) ?_ | with_reducible apply State.setKey_keeps | with_reducible refine keeps_foldl (fun _ _ _ => ?_) ?_ | with_reducible refine keeps_forUpto (fun _ _ _ => ?_) ?_ | split | with_reducible refine keeps_freeCnt (Nat.le_add_right _ _) ?_)

theorem State.applyCmd_keeps {x1 x2} (h : Keeps a s) : Keeps a (State.applyCmd s x1 x2) := by
  unfold State.applyCmd
  try dsimp only
  repeat' (first | with_reducible assumption | with_reducible apply keeps_mapCmds | with_reducible apply State.journalUnit_keeps | with_reducible apply State.store_keeps | with_reducible refine State.store_keepsEq (by assumption) ?_ | with_reducible apply State.listReplay_keeps | with_reducible apply State.installKey_keeps | with_reducible refine keeps_mapPair (by intro x; first | with_reducible rfl | (dsimp only; repeat' split) <;> with_reducible rfl) ?_ | with_reducible apply State.setShares_keeps | with_reducible apply keeps_mapCx | with_reducible apply State.applySwitch_keeps | with_reducible apply State.applyIngTable_keeps | with_reducible apply State.updWdgStage_keeps | with_reducible apply State.applyThr_keeps | with_reducible apply State.applyOpcLevel_keeps | with_reducible apply State.applyOpcTable_keeps | with_reducible apply State.placeGraph_keeps | with_reducible apply State.destroyCtx_keeps | with_reducible apply State.updCtx_keeps | with_reducible refine keeps_mapTly (by intro x hx; first | exact hx | (dsimp only; split <;> exact hx)) ?_ | with_reducible refine keeps_foldl (fun _ _ _ => ?_) ?_ | with_reducible refine keeps_forUpto (fun _ _ _ => ?_) ?_ | split | with_reducible refine keeps_freeCnt (Nat.le_add_right _ _) ?_)

theorem State.applyOne_keeps {x1 x2} (h : Keeps a s) : Keeps a (State.applyOne s x1 x2) := by
  unfold State.applyOne
  try dsimp only
  repeat' (first | with_reducible assumption | with_reducible apply State.applyCmd_keeps | with_reducible apply State.noteApplied_keeps | with_reducible apply State.endCmd_keeps | with_reducible refine keeps_foldl (fun _ _ _ => ?_) ?_ | with_reducible refine keeps_forUpto (fun _ _ _ => ?_) ?_ | split | with_reducible refine keeps_freeCnt (Nat.le_add_right _ _) ?_)

end Sys2Proof.Machine
end

