-- ==== Sys2Proof/Laws/KeepsEpoch.lean ====
section
/-! SUPPORT. Every operation of Machine/Epoch.lean carries `Keeps` on. -/

namespace Sys2Proof.Machine

set_option linter.unusedTactic false
set_option linter.unreachableTactic false

variable {a s t : State}

theorem State.addInst_keeps {x1 x2} (h : Keeps a s) : Keeps a (State.addInst s x1 x2) := by
  unfold State.addInst
  try dsimp only
  repeat' (first | with_reducible assumption | with_reducible apply keeps_mapCx | with_reducible apply State.advanceCtx_keeps | with_reducible refine keeps_foldl (fun _ _ _ => ?_) ?_ | with_reducible refine keeps_forUpto (fun _ _ _ => ?_) ?_ | split | with_reducible refine keeps_freeCnt (Nat.le_add_right _ _) ?_)

theorem State.openEpoch_keeps {x1 x2 x3 x4 x5} (h : Keeps a s) : Keeps a (State.openEpoch s x1 x2 x3 x4 x5) := by
  unfold State.openEpoch
  try dsimp only
  repeat' (first | with_reducible assumption | with_reducible apply State.inputsReady_keeps | with_reducible apply State.addInst_keeps | with_reducible apply State.fixArrivals_keeps | with_reducible apply State.goldOpen_keeps | with_reducible apply keeps_mapHwa | with_reducible refine keeps_mapPair (by intro x; first | with_reducible rfl | (dsimp only; repeat' split) <;> with_reducible rfl) ?_ | with_reducible apply State.applyOne_keeps | with_reducible refine keeps_mapTly (by intro x hx; first | exact hx | (dsimp only; split <;> exact hx)) ?_ | with_reducible refine keeps_foldl (fun _ _ _ => ?_) ?_ | with_reducible refine keeps_forUpto (fun _ _ _ => ?_) ?_ | split | with_reducible refine keeps_freeCnt (Nat.le_add_right _ _) ?_)

theorem State.openNow_keeps {x1} (h : Keeps a s) : Keeps a (State.openNow s x1) := by
  unfold State.openNow
  try dsimp only
  repeat' (first | with_reducible assumption | with_reducible apply State.openEpoch_keeps | with_reducible refine keeps_mapPair (by intro x; first | with_reducible rfl | (dsimp only; repeat' split) <;> with_reducible rfl) ?_ | with_reducible apply State.send_keeps | with_reducible refine keeps_foldl (fun _ _ _ => ?_) ?_ | with_reducible refine keeps_forUpto (fun _ _ _ => ?_) ?_ | split | with_reducible refine keeps_freeCnt (Nat.le_add_right _ _) ?_)

theorem State.openRequest_keeps {x1} (h : Keeps a s) : Keeps a (State.openRequest s x1) := by
  unfold State.openRequest
  try dsimp only
  repeat' (first | with_reducible assumption | with_reducible apply State.openNow_keeps | with_reducible refine keeps_mapTly (by intro x hx; first | exact hx | (dsimp only; split <;> exact hx)) ?_ | with_reducible refine keeps_foldl (fun _ _ _ => ?_) ?_ | with_reducible refine keeps_forUpto (fun _ _ _ => ?_) ?_ | split | with_reducible refine keeps_freeCnt (Nat.le_add_right _ _) ?_)

theorem State.openHeld_keeps (h : Keeps a s) : Keeps a (State.openHeld s) := by
  unfold State.openHeld
  try dsimp only
  repeat' (first | with_reducible assumption | with_reducible apply State.openEpoch_keeps | with_reducible apply State.setPState_keeps | with_reducible refine keeps_mapPair (by intro x; first | with_reducible rfl | (dsimp only; repeat' split) <;> with_reducible rfl) ?_ | with_reducible refine keeps_foldl (fun _ _ _ => ?_) ?_ | with_reducible refine keeps_forUpto (fun _ _ _ => ?_) ?_ | split | with_reducible refine keeps_freeCnt (Nat.le_add_right _ _) ?_)

theorem State.periodTick_keeps (h : Keeps a s) : Keeps a (State.periodTick s) := by
  unfold State.periodTick
  try dsimp only
  repeat' (first | with_reducible assumption | with_reducible refine keeps_mapTly (by intro x hx; first | exact hx | (dsimp only; split <;> exact hx)) ?_ | with_reducible apply State.openRequest_keeps | with_reducible refine keeps_foldl (fun _ _ _ => ?_) ?_ | with_reducible refine keeps_forUpto (fun _ _ _ => ?_) ?_ | split | with_reducible refine keeps_freeCnt (Nat.le_add_right _ _) ?_)

theorem State.cmdDue_keeps {x1} (h : Keeps a s) : Keeps a (State.cmdDue s x1) := by
  unfold State.cmdDue
  try dsimp only
  repeat' (first | with_reducible assumption | with_reducible apply State.openRequest_keeps | with_reducible apply State.applyOne_keeps | with_reducible refine keeps_mapPair (by intro x; first | with_reducible rfl | (dsimp only; repeat' split) <;> with_reducible rfl) ?_ | with_reducible apply keeps_mapCmds | with_reducible refine keeps_foldl (fun _ _ _ => ?_) ?_ | with_reducible refine keeps_forUpto (fun _ _ _ => ?_) ?_ | split | with_reducible refine keeps_freeCnt (Nat.le_add_right _ _) ?_)

theorem State.carryCmd_keeps {x1} (h : Keeps a s) : Keeps a (State.carryCmd s x1) := by
  unfold State.carryCmd
  try dsimp only
  repeat' (first | with_reducible assumption | with_reducible refine keeps_mapPair (by intro x; first | with_reducible rfl | (dsimp only; repeat' split) <;> with_reducible rfl) ?_ | with_reducible apply State.send_keeps | with_reducible refine keeps_foldl (fun _ _ _ => ?_) ?_ | with_reducible refine keeps_forUpto (fun _ _ _ => ?_) ?_ | split | with_reducible refine keeps_freeCnt (Nat.le_add_right _ _) ?_)

theorem State.cmdReady_keeps {x1} (h : Keeps a s) : Keeps a (State.cmdReady s x1) := by
  unfold State.cmdReady
  try dsimp only
  repeat' (first | with_reducible assumption | with_reducible apply State.cmdDue_keeps | with_reducible apply keeps_mapCmds | with_reducible refine keeps_foldl (fun _ _ _ => ?_) ?_ | with_reducible refine keeps_forUpto (fun _ _ _ => ?_) ?_ | split | with_reducible refine keeps_freeCnt (Nat.le_add_right _ _) ?_)

theorem State.uncarry_keeps (h : Keeps a s) : Keeps a (State.uncarry s) := by
  unfold State.uncarry
  try dsimp only
  repeat' (first | with_reducible assumption | with_reducible apply State.cmdDue_keeps | with_reducible refine keeps_foldl (fun _ _ _ => ?_) ?_ | with_reducible refine keeps_forUpto (fun _ _ _ => ?_) ?_ | split | with_reducible refine keeps_freeCnt (Nat.le_add_right _ _) ?_)

theorem State.retryOutputs_keeps (h : Keeps a s) : Keeps a (State.retryOutputs s) := by
  unfold State.retryOutputs
  try dsimp only
  repeat' (first | with_reducible assumption | with_reducible apply State.tryOutput_keeps | with_reducible apply State.settle_keeps | with_reducible refine keeps_foldl (fun _ _ _ => ?_) ?_ | with_reducible refine keeps_forUpto (fun _ _ _ => ?_) ?_ | split | with_reducible refine keeps_freeCnt (Nat.le_add_right _ _) ?_)

theorem State.carryCheck_keeps (h : Keeps a s) : Keeps a (State.carryCheck s) := by
  unfold State.carryCheck
  try dsimp only
  repeat' (first | with_reducible assumption | with_reducible refine keeps_mapPair (by intro x; first | with_reducible rfl | (dsimp only; repeat' split) <;> with_reducible rfl) ?_ | with_reducible apply State.uncarry_keeps | with_reducible apply State.retryOutputs_keeps | with_reducible refine keeps_foldl (fun _ _ _ => ?_) ?_ | with_reducible refine keeps_forUpto (fun _ _ _ => ?_) ?_ | split | with_reducible refine keeps_freeCnt (Nat.le_add_right _ _) ?_)

theorem State.tryEvidence_keeps {x1} (h : Keeps a s) : Keeps a (State.tryEvidence s x1) := by
  unfold State.tryEvidence
  try dsimp only
  repeat' (first | with_reducible assumption | with_reducible apply State.send_keeps | with_reducible apply State.updEp_keeps | with_reducible refine keeps_foldl (fun _ _ _ => ?_) ?_ | with_reducible refine keeps_forUpto (fun _ _ _ => ?_) ?_ | split | with_reducible refine keeps_freeCnt (Nat.le_add_right _ _) ?_)

theorem State.resolve_keeps {x1} (h : Keeps a s) : Keeps a (State.resolve s x1) := by
  unfold State.resolve
  try dsimp only
  repeat' (first | with_reducible assumption | with_reducible apply State.updEp_keeps | with_reducible refine keeps_foldl (fun _ _ _ => ?_) ?_ | with_reducible refine keeps_forUpto (fun _ _ _ => ?_) ?_ | split | with_reducible refine keeps_freeCnt (Nat.le_add_right _ _) ?_)

theorem State.joinCompare_keeps {x1} (h : Keeps a s) : Keeps a (State.joinCompare s x1) := by
  unfold State.joinCompare
  try dsimp only
  repeat' (first | with_reducible assumption | with_reducible apply State.send_keeps | with_reducible refine keeps_mapPair (by intro x; first | with_reducible rfl | (dsimp only; repeat' split) <;> with_reducible rfl) ?_ | with_reducible apply State.dropEpoch_keeps | with_reducible refine keeps_foldl (fun _ _ _ => ?_) ?_ | with_reducible refine keeps_forUpto (fun _ _ _ => ?_) ?_ | split | with_reducible refine keeps_freeCnt (Nat.le_add_right _ _) ?_)

theorem State.tryDigest_keeps {x1} (h : Keeps a s) : Keeps a (State.tryDigest s x1) := by
  unfold State.tryDigest
  try dsimp only
  repeat' (first | with_reducible assumption | with_reducible apply State.joinCompare_keeps | with_reducible apply State.updEp_keeps | with_reducible apply State.tryEvidence_keeps | with_reducible apply State.resolve_keeps | with_reducible apply State.send_keeps | with_reducible refine keeps_foldl (fun _ _ _ => ?_) ?_ | with_reducible refine keeps_forUpto (fun _ _ _ => ?_) ?_ | split | with_reducible refine keeps_freeCnt (Nat.le_add_right _ _) ?_)

theorem State.digestDone_keeps {x1} (h : Keeps a s) : Keeps a (State.digestDone s x1) := by
  unfold State.digestDone
  try dsimp only
  repeat' (first | with_reducible assumption | with_reducible apply State.updEp_keeps | with_reducible apply State.tryDigest_keeps | with_reducible refine keeps_foldl (fun _ _ _ => ?_) ?_ | with_reducible refine keeps_forUpto (fun _ _ _ => ?_) ?_ | split | with_reducible refine keeps_freeCnt (Nat.le_add_right _ _) ?_)

theorem State.publish_keeps {x1 x2} (h : Keeps a s) : Keeps a (State.publish s x1 x2) := by
  unfold State.publish
  try dsimp only
  repeat' (first | with_reducible assumption | with_reducible apply State.decideEpoch_keeps | with_reducible apply State.afterDecision_keeps | with_reducible apply State.send_keeps | with_reducible apply State.updEp_keeps | with_reducible refine keeps_foldl (fun _ _ _ => ?_) ?_ | with_reducible refine keeps_forUpto (fun _ _ _ => ?_) ?_ | split | with_reducible refine keeps_freeCnt (Nat.le_add_right _ _) ?_)

theorem State.deadline_keeps {x1} (h : Keeps a s) : Keeps a (State.deadline s x1) := by
  unfold State.deadline
  try dsimp only
  repeat' (first | with_reducible assumption | with_reducible apply State.withhold_keeps | with_reducible refine keeps_foldl (fun _ _ _ => ?_) ?_ | with_reducible refine keeps_forUpto (fun _ _ _ => ?_) ?_ | split | with_reducible refine keeps_freeCnt (Nat.le_add_right _ _) ?_)

theorem State.decideNow_keeps (h : Keeps a s) : Keeps a (State.decideNow s) := by
  unfold State.decideNow
  try dsimp only
  repeat' (first | with_reducible assumption | with_reducible apply State.decideEpoch_keeps | with_reducible apply State.afterDecision_keeps | with_reducible apply State.withhold_keeps | with_reducible apply State.abandonEpoch_keeps | with_reducible apply State.publish_keeps | with_reducible apply State.updEp_keeps | with_reducible refine keeps_foldl (fun _ _ _ => ?_) ?_ | with_reducible refine keeps_forUpto (fun _ _ _ => ?_) ?_ | split | with_reducible refine keeps_freeCnt (Nat.le_add_right _ _) ?_)

theorem State.stopCmds_keeps (h : Keeps a s) : Keeps a (State.stopCmds s) := by
  unfold State.stopCmds
  try dsimp only
  repeat' (first | with_reducible assumption | with_reducible apply State.complete_keeps | with_reducible apply keeps_mapMbx | with_reducible apply State.endCmd_keeps | with_reducible refine keeps_foldl (fun _ _ _ => ?_) ?_ | with_reducible refine keeps_forUpto (fun _ _ _ => ?_) ?_ | split | with_reducible refine keeps_freeCnt (Nat.le_add_right _ _) ?_)

theorem State.finalEpoch_keeps (h : Keeps a s) : Keeps a (State.finalEpoch s) := by
  unfold State.finalEpoch
  try dsimp only
  repeat' (first | with_reducible assumption | with_reducible apply State.decideEpoch_keeps | with_reducible refine keeps_mapTly (by intro x hx; first | exact hx | (dsimp only; split <;> exact hx)) ?_ | with_reducible apply State.hwaProfile_keeps | with_reducible refine State.hwaProfile_keepsEq (by assumption) ?_ | with_reducible refine keeps_foldl (fun _ _ _ => ?_) ?_ | with_reducible refine keeps_forUpto (fun _ _ _ => ?_) ?_ | split | with_reducible refine keeps_freeCnt (Nat.le_add_right _ _) ?_)

theorem State.holdReset_keeps (h : Keeps a s) : Keeps a (State.holdReset s) := by
  unfold State.holdReset
  try dsimp only
  repeat' (first | with_reducible assumption | with_reducible apply keeps_mapFlt | with_reducible apply State.ingestReset_keeps | with_reducible apply State.dieInReset_keeps | with_reducible refine keeps_foldl (fun _ _ _ => ?_) ?_ | with_reducible refine keeps_forUpto (fun _ _ _ => ?_) ?_ | split | with_reducible refine keeps_freeCnt (Nat.le_add_right _ _) ?_)

theorem keeps_iterate {f : State → State} (hf : ∀ s, Keeps a s → Keeps a (f s)) : ∀ (n : Nat) {s : State}, Keeps a s → Keeps a (iterate f n s)
  | 0, _, h => h
  | n + 1, _, h => keeps_iterate hf n (hf _ h)

theorem State.shutdown_keeps (h : Keeps a s) : Keeps a (State.shutdown s) := by
  unfold State.shutdown
  split
  · exact h
  extract_lets s1 s2 s3 s4 s5 f s6 s7
  have h3 : Keeps a s3 := by
    refine State.resignCheck_keeps (keeps_mapPair (by intro x; rfl) (keeps_forUpto (fun s x k => ?_) (keeps_mapThm h)))
    split
    · exact State.applyLevel_keeps k
    · exact k
  clear_value s3
  have h4 : Keeps a s4 := by
    dsimp only [s4]
    split
    · exact keeps_iterate (fun s k => State.decideNow_keeps k) 4 h3
    · exact h3
  clear_value s4
  have h5 : Keeps a s5 := State.stopCmds_keeps h4
  clear_value s5
  have h6 : Keeps a s6 := by
    dsimp only [s6]
    split
    · exact State.finalEpoch_keeps h5
    · exact h5
  clear_value s6
  exact keeps_foldl (fun _ _ k => State.endCmd_keeps k) (State.holdReset_keeps h6)

theorem execScheduleTick_keeps (e : execScheduleTick s = .next t) : Keeps s t := by
  unfold execScheduleTick at e
  have h := Keeps.refl s
  replace e := Host.Outcome.next.inj e
  subst e
  try dsimp only
  repeat' (first | with_reducible assumption | with_reducible apply State.periodTick_keeps | with_reducible apply State.settle_keeps | with_reducible refine keeps_foldl (fun _ _ _ => ?_) ?_ | with_reducible refine keeps_forUpto (fun _ _ _ => ?_) ?_ | split | with_reducible refine keeps_freeCnt (Nat.le_add_right _ _) ?_)

theorem execEpochOpenEvent_keeps (e : execEpochOpenEvent s = .next t) : Keeps s t := by
  unfold execEpochOpenEvent at e
  have h := Keeps.refl s
  replace e := Host.Outcome.next.inj e
  subst e
  try dsimp only
  repeat' (first | with_reducible assumption | with_reducible apply State.openHeld_keeps | with_reducible apply State.settle_keeps | with_reducible refine keeps_foldl (fun _ _ _ => ?_) ?_ | with_reducible refine keeps_forUpto (fun _ _ _ => ?_) ?_ | split | with_reducible refine keeps_freeCnt (Nat.le_add_right _ _) ?_)

theorem execEpochDeadlineExpiry_keeps {x0} (e : execEpochDeadlineExpiry x0 s = .next t) : Keeps s t := by
  unfold execEpochDeadlineExpiry at e
  have h := Keeps.refl s
  replace e := Host.Outcome.next.inj e
  subst e
  try dsimp only
  repeat' (first | with_reducible assumption | with_reducible apply State.deadline_keeps | with_reducible apply State.settle_keeps | with_reducible apply State.carryCheck_keeps | with_reducible refine keeps_foldl (fun _ _ _ => ?_) ?_ | with_reducible refine keeps_forUpto (fun _ _ _ => ?_) ?_ | split | with_reducible refine keeps_freeCnt (Nat.le_add_right _ _) ?_)

theorem execEpochDigestComputed_keeps {x0} (e : execEpochDigestComputed x0 s = .next t) : Keeps s t := by
  unfold execEpochDigestComputed at e
  have h := Keeps.refl s
  replace e := Host.Outcome.next.inj e
  subst e
  try dsimp only
  repeat' (first | with_reducible assumption | with_reducible apply State.digestDone_keeps | with_reducible apply State.settle_keeps | with_reducible apply State.carryCheck_keeps | with_reducible refine keeps_foldl (fun _ _ _ => ?_) ?_ | with_reducible refine keeps_forUpto (fun _ _ _ => ?_) ?_ | split | with_reducible refine keeps_freeCnt (Nat.le_add_right _ _) ?_)

theorem execEpochPublish_keeps {x0} (e : execEpochPublish x0 s = .next t) : Keeps s t := by
  unfold execEpochPublish at e
  have h := Keeps.refl s
  replace e := Host.Outcome.next.inj e
  subst e
  try dsimp only
  repeat' (first | with_reducible assumption | with_reducible apply State.publish_keeps | with_reducible apply State.settle_keeps | with_reducible apply State.carryCheck_keeps | with_reducible refine keeps_foldl (fun _ _ _ => ?_) ?_ | with_reducible refine keeps_forUpto (fun _ _ _ => ?_) ?_ | split | with_reducible refine keeps_freeCnt (Nat.le_add_right _ _) ?_)

theorem execTlySelLoWrite_keeps {x0 x1 x2} (e : execTlySelLoWrite x0 x1 x2 s = .next t) : Keeps s t := by
  unfold execTlySelLoWrite at e
  have h := Keeps.refl s
  replace e := Host.Outcome.next.inj e
  subst e
  try dsimp only
  repeat' (first | with_reducible assumption | with_reducible apply State.updWin_keeps | with_reducible refine keeps_foldl (fun _ _ _ => ?_) ?_ | with_reducible refine keeps_forUpto (fun _ _ _ => ?_) ?_ | split | with_reducible refine keeps_freeCnt (Nat.le_add_right _ _) ?_)

theorem execTlySnapshotCopyDone_keeps {x0} (e : execTlySnapshotCopyDone x0 s = .next t) : Keeps s t := by
  unfold execTlySnapshotCopyDone at e
  have h := Keeps.refl s
  replace e := Host.Outcome.next.inj e
  subst e
  try dsimp only
  repeat' (first | with_reducible assumption | with_reducible apply State.updWin_keeps | with_reducible refine keeps_foldl (fun _ _ _ => ?_) ?_ | with_reducible refine keeps_forUpto (fun _ _ _ => ?_) ?_ | split | with_reducible refine keeps_freeCnt (Nat.le_add_right _ _) ?_)

theorem execTlyLoRead_keeps {x0 x1} (e : execTlyLoRead x0 x1 s = .next t) : Keeps s t := by
  unfold execTlyLoRead at e
  have h := Keeps.refl s
  replace e := Host.Outcome.next.inj e
  subst e
  try dsimp only
  repeat' (first | with_reducible assumption | with_reducible refine keeps_mapTly (by intro x hx; first | exact hx | (dsimp only; split <;> exact hx)) ?_ | with_reducible refine keeps_foldl (fun _ _ _ => ?_) ?_ | with_reducible refine keeps_forUpto (fun _ _ _ => ?_) ?_ | split | with_reducible refine keeps_freeCnt (Nat.le_add_right _ _) ?_)

theorem execWdgTickLoRead_keeps {x0} (e : execWdgTickLoRead x0 s = .next t) : Keeps s t := by
  unfold execWdgTickLoRead at e
  have h := Keeps.refl s
  replace e := Host.Outcome.next.inj e
  subst e
  try dsimp only
  repeat' (first | with_reducible assumption | with_reducible apply keeps_mapTime | with_reducible refine keeps_foldl (fun _ _ _ => ?_) ?_ | with_reducible refine keeps_forUpto (fun _ _ _ => ?_) ?_ | split | with_reducible refine keeps_freeCnt (Nat.le_add_right _ _) ?_)

end Sys2Proof.Machine
end

