-- ==== Sys2Proof/Laws/KeepsMailbox.lean ====
section
/-! SUPPORT. Every operation of Machine/Mailbox.lean carries `Keeps` on. -/

namespace Sys2Proof.Machine

set_option linter.unusedTactic false
set_option linter.unreachableTactic false

variable {a s t : State}

theorem State.bodyWrite_keeps {x1 x2 x3} (h : Keeps a s) : Keeps a (State.bodyWrite s x1 x2 x3) := by
  unfold State.bodyWrite
  try dsimp only
  repeat' (first | with_reducible assumption | with_reducible apply State.slip_keeps | with_reducible apply State.updSlot_keeps | with_reducible refine keeps_foldl (fun _ _ _ => ?_) ?_ | with_reducible refine keeps_forUpto (fun _ _ _ => ?_) ?_ | split | with_reducible refine keeps_freeCnt (Nat.le_add_right _ _) ?_)

theorem State.ring_keeps {x1 x2} (h : Keeps a s) : Keeps a (State.ring s x1 x2) := by
  unfold State.ring
  try dsimp only
  repeat' (first | with_reducible assumption | with_reducible apply State.slip_keeps | with_reducible apply State.updSlot_keeps | with_reducible apply keeps_mapMbx | with_reducible refine keeps_foldl (fun _ _ _ => ?_) ?_ | with_reducible refine keeps_forUpto (fun _ _ _ => ?_) ?_ | split | with_reducible refine keeps_freeCnt (Nat.le_add_right _ _) ?_)

theorem State.releaseSlots_keeps {x1} (h : Keeps a s) : Keeps a (State.releaseSlots s x1) := by
  unfold State.releaseSlots
  try dsimp only
  repeat' (first | with_reducible assumption | with_reducible apply State.slip_keeps | with_reducible apply State.updSlot_keeps | with_reducible refine keeps_foldl (fun _ _ _ => ?_) ?_ | with_reducible refine keeps_forUpto (fun _ _ _ => ?_) ?_ | split | with_reducible refine keeps_freeCnt (Nat.le_add_right _ _) ?_)

theorem State.clearSticky_keeps {x1} (h : Keeps a s) : Keeps a (State.clearSticky s x1) := by
  unfold State.clearSticky
  try dsimp only
  repeat' (first | with_reducible assumption | with_reducible apply keeps_mapMbx | with_reducible refine keeps_foldl (fun _ _ _ => ?_) ?_ | with_reducible refine keeps_forUpto (fun _ _ _ => ?_) ?_ | split | with_reducible refine keeps_freeCnt (Nat.le_add_right _ _) ?_)

theorem State.cplTime_keeps {x1} (h : Keeps a s) : Keeps a (State.cplTime s x1).2 := by
  unfold State.cplTime
  try dsimp only
  repeat' (first | with_reducible assumption | with_reducible apply State.faultTick_keeps | with_reducible refine State.faultTick_keepsEq (by assumption) ?_ | with_reducible apply State.freeWord_keeps | with_reducible refine State.freeWord_keepsEq (by assumption) ?_ | with_reducible apply State.freeWide_keeps | with_reducible refine State.freeWide_keepsEq (by assumption) ?_ | with_reducible refine keeps_foldl (fun _ _ _ => ?_) ?_ | with_reducible refine keeps_forUpto (fun _ _ _ => ?_) ?_ | split | with_reducible refine keeps_freeCnt (Nat.le_add_right _ _) ?_)

theorem State.cplTime_keepsEq {x1 r} (e : State.cplTime s x1 = (r, t)) (h : Keeps a s) : Keeps a t := by
  have k := State.cplTime_keeps (a := a) (x1 := x1) h
  rw [e] at k; exact k

theorem State.finishTake_keeps {x1 x2 x3} (h : Keeps a s) : Keeps a (State.finishTake s x1 x2 x3) := by
  unfold State.finishTake
  try dsimp only
  repeat' (first | with_reducible assumption | with_reducible apply State.complete_keeps | with_reducible apply State.cplTime_keeps | with_reducible refine State.cplTime_keepsEq (by assumption) ?_ | with_reducible refine keeps_foldl (fun _ _ _ => ?_) ?_ | with_reducible refine keeps_forUpto (fun _ _ _ => ?_) ?_ | split | with_reducible refine keeps_freeCnt (Nat.le_add_right _ _) ?_)

theorem State.refuseTake_keeps {x1 x2 x3} (h : Keeps a s) : Keeps a (State.refuseTake s x1 x2 x3) := by
  unfold State.refuseTake
  try dsimp only
  repeat' (first | with_reducible assumption | with_reducible apply State.finishTake_keeps | with_reducible refine keeps_foldl (fun _ _ _ => ?_) ?_ | with_reducible refine keeps_forUpto (fun _ _ _ => ?_) ?_ | split | with_reducible refine keeps_freeCnt (Nat.le_add_right _ _) ?_)

theorem State.produce_keeps {x1} (h : Keeps a s) : Keeps a (State.produce s x1).2 := by
  unfold State.produce
  try dsimp only
  repeat' (first | with_reducible assumption | with_reducible apply State.attestation_keeps | with_reducible refine State.attestation_keepsEq (by assumption) ?_ | with_reducible refine keeps_foldl (fun _ _ _ => ?_) ?_ | with_reducible refine keeps_forUpto (fun _ _ _ => ?_) ?_ | split | with_reducible refine keeps_freeCnt (Nat.le_add_right _ _) ?_)

theorem State.produce_keepsEq {x1 r} (e : State.produce s x1 = (r, t)) (h : Keeps a s) : Keeps a t := by
  have k := State.produce_keeps (a := a) (x1 := x1) h
  rw [e] at k; exact k

theorem State.respond_keeps {x1 x2} (h : Keeps a s) : Keeps a (State.respond s x1 x2).2 := by
  unfold State.respond
  try dsimp only
  repeat' (first | with_reducible assumption | with_reducible apply State.updSlot_keeps | with_reducible apply State.produce_keeps | with_reducible refine State.produce_keepsEq (by assumption) ?_ | with_reducible refine keeps_foldl (fun _ _ _ => ?_) ?_ | with_reducible refine keeps_forUpto (fun _ _ _ => ?_) ?_ | split | with_reducible refine keeps_freeCnt (Nat.le_add_right _ _) ?_)

theorem State.respond_keepsEq {x1 x2 r} (e : State.respond s x1 x2 = (r, t)) (h : Keeps a s) : Keeps a t := by
  have k := State.respond_keeps (a := a) (x1 := x1) (x2 := x2) h
  rw [e] at k; exact k

theorem State.epochOpen_keeps {x1 x2} (h : Keeps a s) : Keeps a (State.epochOpen s x1 x2) := by
  unfold State.epochOpen
  try dsimp only
  repeat' (first | with_reducible assumption | with_reducible apply State.finishTake_keeps | with_reducible apply State.openNow_keeps | with_reducible apply State.refuseTake_keeps | with_reducible refine keeps_foldl (fun _ _ _ => ?_) ?_ | with_reducible refine keeps_forUpto (fun _ _ _ => ?_) ?_ | split | with_reducible refine keeps_freeCnt (Nat.le_add_right _ _) ?_)

theorem State.runImm_keeps {x1 x2} (h : Keeps a s) : Keeps a (State.runImm s x1 x2) := by
  unfold State.runImm
  try dsimp only
  repeat' (first | with_reducible assumption | with_reducible apply State.respond_keeps | with_reducible refine State.respond_keepsEq (by assumption) ?_ | with_reducible apply State.refuseTake_keeps | with_reducible apply State.epochOpen_keeps | with_reducible apply State.finishTake_keeps | with_reducible refine keeps_foldl (fun _ _ _ => ?_) ?_ | with_reducible refine keeps_forUpto (fun _ _ _ => ?_) ?_ | split | with_reducible refine keeps_freeCnt (Nat.le_add_right _ _) ?_)

theorem State.accept_keeps {x1} (h : Keeps a s) : Keeps a (State.accept s x1) := by
  unfold State.accept
  try dsimp only
  repeat' (first | with_reducible assumption | with_reducible apply State.cmdReady_keeps | with_reducible apply State.carryCmd_keeps | with_reducible apply keeps_mapCmds | with_reducible refine keeps_foldl (fun _ _ _ => ?_) ?_ | with_reducible refine keeps_forUpto (fun _ _ _ => ?_) ?_ | split | with_reducible refine keeps_freeCnt (Nat.le_add_right _ _) ?_)

theorem State.runBound_keeps {x1 x2} (h : Keeps a s) : Keeps a (State.runBound s x1 x2) := by
  unfold State.runBound
  try dsimp only
  repeat' (first | with_reducible assumption | with_reducible apply State.accept_keeps | with_reducible apply State.refuseTake_keeps | with_reducible refine keeps_foldl (fun _ _ _ => ?_) ?_ | with_reducible refine keeps_forUpto (fun _ _ _ => ?_) ?_ | split | with_reducible refine keeps_freeCnt (Nat.le_add_right _ _) ?_)

theorem State.handle_keeps {x1} (h : Keeps a s) : Keeps a (State.handle s x1) := by
  unfold State.handle
  try dsimp only
  repeat' (first | with_reducible assumption | with_reducible apply State.runBound_keeps | with_reducible apply State.runImm_keeps | with_reducible apply State.refuseTake_keeps | with_reducible apply State.updSlot_keeps | with_reducible apply keeps_mapMbx | with_reducible refine keeps_foldl (fun _ _ _ => ?_) ?_ | with_reducible refine keeps_forUpto (fun _ _ _ => ?_) ?_ | split | with_reducible refine keeps_freeCnt (Nat.le_add_right _ _) ?_)

theorem State.take_keeps (h : Keeps a s) : Keeps a (State.take s) := by
  unfold State.take
  try dsimp only
  repeat' (first | with_reducible assumption | with_reducible apply State.handle_keeps | with_reducible apply State.settle_keeps | with_reducible apply State.carryCheck_keeps | with_reducible refine keeps_foldl (fun _ _ _ => ?_) ?_ | with_reducible refine keeps_forUpto (fun _ _ _ => ?_) ?_ | split | with_reducible refine keeps_freeCnt (Nat.le_add_right _ _) ?_)

theorem State.answerCfg_keeps {x1 x2 x3 x4} (h : Keeps a s) : Keeps a (State.answerCfg s x1 x2 x3 x4) := by
  unfold State.answerCfg
  try dsimp only
  repeat' (first | with_reducible assumption | with_reducible apply State.leavePair_keeps | with_reducible apply State.joinAgain_keeps | with_reducible apply State.send_keeps | with_reducible apply State.freeWord_keeps | with_reducible refine State.freeWord_keepsEq (by assumption) ?_ | with_reducible refine keeps_foldl (fun _ _ _ => ?_) ?_ | with_reducible refine keeps_forUpto (fun _ _ _ => ?_) ?_ | split | with_reducible refine keeps_freeCnt (Nat.le_add_right _ _) ?_)

theorem State.failWork_keeps {x1 x2} (h : Keeps a s) : Keeps a (State.failWork s x1 x2) := by
  unfold State.failWork
  try dsimp only
  repeat' (first | with_reducible assumption | with_reducible apply State.endCmd_keeps | with_reducible apply State.answerCfg_keeps | with_reducible refine keeps_foldl (fun _ _ _ => ?_) ?_ | with_reducible refine keeps_forUpto (fun _ _ _ => ?_) ?_ | split | with_reducible refine keeps_freeCnt (Nat.le_add_right _ _) ?_)

theorem State.workEnd_keeps {x1} (h : Keeps a s) : Keeps a (State.workEnd s x1) := by
  unfold State.workEnd
  try dsimp only
  repeat' (first | with_reducible assumption | with_reducible apply State.cmdReady_keeps | with_reducible apply keeps_mapCmds | with_reducible apply State.failWork_keeps | with_reducible apply State.runWork_keeps | with_reducible refine State.runWork_keepsEq (by assumption) ?_ | with_reducible apply State.answerCfg_keeps | with_reducible apply State.shutdown_keeps | with_reducible refine keeps_foldl (fun _ _ _ => ?_) ?_ | with_reducible refine keeps_forUpto (fun _ _ _ => ?_) ?_ | split | with_reducible refine keeps_freeCnt (Nat.le_add_right _ _) ?_)

theorem State.workFaults_keeps {x1 x2} (h : Keeps a s) : Keeps a (State.workFaults s x1 x2) := by
  unfold State.workFaults
  try dsimp only
  repeat' (first | with_reducible assumption | with_reducible apply State.failWork_keeps | with_reducible apply State.faultOpen_keeps | with_reducible apply State.fenceDie_keeps | with_reducible refine keeps_foldl (fun _ _ _ => ?_) ?_ | with_reducible refine keeps_forUpto (fun _ _ _ => ?_) ?_ | split | with_reducible refine keeps_freeCnt (Nat.le_add_right _ _) ?_)

theorem State.workLate_keeps {x1} (h : Keeps a s) : Keeps a (State.workLate s x1) := by
  unfold State.workLate
  try dsimp only
  repeat' (first | with_reducible assumption | with_reducible apply State.failWork_keeps | with_reducible refine keeps_foldl (fun _ _ _ => ?_) ?_ | with_reducible refine keeps_forUpto (fun _ _ _ => ?_) ?_ | split | with_reducible refine keeps_freeCnt (Nat.le_add_right _ _) ?_)

theorem State.issue_keeps {x1 x2 x3} (h : Keeps a s) : Keeps a (State.issue s x1 x2 x3) := by
  unfold State.issue
  try dsimp only
  repeat' (first | with_reducible assumption | with_reducible apply State.bodyWrite_keeps | with_reducible apply State.ring_keeps | with_reducible apply State.take_keeps | with_reducible refine keeps_foldl (fun _ _ _ => ?_) ?_ | with_reducible refine keeps_forUpto (fun _ _ _ => ?_) ?_ | split | with_reducible refine keeps_freeCnt (Nat.le_add_right _ _) ?_)

theorem execMbxDoorbellWrite_keeps {x0 x1} (e : execMbxDoorbellWrite x0 x1 s = .next t) : Keeps s t := by
  unfold execMbxDoorbellWrite at e
  have h := Keeps.refl s
  replace e := Host.Outcome.next.inj e
  subst e
  try dsimp only
  repeat' (first | with_reducible assumption | with_reducible apply State.ring_keeps | with_reducible refine keeps_foldl (fun _ _ _ => ?_) ?_ | with_reducible refine keeps_forUpto (fun _ _ _ => ?_) ?_ | split | with_reducible refine keeps_freeCnt (Nat.le_add_right _ _) ?_)

theorem execMbxReleaseWrite_keeps {x0 x1} (e : execMbxReleaseWrite x0 x1 s = .next t) : Keeps s t := by
  unfold execMbxReleaseWrite at e
  have h := Keeps.refl s
  replace e := Host.Outcome.next.inj e
  subst e
  try dsimp only
  repeat' (first | with_reducible assumption | with_reducible apply State.releaseSlots_keeps | with_reducible refine keeps_foldl (fun _ _ _ => ?_) ?_ | with_reducible refine keeps_forUpto (fun _ _ _ => ?_) ?_ | split | with_reducible refine keeps_freeCnt (Nat.le_add_right _ _) ?_)

theorem execMbxStickyClear_keeps {x0 x1} (e : execMbxStickyClear x0 x1 s = .next t) : Keeps s t := by
  unfold execMbxStickyClear at e
  have h := Keeps.refl s
  replace e := Host.Outcome.next.inj e
  subst e
  try dsimp only
  repeat' (first | with_reducible assumption | with_reducible apply State.clearSticky_keeps | with_reducible refine keeps_foldl (fun _ _ _ => ?_) ?_ | with_reducible refine keeps_forUpto (fun _ _ _ => ?_) ?_ | split | with_reducible refine keeps_freeCnt (Nat.le_add_right _ _) ?_)

theorem execSlotBodyWrite_keeps {x0 x1 x2 x3} (e : execSlotBodyWrite x0 x1 x2 x3 s = .next t) : Keeps s t := by
  unfold execSlotBodyWrite at e
  have h := Keeps.refl s
  replace e := Host.Outcome.next.inj e
  subst e
  try dsimp only
  repeat' (first | with_reducible assumption | with_reducible apply State.bodyWrite_keeps | with_reducible refine keeps_foldl (fun _ _ _ => ?_) ?_ | with_reducible refine keeps_forUpto (fun _ _ _ => ?_) ?_ | split | with_reducible refine keeps_freeCnt (Nat.le_add_right _ _) ?_)

theorem execSlotTake_keeps (e : execSlotTake s = .next t) : Keeps s t := by
  unfold execSlotTake at e
  have h := Keeps.refl s
  replace e := Host.Outcome.next.inj e
  subst e
  try dsimp only
  repeat' (first | with_reducible assumption | with_reducible apply State.take_keeps | with_reducible refine keeps_foldl (fun _ _ _ => ?_) ?_ | with_reducible refine keeps_forUpto (fun _ _ _ => ?_) ?_ | split | with_reducible refine keeps_freeCnt (Nat.le_add_right _ _) ?_)

theorem execBackgroundWorkEnd_keeps {x0} (e : execBackgroundWorkEnd x0 s = .next t) : Keeps s t := by
  unfold execBackgroundWorkEnd at e
  have h := Keeps.refl s
  replace e := Host.Outcome.next.inj e
  subst e
  try dsimp only
  repeat' (first | with_reducible assumption | with_reducible apply State.workFaults_keeps | with_reducible apply State.workEnd_keeps | with_reducible apply State.settle_keeps | with_reducible refine keeps_foldl (fun _ _ _ => ?_) ?_ | with_reducible refine keeps_forUpto (fun _ _ _ => ?_) ?_ | split | with_reducible refine keeps_freeCnt (Nat.le_add_right _ _) ?_)

theorem execBackgroundLimitExpiry_keeps {x0} (e : execBackgroundLimitExpiry x0 s = .next t) : Keeps s t := by
  unfold execBackgroundLimitExpiry at e
  have h := Keeps.refl s
  replace e := Host.Outcome.next.inj e
  subst e
  try dsimp only
  repeat' (first | with_reducible assumption | with_reducible apply State.workLate_keeps | with_reducible apply State.settle_keeps | with_reducible refine keeps_foldl (fun _ _ _ => ?_) ?_ | with_reducible refine keeps_forUpto (fun _ _ _ => ?_) ?_ | split | with_reducible refine keeps_freeCnt (Nat.le_add_right _ _) ?_)

theorem execPing_keeps {x0} (e : execPing x0 s = .next t) : Keeps s t := by
  unfold execPing at e
  have h := Keeps.refl s
  replace e := Host.Outcome.next.inj e
  subst e
  try dsimp only
  repeat' (first | with_reducible assumption | with_reducible apply State.issue_keeps | with_reducible refine keeps_foldl (fun _ _ _ => ?_) ?_ | with_reducible refine keeps_forUpto (fun _ _ _ => ?_) ?_ | split | with_reducible refine keeps_freeCnt (Nat.le_add_right _ _) ?_)

theorem execGetInfo_keeps {x0} (e : execGetInfo x0 s = .next t) : Keeps s t := by
  unfold execGetInfo at e
  have h := Keeps.refl s
  replace e := Host.Outcome.next.inj e
  subst e
  try dsimp only
  repeat' (first | with_reducible assumption | with_reducible apply State.issue_keeps | with_reducible refine keeps_foldl (fun _ _ _ => ?_) ?_ | with_reducible refine keeps_forUpto (fun _ _ _ => ?_) ?_ | split | with_reducible refine keeps_freeCnt (Nat.le_add_right _ _) ?_)

theorem execGetJournal_keeps {x0} (e : execGetJournal x0 s = .next t) : Keeps s t := by
  unfold execGetJournal at e
  have h := Keeps.refl s
  replace e := Host.Outcome.next.inj e
  subst e
  try dsimp only
  repeat' (first | with_reducible assumption | with_reducible apply State.issue_keeps | with_reducible refine keeps_foldl (fun _ _ _ => ?_) ?_ | with_reducible refine keeps_forUpto (fun _ _ _ => ?_) ?_ | split | with_reducible refine keeps_freeCnt (Nat.le_add_right _ _) ?_)

theorem execEpochOpen_keeps {x0 x1} (e : execEpochOpen x0 x1 s = .next t) : Keeps s t := by
  unfold execEpochOpen at e
  have h := Keeps.refl s
  replace e := Host.Outcome.next.inj e
  subst e
  try dsimp only
  repeat' (first | with_reducible assumption | with_reducible apply State.issue_keeps | with_reducible refine keeps_foldl (fun _ _ _ => ?_) ?_ | with_reducible refine keeps_forUpto (fun _ _ _ => ?_) ?_ | split | with_reducible refine keeps_freeCnt (Nat.le_add_right _ _) ?_)

theorem execEpochSchedule_keeps {x0 x1 x2 x3 x4} (e : execEpochSchedule x0 x1 x2 x3 x4 s = .next t) : Keeps s t := by
  unfold execEpochSchedule at e
  have h := Keeps.refl s
  replace e := Host.Outcome.next.inj e
  subst e
  try dsimp only
  repeat' (first | with_reducible assumption | with_reducible apply State.issue_keeps | with_reducible refine keeps_foldl (fun _ _ _ => ?_) ?_ | with_reducible refine keeps_forUpto (fun _ _ _ => ?_) ?_ | split | with_reducible refine keeps_freeCnt (Nat.le_add_right _ _) ?_)

theorem execEpochHalt_keeps {x0} (e : execEpochHalt x0 s = .next t) : Keeps s t := by
  unfold execEpochHalt at e
  have h := Keeps.refl s
  replace e := Host.Outcome.next.inj e
  subst e
  try dsimp only
  repeat' (first | with_reducible assumption | with_reducible apply State.issue_keeps | with_reducible refine keeps_foldl (fun _ _ _ => ?_) ?_ | with_reducible refine keeps_forUpto (fun _ _ _ => ?_) ?_ | split | with_reducible refine keeps_freeCnt (Nat.le_add_right _ _) ?_)

theorem execRecordSchedule_keeps {x0 x1 x2 x3} (e : execRecordSchedule x0 x1 x2 x3 s = .next t) : Keeps s t := by
  unfold execRecordSchedule at e
  have h := Keeps.refl s
  replace e := Host.Outcome.next.inj e
  subst e
  try dsimp only
  repeat' (first | with_reducible assumption | with_reducible apply State.issue_keeps | with_reducible refine keeps_foldl (fun _ _ _ => ?_) ?_ | with_reducible refine keeps_forUpto (fun _ _ _ => ?_) ?_ | split | with_reducible refine keeps_freeCnt (Nat.le_add_right _ _) ?_)

theorem execContextCreate_keeps {x0 x1 x2 x3 x4 x5} (e : execContextCreate x0 x1 x2 x3 x4 x5 s = .next t) : Keeps s t := by
  unfold execContextCreate at e
  have h := Keeps.refl s
  replace e := Host.Outcome.next.inj e
  subst e
  try dsimp only
  repeat' (first | with_reducible assumption | with_reducible apply State.issue_keeps | with_reducible refine keeps_foldl (fun _ _ _ => ?_) ?_ | with_reducible refine keeps_forUpto (fun _ _ _ => ?_) ?_ | split | with_reducible refine keeps_freeCnt (Nat.le_add_right _ _) ?_)

theorem execContextDestroy_keeps {x0 x1} (e : execContextDestroy x0 x1 s = .next t) : Keeps s t := by
  unfold execContextDestroy at e
  have h := Keeps.refl s
  replace e := Host.Outcome.next.inj e
  subst e
  try dsimp only
  repeat' (first | with_reducible assumption | with_reducible apply State.issue_keeps | with_reducible refine keeps_foldl (fun _ _ _ => ?_) ?_ | with_reducible refine keeps_forUpto (fun _ _ _ => ?_) ?_ | split | with_reducible refine keeps_freeCnt (Nat.le_add_right _ _) ?_)

theorem execGraphLoad_keeps {x0 x1 x2 x3} (e : execGraphLoad x0 x1 x2 x3 s = .next t) : Keeps s t := by
  unfold execGraphLoad at e
  have h := Keeps.refl s
  replace e := Host.Outcome.next.inj e
  subst e
  try dsimp only
  repeat' (first | with_reducible assumption | with_reducible apply State.issue_keeps | with_reducible refine keeps_foldl (fun _ _ _ => ?_) ?_ | with_reducible refine keeps_forUpto (fun _ _ _ => ?_) ?_ | split | with_reducible refine keeps_freeCnt (Nat.le_add_right _ _) ?_)

theorem execGraphStart_keeps {x0 x1} (e : execGraphStart x0 x1 s = .next t) : Keeps s t := by
  unfold execGraphStart at e
  have h := Keeps.refl s
  replace e := Host.Outcome.next.inj e
  subst e
  try dsimp only
  repeat' (first | with_reducible assumption | with_reducible apply State.issue_keeps | with_reducible refine keeps_foldl (fun _ _ _ => ?_) ?_ | with_reducible refine keeps_forUpto (fun _ _ _ => ?_) ?_ | split | with_reducible refine keeps_freeCnt (Nat.le_add_right _ _) ?_)

theorem execGraphStop_keeps {x0 x1} (e : execGraphStop x0 x1 s = .next t) : Keeps s t := by
  unfold execGraphStop at e
  have h := Keeps.refl s
  replace e := Host.Outcome.next.inj e
  subst e
  try dsimp only
  repeat' (first | with_reducible assumption | with_reducible apply State.issue_keeps | with_reducible refine keeps_foldl (fun _ _ _ => ?_) ?_ | with_reducible refine keeps_forUpto (fun _ _ _ => ?_) ?_ | split | with_reducible refine keeps_freeCnt (Nat.le_add_right _ _) ?_)

theorem execOpcTableWrite_keeps {x0 x1 x2} (e : execOpcTableWrite x0 x1 x2 s = .next t) : Keeps s t := by
  unfold execOpcTableWrite at e
  have h := Keeps.refl s
  replace e := Host.Outcome.next.inj e
  subst e
  try dsimp only
  repeat' (first | with_reducible assumption | with_reducible apply State.issue_keeps | with_reducible refine keeps_foldl (fun _ _ _ => ?_) ?_ | with_reducible refine keeps_forUpto (fun _ _ _ => ?_) ?_ | split | with_reducible refine keeps_freeCnt (Nat.le_add_right _ _) ?_)

theorem execOpcLevelSet_keeps {x0 x1 x2} (e : execOpcLevelSet x0 x1 x2 s = .next t) : Keeps s t := by
  unfold execOpcLevelSet at e
  have h := Keeps.refl s
  replace e := Host.Outcome.next.inj e
  subst e
  try dsimp only
  repeat' (first | with_reducible assumption | with_reducible apply State.issue_keeps | with_reducible refine keeps_foldl (fun _ _ _ => ?_) ?_ | with_reducible refine keeps_forUpto (fun _ _ _ => ?_) ?_ | split | with_reducible refine keeps_freeCnt (Nat.le_add_right _ _) ?_)

theorem execThrottleTableWrite_keeps {x0 x1 x2} (e : execThrottleTableWrite x0 x1 x2 s = .next t) : Keeps s t := by
  unfold execThrottleTableWrite at e
  have h := Keeps.refl s
  replace e := Host.Outcome.next.inj e
  subst e
  try dsimp only
  repeat' (first | with_reducible assumption | with_reducible apply State.issue_keeps | with_reducible refine keeps_foldl (fun _ _ _ => ?_) ?_ | with_reducible refine keeps_forUpto (fun _ _ _ => ?_) ?_ | split | with_reducible refine keeps_freeCnt (Nat.le_add_right _ _) ?_)

theorem execWdgConfig_keeps {x0 x1 x2} (e : execWdgConfig x0 x1 x2 s = .next t) : Keeps s t := by
  unfold execWdgConfig at e
  have h := Keeps.refl s
  replace e := Host.Outcome.next.inj e
  subst e
  try dsimp only
  repeat' (first | with_reducible assumption | with_reducible apply State.issue_keeps | with_reducible refine keeps_foldl (fun _ _ _ => ?_) ?_ | with_reducible refine keeps_forUpto (fun _ _ _ => ?_) ?_ | split | with_reducible refine keeps_freeCnt (Nat.le_add_right _ _) ?_)

theorem execIngestTableWrite_keeps {x0 x1 x2} (e : execIngestTableWrite x0 x1 x2 s = .next t) : Keeps s t := by
  unfold execIngestTableWrite at e
  have h := Keeps.refl s
  replace e := Host.Outcome.next.inj e
  subst e
  try dsimp only
  repeat' (first | with_reducible assumption | with_reducible apply State.issue_keeps | with_reducible refine keeps_foldl (fun _ _ _ => ?_) ?_ | with_reducible refine keeps_forUpto (fun _ _ _ => ?_) ?_ | split | with_reducible refine keeps_freeCnt (Nat.le_add_right _ _) ?_)

theorem execSwitchTableWrite_keeps {x0 x1 x2} (e : execSwitchTableWrite x0 x1 x2 s = .next t) : Keeps s t := by
  unfold execSwitchTableWrite at e
  have h := Keeps.refl s
  replace e := Host.Outcome.next.inj e
  subst e
  try dsimp only
  repeat' (first | with_reducible assumption | with_reducible apply State.issue_keeps | with_reducible refine keeps_foldl (fun _ _ _ => ?_) ?_ | with_reducible refine keeps_forUpto (fun _ _ _ => ?_) ?_ | split | with_reducible refine keeps_freeCnt (Nat.le_add_right _ _) ?_)

theorem execBandwidthSet_keeps {x0 x1 x2 x3} (e : execBandwidthSet x0 x1 x2 x3 s = .next t) : Keeps s t := by
  unfold execBandwidthSet at e
  have h := Keeps.refl s
  replace e := Host.Outcome.next.inj e
  subst e
  try dsimp only
  repeat' (first | with_reducible assumption | with_reducible apply State.issue_keeps | with_reducible refine keeps_foldl (fun _ _ _ => ?_) ?_ | with_reducible refine keeps_forUpto (fun _ _ _ => ?_) ?_ | split | with_reducible refine keeps_freeCnt (Nat.le_add_right _ _) ?_)

theorem execRoleSwap_keeps {x0} (e : execRoleSwap x0 s = .next t) : Keeps s t := by
  unfold execRoleSwap at e
  have h := Keeps.refl s
  replace e := Host.Outcome.next.inj e
  subst e
  try dsimp only
  repeat' (first | with_reducible assumption | with_reducible apply State.issue_keeps | with_reducible refine keeps_foldl (fun _ _ _ => ?_) ?_ | with_reducible refine keeps_forUpto (fun _ _ _ => ?_) ?_ | split | with_reducible refine keeps_freeCnt (Nat.le_add_right _ _) ?_)

theorem execRehearsalSet_keeps {x0 x1 x2} (e : execRehearsalSet x0 x1 x2 s = .next t) : Keeps s t := by
  unfold execRehearsalSet at e
  have h := Keeps.refl s
  replace e := Host.Outcome.next.inj e
  subst e
  try dsimp only
  repeat' (first | with_reducible assumption | with_reducible apply State.issue_keeps | with_reducible refine keeps_foldl (fun _ _ _ => ?_) ?_ | with_reducible refine keeps_forUpto (fun _ _ _ => ?_) ?_ | split | with_reducible refine keeps_freeCnt (Nat.le_add_right _ _) ?_)

theorem execAttest_keeps {x0 x1} (e : execAttest x0 x1 s = .next t) : Keeps s t := by
  unfold execAttest at e
  have h := Keeps.refl s
  replace e := Host.Outcome.next.inj e
  subst e
  try dsimp only
  repeat' (first | with_reducible assumption | with_reducible apply State.issue_keeps | with_reducible refine keeps_foldl (fun _ _ _ => ?_) ?_ | with_reducible refine keeps_forUpto (fun _ _ _ => ?_) ?_ | split | with_reducible refine keeps_freeCnt (Nat.le_add_right _ _) ?_)

theorem execKeyInstall_keeps {x0 x1 x2} (e : execKeyInstall x0 x1 x2 s = .next t) : Keeps s t := by
  unfold execKeyInstall at e
  have h := Keeps.refl s
  replace e := Host.Outcome.next.inj e
  subst e
  try dsimp only
  repeat' (first | with_reducible assumption | with_reducible apply State.issue_keeps | with_reducible refine keeps_foldl (fun _ _ _ => ?_) ?_ | with_reducible refine keeps_forUpto (fun _ _ _ => ?_) ?_ | split | with_reducible refine keeps_freeCnt (Nat.le_add_right _ _) ?_)

theorem execWeightDecrypt_keeps {x0 x1 x2 x3 x4} (e : execWeightDecrypt x0 x1 x2 x3 x4 s = .next t) : Keeps s t := by
  unfold execWeightDecrypt at e
  have h := Keeps.refl s
  replace e := Host.Outcome.next.inj e
  subst e
  try dsimp only
  repeat' (first | with_reducible assumption | with_reducible apply State.issue_keeps | with_reducible refine keeps_foldl (fun _ _ _ => ?_) ?_ | with_reducible refine keeps_forUpto (fun _ _ _ => ?_) ?_ | split | with_reducible refine keeps_freeCnt (Nat.le_add_right _ _) ?_)

theorem execResetUnit_keeps {x0 x1 x2} (e : execResetUnit x0 x1 x2 s = .next t) : Keeps s t := by
  unfold execResetUnit at e
  have h := Keeps.refl s
  replace e := Host.Outcome.next.inj e
  subst e
  try dsimp only
  repeat' (first | with_reducible assumption | with_reducible apply State.issue_keeps | with_reducible refine keeps_foldl (fun _ _ _ => ?_) ?_ | with_reducible refine keeps_forUpto (fun _ _ _ => ?_) ?_ | split | with_reducible refine keeps_freeCnt (Nat.le_add_right _ _) ?_)

theorem execMapOut_keeps {x0 x1 x2} (e : execMapOut x0 x1 x2 s = .next t) : Keeps s t := by
  unfold execMapOut at e
  have h := Keeps.refl s
  replace e := Host.Outcome.next.inj e
  subst e
  try dsimp only
  repeat' (first | with_reducible assumption | with_reducible apply State.issue_keeps | with_reducible refine keeps_foldl (fun _ _ _ => ?_) ?_ | with_reducible refine keeps_forUpto (fun _ _ _ => ?_) ?_ | split | with_reducible refine keeps_freeCnt (Nat.le_add_right _ _) ?_)

theorem execFallbackRequest_keeps {x0 x1} (e : execFallbackRequest x0 x1 s = .next t) : Keeps s t := by
  unfold execFallbackRequest at e
  have h := Keeps.refl s
  replace e := Host.Outcome.next.inj e
  subst e
  try dsimp only
  repeat' (first | with_reducible assumption | with_reducible apply State.issue_keeps | with_reducible refine keeps_foldl (fun _ _ _ => ?_) ?_ | with_reducible refine keeps_forUpto (fun _ _ _ => ?_) ?_ | split | with_reducible refine keeps_freeCnt (Nat.le_add_right _ _) ?_)

theorem execFallbackClear_keeps {x0} (e : execFallbackClear x0 s = .next t) : Keeps s t := by
  unfold execFallbackClear at e
  have h := Keeps.refl s
  replace e := Host.Outcome.next.inj e
  subst e
  try dsimp only
  repeat' (first | with_reducible assumption | with_reducible apply State.issue_keeps | with_reducible refine keeps_foldl (fun _ _ _ => ?_) ?_ | with_reducible refine keeps_forUpto (fun _ _ _ => ?_) ?_ | split | with_reducible refine keeps_freeCnt (Nat.le_add_right _ _) ?_)

theorem execShutdown_keeps {x0} (e : execShutdown x0 s = .next t) : Keeps s t := by
  unfold execShutdown at e
  have h := Keeps.refl s
  replace e := Host.Outcome.next.inj e
  subst e
  try dsimp only
  repeat' (first | with_reducible assumption | with_reducible apply State.issue_keeps | with_reducible refine keeps_foldl (fun _ _ _ => ?_) ?_ | with_reducible refine keeps_forUpto (fun _ _ _ => ?_) ?_ | split | with_reducible refine keeps_freeCnt (Nat.le_add_right _ _) ?_)

end Sys2Proof.Machine
end

