-- ==== Sys2Proof/Laws/KeepsIngestUnits.lean ====
section
/-! SUPPORT. Every operation of Machine/IngestUnits.lean carries `Keeps` on. -/

namespace Sys2Proof.Machine

set_option linter.unusedTactic false
set_option linter.unreachableTactic false

variable {a s t : State}

theorem State.chooseTag_keeps {x1 x2} (h : Keeps a s) : Keeps a (State.chooseTag s x1 x2).2 := by
  unfold State.chooseTag
  try dsimp only
  repeat' (first | with_reducible assumption | with_reducible apply State.openRequest_keeps | with_reducible refine keeps_foldl (fun _ _ _ => ?_) ?_ | with_reducible refine keeps_forUpto (fun _ _ _ => ?_) ?_ | split | with_reducible refine keeps_freeCnt (Nat.le_add_right _ _) ?_)

theorem State.chooseTag_keepsEq {x1 x2 r} (e : State.chooseTag s x1 x2 = (r, t)) (h : Keeps a s) : Keeps a t := by
  have k := State.chooseTag_keeps (a := a) (x1 := x1) (x2 := x2) h
  rw [e] at k; exact k

theorem State.admitSample_keeps {x1 x2 x3 x4} (h : Keeps a s) : Keeps a (State.admitSample s x1 x2 x3 x4).2 := by
  unfold State.admitSample
  try dsimp only
  repeat' (first | with_reducible assumption | with_reducible apply State.updChan_keeps | with_reducible refine keeps_foldl (fun _ _ _ => ?_) ?_ | with_reducible refine keeps_forUpto (fun _ _ _ => ?_) ?_ | split | with_reducible refine keeps_freeCnt (Nat.le_add_right _ _) ?_)

theorem State.admitSample_keepsEq {x1 x2 x3 x4 r} (e : State.admitSample s x1 x2 x3 x4 = (r, t)) (h : Keeps a s) : Keeps a t := by
  have k := State.admitSample_keeps (a := a) (x1 := x1) (x2 := x2) (x3 := x3) (x4 := x4) h
  rw [e] at k; exact k

theorem State.startSample_keeps {x1 x2 x3 x4 x5 x6} (h : Keeps a s) : Keeps a (State.startSample s x1 x2 x3 x4 x5 x6) := by
  unfold State.startSample
  try dsimp only
  repeat' (first | with_reducible assumption | with_reducible apply State.batchClose_keeps | with_reducible apply State.updChan_keeps | with_reducible apply State.admitSample_keeps | with_reducible refine State.admitSample_keepsEq (by assumption) ?_ | with_reducible refine keeps_foldl (fun _ _ _ => ?_) ?_ | with_reducible refine keeps_forUpto (fun _ _ _ => ?_) ?_ | split | with_reducible refine keeps_freeCnt (Nat.le_add_right _ _) ?_)

theorem State.ingBegin_keeps {x1 x2 x3 x4} (h : Keeps a s) : Keeps a (State.ingBegin s x1 x2 x3 x4) := by
  unfold State.ingBegin
  try dsimp only
  repeat' (first | with_reducible assumption | with_reducible apply State.forwardBegin_keeps | with_reducible apply State.chooseTag_keeps | with_reducible refine State.chooseTag_keepsEq (by assumption) ?_ | with_reducible apply State.forward_keeps | with_reducible apply State.freeWord_keeps | with_reducible refine State.freeWord_keepsEq (by assumption) ?_ | with_reducible apply State.startSample_keeps | with_reducible apply State.updChan_keeps | with_reducible refine keeps_foldl (fun _ _ _ => ?_) ?_ | with_reducible refine keeps_forUpto (fun _ _ _ => ?_) ?_ | split | with_reducible refine keeps_freeCnt (Nat.le_add_right _ _) ?_)

theorem State.ingAct_keeps {x1 x2 x3 x4 x5} (h : Keeps a s) : Keeps a (State.ingAct s x1 x2 x3 x4 x5) := by
  unfold State.ingAct
  try dsimp only
  repeat' (first | with_reducible assumption | with_reducible apply State.updChan_keeps | with_reducible apply State.ingBegin_keeps | with_reducible refine keeps_foldl (fun _ _ _ => ?_) ?_ | with_reducible refine keeps_forUpto (fun _ _ _ => ?_) ?_ | split | with_reducible refine keeps_freeCnt (Nat.le_add_right _ _) ?_)

theorem State.ingRun_keeps {b ch c l u} : ∀ (n : Nat) {s : State}, Keeps a s → Keeps a (State.ingRun b ch c l u n s)
  | 0, s, h => by
    unfold State.ingRun
    exact State.updChan_keeps h
  | n + 1, s, h => by
    unfold State.ingRun
    split
    · exact h
    · extract_lets m s1 s2
      have h1 : Keeps a s1 := by
        dsimp only [s1]
        split
        · exact State.ingAct_keeps h
        · exact h
      clear_value s1
      have h2 : Keeps a s2 := State.updChan_keeps h1
      clear_value s2
      split
      · split
        · exact h2
        · exact State.ingRun_keeps n h2
      · split
        · exact h2
        · exact State.ingRun_keeps n h2

theorem State.chanUnit_keeps {x1 x2 x3 x4 x5} (h : Keeps a s) : Keeps a (State.chanUnit s x1 x2 x3 x4 x5) := by
  unfold State.chanUnit
  try dsimp only
  repeat' (first | with_reducible assumption | with_reducible apply State.ingRun_keeps | with_reducible apply State.updChan_keeps | with_reducible refine keeps_foldl (fun _ _ _ => ?_) ?_ | with_reducible refine keeps_forUpto (fun _ _ _ => ?_) ?_ | split | with_reducible refine keeps_freeCnt (Nat.le_add_right _ _) ?_)

theorem State.chanHdr_keeps {x1 x2} (h : Keeps a s) : Keeps a (State.chanHdr s x1 x2) := by
  unfold State.chanHdr
  try dsimp only
  repeat' (first | with_reducible assumption | with_reducible apply State.updChan_keeps | with_reducible refine keeps_foldl (fun _ _ _ => ?_) ?_ | with_reducible refine keeps_forUpto (fun _ _ _ => ?_) ?_ | split | with_reducible refine keeps_freeCnt (Nat.le_add_right _ _) ?_)

theorem State.offerUnit_keeps {x1 x2} (h : Keeps a s) : Keeps a (State.offerUnit s x1 x2) := by
  unfold State.offerUnit
  try dsimp only
  repeat' (first | with_reducible assumption | with_reducible apply State.chanUnit_keeps | with_reducible apply State.chanHdr_keeps | with_reducible apply State.updStream_keeps | with_reducible apply State.forward_keeps | with_reducible refine keeps_foldl (fun _ _ _ => ?_) ?_ | with_reducible refine keeps_forUpto (fun _ _ _ => ?_) ?_ | split | with_reducible refine keeps_freeCnt (Nat.le_add_right _ _) ?_)

theorem State.takeUnit_keepsSome {x1 x2} (e : State.takeUnit s x1 x2 = some t) (h : Keeps a s) : Keeps a t := by
  unfold State.takeUnit at e
  split at e
  · dsimp only at e
    split at e
    · cases e
    · obtain ⟨f, _, e⟩ := Option.map_eq_some_iff.mp e
      subst e
      exact keeps_mapSw h
  · split at e
    · cases e; exact h
    · cases e

theorem State.fwdUnit_keeps {x1 x2 x3} (h : Keeps a s) : Keeps a (State.fwdUnit s x1 x2 x3) := by
  unfold State.fwdUnit
  try dsimp only
  repeat' (first | with_reducible assumption | with_reducible apply State.chanUnit_keeps | with_reducible apply State.chanHdr_keeps | with_reducible refine keeps_foldl (fun _ _ _ => ?_) ?_ | with_reducible refine keeps_forUpto (fun _ _ _ => ?_) ?_ | split | with_reducible refine keeps_freeCnt (Nat.le_add_right _ _) ?_)

theorem State.fwdBegin_keeps {x1 x2 x3 x4} (h : Keeps a s) : Keeps a (State.fwdBegin s x1 x2 x3 x4) := by
  unfold State.fwdBegin
  try dsimp only
  repeat' (first | with_reducible assumption | with_reducible apply State.send_keeps | with_reducible apply State.chooseTag_keeps | with_reducible refine State.chooseTag_keepsEq (by assumption) ?_ | with_reducible apply State.updChan_keeps | with_reducible refine keeps_foldl (fun _ _ _ => ?_) ?_ | with_reducible refine keeps_forUpto (fun _ _ _ => ?_) ?_ | split | with_reducible refine keeps_freeCnt (Nat.le_add_right _ _) ?_)

theorem State.fwdClose_keeps {x1 x2 x3 x4} (h : Keeps a s) : Keeps a (State.fwdClose s x1 x2 x3 x4) := by
  unfold State.fwdClose
  try dsimp only
  repeat' (first | with_reducible assumption | with_reducible apply State.beginClose_keeps | with_reducible refine keeps_foldl (fun _ _ _ => ?_) ?_ | with_reducible refine keeps_forUpto (fun _ _ _ => ?_) ?_ | split | with_reducible refine keeps_freeCnt (Nat.le_add_right _ _) ?_)

theorem State.tagged_keeps {x1 x2 x3} (h : Keeps a s) : Keeps a (State.tagged s x1 x2 x3) := by
  unfold State.tagged
  try dsimp only
  repeat' (first | with_reducible assumption | with_reducible apply State.batchClose_keeps | with_reducible apply State.updChan_keeps | with_reducible apply State.admitSample_keeps | with_reducible refine State.admitSample_keepsEq (by assumption) ?_ | with_reducible refine keeps_foldl (fun _ _ _ => ?_) ?_ | with_reducible refine keeps_forUpto (fun _ _ _ => ?_) ?_ | split | with_reducible refine keeps_freeCnt (Nat.le_add_right _ _) ?_)

theorem execIngestUnit_keeps {x0 x1} (e : execIngestUnit x0 x1 s = .next t) : Keeps s t := by
  unfold execIngestUnit at e
  replace e := Host.Outcome.next.inj e
  subst e
  split
  · rename_i hu
    exact State.settle_keeps (State.offerUnit_keeps (State.takeUnit_keepsSome hu (Keeps.refl s)))
  · exact Keeps.refl s

theorem execCpLinkDown_keeps {x0} (e : execCpLinkDown x0 s = .next t) : Keeps s t := by
  unfold execCpLinkDown at e
  have h := Keeps.refl s
  replace e := Host.Outcome.next.inj e
  subst e
  try dsimp only
  repeat' (first | with_reducible assumption | with_reducible apply keeps_mapIng | with_reducible refine keeps_foldl (fun _ _ _ => ?_) ?_ | with_reducible refine keeps_forUpto (fun _ _ _ => ?_) ?_ | split | with_reducible refine keeps_freeCnt (Nat.le_add_right _ _) ?_)

theorem execCpLinkUp_keeps {x0} (e : execCpLinkUp x0 s = .next t) : Keeps s t := by
  unfold execCpLinkUp at e
  have h := Keeps.refl s
  replace e := Host.Outcome.next.inj e
  subst e
  try dsimp only
  repeat' (first | with_reducible assumption | with_reducible apply keeps_mapIng | with_reducible refine keeps_foldl (fun _ _ _ => ?_) ?_ | with_reducible refine keeps_forUpto (fun _ _ _ => ?_) ?_ | split | with_reducible refine keeps_freeCnt (Nat.le_add_right _ _) ?_)

end Sys2Proof.Machine
end

