-- ==== Sys2Proof/Laws/KeepsIsland.lean ====
section
/-! SUPPORT. Every operation of Machine/Island.lean carries `Keeps` on. -/

namespace Sys2Proof.Machine

set_option linter.unusedTactic false
set_option linter.unreachableTactic false

variable {a s t : State}

theorem State.coldReset_keeps (h : Keeps a s) : Keeps a (State.coldReset s) :=
  { pending := h.pending, free := h.free, mem := fun _ => rfl, roots := h.roots, revoke := h.revoke, rollback := h.rollback,
    lock := h.lock, dieId := h.dieId, cap := h.cap, serial := h.serial, recs := fun _ => Nat.zero_le _ }

theorem State.safeState_keeps (h : Keeps a s) : Keeps a (State.safeState s) :=
  { pending := h.pending, free := h.free, mem := fun _ => rfl, roots := h.roots, revoke := h.revoke, rollback := h.rollback,
    lock := h.lock, dieId := h.dieId, cap := h.cap, serial := h.serial, recs := fun _ => Nat.zero_le _ }

theorem State.faultA_keeps (h : Keeps a s) : Keeps a (State.faultA s) := by
  unfold State.faultA
  try dsimp only
  repeat' (first | with_reducible assumption | with_reducible apply keeps_mapHwa | with_reducible apply keeps_mapHwb | with_reducible apply State.fault_keeps | with_reducible apply State.freeWord_keeps | with_reducible refine State.freeWord_keepsEq (by assumption) ?_ | with_reducible refine keeps_foldl (fun _ _ _ => ?_) ?_ | with_reducible refine keeps_forUpto (fun _ _ _ => ?_) ?_ | split | with_reducible refine keeps_freeCnt (Nat.le_add_right _ _) ?_)

theorem State.lockstepFault_keeps {x1} (h : Keeps a s) : Keeps a (State.lockstepFault s x1) := by
  unfold State.lockstepFault
  try dsimp only
  repeat' (first | with_reducible assumption | with_reducible apply State.faultA_keeps | with_reducible apply State.safeState_keeps | with_reducible refine keeps_foldl (fun _ _ _ => ?_) ?_ | with_reducible refine keeps_forUpto (fun _ _ _ => ?_) ?_ | split | with_reducible refine keeps_freeCnt (Nat.le_add_right _ _) ?_)

theorem State.setHeld_keeps {x1 x2} (h : Keeps a s) : Keeps a (State.setHeld s x1 x2) := by
  unfold State.setHeld
  try dsimp only
  repeat' (first | with_reducible assumption | with_reducible apply keeps_mapHwa | with_reducible apply keeps_mapHwb | with_reducible refine keeps_foldl (fun _ _ _ => ?_) ?_ | with_reducible refine keeps_forUpto (fun _ _ _ => ?_) ?_ | split | with_reducible refine keeps_freeCnt (Nat.le_add_right _ _) ?_)

theorem State.sramStore_keeps {x1 x2} (h : Keeps a s) : Keeps a (State.sramStore s x1 x2) := by
  unfold State.sramStore
  try dsimp only
  repeat' (first | with_reducible assumption | with_reducible apply keeps_mapHwa | with_reducible apply keeps_mapHwb | with_reducible refine keeps_foldl (fun _ _ _ => ?_) ?_ | with_reducible refine keeps_forUpto (fun _ _ _ => ?_) ?_ | split | with_reducible refine keeps_freeCnt (Nat.le_add_right _ _) ?_)

theorem State.hbHand_keeps {x1} (h : Keeps a s) : Keeps a (State.hbHand s x1) := by
  unfold State.hbHand
  try dsimp only
  repeat' (first | with_reducible assumption | with_reducible apply State.hwaSend_keeps | with_reducible refine keeps_foldl (fun _ _ _ => ?_) ?_ | with_reducible refine keeps_forUpto (fun _ _ _ => ?_) ?_ | split | with_reducible refine keeps_freeCnt (Nat.le_add_right _ _) ?_)

theorem State.hbDrop_keeps (h : Keeps a s) : Keeps a (State.hbDrop s) := by
  unfold State.hbDrop
  try dsimp only
  repeat' (first | with_reducible assumption | with_reducible apply keeps_mapHwa | with_reducible refine keeps_foldl (fun _ _ _ => ?_) ?_ | with_reducible refine keeps_forUpto (fun _ _ _ => ?_) ?_ | split | with_reducible refine keeps_freeCnt (Nat.le_add_right _ _) ?_)

theorem State.judgeChallenge_keeps {x1 x2 x3} (h : Keeps a s) : Keeps a (State.judgeChallenge s x1 x2 x3) := by
  unfold State.judgeChallenge
  try dsimp only
  repeat' (first | with_reducible assumption | with_reducible apply keeps_mapHwa | with_reducible apply State.hbHand_keeps | with_reducible apply State.hbDrop_keeps | with_reducible refine keeps_foldl (fun _ _ _ => ?_) ?_ | with_reducible refine keeps_forUpto (fun _ _ _ => ?_) ?_ | split | with_reducible refine keeps_freeCnt (Nat.le_add_right _ _) ?_)

theorem State.exchRelease_keeps {x1} (h : Keeps a s) : Keeps a (State.exchRelease s x1) := by
  unfold State.exchRelease
  try dsimp only
  repeat' (first | with_reducible assumption | with_reducible apply keeps_mapHwa | with_reducible refine keeps_foldl (fun _ _ _ => ?_) ?_ | with_reducible refine keeps_forUpto (fun _ _ _ => ?_) ?_ | split | with_reducible refine keeps_freeCnt (Nat.le_add_right _ _) ?_)

theorem State.exchTake_keeps {x1} (h : Keeps a s) : Keeps a (State.exchTake s x1) := by
  unfold State.exchTake
  try dsimp only
  repeat' (first | with_reducible assumption | with_reducible apply State.judgeChallenge_keeps | with_reducible apply keeps_mapHwa | with_reducible refine keeps_foldl (fun _ _ _ => ?_) ?_ | with_reducible refine keeps_forUpto (fun _ _ _ => ?_) ?_ | split | with_reducible refine keeps_freeCnt (Nat.le_add_right _ _) ?_)

theorem State.exchPoll_keeps {x1} (h : Keeps a s) : Keeps a (State.exchPoll s x1) := by
  unfold State.exchPoll
  try dsimp only
  repeat' (first | with_reducible assumption | with_reducible apply keeps_mapHwa | with_reducible apply State.exchTake_keeps | with_reducible refine keeps_foldl (fun _ _ _ => ?_) ?_ | with_reducible refine keeps_forUpto (fun _ _ _ => ?_) ?_ | split | with_reducible refine keeps_freeCnt (Nat.le_add_right _ _) ?_)

theorem State.challenge_keeps {x1 x2 x3} (h : Keeps a s) : Keeps a (State.challenge s x1 x2 x3) := by
  unfold State.challenge
  try dsimp only
  repeat' (first | with_reducible assumption | with_reducible apply State.exchRelease_keeps | with_reducible apply State.judgeChallenge_keeps | with_reducible apply State.hbDrop_keeps | with_reducible apply keeps_mapSw | with_reducible refine keeps_foldl (fun _ _ _ => ?_) ?_ | with_reducible refine keeps_forUpto (fun _ _ _ => ?_) ?_ | split | with_reducible refine keeps_freeCnt (Nat.le_add_right _ _) ?_)

theorem State.lockstepLate_keeps {x1} (h : Keeps a s) : Keeps a (State.lockstepLate s x1) := by
  unfold State.lockstepLate
  try dsimp only
  repeat' (first | with_reducible assumption | with_reducible apply State.lockstepFault_keeps | with_reducible refine keeps_foldl (fun _ _ _ => ?_) ?_ | with_reducible refine keeps_forUpto (fun _ _ _ => ?_) ?_ | split | with_reducible refine keeps_freeCnt (Nat.le_add_right _ _) ?_)

theorem State.aliveCheck_keeps {x1 x2} (h : Keeps a s) : Keeps a (State.aliveCheck s x1 x2) := by
  unfold State.aliveCheck
  try dsimp only
  repeat' (first | with_reducible assumption | with_reducible apply State.lockstepFault_keeps | with_reducible apply keeps_mapHwa | with_reducible apply keeps_mapHwb | with_reducible refine keeps_foldl (fun _ _ _ => ?_) ?_ | with_reducible refine keeps_forUpto (fun _ _ _ => ?_) ?_ | split | with_reducible refine keeps_freeCnt (Nat.le_add_right _ _) ?_)

theorem State.sentrySend_keeps (h : Keeps a s) : Keeps a (State.sentrySend s) := by
  unfold State.sentrySend
  try dsimp only
  repeat' (first | with_reducible assumption | with_reducible apply keeps_mapHwa | with_reducible apply keeps_mapHwb | with_reducible refine keeps_foldl (fun _ _ _ => ?_) ?_ | with_reducible refine keeps_forUpto (fun _ _ _ => ?_) ?_ | split | with_reducible refine keeps_freeCnt (Nat.le_add_right _ _) ?_)

theorem State.sentryRecv_keeps {x1 x2 x3 x4} (h : Keeps a s) : Keeps a (State.sentryRecv s x1 x2 x3 x4) := by
  unfold State.sentryRecv
  try dsimp only
  repeat' (first | with_reducible assumption | with_reducible apply keeps_mapHwb | with_reducible apply keeps_mapPins | with_reducible apply State.safeState_keeps | with_reducible refine keeps_foldl (fun _ _ _ => ?_) ?_ | with_reducible refine keeps_forUpto (fun _ _ _ => ?_) ?_ | split | with_reducible refine keeps_freeCnt (Nat.le_add_right _ _) ?_)

theorem State.sentryLate_keeps (h : Keeps a s) : Keeps a (State.sentryLate s) := by
  unfold State.sentryLate
  try dsimp only
  repeat' (first | with_reducible assumption | with_reducible apply State.safeState_keeps | with_reducible refine keeps_foldl (fun _ _ _ => ?_) ?_ | with_reducible refine keeps_forUpto (fun _ _ _ => ?_) ?_ | split | with_reducible refine keeps_freeCnt (Nat.le_add_right _ _) ?_)

theorem State.railBad_keeps (h : Keeps a s) : Keeps a (State.railBad s) := by
  unfold State.railBad
  try dsimp only
  repeat' (first | with_reducible assumption | with_reducible apply State.safeState_keeps | with_reducible refine keeps_foldl (fun _ _ _ => ?_) ?_ | with_reducible refine keeps_forUpto (fun _ _ _ => ?_) ?_ | split | with_reducible refine keeps_freeCnt (Nat.le_add_right _ _) ?_)

theorem State.stageEvent_keeps {x1 x2 x3} (h : Keeps a s) : Keeps a (State.stageEvent s x1 x2 x3) := by
  unfold State.stageEvent
  try dsimp only
  repeat' (first | with_reducible assumption | with_reducible apply keeps_mapHwa | with_reducible apply State.tryDigest_keeps | with_reducible apply State.updEp_keeps | with_reducible apply State.updWdgStage_keeps | with_reducible refine keeps_foldl (fun _ _ _ => ?_) ?_ | with_reducible refine keeps_forUpto (fun _ _ _ => ?_) ?_ | split | with_reducible refine keeps_freeCnt (Nat.le_add_right _ _) ?_)

theorem State.goldDueNow_keeps {x1} (h : Keeps a s) : Keeps a (State.goldDueNow s x1) := by
  unfold State.goldDueNow
  try dsimp only
  repeat' (first | with_reducible assumption | with_reducible apply State.updGold_keeps | with_reducible apply State.pullGold_keeps | with_reducible apply State.updEng_keeps | with_reducible refine keeps_foldl (fun _ _ _ => ?_) ?_ | with_reducible refine keeps_forUpto (fun _ _ _ => ?_) ?_ | split | with_reducible refine keeps_freeCnt (Nat.le_add_right _ _) ?_)

theorem State.goldCompare_keeps {x1} (h : Keeps a s) : Keeps a (State.goldCompare s x1) := by
  unfold State.goldCompare
  try dsimp only
  repeat' (first | with_reducible assumption | with_reducible apply keeps_mapHwa | with_reducible apply State.tryDigest_keeps | with_reducible apply State.goldFails_keeps | with_reducible apply State.goldPasses_keeps | with_reducible refine keeps_foldl (fun _ _ _ => ?_) ?_ | with_reducible refine keeps_forUpto (fun _ _ _ => ?_) ?_ | split | with_reducible refine keeps_freeCnt (Nat.le_add_right _ _) ?_)

theorem execLockstepTimeout_keeps {x0} (e : execLockstepTimeout x0 s = .next t) : Keeps s t := by
  unfold execLockstepTimeout at e
  have h := Keeps.refl s
  replace e := Host.Outcome.next.inj e
  subst e
  try dsimp only
  repeat' (first | with_reducible assumption | with_reducible apply State.lockstepLate_keeps | with_reducible refine keeps_foldl (fun _ _ _ => ?_) ?_ | with_reducible refine keeps_forUpto (fun _ _ _ => ?_) ?_ | split | with_reducible refine keeps_freeCnt (Nat.le_add_right _ _) ?_)

theorem execExchangeInputRelease_keeps {x0} (e : execExchangeInputRelease x0 s = .next t) : Keeps s t := by
  unfold execExchangeInputRelease at e
  have h := Keeps.refl s
  replace e := Host.Outcome.next.inj e
  subst e
  try dsimp only
  repeat' (first | with_reducible assumption | with_reducible apply State.exchRelease_keeps | with_reducible refine keeps_foldl (fun _ _ _ => ?_) ?_ | with_reducible refine keeps_forUpto (fun _ _ _ => ?_) ?_ | split | with_reducible refine keeps_freeCnt (Nat.le_add_right _ _) ?_)

theorem execExchangePoll_keeps {x0} (e : execExchangePoll x0 s = .next t) : Keeps s t := by
  unfold execExchangePoll at e
  have h := Keeps.refl s
  replace e := Host.Outcome.next.inj e
  subst e
  try dsimp only
  repeat' (first | with_reducible assumption | with_reducible apply State.exchPoll_keeps | with_reducible refine keeps_foldl (fun _ _ _ => ?_) ?_ | with_reducible refine keeps_forUpto (fun _ _ _ => ?_) ?_ | split | with_reducible refine keeps_freeCnt (Nat.le_add_right _ _) ?_)

theorem execSplitAliveCheck_keeps {x0 x1} (e : execSplitAliveCheck x0 x1 s = .next t) : Keeps s t := by
  unfold execSplitAliveCheck at e
  have h := Keeps.refl s
  replace e := Host.Outcome.next.inj e
  subst e
  try dsimp only
  repeat' (first | with_reducible assumption | with_reducible apply State.aliveCheck_keeps | with_reducible refine keeps_foldl (fun _ _ _ => ?_) ?_ | with_reducible refine keeps_forUpto (fun _ _ _ => ?_) ?_ | split | with_reducible refine keeps_freeCnt (Nat.le_add_right _ _) ?_)

theorem execSentryMessageSend_keeps (e : execSentryMessageSend s = .next t) : Keeps s t := by
  unfold execSentryMessageSend at e
  have h := Keeps.refl s
  replace e := Host.Outcome.next.inj e
  subst e
  try dsimp only
  repeat' (first | with_reducible assumption | with_reducible apply State.sentrySend_keeps | with_reducible refine keeps_foldl (fun _ _ _ => ?_) ?_ | with_reducible refine keeps_forUpto (fun _ _ _ => ?_) ?_ | split | with_reducible refine keeps_freeCnt (Nat.le_add_right _ _) ?_)

theorem execSentryMessage_keeps {x0 x1 x2 x3} (e : execSentryMessage x0 x1 x2 x3 s = .next t) : Keeps s t := by
  unfold execSentryMessage at e
  have h := Keeps.refl s
  replace e := Host.Outcome.next.inj e
  subst e
  try dsimp only
  repeat' (first | with_reducible assumption | with_reducible apply State.sentryRecv_keeps | with_reducible refine keeps_foldl (fun _ _ _ => ?_) ?_ | with_reducible refine keeps_forUpto (fun _ _ _ => ?_) ?_ | split | with_reducible refine keeps_freeCnt (Nat.le_add_right _ _) ?_)

theorem execSentryWindowExpiry_keeps (e : execSentryWindowExpiry s = .next t) : Keeps s t := by
  unfold execSentryWindowExpiry at e
  have h := Keeps.refl s
  replace e := Host.Outcome.next.inj e
  subst e
  try dsimp only
  repeat' (first | with_reducible assumption | with_reducible apply State.sentryLate_keeps | with_reducible refine keeps_foldl (fun _ _ _ => ?_) ?_ | with_reducible refine keeps_forUpto (fun _ _ _ => ?_) ?_ | split | with_reducible refine keeps_freeCnt (Nat.le_add_right _ _) ?_)

theorem execRailFault_keeps {x0} (e : execRailFault x0 s = .next t) : Keeps s t := by
  unfold execRailFault at e
  have h := Keeps.refl s
  replace e := Host.Outcome.next.inj e
  subst e
  try dsimp only
  repeat' (first | with_reducible assumption | with_reducible apply State.railBad_keeps | with_reducible refine keeps_foldl (fun _ _ _ => ?_) ?_ | with_reducible refine keeps_forUpto (fun _ _ _ => ?_) ?_ | split | with_reducible refine keeps_freeCnt (Nat.le_add_right _ _) ?_)

theorem execStageEvent_keeps {x0 x1 x2} (e : execStageEvent x0 x1 x2 s = .next t) : Keeps s t := by
  unfold execStageEvent at e
  have h := Keeps.refl s
  replace e := Host.Outcome.next.inj e
  subst e
  try dsimp only
  repeat' (first | with_reducible assumption | with_reducible apply State.stageEvent_keeps | with_reducible apply State.settle_keeps | with_reducible refine keeps_foldl (fun _ _ _ => ?_) ?_ | with_reducible refine keeps_forUpto (fun _ _ _ => ?_) ?_ | split | with_reducible refine keeps_freeCnt (Nat.le_add_right _ _) ?_)

theorem execGoldenDueExpiry_keeps {x0} (e : execGoldenDueExpiry x0 s = .next t) : Keeps s t := by
  unfold execGoldenDueExpiry at e
  have h := Keeps.refl s
  replace e := Host.Outcome.next.inj e
  subst e
  try dsimp only
  repeat' (first | with_reducible assumption | with_reducible apply State.goldDueNow_keeps | with_reducible refine keeps_foldl (fun _ _ _ => ?_) ?_ | with_reducible refine keeps_forUpto (fun _ _ _ => ?_) ?_ | split | with_reducible refine keeps_freeCnt (Nat.le_add_right _ _) ?_)

theorem execGoldenCompare_keeps {x0} (e : execGoldenCompare x0 s = .next t) : Keeps s t := by
  unfold execGoldenCompare at e
  have h := Keeps.refl s
  replace e := Host.Outcome.next.inj e
  subst e
  try dsimp only
  repeat' (first | with_reducible assumption | with_reducible apply State.goldCompare_keeps | with_reducible apply State.settle_keeps | with_reducible refine keeps_foldl (fun _ _ _ => ?_) ?_ | with_reducible refine keeps_forUpto (fun _ _ _ => ?_) ?_ | split | with_reducible refine keeps_freeCnt (Nat.le_add_right _ _) ?_)

theorem execHbChallenge_keeps {x0 x1 x2} (e : execHbChallenge x0 x1 x2 s = .next t) : Keeps s t := by
  unfold execHbChallenge at e
  have h := Keeps.refl s
  replace e := Host.Outcome.next.inj e
  subst e
  try dsimp only
  repeat' (first | with_reducible assumption | with_reducible apply State.challenge_keeps | with_reducible refine keeps_foldl (fun _ _ _ => ?_) ?_ | with_reducible refine keeps_forUpto (fun _ _ _ => ?_) ?_ | split | with_reducible refine keeps_freeCnt (Nat.le_add_right _ _) ?_)

end Sys2Proof.Machine
end

