-- ==== Sys2Proof/Laws/KeepsThermal.lean ====
section
/-! SUPPORT. Every operation of Machine/Thermal.lean carries `Keeps` on. -/

namespace Sys2Proof.Machine

set_option linter.unusedTactic false
set_option linter.unreachableTactic false

variable {a s t : State}

theorem State.ran_keeps {x1 x2} (h : Keeps a s) : Keeps a (State.ran s x1 x2) := by
  unfold State.ran
  try dsimp only
  repeat' (first | with_reducible assumption | with_reducible apply keeps_mapThm | with_reducible refine keeps_foldl (fun _ _ _ => ?_) ?_ | with_reducible refine keeps_forUpto (fun _ _ _ => ?_) ?_ | split | with_reducible refine keeps_freeCnt (Nat.le_add_right _ _) ?_)

theorem State.coolSample_keeps {x1 x2} (h : Keeps a s) : Keeps a (State.coolSample s x1 x2) := by
  unfold State.coolSample
  try dsimp only
  repeat' (first | with_reducible assumption | with_reducible apply State.ran_keeps | with_reducible apply keeps_mapCool | with_reducible refine keeps_foldl (fun _ _ _ => ?_) ?_ | with_reducible refine keeps_forUpto (fun _ _ _ => ?_) ?_ | split | with_reducible refine keeps_freeCnt (Nat.le_add_right _ _) ?_)

theorem State.flowEdge_keeps {x1} (h : Keeps a s) : Keeps a (State.flowEdge s x1) := by
  unfold State.flowEdge
  try dsimp only
  repeat' (first | with_reducible assumption | with_reducible apply keeps_mapCool | with_reducible refine keeps_foldl (fun _ _ _ => ?_) ?_ | with_reducible refine keeps_forUpto (fun _ _ _ => ?_) ?_ | split | with_reducible refine keeps_freeCnt (Nat.le_add_right _ _) ?_)

theorem State.dropWarm_keeps (h : Keeps a s) : Keeps a (State.dropWarm s) := by
  unfold State.dropWarm
  try dsimp only
  repeat' (first | with_reducible assumption | with_reducible apply State.updEng_keeps | with_reducible refine keeps_foldl (fun _ _ _ => ?_) ?_ | with_reducible refine keeps_forUpto (fun _ _ _ => ?_) ?_ | split | with_reducible refine keeps_freeCnt (Nat.le_add_right _ _) ?_)

theorem State.coolLossOn_keeps (h : Keeps a s) : Keeps a (State.coolLossOn s) := by
  unfold State.coolLossOn
  try dsimp only
  repeat' (first | with_reducible assumption | with_reducible apply State.leavePair_keeps | with_reducible apply State.applyLevel_keeps | with_reducible apply State.updOpc_keeps | with_reducible apply State.dropWarm_keeps | with_reducible apply keeps_mapThm | with_reducible refine keeps_foldl (fun _ _ _ => ?_) ?_ | with_reducible refine keeps_forUpto (fun _ _ _ => ?_) ?_ | split | with_reducible refine keeps_freeCnt (Nat.le_add_right _ _) ?_)

theorem State.flowJudge_keeps (h : Keeps a s) : Keeps a (State.flowJudge s) := by
  unfold State.flowJudge
  try dsimp only
  repeat' (first | with_reducible assumption | with_reducible apply State.coolLossOn_keeps | with_reducible apply keeps_mapThm | with_reducible refine keeps_foldl (fun _ _ _ => ?_) ?_ | with_reducible refine keeps_forUpto (fun _ _ _ => ?_) ?_ | split | with_reducible refine keeps_freeCnt (Nat.le_add_right _ _) ?_)

theorem State.flowTick_keeps (h : Keeps a s) : Keeps a (State.flowTick s) := by
  unfold State.flowTick
  try dsimp only
  repeat' (first | with_reducible assumption | with_reducible apply State.flowJudge_keeps | with_reducible apply keeps_mapCool | with_reducible refine keeps_foldl (fun _ _ _ => ?_) ?_ | with_reducible refine keeps_forUpto (fun _ _ _ => ?_) ?_ | split | with_reducible refine keeps_freeCnt (Nat.le_add_right _ _) ?_)

theorem State.hardLimit_keeps {x1 x2} (h : Keeps a s) : Keeps a (State.hardLimit s x1 x2) := by
  unfold State.hardLimit
  try dsimp only
  repeat' (first | with_reducible assumption | with_reducible apply State.fault_keeps | with_reducible apply State.shutdown_keeps | with_reducible refine keeps_foldl (fun _ _ _ => ?_) ?_ | with_reducible refine keeps_forUpto (fun _ _ _ => ?_) ?_ | split | with_reducible refine keeps_freeCnt (Nat.le_add_right _ _) ?_)

theorem State.sampleDie_keeps {x1 x2} (h : Keeps a s) : Keeps a (State.sampleDie s x1 x2) := by
  unfold State.sampleDie
  try dsimp only
  repeat' (first | with_reducible assumption | with_reducible apply State.faultOpen_keeps | with_reducible apply State.fenceDie_keeps | with_reducible apply State.hardLimit_keeps | with_reducible apply State.updOpc_keeps | with_reducible apply State.ran_keeps | with_reducible refine keeps_foldl (fun _ _ _ => ?_) ?_ | with_reducible refine keeps_forUpto (fun _ _ _ => ?_) ?_ | split | with_reducible refine keeps_freeCnt (Nat.le_add_right _ _) ?_)

theorem State.sample_keeps {x1 x2} (h : Keeps a s) : Keeps a (State.sample s x1 x2) := by
  unfold State.sample
  try dsimp only
  repeat' (first | with_reducible assumption | with_reducible apply State.safeState_keeps | with_reducible apply State.hardLimit_keeps | with_reducible apply State.ran_keeps | with_reducible apply keeps_mapThm | with_reducible apply State.sampleDie_keeps | with_reducible refine keeps_foldl (fun _ _ _ => ?_) ?_ | with_reducible refine keeps_forUpto (fun _ _ _ => ?_) ?_ | split | with_reducible refine keeps_freeCnt (Nat.le_add_right _ _) ?_)

theorem State.evalDie_keeps {x1} (h : Keeps a s) : Keeps a (State.evalDie s x1) := by
  unfold State.evalDie
  try dsimp only
  repeat' (first | with_reducible assumption | with_reducible apply State.updGrnDie_keeps | with_reducible apply State.updOpc_keeps | with_reducible refine keeps_foldl (fun _ _ _ => ?_) ?_ | with_reducible refine keeps_forUpto (fun _ _ _ => ?_) ?_ | split | with_reducible refine keeps_freeCnt (Nat.le_add_right _ _) ?_)

theorem State.evalStack_keeps {x1 x2} (h : Keeps a s) : Keeps a (State.evalStack s x1 x2) := by
  unfold State.evalStack
  try dsimp only
  repeat' (first | with_reducible assumption | with_reducible apply State.hardLimit_keeps | with_reducible apply State.updOpc_keeps | with_reducible apply State.setShares_keeps | with_reducible apply State.updHmc_keeps | with_reducible refine keeps_foldl (fun _ _ _ => ?_) ?_ | with_reducible refine keeps_forUpto (fun _ _ _ => ?_) ?_ | split | with_reducible refine keeps_freeCnt (Nat.le_add_right _ _) ?_)

theorem State.evaluate_keeps {x1 x2} (h : Keeps a s) : Keeps a (State.evaluate s x1 x2) := by
  unfold State.evaluate
  try dsimp only
  repeat' (first | with_reducible assumption | with_reducible apply State.evalStack_keeps | with_reducible apply State.pumpEval_keeps | with_reducible apply State.warmEval_keeps | with_reducible apply State.placeWarm_keeps | with_reducible apply State.applyLevel_keeps | with_reducible apply State.evalDie_keeps | with_reducible apply State.ran_keeps | with_reducible apply keeps_mapThm | with_reducible refine keeps_foldl (fun _ _ _ => ?_) ?_ | with_reducible refine keeps_forUpto (fun _ _ _ => ?_) ?_ | split | with_reducible refine keeps_freeCnt (Nat.le_add_right _ _) ?_)

theorem State.avsDone_keeps {x1} (h : Keeps a s) : Keeps a (State.avsDone s x1) := by
  unfold State.avsDone
  try dsimp only
  repeat' (first | with_reducible assumption | with_reducible apply State.updOpc_keeps | with_reducible refine keeps_foldl (fun _ _ _ => ?_) ?_ | with_reducible refine keeps_forUpto (fun _ _ _ => ?_) ?_ | split | with_reducible refine keeps_freeCnt (Nat.le_add_right _ _) ?_)

theorem State.rateWindow_keeps {x1 x2} (h : Keeps a s) : Keeps a (State.rateWindow s x1 x2) := by
  unfold State.rateWindow
  try dsimp only
  repeat' (first | with_reducible assumption | with_reducible apply State.writeVolt_keeps | with_reducible apply State.updOpc_keeps | with_reducible apply State.ran_keeps | with_reducible refine keeps_foldl (fun _ _ _ => ?_) ?_ | with_reducible refine keeps_forUpto (fun _ _ _ => ?_) ?_ | split | with_reducible refine keeps_freeCnt (Nat.le_add_right _ _) ?_)

theorem State.telemetry_keeps {x1 x2} (h : Keeps a s) : Keeps a (State.telemetry s x1 x2) := by
  unfold State.telemetry
  try dsimp only
  repeat' (first | with_reducible assumption | with_reducible apply State.updOpc_keeps | with_reducible apply keeps_mapThm | with_reducible apply State.ran_keeps | with_reducible refine keeps_foldl (fun _ _ _ => ?_) ?_ | with_reducible refine keeps_forUpto (fun _ _ _ => ?_) ?_ | split | with_reducible refine keeps_freeCnt (Nat.le_add_right _ _) ?_)

theorem State.setRef_keeps {x1 x2} (h : Keeps a s) : Keeps a (State.setRef s x1 x2) := by
  unfold State.setRef
  try dsimp only
  repeat' (first | with_reducible assumption | with_reducible apply keeps_mapFlt | with_reducible refine keeps_foldl (fun _ _ _ => ?_) ?_ | with_reducible refine keeps_forUpto (fun _ _ _ => ?_) ?_ | split | with_reducible refine keeps_freeCnt (Nat.le_add_right _ _) ?_)

theorem State.refLoss_keeps {x1} (h : Keeps a s) : Keeps a (State.refLoss s x1) := by
  unfold State.refLoss
  try dsimp only
  repeat' (first | with_reducible assumption | with_reducible apply State.safeState_keeps | with_reducible apply State.linkFault_keeps | with_reducible apply State.withholdStack_keeps | with_reducible apply State.faultOpen_keeps | with_reducible apply State.updHmc_keeps | with_reducible apply State.hbmFlush_keeps | with_reducible apply State.setRef_keeps | with_reducible refine keeps_foldl (fun _ _ _ => ?_) ?_ | with_reducible refine keeps_forUpto (fun _ _ _ => ?_) ?_ | split | with_reducible refine keeps_freeCnt (Nat.le_add_right _ _) ?_)

theorem State.refBack_keeps {x1} (h : Keeps a s) : Keeps a (State.refBack s x1) := by
  unfold State.refBack
  try dsimp only
  repeat' (first | with_reducible assumption | with_reducible apply State.iodReset_keeps | with_reducible apply State.stackReset_keeps | with_reducible apply State.setRef_keeps | with_reducible refine keeps_foldl (fun _ _ _ => ?_) ?_ | with_reducible refine keeps_forUpto (fun _ _ _ => ?_) ?_ | split | with_reducible refine keeps_freeCnt (Nat.le_add_right _ _) ?_)

theorem execCoolantSample_keeps {x0 x1} (e : execCoolantSample x0 x1 s = .next t) : Keeps s t := by
  unfold execCoolantSample at e
  have h := Keeps.refl s
  replace e := Host.Outcome.next.inj e
  subst e
  try dsimp only
  repeat' (first | with_reducible assumption | with_reducible apply State.coolSample_keeps | with_reducible refine keeps_foldl (fun _ _ _ => ?_) ?_ | with_reducible refine keeps_forUpto (fun _ _ _ => ?_) ?_ | split | with_reducible refine keeps_freeCnt (Nat.le_add_right _ _) ?_)

theorem execFlowPulse_keeps {x0} (e : execFlowPulse x0 s = .next t) : Keeps s t := by
  unfold execFlowPulse at e
  have h := Keeps.refl s
  replace e := Host.Outcome.next.inj e
  subst e
  try dsimp only
  repeat' (first | with_reducible assumption | with_reducible apply State.flowEdge_keeps | with_reducible refine keeps_foldl (fun _ _ _ => ?_) ?_ | with_reducible refine keeps_forUpto (fun _ _ _ => ?_) ?_ | split | with_reducible refine keeps_freeCnt (Nat.le_add_right _ _) ?_)

theorem execFlowUpdate_keeps (e : execFlowUpdate s = .next t) : Keeps s t := by
  unfold execFlowUpdate at e
  have h := Keeps.refl s
  replace e := Host.Outcome.next.inj e
  subst e
  try dsimp only
  repeat' (first | with_reducible assumption | with_reducible apply State.flowTick_keeps | with_reducible apply State.settle_keeps | with_reducible refine keeps_foldl (fun _ _ _ => ?_) ?_ | with_reducible refine keeps_forUpto (fun _ _ _ => ?_) ?_ | split | with_reducible refine keeps_freeCnt (Nat.le_add_right _ _) ?_)

theorem execThermalSample_keeps {x0 x1} (e : execThermalSample x0 x1 s = .next t) : Keeps s t := by
  unfold execThermalSample at e
  have h := Keeps.refl s
  replace e := Host.Outcome.next.inj e
  subst e
  try dsimp only
  repeat' (first | with_reducible assumption | with_reducible apply State.sample_keeps | with_reducible apply State.settle_keeps | with_reducible refine keeps_foldl (fun _ _ _ => ?_) ?_ | with_reducible refine keeps_forUpto (fun _ _ _ => ?_) ?_ | split | with_reducible refine keeps_freeCnt (Nat.le_add_right _ _) ?_)

theorem execThermalEvaluation_keeps {x0 x1} (e : execThermalEvaluation x0 x1 s = .next t) : Keeps s t := by
  unfold execThermalEvaluation at e
  have h := Keeps.refl s
  replace e := Host.Outcome.next.inj e
  subst e
  try dsimp only
  repeat' (first | with_reducible assumption | with_reducible apply State.evaluate_keeps | with_reducible apply State.settle_keeps | with_reducible refine keeps_foldl (fun _ _ _ => ?_) ?_ | with_reducible refine keeps_forUpto (fun _ _ _ => ?_) ?_ | split | with_reducible refine keeps_freeCnt (Nat.le_add_right _ _) ?_)

theorem execAvsWriteComplete_keeps {x0} (e : execAvsWriteComplete x0 s = .next t) : Keeps s t := by
  unfold execAvsWriteComplete at e
  have h := Keeps.refl s
  replace e := Host.Outcome.next.inj e
  subst e
  try dsimp only
  repeat' (first | with_reducible assumption | with_reducible apply State.avsDone_keeps | with_reducible refine keeps_foldl (fun _ _ _ => ?_) ?_ | with_reducible refine keeps_forUpto (fun _ _ _ => ?_) ?_ | split | with_reducible refine keeps_freeCnt (Nat.le_add_right _ _) ?_)

theorem execRateMonitorWindow_keeps {x0 x1} (e : execRateMonitorWindow x0 x1 s = .next t) : Keeps s t := by
  unfold execRateMonitorWindow at e
  have h := Keeps.refl s
  replace e := Host.Outcome.next.inj e
  subst e
  try dsimp only
  repeat' (first | with_reducible assumption | with_reducible apply State.rateWindow_keeps | with_reducible refine keeps_foldl (fun _ _ _ => ?_) ?_ | with_reducible refine keeps_forUpto (fun _ _ _ => ?_) ?_ | split | with_reducible refine keeps_freeCnt (Nat.le_add_right _ _) ?_)

theorem execTelemetryRound_keeps {x0 x1} (e : execTelemetryRound x0 x1 s = .next t) : Keeps s t := by
  unfold execTelemetryRound at e
  have h := Keeps.refl s
  replace e := Host.Outcome.next.inj e
  subst e
  try dsimp only
  repeat' (first | with_reducible assumption | with_reducible apply State.telemetry_keeps | with_reducible refine keeps_foldl (fun _ _ _ => ?_) ?_ | with_reducible refine keeps_forUpto (fun _ _ _ => ?_) ?_ | split | with_reducible refine keeps_freeCnt (Nat.le_add_right _ _) ?_)

theorem execTelemetryTimeout_keeps (e : execTelemetryTimeout s = .next t) : Keeps s t := by
  unfold execTelemetryTimeout at e
  have h := Keeps.refl s
  replace e := Host.Outcome.next.inj e
  subst e
  try dsimp only
  repeat' (first | with_reducible assumption | with_reducible apply keeps_mapThm | with_reducible refine keeps_foldl (fun _ _ _ => ?_) ?_ | with_reducible refine keeps_forUpto (fun _ _ _ => ?_) ?_ | split | with_reducible refine keeps_freeCnt (Nat.le_add_right _ _) ?_)

theorem execRefclkLoss_keeps {x0} (e : execRefclkLoss x0 s = .next t) : Keeps s t := by
  unfold execRefclkLoss at e
  have h := Keeps.refl s
  replace e := Host.Outcome.next.inj e
  subst e
  try dsimp only
  repeat' (first | with_reducible assumption | with_reducible apply State.refLoss_keeps | with_reducible apply State.settle_keeps | with_reducible refine keeps_foldl (fun _ _ _ => ?_) ?_ | with_reducible refine keeps_forUpto (fun _ _ _ => ?_) ?_ | split | with_reducible refine keeps_freeCnt (Nat.le_add_right _ _) ?_)

theorem execRefclkStable_keeps {x0} (e : execRefclkStable x0 s = .next t) : Keeps s t := by
  unfold execRefclkStable at e
  have h := Keeps.refl s
  replace e := Host.Outcome.next.inj e
  subst e
  try dsimp only
  repeat' (first | with_reducible assumption | with_reducible apply State.refBack_keeps | with_reducible apply State.settle_keeps | with_reducible refine keeps_foldl (fun _ _ _ => ?_) ?_ | with_reducible refine keeps_forUpto (fun _ _ _ => ?_) ?_ | split | with_reducible refine keeps_freeCnt (Nat.le_add_right _ _) ?_)

end Sys2Proof.Machine
end

