-- ==== Sys2Proof/Laws/KeepsRecovery.lean ====
section
/-! SUPPORT. Every operation of Machine/Recovery.lean carries `Keeps` on. -/

namespace Sys2Proof.Machine

set_option linter.unusedTactic false
set_option linter.unreachableTactic false

variable {a s t : State}

theorem State.rehCheck_keeps (h : Keeps a s) : Keeps a (State.rehCheck s) := by
  unfold State.rehCheck
  try dsimp only
  repeat' (first | with_reducible assumption | with_reducible refine keeps_mapPair (by intro x; first | with_reducible rfl | (dsimp only; repeat' split) <;> with_reducible rfl) ?_ | with_reducible refine keeps_foldl (fun _ _ _ => ?_) ?_ | with_reducible refine keeps_forUpto (fun _ _ _ => ?_) ?_ | split | with_reducible refine keeps_freeCnt (Nat.le_add_right _ _) ?_)

theorem State.rehLate_keeps (h : Keeps a s) : Keeps a (State.rehLate s) := by
  unfold State.rehLate
  try dsimp only
  repeat' (first | with_reducible assumption | with_reducible refine keeps_mapPair (by intro x; first | with_reducible rfl | (dsimp only; repeat' split) <;> with_reducible rfl) ?_ | with_reducible refine keeps_foldl (fun _ _ _ => ?_) ?_ | with_reducible refine keeps_forUpto (fun _ _ _ => ?_) ?_ | split | with_reducible refine keeps_freeCnt (Nat.le_add_right _ _) ?_)

theorem State.hungTwice_keeps {x1 x2} (h : Keeps a s) : Keeps a (State.hungTwice s x1 x2) := by
  unfold State.hungTwice
  try dsimp only
  repeat' (first | with_reducible assumption | with_reducible apply State.withhold_keeps | with_reducible apply State.abandonInst_keeps | with_reducible apply State.resetEngine_keeps | with_reducible apply State.goldFails_keeps | with_reducible apply State.unitFails_keeps | with_reducible apply State.updEng_keeps | with_reducible refine keeps_foldl (fun _ _ _ => ?_) ?_ | with_reducible refine keeps_forUpto (fun _ _ _ => ?_) ?_ | split | with_reducible refine keeps_freeCnt (Nat.le_add_right _ _) ?_)

theorem State.sheafExpiry_keeps {x1} (h : Keeps a s) : Keeps a (State.sheafExpiry s x1) := by
  unfold State.sheafExpiry
  try dsimp only
  repeat' (first | with_reducible assumption | with_reducible apply State.failUnit_keeps | with_reducible apply State.hungTwice_keeps | with_reducible apply State.resetEngine_keeps | with_reducible apply State.updEng_keeps | with_reducible apply State.fault_keeps | with_reducible refine keeps_foldl (fun _ _ _ => ?_) ?_ | with_reducible refine keeps_forUpto (fun _ _ _ => ?_) ?_ | split | with_reducible refine keeps_freeCnt (Nat.le_add_right _ _) ?_)

theorem State.stageExpiry_keeps {x1} (h : Keeps a s) : Keeps a (State.stageExpiry s x1) := by
  unfold State.stageExpiry
  try dsimp only
  repeat' (first | with_reducible assumption | with_reducible apply State.fault_keeps | with_reducible apply State.resetEngine_keeps | with_reducible refine keeps_foldl (fun _ _ _ => ?_) ?_ | with_reducible refine keeps_forUpto (fun _ _ _ => ?_) ?_ | split | with_reducible refine keeps_freeCnt (Nat.le_add_right _ _) ?_)

theorem State.fabricExpiry_keeps {x1} (h : Keeps a s) : Keeps a (State.fabricExpiry s x1) := by
  unfold State.fabricExpiry
  try dsimp only
  repeat' (first | with_reducible assumption | with_reducible apply State.faultOpen_keeps | with_reducible apply State.fenceDie_keeps | with_reducible apply State.freeWord_keeps | with_reducible refine State.freeWord_keepsEq (by assumption) ?_ | with_reducible refine keeps_foldl (fun _ _ _ => ?_) ?_ | with_reducible refine keeps_forUpto (fun _ _ _ => ?_) ?_ | split | with_reducible refine keeps_freeCnt (Nat.le_add_right _ _) ?_)

theorem State.deputyExpiry_keeps {x1 x2} (h : Keeps a s) : Keeps a (State.deputyExpiry s x1 x2) := by
  unfold State.deputyExpiry
  try dsimp only
  repeat' (first | with_reducible assumption | with_reducible apply State.faultOpen_keeps | with_reducible apply State.fenceDie_keeps | with_reducible refine keeps_foldl (fun _ _ _ => ?_) ?_ | with_reducible refine keeps_forUpto (fun _ _ _ => ?_) ?_ | split | with_reducible refine keeps_freeCnt (Nat.le_add_right _ _) ?_)

theorem State.reeveExpiry_keeps (h : Keeps a s) : Keeps a (State.reeveExpiry s) := by
  unfold State.reeveExpiry
  try dsimp only
  repeat' (first | with_reducible assumption | with_reducible apply State.faultOpen_keeps | with_reducible apply keeps_mapFlt | with_reducible refine keeps_foldl (fun _ _ _ => ?_) ?_ | with_reducible refine keeps_forUpto (fun _ _ _ => ?_) ?_ | split | with_reducible refine keeps_freeCnt (Nat.le_add_right _ _) ?_)

theorem State.replayed_keeps {x1} (h : Keeps a s) : Keeps a (State.replayed s x1) := by
  unfold State.replayed
  try dsimp only
  repeat' (first | with_reducible assumption | with_reducible apply State.advanceCtx_keeps | with_reducible apply State.fault_keeps | with_reducible apply State.failUnit_keeps | with_reducible apply keeps_mapFlt | with_reducible refine keeps_foldl (fun _ _ _ => ?_) ?_ | with_reducible refine keeps_forUpto (fun _ _ _ => ?_) ?_ | split | with_reducible refine keeps_freeCnt (Nat.le_add_right _ _) ?_)

theorem State.setLink_keeps {x1 x2} (h : Keeps a s) : Keeps a (State.setLink s x1 x2) := by
  unfold State.setLink
  try dsimp only
  repeat' (first | with_reducible assumption | with_reducible apply keeps_mapFlt | with_reducible refine keeps_foldl (fun _ _ _ => ?_) ?_ | with_reducible refine keeps_forUpto (fun _ _ _ => ?_) ?_ | split | with_reducible refine keeps_freeCnt (Nat.le_add_right _ _) ?_)

theorem State.dropOnLink_keeps {x1} (h : Keeps a s) : Keeps a (State.dropOnLink s x1) := by
  unfold State.dropOnLink
  try dsimp only
  repeat' (first | with_reducible assumption | with_reducible apply keeps_mapFab | with_reducible refine keeps_foldl (fun _ _ _ => ?_) ?_ | with_reducible refine keeps_forUpto (fun _ _ _ => ?_) ?_ | split | with_reducible refine keeps_freeCnt (Nat.le_add_right _ _) ?_)

theorem State.killDie_keeps {x1 x2} (h : Keeps a s) : Keeps a (State.killDie s x1 x2) := by
  unfold State.killDie
  try dsimp only
  repeat' (first | with_reducible assumption | with_reducible apply State.fenceDie_keeps | with_reducible apply State.drainDie_keeps | with_reducible apply State.dieInReset_keeps | with_reducible apply State.dieFails_keeps | with_reducible refine keeps_foldl (fun _ _ _ => ?_) ?_ | with_reducible refine keeps_forUpto (fun _ _ _ => ?_) ?_ | split | with_reducible refine keeps_freeCnt (Nat.le_add_right _ _) ?_)

theorem State.linkExpiry_keeps {x1} (h : Keeps a s) : Keeps a (State.linkExpiry s x1) := by
  unfold State.linkExpiry
  try dsimp only
  repeat' (first | with_reducible assumption | with_reducible apply State.dropOnLink_keeps | with_reducible apply State.setLink_keeps | with_reducible apply State.withholdLost_keeps | with_reducible apply State.killDie_keeps | with_reducible apply State.faultOpen_keeps | with_reducible apply State.freeWord_keeps | with_reducible refine State.freeWord_keepsEq (by assumption) ?_ | with_reducible refine keeps_foldl (fun _ _ _ => ?_) ?_ | with_reducible refine keeps_forUpto (fun _ _ _ => ?_) ?_ | split | with_reducible refine keeps_freeCnt (Nat.le_add_right _ _) ?_)

theorem State.linkTrained_keeps {x1 x2} (h : Keeps a s) : Keeps a (State.linkTrained s x1 x2) := by
  unfold State.linkTrained
  try dsimp only
  repeat' (first | with_reducible assumption | with_reducible apply State.fenceDie_keeps | with_reducible apply State.faultOpen_keeps | with_reducible apply State.setLink_keeps | with_reducible apply keeps_mapFlt | with_reducible refine keeps_foldl (fun _ _ _ => ?_) ?_ | with_reducible refine keeps_forUpto (fun _ _ _ => ?_) ?_ | split | with_reducible refine keeps_freeCnt (Nat.le_add_right _ _) ?_)

theorem State.dieStepFails_keeps {x1} (h : Keeps a s) : Keeps a (State.dieStepFails s x1) := by
  unfold State.dieStepFails
  try dsimp only
  repeat' (first | with_reducible assumption | with_reducible apply State.fault_keeps | with_reducible apply State.dieFails_keeps | with_reducible apply State.freeWord_keeps | with_reducible refine State.freeWord_keepsEq (by assumption) ?_ | with_reducible refine keeps_foldl (fun _ _ _ => ?_) ?_ | with_reducible refine keeps_forUpto (fun _ _ _ => ?_) ?_ | split | with_reducible refine keeps_freeCnt (Nat.le_add_right _ _) ?_)

theorem State.trainStack_keeps {x1} (h : Keeps a s) : Keeps a (State.trainStack s x1) := by
  unfold State.trainStack
  try dsimp only
  repeat' (first | with_reducible assumption | with_reducible apply State.stackCfg_keeps | with_reducible apply State.updHmc_keeps | with_reducible refine keeps_foldl (fun _ _ _ => ?_) ?_ | with_reducible refine keeps_forUpto (fun _ _ _ => ?_) ?_ | split | with_reducible refine keeps_freeCnt (Nat.le_add_right _ _) ?_)

theorem State.linksBack_keeps {x1} (h : Keeps a s) : Keeps a (State.linksBack s x1) := by
  unfold State.linksBack
  try dsimp only
  repeat' (first | with_reducible assumption | with_reducible apply State.setLink_keeps | with_reducible refine keeps_foldl (fun _ _ _ => ?_) ?_ | with_reducible refine keeps_forUpto (fun _ _ _ => ?_) ?_ | split | with_reducible refine keeps_freeCnt (Nat.le_add_right _ _) ?_)

theorem State.stackTrained_keeps {x1 x2 x3} (h : Keeps a s) : Keeps a (State.stackTrained s x1 x2 x3) := by
  unfold State.stackTrained
  try dsimp only
  repeat' (first | with_reducible assumption | with_reducible apply State.journalUnit_keeps | with_reducible apply State.stackBack_keeps | with_reducible apply State.rehCheck_keeps | with_reducible refine keeps_mapBoot (by intro x; first | with_reducible rfl | (dsimp only; repeat' split) <;> with_reducible rfl) (by intro x; first | with_reducible rfl | (dsimp only; repeat' split) <;> with_reducible rfl) ?_ | with_reducible apply State.hbmTrained_keeps | with_reducible refine keeps_foldl (fun _ _ _ => ?_) ?_ | with_reducible refine keeps_forUpto (fun _ _ _ => ?_) ?_ | split | with_reducible refine keeps_freeCnt (Nat.le_add_right _ _) ?_)

theorem State.unitBack_keeps {x1 x2} (h : Keeps a s) : Keeps a (State.unitBack s x1 x2) := by
  unfold State.unitBack
  try dsimp only
  repeat' (first | with_reducible assumption | with_reducible apply State.rehCheck_keeps | with_reducible apply State.stackBack_keeps | with_reducible apply keeps_mapFlt | with_reducible apply State.updEng_keeps | with_reducible refine keeps_foldl (fun _ _ _ => ?_) ?_ | with_reducible refine keeps_forUpto (fun _ _ _ => ?_) ?_ | split | with_reducible refine keeps_freeCnt (Nat.le_add_right _ _) ?_)

theorem execSheafMonitorExpiry_keeps {x0} (e : execSheafMonitorExpiry x0 s = .next t) : Keeps s t := by
  unfold execSheafMonitorExpiry at e
  have h := Keeps.refl s
  replace e := Host.Outcome.next.inj e
  subst e
  try dsimp only
  repeat' (first | with_reducible assumption | with_reducible apply State.sheafExpiry_keeps | with_reducible apply State.settle_keeps | with_reducible refine keeps_foldl (fun _ _ _ => ?_) ?_ | with_reducible refine keeps_forUpto (fun _ _ _ => ?_) ?_ | split | with_reducible refine keeps_freeCnt (Nat.le_add_right _ _) ?_)

theorem execOutputStageMonitorExpiry_keeps {x0} (e : execOutputStageMonitorExpiry x0 s = .next t) : Keeps s t := by
  unfold execOutputStageMonitorExpiry at e
  have h := Keeps.refl s
  replace e := Host.Outcome.next.inj e
  subst e
  try dsimp only
  repeat' (first | with_reducible assumption | with_reducible apply State.stageExpiry_keeps | with_reducible apply State.settle_keeps | with_reducible refine keeps_foldl (fun _ _ _ => ?_) ?_ | with_reducible refine keeps_forUpto (fun _ _ _ => ?_) ?_ | split | with_reducible refine keeps_freeCnt (Nat.le_add_right _ _) ?_)

theorem execFabricMonitorExpiry_keeps {x0} (e : execFabricMonitorExpiry x0 s = .next t) : Keeps s t := by
  unfold execFabricMonitorExpiry at e
  have h := Keeps.refl s
  replace e := Host.Outcome.next.inj e
  subst e
  try dsimp only
  repeat' (first | with_reducible assumption | with_reducible apply State.fabricExpiry_keeps | with_reducible apply State.settle_keeps | with_reducible refine keeps_foldl (fun _ _ _ => ?_) ?_ | with_reducible refine keeps_forUpto (fun _ _ _ => ?_) ?_ | split | with_reducible refine keeps_freeCnt (Nat.le_add_right _ _) ?_)

theorem execLinkMonitorExpiry_keeps {x0} (e : execLinkMonitorExpiry x0 s = .next t) : Keeps s t := by
  unfold execLinkMonitorExpiry at e
  have h := Keeps.refl s
  replace e := Host.Outcome.next.inj e
  subst e
  try dsimp only
  repeat' (first | with_reducible assumption | with_reducible apply State.linkExpiry_keeps | with_reducible apply State.settle_keeps | with_reducible refine keeps_foldl (fun _ _ _ => ?_) ?_ | with_reducible refine keeps_forUpto (fun _ _ _ => ?_) ?_ | split | with_reducible refine keeps_freeCnt (Nat.le_add_right _ _) ?_)

theorem execDeputyMonitorExpiry_keeps {x0 x1} (e : execDeputyMonitorExpiry x0 x1 s = .next t) : Keeps s t := by
  unfold execDeputyMonitorExpiry at e
  have h := Keeps.refl s
  replace e := Host.Outcome.next.inj e
  subst e
  try dsimp only
  repeat' (first | with_reducible assumption | with_reducible apply State.deputyExpiry_keeps | with_reducible apply State.settle_keeps | with_reducible refine keeps_foldl (fun _ _ _ => ?_) ?_ | with_reducible refine keeps_forUpto (fun _ _ _ => ?_) ?_ | split | with_reducible refine keeps_freeCnt (Nat.le_add_right _ _) ?_)

theorem execReeveMonitorExpiry_keeps (e : execReeveMonitorExpiry s = .next t) : Keeps s t := by
  unfold execReeveMonitorExpiry at e
  have h := Keeps.refl s
  replace e := Host.Outcome.next.inj e
  subst e
  try dsimp only
  repeat' (first | with_reducible assumption | with_reducible apply State.reeveExpiry_keeps | with_reducible apply State.settle_keeps | with_reducible refine keeps_foldl (fun _ _ _ => ?_) ?_ | with_reducible refine keeps_forUpto (fun _ _ _ => ?_) ?_ | split | with_reducible refine keeps_freeCnt (Nat.le_add_right _ _) ?_)

theorem execSuspectReplay_keeps {x0} (e : execSuspectReplay x0 s = .next t) : Keeps s t := by
  unfold execSuspectReplay at e
  have h := Keeps.refl s
  replace e := Host.Outcome.next.inj e
  subst e
  try dsimp only
  repeat' (first | with_reducible assumption | with_reducible apply State.replayed_keeps | with_reducible apply State.settle_keeps | with_reducible refine keeps_foldl (fun _ _ _ => ?_) ?_ | with_reducible refine keeps_forUpto (fun _ _ _ => ?_) ?_ | split | with_reducible refine keeps_freeCnt (Nat.le_add_right _ _) ?_)

theorem execDieFenceDrained_keeps {x0} (e : execDieFenceDrained x0 s = .next t) : Keeps s t := by
  unfold execDieFenceDrained at e
  have h := Keeps.refl s
  replace e := Host.Outcome.next.inj e
  subst e
  try dsimp only
  repeat' (first | with_reducible assumption | with_reducible apply State.drainDie_keeps | with_reducible apply State.dieInReset_keeps | with_reducible apply State.settle_keeps | with_reducible refine keeps_foldl (fun _ _ _ => ?_) ?_ | with_reducible refine keeps_forUpto (fun _ _ _ => ?_) ?_ | split | with_reducible refine keeps_freeCnt (Nat.le_add_right _ _) ?_)

theorem execDieImagesLoaded_keeps {x0 x1} (e : execDieImagesLoaded x0 x1 s = .next t) : Keeps s t := by
  unfold execDieImagesLoaded at e
  have h := Keeps.refl s
  replace e := Host.Outcome.next.inj e
  subst e
  try dsimp only
  repeat' (first | with_reducible assumption | with_reducible apply State.dieStepFails_keeps | with_reducible apply State.setDie_keeps | with_reducible refine keeps_foldl (fun _ _ _ => ?_) ?_ | with_reducible refine keeps_forUpto (fun _ _ _ => ?_) ?_ | split | with_reducible refine keeps_freeCnt (Nat.le_add_right _ _) ?_)

theorem execDieSelfTestDone_keeps {x0 x1} (e : execDieSelfTestDone x0 x1 s = .next t) : Keeps s t := by
  unfold execDieSelfTestDone at e
  have h := Keeps.refl s
  replace e := Host.Outcome.next.inj e
  subst e
  try dsimp only
  repeat' (first | with_reducible assumption | with_reducible apply State.dieStepFails_keeps | with_reducible apply State.setDie_keeps | with_reducible apply State.trainStack_keeps | with_reducible refine keeps_foldl (fun _ _ _ => ?_) ?_ | with_reducible refine keeps_forUpto (fun _ _ _ => ?_) ?_ | split | with_reducible refine keeps_freeCnt (Nat.le_add_right _ _) ?_)

theorem execDieLinksTrained_keeps {x0 x1} (e : execDieLinksTrained x0 x1 s = .next t) : Keeps s t := by
  unfold execDieLinksTrained at e
  have h := Keeps.refl s
  replace e := Host.Outcome.next.inj e
  subst e
  try dsimp only
  repeat' (first | with_reducible assumption | with_reducible apply State.dieStepFails_keeps | with_reducible apply State.setDie_keeps | with_reducible refine keeps_foldl (fun _ _ _ => ?_) ?_ | with_reducible refine keeps_forUpto (fun _ _ _ => ?_) ?_ | split | with_reducible refine keeps_freeCnt (Nat.le_add_right _ _) ?_)

theorem execDieInjectionDone_keeps {x0 x1} (e : execDieInjectionDone x0 x1 s = .next t) : Keeps s t := by
  unfold execDieInjectionDone at e
  have h := Keeps.refl s
  replace e := Host.Outcome.next.inj e
  subst e
  try dsimp only
  repeat' (first | with_reducible assumption | with_reducible apply State.dieStepFails_keeps | with_reducible apply State.linksBack_keeps | with_reducible apply State.dieBack_keeps | with_reducible apply State.applyLevel_keeps | with_reducible apply State.rehCheck_keeps | with_reducible apply State.settle_keeps | with_reducible refine keeps_foldl (fun _ _ _ => ?_) ?_ | with_reducible refine keeps_forUpto (fun _ _ _ => ?_) ?_ | split | with_reducible refine keeps_freeCnt (Nat.le_add_right _ _) ?_)

theorem execUnitResetDone_keeps {x0 x1} (e : execUnitResetDone x0 x1 s = .next t) : Keeps s t := by
  unfold execUnitResetDone at e
  have h := Keeps.refl s
  replace e := Host.Outcome.next.inj e
  subst e
  try dsimp only
  repeat' (first | with_reducible assumption | with_reducible apply State.unitBack_keeps | with_reducible apply State.settle_keeps | with_reducible refine keeps_foldl (fun _ _ _ => ?_) ?_ | with_reducible refine keeps_forUpto (fun _ _ _ => ?_) ?_ | split | with_reducible refine keeps_freeCnt (Nat.le_add_right _ _) ?_)

theorem execLinkRetrainDone_keeps {x0 x1} (e : execLinkRetrainDone x0 x1 s = .next t) : Keeps s t := by
  unfold execLinkRetrainDone at e
  have h := Keeps.refl s
  replace e := Host.Outcome.next.inj e
  subst e
  try dsimp only
  repeat' (first | with_reducible assumption | with_reducible apply State.linkTrained_keeps | with_reducible apply State.settle_keeps | with_reducible refine keeps_foldl (fun _ _ _ => ?_) ?_ | with_reducible refine keeps_forUpto (fun _ _ _ => ?_) ?_ | split | with_reducible refine keeps_freeCnt (Nat.le_add_right _ _) ?_)

theorem execHbmTrainingDone_keeps {x0 x1 x2} (e : execHbmTrainingDone x0 x1 x2 s = .next t) : Keeps s t := by
  unfold execHbmTrainingDone at e
  have h := Keeps.refl s
  replace e := Host.Outcome.next.inj e
  subst e
  try dsimp only
  repeat' (first | with_reducible assumption | with_reducible apply State.stackTrained_keeps | with_reducible apply State.settle_keeps | with_reducible refine keeps_foldl (fun _ _ _ => ?_) ?_ | with_reducible refine keeps_forUpto (fun _ _ _ => ?_) ?_ | split | with_reducible refine keeps_freeCnt (Nat.le_add_right _ _) ?_)

end Sys2Proof.Machine
end

