-- ==== Sys2Proof/Laws/KeepsRegs.lean ====
section
/-! SUPPORT. Every operation of Machine/Regs.lean carries `Keeps` on. -/

namespace Sys2Proof.Machine

set_option linter.unusedTactic false
set_option linter.unreachableTactic false

variable {a s t : State}

theorem State.capture_keeps {x1 x2} (h : Keeps a s) : Keeps a (State.capture s x1 x2) := by
  unfold State.capture
  try dsimp only
  repeat' (first | with_reducible assumption | with_reducible apply keeps_mapTime | with_reducible refine keeps_mapTly (by intro x hx; first | exact hx | (dsimp only; split <;> exact hx)) ?_ | with_reducible apply State.updSlotMap_keeps | with_reducible refine keeps_foldl (fun _ _ _ => ?_) ?_ | with_reducible refine keeps_forUpto (fun _ _ _ => ?_) ?_ | split | with_reducible refine keeps_freeCnt (Nat.le_add_right _ _) ?_)

theorem State.readWords_keeps {x0} : ∀ (l : List Nat) {s : State}, Keeps a s → Keeps a (State.readWords x0 l s).2
  | [], _, h => h
  | o :: r, s, h => by
    unfold State.readWords
    exact State.readWords_keeps r (State.capture_keeps h)

theorem State.readWords_keepsEq {x0 x1 r} (e : State.readWords x0 x1 s = (r, t)) (h : Keeps a s) : Keeps a t := by
  have k := State.readWords_keeps (x0 := x0) x1 h
  rw [e] at k; exact k

theorem State.regRead_keeps {x1 x2 x3 x4} (h : Keeps a s) : Keeps a (State.regRead s x1 x2 x3 x4).2.2 := by
  unfold State.regRead
  try dsimp only
  repeat' (first | with_reducible assumption | with_reducible apply State.readWords_keeps | with_reducible refine State.readWords_keepsEq (by assumption) ?_ | with_reducible refine keeps_foldl (fun _ _ _ => ?_) ?_ | with_reducible refine keeps_forUpto (fun _ _ _ => ?_) ?_ | split | with_reducible refine keeps_freeCnt (Nat.le_add_right _ _) ?_)

theorem State.regRead_keepsEq {x1 x2 x3 x4 r q} (e : State.regRead s x1 x2 x3 x4 = (r, q, t)) (h : Keeps a s) : Keeps a t := by
  have k := State.regRead_keeps (a := a) (x1 := x1) (x2 := x2) (x3 := x3) (x4 := x4) h
  rw [e] at k; exact k

theorem State.grnWrite_keeps {x1 x2 x3 x4} (h : Keeps a s) : Keeps a (State.grnWrite s x1 x2 x3 x4) := by
  unfold State.grnWrite
  try dsimp only
  repeat' (first | with_reducible assumption | with_reducible apply State.updGrnDie_keeps | with_reducible refine keeps_foldl (fun _ _ _ => ?_) ?_ | with_reducible refine keeps_forUpto (fun _ _ _ => ?_) ?_ | split | with_reducible refine keeps_freeCnt (Nat.le_add_right _ _) ?_)

theorem State.glnWrite_keeps {x1 x2 x3 x4} (h : Keeps a s) : Keeps a (State.glnWrite s x1 x2 x3 x4) := by
  unfold State.glnWrite
  try dsimp only
  repeat' (first | with_reducible assumption | with_reducible apply State.updGleaner_keeps | with_reducible apply State.glnCtrl_keeps | with_reducible refine keeps_foldl (fun _ _ _ => ?_) ?_ | with_reducible refine keeps_forUpto (fun _ _ _ => ?_) ?_ | split | with_reducible refine keeps_freeCnt (Nat.le_add_right _ _) ?_)

theorem State.hmcWrite_keeps {x1 x2 x3 x4} (h : Keeps a s) : Keeps a (State.hmcWrite s x1 x2 x3 x4) := by
  unfold State.hmcWrite
  try dsimp only
  repeat' (first | with_reducible assumption | with_reducible apply State.updHmc_keeps | with_reducible refine keeps_foldl (fun _ _ _ => ?_) ?_ | with_reducible refine keeps_forUpto (fun _ _ _ => ?_) ?_ | split | with_reducible refine keeps_freeCnt (Nat.le_add_right _ _) ?_)

theorem State.kvwSet_keeps {x1 x2 x3 x4} (h : Keeps a s) : Keeps a (State.kvwSet s x1 x2 x3 x4) := by
  unfold State.kvwSet
  try dsimp only
  repeat' (first | with_reducible assumption | with_reducible apply State.updKvCtx_keeps | with_reducible refine keeps_foldl (fun _ _ _ => ?_) ?_ | with_reducible refine keeps_forUpto (fun _ _ _ => ?_) ?_ | split | with_reducible refine keeps_freeCnt (Nat.le_add_right _ _) ?_)

theorem State.kvwWrite_keeps {x1 x2 x3 x4} (h : Keeps a s) : Keeps a (State.kvwWrite s x1 x2 x3 x4) := by
  unfold State.kvwWrite
  try dsimp only
  repeat' (first | with_reducible assumption | with_reducible apply State.kvwSet_keeps | with_reducible refine keeps_foldl (fun _ _ _ => ?_) ?_ | with_reducible refine keeps_forUpto (fun _ _ _ => ?_) ?_ | split | with_reducible refine keeps_freeCnt (Nat.le_add_right _ _) ?_)

theorem State.blkWrite_keeps {x1 x2 x3 x4} (h : Keeps a s) : Keeps a (State.blkWrite s x1 x2 x3 x4) := by
  unfold State.blkWrite
  try dsimp only
  repeat' (first | with_reducible assumption | with_reducible apply State.updSlotMap_keeps | with_reducible apply State.mapCfg_keeps | with_reducible refine keeps_foldl (fun _ _ _ => ?_) ?_ | with_reducible refine keeps_forUpto (fun _ _ _ => ?_) ?_ | split | with_reducible refine keeps_freeCnt (Nat.le_add_right _ _) ?_)

theorem State.engWrite_keeps {x1 x2 x3 x4} (h : Keeps a s) : Keeps a (State.engWrite s x1 x2 x3 x4) := by
  unfold State.engWrite
  try dsimp only
  repeat' (first | with_reducible assumption | with_reducible apply State.updEng_keeps | with_reducible apply State.eqGateDone_keeps | with_reducible refine keeps_foldl (fun _ _ _ => ?_) ?_ | with_reducible refine keeps_forUpto (fun _ _ _ => ?_) ?_ | split | with_reducible refine keeps_freeCnt (Nat.le_add_right _ _) ?_)

theorem State.dieWrite_keeps {x1 x2 x3 x4} (h : Keeps a s) : Keeps a (State.dieWrite s x1 x2 x3 x4) := by
  unfold State.dieWrite
  try dsimp only
  repeat' (first | with_reducible assumption | with_reducible apply State.engWrite_keeps | with_reducible apply State.blkWrite_keeps | with_reducible apply State.kvwWrite_keeps | with_reducible apply State.hmcWrite_keeps | with_reducible apply State.glnWrite_keeps | with_reducible apply State.grnWrite_keeps | with_reducible refine keeps_foldl (fun _ _ _ => ?_) ?_ | with_reducible refine keeps_forUpto (fun _ _ _ => ?_) ?_ | split | with_reducible refine keeps_freeCnt (Nat.le_add_right _ _) ?_)

theorem State.tlyWrite_keeps {x1 x2 x3} (h : Keeps a s) : Keeps a (State.tlyWrite s x1 x2 x3) := by
  unfold State.tlyWrite
  try dsimp only
  repeat' (first | with_reducible assumption | with_reducible apply State.updWin_keeps | with_reducible refine keeps_foldl (fun _ _ _ => ?_) ?_ | with_reducible refine keeps_forUpto (fun _ _ _ => ?_) ?_ | split | with_reducible refine keeps_freeCnt (Nat.le_add_right _ _) ?_)

theorem State.mbxWrite_keeps {x1 x2} (h : Keeps a s) : Keeps a (State.mbxWrite s x1 x2) := by
  unfold State.mbxWrite
  try dsimp only
  repeat' (first | with_reducible assumption | with_reducible apply State.clearSticky_keeps | with_reducible apply State.releaseSlots_keeps | with_reducible apply State.ring_keeps | with_reducible apply State.bodyWrite_keeps | with_reducible refine keeps_foldl (fun _ _ _ => ?_) ?_ | with_reducible refine keeps_forUpto (fun _ _ _ => ?_) ?_ | split | with_reducible refine keeps_freeCnt (Nat.le_add_right _ _) ?_)

theorem State.coolWrite_keeps {x1 x2 x3} (h : Keeps a s) : Keeps a (State.coolWrite s x1 x2 x3) := by
  unfold State.coolWrite
  try dsimp only
  repeat' (first | with_reducible assumption | with_reducible apply keeps_mapCool | with_reducible refine keeps_foldl (fun _ _ _ => ?_) ?_ | with_reducible refine keeps_forUpto (fun _ _ _ => ?_) ?_ | split | with_reducible refine keeps_freeCnt (Nat.le_add_right _ _) ?_)

theorem State.iodWrite_keeps {x1 x2 x3} (h : Keeps a s) : Keeps a (State.iodWrite s x1 x2 x3) := by
  unfold State.iodWrite
  try dsimp only
  repeat' (first | with_reducible assumption | with_reducible apply State.coolWrite_keeps | with_reducible apply State.tlyWrite_keeps | with_reducible apply State.mbxWrite_keeps | with_reducible refine keeps_foldl (fun _ _ _ => ?_) ?_ | with_reducible refine keeps_forUpto (fun _ _ _ => ?_) ?_ | split | with_reducible refine keeps_freeCnt (Nat.le_add_right _ _) ?_)

theorem State.mbxWide_keeps {x1 x2} (h : Keeps a s) : Keeps a (State.mbxWide s x1 x2) := by
  unfold State.mbxWide
  try dsimp only
  repeat' (first | with_reducible assumption | with_reducible apply State.mbxWrite_keeps | with_reducible apply State.bodyWrite_keeps | with_reducible refine keeps_foldl (fun _ _ _ => ?_) ?_ | with_reducible refine keeps_forUpto (fun _ _ _ => ?_) ?_ | split | with_reducible refine keeps_freeCnt (Nat.le_add_right _ _) ?_)

theorem State.wideDie_keeps {x1 x2 x3 x4} (h : Keeps a s) : Keeps a (State.wideDie s x1 x2 x3 x4) := by
  unfold State.wideDie
  try dsimp only
  repeat' (first | with_reducible assumption | with_reducible apply State.dieWrite_keeps | with_reducible apply State.eqDoorbell_keeps | with_reducible apply State.commit_keeps | with_reducible refine State.commit_keepsEq (by assumption) ?_ | with_reducible apply State.bankCommand_keeps | with_reducible refine keeps_foldl (fun _ _ _ => ?_) ?_ | with_reducible refine keeps_forUpto (fun _ _ _ => ?_) ?_ | split | with_reducible refine keeps_freeCnt (Nat.le_add_right _ _) ?_)

theorem State.regWrite_keeps {x1 x2 x3 x4 x5} (h : Keeps a s) : Keeps a (State.regWrite s x1 x2 x3 x4 x5).2 := by
  unfold State.regWrite
  try dsimp only
  repeat' (first | with_reducible assumption | with_reducible apply State.iodWrite_keeps | with_reducible apply State.mbxWide_keeps | with_reducible apply State.dieWrite_keeps | with_reducible apply State.wideDie_keeps | with_reducible refine keeps_foldl (fun _ _ _ => ?_) ?_ | with_reducible refine keeps_forUpto (fun _ _ _ => ?_) ?_ | split | with_reducible refine keeps_freeCnt (Nat.le_add_right _ _) ?_)

theorem State.regWrite_keepsEq {x1 x2 x3 x4 x5 r} (e : State.regWrite s x1 x2 x3 x4 x5 = (r, t)) (h : Keeps a s) : Keeps a t := by
  have k := State.regWrite_keeps (a := a) (x1 := x1) (x2 := x2) (x3 := x3) (x4 := x4) (x5 := x5) h
  rw [e] at k; exact k

theorem State.islandReply_keeps {x1 x2 x3} (h : Keeps a s) : Keeps a (State.islandReply s x1 x2 x3) := by
  unfold State.islandReply
  try dsimp only
  repeat' (first | with_reducible assumption | with_reducible apply keeps_mapHwa | with_reducible apply keeps_mapHwb | with_reducible refine keeps_foldl (fun _ _ _ => ?_) ?_ | with_reducible refine keeps_forUpto (fun _ _ _ => ?_) ?_ | split | with_reducible refine keeps_freeCnt (Nat.le_add_right _ _) ?_)

theorem State.islandPerform_keeps {x1 x2 x3 x4} (h : Keeps a s) : Keeps a (State.islandPerform s x1 x2 x3 x4) := by
  unfold State.islandPerform
  try dsimp only
  repeat' (first | with_reducible assumption | with_reducible apply State.lockstepFault_keeps | with_reducible apply keeps_mapHwa | with_reducible apply State.islandReply_keeps | with_reducible apply State.sramStore_keeps | with_reducible refine keeps_foldl (fun _ _ _ => ?_) ?_ | with_reducible refine keeps_forUpto (fun _ _ _ => ?_) ?_ | split | with_reducible refine keeps_freeCnt (Nat.le_add_right _ _) ?_)

theorem State.islandTxn_keeps {x1 x2 x3 x4} (h : Keeps a s) : Keeps a (State.islandTxn s x1 x2 x3 x4) := by
  unfold State.islandTxn
  try dsimp only
  repeat' (first | with_reducible assumption | with_reducible apply State.lockstepFault_keeps | with_reducible apply State.setHeld_keeps | with_reducible apply State.islandPerform_keeps | with_reducible apply State.exchPoll_keeps | with_reducible refine keeps_foldl (fun _ _ _ => ?_) ?_ | with_reducible refine keeps_forUpto (fun _ _ _ => ?_) ?_ | split | with_reducible refine keeps_freeCnt (Nat.le_add_right _ _) ?_)

theorem execIslandTransaction_keeps {x0 x1 x2} (e : execIslandTransaction x0 x1 x2 s = .next t) : Keeps s t := by
  unfold execIslandTransaction at e
  have h := Keeps.refl s
  replace e := Host.Outcome.next.inj e
  subst e
  try dsimp only
  repeat' (first | with_reducible assumption | with_reducible apply State.islandTxn_keeps | with_reducible refine keeps_foldl (fun _ _ _ => ?_) ?_ | with_reducible refine keeps_forUpto (fun _ _ _ => ?_) ?_ | split | with_reducible refine keeps_freeCnt (Nat.le_add_right _ _) ?_)

end Sys2Proof.Machine
end

