-- ==== Sys2Proof/Laws/KeepsFabric.lean ====
section
/-! SUPPORT. Every operation of Machine/Fabric.lean carries `Keeps` on. -/

namespace Sys2Proof.Machine

set_option linter.unusedTactic false
set_option linter.unreachableTactic false

variable {a s t : State}

theorem State.track_keeps {x1 x2} (h : Keeps a s) : Keeps a (State.track s x1 x2) := by
  unfold State.track
  try dsimp only
  repeat' (first | with_reducible assumption | with_reducible apply keeps_mapFab | with_reducible refine keeps_foldl (fun _ _ _ => ?_) ?_ | with_reducible refine keeps_forUpto (fun _ _ _ => ?_) ?_ | split | with_reducible refine keeps_freeCnt (Nat.le_add_right _ _) ?_)

theorem State.finish_keeps {x1 x2 x3} (h : Keeps a s) : Keeps a (State.finish s x1 x2 x3) := by
  unfold State.finish
  try dsimp only
  repeat' (first | with_reducible assumption | with_reducible apply State.answer_keeps | with_reducible apply State.retire_keeps | with_reducible refine keeps_foldl (fun _ _ _ => ?_) ?_ | with_reducible refine keeps_forUpto (fun _ _ _ => ?_) ?_ | split | with_reducible refine keeps_freeCnt (Nat.le_add_right _ _) ?_)

theorem State.regAccess_keeps {x1 x2 x3} (h : Keeps a s) : Keeps a (State.regAccess s x1 x2 x3) := by
  unfold State.regAccess
  try dsimp only
  repeat' (first | with_reducible assumption | with_reducible apply State.regWrite_keeps | with_reducible refine State.regWrite_keepsEq (by assumption) ?_ | with_reducible apply State.finish_keeps | with_reducible apply State.regRead_keeps | with_reducible refine State.regRead_keepsEq (by assumption) ?_ | with_reducible refine keeps_foldl (fun _ _ _ => ?_) ?_ | with_reducible refine keeps_forUpto (fun _ _ _ => ?_) ?_ | split | with_reducible refine keeps_freeCnt (Nat.le_add_right _ _) ?_)

theorem State.serve_keeps {x1} (h : Keeps a s) : Keeps a (State.serve s x1) := by
  unfold State.serve
  try dsimp only
  repeat' (first | with_reducible assumption | with_reducible apply State.perform_keeps | with_reducible refine State.perform_keepsEq (by assumption) ?_ | with_reducible apply State.finish_keeps | with_reducible apply State.hbmArrive_keeps | with_reducible apply State.regAccess_keeps | with_reducible apply State.updBank_keeps | with_reducible refine keeps_foldl (fun _ _ _ => ?_) ?_ | with_reducible refine keeps_forUpto (fun _ _ _ => ?_) ?_ | split | with_reducible refine keeps_freeCnt (Nat.le_add_right _ _) ?_)

theorem State.arrive_keeps {x1} (h : Keeps a s) : Keeps a (State.arrive s x1) := by
  unfold State.arrive
  try dsimp only
  repeat' (first | with_reducible assumption | with_reducible apply State.track_keeps | with_reducible apply keeps_mapFab | with_reducible apply State.serve_keeps | with_reducible refine keeps_foldl (fun _ _ _ => ?_) ?_ | with_reducible refine keeps_forUpto (fun _ _ _ => ?_) ?_ | split | with_reducible refine keeps_freeCnt (Nat.le_add_right _ _) ?_)

theorem State.unsent_keeps {x1} (h : Keeps a s) : Keeps a (State.unsent s x1) := by
  unfold State.unsent
  try dsimp only
  repeat' (first | with_reducible assumption | with_reducible apply State.coreTrap_keeps | with_reducible apply keeps_mapFab | with_reducible refine keeps_foldl (fun _ _ _ => ?_) ?_ | with_reducible refine keeps_forUpto (fun _ _ _ => ?_) ?_ | split | with_reducible refine keeps_freeCnt (Nat.le_add_right _ _) ?_)

theorem State.farAccess_keeps {x1} (h : Keeps a s) : Keeps a (State.farAccess s x1) := by
  unfold State.farAccess
  try dsimp only
  repeat' (first | with_reducible assumption | with_reducible apply State.hpmCount_keeps | with_reducible refine keeps_foldl (fun _ _ _ => ?_) ?_ | with_reducible refine keeps_forUpto (fun _ _ _ => ?_) ?_ | split | with_reducible refine keeps_freeCnt (Nat.le_add_right _ _) ?_)

theorem State.request_keeps {x1} (h : Keeps a s) : Keeps a (State.request s x1) := by
  unfold State.request
  try dsimp only
  repeat' (first | with_reducible assumption | with_reducible apply State.farAccess_keeps | with_reducible apply keeps_mapFab | with_reducible apply State.arrive_keeps | with_reducible apply State.chaff_keeps | with_reducible apply State.coreTrap_keeps | with_reducible apply State.unsent_keeps | with_reducible refine keeps_foldl (fun _ _ _ => ?_) ?_ | with_reducible refine keeps_forUpto (fun _ _ _ => ?_) ?_ | split | with_reducible refine keeps_freeCnt (Nat.le_add_right _ _) ?_)

theorem State.access_keeps {x1 x2 x3} (h : Keeps a s) : Keeps a (State.access s x1 x2 x3) := by
  unfold State.access
  try dsimp only
  repeat' (first | with_reducible assumption | with_reducible apply State.request_keeps | with_reducible apply State.cohRequest_keeps | with_reducible apply State.coreTrap_keeps | with_reducible refine keeps_foldl (fun _ _ _ => ?_) ?_ | with_reducible refine keeps_forUpto (fun _ _ _ => ?_) ?_ | split | with_reducible refine keeps_freeCnt (Nat.le_add_right _ _) ?_)

theorem State.admitHeld_keeps {x1} (h : Keeps a s) : Keeps a (State.admitHeld s x1) := by
  unfold State.admitHeld
  try dsimp only
  repeat' (first | with_reducible assumption | with_reducible apply State.track_keeps | with_reducible apply State.serve_keeps | with_reducible apply State.chaff_keeps | with_reducible apply keeps_mapFab | with_reducible refine keeps_foldl (fun _ _ _ => ?_) ?_ | with_reducible refine keeps_forUpto (fun _ _ _ => ?_) ?_ | split | with_reducible refine keeps_freeCnt (Nat.le_add_right _ _) ?_)

theorem State.clearDone_keeps {x1 x2} (h : Keeps a s) : Keeps a (State.clearDone s x1 x2) := by
  unfold State.clearDone
  try dsimp only
  repeat' (first | with_reducible assumption | with_reducible apply State.updBank_keeps | with_reducible apply State.bankCleared_keeps | with_reducible apply State.serve_keeps | with_reducible refine keeps_foldl (fun _ _ _ => ?_) ?_ | with_reducible refine keeps_forUpto (fun _ _ _ => ?_) ?_ | split | with_reducible refine keeps_freeCnt (Nat.le_add_right _ _) ?_)

theorem execFabricRead_keeps {x0} (e : execFabricRead x0 s = .next t) : Keeps s t := by
  unfold execFabricRead at e
  have h := Keeps.refl s
  replace e := Host.Outcome.next.inj e
  subst e
  try dsimp only
  repeat' (first | with_reducible assumption | with_reducible apply State.access_keeps | with_reducible apply State.settle_keeps | with_reducible refine keeps_foldl (fun _ _ _ => ?_) ?_ | with_reducible refine keeps_forUpto (fun _ _ _ => ?_) ?_ | split | with_reducible refine keeps_freeCnt (Nat.le_add_right _ _) ?_)

theorem execFabricPostedWrite_keeps {x0 x1} (e : execFabricPostedWrite x0 x1 s = .next t) : Keeps s t := by
  unfold execFabricPostedWrite at e
  have h := Keeps.refl s
  replace e := Host.Outcome.next.inj e
  subst e
  try dsimp only
  repeat' (first | with_reducible assumption | with_reducible apply State.access_keeps | with_reducible apply State.settle_keeps | with_reducible refine keeps_foldl (fun _ _ _ => ?_) ?_ | with_reducible refine keeps_forUpto (fun _ _ _ => ?_) ?_ | split | with_reducible refine keeps_freeCnt (Nat.le_add_right _ _) ?_)

theorem execFabricAckWrite_keeps {x0 x1} (e : execFabricAckWrite x0 x1 s = .next t) : Keeps s t := by
  unfold execFabricAckWrite at e
  have h := Keeps.refl s
  replace e := Host.Outcome.next.inj e
  subst e
  try dsimp only
  repeat' (first | with_reducible assumption | with_reducible apply State.access_keeps | with_reducible apply State.settle_keeps | with_reducible refine keeps_foldl (fun _ _ _ => ?_) ?_ | with_reducible refine keeps_forUpto (fun _ _ _ => ?_) ?_ | split | with_reducible refine keeps_freeCnt (Nat.le_add_right _ _) ?_)

theorem execFabricAtomic_keeps {x0 x1 x2 x3} (e : execFabricAtomic x0 x1 x2 x3 s = .next t) : Keeps s t := by
  unfold execFabricAtomic at e
  have h := Keeps.refl s
  replace e := Host.Outcome.next.inj e
  subst e
  try dsimp only
  repeat' (first | with_reducible assumption | with_reducible apply State.access_keeps | with_reducible apply State.settle_keeps | with_reducible refine keeps_foldl (fun _ _ _ => ?_) ?_ | with_reducible refine keeps_forUpto (fun _ _ _ => ?_) ?_ | split | with_reducible refine keeps_freeCnt (Nat.le_add_right _ _) ?_)

theorem execRegisterWrite_keeps {x0 x1 x2 x3} (e : execRegisterWrite x0 x1 x2 x3 s = .next t) : Keeps s t := by
  unfold execRegisterWrite at e
  have h := Keeps.refl s
  replace e := Host.Outcome.next.inj e
  subst e
  try dsimp only
  repeat' (first | with_reducible assumption | with_reducible apply State.access_keeps | with_reducible apply State.settle_keeps | with_reducible refine keeps_foldl (fun _ _ _ => ?_) ?_ | with_reducible refine keeps_forUpto (fun _ _ _ => ?_) ?_ | split | with_reducible refine keeps_freeCnt (Nat.le_add_right _ _) ?_)

theorem execTrackerAdmit_keeps {x0} (e : execTrackerAdmit x0 s = .next t) : Keeps s t := by
  unfold execTrackerAdmit at e
  have h := Keeps.refl s
  replace e := Host.Outcome.next.inj e
  subst e
  try dsimp only
  repeat' (first | with_reducible assumption | with_reducible apply State.admitHeld_keeps | with_reducible apply State.hbmAdmit_keeps | with_reducible apply State.settle_keeps | with_reducible refine keeps_foldl (fun _ _ _ => ?_) ?_ | with_reducible refine keeps_forUpto (fun _ _ _ => ?_) ?_ | split | with_reducible refine keeps_freeCnt (Nat.le_add_right _ _) ?_)

theorem execBankClearDone_keeps {x0 x1} (e : execBankClearDone x0 x1 s = .next t) : Keeps s t := by
  unfold execBankClearDone at e
  have h := Keeps.refl s
  replace e := Host.Outcome.next.inj e
  subst e
  try dsimp only
  repeat' (first | with_reducible assumption | with_reducible apply State.clearDone_keeps | with_reducible refine keeps_foldl (fun _ _ _ => ?_) ?_ | with_reducible refine keeps_forUpto (fun _ _ _ => ?_) ?_ | split | with_reducible refine keeps_freeCnt (Nat.le_add_right _ _) ?_)

end Sys2Proof.Machine
end

