-- ==== Sys2Proof/Laws/KeepsReplies.lean ====
section
/-! SUPPORT. Every operation of Machine/Replies.lean carries `Keeps` on. -/

namespace Sys2Proof.Machine

set_option linter.unusedTactic false
set_option linter.unreachableTactic false

variable {a s t : State}

theorem State.updNext_keeps {x1 x2} (h : Keeps a s) : Keeps a (State.updNext s x1 x2) := by
  unfold State.updNext
  try dsimp only
  repeat' (first | with_reducible assumption | with_reducible apply State.updGleaner_keeps | with_reducible refine keeps_foldl (fun _ _ _ => ?_) ?_ | with_reducible refine keeps_forUpto (fun _ _ _ => ?_) ?_ | split | with_reducible refine keeps_freeCnt (Nat.le_add_right _ _) ?_)

theorem State.glnSend_keeps {x1 x2 x3 x4 x5} (h : Keeps a s) : Keeps a (State.glnSend s x1 x2 x3 x4 x5) := by
  unfold State.glnSend
  try dsimp only
  repeat' (first | with_reducible assumption | with_reducible apply State.updGleaner_keeps | with_reducible apply State.request_keeps | with_reducible refine keeps_foldl (fun _ _ _ => ?_) ?_ | with_reducible refine keeps_forUpto (fun _ _ _ => ?_) ?_ | split | with_reducible refine keeps_freeCnt (Nat.le_add_right _ _) ?_)

theorem State.streamFails_keeps {x1 x2 x3} (h : Keeps a s) : Keeps a (State.streamFails s x1 x2 x3) := by
  unfold State.streamFails
  try dsimp only
  repeat' (first | with_reducible assumption | with_reducible apply State.updGleaner_keeps | with_reducible apply State.glnFail_keeps | with_reducible refine keeps_foldl (fun _ _ _ => ?_) ?_ | with_reducible refine keeps_forUpto (fun _ _ _ => ?_) ?_ | split | with_reducible refine keeps_freeCnt (Nat.le_add_right _ _) ?_)

theorem State.awaitWalk_keeps {x1 x2} (h : Keeps a s) : Keeps a (State.awaitWalk s x1 x2) := by
  unfold State.awaitWalk
  try dsimp only
  repeat' (first | with_reducible assumption | with_reducible apply State.updKvw_keeps | with_reducible refine keeps_foldl (fun _ _ _ => ?_) ?_ | with_reducible refine keeps_forUpto (fun _ _ _ => ?_) ?_ | split | with_reducible refine keeps_freeCnt (Nat.le_add_right _ _) ?_)

theorem State.lookPage_keeps {x1 x2 x3} (h : Keeps a s) : Keeps a (State.lookPage s x1 x2 x3).2 := by
  unfold State.lookPage
  extract_lets k c r
  have hr : Keeps a r.2 := by
    dsimp only [r]
    split
    · exact State.kvLookup_keeps h
    · exact h
  clear_value r
  obtain ⟨r, t⟩ := r
  split
  · exact h
  · cases r with
    | none => exact State.awaitWalk_keeps hr
    | some f => exact State.updNext_keeps hr

theorem State.lookPage_keepsEq {x1 x2 x3 r} (e : State.lookPage s x1 x2 x3 = (r, t)) (h : Keeps a s) : Keeps a t := by
  have k := State.lookPage_keeps (a := a) (x1 := x1) (x2 := x2) (x3 := x3) h
  rw [e] at k; exact k

theorem State.glnAddr_keeps {x1 x2 x3} (h : Keeps a s) : Keeps a (State.glnAddr s x1 x2 x3).2 := by
  unfold State.glnAddr
  try dsimp only
  repeat' (first | with_reducible assumption | with_reducible apply State.lookPage_keeps | with_reducible refine State.lookPage_keepsEq (by assumption) ?_ | with_reducible refine keeps_foldl (fun _ _ _ => ?_) ?_ | with_reducible refine keeps_forUpto (fun _ _ _ => ?_) ?_ | split | with_reducible refine keeps_freeCnt (Nat.le_add_right _ _) ?_)

theorem State.glnAddr_keepsEq {x1 x2 x3 r} (e : State.glnAddr s x1 x2 x3 = (r, t)) (h : Keeps a s) : Keeps a t := by
  have k := State.glnAddr_keeps (a := a) (x1 := x1) (x2 := x2) (x3 := x3) h
  rw [e] at k; exact k

theorem State.glnIssue_keeps {u} : ∀ {n : Nat} {s : State}, Keeps a s → Keeps a (State.glnIssue u n s)
  | 0, _, h => h
  | n + 1, s, h => by
    unfold State.glnIssue
    dsimp only
    split
    · exact h
    · split
      · exact h
      · split
        · rename_i hu; exact State.glnAddr_keepsEq hu h
        · rename_i hu; exact State.glnIssue_keeps (State.glnSend_keeps (State.updNext_keeps (State.glnAddr_keepsEq hu h)))

theorem State.walkDone_keeps {x1 x2} (h : Keeps a s) : Keeps a (State.walkDone s x1 x2) := by
  unfold State.walkDone
  extract_lets k c src page r
  have hr : Keeps a r.2 := by
    dsimp only [r]
    split
    · split
      · rename_i hu; exact State.kvMiss_keepsEq hu h
      · rename_i hu; exact State.kvMiss_keepsEq hu h
    · split
      · rename_i hu; exact State.tcMiss_keepsEq hu h
      · rename_i hu; exact State.tcMiss_keepsEq hu h
  clear_value r
  obtain ⟨r, t⟩ := r
  cases r with
  | ok f => exact State.glnIssue_keeps (State.updNext_keeps hr)
  | error e => exact State.streamFails_keeps hr

theorem State.walkOne_keeps {x1} (h : Keeps a s) : Keeps a (State.walkOne s x1) := by
  unfold State.walkOne
  try dsimp only
  repeat' (first | with_reducible assumption | with_reducible apply State.walkDone_keeps | with_reducible apply State.updKvw_keeps | with_reducible refine keeps_foldl (fun _ _ _ => ?_) ?_ | with_reducible refine keeps_forUpto (fun _ _ _ => ?_) ?_ | split | with_reducible refine keeps_freeCnt (Nat.le_add_right _ _) ?_)

theorem execGlnStreamStart_keeps {x0 x1} (e : execGlnStreamStart x0 x1 s = .next t) : Keeps s t := by
  unfold execGlnStreamStart at e
  have h := Keeps.refl s
  replace e := Host.Outcome.next.inj e
  subst e
  try dsimp only
  repeat' (first | with_reducible assumption | with_reducible apply State.glnStart_keeps | with_reducible apply State.glnIssue_keeps | with_reducible apply State.settle_keeps | with_reducible refine keeps_foldl (fun _ _ _ => ?_) ?_ | with_reducible refine keeps_forUpto (fun _ _ _ => ?_) ?_ | split | with_reducible refine keeps_freeCnt (Nat.le_add_right _ _) ?_)

theorem State.glnSweep_keeps {x1} (h : Keeps a s) : Keeps a (State.glnSweep s x1) := by
  unfold State.glnSweep
  try dsimp only
  repeat' (first | with_reducible assumption | with_reducible apply State.endWalks_keeps | with_reducible apply State.updGleaner_keeps | with_reducible apply State.glnEnd_keeps | with_reducible refine keeps_foldl (fun _ _ _ => ?_) ?_ | with_reducible refine keeps_forUpto (fun _ _ _ => ?_) ?_ | split | with_reducible refine keeps_freeCnt (Nat.le_add_right _ _) ?_)

theorem State.glnGot_keeps {x1 x2 x3 x4} (h : Keeps a s) : Keeps a (State.glnGot s x1 x2 x3 x4) := by
  unfold State.glnGot
  try dsimp only
  repeat' (first | with_reducible assumption | with_reducible apply State.glnSend_keeps | with_reducible apply State.glnIssue_keeps | with_reducible apply State.updGleaner_keeps | with_reducible apply State.glnSweep_keeps | with_reducible apply State.streamFails_keeps | with_reducible refine keeps_foldl (fun _ _ _ => ?_) ?_ | with_reducible refine keeps_forUpto (fun _ _ _ => ?_) ?_ | split | with_reducible refine keeps_freeCnt (Nat.le_add_right _ _) ?_)

theorem State.coreGot_keeps {x1 x2 x3 x4} (h : Keeps a s) : Keeps a (State.coreGot s x1 x2 x3 x4) := by
  unfold State.coreGot
  try dsimp only
  repeat' (first | with_reducible assumption | with_reducible apply State.hpmCount_keeps | with_reducible apply State.coreTrap_keeps | with_reducible apply State.retireIns_keeps | with_reducible apply keeps_mapFab | with_reducible refine keeps_foldl (fun _ _ _ => ?_) ?_ | with_reducible refine keeps_forUpto (fun _ _ _ => ?_) ?_ | split | with_reducible refine keeps_freeCnt (Nat.le_add_right _ _) ?_)

theorem State.reply_keeps {x1 x2 x3} (h : Keeps a s) : Keeps a (State.reply s x1 x2 x3) := by
  unfold State.reply
  try dsimp only
  repeat' (first | with_reducible assumption | with_reducible apply State.coreGot_keeps | with_reducible apply State.glnGot_keeps | with_reducible apply keeps_mapFab | with_reducible apply State.chaff_keeps | with_reducible refine keeps_foldl (fun _ _ _ => ?_) ?_ | with_reducible refine keeps_forUpto (fun _ _ _ => ?_) ?_ | split | with_reducible refine keeps_freeCnt (Nat.le_add_right _ _) ?_)

theorem execFabricReply_keeps {x0 x1 x2} (e : execFabricReply x0 x1 x2 s = .next t) : Keeps s t := by
  unfold execFabricReply at e
  have h := Keeps.refl s
  replace e := Host.Outcome.next.inj e
  subst e
  try dsimp only
  repeat' (first | with_reducible assumption | with_reducible apply State.reply_keeps | with_reducible apply State.settle_keeps | with_reducible refine keeps_foldl (fun _ _ _ => ?_) ?_ | with_reducible refine keeps_forUpto (fun _ _ _ => ?_) ?_ | split | with_reducible refine keeps_freeCnt (Nat.le_add_right _ _) ?_)

end Sys2Proof.Machine
end

