-- ==== Sys2Proof/Laws/KeepsSwitch.lean ====
section
/-! SUPPORT. Every operation of Machine/Switch.lean carries `Keeps` on. -/

namespace Sys2Proof.Machine

set_option linter.unusedTactic false
set_option linter.unreachableTactic false

variable {a s t : State}

theorem State.metered_keeps {x1 x2} (h : Keeps a s) : Keeps a (State.metered s x1 x2).2 := by
  unfold State.metered
  try dsimp only
  repeat' (first | with_reducible assumption | with_reducible apply keeps_mapSw | with_reducible refine keeps_foldl (fun _ _ _ => ?_) ?_ | with_reducible refine keeps_forUpto (fun _ _ _ => ?_) ?_ | split | with_reducible refine keeps_freeCnt (Nat.le_add_right _ _) ?_)

theorem State.metered_keepsEq {x1 x2 r} (e : State.metered s x1 x2 = (r, t)) (h : Keeps a s) : Keeps a t := by
  have k := State.metered_keeps (a := a) (x1 := x1) (x2 := x2) h
  rw [e] at k; exact k

theorem State.filterPass_keeps {x1 x2} (h : Keeps a s) : Keeps a (State.filterPass s x1 x2).2 := by
  unfold State.filterPass
  try dsimp only
  repeat' (first | with_reducible assumption | with_reducible apply State.metered_keeps | with_reducible refine State.metered_keepsEq (by assumption) ?_ | with_reducible apply keeps_mapSw | with_reducible refine keeps_foldl (fun _ _ _ => ?_) ?_ | with_reducible refine keeps_forUpto (fun _ _ _ => ?_) ?_ | split | with_reducible refine keeps_freeCnt (Nat.le_add_right _ _) ?_)

theorem State.filterPass_keepsEq {x1 x2 r} (e : State.filterPass s x1 x2 = (r, t)) (h : Keeps a s) : Keeps a t := by
  have k := State.filterPass_keeps (a := a) (x1 := x1) (x2 := x2) h
  rw [e] at k; exact k

theorem State.generate_keeps {x1 x2} (h : Keeps a s) : Keeps a (State.generate s x1 x2).2 := by
  unfold State.generate
  try dsimp only
  repeat' (first | with_reducible assumption | with_reducible apply keeps_mapSw | with_reducible refine keeps_foldl (fun _ _ _ => ?_) ?_ | with_reducible refine keeps_forUpto (fun _ _ _ => ?_) ?_ | split | with_reducible refine keeps_freeCnt (Nat.le_add_right _ _) ?_)

theorem State.generate_keepsEq {x1 x2 r} (e : State.generate s x1 x2 = (r, t)) (h : Keeps a s) : Keeps a t := by
  have k := State.generate_keeps (a := a) (x1 := x1) (x2 := x2) h
  rw [e] at k; exact k

theorem State.recovered_keeps {x1 x2} (h : Keeps a s) : Keeps a (State.recovered s x1 x2).2 := by
  unfold State.recovered
  try dsimp only
  repeat' (first | with_reducible assumption | with_reducible apply keeps_mapSw | with_reducible refine keeps_foldl (fun _ _ _ => ?_) ?_ | with_reducible refine keeps_forUpto (fun _ _ _ => ?_) ?_ | split | with_reducible refine keeps_freeCnt (Nat.le_add_right _ _) ?_)

theorem State.recovered_keepsEq {x1 x2 r} (e : State.recovered s x1 x2 = (r, t)) (h : Keeps a s) : Keeps a t := by
  have k := State.recovered_keeps (a := a) (x1 := x1) (x2 := x2) h
  rw [e] at k; exact k

theorem State.relay_keeps {x1 x2 x3} (h : Keeps a s) : Keeps a (State.relay s x1 x2 x3) := by
  unfold State.relay
  try dsimp only
  repeat' (first | with_reducible assumption | with_reducible apply State.enqueue_keeps | with_reducible refine keeps_foldl (fun _ _ _ => ?_) ?_ | with_reducible refine keeps_forUpto (fun _ _ _ => ?_) ?_ | split | with_reducible refine keeps_freeCnt (Nat.le_add_right _ _) ?_)

theorem State.ptpLeave_keeps {x1 x2 x3} (h : Keeps a s) : Keeps a (State.ptpLeave s x1 x2 x3).2 := by
  unfold State.ptpLeave
  try dsimp only
  repeat' (first | with_reducible assumption | with_reducible apply keeps_mapSw | with_reducible refine keeps_foldl (fun _ _ _ => ?_) ?_ | with_reducible refine keeps_forUpto (fun _ _ _ => ?_) ?_ | split | with_reducible refine keeps_freeCnt (Nat.le_add_right _ _) ?_)

theorem State.ptpLeave_keepsEq {x1 x2 x3 r} (e : State.ptpLeave s x1 x2 x3 = (r, t)) (h : Keeps a s) : Keeps a t := by
  have k := State.ptpLeave_keeps (a := a) (x1 := x1) (x2 := x2) (x3 := x3) h
  rw [e] at k; exact k

theorem State.advertise_keeps {x1} (h : Keeps a s) : Keeps a (State.advertise s x1) := by
  unfold State.advertise
  try dsimp only
  repeat' (first | with_reducible assumption | with_reducible apply State.hostSend_keeps | with_reducible refine keeps_foldl (fun _ _ _ => ?_) ?_ | with_reducible refine keeps_forUpto (fun _ _ _ => ?_) ?_ | split | with_reducible refine keeps_freeCnt (Nat.le_add_right _ _) ?_)

theorem State.forwardFrame_keeps {x1 x2 x3} (h : Keeps a s) : Keeps a (State.forwardFrame s x1 x2 x3) := by
  unfold State.forwardFrame
  try dsimp only
  repeat' (first | with_reducible assumption | with_reducible apply State.updPort_keeps | with_reducible apply State.enqueue_keeps | with_reducible refine keeps_foldl (fun _ _ _ => ?_) ?_ | with_reducible refine keeps_forUpto (fun _ _ _ => ?_) ?_ | split | with_reducible refine keeps_freeCnt (Nat.le_add_right _ _) ?_)

theorem State.plainFrame_keeps {x1 x2 x3} (h : Keeps a s) : Keeps a (State.plainFrame s x1 x2 x3) := by
  unfold State.plainFrame
  try dsimp only
  repeat' (first | with_reducible assumption | with_reducible apply State.forwardFrame_keeps | with_reducible apply State.advertise_keeps | with_reducible apply keeps_mapSw | with_reducible refine keeps_foldl (fun _ _ _ => ?_) ?_ | with_reducible refine keeps_forUpto (fun _ _ _ => ?_) ?_ | split | with_reducible refine keeps_freeCnt (Nat.le_add_right _ _) ?_)

theorem State.streamFrame_keeps {x1 x2 x3 x4} (h : Keeps a s) : Keeps a (State.streamFrame s x1 x2 x3 x4) := by
  unfold State.streamFrame
  try dsimp only
  repeat' (first | with_reducible assumption | with_reducible apply State.forwardFrame_keeps | with_reducible apply keeps_mapSw | with_reducible apply State.updPort_keeps | with_reducible apply State.filterPass_keeps | with_reducible refine State.filterPass_keepsEq (by assumption) ?_ | with_reducible apply State.plainFrame_keeps | with_reducible apply State.generate_keeps | with_reducible refine State.generate_keepsEq (by assumption) ?_ | with_reducible apply State.recovered_keeps | with_reducible refine State.recovered_keepsEq (by assumption) ?_ | with_reducible refine keeps_foldl (fun _ _ _ => ?_) ?_ | with_reducible refine keeps_forUpto (fun _ _ _ => ?_) ?_ | split | with_reducible refine keeps_freeCnt (Nat.le_add_right _ _) ?_)

theorem State.frameRx_keeps {x1 x2} (h : Keeps a s) : Keeps a (State.frameRx s x1 x2) := by
  unfold State.frameRx
  try dsimp only
  repeat' (first | with_reducible assumption | with_reducible apply State.plainFrame_keeps | with_reducible apply State.streamFrame_keeps | with_reducible apply State.relay_keeps | with_reducible apply State.updPort_keeps | with_reducible refine keeps_foldl (fun _ _ _ => ?_) ?_ | with_reducible refine keeps_forUpto (fun _ _ _ => ?_) ?_ | split | with_reducible refine keeps_freeCnt (Nat.le_add_right _ _) ?_)

theorem State.txDone_keeps {x1} (h : Keeps a s) : Keeps a (State.txDone s x1) := by
  unfold State.txDone
  try dsimp only
  repeat' (first | with_reducible assumption | with_reducible apply keeps_mapSw | with_reducible apply State.updPort_keeps | with_reducible apply State.txNext_keeps | with_reducible apply State.ptpLeave_keeps | with_reducible refine State.ptpLeave_keepsEq (by assumption) ?_ | with_reducible refine keeps_foldl (fun _ _ _ => ?_) ?_ | with_reducible refine keeps_forUpto (fun _ _ _ => ?_) ?_ | split | with_reducible refine keeps_freeCnt (Nat.le_add_right _ _) ?_)

theorem State.qbvNext_keeps {x1} (h : Keeps a s) : Keeps a (State.qbvNext s x1) := by
  unfold State.qbvNext
  try dsimp only
  repeat' (first | with_reducible assumption | with_reducible apply State.updPort_keeps | with_reducible apply State.txNext_keeps | with_reducible refine keeps_foldl (fun _ _ _ => ?_) ?_ | with_reducible refine keeps_forUpto (fun _ _ _ => ?_) ?_ | split | with_reducible refine keeps_freeCnt (Nat.le_add_right _ _) ?_)

theorem State.epDown_keeps {x1} (h : Keeps a s) : Keeps a (State.epDown s x1) := by
  unfold State.epDown
  try dsimp only
  repeat' (first | with_reducible assumption | with_reducible apply State.updPort_keeps | with_reducible refine keeps_foldl (fun _ _ _ => ?_) ?_ | with_reducible refine keeps_forUpto (fun _ _ _ => ?_) ?_ | split | with_reducible refine keeps_freeCnt (Nat.le_add_right _ _) ?_)

theorem State.epUp_keeps {x1 x2} (h : Keeps a s) : Keeps a (State.epUp s x1 x2) := by
  unfold State.epUp
  try dsimp only
  repeat' (first | with_reducible assumption | with_reducible apply State.updPort_keeps | with_reducible apply State.txNext_keeps | with_reducible refine keeps_foldl (fun _ _ _ => ?_) ?_ | with_reducible refine keeps_forUpto (fun _ _ _ => ?_) ?_ | split | with_reducible refine keeps_freeCnt (Nat.le_add_right _ _) ?_)

theorem execSwitchFrameRx_keeps {x0 x1} (e : execSwitchFrameRx x0 x1 s = .next t) : Keeps s t := by
  unfold execSwitchFrameRx at e
  have h := Keeps.refl s
  replace e := Host.Outcome.next.inj e
  subst e
  try dsimp only
  repeat' (first | with_reducible assumption | with_reducible apply State.frameRx_keeps | with_reducible refine keeps_foldl (fun _ _ _ => ?_) ?_ | with_reducible refine keeps_forUpto (fun _ _ _ => ?_) ?_ | split | with_reducible refine keeps_freeCnt (Nat.le_add_right _ _) ?_)

theorem execQbvGateEntry_keeps {x0} (e : execQbvGateEntry x0 s = .next t) : Keeps s t := by
  unfold execQbvGateEntry at e
  have h := Keeps.refl s
  replace e := Host.Outcome.next.inj e
  subst e
  try dsimp only
  repeat' (first | with_reducible assumption | with_reducible apply State.qbvNext_keeps | with_reducible refine keeps_foldl (fun _ _ _ => ?_) ?_ | with_reducible refine keeps_forUpto (fun _ _ _ => ?_) ?_ | split | with_reducible refine keeps_freeCnt (Nat.le_add_right _ _) ?_)

theorem execEpLinkDown_keeps {x0} (e : execEpLinkDown x0 s = .next t) : Keeps s t := by
  unfold execEpLinkDown at e
  have h := Keeps.refl s
  replace e := Host.Outcome.next.inj e
  subst e
  try dsimp only
  repeat' (first | with_reducible assumption | with_reducible apply State.epDown_keeps | with_reducible refine keeps_foldl (fun _ _ _ => ?_) ?_ | with_reducible refine keeps_forUpto (fun _ _ _ => ?_) ?_ | split | with_reducible refine keeps_freeCnt (Nat.le_add_right _ _) ?_)

theorem execEpLinkUp_keeps {x0 x1} (e : execEpLinkUp x0 x1 s = .next t) : Keeps s t := by
  unfold execEpLinkUp at e
  have h := Keeps.refl s
  replace e := Host.Outcome.next.inj e
  subst e
  try dsimp only
  repeat' (first | with_reducible assumption | with_reducible apply State.epUp_keeps | with_reducible refine keeps_foldl (fun _ _ _ => ?_) ?_ | with_reducible refine keeps_forUpto (fun _ _ _ => ?_) ?_ | split | with_reducible refine keeps_freeCnt (Nat.le_add_right _ _) ?_)

theorem execEgressFrameSent_keeps {x0} (e : execEgressFrameSent x0 s = .next t) : Keeps s t := by
  unfold execEgressFrameSent at e
  have h := Keeps.refl s
  replace e := Host.Outcome.next.inj e
  subst e
  try dsimp only
  repeat' (first | with_reducible assumption | with_reducible apply State.txDone_keeps | with_reducible refine keeps_foldl (fun _ _ _ => ?_) ?_ | with_reducible refine keeps_forUpto (fun _ _ _ => ?_) ?_ | split | with_reducible refine keeps_freeCnt (Nat.le_add_right _ _) ?_)

end Sys2Proof.Machine
end

