-- ==== Sys2Proof/Laws/KeepsKcp.lean ====
section
/-! SUPPORT. Every operation of Machine/Kcp.lean carries `Keeps` on. -/

namespace Sys2Proof.Machine

set_option linter.unusedTactic false
set_option linter.unreachableTactic false

variable {a s t : State}

theorem State.setSession_keeps {x1 x2} (h : Keeps a s) : Keeps a (State.setSession s x1 x2) := by
  unfold State.setSession
  try dsimp only
  repeat' (first | with_reducible assumption | with_reducible apply keeps_mapKcp | with_reducible refine keeps_foldl (fun _ _ _ => ?_) ?_ | with_reducible refine keeps_forUpto (fun _ _ _ => ?_) ?_ | split | with_reducible refine keeps_freeCnt (Nat.le_add_right _ _) ?_)

theorem State.kcpDrop_keeps (h : Keeps a s) : Keeps a (State.kcpDrop s) := by
  unfold State.kcpDrop
  try dsimp only
  repeat' (first | with_reducible assumption | with_reducible apply keeps_mapKcp | with_reducible refine keeps_foldl (fun _ _ _ => ?_) ?_ | with_reducible refine keeps_forUpto (fun _ _ _ => ?_) ?_ | split | with_reducible refine keeps_freeCnt (Nat.le_add_right _ _) ?_)

theorem State.kcpSend_keeps {x1 x2 x3 x4} (h : Keeps a s) : Keeps a (State.kcpSend s x1 x2 x3 x4) := by
  unfold State.kcpSend
  try dsimp only
  repeat' (first | with_reducible assumption | with_reducible apply State.hostSend_keeps | with_reducible apply keeps_mapKcp | with_reducible refine keeps_foldl (fun _ _ _ => ?_) ?_ | with_reducible refine keeps_forUpto (fun _ _ _ => ?_) ?_ | split | with_reducible refine keeps_freeCnt (Nat.le_add_right _ _) ?_)

theorem State.kcpAnswer_keeps {x1 x2 x3} (h : Keeps a s) : Keeps a (State.kcpAnswer s x1 x2 x3) := by
  unfold State.kcpAnswer
  try dsimp only
  repeat' (first | with_reducible assumption | with_reducible apply State.kcpSend_keeps | with_reducible apply keeps_mapKcp | with_reducible refine keeps_foldl (fun _ _ _ => ?_) ?_ | with_reducible refine keeps_forUpto (fun _ _ _ => ?_) ?_ | split | with_reducible refine keeps_freeCnt (Nat.le_add_right _ _) ?_)

theorem kcpFlush_keeps : ∀ (n : Nat) {s : State}, Keeps a s → Keeps a (kcpFlush n s)
  | 0, _, h => h
  | n + 1, s, h => by
    unfold kcpFlush
    split
    · split
      · exact h
      · exact kcpFlush_keeps n (State.kcpAnswer_keeps h)
    · exact h

theorem kcpReadWords_keeps : ∀ (n off : Nat) {s : State}, Keeps a s → Keeps a (kcpReadWords n off s).2
  | 0, _, _, h => h
  | n + 1, off, s, h => by
    unfold kcpReadWords
    split
    · rename_i hu; exact kcpReadWords_keeps n _ (State.regRead_keepsEq hu h)
    · rename_i hu; exact State.regRead_keepsEq hu h

theorem kcpReadWords_keepsEq {n off r} (e : kcpReadWords n off s = (r, t)) (h : Keeps a s) : Keeps a t := by
  have k := kcpReadWords_keeps n off h
  rw [e] at k; exact k

theorem State.kcpRegRead_keeps {x1} (h : Keeps a s) : Keeps a (State.kcpRegRead s x1).2 := by
  unfold State.kcpRegRead
  try dsimp only
  repeat' (first | with_reducible assumption | with_reducible apply kcpReadWords_keeps | with_reducible refine kcpReadWords_keepsEq (by assumption) ?_ | with_reducible refine keeps_foldl (fun _ _ _ => ?_) ?_ | with_reducible refine keeps_forUpto (fun _ _ _ => ?_) ?_ | split | with_reducible refine keeps_freeCnt (Nat.le_add_right _ _) ?_)

theorem State.kcpRegRead_keepsEq {x1 r} (e : State.kcpRegRead s x1 = (r, t)) (h : Keeps a s) : Keeps a t := by
  have k := State.kcpRegRead_keeps (a := a) (x1 := x1) h
  rw [e] at k; exact k

theorem State.kcpSlotWrite_keeps {x1} (h : Keeps a s) : Keeps a (State.kcpSlotWrite s x1).2 := by
  unfold State.kcpSlotWrite
  try dsimp only
  repeat' (first | with_reducible assumption | with_reducible apply State.bodyWrite_keeps | with_reducible refine keeps_foldl (fun _ _ _ => ?_) ?_ | with_reducible refine keeps_forUpto (fun _ _ _ => ?_) ?_ | split | with_reducible refine keeps_freeCnt (Nat.le_add_right _ _) ?_)

theorem State.kcpSlotWrite_keepsEq {x1 r} (e : State.kcpSlotWrite s x1 = (r, t)) (h : Keeps a s) : Keeps a t := by
  have k := State.kcpSlotWrite_keeps (a := a) (x1 := x1) h
  rw [e] at k; exact k

theorem State.kcpSlotPost_keeps {x1} (h : Keeps a s) : Keeps a (State.kcpSlotPost s x1).2 := by
  unfold State.kcpSlotPost
  try dsimp only
  repeat' (first | with_reducible assumption | with_reducible apply State.bodyWrite_keeps | with_reducible apply State.ring_keeps | with_reducible refine keeps_foldl (fun _ _ _ => ?_) ?_ | with_reducible refine keeps_forUpto (fun _ _ _ => ?_) ?_ | split | with_reducible refine keeps_freeCnt (Nat.le_add_right _ _) ?_)

theorem State.kcpSlotPost_keepsEq {x1 r} (e : State.kcpSlotPost s x1 = (r, t)) (h : Keeps a s) : Keeps a t := by
  have k := State.kcpSlotPost_keeps (a := a) (x1 := x1) h
  rw [e] at k; exact k

theorem State.kcpDoorbell_keeps {x1} (h : Keeps a s) : Keeps a (State.kcpDoorbell s x1).2 := by
  unfold State.kcpDoorbell
  try dsimp only
  repeat' (first | with_reducible assumption | with_reducible apply State.ring_keeps | with_reducible refine keeps_foldl (fun _ _ _ => ?_) ?_ | with_reducible refine keeps_forUpto (fun _ _ _ => ?_) ?_ | split | with_reducible refine keeps_freeCnt (Nat.le_add_right _ _) ?_)

theorem State.kcpDoorbell_keepsEq {x1 r} (e : State.kcpDoorbell s x1 = (r, t)) (h : Keeps a s) : Keeps a t := by
  have k := State.kcpDoorbell_keeps (a := a) (x1 := x1) h
  rw [e] at k; exact k

theorem State.kcpRelease_keeps {x1} (h : Keeps a s) : Keeps a (State.kcpRelease s x1).2 := by
  unfold State.kcpRelease
  try dsimp only
  repeat' (first | with_reducible assumption | with_reducible apply State.releaseSlots_keeps | with_reducible refine keeps_foldl (fun _ _ _ => ?_) ?_ | with_reducible refine keeps_forUpto (fun _ _ _ => ?_) ?_ | split | with_reducible refine keeps_freeCnt (Nat.le_add_right _ _) ?_)

theorem State.kcpRelease_keepsEq {x1 r} (e : State.kcpRelease s x1 = (r, t)) (h : Keeps a s) : Keeps a t := by
  have k := State.kcpRelease_keeps (a := a) (x1 := x1) h
  rw [e] at k; exact k

theorem State.kcpLedger_keeps {x1} (h : Keeps a s) : Keeps a (State.kcpLedger s x1).2 := by
  unfold State.kcpLedger
  try dsimp only
  repeat' (first | with_reducible assumption | with_reducible apply State.updWin_keeps | with_reducible apply keeps_mapKcp | with_reducible refine keeps_foldl (fun _ _ _ => ?_) ?_ | with_reducible refine keeps_forUpto (fun _ _ _ => ?_) ?_ | split | with_reducible refine keeps_freeCnt (Nat.le_add_right _ _) ?_)

theorem State.kcpLedger_keepsEq {x1 r} (e : State.kcpLedger s x1 = (r, t)) (h : Keeps a s) : Keeps a t := by
  have k := State.kcpLedger_keeps (a := a) (x1 := x1) h
  rw [e] at k; exact k

theorem State.kcpBulk_keeps {x1} (h : Keeps a s) : Keeps a (State.kcpBulk s x1).2 := by
  unfold State.kcpBulk
  try dsimp only
  repeat' (first | with_reducible assumption | with_reducible apply State.store_keeps | with_reducible refine State.store_keepsEq (by assumption) ?_ | with_reducible refine keeps_foldl (fun _ _ _ => ?_) ?_ | with_reducible refine keeps_forUpto (fun _ _ _ => ?_) ?_ | split | with_reducible refine keeps_freeCnt (Nat.le_add_right _ _) ?_)

theorem State.kcpBulk_keepsEq {x1 r} (e : State.kcpBulk s x1 = (r, t)) (h : Keeps a s) : Keeps a t := by
  have k := State.kcpBulk_keeps (a := a) (x1 := x1) h
  rw [e] at k; exact k

theorem State.kcpPerform_keeps {x1} {f : List Byte → State → Option KDone × State} (hf : ∀ b s, Keeps a s → Keeps a (f b s).2)
    (h : Keeps a s) : Keeps a (State.kcpPerform s x1 f) := by
  unfold State.kcpPerform
  split
  · exact h
  · rename_i q _ _
    split
    · exact h
    · split
      · exact kcpFlush_keeps _ (State.kcpAnswer_keeps h)
      · have k := hf q.payload s h
        split
        · rename_i hu
          rw [hu] at k
          exact kcpFlush_keeps _ (State.kcpAnswer_keeps k)
        · rename_i hu
          rw [hu] at k
          exact k

theorem State.kcpOpen_keeps {x1 x2} (h : Keeps a s) : Keeps a (State.kcpOpen s x1 x2) := by
  unfold State.kcpOpen
  try dsimp only
  repeat' (first | with_reducible assumption | with_reducible refine keeps_mapSec (by intro x; rfl) (by intro x; rfl) (by intro x; exact Nat.le_refl _) (by intro x; rfl) ?_ | with_reducible apply State.setSession_keeps | with_reducible apply State.freeWord_keeps | with_reducible refine State.freeWord_keepsEq (by assumption) ?_ | with_reducible apply State.kcpSend_keeps | with_reducible apply State.freeBytes_keeps | with_reducible refine State.freeBytes_keepsEq (by assumption) ?_ | with_reducible apply keeps_mapKcp | with_reducible apply State.kcpDrop_keeps | with_reducible refine keeps_foldl (fun _ _ _ => ?_) ?_ | with_reducible refine keeps_forUpto (fun _ _ _ => ?_) ?_ | split | with_reducible refine keeps_freeCnt (Nat.le_add_right _ _) ?_)

theorem State.kcpClose_keeps {x1} (h : Keeps a s) : Keeps a (State.kcpClose s x1) := by
  unfold State.kcpClose
  try dsimp only
  repeat' (first | with_reducible assumption | with_reducible apply State.setSession_keeps | with_reducible apply State.kcpDrop_keeps | with_reducible refine keeps_foldl (fun _ _ _ => ?_) ?_ | with_reducible refine keeps_forUpto (fun _ _ _ => ?_) ?_ | split | with_reducible refine keeps_freeCnt (Nat.le_add_right _ _) ?_)

theorem State.kcpRequest_keeps {x1 x2} (h : Keeps a s) : Keeps a (State.kcpRequest s x1 x2) := by
  unfold State.kcpRequest
  try dsimp only
  repeat' (first | with_reducible assumption | with_reducible apply State.setSession_keeps | with_reducible apply kcpFlush_keeps | with_reducible apply keeps_mapKcp | with_reducible apply State.kcpDrop_keeps | with_reducible refine keeps_foldl (fun _ _ _ => ?_) ?_ | with_reducible refine keeps_forUpto (fun _ _ _ => ?_) ?_ | split | with_reducible refine keeps_freeCnt (Nat.le_add_right _ _) ?_)

theorem State.hostFrame_keeps {x1} (h : Keeps a s) : Keeps a (State.hostFrame s x1).2 := by
  unfold State.hostFrame
  try dsimp only
  repeat' (first | with_reducible assumption | with_reducible apply keeps_mapSw | with_reducible refine keeps_foldl (fun _ _ _ => ?_) ?_ | with_reducible refine keeps_forUpto (fun _ _ _ => ?_) ?_ | split | with_reducible refine keeps_freeCnt (Nat.le_add_right _ _) ?_)

theorem State.hostFrame_keepsEq {x1 r} (e : State.hostFrame s x1 = (r, t)) (h : Keeps a s) : Keeps a t := by
  have k := State.hostFrame_keeps (a := a) (x1 := x1) h
  rw [e] at k; exact k

theorem State.kcpRx_keeps {x1} (h : Keeps a s) : Keeps a (State.kcpRx s x1) := by
  unfold State.kcpRx
  try dsimp only
  repeat' (first | with_reducible assumption | with_reducible apply State.kcpRequest_keeps | with_reducible apply State.kcpClose_keeps | with_reducible apply State.kcpOpen_keeps | with_reducible apply State.hostFrame_keeps | with_reducible refine State.hostFrame_keepsEq (by assumption) ?_ | with_reducible refine keeps_foldl (fun _ _ _ => ?_) ?_ | with_reducible refine keeps_forUpto (fun _ _ _ => ?_) ?_ | split | with_reducible refine keeps_freeCnt (Nat.le_add_right _ _) ?_)

theorem State.sessionIdle_keeps {x1} (h : Keeps a s) : Keeps a (State.sessionIdle s x1) := by
  unfold State.sessionIdle
  try dsimp only
  repeat' (first | with_reducible assumption | with_reducible apply State.setSession_keeps | with_reducible refine keeps_foldl (fun _ _ _ => ?_) ?_ | with_reducible refine keeps_forUpto (fun _ _ _ => ?_) ?_ | split | with_reducible refine keeps_freeCnt (Nat.le_add_right _ _) ?_)

theorem execKcpFrameRx_keeps {x0} (e : execKcpFrameRx x0 s = .next t) : Keeps s t := by
  unfold execKcpFrameRx at e
  have h := Keeps.refl s
  replace e := Host.Outcome.next.inj e
  subst e
  try dsimp only
  repeat' (first | with_reducible assumption | with_reducible apply State.kcpRx_keeps | with_reducible refine keeps_foldl (fun _ _ _ => ?_) ?_ | with_reducible refine keeps_forUpto (fun _ _ _ => ?_) ?_ | split | with_reducible refine keeps_freeCnt (Nat.le_add_right _ _) ?_)

theorem execRegRead_keeps (e : execRegRead s = .next t) : Keeps s t := by
  unfold execRegRead at e
  have h := Keeps.refl s
  replace e := Host.Outcome.next.inj e
  subst e
  try dsimp only
  repeat' (first | with_reducible assumption | with_reducible apply State.kcpRegRead_keeps | with_reducible refine State.kcpRegRead_keepsEq (by assumption) ?_ | with_reducible refine State.kcpPerform_keeps (fun _ _ _ => ?_) ?_ | with_reducible refine keeps_foldl (fun _ _ _ => ?_) ?_ | with_reducible refine keeps_forUpto (fun _ _ _ => ?_) ?_ | split | with_reducible refine keeps_freeCnt (Nat.le_add_right _ _) ?_)

theorem execSlotWrite_keeps (e : execSlotWrite s = .next t) : Keeps s t := by
  unfold execSlotWrite at e
  have h := Keeps.refl s
  replace e := Host.Outcome.next.inj e
  subst e
  try dsimp only
  repeat' (first | with_reducible assumption | with_reducible apply State.kcpSlotWrite_keeps | with_reducible refine State.kcpSlotWrite_keepsEq (by assumption) ?_ | with_reducible refine State.kcpPerform_keeps (fun _ _ _ => ?_) ?_ | with_reducible refine keeps_foldl (fun _ _ _ => ?_) ?_ | with_reducible refine keeps_forUpto (fun _ _ _ => ?_) ?_ | split | with_reducible refine keeps_freeCnt (Nat.le_add_right _ _) ?_)

theorem execSlotPost_keeps (e : execSlotPost s = .next t) : Keeps s t := by
  unfold execSlotPost at e
  have h := Keeps.refl s
  replace e := Host.Outcome.next.inj e
  subst e
  try dsimp only
  repeat' (first | with_reducible assumption | with_reducible apply State.kcpSlotPost_keeps | with_reducible refine State.kcpSlotPost_keepsEq (by assumption) ?_ | with_reducible refine State.kcpPerform_keeps (fun _ _ _ => ?_) ?_ | with_reducible refine keeps_foldl (fun _ _ _ => ?_) ?_ | with_reducible refine keeps_forUpto (fun _ _ _ => ?_) ?_ | split | with_reducible refine keeps_freeCnt (Nat.le_add_right _ _) ?_)

theorem execDoorbell_keeps (e : execDoorbell s = .next t) : Keeps s t := by
  unfold execDoorbell at e
  have h := Keeps.refl s
  replace e := Host.Outcome.next.inj e
  subst e
  try dsimp only
  repeat' (first | with_reducible assumption | with_reducible apply State.kcpDoorbell_keeps | with_reducible refine State.kcpDoorbell_keepsEq (by assumption) ?_ | with_reducible refine State.kcpPerform_keeps (fun _ _ _ => ?_) ?_ | with_reducible refine keeps_foldl (fun _ _ _ => ?_) ?_ | with_reducible refine keeps_forUpto (fun _ _ _ => ?_) ?_ | split | with_reducible refine keeps_freeCnt (Nat.le_add_right _ _) ?_)

theorem execRelease_keeps (e : execRelease s = .next t) : Keeps s t := by
  unfold execRelease at e
  have h := Keeps.refl s
  replace e := Host.Outcome.next.inj e
  subst e
  try dsimp only
  repeat' (first | with_reducible assumption | with_reducible apply State.kcpRelease_keeps | with_reducible refine State.kcpRelease_keepsEq (by assumption) ?_ | with_reducible refine State.kcpPerform_keeps (fun _ _ _ => ?_) ?_ | with_reducible refine keeps_foldl (fun _ _ _ => ?_) ?_ | with_reducible refine keeps_forUpto (fun _ _ _ => ?_) ?_ | split | with_reducible refine keeps_freeCnt (Nat.le_add_right _ _) ?_)

theorem execLedgerRead_keeps (e : execLedgerRead s = .next t) : Keeps s t := by
  unfold execLedgerRead at e
  have h := Keeps.refl s
  replace e := Host.Outcome.next.inj e
  subst e
  try dsimp only
  repeat' (first | with_reducible assumption | with_reducible apply State.kcpLedger_keeps | with_reducible refine State.kcpLedger_keepsEq (by assumption) ?_ | with_reducible refine State.kcpPerform_keeps (fun _ _ _ => ?_) ?_ | with_reducible refine keeps_foldl (fun _ _ _ => ?_) ?_ | with_reducible refine keeps_forUpto (fun _ _ _ => ?_) ?_ | split | with_reducible refine keeps_freeCnt (Nat.le_add_right _ _) ?_)

theorem execBulkWrite_keeps (e : execBulkWrite s = .next t) : Keeps s t := by
  unfold execBulkWrite at e
  have h := Keeps.refl s
  replace e := Host.Outcome.next.inj e
  subst e
  try dsimp only
  repeat' (first | with_reducible assumption | with_reducible apply State.kcpBulk_keeps | with_reducible refine State.kcpBulk_keepsEq (by assumption) ?_ | with_reducible refine State.kcpPerform_keeps (fun _ _ _ => ?_) ?_ | with_reducible refine keeps_foldl (fun _ _ _ => ?_) ?_ | with_reducible refine keeps_forUpto (fun _ _ _ => ?_) ?_ | split | with_reducible refine keeps_freeCnt (Nat.le_add_right _ _) ?_)

theorem execSessionOpen_keeps {x0} (e : execSessionOpen x0 s = .next t) : Keeps s t := by
  unfold execSessionOpen at e
  have h := Keeps.refl s
  replace e := Host.Outcome.next.inj e
  subst e
  try dsimp only
  repeat' (first | with_reducible assumption | with_reducible apply State.kcpDrop_keeps | with_reducible apply State.kcpOpen_keeps | with_reducible apply State.hostFrame_keeps | with_reducible refine State.hostFrame_keepsEq (by assumption) ?_ | with_reducible refine keeps_foldl (fun _ _ _ => ?_) ?_ | with_reducible refine keeps_forUpto (fun _ _ _ => ?_) ?_ | split | with_reducible refine keeps_freeCnt (Nat.le_add_right _ _) ?_)

theorem execSessionClose_keeps {x0} (e : execSessionClose x0 s = .next t) : Keeps s t := by
  unfold execSessionClose at e
  have h := Keeps.refl s
  replace e := Host.Outcome.next.inj e
  subst e
  try dsimp only
  repeat' (first | with_reducible assumption | with_reducible apply State.kcpDrop_keeps | with_reducible apply State.kcpClose_keeps | with_reducible apply State.hostFrame_keeps | with_reducible refine State.hostFrame_keepsEq (by assumption) ?_ | with_reducible refine keeps_foldl (fun _ _ _ => ?_) ?_ | with_reducible refine keeps_forUpto (fun _ _ _ => ?_) ?_ | split | with_reducible refine keeps_freeCnt (Nat.le_add_right _ _) ?_)

theorem execSessionIdleExpiry_keeps {x0} (e : execSessionIdleExpiry x0 s = .next t) : Keeps s t := by
  unfold execSessionIdleExpiry at e
  have h := Keeps.refl s
  replace e := Host.Outcome.next.inj e
  subst e
  try dsimp only
  repeat' (first | with_reducible assumption | with_reducible apply State.sessionIdle_keeps | with_reducible refine keeps_foldl (fun _ _ _ => ?_) ?_ | with_reducible refine keeps_forUpto (fun _ _ _ => ?_) ?_ | split | with_reducible refine keeps_freeCnt (Nat.le_add_right _ _) ?_)

end Sys2Proof.Machine
end

