-- ==== Sys2Proof/Laws/KeepsDenpa.lean ====
section
/-! SUPPORT. Every operation of Machine/Denpa.lean carries `Keeps` on. -/

namespace Sys2Proof.Machine

set_option linter.unusedTactic false
set_option linter.unreachableTactic false

variable {a s t : State}

theorem State.dnpTrain_keeps (h : Keeps a s) : Keeps a (State.dnpTrain s) := by
  unfold State.dnpTrain
  try dsimp only
  repeat' (first | with_reducible assumption | with_reducible apply keeps_mapDnp | with_reducible refine keeps_mapPair (by intro x; first | with_reducible rfl | (dsimp only; repeat' split) <;> with_reducible rfl) ?_ | with_reducible refine keeps_foldl (fun _ _ _ => ?_) ?_ | with_reducible refine keeps_forUpto (fun _ _ _ => ?_) ?_ | split | with_reducible refine keeps_freeCnt (Nat.le_add_right _ _) ?_)

theorem State.dnpFail_keeps (h : Keeps a s) : Keeps a (State.dnpFail s) := by
  unfold State.dnpFail
  try dsimp only
  repeat' (first | with_reducible assumption | with_reducible apply keeps_mapDnp | with_reducible refine keeps_foldl (fun _ _ _ => ?_) ?_ | with_reducible refine keeps_forUpto (fun _ _ _ => ?_) ?_ | split | with_reducible refine keeps_freeCnt (Nat.le_add_right _ _) ?_)

theorem State.dnpUp_keeps (h : Keeps a s) : Keeps a (State.dnpUp s) := by
  unfold State.dnpUp
  try dsimp only
  repeat' (first | with_reducible assumption | with_reducible apply keeps_mapDnp | with_reducible apply State.tryJoin_keeps | with_reducible apply State.rehCheck_keeps | with_reducible refine keeps_foldl (fun _ _ _ => ?_) ?_ | with_reducible refine keeps_forUpto (fun _ _ _ => ?_) ?_ | split | with_reducible refine keeps_freeCnt (Nat.le_add_right _ _) ?_)

theorem State.dnpTrained_keeps {x1} (h : Keeps a s) : Keeps a (State.dnpTrained s x1) := by
  unfold State.dnpTrained
  try dsimp only
  repeat' (first | with_reducible assumption | with_reducible apply State.dnpUp_keeps | with_reducible apply State.dnpFail_keeps | with_reducible refine keeps_foldl (fun _ _ _ => ?_) ?_ | with_reducible refine keeps_forUpto (fun _ _ _ => ?_) ?_ | split | with_reducible refine keeps_freeCnt (Nat.le_add_right _ _) ?_)

theorem State.dnpRetry_keeps (h : Keeps a s) : Keeps a (State.dnpRetry s) := by
  unfold State.dnpRetry
  try dsimp only
  repeat' (first | with_reducible assumption | with_reducible apply State.dnpTrain_keeps | with_reducible refine keeps_foldl (fun _ _ _ => ?_) ?_ | with_reducible refine keeps_forUpto (fun _ _ _ => ?_) ?_ | split | with_reducible refine keeps_freeCnt (Nat.le_add_right _ _) ?_)

theorem State.dnpRetrain_keeps (h : Keeps a s) : Keeps a (State.dnpRetrain s) := by
  unfold State.dnpRetrain
  try dsimp only
  repeat' (first | with_reducible assumption | with_reducible apply State.dnpTrain_keeps | with_reducible refine keeps_foldl (fun _ _ _ => ?_) ?_ | with_reducible refine keeps_forUpto (fun _ _ _ => ?_) ?_ | split | with_reducible refine keeps_freeCnt (Nat.le_add_right _ _) ?_)

theorem State.dnpSend_keeps (h : Keeps a s) : Keeps a (State.dnpSend s) := by
  unfold State.dnpSend
  try dsimp only
  repeat' (first | with_reducible assumption | with_reducible apply keeps_mapDnp | with_reducible refine keeps_foldl (fun _ _ _ => ?_) ?_ | with_reducible refine keeps_forUpto (fun _ _ _ => ?_) ?_ | split | with_reducible refine keeps_freeCnt (Nat.le_add_right _ _) ?_)

theorem State.dnpRecv_keeps {x1} (h : Keeps a s) : Keeps a (State.dnpRecv s x1) := by
  unfold State.dnpRecv
  try dsimp only
  repeat' (first | with_reducible assumption | with_reducible apply State.linkFault_keeps | with_reducible apply keeps_mapDnp | with_reducible refine keeps_foldl (fun _ _ _ => ?_) ?_ | with_reducible refine keeps_forUpto (fun _ _ _ => ?_) ?_ | split | with_reducible refine keeps_freeCnt (Nat.le_add_right _ _) ?_)

theorem State.dnpAckLate_keeps (h : Keeps a s) : Keeps a (State.dnpAckLate s) := by
  unfold State.dnpAckLate
  try dsimp only
  repeat' (first | with_reducible assumption | with_reducible apply State.linkFault_keeps | with_reducible refine keeps_foldl (fun _ _ _ => ?_) ?_ | with_reducible refine keeps_forUpto (fun _ _ _ => ?_) ?_ | split | with_reducible refine keeps_freeCnt (Nat.le_add_right _ _) ?_)

theorem State.dnpStarved_keeps {x1} (h : Keeps a s) : Keeps a (State.dnpStarved s x1) := by
  unfold State.dnpStarved
  try dsimp only
  repeat' (first | with_reducible assumption | with_reducible apply State.linkFault_keeps | with_reducible refine keeps_foldl (fun _ _ _ => ?_) ?_ | with_reducible refine keeps_forUpto (fun _ _ _ => ?_) ?_ | split | with_reducible refine keeps_freeCnt (Nat.le_add_right _ _) ?_)

theorem execDenpaTrainingDone_keeps {x0} (e : execDenpaTrainingDone x0 s = .next t) : Keeps s t := by
  unfold execDenpaTrainingDone at e
  have h := Keeps.refl s
  replace e := Host.Outcome.next.inj e
  subst e
  try dsimp only
  repeat' (first | with_reducible assumption | with_reducible apply State.dnpTrained_keeps | with_reducible refine keeps_foldl (fun _ _ _ => ?_) ?_ | with_reducible refine keeps_forUpto (fun _ _ _ => ?_) ?_ | split | with_reducible refine keeps_freeCnt (Nat.le_add_right _ _) ?_)

theorem execDenpaTrainingRetry_keeps (e : execDenpaTrainingRetry s = .next t) : Keeps s t := by
  unfold execDenpaTrainingRetry at e
  have h := Keeps.refl s
  replace e := Host.Outcome.next.inj e
  subst e
  try dsimp only
  repeat' (first | with_reducible assumption | with_reducible apply State.dnpRetry_keeps | with_reducible refine keeps_foldl (fun _ _ _ => ?_) ?_ | with_reducible refine keeps_forUpto (fun _ _ _ => ?_) ?_ | split | with_reducible refine keeps_freeCnt (Nat.le_add_right _ _) ?_)

theorem execDenpaRetrainStart_keeps (e : execDenpaRetrainStart s = .next t) : Keeps s t := by
  unfold execDenpaRetrainStart at e
  have h := Keeps.refl s
  replace e := Host.Outcome.next.inj e
  subst e
  try dsimp only
  repeat' (first | with_reducible assumption | with_reducible apply State.dnpRetrain_keeps | with_reducible refine keeps_foldl (fun _ _ _ => ?_) ?_ | with_reducible refine keeps_forUpto (fun _ _ _ => ?_) ?_ | split | with_reducible refine keeps_freeCnt (Nat.le_add_right _ _) ?_)

theorem execDenpaFrameRx_keeps {x0} (e : execDenpaFrameRx x0 s = .next t) : Keeps s t := by
  unfold execDenpaFrameRx at e
  have h := Keeps.refl s
  replace e := Host.Outcome.next.inj e
  subst e
  try dsimp only
  repeat' (first | with_reducible assumption | with_reducible apply State.dnpRecv_keeps | with_reducible apply State.settle_keeps | with_reducible apply State.carryCheck_keeps | with_reducible refine keeps_foldl (fun _ _ _ => ?_) ?_ | with_reducible refine keeps_forUpto (fun _ _ _ => ?_) ?_ | split | with_reducible refine keeps_freeCnt (Nat.le_add_right _ _) ?_)

theorem execDenpaFrameTx_keeps (e : execDenpaFrameTx s = .next t) : Keeps s t := by
  unfold execDenpaFrameTx at e
  have h := Keeps.refl s
  replace e := Host.Outcome.next.inj e
  subst e
  try dsimp only
  repeat' (first | with_reducible assumption | with_reducible apply State.dnpSend_keeps | with_reducible refine keeps_foldl (fun _ _ _ => ?_) ?_ | with_reducible refine keeps_forUpto (fun _ _ _ => ?_) ?_ | split | with_reducible refine keeps_freeCnt (Nat.le_add_right _ _) ?_)

theorem execDenpaAckTimeout_keeps (e : execDenpaAckTimeout s = .next t) : Keeps s t := by
  unfold execDenpaAckTimeout at e
  have h := Keeps.refl s
  replace e := Host.Outcome.next.inj e
  subst e
  try dsimp only
  repeat' (first | with_reducible assumption | with_reducible apply State.dnpAckLate_keeps | with_reducible apply State.settle_keeps | with_reducible apply State.carryCheck_keeps | with_reducible refine keeps_foldl (fun _ _ _ => ?_) ?_ | with_reducible refine keeps_forUpto (fun _ _ _ => ?_) ?_ | split | with_reducible refine keeps_freeCnt (Nat.le_add_right _ _) ?_)

theorem execDenpaCreditTimeout_keeps {x0} (e : execDenpaCreditTimeout x0 s = .next t) : Keeps s t := by
  unfold execDenpaCreditTimeout at e
  have h := Keeps.refl s
  replace e := Host.Outcome.next.inj e
  subst e
  try dsimp only
  repeat' (first | with_reducible assumption | with_reducible apply State.dnpStarved_keeps | with_reducible apply State.settle_keeps | with_reducible apply State.carryCheck_keeps | with_reducible refine keeps_foldl (fun _ _ _ => ?_) ?_ | with_reducible refine keeps_forUpto (fun _ _ _ => ?_) ?_ | split | with_reducible refine keeps_freeCnt (Nat.le_add_right _ _) ?_)

end Sys2Proof.Machine
end

