-- ==== Sys2Proof/Laws/KeepsMessages.lean ====
section
/-! SUPPORT. Every operation of Machine/Messages.lean carries `Keeps` on. -/

namespace Sys2Proof.Machine

set_option linter.unusedTactic false
set_option linter.unreachableTactic false

variable {a s t : State}

theorem State.takeMsg_keeps {x1} (h : Keeps a s) : Keeps a (State.takeMsg s x1) := by
  unfold State.takeMsg
  try dsimp only
  repeat' (first | with_reducible assumption | with_reducible apply keeps_mapDnp | with_reducible refine keeps_foldl (fun _ _ _ => ?_) ?_ | with_reducible refine keeps_forUpto (fun _ _ _ => ?_) ?_ | split | with_reducible refine keeps_freeCnt (Nat.le_add_right _ _) ?_)

theorem State.recvMsg_keeps {x1 x2} {f : State → State} (hf : ∀ s, Keeps a s → Keeps a (f s)) (h : Keeps a s) :
    Keeps a (State.recvMsg s x1 x2 f) := by
  unfold State.recvMsg
  split
  · exact State.carryCheck_keeps (State.settle_keeps (hf _ (State.takeMsg_keeps h)))
  · exact h

theorem State.updTwin_keeps {x1 x2} (h : Keeps a s) : Keeps a (State.updTwin s x1 x2) := by
  unfold State.updTwin
  try dsimp only
  repeat' (first | with_reducible assumption | with_reducible refine keeps_mapPair (by intro x; first | with_reducible rfl | (dsimp only; repeat' split) <;> with_reducible rfl) ?_ | with_reducible apply State.updEp_keeps | with_reducible refine keeps_foldl (fun _ _ _ => ?_) ?_ | with_reducible refine keeps_forUpto (fun _ _ _ => ?_) ?_ | split | with_reducible refine keeps_freeCnt (Nat.le_add_right _ _) ?_)

theorem State.gotCredit_keeps {x1 x2} (h : Keeps a s) : Keeps a (State.gotCredit s x1 x2) := by
  unfold State.gotCredit
  try dsimp only
  repeat' (first | with_reducible assumption | with_reducible apply keeps_mapDnp | with_reducible refine keeps_foldl (fun _ _ _ => ?_) ?_ | with_reducible refine keeps_forUpto (fun _ _ _ => ?_) ?_ | split | with_reducible refine keeps_freeCnt (Nat.le_add_right _ _) ?_)

theorem State.gotIdent_keeps {x1 x2 x3} (h : Keeps a s) : Keeps a (State.gotIdent s x1 x2 x3) := by
  unfold State.gotIdent
  try dsimp only
  repeat' (first | with_reducible assumption | with_reducible refine keeps_mapPair (by intro x; first | with_reducible rfl | (dsimp only; repeat' split) <;> with_reducible rfl) ?_ | with_reducible apply State.dnpFail_keeps | with_reducible refine keeps_foldl (fun _ _ _ => ?_) ?_ | with_reducible refine keeps_forUpto (fun _ _ _ => ?_) ?_ | split | with_reducible refine keeps_freeCnt (Nat.le_add_right _ _) ?_)

theorem State.roleAtStart_keeps (h : Keeps a s) : Keeps a (State.roleAtStart s) := by
  unfold State.roleAtStart
  try dsimp only
  repeat' (first | with_reducible assumption | with_reducible apply State.setPState_keeps | with_reducible refine keeps_foldl (fun _ _ _ => ?_) ?_ | with_reducible refine keeps_forUpto (fun _ _ _ => ?_) ?_ | split | with_reducible refine keeps_freeCnt (Nat.le_add_right _ _) ?_)

theorem State.gotHb_keeps {x1 x2 x3 x4 x5} (h : Keeps a s) : Keeps a (State.gotHb s x1 x2 x3 x4 x5) := by
  unfold State.gotHb
  try dsimp only
  repeat' (first | with_reducible assumption | with_reducible apply State.roleAtStart_keeps | with_reducible apply State.tryJoin_keeps | with_reducible apply State.leavePair_keeps | with_reducible apply State.twinLeaves_keeps | with_reducible refine keeps_mapPair (by intro x; first | with_reducible rfl | (dsimp only; repeat' split) <;> with_reducible rfl) ?_ | with_reducible refine keeps_foldl (fun _ _ _ => ?_) ?_ | with_reducible refine keeps_forUpto (fun _ _ _ => ?_) ?_ | split | with_reducible refine keeps_freeCnt (Nat.le_add_right _ _) ?_)

theorem State.gotResign_keeps {x1 x2} (h : Keeps a s) : Keeps a (State.gotResign s x1 x2) := by
  unfold State.gotResign
  try dsimp only
  repeat' (first | with_reducible assumption | with_reducible apply State.updEp_keeps | with_reducible apply State.takeRole_keeps | with_reducible refine keeps_mapPair (by intro x; first | with_reducible rfl | (dsimp only; repeat' split) <;> with_reducible rfl) ?_ | with_reducible apply State.setPState_keeps | with_reducible apply State.dropRemote_keeps | with_reducible apply State.resumeSched_keeps | with_reducible apply State.noteApplied_keeps | with_reducible refine keeps_foldl (fun _ _ _ => ?_) ?_ | with_reducible refine keeps_forUpto (fun _ _ _ => ?_) ?_ | split | with_reducible refine keeps_freeCnt (Nat.le_add_right _ _) ?_)

theorem State.gotExpel_keeps {x1} (h : Keeps a s) : Keeps a (State.gotExpel s x1) := by
  unfold State.gotExpel
  try dsimp only
  repeat' (first | with_reducible assumption | with_reducible apply State.leavePair_keeps | with_reducible refine keeps_mapPair (by intro x; first | with_reducible rfl | (dsimp only; repeat' split) <;> with_reducible rfl) ?_ | with_reducible refine keeps_foldl (fun _ _ _ => ?_) ?_ | with_reducible refine keeps_forUpto (fun _ _ _ => ?_) ?_ | split | with_reducible refine keeps_freeCnt (Nat.le_add_right _ _) ?_)

theorem State.applyListed_keeps {x1 x2} (h : Keeps a s) : Keeps a (State.applyListed s x1 x2) := by
  unfold State.applyListed
  try dsimp only
  repeat' (first | with_reducible assumption | with_reducible apply State.applyOne_keeps | with_reducible refine keeps_foldl (fun _ _ _ => ?_) ?_ | with_reducible refine keeps_forUpto (fun _ _ _ => ?_) ?_ | split | with_reducible refine keeps_freeCnt (Nat.le_add_right _ _) ?_)

theorem State.openShadow_keeps {x1 x2 x3} (h : Keeps a s) : Keeps a (State.openShadow s x1 x2 x3) := by
  unfold State.openShadow
  try dsimp only
  repeat' (first | with_reducible assumption | with_reducible apply State.openEpoch_keeps | with_reducible apply State.dropEpoch_keeps | with_reducible refine keeps_mapPair (by intro x; first | with_reducible rfl | (dsimp only; repeat' split) <;> with_reducible rfl) ?_ | with_reducible refine keeps_foldl (fun _ _ _ => ?_) ?_ | with_reducible refine keeps_forUpto (fun _ _ _ => ?_) ?_ | split | with_reducible refine keeps_freeCnt (Nat.le_add_right _ _) ?_)

theorem State.joined_keeps (h : Keeps a s) : Keeps a (State.joined s) := by
  unfold State.joined
  try dsimp only
  repeat' (first | with_reducible assumption | with_reducible refine keeps_mapPair (by intro x; first | with_reducible rfl | (dsimp only; repeat' split) <;> with_reducible rfl) ?_ | with_reducible apply State.setPState_keeps | with_reducible apply State.rehCheck_keeps | with_reducible apply State.dropEpoch_keeps | with_reducible refine keeps_foldl (fun _ _ _ => ?_) ?_ | with_reducible refine keeps_forUpto (fun _ _ _ => ?_) ?_ | split | with_reducible refine keeps_freeCnt (Nat.le_add_right _ _) ?_)

theorem State.gotOpen_keeps {x1 x2 x3 x4 x5} (h : Keeps a s) : Keeps a (State.gotOpen s x1 x2 x3 x4 x5) := by
  unfold State.gotOpen
  try dsimp only
  repeat' (first | with_reducible assumption | with_reducible apply State.applyListed_keeps | with_reducible apply State.openShadow_keeps | with_reducible refine keeps_mapPair (by intro x; first | with_reducible rfl | (dsimp only; repeat' split) <;> with_reducible rfl) ?_ | with_reducible apply State.joined_keeps | with_reducible apply State.openEpoch_keeps | with_reducible refine keeps_foldl (fun _ _ _ => ?_) ?_ | with_reducible refine keeps_forUpto (fun _ _ _ => ?_) ?_ | split | with_reducible refine keeps_freeCnt (Nat.le_add_right _ _) ?_)

theorem State.takeCfg_keeps {x1 x2} (h : Keeps a s) : Keeps a (State.takeCfg s x1 x2) := by
  unfold State.takeCfg
  try dsimp only
  repeat' (first | with_reducible assumption | with_reducible apply State.accept_keeps | with_reducible apply State.answerCfg_keeps | with_reducible apply keeps_mapCmds | with_reducible refine keeps_foldl (fun _ _ _ => ?_) ?_ | with_reducible refine keeps_forUpto (fun _ _ _ => ?_) ?_ | split | with_reducible refine keeps_freeCnt (Nat.le_add_right _ _) ?_)

theorem cfgTake_keeps : ∀ (n : Nat) {s : State}, Keeps a s → Keeps a (cfgTake n s)
  | 0, _, h => h
  | n + 1, s, h => by
    unfold cfgTake
    split
    · split
      · exact cfgTake_keeps n (State.takeCfg_keeps (keeps_mapPair (by intro x; rfl) h))
      · exact h
    · exact h

theorem State.gotCfg_keeps {x1 x2 x3} (h : Keeps a s) : Keeps a (State.gotCfg s x1 x2 x3) := by
  unfold State.gotCfg
  try dsimp only
  repeat' (first | with_reducible assumption | with_reducible refine keeps_mapPair (by intro x; first | with_reducible rfl | (dsimp only; repeat' split) <;> with_reducible rfl) ?_ | with_reducible apply cfgTake_keeps | with_reducible refine keeps_foldl (fun _ _ _ => ?_) ?_ | with_reducible refine keeps_forUpto (fun _ _ _ => ?_) ?_ | split | with_reducible refine keeps_freeCnt (Nat.le_add_right _ _) ?_)

theorem State.gotCfgData_keeps {x1 x2} (h : Keeps a s) : Keeps a (State.gotCfgData s x1 x2) := by
  unfold State.gotCfgData
  try dsimp only
  repeat' (first | with_reducible assumption | with_reducible apply State.store_keeps | with_reducible refine State.store_keepsEq (by assumption) ?_ | with_reducible refine keeps_mapPair (by intro x; first | with_reducible rfl | (dsimp only; repeat' split) <;> with_reducible rfl) ?_ | with_reducible apply cfgTake_keeps | with_reducible refine keeps_foldl (fun _ _ _ => ?_) ?_ | with_reducible refine keeps_forUpto (fun _ _ _ => ?_) ?_ | split | with_reducible refine keeps_freeCnt (Nat.le_add_right _ _) ?_)

theorem State.gotCfgAck_keeps {x1 x2 x3} (h : Keeps a s) : Keeps a (State.gotCfgAck s x1 x2 x3) := by
  unfold State.gotCfgAck
  try dsimp only
  repeat' (first | with_reducible assumption | with_reducible apply State.uncarry_keeps | with_reducible apply State.twinLeaves_keeps | with_reducible refine keeps_mapPair (by intro x; first | with_reducible rfl | (dsimp only; repeat' split) <;> with_reducible rfl) ?_ | with_reducible refine keeps_foldl (fun _ _ _ => ?_) ?_ | with_reducible refine keeps_forUpto (fun _ _ _ => ?_) ?_ | split | with_reducible refine keeps_freeCnt (Nat.le_add_right _ _) ?_)

theorem State.gotInput_keeps {x1 x2 x3} (h : Keeps a s) : Keeps a (State.gotInput s x1 x2 x3) := by
  unfold State.gotInput
  try dsimp only
  repeat' (first | with_reducible assumption | with_reducible apply State.updTwin_keeps | with_reducible apply State.checkInput_keeps | with_reducible refine keeps_foldl (fun _ _ _ => ?_) ?_ | with_reducible refine keeps_forUpto (fun _ _ _ => ?_) ?_ | split | with_reducible refine keeps_freeCnt (Nat.le_add_right _ _) ?_)

theorem State.gotDigest_keeps {x1 x2 x3 x4} (h : Keeps a s) : Keeps a (State.gotDigest s x1 x2 x3 x4) := by
  unfold State.gotDigest
  try dsimp only
  repeat' (first | with_reducible assumption | with_reducible apply State.updTwin_keeps | with_reducible apply State.tryEvidence_keeps | with_reducible apply State.resolve_keeps | with_reducible apply State.joinCompare_keeps | with_reducible apply State.leavePair_keeps | with_reducible apply State.resign_keeps | with_reducible refine keeps_mapPair (by intro x; first | with_reducible rfl | (dsimp only; repeat' split) <;> with_reducible rfl) ?_ | with_reducible refine keeps_foldl (fun _ _ _ => ?_) ?_ | with_reducible refine keeps_forUpto (fun _ _ _ => ?_) ?_ | split | with_reducible refine keeps_freeCnt (Nat.le_add_right _ _) ?_)

theorem State.gotDigestAck_keeps {x1} (h : Keeps a s) : Keeps a (State.gotDigestAck s x1) := by
  unfold State.gotDigestAck
  try dsimp only
  repeat' (first | with_reducible assumption | with_reducible apply State.updTwin_keeps | with_reducible refine keeps_foldl (fun _ _ _ => ?_) ?_ | with_reducible refine keeps_forUpto (fun _ _ _ => ?_) ?_ | split | with_reducible refine keeps_freeCnt (Nat.le_add_right _ _) ?_)

theorem State.gotEvidence_keeps {x1 x2} (h : Keeps a s) : Keeps a (State.gotEvidence s x1 x2) := by
  unfold State.gotEvidence
  try dsimp only
  repeat' (first | with_reducible assumption | with_reducible apply State.updTwin_keeps | with_reducible apply State.tryEvidence_keeps | with_reducible apply State.resolve_keeps | with_reducible refine keeps_foldl (fun _ _ _ => ?_) ?_ | with_reducible refine keeps_forUpto (fun _ _ _ => ?_) ?_ | split | with_reducible refine keeps_freeCnt (Nat.le_add_right _ _) ?_)

theorem State.gotProgress_keeps {x1 x2} (h : Keeps a s) : Keeps a (State.gotProgress s x1 x2) := by
  unfold State.gotProgress
  try dsimp only
  repeat' (first | with_reducible assumption | with_reducible apply State.updTwin_keeps | with_reducible apply State.tryOutput_keeps | with_reducible refine keeps_foldl (fun _ _ _ => ?_) ?_ | with_reducible refine keeps_forUpto (fun _ _ _ => ?_) ?_ | split | with_reducible refine keeps_freeCnt (Nat.le_add_right _ _) ?_)

theorem State.gotJoinReq_keeps (h : Keeps a s) : Keeps a (State.gotJoinReq s) := by
  unfold State.gotJoinReq
  try dsimp only
  repeat' (first | with_reducible assumption | with_reducible apply State.carryCmd_keeps | with_reducible refine keeps_mapPair (by intro x; first | with_reducible rfl | (dsimp only; repeat' split) <;> with_reducible rfl) ?_ | with_reducible apply State.send_keeps | with_reducible apply State.twinLeaves_keeps | with_reducible refine keeps_foldl (fun _ _ _ => ?_) ?_ | with_reducible refine keeps_forUpto (fun _ _ _ => ?_) ?_ | split | with_reducible refine keeps_freeCnt (Nat.le_add_right _ _) ?_)

theorem State.restoreOne_keeps {x1} (h : Keeps a s) : Keeps a (State.restoreOne s x1) := by
  unfold State.restoreOne
  try dsimp only
  repeat' (first | with_reducible assumption | with_reducible apply State.applyCmd_keeps | with_reducible refine keeps_foldl (fun _ _ _ => ?_) ?_ | with_reducible refine keeps_forUpto (fun _ _ _ => ?_) ?_ | split | with_reducible refine keeps_freeCnt (Nat.le_add_right _ _) ?_)

theorem State.restoreStore_keeps {x1} (h : Keeps a s) : Keeps a (State.restoreStore s x1) := by
  unfold State.restoreStore
  try dsimp only
  repeat' (first | with_reducible assumption | with_reducible refine keeps_mapTly (by intro x hx; first | exact hx | (dsimp only; split <;> exact hx)) ?_ | with_reducible refine keeps_mapPair (by intro x; first | with_reducible rfl | (dsimp only; repeat' split) <;> with_reducible rfl) ?_ | with_reducible apply State.restoreOne_keeps | with_reducible apply keeps_mapCx | with_reducible apply keeps_mapCmds | with_reducible refine keeps_foldl (fun _ _ _ => ?_) ?_ | with_reducible refine keeps_forUpto (fun _ _ _ => ?_) ?_ | split | with_reducible refine keeps_freeCnt (Nat.le_add_right _ _) ?_)

theorem State.gotJoinImage_keeps {x1 x2 x3} (h : Keeps a s) : Keeps a (State.gotJoinImage s x1 x2 x3) := by
  unfold State.gotJoinImage
  try dsimp only
  repeat' (first | with_reducible assumption | with_reducible apply State.restoreStore_keeps | with_reducible refine keeps_mapPair (by intro x; first | with_reducible rfl | (dsimp only; repeat' split) <;> with_reducible rfl) ?_ | with_reducible refine keeps_foldl (fun _ _ _ => ?_) ?_ | with_reducible refine keeps_forUpto (fun _ _ _ => ?_) ?_ | split | with_reducible refine keeps_freeCnt (Nat.le_add_right _ _) ?_)

theorem State.gotJoinDone_keeps (h : Keeps a s) : Keeps a (State.gotJoinDone s) := by
  unfold State.gotJoinDone
  try dsimp only
  repeat' (first | with_reducible assumption | with_reducible refine keeps_mapPair (by intro x; first | with_reducible rfl | (dsimp only; repeat' split) <;> with_reducible rfl) ?_ | with_reducible refine keeps_foldl (fun _ _ _ => ?_) ?_ | with_reducible refine keeps_forUpto (fun _ _ _ => ?_) ?_ | split | with_reducible refine keeps_freeCnt (Nat.le_add_right _ _) ?_)

theorem execMsgCredit_keeps {x0 x1} (e : execMsgCredit x0 x1 s = .next t) : Keeps s t := by
  unfold execMsgCredit at e
  have h := Keeps.refl s
  replace e := Host.Outcome.next.inj e
  subst e
  try dsimp only
  repeat' (first | with_reducible assumption | with_reducible apply State.gotCredit_keeps | with_reducible refine State.recvMsg_keeps (fun _ _ => ?_) ?_ | with_reducible refine keeps_foldl (fun _ _ _ => ?_) ?_ | with_reducible refine keeps_forUpto (fun _ _ _ => ?_) ?_ | split | with_reducible refine keeps_freeCnt (Nat.le_add_right _ _) ?_)

theorem execMsgIdent_keeps {x0 x1 x2} (e : execMsgIdent x0 x1 x2 s = .next t) : Keeps s t := by
  unfold execMsgIdent at e
  have h := Keeps.refl s
  replace e := Host.Outcome.next.inj e
  subst e
  try dsimp only
  repeat' (first | with_reducible assumption | with_reducible apply State.gotIdent_keeps | with_reducible refine State.recvMsg_keeps (fun _ _ => ?_) ?_ | with_reducible refine keeps_foldl (fun _ _ _ => ?_) ?_ | with_reducible refine keeps_forUpto (fun _ _ _ => ?_) ?_ | split | with_reducible refine keeps_freeCnt (Nat.le_add_right _ _) ?_)

theorem execMsgRoleHb_keeps {x0 x1 x2 x3 x4 x5} (e : execMsgRoleHb x0 x1 x2 x3 x4 x5 s = .next t) : Keeps s t := by
  unfold execMsgRoleHb at e
  have h := Keeps.refl s
  replace e := Host.Outcome.next.inj e
  subst e
  try dsimp only
  repeat' (first | with_reducible assumption | with_reducible apply State.gotHb_keeps | with_reducible refine State.recvMsg_keeps (fun _ _ => ?_) ?_ | with_reducible refine keeps_foldl (fun _ _ _ => ?_) ?_ | with_reducible refine keeps_forUpto (fun _ _ _ => ?_) ?_ | split | with_reducible refine keeps_freeCnt (Nat.le_add_right _ _) ?_)

theorem execMsgOpen_keeps {x0 x1 x2 x3 x4} (e : execMsgOpen x0 x1 x2 x3 x4 s = .next t) : Keeps s t := by
  unfold execMsgOpen at e
  have h := Keeps.refl s
  replace e := Host.Outcome.next.inj e
  subst e
  try dsimp only
  repeat' (first | with_reducible assumption | with_reducible apply State.gotOpen_keeps | with_reducible refine State.recvMsg_keeps (fun _ _ => ?_) ?_ | with_reducible refine keeps_foldl (fun _ _ _ => ?_) ?_ | with_reducible refine keeps_forUpto (fun _ _ _ => ?_) ?_ | split | with_reducible refine keeps_freeCnt (Nat.le_add_right _ _) ?_)

theorem execMsgResign_keeps {x0 x1} (e : execMsgResign x0 x1 s = .next t) : Keeps s t := by
  unfold execMsgResign at e
  have h := Keeps.refl s
  replace e := Host.Outcome.next.inj e
  subst e
  try dsimp only
  repeat' (first | with_reducible assumption | with_reducible apply State.gotResign_keeps | with_reducible refine State.recvMsg_keeps (fun _ _ => ?_) ?_ | with_reducible refine keeps_foldl (fun _ _ _ => ?_) ?_ | with_reducible refine keeps_forUpto (fun _ _ _ => ?_) ?_ | split | with_reducible refine keeps_freeCnt (Nat.le_add_right _ _) ?_)

theorem execMsgExpel_keeps {x0} (e : execMsgExpel x0 s = .next t) : Keeps s t := by
  unfold execMsgExpel at e
  have h := Keeps.refl s
  replace e := Host.Outcome.next.inj e
  subst e
  try dsimp only
  repeat' (first | with_reducible assumption | with_reducible apply State.gotExpel_keeps | with_reducible refine State.recvMsg_keeps (fun _ _ => ?_) ?_ | with_reducible refine keeps_foldl (fun _ _ _ => ?_) ?_ | with_reducible refine keeps_forUpto (fun _ _ _ => ?_) ?_ | split | with_reducible refine keeps_freeCnt (Nat.le_add_right _ _) ?_)

theorem execMsgTag_keeps {x0 x1 x2} (e : execMsgTag x0 x1 x2 s = .next t) : Keeps s t := by
  unfold execMsgTag at e
  have h := Keeps.refl s
  replace e := Host.Outcome.next.inj e
  subst e
  try dsimp only
  repeat' (first | with_reducible assumption | with_reducible apply State.tagged_keeps | with_reducible refine State.recvMsg_keeps (fun _ _ => ?_) ?_ | with_reducible refine keeps_foldl (fun _ _ _ => ?_) ?_ | with_reducible refine keeps_forUpto (fun _ _ _ => ?_) ?_ | split | with_reducible refine keeps_freeCnt (Nat.le_add_right _ _) ?_)

theorem execMsgCfg_keeps {x0 x1 x2} (e : execMsgCfg x0 x1 x2 s = .next t) : Keeps s t := by
  unfold execMsgCfg at e
  have h := Keeps.refl s
  replace e := Host.Outcome.next.inj e
  subst e
  try dsimp only
  repeat' (first | with_reducible assumption | with_reducible apply State.gotCfg_keeps | with_reducible refine State.recvMsg_keeps (fun _ _ => ?_) ?_ | with_reducible refine keeps_foldl (fun _ _ _ => ?_) ?_ | with_reducible refine keeps_forUpto (fun _ _ _ => ?_) ?_ | split | with_reducible refine keeps_freeCnt (Nat.le_add_right _ _) ?_)

theorem execMsgCfgAck_keeps {x0 x1 x2 x3} (e : execMsgCfgAck x0 x1 x2 x3 s = .next t) : Keeps s t := by
  unfold execMsgCfgAck at e
  have h := Keeps.refl s
  replace e := Host.Outcome.next.inj e
  subst e
  try dsimp only
  repeat' (first | with_reducible assumption | with_reducible apply State.gotCfgAck_keeps | with_reducible refine State.recvMsg_keeps (fun _ _ => ?_) ?_ | with_reducible refine keeps_foldl (fun _ _ _ => ?_) ?_ | with_reducible refine keeps_forUpto (fun _ _ _ => ?_) ?_ | split | with_reducible refine keeps_freeCnt (Nat.le_add_right _ _) ?_)

theorem execMsgInput_keeps {x0 x1 x2} (e : execMsgInput x0 x1 x2 s = .next t) : Keeps s t := by
  unfold execMsgInput at e
  have h := Keeps.refl s
  replace e := Host.Outcome.next.inj e
  subst e
  try dsimp only
  repeat' (first | with_reducible assumption | with_reducible apply State.gotInput_keeps | with_reducible refine State.recvMsg_keeps (fun _ _ => ?_) ?_ | with_reducible refine keeps_foldl (fun _ _ _ => ?_) ?_ | with_reducible refine keeps_forUpto (fun _ _ _ => ?_) ?_ | split | with_reducible refine keeps_freeCnt (Nat.le_add_right _ _) ?_)

theorem execMsgDigest_keeps {x0 x1 x2 x3} (e : execMsgDigest x0 x1 x2 x3 s = .next t) : Keeps s t := by
  unfold execMsgDigest at e
  have h := Keeps.refl s
  replace e := Host.Outcome.next.inj e
  subst e
  try dsimp only
  repeat' (first | with_reducible assumption | with_reducible apply State.gotDigest_keeps | with_reducible refine State.recvMsg_keeps (fun _ _ => ?_) ?_ | with_reducible refine keeps_foldl (fun _ _ _ => ?_) ?_ | with_reducible refine keeps_forUpto (fun _ _ _ => ?_) ?_ | split | with_reducible refine keeps_freeCnt (Nat.le_add_right _ _) ?_)

theorem execMsgDigestAck_keeps {x0} (e : execMsgDigestAck x0 s = .next t) : Keeps s t := by
  unfold execMsgDigestAck at e
  have h := Keeps.refl s
  replace e := Host.Outcome.next.inj e
  subst e
  try dsimp only
  repeat' (first | with_reducible assumption | with_reducible apply State.gotDigestAck_keeps | with_reducible refine State.recvMsg_keeps (fun _ _ => ?_) ?_ | with_reducible refine keeps_foldl (fun _ _ _ => ?_) ?_ | with_reducible refine keeps_forUpto (fun _ _ _ => ?_) ?_ | split | with_reducible refine keeps_freeCnt (Nat.le_add_right _ _) ?_)

theorem execMsgEvidence_keeps {x0 x1} (e : execMsgEvidence x0 x1 s = .next t) : Keeps s t := by
  unfold execMsgEvidence at e
  have h := Keeps.refl s
  replace e := Host.Outcome.next.inj e
  subst e
  try dsimp only
  repeat' (first | with_reducible assumption | with_reducible apply State.gotEvidence_keeps | with_reducible refine State.recvMsg_keeps (fun _ _ => ?_) ?_ | with_reducible refine keeps_foldl (fun _ _ _ => ?_) ?_ | with_reducible refine keeps_forUpto (fun _ _ _ => ?_) ?_ | split | with_reducible refine keeps_freeCnt (Nat.le_add_right _ _) ?_)

theorem execMsgProgress_keeps {x0 x1} (e : execMsgProgress x0 x1 s = .next t) : Keeps s t := by
  unfold execMsgProgress at e
  have h := Keeps.refl s
  replace e := Host.Outcome.next.inj e
  subst e
  try dsimp only
  repeat' (first | with_reducible assumption | with_reducible apply State.gotProgress_keeps | with_reducible refine State.recvMsg_keeps (fun _ _ => ?_) ?_ | with_reducible refine keeps_foldl (fun _ _ _ => ?_) ?_ | with_reducible refine keeps_forUpto (fun _ _ _ => ?_) ?_ | split | with_reducible refine keeps_freeCnt (Nat.le_add_right _ _) ?_)

theorem execMsgJoinReq_keeps {x0} (e : execMsgJoinReq x0 s = .next t) : Keeps s t := by
  unfold execMsgJoinReq at e
  have h := Keeps.refl s
  replace e := Host.Outcome.next.inj e
  subst e
  try dsimp only
  repeat' (first | with_reducible assumption | with_reducible apply State.gotJoinReq_keeps | with_reducible refine State.recvMsg_keeps (fun _ _ => ?_) ?_ | with_reducible refine keeps_foldl (fun _ _ _ => ?_) ?_ | with_reducible refine keeps_forUpto (fun _ _ _ => ?_) ?_ | split | with_reducible refine keeps_freeCnt (Nat.le_add_right _ _) ?_)

theorem execMsgJoinImage_keeps {x0 x1 x2} (e : execMsgJoinImage x0 x1 x2 s = .next t) : Keeps s t := by
  unfold execMsgJoinImage at e
  have h := Keeps.refl s
  replace e := Host.Outcome.next.inj e
  subst e
  try dsimp only
  repeat' (first | with_reducible assumption | with_reducible apply State.gotJoinImage_keeps | with_reducible refine State.recvMsg_keeps (fun _ _ => ?_) ?_ | with_reducible refine keeps_foldl (fun _ _ _ => ?_) ?_ | with_reducible refine keeps_forUpto (fun _ _ _ => ?_) ?_ | split | with_reducible refine keeps_freeCnt (Nat.le_add_right _ _) ?_)

theorem execMsgJoinDone_keeps {x0} (e : execMsgJoinDone x0 s = .next t) : Keeps s t := by
  unfold execMsgJoinDone at e
  have h := Keeps.refl s
  replace e := Host.Outcome.next.inj e
  subst e
  try dsimp only
  repeat' (first | with_reducible assumption | with_reducible apply State.gotJoinDone_keeps | with_reducible refine State.recvMsg_keeps (fun _ _ => ?_) ?_ | with_reducible refine keeps_foldl (fun _ _ _ => ?_) ?_ | with_reducible refine keeps_forUpto (fun _ _ _ => ?_) ?_ | split | with_reducible refine keeps_freeCnt (Nat.le_add_right _ _) ?_)

theorem execMsgFwdUnit_keeps {x0 x1 x2} (e : execMsgFwdUnit x0 x1 x2 s = .next t) : Keeps s t := by
  unfold execMsgFwdUnit at e
  have h := Keeps.refl s
  replace e := Host.Outcome.next.inj e
  subst e
  try dsimp only
  repeat' (first | with_reducible assumption | with_reducible apply State.fwdUnit_keeps | with_reducible refine State.recvMsg_keeps (fun _ _ => ?_) ?_ | with_reducible refine keeps_foldl (fun _ _ _ => ?_) ?_ | with_reducible refine keeps_forUpto (fun _ _ _ => ?_) ?_ | split | with_reducible refine keeps_freeCnt (Nat.le_add_right _ _) ?_)

theorem execMsgFwdBegin_keeps {x0 x1 x2 x3} (e : execMsgFwdBegin x0 x1 x2 x3 s = .next t) : Keeps s t := by
  unfold execMsgFwdBegin at e
  have h := Keeps.refl s
  replace e := Host.Outcome.next.inj e
  subst e
  try dsimp only
  repeat' (first | with_reducible assumption | with_reducible apply State.fwdBegin_keeps | with_reducible refine State.recvMsg_keeps (fun _ _ => ?_) ?_ | with_reducible refine keeps_foldl (fun _ _ _ => ?_) ?_ | with_reducible refine keeps_forUpto (fun _ _ _ => ?_) ?_ | split | with_reducible refine keeps_freeCnt (Nat.le_add_right _ _) ?_)

theorem execMsgFwdClose_keeps {x0 x1 x2 x3} (e : execMsgFwdClose x0 x1 x2 x3 s = .next t) : Keeps s t := by
  unfold execMsgFwdClose at e
  have h := Keeps.refl s
  replace e := Host.Outcome.next.inj e
  subst e
  try dsimp only
  repeat' (first | with_reducible assumption | with_reducible apply State.fwdClose_keeps | with_reducible refine State.recvMsg_keeps (fun _ _ => ?_) ?_ | with_reducible refine keeps_foldl (fun _ _ _ => ?_) ?_ | with_reducible refine keeps_forUpto (fun _ _ _ => ?_) ?_ | split | with_reducible refine keeps_freeCnt (Nat.le_add_right _ _) ?_)

theorem execMsgCfgData_keeps {x0 x1} (e : execMsgCfgData x0 x1 s = .next t) : Keeps s t := by
  unfold execMsgCfgData at e
  have h := Keeps.refl s
  replace e := Host.Outcome.next.inj e
  subst e
  try dsimp only
  repeat' (first | with_reducible assumption | with_reducible apply State.gotCfgData_keeps | with_reducible refine State.recvMsg_keeps (fun _ _ => ?_) ?_ | with_reducible refine keeps_foldl (fun _ _ _ => ?_) ?_ | with_reducible refine keeps_forUpto (fun _ _ _ => ?_) ?_ | split | with_reducible refine keeps_freeCnt (Nat.le_add_right _ _) ?_)

end Sys2Proof.Machine
end

