-- ==== Sys2Proof/Laws/KeepsPair.lean ====
section
/-! SUPPORT. Every operation of Machine/Pair.lean carries `Keeps` on. -/

namespace Sys2Proof.Machine

set_option linter.unusedTactic false
set_option linter.unreachableTactic false

variable {a s t : State}

theorem State.sendHb_keeps (h : Keeps a s) : Keeps a (State.sendHb s) := by
  unfold State.sendHb
  try dsimp only
  repeat' (first | with_reducible assumption | with_reducible refine keeps_mapPair (by intro x; first | with_reducible rfl | (dsimp only; repeat' split) <;> with_reducible rfl) ?_ | with_reducible apply State.roleAtStart_keeps | with_reducible apply State.tryJoin_keeps | with_reducible apply State.send_keeps | with_reducible refine keeps_foldl (fun _ _ _ => ?_) ?_ | with_reducible refine keeps_forUpto (fun _ _ _ => ?_) ?_ | split | with_reducible refine keeps_freeCnt (Nat.le_add_right _ _) ?_)

theorem State.silenceCheck_keeps (h : Keeps a s) : Keeps a (State.silenceCheck s) := by
  unfold State.silenceCheck
  try dsimp only
  repeat' (first | with_reducible assumption | with_reducible apply State.takeRole_keeps | with_reducible refine keeps_foldl (fun _ _ _ => ?_) ?_ | with_reducible refine keeps_forUpto (fun _ _ _ => ?_) ?_ | split | with_reducible refine keeps_freeCnt (Nat.le_add_right _ _) ?_)

theorem State.hbLost_keeps (h : Keeps a s) : Keeps a (State.hbLost s) := by
  unfold State.hbLost
  try dsimp only
  repeat' (first | with_reducible assumption | with_reducible apply State.silenceCheck_keeps | with_reducible refine keeps_mapPair (by intro x; first | with_reducible rfl | (dsimp only; repeat' split) <;> with_reducible rfl) ?_ | with_reducible apply State.commanderLost_keeps | with_reducible apply State.twinLeaves_keeps | with_reducible refine keeps_foldl (fun _ _ _ => ?_) ?_ | with_reducible refine keeps_forUpto (fun _ _ _ => ?_) ?_ | split | with_reducible refine keeps_freeCnt (Nat.le_add_right _ _) ?_)

theorem State.toggleAlive_keeps (h : Keeps a s) : Keeps a (State.toggleAlive s) := by
  unfold State.toggleAlive
  try dsimp only
  repeat' (first | with_reducible assumption | with_reducible refine keeps_mapPair (by intro x; first | with_reducible rfl | (dsimp only; repeat' split) <;> with_reducible rfl) ?_ | with_reducible refine keeps_foldl (fun _ _ _ => ?_) ?_ | with_reducible refine keeps_forUpto (fun _ _ _ => ?_) ?_ | split | with_reducible refine keeps_freeCnt (Nat.le_add_right _ _) ?_)

theorem State.aliveEdge_keeps {x1} (h : Keeps a s) : Keeps a (State.aliveEdge s x1) := by
  unfold State.aliveEdge
  try dsimp only
  repeat' (first | with_reducible assumption | with_reducible refine keeps_mapPair (by intro x; first | with_reducible rfl | (dsimp only; repeat' split) <;> with_reducible rfl) ?_ | with_reducible refine keeps_foldl (fun _ _ _ => ?_) ?_ | with_reducible refine keeps_forUpto (fun _ _ _ => ?_) ?_ | split | with_reducible refine keeps_freeCnt (Nat.le_add_right _ _) ?_)

theorem State.decideOut_keeps (h : Keeps a s) : Keeps a (State.decideOut s) := by
  unfold State.decideOut
  try dsimp only
  repeat' (first | with_reducible assumption | with_reducible apply State.leaveTo_keeps | with_reducible apply State.tryJoin_keeps | with_reducible refine keeps_foldl (fun _ _ _ => ?_) ?_ | with_reducible refine keeps_forUpto (fun _ _ _ => ?_) ?_ | split | with_reducible refine keeps_freeCnt (Nat.le_add_right _ _) ?_)

theorem State.inject_keeps {x1 x2} (h : Keeps a s) : Keeps a (State.inject s x1 x2) := by
  unfold State.inject
  try dsimp only
  repeat' (first | with_reducible assumption | with_reducible apply State.iodReset_keeps | with_reducible apply State.linkFault_keeps | with_reducible apply State.withholdStack_keeps | with_reducible apply State.stackReset_keeps | with_reducible apply State.fenceDie_keeps | with_reducible apply State.clusterReset_keeps | with_reducible apply State.resetEngine_keeps | with_reducible refine keeps_foldl (fun _ _ _ => ?_) ?_ | with_reducible refine keeps_forUpto (fun _ _ _ => ?_) ?_ | split | with_reducible refine keeps_freeCnt (Nat.le_add_right _ _) ?_)

theorem State.rehearse_keeps (h : Keeps a s) : Keeps a (State.rehearse s) := by
  unfold State.rehearse
  try dsimp only
  repeat' (first | with_reducible assumption | with_reducible refine keeps_mapPair (by intro x; first | with_reducible rfl | (dsimp only; repeat' split) <;> with_reducible rfl) ?_ | with_reducible apply State.inject_keeps | with_reducible refine keeps_foldl (fun _ _ _ => ?_) ?_ | with_reducible refine keeps_forUpto (fun _ _ _ => ?_) ?_ | split | with_reducible refine keeps_freeCnt (Nat.le_add_right _ _) ?_)

theorem execRoleHbSend_keeps (e : execRoleHbSend s = .next t) : Keeps s t := by
  unfold execRoleHbSend at e
  have h := Keeps.refl s
  replace e := Host.Outcome.next.inj e
  subst e
  try dsimp only
  repeat' (first | with_reducible assumption | with_reducible apply State.sendHb_keeps | with_reducible apply State.settle_keeps | with_reducible apply State.carryCheck_keeps | with_reducible refine keeps_foldl (fun _ _ _ => ?_) ?_ | with_reducible refine keeps_forUpto (fun _ _ _ => ?_) ?_ | split | with_reducible refine keeps_freeCnt (Nat.le_add_right _ _) ?_)

theorem execRoleHbTimeout_keeps (e : execRoleHbTimeout s = .next t) : Keeps s t := by
  unfold execRoleHbTimeout at e
  have h := Keeps.refl s
  replace e := Host.Outcome.next.inj e
  subst e
  try dsimp only
  repeat' (first | with_reducible assumption | with_reducible apply State.hbLost_keeps | with_reducible apply State.settle_keeps | with_reducible apply State.carryCheck_keeps | with_reducible refine keeps_foldl (fun _ _ _ => ?_) ?_ | with_reducible refine keeps_forUpto (fun _ _ _ => ?_) ?_ | split | with_reducible refine keeps_freeCnt (Nat.le_add_right _ _) ?_)

theorem execPairAliveToggle_keeps (e : execPairAliveToggle s = .next t) : Keeps s t := by
  unfold execPairAliveToggle at e
  have h := Keeps.refl s
  replace e := Host.Outcome.next.inj e
  subst e
  try dsimp only
  repeat' (first | with_reducible assumption | with_reducible apply State.toggleAlive_keeps | with_reducible refine keeps_foldl (fun _ _ _ => ?_) ?_ | with_reducible refine keeps_forUpto (fun _ _ _ => ?_) ?_ | split | with_reducible refine keeps_freeCnt (Nat.le_add_right _ _) ?_)

theorem execPairAliveInEdge_keeps {x0} (e : execPairAliveInEdge x0 s = .next t) : Keeps s t := by
  unfold execPairAliveInEdge at e
  have h := Keeps.refl s
  replace e := Host.Outcome.next.inj e
  subst e
  try dsimp only
  repeat' (first | with_reducible assumption | with_reducible apply State.aliveEdge_keeps | with_reducible refine keeps_foldl (fun _ _ _ => ?_) ?_ | with_reducible refine keeps_forUpto (fun _ _ _ => ?_) ?_ | split | with_reducible refine keeps_freeCnt (Nat.le_add_right _ _) ?_)

theorem execPairAliveSilence_keeps (e : execPairAliveSilence s = .next t) : Keeps s t := by
  unfold execPairAliveSilence at e
  have h := Keeps.refl s
  replace e := Host.Outcome.next.inj e
  subst e
  try dsimp only
  repeat' (first | with_reducible assumption | with_reducible apply State.silenceCheck_keeps | with_reducible apply State.settle_keeps | with_reducible apply State.carryCheck_keeps | with_reducible refine keeps_foldl (fun _ _ _ => ?_) ?_ | with_reducible refine keeps_forUpto (fun _ _ _ => ?_) ?_ | split | with_reducible refine keeps_freeCnt (Nat.le_add_right _ _) ?_)

theorem execDecidingTimeout_keeps (e : execDecidingTimeout s = .next t) : Keeps s t := by
  unfold execDecidingTimeout at e
  have h := Keeps.refl s
  replace e := Host.Outcome.next.inj e
  subst e
  try dsimp only
  repeat' (first | with_reducible assumption | with_reducible apply State.decideOut_keeps | with_reducible apply State.settle_keeps | with_reducible apply State.carryCheck_keeps | with_reducible refine keeps_foldl (fun _ _ _ => ?_) ?_ | with_reducible refine keeps_forUpto (fun _ _ _ => ?_) ?_ | split | with_reducible refine keeps_freeCnt (Nat.le_add_right _ _) ?_)

theorem execRehearsalDue_keeps (e : execRehearsalDue s = .next t) : Keeps s t := by
  unfold execRehearsalDue at e
  have h := Keeps.refl s
  replace e := Host.Outcome.next.inj e
  subst e
  try dsimp only
  repeat' (first | with_reducible assumption | with_reducible apply State.rehearse_keeps | with_reducible apply State.settle_keeps | with_reducible apply State.carryCheck_keeps | with_reducible refine keeps_foldl (fun _ _ _ => ?_) ?_ | with_reducible refine keeps_forUpto (fun _ _ _ => ?_) ?_ | split | with_reducible refine keeps_freeCnt (Nat.le_add_right _ _) ?_)

theorem execRehearsalTimeout_keeps (e : execRehearsalTimeout s = .next t) : Keeps s t := by
  unfold execRehearsalTimeout at e
  have h := Keeps.refl s
  replace e := Host.Outcome.next.inj e
  subst e
  try dsimp only
  repeat' (first | with_reducible assumption | with_reducible apply State.rehLate_keeps | with_reducible refine keeps_foldl (fun _ _ _ => ?_) ?_ | with_reducible refine keeps_forUpto (fun _ _ _ => ?_) ?_ | split | with_reducible refine keeps_freeCnt (Nat.le_add_right _ _) ?_)

end Sys2Proof.Machine
end

