-- ==== Sys2Proof/Laws/KeepsBootConfig.lean ====
section
/-! SUPPORT. Every operation of Machine/BootConfig.lean carries `Keeps` on. -/

namespace Sys2Proof.Machine

set_option linter.unusedTactic false
set_option linter.unreachableTactic false

variable {a s t : State}

theorem State.measure_keeps {x1} (h : Keeps a s) : Keeps a (State.measure s x1) := by
  unfold State.measure
  try dsimp only
  repeat' (first | with_reducible assumption | with_reducible refine keeps_mapSec (by intro x; rfl) (by intro x; rfl) (by intro x; exact Nat.le_refl _) (by intro x; rfl) ?_ | with_reducible refine keeps_foldl (fun _ _ _ => ?_) ?_ | with_reducible refine keeps_forUpto (fun _ _ _ => ?_) ?_ | split | with_reducible refine keeps_freeCnt (Nat.le_add_right _ _) ?_)

theorem State.verify_keepsOk : ∀ (l : List Nat) {s t : State}, State.verify s l = .ok t → Keeps a s → Keeps a t
  | [], s, t, e, h => by cases e; exact h
  | ty :: r, s, t, e, h => by
    unfold State.verify at e
    dsimp only at e
    split at e
    · cases e
    · exact State.verify_keepsOk r e (State.measure_keeps h)

theorem State.applyConfig_keeps {x1} (h : Keeps a s) : Keeps a (State.applyConfig s x1) := by
  unfold State.applyConfig
  try dsimp only
  repeat' (first | with_reducible assumption | with_reducible apply keeps_mapKcp | with_reducible apply keeps_mapIng | with_reducible apply State.updPort_keeps | with_reducible apply keeps_mapThm | with_reducible apply keeps_mapOut | with_reducible apply State.updEng_keeps | with_reducible refine keeps_mapBoot (by intro x; first | with_reducible rfl | (dsimp only; repeat' split) <;> with_reducible rfl) (by intro x; first | with_reducible rfl | (dsimp only; repeat' split) <;> with_reducible rfl) ?_ | with_reducible refine keeps_foldl (fun _ _ _ => ?_) ?_ | with_reducible refine keeps_forUpto (fun _ _ _ => ?_) ?_ | split | with_reducible refine keeps_freeCnt (Nat.le_add_right _ _) ?_)

theorem State.applyIsland_keeps (h : Keeps a s) : Keeps a (State.applyIsland s) := by
  unfold State.applyIsland
  try dsimp only
  repeat' (first | with_reducible assumption | with_reducible apply keeps_mapHwa | with_reducible refine keeps_foldl (fun _ _ _ => ?_) ?_ | with_reducible refine keeps_forUpto (fun _ _ _ => ?_) ?_ | split | with_reducible refine keeps_freeCnt (Nat.le_add_right _ _) ?_)

theorem State.applyDieCfg_keeps {x1} (h : Keeps a s) : Keeps a (State.applyDieCfg s x1) := by
  unfold State.applyDieCfg
  try dsimp only
  repeat' (first | with_reducible assumption | with_reducible apply State.placeGolden_keeps | with_reducible apply State.applyLevel_keeps | with_reducible apply State.applyThr_keeps | with_reducible apply State.updOpc_keeps | with_reducible apply State.grnCfg_keeps | with_reducible apply State.stackCfg_keeps | with_reducible apply State.updHmc_keeps | with_reducible refine keeps_foldl (fun _ _ _ => ?_) ?_ | with_reducible refine keeps_forUpto (fun _ _ _ => ?_) ?_ | split | with_reducible refine keeps_freeCnt (Nat.le_add_right _ _) ?_)

theorem State.applyCoolCfg_keeps (h : Keeps a s) : Keeps a (State.applyCoolCfg s) := by
  unfold State.applyCoolCfg
  try dsimp only
  repeat' (first | with_reducible assumption | with_reducible apply keeps_mapCool | with_reducible refine keeps_foldl (fun _ _ _ => ?_) ?_ | with_reducible refine keeps_forUpto (fun _ _ _ => ?_) ?_ | split | with_reducible refine keeps_freeCnt (Nat.le_add_right _ _) ?_)

end Sys2Proof.Machine
end

