-- ==== Sys2Proof/Laws/KeepsBoot.lean ====
section
/-! SUPPORT. Every operation of Machine/Boot.lean carries `Keeps` on. -/

namespace Sys2Proof.Machine

set_option linter.unusedTactic false
set_option linter.unreachableTactic false

variable {a s t : State}

theorem State.journalStep_keeps {x1 x2 x3 x4 x5 x6 x7} (h : Keeps a s) : Keeps a (State.journalStep s x1 x2 x3 x4 x5 x6 x7) := by
  unfold State.journalStep
  try dsimp only
  repeat' (first | with_reducible assumption | with_reducible apply State.journal_keeps | with_reducible refine keeps_foldl (fun _ _ _ => ?_) ?_ | with_reducible refine keeps_forUpto (fun _ _ _ => ?_) ?_ | split | with_reducible refine keeps_freeCnt (Nat.le_add_right _ _) ?_)

theorem State.compact_keeps (h : Keeps a s) : Keeps a (State.compact s) := by
  unfold State.compact
  try dsimp only
  repeat' (first | with_reducible assumption | with_reducible refine keeps_mapBoot (by intro x; first | with_reducible rfl | (dsimp only; repeat' split) <;> with_reducible rfl) (by intro x; first | with_reducible rfl | (dsimp only; repeat' split) <;> with_reducible rfl) ?_ | with_reducible refine keeps_foldl (fun _ _ _ => ?_) ?_ | with_reducible refine keeps_forUpto (fun _ _ _ => ?_) ?_ | split | with_reducible refine keeps_freeCnt (Nat.le_add_right _ _) ?_)

theorem State.judgeSlot_keeps {x1} (h : Keeps a s) : Keeps a (State.judgeSlot s x1) := by
  unfold State.judgeSlot
  try dsimp only
  repeat' (first | with_reducible assumption | with_reducible apply State.journalUnit_keeps | with_reducible refine keeps_foldl (fun _ _ _ => ?_) ?_ | with_reducible refine keeps_forUpto (fun _ _ _ => ?_) ?_ | split | with_reducible refine keeps_freeCnt (Nat.le_add_right _ _) ?_)

theorem State.readJournal_keepsOk (e : State.readJournal s = .ok t) (h : Keeps a s) : Keeps a t := by
  unfold State.readJournal at e
  (try dsimp only at e); (repeat' split at e) <;> first | (cases e; done) | (injection e with e; subst e; (repeat' (first | with_reducible assumption | with_reducible apply State.journalStep_keeps | with_reducible refine keeps_mapBoot (by intro x; first | with_reducible rfl | (dsimp only; repeat' split) <;> with_reducible rfl) (by intro x; first | with_reducible rfl | (dsimp only; repeat' split) <;> with_reducible rfl) ?_ | with_reducible apply State.compact_keeps | with_reducible apply State.judgeSlot_keeps | with_reducible refine keeps_foldl (fun _ _ _ => ?_) ?_ | with_reducible refine keeps_forUpto (fun _ _ _ => ?_) ?_ | split | with_reducible refine keeps_freeCnt (Nat.le_add_right _ _) ?_)))

theorem State.applyAlternatives_keeps (h : Keeps a s) : Keeps a (State.applyAlternatives s) := by
  unfold State.applyAlternatives
  try dsimp only
  repeat' (first | with_reducible assumption | with_reducible apply keeps_mapFlt | with_reducible refine keeps_mapBoot (by intro x; first | with_reducible rfl | (dsimp only; repeat' split) <;> with_reducible rfl) (by intro x; first | with_reducible rfl | (dsimp only; repeat' split) <;> with_reducible rfl) ?_ | with_reducible refine keeps_foldl (fun _ _ _ => ?_) ?_ | with_reducible refine keeps_forUpto (fun _ _ _ => ?_) ?_ | split | with_reducible refine keeps_freeCnt (Nat.le_add_right _ _) ?_)

theorem State.skipOff_keeps (h : Keeps a s) : Keeps a (State.skipOff s) := by
  unfold State.skipOff
  try dsimp only
  repeat' (first | with_reducible assumption | with_reducible apply State.journalStep_keeps | with_reducible refine keeps_mapBoot (by intro x; first | with_reducible rfl | (dsimp only; repeat' split) <;> with_reducible rfl) (by intro x; first | with_reducible rfl | (dsimp only; repeat' split) <;> with_reducible rfl) ?_ | with_reducible refine keeps_foldl (fun _ _ _ => ?_) ?_ | with_reducible refine keeps_forUpto (fun _ _ _ => ?_) ?_ | split | with_reducible refine keeps_freeCnt (Nat.le_add_right _ _) ?_)

theorem State.dropUnit_keeps {x1 x2 x3 x4} (h : Keeps a s) : Keeps a (State.dropUnit s x1 x2 x3 x4) := by
  unfold State.dropUnit
  try dsimp only
  repeat' (first | with_reducible assumption | with_reducible apply State.journalUnit_keeps | with_reducible apply State.skipOff_keeps | with_reducible apply keeps_mapFlt | with_reducible apply State.updEng_keeps | with_reducible refine keeps_mapBoot (by intro x; first | with_reducible rfl | (dsimp only; repeat' split) <;> with_reducible rfl) (by intro x; first | with_reducible rfl | (dsimp only; repeat' split) <;> with_reducible rfl) ?_ | with_reducible refine keeps_foldl (fun _ _ _ => ?_) ?_ | with_reducible refine keeps_forUpto (fun _ _ _ => ?_) ?_ | split | with_reducible refine keeps_freeCnt (Nat.le_add_right _ _) ?_)

theorem State.bootHalt_keeps (h : Keeps a s) : Keeps a (State.bootHalt s) := by
  unfold State.bootHalt
  try dsimp only
  repeat' (first | with_reducible assumption | with_reducible refine keeps_mapBoot (by intro x; first | with_reducible rfl | (dsimp only; repeat' split) <;> with_reducible rfl) (by intro x; first | with_reducible rfl | (dsimp only; repeat' split) <;> with_reducible rfl) ?_ | with_reducible refine keeps_foldl (fun _ _ _ => ?_) ?_ | with_reducible refine keeps_forUpto (fun _ _ _ => ?_) ?_ | split | with_reducible refine keeps_freeCnt (Nat.le_add_right _ _) ?_)

theorem State.stepFails_keeps {x1 x2 x3} (h : Keeps a s) : Keeps a (State.stepFails s x1 x2 x3) := by
  unfold State.stepFails
  try dsimp only
  repeat' (first | with_reducible assumption | with_reducible apply State.journalUnit_keeps | with_reducible apply State.bootHalt_keeps | with_reducible apply State.dropUnit_keeps | with_reducible apply State.journalStep_keeps | with_reducible refine keeps_mapBoot (by intro x; first | with_reducible rfl | (dsimp only; repeat' split) <;> with_reducible rfl) (by intro x; first | with_reducible rfl | (dsimp only; repeat' split) <;> with_reducible rfl) ?_ | with_reducible refine keeps_foldl (fun _ _ _ => ?_) ?_ | with_reducible refine keeps_forUpto (fun _ _ _ => ?_) ?_ | split | with_reducible refine keeps_freeCnt (Nat.le_add_right _ _) ?_)

theorem State.raiseRollback_keeps (h : Keeps a s) : Keeps a (State.raiseRollback s) := by
  unfold State.raiseRollback
  exact keeps_mapSec (fun _ => rfl) (fun _ => rfl) (fun _ => Nat.le_max_left _ _) (fun _ => rfl) h

theorem State.bootReady_keeps {x1} (h : Keeps a s) : Keeps a (State.bootReady s x1) := by
  unfold State.bootReady
  try dsimp only
  repeat' (first | with_reducible assumption | with_reducible apply State.dnpTrain_keeps | with_reducible refine keeps_mapBoot (by intro x; first | with_reducible rfl | (dsimp only; repeat' split) <;> with_reducible rfl) (by intro x; first | with_reducible rfl | (dsimp only; repeat' split) <;> with_reducible rfl) ?_ | with_reducible refine keeps_mapTly (by intro x hx; first | exact hx | (dsimp only; split <;> exact hx)) ?_ | with_reducible refine keeps_mapPair (by intro x; first | with_reducible rfl | (dsimp only; repeat' split) <;> with_reducible rfl) ?_ | with_reducible apply keeps_mapPins | with_reducible apply keeps_mapMbx | with_reducible apply State.raiseRollback_keeps | with_reducible apply State.applySwitch_keeps | with_reducible refine keeps_foldl (fun _ _ _ => ?_) ?_ | with_reducible refine keeps_forUpto (fun _ _ _ => ?_) ?_ | split | with_reducible refine keeps_freeCnt (Nat.le_add_right _ _) ?_)

theorem State.diesRun_keeps (h : Keeps a s) : Keeps a (State.diesRun s) := by
  unfold State.diesRun
  try dsimp only
  repeat' (first | with_reducible assumption | with_reducible apply State.setDie_keeps | with_reducible apply keeps_mapCore | with_reducible refine keeps_foldl (fun _ _ _ => ?_) ?_ | with_reducible refine keeps_forUpto (fun _ _ _ => ?_) ?_ | split | with_reducible refine keeps_freeCnt (Nat.le_add_right _ _) ?_)

theorem State.enableFeatures_keeps (h : Keeps a s) : Keeps a (State.enableFeatures s) := by
  unfold State.enableFeatures
  try dsimp only
  repeat' (first | with_reducible assumption | with_reducible refine keeps_mapBoot (by intro x; first | with_reducible rfl | (dsimp only; repeat' split) <;> with_reducible rfl) (by intro x; first | with_reducible rfl | (dsimp only; repeat' split) <;> with_reducible rfl) ?_ | with_reducible refine keeps_foldl (fun _ _ _ => ?_) ?_ | with_reducible refine keeps_forUpto (fun _ _ _ => ?_) ?_ | split | with_reducible refine keeps_freeCnt (Nat.le_add_right _ _) ?_)

theorem State.stepWork_keepsOk (e : State.stepWork s = .ok t) (h : Keeps a s) : Keeps a t := by
  unfold State.stepWork at e
  split at e
  · exact State.readJournal_keepsOk e h
  · exact State.verify_keepsOk _ e h
  · split at e
    · cases e
    · rename_i hu
      have k := State.verify_keepsOk _ hu h
      split at e
      · cases e; exact State.applyConfig_keeps (State.applyAlternatives_keeps k)
      · cases e
  · split at e
    · cases e
    · rename_i hu
      cases e
      exact State.applyIsland_keeps (State.verify_keepsOk _ hu h)
  · split at e
    · cases e; exact h
    · cases e
  · cases e; exact h

theorem State.afterStep_keeps (h : Keeps a s) : Keeps a (State.afterStep s) := by
  unfold State.afterStep
  try dsimp only
  repeat' (first | with_reducible assumption | with_reducible apply State.applyDieCfg_keeps | with_reducible apply State.applyCoolCfg_keeps | with_reducible apply State.diesRun_keeps | with_reducible apply State.enableFeatures_keeps | with_reducible refine keeps_foldl (fun _ _ _ => ?_) ?_ | with_reducible refine keeps_forUpto (fun _ _ _ => ?_) ?_ | split | with_reducible refine keeps_freeCnt (Nat.le_add_right _ _) ?_)

theorem State.beginStep_keeps {x1} (h : Keeps a s) : Keeps a (State.beginStep s x1) := by
  unfold State.beginStep
  try dsimp only
  repeat' (first | with_reducible assumption | with_reducible apply State.stackCfg_keeps | with_reducible apply State.updHmc_keeps | with_reducible apply State.journalStep_keeps | with_reducible refine keeps_mapBoot (by intro x; first | with_reducible rfl | (dsimp only; repeat' split) <;> with_reducible rfl) (by intro x; first | with_reducible rfl | (dsimp only; repeat' split) <;> with_reducible rfl) ?_ | with_reducible refine keeps_foldl (fun _ _ _ => ?_) ?_ | with_reducible refine keeps_forUpto (fun _ _ _ => ?_) ?_ | split | with_reducible refine keeps_freeCnt (Nat.le_add_right _ _) ?_)

theorem State.endUnit_keeps {x1 x2 x3} (h : Keeps a s) : Keeps a (State.endUnit s x1 x2 x3) := by
  unfold State.endUnit
  try dsimp only
  repeat' (first | with_reducible assumption | with_reducible apply State.journalStep_keeps | with_reducible refine keeps_mapBoot (by intro x; first | with_reducible rfl | (dsimp only; repeat' split) <;> with_reducible rfl) (by intro x; first | with_reducible rfl | (dsimp only; repeat' split) <;> with_reducible rfl) ?_ | with_reducible apply State.stepFails_keeps | with_reducible refine keeps_foldl (fun _ _ _ => ?_) ?_ | with_reducible refine keeps_forUpto (fun _ _ _ => ?_) ?_ | split | with_reducible refine keeps_freeCnt (Nat.le_add_right _ _) ?_)

theorem State.advanceBoot_keeps (h : Keeps a s) : Keeps a (State.advanceBoot s) := by
  unfold State.advanceBoot
  try dsimp only
  repeat' (first | with_reducible assumption | with_reducible apply State.beginStep_keeps | with_reducible apply State.bootReady_keeps | with_reducible apply State.afterStep_keeps | with_reducible refine keeps_foldl (fun _ _ _ => ?_) ?_ | with_reducible refine keeps_forUpto (fun _ _ _ => ?_) ?_ | split | with_reducible refine keeps_freeCnt (Nat.le_add_right _ _) ?_)

theorem State.secondPair_keeps {x1} (h : Keeps a s) : Keeps a (State.secondPair s x1) := by
  unfold State.secondPair
  try dsimp only
  repeat' (first | with_reducible assumption | with_reducible apply State.journalStep_keeps | with_reducible refine keeps_foldl (fun _ _ _ => ?_) ?_ | with_reducible refine keeps_forUpto (fun _ _ _ => ?_) ?_ | split | with_reducible refine keeps_freeCnt (Nat.le_add_right _ _) ?_)

theorem State.stepDone_keeps {x1 x2 x3} (h : Keeps a s) : Keeps a (State.stepDone s x1 x2 x3) := by
  unfold State.stepDone
  dsimp only
  generalize (if x1.1 = 0 then _ else _) = mine
  refine keeps_ite (fun _ => h) (fun _ => ?_)
  split
  · exact State.advanceBoot_keeps (keeps_foldl (fun _ _ k => State.endUnit_keeps k) h)
  · rename_i hu
    refine State.advanceBoot_keeps (State.secondPair_keeps (keeps_foldl (fun _ _ k => ?_) ?_))
    · split
      · exact State.endUnit_keeps k
      · exact k
    · split at hu
      · exact State.stepWork_keepsOk hu h
      · cases hu; exact h

theorem State.stepLate_keeps (h : Keeps a s) : Keeps a (State.stepLate s) := by
  unfold State.stepLate
  try dsimp only
  repeat' (first | with_reducible assumption | with_reducible apply State.stepDone_keeps | with_reducible apply State.bootHalt_keeps | with_reducible refine keeps_foldl (fun _ _ _ => ?_) ?_ | with_reducible refine keeps_forUpto (fun _ _ _ => ?_) ?_ | split | with_reducible refine keeps_freeCnt (Nat.le_add_right _ _) ?_)

theorem State.tapStart_keeps (h : Keeps a s) : Keeps a (State.tapStart s) := by
  unfold State.tapStart
  try dsimp only
  repeat' (first | with_reducible assumption | with_reducible apply keeps_mapTap | with_reducible refine keeps_foldl (fun _ _ _ => ?_) ?_ | with_reducible refine keeps_forUpto (fun _ _ _ => ?_) ?_ | split | with_reducible refine keeps_freeCnt (Nat.le_add_right _ _) ?_)

theorem State.begin_keeps (h : Keeps a s) : Keeps a (State.begin s) := by
  unfold State.begin
  try dsimp only
  repeat' (first | with_reducible assumption | with_reducible apply keeps_mapHwb | with_reducible apply State.beginStep_keeps | with_reducible refine keeps_mapBoot (by intro x; first | with_reducible rfl | (dsimp only; repeat' split) <;> with_reducible rfl) (by intro x; first | with_reducible rfl | (dsimp only; repeat' split) <;> with_reducible rfl) ?_ | with_reducible apply keeps_mapFlt | with_reducible refine keeps_foldl (fun _ _ _ => ?_) ?_ | with_reducible refine keeps_forUpto (fun _ _ _ => ?_) ?_ | split | with_reducible refine keeps_freeCnt (Nat.le_add_right _ _) ?_)

theorem State.assertReset_keeps (h : Keeps a s) : Keeps a (State.assertReset s) := by
  unfold State.assertReset
  try dsimp only
  repeat' (first | with_reducible assumption | with_reducible apply State.coldReset_keeps | with_reducible apply keeps_mapPins | with_reducible refine keeps_foldl (fun _ _ _ => ?_) ?_ | with_reducible refine keeps_forUpto (fun _ _ _ => ?_) ?_ | split | with_reducible refine keeps_freeCnt (Nat.le_add_right _ _) ?_)

theorem State.powerLow_keeps {x1} (h : Keeps a s) : Keeps a (State.powerLow s x1) := by
  unfold State.powerLow
  try dsimp only
  repeat' (first | with_reducible assumption | with_reducible apply State.tapStart_keeps | with_reducible apply State.railBad_keeps | with_reducible apply keeps_mapPins | with_reducible refine keeps_foldl (fun _ _ _ => ?_) ?_ | with_reducible refine keeps_forUpto (fun _ _ _ => ?_) ?_ | split | with_reducible refine keeps_freeCnt (Nat.le_add_right _ _) ?_)

theorem State.firstSentryLate_keeps (h : Keeps a s) : Keeps a (State.firstSentryLate s) := by
  unfold State.firstSentryLate
  try dsimp only
  repeat' (first | with_reducible assumption | with_reducible apply State.safeState_keeps | with_reducible refine keeps_foldl (fun _ _ _ => ?_) ?_ | with_reducible refine keeps_forUpto (fun _ _ _ => ?_) ?_ | split | with_reducible refine keeps_freeCnt (Nat.le_add_right _ _) ?_)

theorem execResetNAssert_keeps (e : execResetNAssert s = .next t) : Keeps s t := by
  unfold execResetNAssert at e
  have h := Keeps.refl s
  replace e := Host.Outcome.next.inj e
  subst e
  try dsimp only
  repeat' (first | with_reducible assumption | with_reducible apply State.assertReset_keeps | with_reducible refine keeps_foldl (fun _ _ _ => ?_) ?_ | with_reducible refine keeps_forUpto (fun _ _ _ => ?_) ?_ | split | with_reducible refine keeps_freeCnt (Nat.le_add_right _ _) ?_)

theorem execResetNRelease_keeps (e : execResetNRelease s = .next t) : Keeps s t := by
  unfold execResetNRelease at e
  have h := Keeps.refl s
  replace e := Host.Outcome.next.inj e
  subst e
  try dsimp only
  repeat' (first | with_reducible assumption | with_reducible apply State.tapStart_keeps | with_reducible apply keeps_mapPins | with_reducible apply State.begin_keeps | with_reducible refine keeps_foldl (fun _ _ _ => ?_) ?_ | with_reducible refine keeps_forUpto (fun _ _ _ => ?_) ?_ | split | with_reducible refine keeps_freeCnt (Nat.le_add_right _ _) ?_)

theorem execPowerGoodRise_keeps {x0} (e : execPowerGoodRise x0 s = .next t) : Keeps s t := by
  unfold execPowerGoodRise at e
  have h := Keeps.refl s
  replace e := Host.Outcome.next.inj e
  subst e
  try dsimp only
  repeat' (first | with_reducible assumption | with_reducible apply keeps_mapPins | with_reducible apply State.begin_keeps | with_reducible refine keeps_foldl (fun _ _ _ => ?_) ?_ | with_reducible refine keeps_forUpto (fun _ _ _ => ?_) ?_ | split | with_reducible refine keeps_freeCnt (Nat.le_add_right _ _) ?_)

theorem execPgLow_keeps {x0} (e : execPgLow x0 s = .next t) : Keeps s t := by
  unfold execPgLow at e
  have h := Keeps.refl s
  replace e := Host.Outcome.next.inj e
  subst e
  try dsimp only
  repeat' (first | with_reducible assumption | with_reducible apply State.powerLow_keeps | with_reducible refine keeps_foldl (fun _ _ _ => ?_) ?_ | with_reducible refine keeps_forUpto (fun _ _ _ => ?_) ?_ | split | with_reducible refine keeps_freeCnt (Nat.le_add_right _ _) ?_)

theorem execBootStepComplete_keeps {x0 x1 x2 x3} (e : execBootStepComplete x0 x1 x2 x3 s = .next t) : Keeps s t := by
  unfold execBootStepComplete at e
  have h := Keeps.refl s
  replace e := Host.Outcome.next.inj e
  subst e
  try dsimp only
  repeat' (first | with_reducible assumption | with_reducible apply State.stepDone_keeps | with_reducible refine keeps_foldl (fun _ _ _ => ?_) ?_ | with_reducible refine keeps_forUpto (fun _ _ _ => ?_) ?_ | split | with_reducible refine keeps_freeCnt (Nat.le_add_right _ _) ?_)

theorem execBootStepTimeout_keeps (e : execBootStepTimeout s = .next t) : Keeps s t := by
  unfold execBootStepTimeout at e
  have h := Keeps.refl s
  replace e := Host.Outcome.next.inj e
  subst e
  try dsimp only
  repeat' (first | with_reducible assumption | with_reducible apply State.stepLate_keeps | with_reducible refine keeps_foldl (fun _ _ _ => ?_) ?_ | with_reducible refine keeps_forUpto (fun _ _ _ => ?_) ?_ | split | with_reducible refine keeps_freeCnt (Nat.le_add_right _ _) ?_)

theorem execFirstSentryTimeout_keeps (e : execFirstSentryTimeout s = .next t) : Keeps s t := by
  unfold execFirstSentryTimeout at e
  have h := Keeps.refl s
  replace e := Host.Outcome.next.inj e
  subst e
  try dsimp only
  repeat' (first | with_reducible assumption | with_reducible apply State.firstSentryLate_keeps | with_reducible refine keeps_foldl (fun _ _ _ => ?_) ?_ | with_reducible refine keeps_forUpto (fun _ _ _ => ?_) ?_ | split | with_reducible refine keeps_freeCnt (Nat.le_add_right _ _) ?_)

end Sys2Proof.Machine
end

