-- ==== Sys2Proof/Laws/KeepsTap.lean ====
section
/-! SUPPORT. Every operation of Machine/Tap.lean carries `Keeps` on. -/

namespace Sys2Proof.Machine

set_option linter.unusedTactic false
set_option linter.unreachableTactic false

variable {a s t : State}

theorem State.tapLoad_keeps {x1} (h : Keeps a s) : Keeps a (State.tapLoad s x1) := by
  unfold State.tapLoad
  try dsimp only
  repeat' (first | with_reducible assumption | with_reducible apply keeps_mapTap | with_reducible refine keeps_foldl (fun _ _ _ => ?_) ?_ | with_reducible refine keeps_forUpto (fun _ _ _ => ?_) ?_ | split | with_reducible refine keeps_freeCnt (Nat.le_add_right _ _) ?_)

theorem State.tapBypass_keeps (h : Keeps a s) : Keeps a (State.tapBypass s) := by
  unfold State.tapBypass
  try dsimp only
  repeat' (first | with_reducible assumption | with_reducible apply State.tapLoad_keeps | with_reducible apply keeps_mapTap | with_reducible refine keeps_foldl (fun _ _ _ => ?_) ?_ | with_reducible refine keeps_forUpto (fun _ _ _ => ?_) ?_ | split | with_reducible refine keeps_freeCnt (Nat.le_add_right _ _) ?_)

theorem State.wireEnd_keeps {x1 x2 x3 x4} (h : Keeps a s) : Keeps a (State.wireEnd s x1 x2 x3 x4) := by
  unfold State.wireEnd
  try dsimp only
  repeat' (first | with_reducible assumption | with_reducible apply keeps_mapTap | with_reducible refine keeps_foldl (fun _ _ _ => ?_) ?_ | with_reducible refine keeps_forUpto (fun _ _ _ => ?_) ?_ | split | with_reducible refine keeps_freeCnt (Nat.le_add_right _ _) ?_)

theorem execIdcode_keeps (e : execIdcode s = .next t) : Keeps s t := by
  unfold execIdcode at e
  have h := Keeps.refl s
  replace e := Host.Outcome.next.inj e
  subst e
  try dsimp only
  repeat' (first | with_reducible assumption | with_reducible apply State.tapLoad_keeps | with_reducible refine keeps_foldl (fun _ _ _ => ?_) ?_ | with_reducible refine keeps_forUpto (fun _ _ _ => ?_) ?_ | split | with_reducible refine keeps_freeCnt (Nat.le_add_right _ _) ?_)

theorem execSample_keeps (e : execSample s = .next t) : Keeps s t := by
  unfold execSample at e
  have h := Keeps.refl s
  replace e := Host.Outcome.next.inj e
  subst e
  try dsimp only
  repeat' (first | with_reducible assumption | with_reducible apply State.tapLoad_keeps | with_reducible apply keeps_mapTap | with_reducible refine keeps_foldl (fun _ _ _ => ?_) ?_ | with_reducible refine keeps_forUpto (fun _ _ _ => ?_) ?_ | split | with_reducible refine keeps_freeCnt (Nat.le_add_right _ _) ?_)

theorem execPreload_keeps {x0} (e : execPreload x0 s = .next t) : Keeps s t := by
  unfold execPreload at e
  have h := Keeps.refl s
  replace e := Host.Outcome.next.inj e
  subst e
  try dsimp only
  repeat' (first | with_reducible assumption | with_reducible apply State.tapLoad_keeps | with_reducible apply keeps_mapTap | with_reducible refine keeps_foldl (fun _ _ _ => ?_) ?_ | with_reducible refine keeps_forUpto (fun _ _ _ => ?_) ?_ | split | with_reducible refine keeps_freeCnt (Nat.le_add_right _ _) ?_)

theorem execExtest_keeps (e : execExtest s = .next t) : Keeps s t := by
  unfold execExtest at e
  have h := Keeps.refl s
  replace e := Host.Outcome.next.inj e
  subst e
  try dsimp only
  repeat' (first | with_reducible assumption | with_reducible apply State.tapBypass_keeps | with_reducible apply State.tapLoad_keeps | with_reducible apply keeps_mapTap | with_reducible refine keeps_foldl (fun _ _ _ => ?_) ?_ | with_reducible refine keeps_forUpto (fun _ _ _ => ?_) ?_ | split | with_reducible refine keeps_freeCnt (Nat.le_add_right _ _) ?_)

theorem execWirepat_keeps (e : execWirepat s = .next t) : Keeps s t := by
  unfold execWirepat at e
  have h := Keeps.refl s
  replace e := Host.Outcome.next.inj e
  subst e
  try dsimp only
  repeat' (first | with_reducible assumption | with_reducible apply State.tapBypass_keeps | with_reducible apply State.tapLoad_keeps | with_reducible apply keeps_mapTap | with_reducible refine keeps_foldl (fun _ _ _ => ?_) ?_ | with_reducible refine keeps_forUpto (fun _ _ _ => ?_) ?_ | split | with_reducible refine keeps_freeCnt (Nat.le_add_right _ _) ?_)

theorem execWirepatDone_keeps {x0 x1 x2 x3} (e : execWirepatDone x0 x1 x2 x3 s = .next t) : Keeps s t := by
  unfold execWirepatDone at e
  have h := Keeps.refl s
  replace e := Host.Outcome.next.inj e
  subst e
  try dsimp only
  repeat' (first | with_reducible assumption | with_reducible apply State.wireEnd_keeps | with_reducible refine keeps_foldl (fun _ _ _ => ?_) ?_ | with_reducible refine keeps_forUpto (fun _ _ _ => ?_) ?_ | split | with_reducible refine keeps_freeCnt (Nat.le_add_right _ _) ?_)

theorem execBypass_keeps (e : execBypass s = .next t) : Keeps s t := by
  unfold execBypass at e
  have h := Keeps.refl s
  replace e := Host.Outcome.next.inj e
  subst e
  try dsimp only
  repeat' (first | with_reducible assumption | with_reducible apply State.tapBypass_keeps | with_reducible refine keeps_foldl (fun _ _ _ => ?_) ?_ | with_reducible refine keeps_forUpto (fun _ _ _ => ?_) ?_ | split | with_reducible refine keeps_freeCnt (Nat.le_add_right _ _) ?_)

end Sys2Proof.Machine
end

