-- ==== Sys2Proof/Laws/KeepsTick.lean ====
section
/-! SUPPORT. Every operation of Machine/Tick.lean carries `Keeps` on. -/

namespace Sys2Proof.Machine

set_option linter.unusedTactic false
set_option linter.unreachableTactic false

variable {a s t : State}

theorem State.countBeats_keeps (h : Keeps a s) : Keeps a (State.countBeats s) := by
  unfold State.countBeats
  try dsimp only
  repeat' (first | with_reducible assumption | with_reducible apply keeps_mapTime | with_reducible refine keeps_foldl (fun _ _ _ => ?_) ?_ | with_reducible refine keeps_forUpto (fun _ _ _ => ?_) ?_ | split | with_reducible refine keeps_freeCnt (Nat.le_add_right _ _) ?_)

theorem State.dieTick_keeps {x1} (h : Keeps a s) : Keeps a (State.dieTick s x1) := by
  unfold State.dieTick
  try dsimp only
  repeat' (first | with_reducible assumption | with_reducible apply State.walkOne_keeps | with_reducible apply State.stackWork_keeps | with_reducible refine keeps_foldl (fun _ _ _ => ?_) ?_ | with_reducible refine keeps_forUpto (fun _ _ _ => ?_) ?_ | split | with_reducible refine keeps_freeCnt (Nat.le_add_right _ _) ?_)

theorem State.tick_keeps (h : Keeps a s) : Keeps a (State.tick s) := by
  unfold State.tick
  try dsimp only
  repeat' (first | with_reducible assumption | with_reducible apply State.countBeats_keeps | with_reducible apply State.dieTick_keeps | with_reducible apply State.endWaits_keeps | with_reducible apply State.carryCheck_keeps | with_reducible apply keeps_mapGrn | with_reducible apply keeps_mapTime | with_reducible refine keeps_foldl (fun _ _ _ => ?_) ?_ | with_reducible refine keeps_forUpto (fun _ _ _ => ?_) ?_ | split | with_reducible refine keeps_freeCnt (Nat.le_add_right _ _) ?_)

end Sys2Proof.Machine
end

