-- ==== Sys2Proof/Laws/State.lean ====
section
/-! SUPPORT. What each block of the state is after an update of one block. -/

namespace Sys2Proof.Machine


variable (s : State)

@[simp] theorem State.mapTime_pending (f : TimeS → TimeS) : (s.mapTime f).pending = s.pending := rfl
@[simp] theorem State.mapTime_freeCnt (f : TimeS → TimeS) : (s.mapTime f).freeCnt = s.freeCnt := rfl
@[simp] theorem State.mapTime_time (f : TimeS → TimeS) : (s.mapTime f).time = f s.time := rfl
@[simp] theorem State.mapTime_pins (f : TimeS → TimeS) : (s.mapTime f).pins = s.pins := rfl
@[simp] theorem State.mapTime_mem (f : TimeS → TimeS) : (s.mapTime f).mem = s.mem := rfl
@[simp] theorem State.mapTime_fab (f : TimeS → TimeS) : (s.mapTime f).fab = s.fab := rfl
@[simp] theorem State.mapTime_mbx (f : TimeS → TimeS) : (s.mapTime f).mbx = s.mbx := rfl
@[simp] theorem State.mapTime_cmds (f : TimeS → TimeS) : (s.mapTime f).cmds = s.cmds := rfl
@[simp] theorem State.mapTime_tly (f : TimeS → TimeS) : (s.mapTime f).tly = s.tly := rfl
@[simp] theorem State.mapTime_cx (f : TimeS → TimeS) : (s.mapTime f).cx = s.cx := rfl
@[simp] theorem State.mapTime_carders (f : TimeS → TimeS) : (s.mapTime f).carders = s.carders := rfl
@[simp] theorem State.mapTime_grn (f : TimeS → TimeS) : (s.mapTime f).grn = s.grn := rfl
@[simp] theorem State.mapTime_gln (f : TimeS → TimeS) : (s.mapTime f).gln = s.gln := rfl
@[simp] theorem State.mapTime_kvw (f : TimeS → TimeS) : (s.mapTime f).kvw = s.kvw := rfl
@[simp] theorem State.mapTime_hmc (f : TimeS → TimeS) : (s.mapTime f).hmc = s.hmc := rfl
@[simp] theorem State.mapTime_blk (f : TimeS → TimeS) : (s.mapTime f).blk = s.blk := rfl
@[simp] theorem State.mapTime_out (f : TimeS → TimeS) : (s.mapTime f).out = s.out := rfl
@[simp] theorem State.mapTime_ing (f : TimeS → TimeS) : (s.mapTime f).ing = s.ing := rfl
@[simp] theorem State.mapTime_cool (f : TimeS → TimeS) : (s.mapTime f).cool = s.cool := rfl
@[simp] theorem State.mapTime_sw (f : TimeS → TimeS) : (s.mapTime f).sw = s.sw := rfl
@[simp] theorem State.mapTime_kcp (f : TimeS → TimeS) : (s.mapTime f).kcp = s.kcp := rfl
@[simp] theorem State.mapTime_core (f : TimeS → TimeS) : (s.mapTime f).core = s.core := rfl
@[simp] theorem State.mapTime_hwa (f : TimeS → TimeS) : (s.mapTime f).hwa = s.hwa := rfl
@[simp] theorem State.mapTime_hwb (f : TimeS → TimeS) : (s.mapTime f).hwb = s.hwb := rfl
@[simp] theorem State.mapTime_pair (f : TimeS → TimeS) : (s.mapTime f).pair = s.pair := rfl
@[simp] theorem State.mapTime_dnp (f : TimeS → TimeS) : (s.mapTime f).dnp = s.dnp := rfl
@[simp] theorem State.mapTime_flt (f : TimeS → TimeS) : (s.mapTime f).flt = s.flt := rfl
@[simp] theorem State.mapTime_boot (f : TimeS → TimeS) : (s.mapTime f).boot = s.boot := rfl
@[simp] theorem State.mapTime_sec (f : TimeS → TimeS) : (s.mapTime f).sec = s.sec := rfl
@[simp] theorem State.mapTime_thm (f : TimeS → TimeS) : (s.mapTime f).thm = s.thm := rfl
@[simp] theorem State.mapTime_tap (f : TimeS → TimeS) : (s.mapTime f).tap = s.tap := rfl

@[simp] theorem State.mapPins_pending (f : PinS → PinS) : (s.mapPins f).pending = s.pending := rfl
@[simp] theorem State.mapPins_freeCnt (f : PinS → PinS) : (s.mapPins f).freeCnt = s.freeCnt := rfl
@[simp] theorem State.mapPins_time (f : PinS → PinS) : (s.mapPins f).time = s.time := rfl
@[simp] theorem State.mapPins_pins (f : PinS → PinS) : (s.mapPins f).pins = f s.pins := rfl
@[simp] theorem State.mapPins_mem (f : PinS → PinS) : (s.mapPins f).mem = s.mem := rfl
@[simp] theorem State.mapPins_fab (f : PinS → PinS) : (s.mapPins f).fab = s.fab := rfl
@[simp] theorem State.mapPins_mbx (f : PinS → PinS) : (s.mapPins f).mbx = s.mbx := rfl
@[simp] theorem State.mapPins_cmds (f : PinS → PinS) : (s.mapPins f).cmds = s.cmds := rfl
@[simp] theorem State.mapPins_tly (f : PinS → PinS) : (s.mapPins f).tly = s.tly := rfl
@[simp] theorem State.mapPins_cx (f : PinS → PinS) : (s.mapPins f).cx = s.cx := rfl
@[simp] theorem State.mapPins_carders (f : PinS → PinS) : (s.mapPins f).carders = s.carders := rfl
@[simp] theorem State.mapPins_grn (f : PinS → PinS) : (s.mapPins f).grn = s.grn := rfl
@[simp] theorem State.mapPins_gln (f : PinS → PinS) : (s.mapPins f).gln = s.gln := rfl
@[simp] theorem State.mapPins_kvw (f : PinS → PinS) : (s.mapPins f).kvw = s.kvw := rfl
@[simp] theorem State.mapPins_hmc (f : PinS → PinS) : (s.mapPins f).hmc = s.hmc := rfl
@[simp] theorem State.mapPins_blk (f : PinS → PinS) : (s.mapPins f).blk = s.blk := rfl
@[simp] theorem State.mapPins_out (f : PinS → PinS) : (s.mapPins f).out = s.out := rfl
@[simp] theorem State.mapPins_ing (f : PinS → PinS) : (s.mapPins f).ing = s.ing := rfl
@[simp] theorem State.mapPins_cool (f : PinS → PinS) : (s.mapPins f).cool = s.cool := rfl
@[simp] theorem State.mapPins_sw (f : PinS → PinS) : (s.mapPins f).sw = s.sw := rfl
@[simp] theorem State.mapPins_kcp (f : PinS → PinS) : (s.mapPins f).kcp = s.kcp := rfl
@[simp] theorem State.mapPins_core (f : PinS → PinS) : (s.mapPins f).core = s.core := rfl
@[simp] theorem State.mapPins_hwa (f : PinS → PinS) : (s.mapPins f).hwa = s.hwa := rfl
@[simp] theorem State.mapPins_hwb (f : PinS → PinS) : (s.mapPins f).hwb = s.hwb := rfl
@[simp] theorem State.mapPins_pair (f : PinS → PinS) : (s.mapPins f).pair = s.pair := rfl
@[simp] theorem State.mapPins_dnp (f : PinS → PinS) : (s.mapPins f).dnp = s.dnp := rfl
@[simp] theorem State.mapPins_flt (f : PinS → PinS) : (s.mapPins f).flt = s.flt := rfl
@[simp] theorem State.mapPins_boot (f : PinS → PinS) : (s.mapPins f).boot = s.boot := rfl
@[simp] theorem State.mapPins_sec (f : PinS → PinS) : (s.mapPins f).sec = s.sec := rfl
@[simp] theorem State.mapPins_thm (f : PinS → PinS) : (s.mapPins f).thm = s.thm := rfl
@[simp] theorem State.mapPins_tap (f : PinS → PinS) : (s.mapPins f).tap = s.tap := rfl

@[simp] theorem State.mapMem_pending (f : Tab Byte → Tab Byte) : (s.mapMem f).pending = s.pending := rfl
@[simp] theorem State.mapMem_freeCnt (f : Tab Byte → Tab Byte) : (s.mapMem f).freeCnt = s.freeCnt := rfl
@[simp] theorem State.mapMem_time (f : Tab Byte → Tab Byte) : (s.mapMem f).time = s.time := rfl
@[simp] theorem State.mapMem_pins (f : Tab Byte → Tab Byte) : (s.mapMem f).pins = s.pins := rfl
@[simp] theorem State.mapMem_mem (f : Tab Byte → Tab Byte) : (s.mapMem f).mem = f s.mem := rfl
@[simp] theorem State.mapMem_fab (f : Tab Byte → Tab Byte) : (s.mapMem f).fab = s.fab := rfl
@[simp] theorem State.mapMem_mbx (f : Tab Byte → Tab Byte) : (s.mapMem f).mbx = s.mbx := rfl
@[simp] theorem State.mapMem_cmds (f : Tab Byte → Tab Byte) : (s.mapMem f).cmds = s.cmds := rfl
@[simp] theorem State.mapMem_tly (f : Tab Byte → Tab Byte) : (s.mapMem f).tly = s.tly := rfl
@[simp] theorem State.mapMem_cx (f : Tab Byte → Tab Byte) : (s.mapMem f).cx = s.cx := rfl
@[simp] theorem State.mapMem_carders (f : Tab Byte → Tab Byte) : (s.mapMem f).carders = s.carders := rfl
@[simp] theorem State.mapMem_grn (f : Tab Byte → Tab Byte) : (s.mapMem f).grn = s.grn := rfl
@[simp] theorem State.mapMem_gln (f : Tab Byte → Tab Byte) : (s.mapMem f).gln = s.gln := rfl
@[simp] theorem State.mapMem_kvw (f : Tab Byte → Tab Byte) : (s.mapMem f).kvw = s.kvw := rfl
@[simp] theorem State.mapMem_hmc (f : Tab Byte → Tab Byte) : (s.mapMem f).hmc = s.hmc := rfl
@[simp] theorem State.mapMem_blk (f : Tab Byte → Tab Byte) : (s.mapMem f).blk = s.blk := rfl
@[simp] theorem State.mapMem_out (f : Tab Byte → Tab Byte) : (s.mapMem f).out = s.out := rfl
@[simp] theorem State.mapMem_ing (f : Tab Byte → Tab Byte) : (s.mapMem f).ing = s.ing := rfl
@[simp] theorem State.mapMem_cool (f : Tab Byte → Tab Byte) : (s.mapMem f).cool = s.cool := rfl
@[simp] theorem State.mapMem_sw (f : Tab Byte → Tab Byte) : (s.mapMem f).sw = s.sw := rfl
@[simp] theorem State.mapMem_kcp (f : Tab Byte → Tab Byte) : (s.mapMem f).kcp = s.kcp := rfl
@[simp] theorem State.mapMem_core (f : Tab Byte → Tab Byte) : (s.mapMem f).core = s.core := rfl
@[simp] theorem State.mapMem_hwa (f : Tab Byte → Tab Byte) : (s.mapMem f).hwa = s.hwa := rfl
@[simp] theorem State.mapMem_hwb (f : Tab Byte → Tab Byte) : (s.mapMem f).hwb = s.hwb := rfl
@[simp] theorem State.mapMem_pair (f : Tab Byte → Tab Byte) : (s.mapMem f).pair = s.pair := rfl
@[simp] theorem State.mapMem_dnp (f : Tab Byte → Tab Byte) : (s.mapMem f).dnp = s.dnp := rfl
@[simp] theorem State.mapMem_flt (f : Tab Byte → Tab Byte) : (s.mapMem f).flt = s.flt := rfl
@[simp] theorem State.mapMem_boot (f : Tab Byte → Tab Byte) : (s.mapMem f).boot = s.boot := rfl
@[simp] theorem State.mapMem_sec (f : Tab Byte → Tab Byte) : (s.mapMem f).sec = s.sec := rfl
@[simp] theorem State.mapMem_thm (f : Tab Byte → Tab Byte) : (s.mapMem f).thm = s.thm := rfl
@[simp] theorem State.mapMem_tap (f : Tab Byte → Tab Byte) : (s.mapMem f).tap = s.tap := rfl

@[simp] theorem State.mapFab_pending (f : FabS → FabS) : (s.mapFab f).pending = s.pending := rfl
@[simp] theorem State.mapFab_freeCnt (f : FabS → FabS) : (s.mapFab f).freeCnt = s.freeCnt := rfl
@[simp] theorem State.mapFab_time (f : FabS → FabS) : (s.mapFab f).time = s.time := rfl
@[simp] theorem State.mapFab_pins (f : FabS → FabS) : (s.mapFab f).pins = s.pins := rfl
@[simp] theorem State.mapFab_mem (f : FabS → FabS) : (s.mapFab f).mem = s.mem := rfl
@[simp] theorem State.mapFab_fab (f : FabS → FabS) : (s.mapFab f).fab = f s.fab := rfl
@[simp] theorem State.mapFab_mbx (f : FabS → FabS) : (s.mapFab f).mbx = s.mbx := rfl
@[simp] theorem State.mapFab_cmds (f : FabS → FabS) : (s.mapFab f).cmds = s.cmds := rfl
@[simp] theorem State.mapFab_tly (f : FabS → FabS) : (s.mapFab f).tly = s.tly := rfl
@[simp] theorem State.mapFab_cx (f : FabS → FabS) : (s.mapFab f).cx = s.cx := rfl
@[simp] theorem State.mapFab_carders (f : FabS → FabS) : (s.mapFab f).carders = s.carders := rfl
@[simp] theorem State.mapFab_grn (f : FabS → FabS) : (s.mapFab f).grn = s.grn := rfl
@[simp] theorem State.mapFab_gln (f : FabS → FabS) : (s.mapFab f).gln = s.gln := rfl
@[simp] theorem State.mapFab_kvw (f : FabS → FabS) : (s.mapFab f).kvw = s.kvw := rfl
@[simp] theorem State.mapFab_hmc (f : FabS → FabS) : (s.mapFab f).hmc = s.hmc := rfl
@[simp] theorem State.mapFab_blk (f : FabS → FabS) : (s.mapFab f).blk = s.blk := rfl
@[simp] theorem State.mapFab_out (f : FabS → FabS) : (s.mapFab f).out = s.out := rfl
@[simp] theorem State.mapFab_ing (f : FabS → FabS) : (s.mapFab f).ing = s.ing := rfl
@[simp] theorem State.mapFab_cool (f : FabS → FabS) : (s.mapFab f).cool = s.cool := rfl
@[simp] theorem State.mapFab_sw (f : FabS → FabS) : (s.mapFab f).sw = s.sw := rfl
@[simp] theorem State.mapFab_kcp (f : FabS → FabS) : (s.mapFab f).kcp = s.kcp := rfl
@[simp] theorem State.mapFab_core (f : FabS → FabS) : (s.mapFab f).core = s.core := rfl
@[simp] theorem State.mapFab_hwa (f : FabS → FabS) : (s.mapFab f).hwa = s.hwa := rfl
@[simp] theorem State.mapFab_hwb (f : FabS → FabS) : (s.mapFab f).hwb = s.hwb := rfl
@[simp] theorem State.mapFab_pair (f : FabS → FabS) : (s.mapFab f).pair = s.pair := rfl
@[simp] theorem State.mapFab_dnp (f : FabS → FabS) : (s.mapFab f).dnp = s.dnp := rfl
@[simp] theorem State.mapFab_flt (f : FabS → FabS) : (s.mapFab f).flt = s.flt := rfl
@[simp] theorem State.mapFab_boot (f : FabS → FabS) : (s.mapFab f).boot = s.boot := rfl
@[simp] theorem State.mapFab_sec (f : FabS → FabS) : (s.mapFab f).sec = s.sec := rfl
@[simp] theorem State.mapFab_thm (f : FabS → FabS) : (s.mapFab f).thm = s.thm := rfl
@[simp] theorem State.mapFab_tap (f : FabS → FabS) : (s.mapFab f).tap = s.tap := rfl

@[simp] theorem State.mapMbx_pending (f : MbxS → MbxS) : (s.mapMbx f).pending = s.pending := rfl
@[simp] theorem State.mapMbx_freeCnt (f : MbxS → MbxS) : (s.mapMbx f).freeCnt = s.freeCnt := rfl
@[simp] theorem State.mapMbx_time (f : MbxS → MbxS) : (s.mapMbx f).time = s.time := rfl
@[simp] theorem State.mapMbx_pins (f : MbxS → MbxS) : (s.mapMbx f).pins = s.pins := rfl
@[simp] theorem State.mapMbx_mem (f : MbxS → MbxS) : (s.mapMbx f).mem = s.mem := rfl
@[simp] theorem State.mapMbx_fab (f : MbxS → MbxS) : (s.mapMbx f).fab = s.fab := rfl
@[simp] theorem State.mapMbx_mbx (f : MbxS → MbxS) : (s.mapMbx f).mbx = f s.mbx := rfl
@[simp] theorem State.mapMbx_cmds (f : MbxS → MbxS) : (s.mapMbx f).cmds = s.cmds := rfl
@[simp] theorem State.mapMbx_tly (f : MbxS → MbxS) : (s.mapMbx f).tly = s.tly := rfl
@[simp] theorem State.mapMbx_cx (f : MbxS → MbxS) : (s.mapMbx f).cx = s.cx := rfl
@[simp] theorem State.mapMbx_carders (f : MbxS → MbxS) : (s.mapMbx f).carders = s.carders := rfl
@[simp] theorem State.mapMbx_grn (f : MbxS → MbxS) : (s.mapMbx f).grn = s.grn := rfl
@[simp] theorem State.mapMbx_gln (f : MbxS → MbxS) : (s.mapMbx f).gln = s.gln := rfl
@[simp] theorem State.mapMbx_kvw (f : MbxS → MbxS) : (s.mapMbx f).kvw = s.kvw := rfl
@[simp] theorem State.mapMbx_hmc (f : MbxS → MbxS) : (s.mapMbx f).hmc = s.hmc := rfl
@[simp] theorem State.mapMbx_blk (f : MbxS → MbxS) : (s.mapMbx f).blk = s.blk := rfl
@[simp] theorem State.mapMbx_out (f : MbxS → MbxS) : (s.mapMbx f).out = s.out := rfl
@[simp] theorem State.mapMbx_ing (f : MbxS → MbxS) : (s.mapMbx f).ing = s.ing := rfl
@[simp] theorem State.mapMbx_cool (f : MbxS → MbxS) : (s.mapMbx f).cool = s.cool := rfl
@[simp] theorem State.mapMbx_sw (f : MbxS → MbxS) : (s.mapMbx f).sw = s.sw := rfl
@[simp] theorem State.mapMbx_kcp (f : MbxS → MbxS) : (s.mapMbx f).kcp = s.kcp := rfl
@[simp] theorem State.mapMbx_core (f : MbxS → MbxS) : (s.mapMbx f).core = s.core := rfl
@[simp] theorem State.mapMbx_hwa (f : MbxS → MbxS) : (s.mapMbx f).hwa = s.hwa := rfl
@[simp] theorem State.mapMbx_hwb (f : MbxS → MbxS) : (s.mapMbx f).hwb = s.hwb := rfl
@[simp] theorem State.mapMbx_pair (f : MbxS → MbxS) : (s.mapMbx f).pair = s.pair := rfl
@[simp] theorem State.mapMbx_dnp (f : MbxS → MbxS) : (s.mapMbx f).dnp = s.dnp := rfl
@[simp] theorem State.mapMbx_flt (f : MbxS → MbxS) : (s.mapMbx f).flt = s.flt := rfl
@[simp] theorem State.mapMbx_boot (f : MbxS → MbxS) : (s.mapMbx f).boot = s.boot := rfl
@[simp] theorem State.mapMbx_sec (f : MbxS → MbxS) : (s.mapMbx f).sec = s.sec := rfl
@[simp] theorem State.mapMbx_thm (f : MbxS → MbxS) : (s.mapMbx f).thm = s.thm := rfl
@[simp] theorem State.mapMbx_tap (f : MbxS → MbxS) : (s.mapMbx f).tap = s.tap := rfl

@[simp] theorem State.mapCmds_pending (f : CmdS → CmdS) : (s.mapCmds f).pending = s.pending := rfl
@[simp] theorem State.mapCmds_freeCnt (f : CmdS → CmdS) : (s.mapCmds f).freeCnt = s.freeCnt := rfl
@[simp] theorem State.mapCmds_time (f : CmdS → CmdS) : (s.mapCmds f).time = s.time := rfl
@[simp] theorem State.mapCmds_pins (f : CmdS → CmdS) : (s.mapCmds f).pins = s.pins := rfl
@[simp] theorem State.mapCmds_mem (f : CmdS → CmdS) : (s.mapCmds f).mem = s.mem := rfl
@[simp] theorem State.mapCmds_fab (f : CmdS → CmdS) : (s.mapCmds f).fab = s.fab := rfl
@[simp] theorem State.mapCmds_mbx (f : CmdS → CmdS) : (s.mapCmds f).mbx = s.mbx := rfl
@[simp] theorem State.mapCmds_cmds (f : CmdS → CmdS) : (s.mapCmds f).cmds = f s.cmds := rfl
@[simp] theorem State.mapCmds_tly (f : CmdS → CmdS) : (s.mapCmds f).tly = s.tly := rfl
@[simp] theorem State.mapCmds_cx (f : CmdS → CmdS) : (s.mapCmds f).cx = s.cx := rfl
@[simp] theorem State.mapCmds_carders (f : CmdS → CmdS) : (s.mapCmds f).carders = s.carders := rfl
@[simp] theorem State.mapCmds_grn (f : CmdS → CmdS) : (s.mapCmds f).grn = s.grn := rfl
@[simp] theorem State.mapCmds_gln (f : CmdS → CmdS) : (s.mapCmds f).gln = s.gln := rfl
@[simp] theorem State.mapCmds_kvw (f : CmdS → CmdS) : (s.mapCmds f).kvw = s.kvw := rfl
@[simp] theorem State.mapCmds_hmc (f : CmdS → CmdS) : (s.mapCmds f).hmc = s.hmc := rfl
@[simp] theorem State.mapCmds_blk (f : CmdS → CmdS) : (s.mapCmds f).blk = s.blk := rfl
@[simp] theorem State.mapCmds_out (f : CmdS → CmdS) : (s.mapCmds f).out = s.out := rfl
@[simp] theorem State.mapCmds_ing (f : CmdS → CmdS) : (s.mapCmds f).ing = s.ing := rfl
@[simp] theorem State.mapCmds_cool (f : CmdS → CmdS) : (s.mapCmds f).cool = s.cool := rfl
@[simp] theorem State.mapCmds_sw (f : CmdS → CmdS) : (s.mapCmds f).sw = s.sw := rfl
@[simp] theorem State.mapCmds_kcp (f : CmdS → CmdS) : (s.mapCmds f).kcp = s.kcp := rfl
@[simp] theorem State.mapCmds_core (f : CmdS → CmdS) : (s.mapCmds f).core = s.core := rfl
@[simp] theorem State.mapCmds_hwa (f : CmdS → CmdS) : (s.mapCmds f).hwa = s.hwa := rfl
@[simp] theorem State.mapCmds_hwb (f : CmdS → CmdS) : (s.mapCmds f).hwb = s.hwb := rfl
@[simp] theorem State.mapCmds_pair (f : CmdS → CmdS) : (s.mapCmds f).pair = s.pair := rfl
@[simp] theorem State.mapCmds_dnp (f : CmdS → CmdS) : (s.mapCmds f).dnp = s.dnp := rfl
@[simp] theorem State.mapCmds_flt (f : CmdS → CmdS) : (s.mapCmds f).flt = s.flt := rfl
@[simp] theorem State.mapCmds_boot (f : CmdS → CmdS) : (s.mapCmds f).boot = s.boot := rfl
@[simp] theorem State.mapCmds_sec (f : CmdS → CmdS) : (s.mapCmds f).sec = s.sec := rfl
@[simp] theorem State.mapCmds_thm (f : CmdS → CmdS) : (s.mapCmds f).thm = s.thm := rfl
@[simp] theorem State.mapCmds_tap (f : CmdS → CmdS) : (s.mapCmds f).tap = s.tap := rfl

@[simp] theorem State.mapTly_pending (f : TlyS → TlyS) : (s.mapTly f).pending = s.pending := rfl
@[simp] theorem State.mapTly_freeCnt (f : TlyS → TlyS) : (s.mapTly f).freeCnt = s.freeCnt := rfl
@[simp] theorem State.mapTly_time (f : TlyS → TlyS) : (s.mapTly f).time = s.time := rfl
@[simp] theorem State.mapTly_pins (f : TlyS → TlyS) : (s.mapTly f).pins = s.pins := rfl
@[simp] theorem State.mapTly_mem (f : TlyS → TlyS) : (s.mapTly f).mem = s.mem := rfl
@[simp] theorem State.mapTly_fab (f : TlyS → TlyS) : (s.mapTly f).fab = s.fab := rfl
@[simp] theorem State.mapTly_mbx (f : TlyS → TlyS) : (s.mapTly f).mbx = s.mbx := rfl
@[simp] theorem State.mapTly_cmds (f : TlyS → TlyS) : (s.mapTly f).cmds = s.cmds := rfl
@[simp] theorem State.mapTly_tly (f : TlyS → TlyS) : (s.mapTly f).tly = f s.tly := rfl
@[simp] theorem State.mapTly_cx (f : TlyS → TlyS) : (s.mapTly f).cx = s.cx := rfl
@[simp] theorem State.mapTly_carders (f : TlyS → TlyS) : (s.mapTly f).carders = s.carders := rfl
@[simp] theorem State.mapTly_grn (f : TlyS → TlyS) : (s.mapTly f).grn = s.grn := rfl
@[simp] theorem State.mapTly_gln (f : TlyS → TlyS) : (s.mapTly f).gln = s.gln := rfl
@[simp] theorem State.mapTly_kvw (f : TlyS → TlyS) : (s.mapTly f).kvw = s.kvw := rfl
@[simp] theorem State.mapTly_hmc (f : TlyS → TlyS) : (s.mapTly f).hmc = s.hmc := rfl
@[simp] theorem State.mapTly_blk (f : TlyS → TlyS) : (s.mapTly f).blk = s.blk := rfl
@[simp] theorem State.mapTly_out (f : TlyS → TlyS) : (s.mapTly f).out = s.out := rfl
@[simp] theorem State.mapTly_ing (f : TlyS → TlyS) : (s.mapTly f).ing = s.ing := rfl
@[simp] theorem State.mapTly_cool (f : TlyS → TlyS) : (s.mapTly f).cool = s.cool := rfl
@[simp] theorem State.mapTly_sw (f : TlyS → TlyS) : (s.mapTly f).sw = s.sw := rfl
@[simp] theorem State.mapTly_kcp (f : TlyS → TlyS) : (s.mapTly f).kcp = s.kcp := rfl
@[simp] theorem State.mapTly_core (f : TlyS → TlyS) : (s.mapTly f).core = s.core := rfl
@[simp] theorem State.mapTly_hwa (f : TlyS → TlyS) : (s.mapTly f).hwa = s.hwa := rfl
@[simp] theorem State.mapTly_hwb (f : TlyS → TlyS) : (s.mapTly f).hwb = s.hwb := rfl
@[simp] theorem State.mapTly_pair (f : TlyS → TlyS) : (s.mapTly f).pair = s.pair := rfl
@[simp] theorem State.mapTly_dnp (f : TlyS → TlyS) : (s.mapTly f).dnp = s.dnp := rfl
@[simp] theorem State.mapTly_flt (f : TlyS → TlyS) : (s.mapTly f).flt = s.flt := rfl
@[simp] theorem State.mapTly_boot (f : TlyS → TlyS) : (s.mapTly f).boot = s.boot := rfl
@[simp] theorem State.mapTly_sec (f : TlyS → TlyS) : (s.mapTly f).sec = s.sec := rfl
@[simp] theorem State.mapTly_thm (f : TlyS → TlyS) : (s.mapTly f).thm = s.thm := rfl
@[simp] theorem State.mapTly_tap (f : TlyS → TlyS) : (s.mapTly f).tap = s.tap := rfl

@[simp] theorem State.mapCx_pending (f : CtxS → CtxS) : (s.mapCx f).pending = s.pending := rfl
@[simp] theorem State.mapCx_freeCnt (f : CtxS → CtxS) : (s.mapCx f).freeCnt = s.freeCnt := rfl
@[simp] theorem State.mapCx_time (f : CtxS → CtxS) : (s.mapCx f).time = s.time := rfl
@[simp] theorem State.mapCx_pins (f : CtxS → CtxS) : (s.mapCx f).pins = s.pins := rfl
@[simp] theorem State.mapCx_mem (f : CtxS → CtxS) : (s.mapCx f).mem = s.mem := rfl
@[simp] theorem State.mapCx_fab (f : CtxS → CtxS) : (s.mapCx f).fab = s.fab := rfl
@[simp] theorem State.mapCx_mbx (f : CtxS → CtxS) : (s.mapCx f).mbx = s.mbx := rfl
@[simp] theorem State.mapCx_cmds (f : CtxS → CtxS) : (s.mapCx f).cmds = s.cmds := rfl
@[simp] theorem State.mapCx_tly (f : CtxS → CtxS) : (s.mapCx f).tly = s.tly := rfl
@[simp] theorem State.mapCx_cx (f : CtxS → CtxS) : (s.mapCx f).cx = f s.cx := rfl
@[simp] theorem State.mapCx_carders (f : CtxS → CtxS) : (s.mapCx f).carders = s.carders := rfl
@[simp] theorem State.mapCx_grn (f : CtxS → CtxS) : (s.mapCx f).grn = s.grn := rfl
@[simp] theorem State.mapCx_gln (f : CtxS → CtxS) : (s.mapCx f).gln = s.gln := rfl
@[simp] theorem State.mapCx_kvw (f : CtxS → CtxS) : (s.mapCx f).kvw = s.kvw := rfl
@[simp] theorem State.mapCx_hmc (f : CtxS → CtxS) : (s.mapCx f).hmc = s.hmc := rfl
@[simp] theorem State.mapCx_blk (f : CtxS → CtxS) : (s.mapCx f).blk = s.blk := rfl
@[simp] theorem State.mapCx_out (f : CtxS → CtxS) : (s.mapCx f).out = s.out := rfl
@[simp] theorem State.mapCx_ing (f : CtxS → CtxS) : (s.mapCx f).ing = s.ing := rfl
@[simp] theorem State.mapCx_cool (f : CtxS → CtxS) : (s.mapCx f).cool = s.cool := rfl
@[simp] theorem State.mapCx_sw (f : CtxS → CtxS) : (s.mapCx f).sw = s.sw := rfl
@[simp] theorem State.mapCx_kcp (f : CtxS → CtxS) : (s.mapCx f).kcp = s.kcp := rfl
@[simp] theorem State.mapCx_core (f : CtxS → CtxS) : (s.mapCx f).core = s.core := rfl
@[simp] theorem State.mapCx_hwa (f : CtxS → CtxS) : (s.mapCx f).hwa = s.hwa := rfl
@[simp] theorem State.mapCx_hwb (f : CtxS → CtxS) : (s.mapCx f).hwb = s.hwb := rfl
@[simp] theorem State.mapCx_pair (f : CtxS → CtxS) : (s.mapCx f).pair = s.pair := rfl
@[simp] theorem State.mapCx_dnp (f : CtxS → CtxS) : (s.mapCx f).dnp = s.dnp := rfl
@[simp] theorem State.mapCx_flt (f : CtxS → CtxS) : (s.mapCx f).flt = s.flt := rfl
@[simp] theorem State.mapCx_boot (f : CtxS → CtxS) : (s.mapCx f).boot = s.boot := rfl
@[simp] theorem State.mapCx_sec (f : CtxS → CtxS) : (s.mapCx f).sec = s.sec := rfl
@[simp] theorem State.mapCx_thm (f : CtxS → CtxS) : (s.mapCx f).thm = s.thm := rfl
@[simp] theorem State.mapCx_tap (f : CtxS → CtxS) : (s.mapCx f).tap = s.tap := rfl

@[simp] theorem State.mapCarders_pending (f : CarderS → CarderS) : (s.mapCarders f).pending = s.pending := rfl
@[simp] theorem State.mapCarders_freeCnt (f : CarderS → CarderS) : (s.mapCarders f).freeCnt = s.freeCnt := rfl
@[simp] theorem State.mapCarders_time (f : CarderS → CarderS) : (s.mapCarders f).time = s.time := rfl
@[simp] theorem State.mapCarders_pins (f : CarderS → CarderS) : (s.mapCarders f).pins = s.pins := rfl
@[simp] theorem State.mapCarders_mem (f : CarderS → CarderS) : (s.mapCarders f).mem = s.mem := rfl
@[simp] theorem State.mapCarders_fab (f : CarderS → CarderS) : (s.mapCarders f).fab = s.fab := rfl
@[simp] theorem State.mapCarders_mbx (f : CarderS → CarderS) : (s.mapCarders f).mbx = s.mbx := rfl
@[simp] theorem State.mapCarders_cmds (f : CarderS → CarderS) : (s.mapCarders f).cmds = s.cmds := rfl
@[simp] theorem State.mapCarders_tly (f : CarderS → CarderS) : (s.mapCarders f).tly = s.tly := rfl
@[simp] theorem State.mapCarders_cx (f : CarderS → CarderS) : (s.mapCarders f).cx = s.cx := rfl
@[simp] theorem State.mapCarders_carders (f : CarderS → CarderS) : (s.mapCarders f).carders = f s.carders := rfl
@[simp] theorem State.mapCarders_grn (f : CarderS → CarderS) : (s.mapCarders f).grn = s.grn := rfl
@[simp] theorem State.mapCarders_gln (f : CarderS → CarderS) : (s.mapCarders f).gln = s.gln := rfl
@[simp] theorem State.mapCarders_kvw (f : CarderS → CarderS) : (s.mapCarders f).kvw = s.kvw := rfl
@[simp] theorem State.mapCarders_hmc (f : CarderS → CarderS) : (s.mapCarders f).hmc = s.hmc := rfl
@[simp] theorem State.mapCarders_blk (f : CarderS → CarderS) : (s.mapCarders f).blk = s.blk := rfl
@[simp] theorem State.mapCarders_out (f : CarderS → CarderS) : (s.mapCarders f).out = s.out := rfl
@[simp] theorem State.mapCarders_ing (f : CarderS → CarderS) : (s.mapCarders f).ing = s.ing := rfl
@[simp] theorem State.mapCarders_cool (f : CarderS → CarderS) : (s.mapCarders f).cool = s.cool := rfl
@[simp] theorem State.mapCarders_sw (f : CarderS → CarderS) : (s.mapCarders f).sw = s.sw := rfl
@[simp] theorem State.mapCarders_kcp (f : CarderS → CarderS) : (s.mapCarders f).kcp = s.kcp := rfl
@[simp] theorem State.mapCarders_core (f : CarderS → CarderS) : (s.mapCarders f).core = s.core := rfl
@[simp] theorem State.mapCarders_hwa (f : CarderS → CarderS) : (s.mapCarders f).hwa = s.hwa := rfl
@[simp] theorem State.mapCarders_hwb (f : CarderS → CarderS) : (s.mapCarders f).hwb = s.hwb := rfl
@[simp] theorem State.mapCarders_pair (f : CarderS → CarderS) : (s.mapCarders f).pair = s.pair := rfl
@[simp] theorem State.mapCarders_dnp (f : CarderS → CarderS) : (s.mapCarders f).dnp = s.dnp := rfl
@[simp] theorem State.mapCarders_flt (f : CarderS → CarderS) : (s.mapCarders f).flt = s.flt := rfl
@[simp] theorem State.mapCarders_boot (f : CarderS → CarderS) : (s.mapCarders f).boot = s.boot := rfl
@[simp] theorem State.mapCarders_sec (f : CarderS → CarderS) : (s.mapCarders f).sec = s.sec := rfl
@[simp] theorem State.mapCarders_thm (f : CarderS → CarderS) : (s.mapCarders f).thm = s.thm := rfl
@[simp] theorem State.mapCarders_tap (f : CarderS → CarderS) : (s.mapCarders f).tap = s.tap := rfl

@[simp] theorem State.mapGrn_pending (f : GrnS → GrnS) : (s.mapGrn f).pending = s.pending := rfl
@[simp] theorem State.mapGrn_freeCnt (f : GrnS → GrnS) : (s.mapGrn f).freeCnt = s.freeCnt := rfl
@[simp] theorem State.mapGrn_time (f : GrnS → GrnS) : (s.mapGrn f).time = s.time := rfl
@[simp] theorem State.mapGrn_pins (f : GrnS → GrnS) : (s.mapGrn f).pins = s.pins := rfl
@[simp] theorem State.mapGrn_mem (f : GrnS → GrnS) : (s.mapGrn f).mem = s.mem := rfl
@[simp] theorem State.mapGrn_fab (f : GrnS → GrnS) : (s.mapGrn f).fab = s.fab := rfl
@[simp] theorem State.mapGrn_mbx (f : GrnS → GrnS) : (s.mapGrn f).mbx = s.mbx := rfl
@[simp] theorem State.mapGrn_cmds (f : GrnS → GrnS) : (s.mapGrn f).cmds = s.cmds := rfl
@[simp] theorem State.mapGrn_tly (f : GrnS → GrnS) : (s.mapGrn f).tly = s.tly := rfl
@[simp] theorem State.mapGrn_cx (f : GrnS → GrnS) : (s.mapGrn f).cx = s.cx := rfl
@[simp] theorem State.mapGrn_carders (f : GrnS → GrnS) : (s.mapGrn f).carders = s.carders := rfl
@[simp] theorem State.mapGrn_grn (f : GrnS → GrnS) : (s.mapGrn f).grn = f s.grn := rfl
@[simp] theorem State.mapGrn_gln (f : GrnS → GrnS) : (s.mapGrn f).gln = s.gln := rfl
@[simp] theorem State.mapGrn_kvw (f : GrnS → GrnS) : (s.mapGrn f).kvw = s.kvw := rfl
@[simp] theorem State.mapGrn_hmc (f : GrnS → GrnS) : (s.mapGrn f).hmc = s.hmc := rfl
@[simp] theorem State.mapGrn_blk (f : GrnS → GrnS) : (s.mapGrn f).blk = s.blk := rfl
@[simp] theorem State.mapGrn_out (f : GrnS → GrnS) : (s.mapGrn f).out = s.out := rfl
@[simp] theorem State.mapGrn_ing (f : GrnS → GrnS) : (s.mapGrn f).ing = s.ing := rfl
@[simp] theorem State.mapGrn_cool (f : GrnS → GrnS) : (s.mapGrn f).cool = s.cool := rfl
@[simp] theorem State.mapGrn_sw (f : GrnS → GrnS) : (s.mapGrn f).sw = s.sw := rfl
@[simp] theorem State.mapGrn_kcp (f : GrnS → GrnS) : (s.mapGrn f).kcp = s.kcp := rfl
@[simp] theorem State.mapGrn_core (f : GrnS → GrnS) : (s.mapGrn f).core = s.core := rfl
@[simp] theorem State.mapGrn_hwa (f : GrnS → GrnS) : (s.mapGrn f).hwa = s.hwa := rfl
@[simp] theorem State.mapGrn_hwb (f : GrnS → GrnS) : (s.mapGrn f).hwb = s.hwb := rfl
@[simp] theorem State.mapGrn_pair (f : GrnS → GrnS) : (s.mapGrn f).pair = s.pair := rfl
@[simp] theorem State.mapGrn_dnp (f : GrnS → GrnS) : (s.mapGrn f).dnp = s.dnp := rfl
@[simp] theorem State.mapGrn_flt (f : GrnS → GrnS) : (s.mapGrn f).flt = s.flt := rfl
@[simp] theorem State.mapGrn_boot (f : GrnS → GrnS) : (s.mapGrn f).boot = s.boot := rfl
@[simp] theorem State.mapGrn_sec (f : GrnS → GrnS) : (s.mapGrn f).sec = s.sec := rfl
@[simp] theorem State.mapGrn_thm (f : GrnS → GrnS) : (s.mapGrn f).thm = s.thm := rfl
@[simp] theorem State.mapGrn_tap (f : GrnS → GrnS) : (s.mapGrn f).tap = s.tap := rfl

@[simp] theorem State.mapGln_pending (f : GlnS → GlnS) : (s.mapGln f).pending = s.pending := rfl
@[simp] theorem State.mapGln_freeCnt (f : GlnS → GlnS) : (s.mapGln f).freeCnt = s.freeCnt := rfl
@[simp] theorem State.mapGln_time (f : GlnS → GlnS) : (s.mapGln f).time = s.time := rfl
@[simp] theorem State.mapGln_pins (f : GlnS → GlnS) : (s.mapGln f).pins = s.pins := rfl
@[simp] theorem State.mapGln_mem (f : GlnS → GlnS) : (s.mapGln f).mem = s.mem := rfl
@[simp] theorem State.mapGln_fab (f : GlnS → GlnS) : (s.mapGln f).fab = s.fab := rfl
@[simp] theorem State.mapGln_mbx (f : GlnS → GlnS) : (s.mapGln f).mbx = s.mbx := rfl
@[simp] theorem State.mapGln_cmds (f : GlnS → GlnS) : (s.mapGln f).cmds = s.cmds := rfl
@[simp] theorem State.mapGln_tly (f : GlnS → GlnS) : (s.mapGln f).tly = s.tly := rfl
@[simp] theorem State.mapGln_cx (f : GlnS → GlnS) : (s.mapGln f).cx = s.cx := rfl
@[simp] theorem State.mapGln_carders (f : GlnS → GlnS) : (s.mapGln f).carders = s.carders := rfl
@[simp] theorem State.mapGln_grn (f : GlnS → GlnS) : (s.mapGln f).grn = s.grn := rfl
@[simp] theorem State.mapGln_gln (f : GlnS → GlnS) : (s.mapGln f).gln = f s.gln := rfl
@[simp] theorem State.mapGln_kvw (f : GlnS → GlnS) : (s.mapGln f).kvw = s.kvw := rfl
@[simp] theorem State.mapGln_hmc (f : GlnS → GlnS) : (s.mapGln f).hmc = s.hmc := rfl
@[simp] theorem State.mapGln_blk (f : GlnS → GlnS) : (s.mapGln f).blk = s.blk := rfl
@[simp] theorem State.mapGln_out (f : GlnS → GlnS) : (s.mapGln f).out = s.out := rfl
@[simp] theorem State.mapGln_ing (f : GlnS → GlnS) : (s.mapGln f).ing = s.ing := rfl
@[simp] theorem State.mapGln_cool (f : GlnS → GlnS) : (s.mapGln f).cool = s.cool := rfl
@[simp] theorem State.mapGln_sw (f : GlnS → GlnS) : (s.mapGln f).sw = s.sw := rfl
@[simp] theorem State.mapGln_kcp (f : GlnS → GlnS) : (s.mapGln f).kcp = s.kcp := rfl
@[simp] theorem State.mapGln_core (f : GlnS → GlnS) : (s.mapGln f).core = s.core := rfl
@[simp] theorem State.mapGln_hwa (f : GlnS → GlnS) : (s.mapGln f).hwa = s.hwa := rfl
@[simp] theorem State.mapGln_hwb (f : GlnS → GlnS) : (s.mapGln f).hwb = s.hwb := rfl
@[simp] theorem State.mapGln_pair (f : GlnS → GlnS) : (s.mapGln f).pair = s.pair := rfl
@[simp] theorem State.mapGln_dnp (f : GlnS → GlnS) : (s.mapGln f).dnp = s.dnp := rfl
@[simp] theorem State.mapGln_flt (f : GlnS → GlnS) : (s.mapGln f).flt = s.flt := rfl
@[simp] theorem State.mapGln_boot (f : GlnS → GlnS) : (s.mapGln f).boot = s.boot := rfl
@[simp] theorem State.mapGln_sec (f : GlnS → GlnS) : (s.mapGln f).sec = s.sec := rfl
@[simp] theorem State.mapGln_thm (f : GlnS → GlnS) : (s.mapGln f).thm = s.thm := rfl
@[simp] theorem State.mapGln_tap (f : GlnS → GlnS) : (s.mapGln f).tap = s.tap := rfl

@[simp] theorem State.mapKvw_pending (f : KvwS → KvwS) : (s.mapKvw f).pending = s.pending := rfl
@[simp] theorem State.mapKvw_freeCnt (f : KvwS → KvwS) : (s.mapKvw f).freeCnt = s.freeCnt := rfl
@[simp] theorem State.mapKvw_time (f : KvwS → KvwS) : (s.mapKvw f).time = s.time := rfl
@[simp] theorem State.mapKvw_pins (f : KvwS → KvwS) : (s.mapKvw f).pins = s.pins := rfl
@[simp] theorem State.mapKvw_mem (f : KvwS → KvwS) : (s.mapKvw f).mem = s.mem := rfl
@[simp] theorem State.mapKvw_fab (f : KvwS → KvwS) : (s.mapKvw f).fab = s.fab := rfl
@[simp] theorem State.mapKvw_mbx (f : KvwS → KvwS) : (s.mapKvw f).mbx = s.mbx := rfl
@[simp] theorem State.mapKvw_cmds (f : KvwS → KvwS) : (s.mapKvw f).cmds = s.cmds := rfl
@[simp] theorem State.mapKvw_tly (f : KvwS → KvwS) : (s.mapKvw f).tly = s.tly := rfl
@[simp] theorem State.mapKvw_cx (f : KvwS → KvwS) : (s.mapKvw f).cx = s.cx := rfl
@[simp] theorem State.mapKvw_carders (f : KvwS → KvwS) : (s.mapKvw f).carders = s.carders := rfl
@[simp] theorem State.mapKvw_grn (f : KvwS → KvwS) : (s.mapKvw f).grn = s.grn := rfl
@[simp] theorem State.mapKvw_gln (f : KvwS → KvwS) : (s.mapKvw f).gln = s.gln := rfl
@[simp] theorem State.mapKvw_kvw (f : KvwS → KvwS) : (s.mapKvw f).kvw = f s.kvw := rfl
@[simp] theorem State.mapKvw_hmc (f : KvwS → KvwS) : (s.mapKvw f).hmc = s.hmc := rfl
@[simp] theorem State.mapKvw_blk (f : KvwS → KvwS) : (s.mapKvw f).blk = s.blk := rfl
@[simp] theorem State.mapKvw_out (f : KvwS → KvwS) : (s.mapKvw f).out = s.out := rfl
@[simp] theorem State.mapKvw_ing (f : KvwS → KvwS) : (s.mapKvw f).ing = s.ing := rfl
@[simp] theorem State.mapKvw_cool (f : KvwS → KvwS) : (s.mapKvw f).cool = s.cool := rfl
@[simp] theorem State.mapKvw_sw (f : KvwS → KvwS) : (s.mapKvw f).sw = s.sw := rfl
@[simp] theorem State.mapKvw_kcp (f : KvwS → KvwS) : (s.mapKvw f).kcp = s.kcp := rfl
@[simp] theorem State.mapKvw_core (f : KvwS → KvwS) : (s.mapKvw f).core = s.core := rfl
@[simp] theorem State.mapKvw_hwa (f : KvwS → KvwS) : (s.mapKvw f).hwa = s.hwa := rfl
@[simp] theorem State.mapKvw_hwb (f : KvwS → KvwS) : (s.mapKvw f).hwb = s.hwb := rfl
@[simp] theorem State.mapKvw_pair (f : KvwS → KvwS) : (s.mapKvw f).pair = s.pair := rfl
@[simp] theorem State.mapKvw_dnp (f : KvwS → KvwS) : (s.mapKvw f).dnp = s.dnp := rfl
@[simp] theorem State.mapKvw_flt (f : KvwS → KvwS) : (s.mapKvw f).flt = s.flt := rfl
@[simp] theorem State.mapKvw_boot (f : KvwS → KvwS) : (s.mapKvw f).boot = s.boot := rfl
@[simp] theorem State.mapKvw_sec (f : KvwS → KvwS) : (s.mapKvw f).sec = s.sec := rfl
@[simp] theorem State.mapKvw_thm (f : KvwS → KvwS) : (s.mapKvw f).thm = s.thm := rfl
@[simp] theorem State.mapKvw_tap (f : KvwS → KvwS) : (s.mapKvw f).tap = s.tap := rfl

@[simp] theorem State.mapHmc_pending (f : HmcS → HmcS) : (s.mapHmc f).pending = s.pending := rfl
@[simp] theorem State.mapHmc_freeCnt (f : HmcS → HmcS) : (s.mapHmc f).freeCnt = s.freeCnt := rfl
@[simp] theorem State.mapHmc_time (f : HmcS → HmcS) : (s.mapHmc f).time = s.time := rfl
@[simp] theorem State.mapHmc_pins (f : HmcS → HmcS) : (s.mapHmc f).pins = s.pins := rfl
@[simp] theorem State.mapHmc_mem (f : HmcS → HmcS) : (s.mapHmc f).mem = s.mem := rfl
@[simp] theorem State.mapHmc_fab (f : HmcS → HmcS) : (s.mapHmc f).fab = s.fab := rfl
@[simp] theorem State.mapHmc_mbx (f : HmcS → HmcS) : (s.mapHmc f).mbx = s.mbx := rfl
@[simp] theorem State.mapHmc_cmds (f : HmcS → HmcS) : (s.mapHmc f).cmds = s.cmds := rfl
@[simp] theorem State.mapHmc_tly (f : HmcS → HmcS) : (s.mapHmc f).tly = s.tly := rfl
@[simp] theorem State.mapHmc_cx (f : HmcS → HmcS) : (s.mapHmc f).cx = s.cx := rfl
@[simp] theorem State.mapHmc_carders (f : HmcS → HmcS) : (s.mapHmc f).carders = s.carders := rfl
@[simp] theorem State.mapHmc_grn (f : HmcS → HmcS) : (s.mapHmc f).grn = s.grn := rfl
@[simp] theorem State.mapHmc_gln (f : HmcS → HmcS) : (s.mapHmc f).gln = s.gln := rfl
@[simp] theorem State.mapHmc_kvw (f : HmcS → HmcS) : (s.mapHmc f).kvw = s.kvw := rfl
@[simp] theorem State.mapHmc_hmc (f : HmcS → HmcS) : (s.mapHmc f).hmc = f s.hmc := rfl
@[simp] theorem State.mapHmc_blk (f : HmcS → HmcS) : (s.mapHmc f).blk = s.blk := rfl
@[simp] theorem State.mapHmc_out (f : HmcS → HmcS) : (s.mapHmc f).out = s.out := rfl
@[simp] theorem State.mapHmc_ing (f : HmcS → HmcS) : (s.mapHmc f).ing = s.ing := rfl
@[simp] theorem State.mapHmc_cool (f : HmcS → HmcS) : (s.mapHmc f).cool = s.cool := rfl
@[simp] theorem State.mapHmc_sw (f : HmcS → HmcS) : (s.mapHmc f).sw = s.sw := rfl
@[simp] theorem State.mapHmc_kcp (f : HmcS → HmcS) : (s.mapHmc f).kcp = s.kcp := rfl
@[simp] theorem State.mapHmc_core (f : HmcS → HmcS) : (s.mapHmc f).core = s.core := rfl
@[simp] theorem State.mapHmc_hwa (f : HmcS → HmcS) : (s.mapHmc f).hwa = s.hwa := rfl
@[simp] theorem State.mapHmc_hwb (f : HmcS → HmcS) : (s.mapHmc f).hwb = s.hwb := rfl
@[simp] theorem State.mapHmc_pair (f : HmcS → HmcS) : (s.mapHmc f).pair = s.pair := rfl
@[simp] theorem State.mapHmc_dnp (f : HmcS → HmcS) : (s.mapHmc f).dnp = s.dnp := rfl
@[simp] theorem State.mapHmc_flt (f : HmcS → HmcS) : (s.mapHmc f).flt = s.flt := rfl
@[simp] theorem State.mapHmc_boot (f : HmcS → HmcS) : (s.mapHmc f).boot = s.boot := rfl
@[simp] theorem State.mapHmc_sec (f : HmcS → HmcS) : (s.mapHmc f).sec = s.sec := rfl
@[simp] theorem State.mapHmc_thm (f : HmcS → HmcS) : (s.mapHmc f).thm = s.thm := rfl
@[simp] theorem State.mapHmc_tap (f : HmcS → HmcS) : (s.mapHmc f).tap = s.tap := rfl

@[simp] theorem State.mapBlk_pending (f : BlkS → BlkS) : (s.mapBlk f).pending = s.pending := rfl
@[simp] theorem State.mapBlk_freeCnt (f : BlkS → BlkS) : (s.mapBlk f).freeCnt = s.freeCnt := rfl
@[simp] theorem State.mapBlk_time (f : BlkS → BlkS) : (s.mapBlk f).time = s.time := rfl
@[simp] theorem State.mapBlk_pins (f : BlkS → BlkS) : (s.mapBlk f).pins = s.pins := rfl
@[simp] theorem State.mapBlk_mem (f : BlkS → BlkS) : (s.mapBlk f).mem = s.mem := rfl
@[simp] theorem State.mapBlk_fab (f : BlkS → BlkS) : (s.mapBlk f).fab = s.fab := rfl
@[simp] theorem State.mapBlk_mbx (f : BlkS → BlkS) : (s.mapBlk f).mbx = s.mbx := rfl
@[simp] theorem State.mapBlk_cmds (f : BlkS → BlkS) : (s.mapBlk f).cmds = s.cmds := rfl
@[simp] theorem State.mapBlk_tly (f : BlkS → BlkS) : (s.mapBlk f).tly = s.tly := rfl
@[simp] theorem State.mapBlk_cx (f : BlkS → BlkS) : (s.mapBlk f).cx = s.cx := rfl
@[simp] theorem State.mapBlk_carders (f : BlkS → BlkS) : (s.mapBlk f).carders = s.carders := rfl
@[simp] theorem State.mapBlk_grn (f : BlkS → BlkS) : (s.mapBlk f).grn = s.grn := rfl
@[simp] theorem State.mapBlk_gln (f : BlkS → BlkS) : (s.mapBlk f).gln = s.gln := rfl
@[simp] theorem State.mapBlk_kvw (f : BlkS → BlkS) : (s.mapBlk f).kvw = s.kvw := rfl
@[simp] theorem State.mapBlk_hmc (f : BlkS → BlkS) : (s.mapBlk f).hmc = s.hmc := rfl
@[simp] theorem State.mapBlk_blk (f : BlkS → BlkS) : (s.mapBlk f).blk = f s.blk := rfl
@[simp] theorem State.mapBlk_out (f : BlkS → BlkS) : (s.mapBlk f).out = s.out := rfl
@[simp] theorem State.mapBlk_ing (f : BlkS → BlkS) : (s.mapBlk f).ing = s.ing := rfl
@[simp] theorem State.mapBlk_cool (f : BlkS → BlkS) : (s.mapBlk f).cool = s.cool := rfl
@[simp] theorem State.mapBlk_sw (f : BlkS → BlkS) : (s.mapBlk f).sw = s.sw := rfl
@[simp] theorem State.mapBlk_kcp (f : BlkS → BlkS) : (s.mapBlk f).kcp = s.kcp := rfl
@[simp] theorem State.mapBlk_core (f : BlkS → BlkS) : (s.mapBlk f).core = s.core := rfl
@[simp] theorem State.mapBlk_hwa (f : BlkS → BlkS) : (s.mapBlk f).hwa = s.hwa := rfl
@[simp] theorem State.mapBlk_hwb (f : BlkS → BlkS) : (s.mapBlk f).hwb = s.hwb := rfl
@[simp] theorem State.mapBlk_pair (f : BlkS → BlkS) : (s.mapBlk f).pair = s.pair := rfl
@[simp] theorem State.mapBlk_dnp (f : BlkS → BlkS) : (s.mapBlk f).dnp = s.dnp := rfl
@[simp] theorem State.mapBlk_flt (f : BlkS → BlkS) : (s.mapBlk f).flt = s.flt := rfl
@[simp] theorem State.mapBlk_boot (f : BlkS → BlkS) : (s.mapBlk f).boot = s.boot := rfl
@[simp] theorem State.mapBlk_sec (f : BlkS → BlkS) : (s.mapBlk f).sec = s.sec := rfl
@[simp] theorem State.mapBlk_thm (f : BlkS → BlkS) : (s.mapBlk f).thm = s.thm := rfl
@[simp] theorem State.mapBlk_tap (f : BlkS → BlkS) : (s.mapBlk f).tap = s.tap := rfl

@[simp] theorem State.mapOut_pending (f : OutS → OutS) : (s.mapOut f).pending = s.pending := rfl
@[simp] theorem State.mapOut_freeCnt (f : OutS → OutS) : (s.mapOut f).freeCnt = s.freeCnt := rfl
@[simp] theorem State.mapOut_time (f : OutS → OutS) : (s.mapOut f).time = s.time := rfl
@[simp] theorem State.mapOut_pins (f : OutS → OutS) : (s.mapOut f).pins = s.pins := rfl
@[simp] theorem State.mapOut_mem (f : OutS → OutS) : (s.mapOut f).mem = s.mem := rfl
@[simp] theorem State.mapOut_fab (f : OutS → OutS) : (s.mapOut f).fab = s.fab := rfl
@[simp] theorem State.mapOut_mbx (f : OutS → OutS) : (s.mapOut f).mbx = s.mbx := rfl
@[simp] theorem State.mapOut_cmds (f : OutS → OutS) : (s.mapOut f).cmds = s.cmds := rfl
@[simp] theorem State.mapOut_tly (f : OutS → OutS) : (s.mapOut f).tly = s.tly := rfl
@[simp] theorem State.mapOut_cx (f : OutS → OutS) : (s.mapOut f).cx = s.cx := rfl
@[simp] theorem State.mapOut_carders (f : OutS → OutS) : (s.mapOut f).carders = s.carders := rfl
@[simp] theorem State.mapOut_grn (f : OutS → OutS) : (s.mapOut f).grn = s.grn := rfl
@[simp] theorem State.mapOut_gln (f : OutS → OutS) : (s.mapOut f).gln = s.gln := rfl
@[simp] theorem State.mapOut_kvw (f : OutS → OutS) : (s.mapOut f).kvw = s.kvw := rfl
@[simp] theorem State.mapOut_hmc (f : OutS → OutS) : (s.mapOut f).hmc = s.hmc := rfl
@[simp] theorem State.mapOut_blk (f : OutS → OutS) : (s.mapOut f).blk = s.blk := rfl
@[simp] theorem State.mapOut_out (f : OutS → OutS) : (s.mapOut f).out = f s.out := rfl
@[simp] theorem State.mapOut_ing (f : OutS → OutS) : (s.mapOut f).ing = s.ing := rfl
@[simp] theorem State.mapOut_cool (f : OutS → OutS) : (s.mapOut f).cool = s.cool := rfl
@[simp] theorem State.mapOut_sw (f : OutS → OutS) : (s.mapOut f).sw = s.sw := rfl
@[simp] theorem State.mapOut_kcp (f : OutS → OutS) : (s.mapOut f).kcp = s.kcp := rfl
@[simp] theorem State.mapOut_core (f : OutS → OutS) : (s.mapOut f).core = s.core := rfl
@[simp] theorem State.mapOut_hwa (f : OutS → OutS) : (s.mapOut f).hwa = s.hwa := rfl
@[simp] theorem State.mapOut_hwb (f : OutS → OutS) : (s.mapOut f).hwb = s.hwb := rfl
@[simp] theorem State.mapOut_pair (f : OutS → OutS) : (s.mapOut f).pair = s.pair := rfl
@[simp] theorem State.mapOut_dnp (f : OutS → OutS) : (s.mapOut f).dnp = s.dnp := rfl
@[simp] theorem State.mapOut_flt (f : OutS → OutS) : (s.mapOut f).flt = s.flt := rfl
@[simp] theorem State.mapOut_boot (f : OutS → OutS) : (s.mapOut f).boot = s.boot := rfl
@[simp] theorem State.mapOut_sec (f : OutS → OutS) : (s.mapOut f).sec = s.sec := rfl
@[simp] theorem State.mapOut_thm (f : OutS → OutS) : (s.mapOut f).thm = s.thm := rfl
@[simp] theorem State.mapOut_tap (f : OutS → OutS) : (s.mapOut f).tap = s.tap := rfl

@[simp] theorem State.mapIng_pending (f : IngS → IngS) : (s.mapIng f).pending = s.pending := rfl
@[simp] theorem State.mapIng_freeCnt (f : IngS → IngS) : (s.mapIng f).freeCnt = s.freeCnt := rfl
@[simp] theorem State.mapIng_time (f : IngS → IngS) : (s.mapIng f).time = s.time := rfl
@[simp] theorem State.mapIng_pins (f : IngS → IngS) : (s.mapIng f).pins = s.pins := rfl
@[simp] theorem State.mapIng_mem (f : IngS → IngS) : (s.mapIng f).mem = s.mem := rfl
@[simp] theorem State.mapIng_fab (f : IngS → IngS) : (s.mapIng f).fab = s.fab := rfl
@[simp] theorem State.mapIng_mbx (f : IngS → IngS) : (s.mapIng f).mbx = s.mbx := rfl
@[simp] theorem State.mapIng_cmds (f : IngS → IngS) : (s.mapIng f).cmds = s.cmds := rfl
@[simp] theorem State.mapIng_tly (f : IngS → IngS) : (s.mapIng f).tly = s.tly := rfl
@[simp] theorem State.mapIng_cx (f : IngS → IngS) : (s.mapIng f).cx = s.cx := rfl
@[simp] theorem State.mapIng_carders (f : IngS → IngS) : (s.mapIng f).carders = s.carders := rfl
@[simp] theorem State.mapIng_grn (f : IngS → IngS) : (s.mapIng f).grn = s.grn := rfl
@[simp] theorem State.mapIng_gln (f : IngS → IngS) : (s.mapIng f).gln = s.gln := rfl
@[simp] theorem State.mapIng_kvw (f : IngS → IngS) : (s.mapIng f).kvw = s.kvw := rfl
@[simp] theorem State.mapIng_hmc (f : IngS → IngS) : (s.mapIng f).hmc = s.hmc := rfl
@[simp] theorem State.mapIng_blk (f : IngS → IngS) : (s.mapIng f).blk = s.blk := rfl
@[simp] theorem State.mapIng_out (f : IngS → IngS) : (s.mapIng f).out = s.out := rfl
@[simp] theorem State.mapIng_ing (f : IngS → IngS) : (s.mapIng f).ing = f s.ing := rfl
@[simp] theorem State.mapIng_cool (f : IngS → IngS) : (s.mapIng f).cool = s.cool := rfl
@[simp] theorem State.mapIng_sw (f : IngS → IngS) : (s.mapIng f).sw = s.sw := rfl
@[simp] theorem State.mapIng_kcp (f : IngS → IngS) : (s.mapIng f).kcp = s.kcp := rfl
@[simp] theorem State.mapIng_core (f : IngS → IngS) : (s.mapIng f).core = s.core := rfl
@[simp] theorem State.mapIng_hwa (f : IngS → IngS) : (s.mapIng f).hwa = s.hwa := rfl
@[simp] theorem State.mapIng_hwb (f : IngS → IngS) : (s.mapIng f).hwb = s.hwb := rfl
@[simp] theorem State.mapIng_pair (f : IngS → IngS) : (s.mapIng f).pair = s.pair := rfl
@[simp] theorem State.mapIng_dnp (f : IngS → IngS) : (s.mapIng f).dnp = s.dnp := rfl
@[simp] theorem State.mapIng_flt (f : IngS → IngS) : (s.mapIng f).flt = s.flt := rfl
@[simp] theorem State.mapIng_boot (f : IngS → IngS) : (s.mapIng f).boot = s.boot := rfl
@[simp] theorem State.mapIng_sec (f : IngS → IngS) : (s.mapIng f).sec = s.sec := rfl
@[simp] theorem State.mapIng_thm (f : IngS → IngS) : (s.mapIng f).thm = s.thm := rfl
@[simp] theorem State.mapIng_tap (f : IngS → IngS) : (s.mapIng f).tap = s.tap := rfl

@[simp] theorem State.mapCool_pending (f : CoolS → CoolS) : (s.mapCool f).pending = s.pending := rfl
@[simp] theorem State.mapCool_freeCnt (f : CoolS → CoolS) : (s.mapCool f).freeCnt = s.freeCnt := rfl
@[simp] theorem State.mapCool_time (f : CoolS → CoolS) : (s.mapCool f).time = s.time := rfl
@[simp] theorem State.mapCool_pins (f : CoolS → CoolS) : (s.mapCool f).pins = s.pins := rfl
@[simp] theorem State.mapCool_mem (f : CoolS → CoolS) : (s.mapCool f).mem = s.mem := rfl
@[simp] theorem State.mapCool_fab (f : CoolS → CoolS) : (s.mapCool f).fab = s.fab := rfl
@[simp] theorem State.mapCool_mbx (f : CoolS → CoolS) : (s.mapCool f).mbx = s.mbx := rfl
@[simp] theorem State.mapCool_cmds (f : CoolS → CoolS) : (s.mapCool f).cmds = s.cmds := rfl
@[simp] theorem State.mapCool_tly (f : CoolS → CoolS) : (s.mapCool f).tly = s.tly := rfl
@[simp] theorem State.mapCool_cx (f : CoolS → CoolS) : (s.mapCool f).cx = s.cx := rfl
@[simp] theorem State.mapCool_carders (f : CoolS → CoolS) : (s.mapCool f).carders = s.carders := rfl
@[simp] theorem State.mapCool_grn (f : CoolS → CoolS) : (s.mapCool f).grn = s.grn := rfl
@[simp] theorem State.mapCool_gln (f : CoolS → CoolS) : (s.mapCool f).gln = s.gln := rfl
@[simp] theorem State.mapCool_kvw (f : CoolS → CoolS) : (s.mapCool f).kvw = s.kvw := rfl
@[simp] theorem State.mapCool_hmc (f : CoolS → CoolS) : (s.mapCool f).hmc = s.hmc := rfl
@[simp] theorem State.mapCool_blk (f : CoolS → CoolS) : (s.mapCool f).blk = s.blk := rfl
@[simp] theorem State.mapCool_out (f : CoolS → CoolS) : (s.mapCool f).out = s.out := rfl
@[simp] theorem State.mapCool_ing (f : CoolS → CoolS) : (s.mapCool f).ing = s.ing := rfl
@[simp] theorem State.mapCool_cool (f : CoolS → CoolS) : (s.mapCool f).cool = f s.cool := rfl
@[simp] theorem State.mapCool_sw (f : CoolS → CoolS) : (s.mapCool f).sw = s.sw := rfl
@[simp] theorem State.mapCool_kcp (f : CoolS → CoolS) : (s.mapCool f).kcp = s.kcp := rfl
@[simp] theorem State.mapCool_core (f : CoolS → CoolS) : (s.mapCool f).core = s.core := rfl
@[simp] theorem State.mapCool_hwa (f : CoolS → CoolS) : (s.mapCool f).hwa = s.hwa := rfl
@[simp] theorem State.mapCool_hwb (f : CoolS → CoolS) : (s.mapCool f).hwb = s.hwb := rfl
@[simp] theorem State.mapCool_pair (f : CoolS → CoolS) : (s.mapCool f).pair = s.pair := rfl
@[simp] theorem State.mapCool_dnp (f : CoolS → CoolS) : (s.mapCool f).dnp = s.dnp := rfl
@[simp] theorem State.mapCool_flt (f : CoolS → CoolS) : (s.mapCool f).flt = s.flt := rfl
@[simp] theorem State.mapCool_boot (f : CoolS → CoolS) : (s.mapCool f).boot = s.boot := rfl
@[simp] theorem State.mapCool_sec (f : CoolS → CoolS) : (s.mapCool f).sec = s.sec := rfl
@[simp] theorem State.mapCool_thm (f : CoolS → CoolS) : (s.mapCool f).thm = s.thm := rfl
@[simp] theorem State.mapCool_tap (f : CoolS → CoolS) : (s.mapCool f).tap = s.tap := rfl

@[simp] theorem State.mapSw_pending (f : SwS → SwS) : (s.mapSw f).pending = s.pending := rfl
@[simp] theorem State.mapSw_freeCnt (f : SwS → SwS) : (s.mapSw f).freeCnt = s.freeCnt := rfl
@[simp] theorem State.mapSw_time (f : SwS → SwS) : (s.mapSw f).time = s.time := rfl
@[simp] theorem State.mapSw_pins (f : SwS → SwS) : (s.mapSw f).pins = s.pins := rfl
@[simp] theorem State.mapSw_mem (f : SwS → SwS) : (s.mapSw f).mem = s.mem := rfl
@[simp] theorem State.mapSw_fab (f : SwS → SwS) : (s.mapSw f).fab = s.fab := rfl
@[simp] theorem State.mapSw_mbx (f : SwS → SwS) : (s.mapSw f).mbx = s.mbx := rfl
@[simp] theorem State.mapSw_cmds (f : SwS → SwS) : (s.mapSw f).cmds = s.cmds := rfl
@[simp] theorem State.mapSw_tly (f : SwS → SwS) : (s.mapSw f).tly = s.tly := rfl
@[simp] theorem State.mapSw_cx (f : SwS → SwS) : (s.mapSw f).cx = s.cx := rfl
@[simp] theorem State.mapSw_carders (f : SwS → SwS) : (s.mapSw f).carders = s.carders := rfl
@[simp] theorem State.mapSw_grn (f : SwS → SwS) : (s.mapSw f).grn = s.grn := rfl
@[simp] theorem State.mapSw_gln (f : SwS → SwS) : (s.mapSw f).gln = s.gln := rfl
@[simp] theorem State.mapSw_kvw (f : SwS → SwS) : (s.mapSw f).kvw = s.kvw := rfl
@[simp] theorem State.mapSw_hmc (f : SwS → SwS) : (s.mapSw f).hmc = s.hmc := rfl
@[simp] theorem State.mapSw_blk (f : SwS → SwS) : (s.mapSw f).blk = s.blk := rfl
@[simp] theorem State.mapSw_out (f : SwS → SwS) : (s.mapSw f).out = s.out := rfl
@[simp] theorem State.mapSw_ing (f : SwS → SwS) : (s.mapSw f).ing = s.ing := rfl
@[simp] theorem State.mapSw_cool (f : SwS → SwS) : (s.mapSw f).cool = s.cool := rfl
@[simp] theorem State.mapSw_sw (f : SwS → SwS) : (s.mapSw f).sw = f s.sw := rfl
@[simp] theorem State.mapSw_kcp (f : SwS → SwS) : (s.mapSw f).kcp = s.kcp := rfl
@[simp] theorem State.mapSw_core (f : SwS → SwS) : (s.mapSw f).core = s.core := rfl
@[simp] theorem State.mapSw_hwa (f : SwS → SwS) : (s.mapSw f).hwa = s.hwa := rfl
@[simp] theorem State.mapSw_hwb (f : SwS → SwS) : (s.mapSw f).hwb = s.hwb := rfl
@[simp] theorem State.mapSw_pair (f : SwS → SwS) : (s.mapSw f).pair = s.pair := rfl
@[simp] theorem State.mapSw_dnp (f : SwS → SwS) : (s.mapSw f).dnp = s.dnp := rfl
@[simp] theorem State.mapSw_flt (f : SwS → SwS) : (s.mapSw f).flt = s.flt := rfl
@[simp] theorem State.mapSw_boot (f : SwS → SwS) : (s.mapSw f).boot = s.boot := rfl
@[simp] theorem State.mapSw_sec (f : SwS → SwS) : (s.mapSw f).sec = s.sec := rfl
@[simp] theorem State.mapSw_thm (f : SwS → SwS) : (s.mapSw f).thm = s.thm := rfl
@[simp] theorem State.mapSw_tap (f : SwS → SwS) : (s.mapSw f).tap = s.tap := rfl

@[simp] theorem State.mapKcp_pending (f : KcpS → KcpS) : (s.mapKcp f).pending = s.pending := rfl
@[simp] theorem State.mapKcp_freeCnt (f : KcpS → KcpS) : (s.mapKcp f).freeCnt = s.freeCnt := rfl
@[simp] theorem State.mapKcp_time (f : KcpS → KcpS) : (s.mapKcp f).time = s.time := rfl
@[simp] theorem State.mapKcp_pins (f : KcpS → KcpS) : (s.mapKcp f).pins = s.pins := rfl
@[simp] theorem State.mapKcp_mem (f : KcpS → KcpS) : (s.mapKcp f).mem = s.mem := rfl
@[simp] theorem State.mapKcp_fab (f : KcpS → KcpS) : (s.mapKcp f).fab = s.fab := rfl
@[simp] theorem State.mapKcp_mbx (f : KcpS → KcpS) : (s.mapKcp f).mbx = s.mbx := rfl
@[simp] theorem State.mapKcp_cmds (f : KcpS → KcpS) : (s.mapKcp f).cmds = s.cmds := rfl
@[simp] theorem State.mapKcp_tly (f : KcpS → KcpS) : (s.mapKcp f).tly = s.tly := rfl
@[simp] theorem State.mapKcp_cx (f : KcpS → KcpS) : (s.mapKcp f).cx = s.cx := rfl
@[simp] theorem State.mapKcp_carders (f : KcpS → KcpS) : (s.mapKcp f).carders = s.carders := rfl
@[simp] theorem State.mapKcp_grn (f : KcpS → KcpS) : (s.mapKcp f).grn = s.grn := rfl
@[simp] theorem State.mapKcp_gln (f : KcpS → KcpS) : (s.mapKcp f).gln = s.gln := rfl
@[simp] theorem State.mapKcp_kvw (f : KcpS → KcpS) : (s.mapKcp f).kvw = s.kvw := rfl
@[simp] theorem State.mapKcp_hmc (f : KcpS → KcpS) : (s.mapKcp f).hmc = s.hmc := rfl
@[simp] theorem State.mapKcp_blk (f : KcpS → KcpS) : (s.mapKcp f).blk = s.blk := rfl
@[simp] theorem State.mapKcp_out (f : KcpS → KcpS) : (s.mapKcp f).out = s.out := rfl
@[simp] theorem State.mapKcp_ing (f : KcpS → KcpS) : (s.mapKcp f).ing = s.ing := rfl
@[simp] theorem State.mapKcp_cool (f : KcpS → KcpS) : (s.mapKcp f).cool = s.cool := rfl
@[simp] theorem State.mapKcp_sw (f : KcpS → KcpS) : (s.mapKcp f).sw = s.sw := rfl
@[simp] theorem State.mapKcp_kcp (f : KcpS → KcpS) : (s.mapKcp f).kcp = f s.kcp := rfl
@[simp] theorem State.mapKcp_core (f : KcpS → KcpS) : (s.mapKcp f).core = s.core := rfl
@[simp] theorem State.mapKcp_hwa (f : KcpS → KcpS) : (s.mapKcp f).hwa = s.hwa := rfl
@[simp] theorem State.mapKcp_hwb (f : KcpS → KcpS) : (s.mapKcp f).hwb = s.hwb := rfl
@[simp] theorem State.mapKcp_pair (f : KcpS → KcpS) : (s.mapKcp f).pair = s.pair := rfl
@[simp] theorem State.mapKcp_dnp (f : KcpS → KcpS) : (s.mapKcp f).dnp = s.dnp := rfl
@[simp] theorem State.mapKcp_flt (f : KcpS → KcpS) : (s.mapKcp f).flt = s.flt := rfl
@[simp] theorem State.mapKcp_boot (f : KcpS → KcpS) : (s.mapKcp f).boot = s.boot := rfl
@[simp] theorem State.mapKcp_sec (f : KcpS → KcpS) : (s.mapKcp f).sec = s.sec := rfl
@[simp] theorem State.mapKcp_thm (f : KcpS → KcpS) : (s.mapKcp f).thm = s.thm := rfl
@[simp] theorem State.mapKcp_tap (f : KcpS → KcpS) : (s.mapKcp f).tap = s.tap := rfl

@[simp] theorem State.mapCore_pending (f : CoreS → CoreS) : (s.mapCore f).pending = s.pending := rfl
@[simp] theorem State.mapCore_freeCnt (f : CoreS → CoreS) : (s.mapCore f).freeCnt = s.freeCnt := rfl
@[simp] theorem State.mapCore_time (f : CoreS → CoreS) : (s.mapCore f).time = s.time := rfl
@[simp] theorem State.mapCore_pins (f : CoreS → CoreS) : (s.mapCore f).pins = s.pins := rfl
@[simp] theorem State.mapCore_mem (f : CoreS → CoreS) : (s.mapCore f).mem = s.mem := rfl
@[simp] theorem State.mapCore_fab (f : CoreS → CoreS) : (s.mapCore f).fab = s.fab := rfl
@[simp] theorem State.mapCore_mbx (f : CoreS → CoreS) : (s.mapCore f).mbx = s.mbx := rfl
@[simp] theorem State.mapCore_cmds (f : CoreS → CoreS) : (s.mapCore f).cmds = s.cmds := rfl
@[simp] theorem State.mapCore_tly (f : CoreS → CoreS) : (s.mapCore f).tly = s.tly := rfl
@[simp] theorem State.mapCore_cx (f : CoreS → CoreS) : (s.mapCore f).cx = s.cx := rfl
@[simp] theorem State.mapCore_carders (f : CoreS → CoreS) : (s.mapCore f).carders = s.carders := rfl
@[simp] theorem State.mapCore_grn (f : CoreS → CoreS) : (s.mapCore f).grn = s.grn := rfl
@[simp] theorem State.mapCore_gln (f : CoreS → CoreS) : (s.mapCore f).gln = s.gln := rfl
@[simp] theorem State.mapCore_kvw (f : CoreS → CoreS) : (s.mapCore f).kvw = s.kvw := rfl
@[simp] theorem State.mapCore_hmc (f : CoreS → CoreS) : (s.mapCore f).hmc = s.hmc := rfl
@[simp] theorem State.mapCore_blk (f : CoreS → CoreS) : (s.mapCore f).blk = s.blk := rfl
@[simp] theorem State.mapCore_out (f : CoreS → CoreS) : (s.mapCore f).out = s.out := rfl
@[simp] theorem State.mapCore_ing (f : CoreS → CoreS) : (s.mapCore f).ing = s.ing := rfl
@[simp] theorem State.mapCore_cool (f : CoreS → CoreS) : (s.mapCore f).cool = s.cool := rfl
@[simp] theorem State.mapCore_sw (f : CoreS → CoreS) : (s.mapCore f).sw = s.sw := rfl
@[simp] theorem State.mapCore_kcp (f : CoreS → CoreS) : (s.mapCore f).kcp = s.kcp := rfl
@[simp] theorem State.mapCore_core (f : CoreS → CoreS) : (s.mapCore f).core = f s.core := rfl
@[simp] theorem State.mapCore_hwa (f : CoreS → CoreS) : (s.mapCore f).hwa = s.hwa := rfl
@[simp] theorem State.mapCore_hwb (f : CoreS → CoreS) : (s.mapCore f).hwb = s.hwb := rfl
@[simp] theorem State.mapCore_pair (f : CoreS → CoreS) : (s.mapCore f).pair = s.pair := rfl
@[simp] theorem State.mapCore_dnp (f : CoreS → CoreS) : (s.mapCore f).dnp = s.dnp := rfl
@[simp] theorem State.mapCore_flt (f : CoreS → CoreS) : (s.mapCore f).flt = s.flt := rfl
@[simp] theorem State.mapCore_boot (f : CoreS → CoreS) : (s.mapCore f).boot = s.boot := rfl
@[simp] theorem State.mapCore_sec (f : CoreS → CoreS) : (s.mapCore f).sec = s.sec := rfl
@[simp] theorem State.mapCore_thm (f : CoreS → CoreS) : (s.mapCore f).thm = s.thm := rfl
@[simp] theorem State.mapCore_tap (f : CoreS → CoreS) : (s.mapCore f).tap = s.tap := rfl

@[simp] theorem State.mapHwa_pending (f : HwaS → HwaS) : (s.mapHwa f).pending = s.pending := rfl
@[simp] theorem State.mapHwa_freeCnt (f : HwaS → HwaS) : (s.mapHwa f).freeCnt = s.freeCnt := rfl
@[simp] theorem State.mapHwa_time (f : HwaS → HwaS) : (s.mapHwa f).time = s.time := rfl
@[simp] theorem State.mapHwa_pins (f : HwaS → HwaS) : (s.mapHwa f).pins = s.pins := rfl
@[simp] theorem State.mapHwa_mem (f : HwaS → HwaS) : (s.mapHwa f).mem = s.mem := rfl
@[simp] theorem State.mapHwa_fab (f : HwaS → HwaS) : (s.mapHwa f).fab = s.fab := rfl
@[simp] theorem State.mapHwa_mbx (f : HwaS → HwaS) : (s.mapHwa f).mbx = s.mbx := rfl
@[simp] theorem State.mapHwa_cmds (f : HwaS → HwaS) : (s.mapHwa f).cmds = s.cmds := rfl
@[simp] theorem State.mapHwa_tly (f : HwaS → HwaS) : (s.mapHwa f).tly = s.tly := rfl
@[simp] theorem State.mapHwa_cx (f : HwaS → HwaS) : (s.mapHwa f).cx = s.cx := rfl
@[simp] theorem State.mapHwa_carders (f : HwaS → HwaS) : (s.mapHwa f).carders = s.carders := rfl
@[simp] theorem State.mapHwa_grn (f : HwaS → HwaS) : (s.mapHwa f).grn = s.grn := rfl
@[simp] theorem State.mapHwa_gln (f : HwaS → HwaS) : (s.mapHwa f).gln = s.gln := rfl
@[simp] theorem State.mapHwa_kvw (f : HwaS → HwaS) : (s.mapHwa f).kvw = s.kvw := rfl
@[simp] theorem State.mapHwa_hmc (f : HwaS → HwaS) : (s.mapHwa f).hmc = s.hmc := rfl
@[simp] theorem State.mapHwa_blk (f : HwaS → HwaS) : (s.mapHwa f).blk = s.blk := rfl
@[simp] theorem State.mapHwa_out (f : HwaS → HwaS) : (s.mapHwa f).out = s.out := rfl
@[simp] theorem State.mapHwa_ing (f : HwaS → HwaS) : (s.mapHwa f).ing = s.ing := rfl
@[simp] theorem State.mapHwa_cool (f : HwaS → HwaS) : (s.mapHwa f).cool = s.cool := rfl
@[simp] theorem State.mapHwa_sw (f : HwaS → HwaS) : (s.mapHwa f).sw = s.sw := rfl
@[simp] theorem State.mapHwa_kcp (f : HwaS → HwaS) : (s.mapHwa f).kcp = s.kcp := rfl
@[simp] theorem State.mapHwa_core (f : HwaS → HwaS) : (s.mapHwa f).core = s.core := rfl
@[simp] theorem State.mapHwa_hwa (f : HwaS → HwaS) : (s.mapHwa f).hwa = f s.hwa := rfl
@[simp] theorem State.mapHwa_hwb (f : HwaS → HwaS) : (s.mapHwa f).hwb = s.hwb := rfl
@[simp] theorem State.mapHwa_pair (f : HwaS → HwaS) : (s.mapHwa f).pair = s.pair := rfl
@[simp] theorem State.mapHwa_dnp (f : HwaS → HwaS) : (s.mapHwa f).dnp = s.dnp := rfl
@[simp] theorem State.mapHwa_flt (f : HwaS → HwaS) : (s.mapHwa f).flt = s.flt := rfl
@[simp] theorem State.mapHwa_boot (f : HwaS → HwaS) : (s.mapHwa f).boot = s.boot := rfl
@[simp] theorem State.mapHwa_sec (f : HwaS → HwaS) : (s.mapHwa f).sec = s.sec := rfl
@[simp] theorem State.mapHwa_thm (f : HwaS → HwaS) : (s.mapHwa f).thm = s.thm := rfl
@[simp] theorem State.mapHwa_tap (f : HwaS → HwaS) : (s.mapHwa f).tap = s.tap := rfl

@[simp] theorem State.mapHwb_pending (f : HwbS → HwbS) : (s.mapHwb f).pending = s.pending := rfl
@[simp] theorem State.mapHwb_freeCnt (f : HwbS → HwbS) : (s.mapHwb f).freeCnt = s.freeCnt := rfl
@[simp] theorem State.mapHwb_time (f : HwbS → HwbS) : (s.mapHwb f).time = s.time := rfl
@[simp] theorem State.mapHwb_pins (f : HwbS → HwbS) : (s.mapHwb f).pins = s.pins := rfl
@[simp] theorem State.mapHwb_mem (f : HwbS → HwbS) : (s.mapHwb f).mem = s.mem := rfl
@[simp] theorem State.mapHwb_fab (f : HwbS → HwbS) : (s.mapHwb f).fab = s.fab := rfl
@[simp] theorem State.mapHwb_mbx (f : HwbS → HwbS) : (s.mapHwb f).mbx = s.mbx := rfl
@[simp] theorem State.mapHwb_cmds (f : HwbS → HwbS) : (s.mapHwb f).cmds = s.cmds := rfl
@[simp] theorem State.mapHwb_tly (f : HwbS → HwbS) : (s.mapHwb f).tly = s.tly := rfl
@[simp] theorem State.mapHwb_cx (f : HwbS → HwbS) : (s.mapHwb f).cx = s.cx := rfl
@[simp] theorem State.mapHwb_carders (f : HwbS → HwbS) : (s.mapHwb f).carders = s.carders := rfl
@[simp] theorem State.mapHwb_grn (f : HwbS → HwbS) : (s.mapHwb f).grn = s.grn := rfl
@[simp] theorem State.mapHwb_gln (f : HwbS → HwbS) : (s.mapHwb f).gln = s.gln := rfl
@[simp] theorem State.mapHwb_kvw (f : HwbS → HwbS) : (s.mapHwb f).kvw = s.kvw := rfl
@[simp] theorem State.mapHwb_hmc (f : HwbS → HwbS) : (s.mapHwb f).hmc = s.hmc := rfl
@[simp] theorem State.mapHwb_blk (f : HwbS → HwbS) : (s.mapHwb f).blk = s.blk := rfl
@[simp] theorem State.mapHwb_out (f : HwbS → HwbS) : (s.mapHwb f).out = s.out := rfl
@[simp] theorem State.mapHwb_ing (f : HwbS → HwbS) : (s.mapHwb f).ing = s.ing := rfl
@[simp] theorem State.mapHwb_cool (f : HwbS → HwbS) : (s.mapHwb f).cool = s.cool := rfl
@[simp] theorem State.mapHwb_sw (f : HwbS → HwbS) : (s.mapHwb f).sw = s.sw := rfl
@[simp] theorem State.mapHwb_kcp (f : HwbS → HwbS) : (s.mapHwb f).kcp = s.kcp := rfl
@[simp] theorem State.mapHwb_core (f : HwbS → HwbS) : (s.mapHwb f).core = s.core := rfl
@[simp] theorem State.mapHwb_hwa (f : HwbS → HwbS) : (s.mapHwb f).hwa = s.hwa := rfl
@[simp] theorem State.mapHwb_hwb (f : HwbS → HwbS) : (s.mapHwb f).hwb = f s.hwb := rfl
@[simp] theorem State.mapHwb_pair (f : HwbS → HwbS) : (s.mapHwb f).pair = s.pair := rfl
@[simp] theorem State.mapHwb_dnp (f : HwbS → HwbS) : (s.mapHwb f).dnp = s.dnp := rfl
@[simp] theorem State.mapHwb_flt (f : HwbS → HwbS) : (s.mapHwb f).flt = s.flt := rfl
@[simp] theorem State.mapHwb_boot (f : HwbS → HwbS) : (s.mapHwb f).boot = s.boot := rfl
@[simp] theorem State.mapHwb_sec (f : HwbS → HwbS) : (s.mapHwb f).sec = s.sec := rfl
@[simp] theorem State.mapHwb_thm (f : HwbS → HwbS) : (s.mapHwb f).thm = s.thm := rfl
@[simp] theorem State.mapHwb_tap (f : HwbS → HwbS) : (s.mapHwb f).tap = s.tap := rfl

@[simp] theorem State.mapPair_pending (f : PairS → PairS) : (s.mapPair f).pending = s.pending := rfl
@[simp] theorem State.mapPair_freeCnt (f : PairS → PairS) : (s.mapPair f).freeCnt = s.freeCnt := rfl
@[simp] theorem State.mapPair_time (f : PairS → PairS) : (s.mapPair f).time = s.time := rfl
@[simp] theorem State.mapPair_pins (f : PairS → PairS) : (s.mapPair f).pins = s.pins := rfl
@[simp] theorem State.mapPair_mem (f : PairS → PairS) : (s.mapPair f).mem = s.mem := rfl
@[simp] theorem State.mapPair_fab (f : PairS → PairS) : (s.mapPair f).fab = s.fab := rfl
@[simp] theorem State.mapPair_mbx (f : PairS → PairS) : (s.mapPair f).mbx = s.mbx := rfl
@[simp] theorem State.mapPair_cmds (f : PairS → PairS) : (s.mapPair f).cmds = s.cmds := rfl
@[simp] theorem State.mapPair_tly (f : PairS → PairS) : (s.mapPair f).tly = s.tly := rfl
@[simp] theorem State.mapPair_cx (f : PairS → PairS) : (s.mapPair f).cx = s.cx := rfl
@[simp] theorem State.mapPair_carders (f : PairS → PairS) : (s.mapPair f).carders = s.carders := rfl
@[simp] theorem State.mapPair_grn (f : PairS → PairS) : (s.mapPair f).grn = s.grn := rfl
@[simp] theorem State.mapPair_gln (f : PairS → PairS) : (s.mapPair f).gln = s.gln := rfl
@[simp] theorem State.mapPair_kvw (f : PairS → PairS) : (s.mapPair f).kvw = s.kvw := rfl
@[simp] theorem State.mapPair_hmc (f : PairS → PairS) : (s.mapPair f).hmc = s.hmc := rfl
@[simp] theorem State.mapPair_blk (f : PairS → PairS) : (s.mapPair f).blk = s.blk := rfl
@[simp] theorem State.mapPair_out (f : PairS → PairS) : (s.mapPair f).out = s.out := rfl
@[simp] theorem State.mapPair_ing (f : PairS → PairS) : (s.mapPair f).ing = s.ing := rfl
@[simp] theorem State.mapPair_cool (f : PairS → PairS) : (s.mapPair f).cool = s.cool := rfl
@[simp] theorem State.mapPair_sw (f : PairS → PairS) : (s.mapPair f).sw = s.sw := rfl
@[simp] theorem State.mapPair_kcp (f : PairS → PairS) : (s.mapPair f).kcp = s.kcp := rfl
@[simp] theorem State.mapPair_core (f : PairS → PairS) : (s.mapPair f).core = s.core := rfl
@[simp] theorem State.mapPair_hwa (f : PairS → PairS) : (s.mapPair f).hwa = s.hwa := rfl
@[simp] theorem State.mapPair_hwb (f : PairS → PairS) : (s.mapPair f).hwb = s.hwb := rfl
@[simp] theorem State.mapPair_pair (f : PairS → PairS) : (s.mapPair f).pair = f s.pair := rfl
@[simp] theorem State.mapPair_dnp (f : PairS → PairS) : (s.mapPair f).dnp = s.dnp := rfl
@[simp] theorem State.mapPair_flt (f : PairS → PairS) : (s.mapPair f).flt = s.flt := rfl
@[simp] theorem State.mapPair_boot (f : PairS → PairS) : (s.mapPair f).boot = s.boot := rfl
@[simp] theorem State.mapPair_sec (f : PairS → PairS) : (s.mapPair f).sec = s.sec := rfl
@[simp] theorem State.mapPair_thm (f : PairS → PairS) : (s.mapPair f).thm = s.thm := rfl
@[simp] theorem State.mapPair_tap (f : PairS → PairS) : (s.mapPair f).tap = s.tap := rfl

@[simp] theorem State.mapDnp_pending (f : DnpS → DnpS) : (s.mapDnp f).pending = s.pending := rfl
@[simp] theorem State.mapDnp_freeCnt (f : DnpS → DnpS) : (s.mapDnp f).freeCnt = s.freeCnt := rfl
@[simp] theorem State.mapDnp_time (f : DnpS → DnpS) : (s.mapDnp f).time = s.time := rfl
@[simp] theorem State.mapDnp_pins (f : DnpS → DnpS) : (s.mapDnp f).pins = s.pins := rfl
@[simp] theorem State.mapDnp_mem (f : DnpS → DnpS) : (s.mapDnp f).mem = s.mem := rfl
@[simp] theorem State.mapDnp_fab (f : DnpS → DnpS) : (s.mapDnp f).fab = s.fab := rfl
@[simp] theorem State.mapDnp_mbx (f : DnpS → DnpS) : (s.mapDnp f).mbx = s.mbx := rfl
@[simp] theorem State.mapDnp_cmds (f : DnpS → DnpS) : (s.mapDnp f).cmds = s.cmds := rfl
@[simp] theorem State.mapDnp_tly (f : DnpS → DnpS) : (s.mapDnp f).tly = s.tly := rfl
@[simp] theorem State.mapDnp_cx (f : DnpS → DnpS) : (s.mapDnp f).cx = s.cx := rfl
@[simp] theorem State.mapDnp_carders (f : DnpS → DnpS) : (s.mapDnp f).carders = s.carders := rfl
@[simp] theorem State.mapDnp_grn (f : DnpS → DnpS) : (s.mapDnp f).grn = s.grn := rfl
@[simp] theorem State.mapDnp_gln (f : DnpS → DnpS) : (s.mapDnp f).gln = s.gln := rfl
@[simp] theorem State.mapDnp_kvw (f : DnpS → DnpS) : (s.mapDnp f).kvw = s.kvw := rfl
@[simp] theorem State.mapDnp_hmc (f : DnpS → DnpS) : (s.mapDnp f).hmc = s.hmc := rfl
@[simp] theorem State.mapDnp_blk (f : DnpS → DnpS) : (s.mapDnp f).blk = s.blk := rfl
@[simp] theorem State.mapDnp_out (f : DnpS → DnpS) : (s.mapDnp f).out = s.out := rfl
@[simp] theorem State.mapDnp_ing (f : DnpS → DnpS) : (s.mapDnp f).ing = s.ing := rfl
@[simp] theorem State.mapDnp_cool (f : DnpS → DnpS) : (s.mapDnp f).cool = s.cool := rfl
@[simp] theorem State.mapDnp_sw (f : DnpS → DnpS) : (s.mapDnp f).sw = s.sw := rfl
@[simp] theorem State.mapDnp_kcp (f : DnpS → DnpS) : (s.mapDnp f).kcp = s.kcp := rfl
@[simp] theorem State.mapDnp_core (f : DnpS → DnpS) : (s.mapDnp f).core = s.core := rfl
@[simp] theorem State.mapDnp_hwa (f : DnpS → DnpS) : (s.mapDnp f).hwa = s.hwa := rfl
@[simp] theorem State.mapDnp_hwb (f : DnpS → DnpS) : (s.mapDnp f).hwb = s.hwb := rfl
@[simp] theorem State.mapDnp_pair (f : DnpS → DnpS) : (s.mapDnp f).pair = s.pair := rfl
@[simp] theorem State.mapDnp_dnp (f : DnpS → DnpS) : (s.mapDnp f).dnp = f s.dnp := rfl
@[simp] theorem State.mapDnp_flt (f : DnpS → DnpS) : (s.mapDnp f).flt = s.flt := rfl
@[simp] theorem State.mapDnp_boot (f : DnpS → DnpS) : (s.mapDnp f).boot = s.boot := rfl
@[simp] theorem State.mapDnp_sec (f : DnpS → DnpS) : (s.mapDnp f).sec = s.sec := rfl
@[simp] theorem State.mapDnp_thm (f : DnpS → DnpS) : (s.mapDnp f).thm = s.thm := rfl
@[simp] theorem State.mapDnp_tap (f : DnpS → DnpS) : (s.mapDnp f).tap = s.tap := rfl

@[simp] theorem State.mapFlt_pending (f : FltS → FltS) : (s.mapFlt f).pending = s.pending := rfl
@[simp] theorem State.mapFlt_freeCnt (f : FltS → FltS) : (s.mapFlt f).freeCnt = s.freeCnt := rfl
@[simp] theorem State.mapFlt_time (f : FltS → FltS) : (s.mapFlt f).time = s.time := rfl
@[simp] theorem State.mapFlt_pins (f : FltS → FltS) : (s.mapFlt f).pins = s.pins := rfl
@[simp] theorem State.mapFlt_mem (f : FltS → FltS) : (s.mapFlt f).mem = s.mem := rfl
@[simp] theorem State.mapFlt_fab (f : FltS → FltS) : (s.mapFlt f).fab = s.fab := rfl
@[simp] theorem State.mapFlt_mbx (f : FltS → FltS) : (s.mapFlt f).mbx = s.mbx := rfl
@[simp] theorem State.mapFlt_cmds (f : FltS → FltS) : (s.mapFlt f).cmds = s.cmds := rfl
@[simp] theorem State.mapFlt_tly (f : FltS → FltS) : (s.mapFlt f).tly = s.tly := rfl
@[simp] theorem State.mapFlt_cx (f : FltS → FltS) : (s.mapFlt f).cx = s.cx := rfl
@[simp] theorem State.mapFlt_carders (f : FltS → FltS) : (s.mapFlt f).carders = s.carders := rfl
@[simp] theorem State.mapFlt_grn (f : FltS → FltS) : (s.mapFlt f).grn = s.grn := rfl
@[simp] theorem State.mapFlt_gln (f : FltS → FltS) : (s.mapFlt f).gln = s.gln := rfl
@[simp] theorem State.mapFlt_kvw (f : FltS → FltS) : (s.mapFlt f).kvw = s.kvw := rfl
@[simp] theorem State.mapFlt_hmc (f : FltS → FltS) : (s.mapFlt f).hmc = s.hmc := rfl
@[simp] theorem State.mapFlt_blk (f : FltS → FltS) : (s.mapFlt f).blk = s.blk := rfl
@[simp] theorem State.mapFlt_out (f : FltS → FltS) : (s.mapFlt f).out = s.out := rfl
@[simp] theorem State.mapFlt_ing (f : FltS → FltS) : (s.mapFlt f).ing = s.ing := rfl
@[simp] theorem State.mapFlt_cool (f : FltS → FltS) : (s.mapFlt f).cool = s.cool := rfl
@[simp] theorem State.mapFlt_sw (f : FltS → FltS) : (s.mapFlt f).sw = s.sw := rfl
@[simp] theorem State.mapFlt_kcp (f : FltS → FltS) : (s.mapFlt f).kcp = s.kcp := rfl
@[simp] theorem State.mapFlt_core (f : FltS → FltS) : (s.mapFlt f).core = s.core := rfl
@[simp] theorem State.mapFlt_hwa (f : FltS → FltS) : (s.mapFlt f).hwa = s.hwa := rfl
@[simp] theorem State.mapFlt_hwb (f : FltS → FltS) : (s.mapFlt f).hwb = s.hwb := rfl
@[simp] theorem State.mapFlt_pair (f : FltS → FltS) : (s.mapFlt f).pair = s.pair := rfl
@[simp] theorem State.mapFlt_dnp (f : FltS → FltS) : (s.mapFlt f).dnp = s.dnp := rfl
@[simp] theorem State.mapFlt_flt (f : FltS → FltS) : (s.mapFlt f).flt = f s.flt := rfl
@[simp] theorem State.mapFlt_boot (f : FltS → FltS) : (s.mapFlt f).boot = s.boot := rfl
@[simp] theorem State.mapFlt_sec (f : FltS → FltS) : (s.mapFlt f).sec = s.sec := rfl
@[simp] theorem State.mapFlt_thm (f : FltS → FltS) : (s.mapFlt f).thm = s.thm := rfl
@[simp] theorem State.mapFlt_tap (f : FltS → FltS) : (s.mapFlt f).tap = s.tap := rfl

@[simp] theorem State.mapBoot_pending (f : BootS → BootS) : (s.mapBoot f).pending = s.pending := rfl
@[simp] theorem State.mapBoot_freeCnt (f : BootS → BootS) : (s.mapBoot f).freeCnt = s.freeCnt := rfl
@[simp] theorem State.mapBoot_time (f : BootS → BootS) : (s.mapBoot f).time = s.time := rfl
@[simp] theorem State.mapBoot_pins (f : BootS → BootS) : (s.mapBoot f).pins = s.pins := rfl
@[simp] theorem State.mapBoot_mem (f : BootS → BootS) : (s.mapBoot f).mem = s.mem := rfl
@[simp] theorem State.mapBoot_fab (f : BootS → BootS) : (s.mapBoot f).fab = s.fab := rfl
@[simp] theorem State.mapBoot_mbx (f : BootS → BootS) : (s.mapBoot f).mbx = s.mbx := rfl
@[simp] theorem State.mapBoot_cmds (f : BootS → BootS) : (s.mapBoot f).cmds = s.cmds := rfl
@[simp] theorem State.mapBoot_tly (f : BootS → BootS) : (s.mapBoot f).tly = s.tly := rfl
@[simp] theorem State.mapBoot_cx (f : BootS → BootS) : (s.mapBoot f).cx = s.cx := rfl
@[simp] theorem State.mapBoot_carders (f : BootS → BootS) : (s.mapBoot f).carders = s.carders := rfl
@[simp] theorem State.mapBoot_grn (f : BootS → BootS) : (s.mapBoot f).grn = s.grn := rfl
@[simp] theorem State.mapBoot_gln (f : BootS → BootS) : (s.mapBoot f).gln = s.gln := rfl
@[simp] theorem State.mapBoot_kvw (f : BootS → BootS) : (s.mapBoot f).kvw = s.kvw := rfl
@[simp] theorem State.mapBoot_hmc (f : BootS → BootS) : (s.mapBoot f).hmc = s.hmc := rfl
@[simp] theorem State.mapBoot_blk (f : BootS → BootS) : (s.mapBoot f).blk = s.blk := rfl
@[simp] theorem State.mapBoot_out (f : BootS → BootS) : (s.mapBoot f).out = s.out := rfl
@[simp] theorem State.mapBoot_ing (f : BootS → BootS) : (s.mapBoot f).ing = s.ing := rfl
@[simp] theorem State.mapBoot_cool (f : BootS → BootS) : (s.mapBoot f).cool = s.cool := rfl
@[simp] theorem State.mapBoot_sw (f : BootS → BootS) : (s.mapBoot f).sw = s.sw := rfl
@[simp] theorem State.mapBoot_kcp (f : BootS → BootS) : (s.mapBoot f).kcp = s.kcp := rfl
@[simp] theorem State.mapBoot_core (f : BootS → BootS) : (s.mapBoot f).core = s.core := rfl
@[simp] theorem State.mapBoot_hwa (f : BootS → BootS) : (s.mapBoot f).hwa = s.hwa := rfl
@[simp] theorem State.mapBoot_hwb (f : BootS → BootS) : (s.mapBoot f).hwb = s.hwb := rfl
@[simp] theorem State.mapBoot_pair (f : BootS → BootS) : (s.mapBoot f).pair = s.pair := rfl
@[simp] theorem State.mapBoot_dnp (f : BootS → BootS) : (s.mapBoot f).dnp = s.dnp := rfl
@[simp] theorem State.mapBoot_flt (f : BootS → BootS) : (s.mapBoot f).flt = s.flt := rfl
@[simp] theorem State.mapBoot_boot (f : BootS → BootS) : (s.mapBoot f).boot = f s.boot := rfl
@[simp] theorem State.mapBoot_sec (f : BootS → BootS) : (s.mapBoot f).sec = s.sec := rfl
@[simp] theorem State.mapBoot_thm (f : BootS → BootS) : (s.mapBoot f).thm = s.thm := rfl
@[simp] theorem State.mapBoot_tap (f : BootS → BootS) : (s.mapBoot f).tap = s.tap := rfl

@[simp] theorem State.mapSec_pending (f : SecS → SecS) : (s.mapSec f).pending = s.pending := rfl
@[simp] theorem State.mapSec_freeCnt (f : SecS → SecS) : (s.mapSec f).freeCnt = s.freeCnt := rfl
@[simp] theorem State.mapSec_time (f : SecS → SecS) : (s.mapSec f).time = s.time := rfl
@[simp] theorem State.mapSec_pins (f : SecS → SecS) : (s.mapSec f).pins = s.pins := rfl
@[simp] theorem State.mapSec_mem (f : SecS → SecS) : (s.mapSec f).mem = s.mem := rfl
@[simp] theorem State.mapSec_fab (f : SecS → SecS) : (s.mapSec f).fab = s.fab := rfl
@[simp] theorem State.mapSec_mbx (f : SecS → SecS) : (s.mapSec f).mbx = s.mbx := rfl
@[simp] theorem State.mapSec_cmds (f : SecS → SecS) : (s.mapSec f).cmds = s.cmds := rfl
@[simp] theorem State.mapSec_tly (f : SecS → SecS) : (s.mapSec f).tly = s.tly := rfl
@[simp] theorem State.mapSec_cx (f : SecS → SecS) : (s.mapSec f).cx = s.cx := rfl
@[simp] theorem State.mapSec_carders (f : SecS → SecS) : (s.mapSec f).carders = s.carders := rfl
@[simp] theorem State.mapSec_grn (f : SecS → SecS) : (s.mapSec f).grn = s.grn := rfl
@[simp] theorem State.mapSec_gln (f : SecS → SecS) : (s.mapSec f).gln = s.gln := rfl
@[simp] theorem State.mapSec_kvw (f : SecS → SecS) : (s.mapSec f).kvw = s.kvw := rfl
@[simp] theorem State.mapSec_hmc (f : SecS → SecS) : (s.mapSec f).hmc = s.hmc := rfl
@[simp] theorem State.mapSec_blk (f : SecS → SecS) : (s.mapSec f).blk = s.blk := rfl
@[simp] theorem State.mapSec_out (f : SecS → SecS) : (s.mapSec f).out = s.out := rfl
@[simp] theorem State.mapSec_ing (f : SecS → SecS) : (s.mapSec f).ing = s.ing := rfl
@[simp] theorem State.mapSec_cool (f : SecS → SecS) : (s.mapSec f).cool = s.cool := rfl
@[simp] theorem State.mapSec_sw (f : SecS → SecS) : (s.mapSec f).sw = s.sw := rfl
@[simp] theorem State.mapSec_kcp (f : SecS → SecS) : (s.mapSec f).kcp = s.kcp := rfl
@[simp] theorem State.mapSec_core (f : SecS → SecS) : (s.mapSec f).core = s.core := rfl
@[simp] theorem State.mapSec_hwa (f : SecS → SecS) : (s.mapSec f).hwa = s.hwa := rfl
@[simp] theorem State.mapSec_hwb (f : SecS → SecS) : (s.mapSec f).hwb = s.hwb := rfl
@[simp] theorem State.mapSec_pair (f : SecS → SecS) : (s.mapSec f).pair = s.pair := rfl
@[simp] theorem State.mapSec_dnp (f : SecS → SecS) : (s.mapSec f).dnp = s.dnp := rfl
@[simp] theorem State.mapSec_flt (f : SecS → SecS) : (s.mapSec f).flt = s.flt := rfl
@[simp] theorem State.mapSec_boot (f : SecS → SecS) : (s.mapSec f).boot = s.boot := rfl
@[simp] theorem State.mapSec_sec (f : SecS → SecS) : (s.mapSec f).sec = f s.sec := rfl
@[simp] theorem State.mapSec_thm (f : SecS → SecS) : (s.mapSec f).thm = s.thm := rfl
@[simp] theorem State.mapSec_tap (f : SecS → SecS) : (s.mapSec f).tap = s.tap := rfl

@[simp] theorem State.mapThm_pending (f : ThmS → ThmS) : (s.mapThm f).pending = s.pending := rfl
@[simp] theorem State.mapThm_freeCnt (f : ThmS → ThmS) : (s.mapThm f).freeCnt = s.freeCnt := rfl
@[simp] theorem State.mapThm_time (f : ThmS → ThmS) : (s.mapThm f).time = s.time := rfl
@[simp] theorem State.mapThm_pins (f : ThmS → ThmS) : (s.mapThm f).pins = s.pins := rfl
@[simp] theorem State.mapThm_mem (f : ThmS → ThmS) : (s.mapThm f).mem = s.mem := rfl
@[simp] theorem State.mapThm_fab (f : ThmS → ThmS) : (s.mapThm f).fab = s.fab := rfl
@[simp] theorem State.mapThm_mbx (f : ThmS → ThmS) : (s.mapThm f).mbx = s.mbx := rfl
@[simp] theorem State.mapThm_cmds (f : ThmS → ThmS) : (s.mapThm f).cmds = s.cmds := rfl
@[simp] theorem State.mapThm_tly (f : ThmS → ThmS) : (s.mapThm f).tly = s.tly := rfl
@[simp] theorem State.mapThm_cx (f : ThmS → ThmS) : (s.mapThm f).cx = s.cx := rfl
@[simp] theorem State.mapThm_carders (f : ThmS → ThmS) : (s.mapThm f).carders = s.carders := rfl
@[simp] theorem State.mapThm_grn (f : ThmS → ThmS) : (s.mapThm f).grn = s.grn := rfl
@[simp] theorem State.mapThm_gln (f : ThmS → ThmS) : (s.mapThm f).gln = s.gln := rfl
@[simp] theorem State.mapThm_kvw (f : ThmS → ThmS) : (s.mapThm f).kvw = s.kvw := rfl
@[simp] theorem State.mapThm_hmc (f : ThmS → ThmS) : (s.mapThm f).hmc = s.hmc := rfl
@[simp] theorem State.mapThm_blk (f : ThmS → ThmS) : (s.mapThm f).blk = s.blk := rfl
@[simp] theorem State.mapThm_out (f : ThmS → ThmS) : (s.mapThm f).out = s.out := rfl
@[simp] theorem State.mapThm_ing (f : ThmS → ThmS) : (s.mapThm f).ing = s.ing := rfl
@[simp] theorem State.mapThm_cool (f : ThmS → ThmS) : (s.mapThm f).cool = s.cool := rfl
@[simp] theorem State.mapThm_sw (f : ThmS → ThmS) : (s.mapThm f).sw = s.sw := rfl
@[simp] theorem State.mapThm_kcp (f : ThmS → ThmS) : (s.mapThm f).kcp = s.kcp := rfl
@[simp] theorem State.mapThm_core (f : ThmS → ThmS) : (s.mapThm f).core = s.core := rfl
@[simp] theorem State.mapThm_hwa (f : ThmS → ThmS) : (s.mapThm f).hwa = s.hwa := rfl
@[simp] theorem State.mapThm_hwb (f : ThmS → ThmS) : (s.mapThm f).hwb = s.hwb := rfl
@[simp] theorem State.mapThm_pair (f : ThmS → ThmS) : (s.mapThm f).pair = s.pair := rfl
@[simp] theorem State.mapThm_dnp (f : ThmS → ThmS) : (s.mapThm f).dnp = s.dnp := rfl
@[simp] theorem State.mapThm_flt (f : ThmS → ThmS) : (s.mapThm f).flt = s.flt := rfl
@[simp] theorem State.mapThm_boot (f : ThmS → ThmS) : (s.mapThm f).boot = s.boot := rfl
@[simp] theorem State.mapThm_sec (f : ThmS → ThmS) : (s.mapThm f).sec = s.sec := rfl
@[simp] theorem State.mapThm_thm (f : ThmS → ThmS) : (s.mapThm f).thm = f s.thm := rfl
@[simp] theorem State.mapThm_tap (f : ThmS → ThmS) : (s.mapThm f).tap = s.tap := rfl

@[simp] theorem State.mapTap_pending (f : TapS → TapS) : (s.mapTap f).pending = s.pending := rfl
@[simp] theorem State.mapTap_freeCnt (f : TapS → TapS) : (s.mapTap f).freeCnt = s.freeCnt := rfl
@[simp] theorem State.mapTap_time (f : TapS → TapS) : (s.mapTap f).time = s.time := rfl
@[simp] theorem State.mapTap_pins (f : TapS → TapS) : (s.mapTap f).pins = s.pins := rfl
@[simp] theorem State.mapTap_mem (f : TapS → TapS) : (s.mapTap f).mem = s.mem := rfl
@[simp] theorem State.mapTap_fab (f : TapS → TapS) : (s.mapTap f).fab = s.fab := rfl
@[simp] theorem State.mapTap_mbx (f : TapS → TapS) : (s.mapTap f).mbx = s.mbx := rfl
@[simp] theorem State.mapTap_cmds (f : TapS → TapS) : (s.mapTap f).cmds = s.cmds := rfl
@[simp] theorem State.mapTap_tly (f : TapS → TapS) : (s.mapTap f).tly = s.tly := rfl
@[simp] theorem State.mapTap_cx (f : TapS → TapS) : (s.mapTap f).cx = s.cx := rfl
@[simp] theorem State.mapTap_carders (f : TapS → TapS) : (s.mapTap f).carders = s.carders := rfl
@[simp] theorem State.mapTap_grn (f : TapS → TapS) : (s.mapTap f).grn = s.grn := rfl
@[simp] theorem State.mapTap_gln (f : TapS → TapS) : (s.mapTap f).gln = s.gln := rfl
@[simp] theorem State.mapTap_kvw (f : TapS → TapS) : (s.mapTap f).kvw = s.kvw := rfl
@[simp] theorem State.mapTap_hmc (f : TapS → TapS) : (s.mapTap f).hmc = s.hmc := rfl
@[simp] theorem State.mapTap_blk (f : TapS → TapS) : (s.mapTap f).blk = s.blk := rfl
@[simp] theorem State.mapTap_out (f : TapS → TapS) : (s.mapTap f).out = s.out := rfl
@[simp] theorem State.mapTap_ing (f : TapS → TapS) : (s.mapTap f).ing = s.ing := rfl
@[simp] theorem State.mapTap_cool (f : TapS → TapS) : (s.mapTap f).cool = s.cool := rfl
@[simp] theorem State.mapTap_sw (f : TapS → TapS) : (s.mapTap f).sw = s.sw := rfl
@[simp] theorem State.mapTap_kcp (f : TapS → TapS) : (s.mapTap f).kcp = s.kcp := rfl
@[simp] theorem State.mapTap_core (f : TapS → TapS) : (s.mapTap f).core = s.core := rfl
@[simp] theorem State.mapTap_hwa (f : TapS → TapS) : (s.mapTap f).hwa = s.hwa := rfl
@[simp] theorem State.mapTap_hwb (f : TapS → TapS) : (s.mapTap f).hwb = s.hwb := rfl
@[simp] theorem State.mapTap_pair (f : TapS → TapS) : (s.mapTap f).pair = s.pair := rfl
@[simp] theorem State.mapTap_dnp (f : TapS → TapS) : (s.mapTap f).dnp = s.dnp := rfl
@[simp] theorem State.mapTap_flt (f : TapS → TapS) : (s.mapTap f).flt = s.flt := rfl
@[simp] theorem State.mapTap_boot (f : TapS → TapS) : (s.mapTap f).boot = s.boot := rfl
@[simp] theorem State.mapTap_sec (f : TapS → TapS) : (s.mapTap f).sec = s.sec := rfl
@[simp] theorem State.mapTap_thm (f : TapS → TapS) : (s.mapTap f).thm = s.thm := rfl
@[simp] theorem State.mapTap_tap (f : TapS → TapS) : (s.mapTap f).tap = f s.tap := rfl

end Sys2Proof.Machine
end

