-- ==== Sys2Proof/Laws/Units.lean ====
section
/-! SUPPORT. What each block and each unit of the state is after an update of one unit. -/

namespace Sys2Proof.Machine


variable (s : State) (k : Nat)

theorem State.updEng_self (f : Eng → Eng) : (s.updEng k f).eng k = f (s.eng k) := Tab.get_upd_self _ _ _ _
theorem State.updEng_ne (f : Eng → Eng) {j : Nat} (h : j ≠ k) : (s.updEng k f).eng j = s.eng j := Tab.get_upd_ne _ _ h _
@[simp] theorem State.updEng_eng (f : Eng → Eng) (j : Nat) : (s.updEng k f).eng j = if j = k then f (s.eng k) else s.eng j :=
  Tab.get_upd _ _ _ _ _
@[simp] theorem State.updEng_pending (f : Eng → Eng) : (s.updEng k f).pending = s.pending := rfl
@[simp] theorem State.updEng_freeCnt (f : Eng → Eng) : (s.updEng k f).freeCnt = s.freeCnt := rfl
@[simp] theorem State.updEng_time (f : Eng → Eng) : (s.updEng k f).time = s.time := rfl
@[simp] theorem State.updEng_pins (f : Eng → Eng) : (s.updEng k f).pins = s.pins := rfl
@[simp] theorem State.updEng_mem (f : Eng → Eng) : (s.updEng k f).mem = s.mem := rfl
@[simp] theorem State.updEng_fab (f : Eng → Eng) : (s.updEng k f).fab = s.fab := rfl
@[simp] theorem State.updEng_mbx (f : Eng → Eng) : (s.updEng k f).mbx = s.mbx := rfl
@[simp] theorem State.updEng_cmds (f : Eng → Eng) : (s.updEng k f).cmds = s.cmds := rfl
@[simp] theorem State.updEng_tly (f : Eng → Eng) : (s.updEng k f).tly = s.tly := rfl
@[simp] theorem State.updEng_carders (f : Eng → Eng) : (s.updEng k f).carders = s.carders := rfl
@[simp] theorem State.updEng_grn (f : Eng → Eng) : (s.updEng k f).grn = s.grn := rfl
@[simp] theorem State.updEng_gln (f : Eng → Eng) : (s.updEng k f).gln = s.gln := rfl
@[simp] theorem State.updEng_kvw (f : Eng → Eng) : (s.updEng k f).kvw = s.kvw := rfl
@[simp] theorem State.updEng_hmc (f : Eng → Eng) : (s.updEng k f).hmc = s.hmc := rfl
@[simp] theorem State.updEng_blk (f : Eng → Eng) : (s.updEng k f).blk = s.blk := rfl
@[simp] theorem State.updEng_out (f : Eng → Eng) : (s.updEng k f).out = s.out := rfl
@[simp] theorem State.updEng_ing (f : Eng → Eng) : (s.updEng k f).ing = s.ing := rfl
@[simp] theorem State.updEng_cool (f : Eng → Eng) : (s.updEng k f).cool = s.cool := rfl
@[simp] theorem State.updEng_sw (f : Eng → Eng) : (s.updEng k f).sw = s.sw := rfl
@[simp] theorem State.updEng_kcp (f : Eng → Eng) : (s.updEng k f).kcp = s.kcp := rfl
@[simp] theorem State.updEng_core (f : Eng → Eng) : (s.updEng k f).core = s.core := rfl
@[simp] theorem State.updEng_hwa (f : Eng → Eng) : (s.updEng k f).hwa = s.hwa := rfl
@[simp] theorem State.updEng_hwb (f : Eng → Eng) : (s.updEng k f).hwb = s.hwb := rfl
@[simp] theorem State.updEng_pair (f : Eng → Eng) : (s.updEng k f).pair = s.pair := rfl
@[simp] theorem State.updEng_dnp (f : Eng → Eng) : (s.updEng k f).dnp = s.dnp := rfl
@[simp] theorem State.updEng_flt (f : Eng → Eng) : (s.updEng k f).flt = s.flt := rfl
@[simp] theorem State.updEng_boot (f : Eng → Eng) : (s.updEng k f).boot = s.boot := rfl
@[simp] theorem State.updEng_sec (f : Eng → Eng) : (s.updEng k f).sec = s.sec := rfl
@[simp] theorem State.updEng_thm (f : Eng → Eng) : (s.updEng k f).thm = s.thm := rfl
@[simp] theorem State.updEng_tap (f : Eng → Eng) : (s.updEng k f).tap = s.tap := rfl
@[simp] theorem State.updEng_ctxOf (f : Eng → Eng) (j : Nat) : (s.updEng k f).ctxOf j = s.ctxOf j := rfl
@[simp] theorem State.updEng_bank (f : Eng → Eng) (j : Nat) : (s.updEng k f).bank j = s.bank j := rfl
@[simp] theorem State.updEng_grnDie (f : Eng → Eng) (j : Nat) : (s.updEng k f).grnDie j = s.grnDie j := rfl
@[simp] theorem State.updEng_gleaner (f : Eng → Eng) (j : Nat) : (s.updEng k f).gleaner j = s.gleaner j := rfl
@[simp] theorem State.updEng_hmcOf (f : Eng → Eng) (j : Nat) : (s.updEng k f).hmcOf j = s.hmcOf j := rfl
@[simp] theorem State.updEng_blkOf (f : Eng → Eng) (j : Nat) : (s.updEng k f).blkOf j = s.blkOf j := rfl
@[simp] theorem State.updEng_kvwOf (f : Eng → Eng) (j : Nat) : (s.updEng k f).kvwOf j = s.kvwOf j := rfl
@[simp] theorem State.updEng_stream (f : Eng → Eng) (j : Nat) : (s.updEng k f).stream j = s.stream j := rfl
@[simp] theorem State.updEng_portOf (f : Eng → Eng) (j : Nat) : (s.updEng k f).portOf j = s.portOf j := rfl
@[simp] theorem State.updEng_slotOf (f : Eng → Eng) (j : Nat) : (s.updEng k f).slotOf j = s.slotOf j := rfl
@[simp] theorem State.updEng_coreOf (f : Eng → Eng) (j : Nat) : (s.updEng k f).coreOf j = s.coreOf j := rfl
@[simp] theorem State.updEng_opc (f : Eng → Eng) (j : Nat) : (s.updEng k f).opc j = s.opc j := rfl
@[simp] theorem State.updEng_carder (f : Eng → Eng) (j : Nat) : (s.updEng k f).carder j = s.carder j := rfl
@[simp] theorem State.updEng_stage (f : Eng → Eng) (j : Nat) : (s.updEng k f).stage j = s.stage j := rfl
@[simp] theorem State.updEng_stest (f : Eng → Eng) (j : Nat) : (s.updEng k f).stest j = s.stest j := rfl
@[simp] theorem State.updEng_winOf (f : Eng → Eng) (j : Nat) : (s.updEng k f).winOf j = s.winOf j := rfl

theorem State.updCtx_self (f : Ctx → Ctx) : (s.updCtx k f).ctxOf k = f (s.ctxOf k) := Tab.get_upd_self _ _ _ _
theorem State.updCtx_ne (f : Ctx → Ctx) {j : Nat} (h : j ≠ k) : (s.updCtx k f).ctxOf j = s.ctxOf j := Tab.get_upd_ne _ _ h _
@[simp] theorem State.updCtx_ctxOf (f : Ctx → Ctx) (j : Nat) : (s.updCtx k f).ctxOf j = if j = k then f (s.ctxOf k) else s.ctxOf j :=
  Tab.get_upd _ _ _ _ _
@[simp] theorem State.updCtx_pending (f : Ctx → Ctx) : (s.updCtx k f).pending = s.pending := rfl
@[simp] theorem State.updCtx_freeCnt (f : Ctx → Ctx) : (s.updCtx k f).freeCnt = s.freeCnt := rfl
@[simp] theorem State.updCtx_time (f : Ctx → Ctx) : (s.updCtx k f).time = s.time := rfl
@[simp] theorem State.updCtx_pins (f : Ctx → Ctx) : (s.updCtx k f).pins = s.pins := rfl
@[simp] theorem State.updCtx_mem (f : Ctx → Ctx) : (s.updCtx k f).mem = s.mem := rfl
@[simp] theorem State.updCtx_fab (f : Ctx → Ctx) : (s.updCtx k f).fab = s.fab := rfl
@[simp] theorem State.updCtx_mbx (f : Ctx → Ctx) : (s.updCtx k f).mbx = s.mbx := rfl
@[simp] theorem State.updCtx_cmds (f : Ctx → Ctx) : (s.updCtx k f).cmds = s.cmds := rfl
@[simp] theorem State.updCtx_tly (f : Ctx → Ctx) : (s.updCtx k f).tly = s.tly := rfl
@[simp] theorem State.updCtx_carders (f : Ctx → Ctx) : (s.updCtx k f).carders = s.carders := rfl
@[simp] theorem State.updCtx_grn (f : Ctx → Ctx) : (s.updCtx k f).grn = s.grn := rfl
@[simp] theorem State.updCtx_gln (f : Ctx → Ctx) : (s.updCtx k f).gln = s.gln := rfl
@[simp] theorem State.updCtx_kvw (f : Ctx → Ctx) : (s.updCtx k f).kvw = s.kvw := rfl
@[simp] theorem State.updCtx_hmc (f : Ctx → Ctx) : (s.updCtx k f).hmc = s.hmc := rfl
@[simp] theorem State.updCtx_blk (f : Ctx → Ctx) : (s.updCtx k f).blk = s.blk := rfl
@[simp] theorem State.updCtx_out (f : Ctx → Ctx) : (s.updCtx k f).out = s.out := rfl
@[simp] theorem State.updCtx_ing (f : Ctx → Ctx) : (s.updCtx k f).ing = s.ing := rfl
@[simp] theorem State.updCtx_cool (f : Ctx → Ctx) : (s.updCtx k f).cool = s.cool := rfl
@[simp] theorem State.updCtx_sw (f : Ctx → Ctx) : (s.updCtx k f).sw = s.sw := rfl
@[simp] theorem State.updCtx_kcp (f : Ctx → Ctx) : (s.updCtx k f).kcp = s.kcp := rfl
@[simp] theorem State.updCtx_core (f : Ctx → Ctx) : (s.updCtx k f).core = s.core := rfl
@[simp] theorem State.updCtx_hwa (f : Ctx → Ctx) : (s.updCtx k f).hwa = s.hwa := rfl
@[simp] theorem State.updCtx_hwb (f : Ctx → Ctx) : (s.updCtx k f).hwb = s.hwb := rfl
@[simp] theorem State.updCtx_pair (f : Ctx → Ctx) : (s.updCtx k f).pair = s.pair := rfl
@[simp] theorem State.updCtx_dnp (f : Ctx → Ctx) : (s.updCtx k f).dnp = s.dnp := rfl
@[simp] theorem State.updCtx_flt (f : Ctx → Ctx) : (s.updCtx k f).flt = s.flt := rfl
@[simp] theorem State.updCtx_boot (f : Ctx → Ctx) : (s.updCtx k f).boot = s.boot := rfl
@[simp] theorem State.updCtx_sec (f : Ctx → Ctx) : (s.updCtx k f).sec = s.sec := rfl
@[simp] theorem State.updCtx_thm (f : Ctx → Ctx) : (s.updCtx k f).thm = s.thm := rfl
@[simp] theorem State.updCtx_tap (f : Ctx → Ctx) : (s.updCtx k f).tap = s.tap := rfl
@[simp] theorem State.updCtx_eng (f : Ctx → Ctx) (j : Nat) : (s.updCtx k f).eng j = s.eng j := rfl
@[simp] theorem State.updCtx_bank (f : Ctx → Ctx) (j : Nat) : (s.updCtx k f).bank j = s.bank j := rfl
@[simp] theorem State.updCtx_grnDie (f : Ctx → Ctx) (j : Nat) : (s.updCtx k f).grnDie j = s.grnDie j := rfl
@[simp] theorem State.updCtx_gleaner (f : Ctx → Ctx) (j : Nat) : (s.updCtx k f).gleaner j = s.gleaner j := rfl
@[simp] theorem State.updCtx_hmcOf (f : Ctx → Ctx) (j : Nat) : (s.updCtx k f).hmcOf j = s.hmcOf j := rfl
@[simp] theorem State.updCtx_blkOf (f : Ctx → Ctx) (j : Nat) : (s.updCtx k f).blkOf j = s.blkOf j := rfl
@[simp] theorem State.updCtx_kvwOf (f : Ctx → Ctx) (j : Nat) : (s.updCtx k f).kvwOf j = s.kvwOf j := rfl
@[simp] theorem State.updCtx_stream (f : Ctx → Ctx) (j : Nat) : (s.updCtx k f).stream j = s.stream j := rfl
@[simp] theorem State.updCtx_portOf (f : Ctx → Ctx) (j : Nat) : (s.updCtx k f).portOf j = s.portOf j := rfl
@[simp] theorem State.updCtx_slotOf (f : Ctx → Ctx) (j : Nat) : (s.updCtx k f).slotOf j = s.slotOf j := rfl
@[simp] theorem State.updCtx_coreOf (f : Ctx → Ctx) (j : Nat) : (s.updCtx k f).coreOf j = s.coreOf j := rfl
@[simp] theorem State.updCtx_opc (f : Ctx → Ctx) (j : Nat) : (s.updCtx k f).opc j = s.opc j := rfl
@[simp] theorem State.updCtx_carder (f : Ctx → Ctx) (j : Nat) : (s.updCtx k f).carder j = s.carder j := rfl
@[simp] theorem State.updCtx_stage (f : Ctx → Ctx) (j : Nat) : (s.updCtx k f).stage j = s.stage j := rfl
@[simp] theorem State.updCtx_stest (f : Ctx → Ctx) (j : Nat) : (s.updCtx k f).stest j = s.stest j := rfl
@[simp] theorem State.updCtx_winOf (f : Ctx → Ctx) (j : Nat) : (s.updCtx k f).winOf j = s.winOf j := rfl

theorem State.updBank_self (f : Bank → Bank) : (s.updBank k f).bank k = f (s.bank k) := Tab.get_upd_self _ _ _ _
theorem State.updBank_ne (f : Bank → Bank) {j : Nat} (h : j ≠ k) : (s.updBank k f).bank j = s.bank j := Tab.get_upd_ne _ _ h _
@[simp] theorem State.updBank_bank (f : Bank → Bank) (j : Nat) : (s.updBank k f).bank j = if j = k then f (s.bank k) else s.bank j :=
  Tab.get_upd _ _ _ _ _
@[simp] theorem State.updBank_pending (f : Bank → Bank) : (s.updBank k f).pending = s.pending := rfl
@[simp] theorem State.updBank_freeCnt (f : Bank → Bank) : (s.updBank k f).freeCnt = s.freeCnt := rfl
@[simp] theorem State.updBank_time (f : Bank → Bank) : (s.updBank k f).time = s.time := rfl
@[simp] theorem State.updBank_pins (f : Bank → Bank) : (s.updBank k f).pins = s.pins := rfl
@[simp] theorem State.updBank_mem (f : Bank → Bank) : (s.updBank k f).mem = s.mem := rfl
@[simp] theorem State.updBank_fab (f : Bank → Bank) : (s.updBank k f).fab = s.fab := rfl
@[simp] theorem State.updBank_mbx (f : Bank → Bank) : (s.updBank k f).mbx = s.mbx := rfl
@[simp] theorem State.updBank_cmds (f : Bank → Bank) : (s.updBank k f).cmds = s.cmds := rfl
@[simp] theorem State.updBank_tly (f : Bank → Bank) : (s.updBank k f).tly = s.tly := rfl
@[simp] theorem State.updBank_cx (f : Bank → Bank) : (s.updBank k f).cx = s.cx := rfl
@[simp] theorem State.updBank_carders (f : Bank → Bank) : (s.updBank k f).carders = s.carders := rfl
@[simp] theorem State.updBank_gln (f : Bank → Bank) : (s.updBank k f).gln = s.gln := rfl
@[simp] theorem State.updBank_kvw (f : Bank → Bank) : (s.updBank k f).kvw = s.kvw := rfl
@[simp] theorem State.updBank_hmc (f : Bank → Bank) : (s.updBank k f).hmc = s.hmc := rfl
@[simp] theorem State.updBank_blk (f : Bank → Bank) : (s.updBank k f).blk = s.blk := rfl
@[simp] theorem State.updBank_out (f : Bank → Bank) : (s.updBank k f).out = s.out := rfl
@[simp] theorem State.updBank_ing (f : Bank → Bank) : (s.updBank k f).ing = s.ing := rfl
@[simp] theorem State.updBank_cool (f : Bank → Bank) : (s.updBank k f).cool = s.cool := rfl
@[simp] theorem State.updBank_sw (f : Bank → Bank) : (s.updBank k f).sw = s.sw := rfl
@[simp] theorem State.updBank_kcp (f : Bank → Bank) : (s.updBank k f).kcp = s.kcp := rfl
@[simp] theorem State.updBank_core (f : Bank → Bank) : (s.updBank k f).core = s.core := rfl
@[simp] theorem State.updBank_hwa (f : Bank → Bank) : (s.updBank k f).hwa = s.hwa := rfl
@[simp] theorem State.updBank_hwb (f : Bank → Bank) : (s.updBank k f).hwb = s.hwb := rfl
@[simp] theorem State.updBank_pair (f : Bank → Bank) : (s.updBank k f).pair = s.pair := rfl
@[simp] theorem State.updBank_dnp (f : Bank → Bank) : (s.updBank k f).dnp = s.dnp := rfl
@[simp] theorem State.updBank_flt (f : Bank → Bank) : (s.updBank k f).flt = s.flt := rfl
@[simp] theorem State.updBank_boot (f : Bank → Bank) : (s.updBank k f).boot = s.boot := rfl
@[simp] theorem State.updBank_sec (f : Bank → Bank) : (s.updBank k f).sec = s.sec := rfl
@[simp] theorem State.updBank_thm (f : Bank → Bank) : (s.updBank k f).thm = s.thm := rfl
@[simp] theorem State.updBank_tap (f : Bank → Bank) : (s.updBank k f).tap = s.tap := rfl
@[simp] theorem State.updBank_eng (f : Bank → Bank) (j : Nat) : (s.updBank k f).eng j = s.eng j := rfl
@[simp] theorem State.updBank_ctxOf (f : Bank → Bank) (j : Nat) : (s.updBank k f).ctxOf j = s.ctxOf j := rfl
@[simp] theorem State.updBank_grnDie (f : Bank → Bank) (j : Nat) : (s.updBank k f).grnDie j = s.grnDie j := rfl
@[simp] theorem State.updBank_gleaner (f : Bank → Bank) (j : Nat) : (s.updBank k f).gleaner j = s.gleaner j := rfl
@[simp] theorem State.updBank_hmcOf (f : Bank → Bank) (j : Nat) : (s.updBank k f).hmcOf j = s.hmcOf j := rfl
@[simp] theorem State.updBank_blkOf (f : Bank → Bank) (j : Nat) : (s.updBank k f).blkOf j = s.blkOf j := rfl
@[simp] theorem State.updBank_kvwOf (f : Bank → Bank) (j : Nat) : (s.updBank k f).kvwOf j = s.kvwOf j := rfl
@[simp] theorem State.updBank_stream (f : Bank → Bank) (j : Nat) : (s.updBank k f).stream j = s.stream j := rfl
@[simp] theorem State.updBank_portOf (f : Bank → Bank) (j : Nat) : (s.updBank k f).portOf j = s.portOf j := rfl
@[simp] theorem State.updBank_slotOf (f : Bank → Bank) (j : Nat) : (s.updBank k f).slotOf j = s.slotOf j := rfl
@[simp] theorem State.updBank_coreOf (f : Bank → Bank) (j : Nat) : (s.updBank k f).coreOf j = s.coreOf j := rfl
@[simp] theorem State.updBank_opc (f : Bank → Bank) (j : Nat) : (s.updBank k f).opc j = s.opc j := rfl
@[simp] theorem State.updBank_carder (f : Bank → Bank) (j : Nat) : (s.updBank k f).carder j = s.carder j := rfl
@[simp] theorem State.updBank_stage (f : Bank → Bank) (j : Nat) : (s.updBank k f).stage j = s.stage j := rfl
@[simp] theorem State.updBank_stest (f : Bank → Bank) (j : Nat) : (s.updBank k f).stest j = s.stest j := rfl
@[simp] theorem State.updBank_winOf (f : Bank → Bank) (j : Nat) : (s.updBank k f).winOf j = s.winOf j := rfl

theorem State.updGrnDie_self (f : GrnDie → GrnDie) : (s.updGrnDie k f).grnDie k = f (s.grnDie k) := Tab.get_upd_self _ _ _ _
theorem State.updGrnDie_ne (f : GrnDie → GrnDie) {j : Nat} (h : j ≠ k) : (s.updGrnDie k f).grnDie j = s.grnDie j := Tab.get_upd_ne _ _ h _
@[simp] theorem State.updGrnDie_grnDie (f : GrnDie → GrnDie) (j : Nat) : (s.updGrnDie k f).grnDie j = if j = k then f (s.grnDie k) else s.grnDie j :=
  Tab.get_upd _ _ _ _ _
@[simp] theorem State.updGrnDie_pending (f : GrnDie → GrnDie) : (s.updGrnDie k f).pending = s.pending := rfl
@[simp] theorem State.updGrnDie_freeCnt (f : GrnDie → GrnDie) : (s.updGrnDie k f).freeCnt = s.freeCnt := rfl
@[simp] theorem State.updGrnDie_time (f : GrnDie → GrnDie) : (s.updGrnDie k f).time = s.time := rfl
@[simp] theorem State.updGrnDie_pins (f : GrnDie → GrnDie) : (s.updGrnDie k f).pins = s.pins := rfl
@[simp] theorem State.updGrnDie_mem (f : GrnDie → GrnDie) : (s.updGrnDie k f).mem = s.mem := rfl
@[simp] theorem State.updGrnDie_fab (f : GrnDie → GrnDie) : (s.updGrnDie k f).fab = s.fab := rfl
@[simp] theorem State.updGrnDie_mbx (f : GrnDie → GrnDie) : (s.updGrnDie k f).mbx = s.mbx := rfl
@[simp] theorem State.updGrnDie_cmds (f : GrnDie → GrnDie) : (s.updGrnDie k f).cmds = s.cmds := rfl
@[simp] theorem State.updGrnDie_tly (f : GrnDie → GrnDie) : (s.updGrnDie k f).tly = s.tly := rfl
@[simp] theorem State.updGrnDie_cx (f : GrnDie → GrnDie) : (s.updGrnDie k f).cx = s.cx := rfl
@[simp] theorem State.updGrnDie_carders (f : GrnDie → GrnDie) : (s.updGrnDie k f).carders = s.carders := rfl
@[simp] theorem State.updGrnDie_gln (f : GrnDie → GrnDie) : (s.updGrnDie k f).gln = s.gln := rfl
@[simp] theorem State.updGrnDie_kvw (f : GrnDie → GrnDie) : (s.updGrnDie k f).kvw = s.kvw := rfl
@[simp] theorem State.updGrnDie_hmc (f : GrnDie → GrnDie) : (s.updGrnDie k f).hmc = s.hmc := rfl
@[simp] theorem State.updGrnDie_blk (f : GrnDie → GrnDie) : (s.updGrnDie k f).blk = s.blk := rfl
@[simp] theorem State.updGrnDie_out (f : GrnDie → GrnDie) : (s.updGrnDie k f).out = s.out := rfl
@[simp] theorem State.updGrnDie_ing (f : GrnDie → GrnDie) : (s.updGrnDie k f).ing = s.ing := rfl
@[simp] theorem State.updGrnDie_cool (f : GrnDie → GrnDie) : (s.updGrnDie k f).cool = s.cool := rfl
@[simp] theorem State.updGrnDie_sw (f : GrnDie → GrnDie) : (s.updGrnDie k f).sw = s.sw := rfl
@[simp] theorem State.updGrnDie_kcp (f : GrnDie → GrnDie) : (s.updGrnDie k f).kcp = s.kcp := rfl
@[simp] theorem State.updGrnDie_core (f : GrnDie → GrnDie) : (s.updGrnDie k f).core = s.core := rfl
@[simp] theorem State.updGrnDie_hwa (f : GrnDie → GrnDie) : (s.updGrnDie k f).hwa = s.hwa := rfl
@[simp] theorem State.updGrnDie_hwb (f : GrnDie → GrnDie) : (s.updGrnDie k f).hwb = s.hwb := rfl
@[simp] theorem State.updGrnDie_pair (f : GrnDie → GrnDie) : (s.updGrnDie k f).pair = s.pair := rfl
@[simp] theorem State.updGrnDie_dnp (f : GrnDie → GrnDie) : (s.updGrnDie k f).dnp = s.dnp := rfl
@[simp] theorem State.updGrnDie_flt (f : GrnDie → GrnDie) : (s.updGrnDie k f).flt = s.flt := rfl
@[simp] theorem State.updGrnDie_boot (f : GrnDie → GrnDie) : (s.updGrnDie k f).boot = s.boot := rfl
@[simp] theorem State.updGrnDie_sec (f : GrnDie → GrnDie) : (s.updGrnDie k f).sec = s.sec := rfl
@[simp] theorem State.updGrnDie_thm (f : GrnDie → GrnDie) : (s.updGrnDie k f).thm = s.thm := rfl
@[simp] theorem State.updGrnDie_tap (f : GrnDie → GrnDie) : (s.updGrnDie k f).tap = s.tap := rfl
@[simp] theorem State.updGrnDie_eng (f : GrnDie → GrnDie) (j : Nat) : (s.updGrnDie k f).eng j = s.eng j := rfl
@[simp] theorem State.updGrnDie_ctxOf (f : GrnDie → GrnDie) (j : Nat) : (s.updGrnDie k f).ctxOf j = s.ctxOf j := rfl
@[simp] theorem State.updGrnDie_bank (f : GrnDie → GrnDie) (j : Nat) : (s.updGrnDie k f).bank j = s.bank j := rfl
@[simp] theorem State.updGrnDie_gleaner (f : GrnDie → GrnDie) (j : Nat) : (s.updGrnDie k f).gleaner j = s.gleaner j := rfl
@[simp] theorem State.updGrnDie_hmcOf (f : GrnDie → GrnDie) (j : Nat) : (s.updGrnDie k f).hmcOf j = s.hmcOf j := rfl
@[simp] theorem State.updGrnDie_blkOf (f : GrnDie → GrnDie) (j : Nat) : (s.updGrnDie k f).blkOf j = s.blkOf j := rfl
@[simp] theorem State.updGrnDie_kvwOf (f : GrnDie → GrnDie) (j : Nat) : (s.updGrnDie k f).kvwOf j = s.kvwOf j := rfl
@[simp] theorem State.updGrnDie_stream (f : GrnDie → GrnDie) (j : Nat) : (s.updGrnDie k f).stream j = s.stream j := rfl
@[simp] theorem State.updGrnDie_portOf (f : GrnDie → GrnDie) (j : Nat) : (s.updGrnDie k f).portOf j = s.portOf j := rfl
@[simp] theorem State.updGrnDie_slotOf (f : GrnDie → GrnDie) (j : Nat) : (s.updGrnDie k f).slotOf j = s.slotOf j := rfl
@[simp] theorem State.updGrnDie_coreOf (f : GrnDie → GrnDie) (j : Nat) : (s.updGrnDie k f).coreOf j = s.coreOf j := rfl
@[simp] theorem State.updGrnDie_opc (f : GrnDie → GrnDie) (j : Nat) : (s.updGrnDie k f).opc j = s.opc j := rfl
@[simp] theorem State.updGrnDie_carder (f : GrnDie → GrnDie) (j : Nat) : (s.updGrnDie k f).carder j = s.carder j := rfl
@[simp] theorem State.updGrnDie_stage (f : GrnDie → GrnDie) (j : Nat) : (s.updGrnDie k f).stage j = s.stage j := rfl
@[simp] theorem State.updGrnDie_stest (f : GrnDie → GrnDie) (j : Nat) : (s.updGrnDie k f).stest j = s.stest j := rfl
@[simp] theorem State.updGrnDie_winOf (f : GrnDie → GrnDie) (j : Nat) : (s.updGrnDie k f).winOf j = s.winOf j := rfl

theorem State.updGleaner_self (f : Gleaner → Gleaner) : (s.updGleaner k f).gleaner k = f (s.gleaner k) := Tab.get_upd_self _ _ _ _
theorem State.updGleaner_ne (f : Gleaner → Gleaner) {j : Nat} (h : j ≠ k) : (s.updGleaner k f).gleaner j = s.gleaner j := Tab.get_upd_ne _ _ h _
@[simp] theorem State.updGleaner_gleaner (f : Gleaner → Gleaner) (j : Nat) : (s.updGleaner k f).gleaner j = if j = k then f (s.gleaner k) else s.gleaner j :=
  Tab.get_upd _ _ _ _ _
@[simp] theorem State.updGleaner_pending (f : Gleaner → Gleaner) : (s.updGleaner k f).pending = s.pending := rfl
@[simp] theorem State.updGleaner_freeCnt (f : Gleaner → Gleaner) : (s.updGleaner k f).freeCnt = s.freeCnt := rfl
@[simp] theorem State.updGleaner_time (f : Gleaner → Gleaner) : (s.updGleaner k f).time = s.time := rfl
@[simp] theorem State.updGleaner_pins (f : Gleaner → Gleaner) : (s.updGleaner k f).pins = s.pins := rfl
@[simp] theorem State.updGleaner_mem (f : Gleaner → Gleaner) : (s.updGleaner k f).mem = s.mem := rfl
@[simp] theorem State.updGleaner_fab (f : Gleaner → Gleaner) : (s.updGleaner k f).fab = s.fab := rfl
@[simp] theorem State.updGleaner_mbx (f : Gleaner → Gleaner) : (s.updGleaner k f).mbx = s.mbx := rfl
@[simp] theorem State.updGleaner_cmds (f : Gleaner → Gleaner) : (s.updGleaner k f).cmds = s.cmds := rfl
@[simp] theorem State.updGleaner_tly (f : Gleaner → Gleaner) : (s.updGleaner k f).tly = s.tly := rfl
@[simp] theorem State.updGleaner_cx (f : Gleaner → Gleaner) : (s.updGleaner k f).cx = s.cx := rfl
@[simp] theorem State.updGleaner_carders (f : Gleaner → Gleaner) : (s.updGleaner k f).carders = s.carders := rfl
@[simp] theorem State.updGleaner_grn (f : Gleaner → Gleaner) : (s.updGleaner k f).grn = s.grn := rfl
@[simp] theorem State.updGleaner_kvw (f : Gleaner → Gleaner) : (s.updGleaner k f).kvw = s.kvw := rfl
@[simp] theorem State.updGleaner_hmc (f : Gleaner → Gleaner) : (s.updGleaner k f).hmc = s.hmc := rfl
@[simp] theorem State.updGleaner_blk (f : Gleaner → Gleaner) : (s.updGleaner k f).blk = s.blk := rfl
@[simp] theorem State.updGleaner_out (f : Gleaner → Gleaner) : (s.updGleaner k f).out = s.out := rfl
@[simp] theorem State.updGleaner_ing (f : Gleaner → Gleaner) : (s.updGleaner k f).ing = s.ing := rfl
@[simp] theorem State.updGleaner_cool (f : Gleaner → Gleaner) : (s.updGleaner k f).cool = s.cool := rfl
@[simp] theorem State.updGleaner_sw (f : Gleaner → Gleaner) : (s.updGleaner k f).sw = s.sw := rfl
@[simp] theorem State.updGleaner_kcp (f : Gleaner → Gleaner) : (s.updGleaner k f).kcp = s.kcp := rfl
@[simp] theorem State.updGleaner_core (f : Gleaner → Gleaner) : (s.updGleaner k f).core = s.core := rfl
@[simp] theorem State.updGleaner_hwa (f : Gleaner → Gleaner) : (s.updGleaner k f).hwa = s.hwa := rfl
@[simp] theorem State.updGleaner_hwb (f : Gleaner → Gleaner) : (s.updGleaner k f).hwb = s.hwb := rfl
@[simp] theorem State.updGleaner_pair (f : Gleaner → Gleaner) : (s.updGleaner k f).pair = s.pair := rfl
@[simp] theorem State.updGleaner_dnp (f : Gleaner → Gleaner) : (s.updGleaner k f).dnp = s.dnp := rfl
@[simp] theorem State.updGleaner_flt (f : Gleaner → Gleaner) : (s.updGleaner k f).flt = s.flt := rfl
@[simp] theorem State.updGleaner_boot (f : Gleaner → Gleaner) : (s.updGleaner k f).boot = s.boot := rfl
@[simp] theorem State.updGleaner_sec (f : Gleaner → Gleaner) : (s.updGleaner k f).sec = s.sec := rfl
@[simp] theorem State.updGleaner_thm (f : Gleaner → Gleaner) : (s.updGleaner k f).thm = s.thm := rfl
@[simp] theorem State.updGleaner_tap (f : Gleaner → Gleaner) : (s.updGleaner k f).tap = s.tap := rfl
@[simp] theorem State.updGleaner_eng (f : Gleaner → Gleaner) (j : Nat) : (s.updGleaner k f).eng j = s.eng j := rfl
@[simp] theorem State.updGleaner_ctxOf (f : Gleaner → Gleaner) (j : Nat) : (s.updGleaner k f).ctxOf j = s.ctxOf j := rfl
@[simp] theorem State.updGleaner_bank (f : Gleaner → Gleaner) (j : Nat) : (s.updGleaner k f).bank j = s.bank j := rfl
@[simp] theorem State.updGleaner_grnDie (f : Gleaner → Gleaner) (j : Nat) : (s.updGleaner k f).grnDie j = s.grnDie j := rfl
@[simp] theorem State.updGleaner_hmcOf (f : Gleaner → Gleaner) (j : Nat) : (s.updGleaner k f).hmcOf j = s.hmcOf j := rfl
@[simp] theorem State.updGleaner_blkOf (f : Gleaner → Gleaner) (j : Nat) : (s.updGleaner k f).blkOf j = s.blkOf j := rfl
@[simp] theorem State.updGleaner_kvwOf (f : Gleaner → Gleaner) (j : Nat) : (s.updGleaner k f).kvwOf j = s.kvwOf j := rfl
@[simp] theorem State.updGleaner_stream (f : Gleaner → Gleaner) (j : Nat) : (s.updGleaner k f).stream j = s.stream j := rfl
@[simp] theorem State.updGleaner_portOf (f : Gleaner → Gleaner) (j : Nat) : (s.updGleaner k f).portOf j = s.portOf j := rfl
@[simp] theorem State.updGleaner_slotOf (f : Gleaner → Gleaner) (j : Nat) : (s.updGleaner k f).slotOf j = s.slotOf j := rfl
@[simp] theorem State.updGleaner_coreOf (f : Gleaner → Gleaner) (j : Nat) : (s.updGleaner k f).coreOf j = s.coreOf j := rfl
@[simp] theorem State.updGleaner_opc (f : Gleaner → Gleaner) (j : Nat) : (s.updGleaner k f).opc j = s.opc j := rfl
@[simp] theorem State.updGleaner_carder (f : Gleaner → Gleaner) (j : Nat) : (s.updGleaner k f).carder j = s.carder j := rfl
@[simp] theorem State.updGleaner_stage (f : Gleaner → Gleaner) (j : Nat) : (s.updGleaner k f).stage j = s.stage j := rfl
@[simp] theorem State.updGleaner_stest (f : Gleaner → Gleaner) (j : Nat) : (s.updGleaner k f).stest j = s.stest j := rfl
@[simp] theorem State.updGleaner_winOf (f : Gleaner → Gleaner) (j : Nat) : (s.updGleaner k f).winOf j = s.winOf j := rfl

theorem State.updHmc_self (f : Hmc → Hmc) : (s.updHmc k f).hmcOf k = f (s.hmcOf k) := Tab.get_upd_self _ _ _ _
theorem State.updHmc_ne (f : Hmc → Hmc) {j : Nat} (h : j ≠ k) : (s.updHmc k f).hmcOf j = s.hmcOf j := Tab.get_upd_ne _ _ h _
@[simp] theorem State.updHmc_hmcOf (f : Hmc → Hmc) (j : Nat) : (s.updHmc k f).hmcOf j = if j = k then f (s.hmcOf k) else s.hmcOf j :=
  Tab.get_upd _ _ _ _ _
@[simp] theorem State.updHmc_pending (f : Hmc → Hmc) : (s.updHmc k f).pending = s.pending := rfl
@[simp] theorem State.updHmc_freeCnt (f : Hmc → Hmc) : (s.updHmc k f).freeCnt = s.freeCnt := rfl
@[simp] theorem State.updHmc_time (f : Hmc → Hmc) : (s.updHmc k f).time = s.time := rfl
@[simp] theorem State.updHmc_pins (f : Hmc → Hmc) : (s.updHmc k f).pins = s.pins := rfl
@[simp] theorem State.updHmc_mem (f : Hmc → Hmc) : (s.updHmc k f).mem = s.mem := rfl
@[simp] theorem State.updHmc_fab (f : Hmc → Hmc) : (s.updHmc k f).fab = s.fab := rfl
@[simp] theorem State.updHmc_mbx (f : Hmc → Hmc) : (s.updHmc k f).mbx = s.mbx := rfl
@[simp] theorem State.updHmc_cmds (f : Hmc → Hmc) : (s.updHmc k f).cmds = s.cmds := rfl
@[simp] theorem State.updHmc_tly (f : Hmc → Hmc) : (s.updHmc k f).tly = s.tly := rfl
@[simp] theorem State.updHmc_cx (f : Hmc → Hmc) : (s.updHmc k f).cx = s.cx := rfl
@[simp] theorem State.updHmc_carders (f : Hmc → Hmc) : (s.updHmc k f).carders = s.carders := rfl
@[simp] theorem State.updHmc_grn (f : Hmc → Hmc) : (s.updHmc k f).grn = s.grn := rfl
@[simp] theorem State.updHmc_gln (f : Hmc → Hmc) : (s.updHmc k f).gln = s.gln := rfl
@[simp] theorem State.updHmc_kvw (f : Hmc → Hmc) : (s.updHmc k f).kvw = s.kvw := rfl
@[simp] theorem State.updHmc_blk (f : Hmc → Hmc) : (s.updHmc k f).blk = s.blk := rfl
@[simp] theorem State.updHmc_out (f : Hmc → Hmc) : (s.updHmc k f).out = s.out := rfl
@[simp] theorem State.updHmc_ing (f : Hmc → Hmc) : (s.updHmc k f).ing = s.ing := rfl
@[simp] theorem State.updHmc_cool (f : Hmc → Hmc) : (s.updHmc k f).cool = s.cool := rfl
@[simp] theorem State.updHmc_sw (f : Hmc → Hmc) : (s.updHmc k f).sw = s.sw := rfl
@[simp] theorem State.updHmc_kcp (f : Hmc → Hmc) : (s.updHmc k f).kcp = s.kcp := rfl
@[simp] theorem State.updHmc_core (f : Hmc → Hmc) : (s.updHmc k f).core = s.core := rfl
@[simp] theorem State.updHmc_hwa (f : Hmc → Hmc) : (s.updHmc k f).hwa = s.hwa := rfl
@[simp] theorem State.updHmc_hwb (f : Hmc → Hmc) : (s.updHmc k f).hwb = s.hwb := rfl
@[simp] theorem State.updHmc_pair (f : Hmc → Hmc) : (s.updHmc k f).pair = s.pair := rfl
@[simp] theorem State.updHmc_dnp (f : Hmc → Hmc) : (s.updHmc k f).dnp = s.dnp := rfl
@[simp] theorem State.updHmc_flt (f : Hmc → Hmc) : (s.updHmc k f).flt = s.flt := rfl
@[simp] theorem State.updHmc_boot (f : Hmc → Hmc) : (s.updHmc k f).boot = s.boot := rfl
@[simp] theorem State.updHmc_sec (f : Hmc → Hmc) : (s.updHmc k f).sec = s.sec := rfl
@[simp] theorem State.updHmc_thm (f : Hmc → Hmc) : (s.updHmc k f).thm = s.thm := rfl
@[simp] theorem State.updHmc_tap (f : Hmc → Hmc) : (s.updHmc k f).tap = s.tap := rfl
@[simp] theorem State.updHmc_eng (f : Hmc → Hmc) (j : Nat) : (s.updHmc k f).eng j = s.eng j := rfl
@[simp] theorem State.updHmc_ctxOf (f : Hmc → Hmc) (j : Nat) : (s.updHmc k f).ctxOf j = s.ctxOf j := rfl
@[simp] theorem State.updHmc_bank (f : Hmc → Hmc) (j : Nat) : (s.updHmc k f).bank j = s.bank j := rfl
@[simp] theorem State.updHmc_grnDie (f : Hmc → Hmc) (j : Nat) : (s.updHmc k f).grnDie j = s.grnDie j := rfl
@[simp] theorem State.updHmc_gleaner (f : Hmc → Hmc) (j : Nat) : (s.updHmc k f).gleaner j = s.gleaner j := rfl
@[simp] theorem State.updHmc_blkOf (f : Hmc → Hmc) (j : Nat) : (s.updHmc k f).blkOf j = s.blkOf j := rfl
@[simp] theorem State.updHmc_kvwOf (f : Hmc → Hmc) (j : Nat) : (s.updHmc k f).kvwOf j = s.kvwOf j := rfl
@[simp] theorem State.updHmc_stream (f : Hmc → Hmc) (j : Nat) : (s.updHmc k f).stream j = s.stream j := rfl
@[simp] theorem State.updHmc_portOf (f : Hmc → Hmc) (j : Nat) : (s.updHmc k f).portOf j = s.portOf j := rfl
@[simp] theorem State.updHmc_slotOf (f : Hmc → Hmc) (j : Nat) : (s.updHmc k f).slotOf j = s.slotOf j := rfl
@[simp] theorem State.updHmc_coreOf (f : Hmc → Hmc) (j : Nat) : (s.updHmc k f).coreOf j = s.coreOf j := rfl
@[simp] theorem State.updHmc_opc (f : Hmc → Hmc) (j : Nat) : (s.updHmc k f).opc j = s.opc j := rfl
@[simp] theorem State.updHmc_carder (f : Hmc → Hmc) (j : Nat) : (s.updHmc k f).carder j = s.carder j := rfl
@[simp] theorem State.updHmc_stage (f : Hmc → Hmc) (j : Nat) : (s.updHmc k f).stage j = s.stage j := rfl
@[simp] theorem State.updHmc_stest (f : Hmc → Hmc) (j : Nat) : (s.updHmc k f).stest j = s.stest j := rfl
@[simp] theorem State.updHmc_winOf (f : Hmc → Hmc) (j : Nat) : (s.updHmc k f).winOf j = s.winOf j := rfl

theorem State.updBlk_self (f : Blk → Blk) : (s.updBlk k f).blkOf k = f (s.blkOf k) := Tab.get_upd_self _ _ _ _
theorem State.updBlk_ne (f : Blk → Blk) {j : Nat} (h : j ≠ k) : (s.updBlk k f).blkOf j = s.blkOf j := Tab.get_upd_ne _ _ h _
@[simp] theorem State.updBlk_blkOf (f : Blk → Blk) (j : Nat) : (s.updBlk k f).blkOf j = if j = k then f (s.blkOf k) else s.blkOf j :=
  Tab.get_upd _ _ _ _ _
@[simp] theorem State.updBlk_pending (f : Blk → Blk) : (s.updBlk k f).pending = s.pending := rfl
@[simp] theorem State.updBlk_freeCnt (f : Blk → Blk) : (s.updBlk k f).freeCnt = s.freeCnt := rfl
@[simp] theorem State.updBlk_time (f : Blk → Blk) : (s.updBlk k f).time = s.time := rfl
@[simp] theorem State.updBlk_pins (f : Blk → Blk) : (s.updBlk k f).pins = s.pins := rfl
@[simp] theorem State.updBlk_mem (f : Blk → Blk) : (s.updBlk k f).mem = s.mem := rfl
@[simp] theorem State.updBlk_fab (f : Blk → Blk) : (s.updBlk k f).fab = s.fab := rfl
@[simp] theorem State.updBlk_mbx (f : Blk → Blk) : (s.updBlk k f).mbx = s.mbx := rfl
@[simp] theorem State.updBlk_cmds (f : Blk → Blk) : (s.updBlk k f).cmds = s.cmds := rfl
@[simp] theorem State.updBlk_tly (f : Blk → Blk) : (s.updBlk k f).tly = s.tly := rfl
@[simp] theorem State.updBlk_cx (f : Blk → Blk) : (s.updBlk k f).cx = s.cx := rfl
@[simp] theorem State.updBlk_carders (f : Blk → Blk) : (s.updBlk k f).carders = s.carders := rfl
@[simp] theorem State.updBlk_grn (f : Blk → Blk) : (s.updBlk k f).grn = s.grn := rfl
@[simp] theorem State.updBlk_gln (f : Blk → Blk) : (s.updBlk k f).gln = s.gln := rfl
@[simp] theorem State.updBlk_kvw (f : Blk → Blk) : (s.updBlk k f).kvw = s.kvw := rfl
@[simp] theorem State.updBlk_hmc (f : Blk → Blk) : (s.updBlk k f).hmc = s.hmc := rfl
@[simp] theorem State.updBlk_out (f : Blk → Blk) : (s.updBlk k f).out = s.out := rfl
@[simp] theorem State.updBlk_ing (f : Blk → Blk) : (s.updBlk k f).ing = s.ing := rfl
@[simp] theorem State.updBlk_cool (f : Blk → Blk) : (s.updBlk k f).cool = s.cool := rfl
@[simp] theorem State.updBlk_sw (f : Blk → Blk) : (s.updBlk k f).sw = s.sw := rfl
@[simp] theorem State.updBlk_kcp (f : Blk → Blk) : (s.updBlk k f).kcp = s.kcp := rfl
@[simp] theorem State.updBlk_core (f : Blk → Blk) : (s.updBlk k f).core = s.core := rfl
@[simp] theorem State.updBlk_hwa (f : Blk → Blk) : (s.updBlk k f).hwa = s.hwa := rfl
@[simp] theorem State.updBlk_hwb (f : Blk → Blk) : (s.updBlk k f).hwb = s.hwb := rfl
@[simp] theorem State.updBlk_pair (f : Blk → Blk) : (s.updBlk k f).pair = s.pair := rfl
@[simp] theorem State.updBlk_dnp (f : Blk → Blk) : (s.updBlk k f).dnp = s.dnp := rfl
@[simp] theorem State.updBlk_flt (f : Blk → Blk) : (s.updBlk k f).flt = s.flt := rfl
@[simp] theorem State.updBlk_boot (f : Blk → Blk) : (s.updBlk k f).boot = s.boot := rfl
@[simp] theorem State.updBlk_sec (f : Blk → Blk) : (s.updBlk k f).sec = s.sec := rfl
@[simp] theorem State.updBlk_thm (f : Blk → Blk) : (s.updBlk k f).thm = s.thm := rfl
@[simp] theorem State.updBlk_tap (f : Blk → Blk) : (s.updBlk k f).tap = s.tap := rfl
@[simp] theorem State.updBlk_eng (f : Blk → Blk) (j : Nat) : (s.updBlk k f).eng j = s.eng j := rfl
@[simp] theorem State.updBlk_ctxOf (f : Blk → Blk) (j : Nat) : (s.updBlk k f).ctxOf j = s.ctxOf j := rfl
@[simp] theorem State.updBlk_bank (f : Blk → Blk) (j : Nat) : (s.updBlk k f).bank j = s.bank j := rfl
@[simp] theorem State.updBlk_grnDie (f : Blk → Blk) (j : Nat) : (s.updBlk k f).grnDie j = s.grnDie j := rfl
@[simp] theorem State.updBlk_gleaner (f : Blk → Blk) (j : Nat) : (s.updBlk k f).gleaner j = s.gleaner j := rfl
@[simp] theorem State.updBlk_hmcOf (f : Blk → Blk) (j : Nat) : (s.updBlk k f).hmcOf j = s.hmcOf j := rfl
@[simp] theorem State.updBlk_kvwOf (f : Blk → Blk) (j : Nat) : (s.updBlk k f).kvwOf j = s.kvwOf j := rfl
@[simp] theorem State.updBlk_stream (f : Blk → Blk) (j : Nat) : (s.updBlk k f).stream j = s.stream j := rfl
@[simp] theorem State.updBlk_portOf (f : Blk → Blk) (j : Nat) : (s.updBlk k f).portOf j = s.portOf j := rfl
@[simp] theorem State.updBlk_slotOf (f : Blk → Blk) (j : Nat) : (s.updBlk k f).slotOf j = s.slotOf j := rfl
@[simp] theorem State.updBlk_coreOf (f : Blk → Blk) (j : Nat) : (s.updBlk k f).coreOf j = s.coreOf j := rfl
@[simp] theorem State.updBlk_opc (f : Blk → Blk) (j : Nat) : (s.updBlk k f).opc j = s.opc j := rfl
@[simp] theorem State.updBlk_carder (f : Blk → Blk) (j : Nat) : (s.updBlk k f).carder j = s.carder j := rfl
@[simp] theorem State.updBlk_stage (f : Blk → Blk) (j : Nat) : (s.updBlk k f).stage j = s.stage j := rfl
@[simp] theorem State.updBlk_stest (f : Blk → Blk) (j : Nat) : (s.updBlk k f).stest j = s.stest j := rfl
@[simp] theorem State.updBlk_winOf (f : Blk → Blk) (j : Nat) : (s.updBlk k f).winOf j = s.winOf j := rfl

theorem State.updKvw_self (f : KvwDie → KvwDie) : (s.updKvw k f).kvwOf k = f (s.kvwOf k) := Tab.get_upd_self _ _ _ _
theorem State.updKvw_ne (f : KvwDie → KvwDie) {j : Nat} (h : j ≠ k) : (s.updKvw k f).kvwOf j = s.kvwOf j := Tab.get_upd_ne _ _ h _
@[simp] theorem State.updKvw_kvwOf (f : KvwDie → KvwDie) (j : Nat) : (s.updKvw k f).kvwOf j = if j = k then f (s.kvwOf k) else s.kvwOf j :=
  Tab.get_upd _ _ _ _ _
@[simp] theorem State.updKvw_pending (f : KvwDie → KvwDie) : (s.updKvw k f).pending = s.pending := rfl
@[simp] theorem State.updKvw_freeCnt (f : KvwDie → KvwDie) : (s.updKvw k f).freeCnt = s.freeCnt := rfl
@[simp] theorem State.updKvw_time (f : KvwDie → KvwDie) : (s.updKvw k f).time = s.time := rfl
@[simp] theorem State.updKvw_pins (f : KvwDie → KvwDie) : (s.updKvw k f).pins = s.pins := rfl
@[simp] theorem State.updKvw_mem (f : KvwDie → KvwDie) : (s.updKvw k f).mem = s.mem := rfl
@[simp] theorem State.updKvw_fab (f : KvwDie → KvwDie) : (s.updKvw k f).fab = s.fab := rfl
@[simp] theorem State.updKvw_mbx (f : KvwDie → KvwDie) : (s.updKvw k f).mbx = s.mbx := rfl
@[simp] theorem State.updKvw_cmds (f : KvwDie → KvwDie) : (s.updKvw k f).cmds = s.cmds := rfl
@[simp] theorem State.updKvw_tly (f : KvwDie → KvwDie) : (s.updKvw k f).tly = s.tly := rfl
@[simp] theorem State.updKvw_cx (f : KvwDie → KvwDie) : (s.updKvw k f).cx = s.cx := rfl
@[simp] theorem State.updKvw_carders (f : KvwDie → KvwDie) : (s.updKvw k f).carders = s.carders := rfl
@[simp] theorem State.updKvw_grn (f : KvwDie → KvwDie) : (s.updKvw k f).grn = s.grn := rfl
@[simp] theorem State.updKvw_gln (f : KvwDie → KvwDie) : (s.updKvw k f).gln = s.gln := rfl
@[simp] theorem State.updKvw_hmc (f : KvwDie → KvwDie) : (s.updKvw k f).hmc = s.hmc := rfl
@[simp] theorem State.updKvw_blk (f : KvwDie → KvwDie) : (s.updKvw k f).blk = s.blk := rfl
@[simp] theorem State.updKvw_out (f : KvwDie → KvwDie) : (s.updKvw k f).out = s.out := rfl
@[simp] theorem State.updKvw_ing (f : KvwDie → KvwDie) : (s.updKvw k f).ing = s.ing := rfl
@[simp] theorem State.updKvw_cool (f : KvwDie → KvwDie) : (s.updKvw k f).cool = s.cool := rfl
@[simp] theorem State.updKvw_sw (f : KvwDie → KvwDie) : (s.updKvw k f).sw = s.sw := rfl
@[simp] theorem State.updKvw_kcp (f : KvwDie → KvwDie) : (s.updKvw k f).kcp = s.kcp := rfl
@[simp] theorem State.updKvw_core (f : KvwDie → KvwDie) : (s.updKvw k f).core = s.core := rfl
@[simp] theorem State.updKvw_hwa (f : KvwDie → KvwDie) : (s.updKvw k f).hwa = s.hwa := rfl
@[simp] theorem State.updKvw_hwb (f : KvwDie → KvwDie) : (s.updKvw k f).hwb = s.hwb := rfl
@[simp] theorem State.updKvw_pair (f : KvwDie → KvwDie) : (s.updKvw k f).pair = s.pair := rfl
@[simp] theorem State.updKvw_dnp (f : KvwDie → KvwDie) : (s.updKvw k f).dnp = s.dnp := rfl
@[simp] theorem State.updKvw_flt (f : KvwDie → KvwDie) : (s.updKvw k f).flt = s.flt := rfl
@[simp] theorem State.updKvw_boot (f : KvwDie → KvwDie) : (s.updKvw k f).boot = s.boot := rfl
@[simp] theorem State.updKvw_sec (f : KvwDie → KvwDie) : (s.updKvw k f).sec = s.sec := rfl
@[simp] theorem State.updKvw_thm (f : KvwDie → KvwDie) : (s.updKvw k f).thm = s.thm := rfl
@[simp] theorem State.updKvw_tap (f : KvwDie → KvwDie) : (s.updKvw k f).tap = s.tap := rfl
@[simp] theorem State.updKvw_eng (f : KvwDie → KvwDie) (j : Nat) : (s.updKvw k f).eng j = s.eng j := rfl
@[simp] theorem State.updKvw_ctxOf (f : KvwDie → KvwDie) (j : Nat) : (s.updKvw k f).ctxOf j = s.ctxOf j := rfl
@[simp] theorem State.updKvw_bank (f : KvwDie → KvwDie) (j : Nat) : (s.updKvw k f).bank j = s.bank j := rfl
@[simp] theorem State.updKvw_grnDie (f : KvwDie → KvwDie) (j : Nat) : (s.updKvw k f).grnDie j = s.grnDie j := rfl
@[simp] theorem State.updKvw_gleaner (f : KvwDie → KvwDie) (j : Nat) : (s.updKvw k f).gleaner j = s.gleaner j := rfl
@[simp] theorem State.updKvw_hmcOf (f : KvwDie → KvwDie) (j : Nat) : (s.updKvw k f).hmcOf j = s.hmcOf j := rfl
@[simp] theorem State.updKvw_blkOf (f : KvwDie → KvwDie) (j : Nat) : (s.updKvw k f).blkOf j = s.blkOf j := rfl
@[simp] theorem State.updKvw_stream (f : KvwDie → KvwDie) (j : Nat) : (s.updKvw k f).stream j = s.stream j := rfl
@[simp] theorem State.updKvw_portOf (f : KvwDie → KvwDie) (j : Nat) : (s.updKvw k f).portOf j = s.portOf j := rfl
@[simp] theorem State.updKvw_slotOf (f : KvwDie → KvwDie) (j : Nat) : (s.updKvw k f).slotOf j = s.slotOf j := rfl
@[simp] theorem State.updKvw_coreOf (f : KvwDie → KvwDie) (j : Nat) : (s.updKvw k f).coreOf j = s.coreOf j := rfl
@[simp] theorem State.updKvw_opc (f : KvwDie → KvwDie) (j : Nat) : (s.updKvw k f).opc j = s.opc j := rfl
@[simp] theorem State.updKvw_carder (f : KvwDie → KvwDie) (j : Nat) : (s.updKvw k f).carder j = s.carder j := rfl
@[simp] theorem State.updKvw_stage (f : KvwDie → KvwDie) (j : Nat) : (s.updKvw k f).stage j = s.stage j := rfl
@[simp] theorem State.updKvw_stest (f : KvwDie → KvwDie) (j : Nat) : (s.updKvw k f).stest j = s.stest j := rfl
@[simp] theorem State.updKvw_winOf (f : KvwDie → KvwDie) (j : Nat) : (s.updKvw k f).winOf j = s.winOf j := rfl

theorem State.updStream_self (f : IngStream → IngStream) : (s.updStream k f).stream k = f (s.stream k) := Tab.get_upd_self _ _ _ _
theorem State.updStream_ne (f : IngStream → IngStream) {j : Nat} (h : j ≠ k) : (s.updStream k f).stream j = s.stream j := Tab.get_upd_ne _ _ h _
@[simp] theorem State.updStream_stream (f : IngStream → IngStream) (j : Nat) : (s.updStream k f).stream j = if j = k then f (s.stream k) else s.stream j :=
  Tab.get_upd _ _ _ _ _
@[simp] theorem State.updStream_pending (f : IngStream → IngStream) : (s.updStream k f).pending = s.pending := rfl
@[simp] theorem State.updStream_freeCnt (f : IngStream → IngStream) : (s.updStream k f).freeCnt = s.freeCnt := rfl
@[simp] theorem State.updStream_time (f : IngStream → IngStream) : (s.updStream k f).time = s.time := rfl
@[simp] theorem State.updStream_pins (f : IngStream → IngStream) : (s.updStream k f).pins = s.pins := rfl
@[simp] theorem State.updStream_mem (f : IngStream → IngStream) : (s.updStream k f).mem = s.mem := rfl
@[simp] theorem State.updStream_fab (f : IngStream → IngStream) : (s.updStream k f).fab = s.fab := rfl
@[simp] theorem State.updStream_mbx (f : IngStream → IngStream) : (s.updStream k f).mbx = s.mbx := rfl
@[simp] theorem State.updStream_cmds (f : IngStream → IngStream) : (s.updStream k f).cmds = s.cmds := rfl
@[simp] theorem State.updStream_tly (f : IngStream → IngStream) : (s.updStream k f).tly = s.tly := rfl
@[simp] theorem State.updStream_cx (f : IngStream → IngStream) : (s.updStream k f).cx = s.cx := rfl
@[simp] theorem State.updStream_carders (f : IngStream → IngStream) : (s.updStream k f).carders = s.carders := rfl
@[simp] theorem State.updStream_grn (f : IngStream → IngStream) : (s.updStream k f).grn = s.grn := rfl
@[simp] theorem State.updStream_gln (f : IngStream → IngStream) : (s.updStream k f).gln = s.gln := rfl
@[simp] theorem State.updStream_kvw (f : IngStream → IngStream) : (s.updStream k f).kvw = s.kvw := rfl
@[simp] theorem State.updStream_hmc (f : IngStream → IngStream) : (s.updStream k f).hmc = s.hmc := rfl
@[simp] theorem State.updStream_blk (f : IngStream → IngStream) : (s.updStream k f).blk = s.blk := rfl
@[simp] theorem State.updStream_out (f : IngStream → IngStream) : (s.updStream k f).out = s.out := rfl
@[simp] theorem State.updStream_cool (f : IngStream → IngStream) : (s.updStream k f).cool = s.cool := rfl
@[simp] theorem State.updStream_sw (f : IngStream → IngStream) : (s.updStream k f).sw = s.sw := rfl
@[simp] theorem State.updStream_kcp (f : IngStream → IngStream) : (s.updStream k f).kcp = s.kcp := rfl
@[simp] theorem State.updStream_core (f : IngStream → IngStream) : (s.updStream k f).core = s.core := rfl
@[simp] theorem State.updStream_hwa (f : IngStream → IngStream) : (s.updStream k f).hwa = s.hwa := rfl
@[simp] theorem State.updStream_hwb (f : IngStream → IngStream) : (s.updStream k f).hwb = s.hwb := rfl
@[simp] theorem State.updStream_pair (f : IngStream → IngStream) : (s.updStream k f).pair = s.pair := rfl
@[simp] theorem State.updStream_dnp (f : IngStream → IngStream) : (s.updStream k f).dnp = s.dnp := rfl
@[simp] theorem State.updStream_flt (f : IngStream → IngStream) : (s.updStream k f).flt = s.flt := rfl
@[simp] theorem State.updStream_boot (f : IngStream → IngStream) : (s.updStream k f).boot = s.boot := rfl
@[simp] theorem State.updStream_sec (f : IngStream → IngStream) : (s.updStream k f).sec = s.sec := rfl
@[simp] theorem State.updStream_thm (f : IngStream → IngStream) : (s.updStream k f).thm = s.thm := rfl
@[simp] theorem State.updStream_tap (f : IngStream → IngStream) : (s.updStream k f).tap = s.tap := rfl
@[simp] theorem State.updStream_eng (f : IngStream → IngStream) (j : Nat) : (s.updStream k f).eng j = s.eng j := rfl
@[simp] theorem State.updStream_ctxOf (f : IngStream → IngStream) (j : Nat) : (s.updStream k f).ctxOf j = s.ctxOf j := rfl
@[simp] theorem State.updStream_bank (f : IngStream → IngStream) (j : Nat) : (s.updStream k f).bank j = s.bank j := rfl
@[simp] theorem State.updStream_grnDie (f : IngStream → IngStream) (j : Nat) : (s.updStream k f).grnDie j = s.grnDie j := rfl
@[simp] theorem State.updStream_gleaner (f : IngStream → IngStream) (j : Nat) : (s.updStream k f).gleaner j = s.gleaner j := rfl
@[simp] theorem State.updStream_hmcOf (f : IngStream → IngStream) (j : Nat) : (s.updStream k f).hmcOf j = s.hmcOf j := rfl
@[simp] theorem State.updStream_blkOf (f : IngStream → IngStream) (j : Nat) : (s.updStream k f).blkOf j = s.blkOf j := rfl
@[simp] theorem State.updStream_kvwOf (f : IngStream → IngStream) (j : Nat) : (s.updStream k f).kvwOf j = s.kvwOf j := rfl
@[simp] theorem State.updStream_portOf (f : IngStream → IngStream) (j : Nat) : (s.updStream k f).portOf j = s.portOf j := rfl
@[simp] theorem State.updStream_slotOf (f : IngStream → IngStream) (j : Nat) : (s.updStream k f).slotOf j = s.slotOf j := rfl
@[simp] theorem State.updStream_coreOf (f : IngStream → IngStream) (j : Nat) : (s.updStream k f).coreOf j = s.coreOf j := rfl
@[simp] theorem State.updStream_opc (f : IngStream → IngStream) (j : Nat) : (s.updStream k f).opc j = s.opc j := rfl
@[simp] theorem State.updStream_carder (f : IngStream → IngStream) (j : Nat) : (s.updStream k f).carder j = s.carder j := rfl
@[simp] theorem State.updStream_stage (f : IngStream → IngStream) (j : Nat) : (s.updStream k f).stage j = s.stage j := rfl
@[simp] theorem State.updStream_stest (f : IngStream → IngStream) (j : Nat) : (s.updStream k f).stest j = s.stest j := rfl
@[simp] theorem State.updStream_winOf (f : IngStream → IngStream) (j : Nat) : (s.updStream k f).winOf j = s.winOf j := rfl

theorem State.updPort_self (f : SwPort → SwPort) : (s.updPort k f).portOf k = f (s.portOf k) := Tab.get_upd_self _ _ _ _
theorem State.updPort_ne (f : SwPort → SwPort) {j : Nat} (h : j ≠ k) : (s.updPort k f).portOf j = s.portOf j := Tab.get_upd_ne _ _ h _
@[simp] theorem State.updPort_portOf (f : SwPort → SwPort) (j : Nat) : (s.updPort k f).portOf j = if j = k then f (s.portOf k) else s.portOf j :=
  Tab.get_upd _ _ _ _ _
@[simp] theorem State.updPort_pending (f : SwPort → SwPort) : (s.updPort k f).pending = s.pending := rfl
@[simp] theorem State.updPort_freeCnt (f : SwPort → SwPort) : (s.updPort k f).freeCnt = s.freeCnt := rfl
@[simp] theorem State.updPort_time (f : SwPort → SwPort) : (s.updPort k f).time = s.time := rfl
@[simp] theorem State.updPort_pins (f : SwPort → SwPort) : (s.updPort k f).pins = s.pins := rfl
@[simp] theorem State.updPort_mem (f : SwPort → SwPort) : (s.updPort k f).mem = s.mem := rfl
@[simp] theorem State.updPort_fab (f : SwPort → SwPort) : (s.updPort k f).fab = s.fab := rfl
@[simp] theorem State.updPort_mbx (f : SwPort → SwPort) : (s.updPort k f).mbx = s.mbx := rfl
@[simp] theorem State.updPort_cmds (f : SwPort → SwPort) : (s.updPort k f).cmds = s.cmds := rfl
@[simp] theorem State.updPort_tly (f : SwPort → SwPort) : (s.updPort k f).tly = s.tly := rfl
@[simp] theorem State.updPort_cx (f : SwPort → SwPort) : (s.updPort k f).cx = s.cx := rfl
@[simp] theorem State.updPort_carders (f : SwPort → SwPort) : (s.updPort k f).carders = s.carders := rfl
@[simp] theorem State.updPort_grn (f : SwPort → SwPort) : (s.updPort k f).grn = s.grn := rfl
@[simp] theorem State.updPort_gln (f : SwPort → SwPort) : (s.updPort k f).gln = s.gln := rfl
@[simp] theorem State.updPort_kvw (f : SwPort → SwPort) : (s.updPort k f).kvw = s.kvw := rfl
@[simp] theorem State.updPort_hmc (f : SwPort → SwPort) : (s.updPort k f).hmc = s.hmc := rfl
@[simp] theorem State.updPort_blk (f : SwPort → SwPort) : (s.updPort k f).blk = s.blk := rfl
@[simp] theorem State.updPort_out (f : SwPort → SwPort) : (s.updPort k f).out = s.out := rfl
@[simp] theorem State.updPort_ing (f : SwPort → SwPort) : (s.updPort k f).ing = s.ing := rfl
@[simp] theorem State.updPort_cool (f : SwPort → SwPort) : (s.updPort k f).cool = s.cool := rfl
@[simp] theorem State.updPort_kcp (f : SwPort → SwPort) : (s.updPort k f).kcp = s.kcp := rfl
@[simp] theorem State.updPort_core (f : SwPort → SwPort) : (s.updPort k f).core = s.core := rfl
@[simp] theorem State.updPort_hwa (f : SwPort → SwPort) : (s.updPort k f).hwa = s.hwa := rfl
@[simp] theorem State.updPort_hwb (f : SwPort → SwPort) : (s.updPort k f).hwb = s.hwb := rfl
@[simp] theorem State.updPort_pair (f : SwPort → SwPort) : (s.updPort k f).pair = s.pair := rfl
@[simp] theorem State.updPort_dnp (f : SwPort → SwPort) : (s.updPort k f).dnp = s.dnp := rfl
@[simp] theorem State.updPort_flt (f : SwPort → SwPort) : (s.updPort k f).flt = s.flt := rfl
@[simp] theorem State.updPort_boot (f : SwPort → SwPort) : (s.updPort k f).boot = s.boot := rfl
@[simp] theorem State.updPort_sec (f : SwPort → SwPort) : (s.updPort k f).sec = s.sec := rfl
@[simp] theorem State.updPort_thm (f : SwPort → SwPort) : (s.updPort k f).thm = s.thm := rfl
@[simp] theorem State.updPort_tap (f : SwPort → SwPort) : (s.updPort k f).tap = s.tap := rfl
@[simp] theorem State.updPort_eng (f : SwPort → SwPort) (j : Nat) : (s.updPort k f).eng j = s.eng j := rfl
@[simp] theorem State.updPort_ctxOf (f : SwPort → SwPort) (j : Nat) : (s.updPort k f).ctxOf j = s.ctxOf j := rfl
@[simp] theorem State.updPort_bank (f : SwPort → SwPort) (j : Nat) : (s.updPort k f).bank j = s.bank j := rfl
@[simp] theorem State.updPort_grnDie (f : SwPort → SwPort) (j : Nat) : (s.updPort k f).grnDie j = s.grnDie j := rfl
@[simp] theorem State.updPort_gleaner (f : SwPort → SwPort) (j : Nat) : (s.updPort k f).gleaner j = s.gleaner j := rfl
@[simp] theorem State.updPort_hmcOf (f : SwPort → SwPort) (j : Nat) : (s.updPort k f).hmcOf j = s.hmcOf j := rfl
@[simp] theorem State.updPort_blkOf (f : SwPort → SwPort) (j : Nat) : (s.updPort k f).blkOf j = s.blkOf j := rfl
@[simp] theorem State.updPort_kvwOf (f : SwPort → SwPort) (j : Nat) : (s.updPort k f).kvwOf j = s.kvwOf j := rfl
@[simp] theorem State.updPort_stream (f : SwPort → SwPort) (j : Nat) : (s.updPort k f).stream j = s.stream j := rfl
@[simp] theorem State.updPort_slotOf (f : SwPort → SwPort) (j : Nat) : (s.updPort k f).slotOf j = s.slotOf j := rfl
@[simp] theorem State.updPort_coreOf (f : SwPort → SwPort) (j : Nat) : (s.updPort k f).coreOf j = s.coreOf j := rfl
@[simp] theorem State.updPort_opc (f : SwPort → SwPort) (j : Nat) : (s.updPort k f).opc j = s.opc j := rfl
@[simp] theorem State.updPort_carder (f : SwPort → SwPort) (j : Nat) : (s.updPort k f).carder j = s.carder j := rfl
@[simp] theorem State.updPort_stage (f : SwPort → SwPort) (j : Nat) : (s.updPort k f).stage j = s.stage j := rfl
@[simp] theorem State.updPort_stest (f : SwPort → SwPort) (j : Nat) : (s.updPort k f).stest j = s.stest j := rfl
@[simp] theorem State.updPort_winOf (f : SwPort → SwPort) (j : Nat) : (s.updPort k f).winOf j = s.winOf j := rfl

theorem State.updSlot_self (f : Slot → Slot) : (s.updSlot k f).slotOf k = f (s.slotOf k) := Tab.get_upd_self _ _ _ _
theorem State.updSlot_ne (f : Slot → Slot) {j : Nat} (h : j ≠ k) : (s.updSlot k f).slotOf j = s.slotOf j := Tab.get_upd_ne _ _ h _
@[simp] theorem State.updSlot_slotOf (f : Slot → Slot) (j : Nat) : (s.updSlot k f).slotOf j = if j = k then f (s.slotOf k) else s.slotOf j :=
  Tab.get_upd _ _ _ _ _
@[simp] theorem State.updSlot_pending (f : Slot → Slot) : (s.updSlot k f).pending = s.pending := rfl
@[simp] theorem State.updSlot_freeCnt (f : Slot → Slot) : (s.updSlot k f).freeCnt = s.freeCnt := rfl
@[simp] theorem State.updSlot_time (f : Slot → Slot) : (s.updSlot k f).time = s.time := rfl
@[simp] theorem State.updSlot_pins (f : Slot → Slot) : (s.updSlot k f).pins = s.pins := rfl
@[simp] theorem State.updSlot_mem (f : Slot → Slot) : (s.updSlot k f).mem = s.mem := rfl
@[simp] theorem State.updSlot_fab (f : Slot → Slot) : (s.updSlot k f).fab = s.fab := rfl
@[simp] theorem State.updSlot_cmds (f : Slot → Slot) : (s.updSlot k f).cmds = s.cmds := rfl
@[simp] theorem State.updSlot_tly (f : Slot → Slot) : (s.updSlot k f).tly = s.tly := rfl
@[simp] theorem State.updSlot_cx (f : Slot → Slot) : (s.updSlot k f).cx = s.cx := rfl
@[simp] theorem State.updSlot_carders (f : Slot → Slot) : (s.updSlot k f).carders = s.carders := rfl
@[simp] theorem State.updSlot_grn (f : Slot → Slot) : (s.updSlot k f).grn = s.grn := rfl
@[simp] theorem State.updSlot_gln (f : Slot → Slot) : (s.updSlot k f).gln = s.gln := rfl
@[simp] theorem State.updSlot_kvw (f : Slot → Slot) : (s.updSlot k f).kvw = s.kvw := rfl
@[simp] theorem State.updSlot_hmc (f : Slot → Slot) : (s.updSlot k f).hmc = s.hmc := rfl
@[simp] theorem State.updSlot_blk (f : Slot → Slot) : (s.updSlot k f).blk = s.blk := rfl
@[simp] theorem State.updSlot_out (f : Slot → Slot) : (s.updSlot k f).out = s.out := rfl
@[simp] theorem State.updSlot_ing (f : Slot → Slot) : (s.updSlot k f).ing = s.ing := rfl
@[simp] theorem State.updSlot_cool (f : Slot → Slot) : (s.updSlot k f).cool = s.cool := rfl
@[simp] theorem State.updSlot_sw (f : Slot → Slot) : (s.updSlot k f).sw = s.sw := rfl
@[simp] theorem State.updSlot_kcp (f : Slot → Slot) : (s.updSlot k f).kcp = s.kcp := rfl
@[simp] theorem State.updSlot_core (f : Slot → Slot) : (s.updSlot k f).core = s.core := rfl
@[simp] theorem State.updSlot_hwa (f : Slot → Slot) : (s.updSlot k f).hwa = s.hwa := rfl
@[simp] theorem State.updSlot_hwb (f : Slot → Slot) : (s.updSlot k f).hwb = s.hwb := rfl
@[simp] theorem State.updSlot_pair (f : Slot → Slot) : (s.updSlot k f).pair = s.pair := rfl
@[simp] theorem State.updSlot_dnp (f : Slot → Slot) : (s.updSlot k f).dnp = s.dnp := rfl
@[simp] theorem State.updSlot_flt (f : Slot → Slot) : (s.updSlot k f).flt = s.flt := rfl
@[simp] theorem State.updSlot_boot (f : Slot → Slot) : (s.updSlot k f).boot = s.boot := rfl
@[simp] theorem State.updSlot_sec (f : Slot → Slot) : (s.updSlot k f).sec = s.sec := rfl
@[simp] theorem State.updSlot_thm (f : Slot → Slot) : (s.updSlot k f).thm = s.thm := rfl
@[simp] theorem State.updSlot_tap (f : Slot → Slot) : (s.updSlot k f).tap = s.tap := rfl
@[simp] theorem State.updSlot_eng (f : Slot → Slot) (j : Nat) : (s.updSlot k f).eng j = s.eng j := rfl
@[simp] theorem State.updSlot_ctxOf (f : Slot → Slot) (j : Nat) : (s.updSlot k f).ctxOf j = s.ctxOf j := rfl
@[simp] theorem State.updSlot_bank (f : Slot → Slot) (j : Nat) : (s.updSlot k f).bank j = s.bank j := rfl
@[simp] theorem State.updSlot_grnDie (f : Slot → Slot) (j : Nat) : (s.updSlot k f).grnDie j = s.grnDie j := rfl
@[simp] theorem State.updSlot_gleaner (f : Slot → Slot) (j : Nat) : (s.updSlot k f).gleaner j = s.gleaner j := rfl
@[simp] theorem State.updSlot_hmcOf (f : Slot → Slot) (j : Nat) : (s.updSlot k f).hmcOf j = s.hmcOf j := rfl
@[simp] theorem State.updSlot_blkOf (f : Slot → Slot) (j : Nat) : (s.updSlot k f).blkOf j = s.blkOf j := rfl
@[simp] theorem State.updSlot_kvwOf (f : Slot → Slot) (j : Nat) : (s.updSlot k f).kvwOf j = s.kvwOf j := rfl
@[simp] theorem State.updSlot_stream (f : Slot → Slot) (j : Nat) : (s.updSlot k f).stream j = s.stream j := rfl
@[simp] theorem State.updSlot_portOf (f : Slot → Slot) (j : Nat) : (s.updSlot k f).portOf j = s.portOf j := rfl
@[simp] theorem State.updSlot_coreOf (f : Slot → Slot) (j : Nat) : (s.updSlot k f).coreOf j = s.coreOf j := rfl
@[simp] theorem State.updSlot_opc (f : Slot → Slot) (j : Nat) : (s.updSlot k f).opc j = s.opc j := rfl
@[simp] theorem State.updSlot_carder (f : Slot → Slot) (j : Nat) : (s.updSlot k f).carder j = s.carder j := rfl
@[simp] theorem State.updSlot_stage (f : Slot → Slot) (j : Nat) : (s.updSlot k f).stage j = s.stage j := rfl
@[simp] theorem State.updSlot_stest (f : Slot → Slot) (j : Nat) : (s.updSlot k f).stest j = s.stest j := rfl
@[simp] theorem State.updSlot_winOf (f : Slot → Slot) (j : Nat) : (s.updSlot k f).winOf j = s.winOf j := rfl

theorem State.updCoreOf_self (f : Core → Core) : (s.updCoreOf k f).coreOf k = f (s.coreOf k) := Tab.get_upd_self _ _ _ _
theorem State.updCoreOf_ne (f : Core → Core) {j : Nat} (h : j ≠ k) : (s.updCoreOf k f).coreOf j = s.coreOf j := Tab.get_upd_ne _ _ h _
@[simp] theorem State.updCoreOf_coreOf (f : Core → Core) (j : Nat) : (s.updCoreOf k f).coreOf j = if j = k then f (s.coreOf k) else s.coreOf j :=
  Tab.get_upd _ _ _ _ _
@[simp] theorem State.updCoreOf_pending (f : Core → Core) : (s.updCoreOf k f).pending = s.pending := rfl
@[simp] theorem State.updCoreOf_freeCnt (f : Core → Core) : (s.updCoreOf k f).freeCnt = s.freeCnt := rfl
@[simp] theorem State.updCoreOf_time (f : Core → Core) : (s.updCoreOf k f).time = s.time := rfl
@[simp] theorem State.updCoreOf_pins (f : Core → Core) : (s.updCoreOf k f).pins = s.pins := rfl
@[simp] theorem State.updCoreOf_mem (f : Core → Core) : (s.updCoreOf k f).mem = s.mem := rfl
@[simp] theorem State.updCoreOf_fab (f : Core → Core) : (s.updCoreOf k f).fab = s.fab := rfl
@[simp] theorem State.updCoreOf_mbx (f : Core → Core) : (s.updCoreOf k f).mbx = s.mbx := rfl
@[simp] theorem State.updCoreOf_cmds (f : Core → Core) : (s.updCoreOf k f).cmds = s.cmds := rfl
@[simp] theorem State.updCoreOf_tly (f : Core → Core) : (s.updCoreOf k f).tly = s.tly := rfl
@[simp] theorem State.updCoreOf_cx (f : Core → Core) : (s.updCoreOf k f).cx = s.cx := rfl
@[simp] theorem State.updCoreOf_carders (f : Core → Core) : (s.updCoreOf k f).carders = s.carders := rfl
@[simp] theorem State.updCoreOf_grn (f : Core → Core) : (s.updCoreOf k f).grn = s.grn := rfl
@[simp] theorem State.updCoreOf_gln (f : Core → Core) : (s.updCoreOf k f).gln = s.gln := rfl
@[simp] theorem State.updCoreOf_kvw (f : Core → Core) : (s.updCoreOf k f).kvw = s.kvw := rfl
@[simp] theorem State.updCoreOf_hmc (f : Core → Core) : (s.updCoreOf k f).hmc = s.hmc := rfl
@[simp] theorem State.updCoreOf_blk (f : Core → Core) : (s.updCoreOf k f).blk = s.blk := rfl
@[simp] theorem State.updCoreOf_out (f : Core → Core) : (s.updCoreOf k f).out = s.out := rfl
@[simp] theorem State.updCoreOf_ing (f : Core → Core) : (s.updCoreOf k f).ing = s.ing := rfl
@[simp] theorem State.updCoreOf_cool (f : Core → Core) : (s.updCoreOf k f).cool = s.cool := rfl
@[simp] theorem State.updCoreOf_sw (f : Core → Core) : (s.updCoreOf k f).sw = s.sw := rfl
@[simp] theorem State.updCoreOf_kcp (f : Core → Core) : (s.updCoreOf k f).kcp = s.kcp := rfl
@[simp] theorem State.updCoreOf_hwa (f : Core → Core) : (s.updCoreOf k f).hwa = s.hwa := rfl
@[simp] theorem State.updCoreOf_hwb (f : Core → Core) : (s.updCoreOf k f).hwb = s.hwb := rfl
@[simp] theorem State.updCoreOf_pair (f : Core → Core) : (s.updCoreOf k f).pair = s.pair := rfl
@[simp] theorem State.updCoreOf_dnp (f : Core → Core) : (s.updCoreOf k f).dnp = s.dnp := rfl
@[simp] theorem State.updCoreOf_flt (f : Core → Core) : (s.updCoreOf k f).flt = s.flt := rfl
@[simp] theorem State.updCoreOf_boot (f : Core → Core) : (s.updCoreOf k f).boot = s.boot := rfl
@[simp] theorem State.updCoreOf_sec (f : Core → Core) : (s.updCoreOf k f).sec = s.sec := rfl
@[simp] theorem State.updCoreOf_thm (f : Core → Core) : (s.updCoreOf k f).thm = s.thm := rfl
@[simp] theorem State.updCoreOf_tap (f : Core → Core) : (s.updCoreOf k f).tap = s.tap := rfl
@[simp] theorem State.updCoreOf_eng (f : Core → Core) (j : Nat) : (s.updCoreOf k f).eng j = s.eng j := rfl
@[simp] theorem State.updCoreOf_ctxOf (f : Core → Core) (j : Nat) : (s.updCoreOf k f).ctxOf j = s.ctxOf j := rfl
@[simp] theorem State.updCoreOf_bank (f : Core → Core) (j : Nat) : (s.updCoreOf k f).bank j = s.bank j := rfl
@[simp] theorem State.updCoreOf_grnDie (f : Core → Core) (j : Nat) : (s.updCoreOf k f).grnDie j = s.grnDie j := rfl
@[simp] theorem State.updCoreOf_gleaner (f : Core → Core) (j : Nat) : (s.updCoreOf k f).gleaner j = s.gleaner j := rfl
@[simp] theorem State.updCoreOf_hmcOf (f : Core → Core) (j : Nat) : (s.updCoreOf k f).hmcOf j = s.hmcOf j := rfl
@[simp] theorem State.updCoreOf_blkOf (f : Core → Core) (j : Nat) : (s.updCoreOf k f).blkOf j = s.blkOf j := rfl
@[simp] theorem State.updCoreOf_kvwOf (f : Core → Core) (j : Nat) : (s.updCoreOf k f).kvwOf j = s.kvwOf j := rfl
@[simp] theorem State.updCoreOf_stream (f : Core → Core) (j : Nat) : (s.updCoreOf k f).stream j = s.stream j := rfl
@[simp] theorem State.updCoreOf_portOf (f : Core → Core) (j : Nat) : (s.updCoreOf k f).portOf j = s.portOf j := rfl
@[simp] theorem State.updCoreOf_slotOf (f : Core → Core) (j : Nat) : (s.updCoreOf k f).slotOf j = s.slotOf j := rfl
@[simp] theorem State.updCoreOf_opc (f : Core → Core) (j : Nat) : (s.updCoreOf k f).opc j = s.opc j := rfl
@[simp] theorem State.updCoreOf_carder (f : Core → Core) (j : Nat) : (s.updCoreOf k f).carder j = s.carder j := rfl
@[simp] theorem State.updCoreOf_stage (f : Core → Core) (j : Nat) : (s.updCoreOf k f).stage j = s.stage j := rfl
@[simp] theorem State.updCoreOf_stest (f : Core → Core) (j : Nat) : (s.updCoreOf k f).stest j = s.stest j := rfl
@[simp] theorem State.updCoreOf_winOf (f : Core → Core) (j : Nat) : (s.updCoreOf k f).winOf j = s.winOf j := rfl

theorem State.updOpc_self (f : OpcDie → OpcDie) : (s.updOpc k f).opc k = f (s.opc k) := Tab.get_upd_self _ _ _ _
theorem State.updOpc_ne (f : OpcDie → OpcDie) {j : Nat} (h : j ≠ k) : (s.updOpc k f).opc j = s.opc j := Tab.get_upd_ne _ _ h _
@[simp] theorem State.updOpc_opc (f : OpcDie → OpcDie) (j : Nat) : (s.updOpc k f).opc j = if j = k then f (s.opc k) else s.opc j :=
  Tab.get_upd _ _ _ _ _
@[simp] theorem State.updOpc_pending (f : OpcDie → OpcDie) : (s.updOpc k f).pending = s.pending := rfl
@[simp] theorem State.updOpc_freeCnt (f : OpcDie → OpcDie) : (s.updOpc k f).freeCnt = s.freeCnt := rfl
@[simp] theorem State.updOpc_time (f : OpcDie → OpcDie) : (s.updOpc k f).time = s.time := rfl
@[simp] theorem State.updOpc_pins (f : OpcDie → OpcDie) : (s.updOpc k f).pins = s.pins := rfl
@[simp] theorem State.updOpc_mem (f : OpcDie → OpcDie) : (s.updOpc k f).mem = s.mem := rfl
@[simp] theorem State.updOpc_fab (f : OpcDie → OpcDie) : (s.updOpc k f).fab = s.fab := rfl
@[simp] theorem State.updOpc_mbx (f : OpcDie → OpcDie) : (s.updOpc k f).mbx = s.mbx := rfl
@[simp] theorem State.updOpc_cmds (f : OpcDie → OpcDie) : (s.updOpc k f).cmds = s.cmds := rfl
@[simp] theorem State.updOpc_tly (f : OpcDie → OpcDie) : (s.updOpc k f).tly = s.tly := rfl
@[simp] theorem State.updOpc_cx (f : OpcDie → OpcDie) : (s.updOpc k f).cx = s.cx := rfl
@[simp] theorem State.updOpc_carders (f : OpcDie → OpcDie) : (s.updOpc k f).carders = s.carders := rfl
@[simp] theorem State.updOpc_grn (f : OpcDie → OpcDie) : (s.updOpc k f).grn = s.grn := rfl
@[simp] theorem State.updOpc_gln (f : OpcDie → OpcDie) : (s.updOpc k f).gln = s.gln := rfl
@[simp] theorem State.updOpc_kvw (f : OpcDie → OpcDie) : (s.updOpc k f).kvw = s.kvw := rfl
@[simp] theorem State.updOpc_hmc (f : OpcDie → OpcDie) : (s.updOpc k f).hmc = s.hmc := rfl
@[simp] theorem State.updOpc_blk (f : OpcDie → OpcDie) : (s.updOpc k f).blk = s.blk := rfl
@[simp] theorem State.updOpc_out (f : OpcDie → OpcDie) : (s.updOpc k f).out = s.out := rfl
@[simp] theorem State.updOpc_ing (f : OpcDie → OpcDie) : (s.updOpc k f).ing = s.ing := rfl
@[simp] theorem State.updOpc_cool (f : OpcDie → OpcDie) : (s.updOpc k f).cool = s.cool := rfl
@[simp] theorem State.updOpc_sw (f : OpcDie → OpcDie) : (s.updOpc k f).sw = s.sw := rfl
@[simp] theorem State.updOpc_kcp (f : OpcDie → OpcDie) : (s.updOpc k f).kcp = s.kcp := rfl
@[simp] theorem State.updOpc_core (f : OpcDie → OpcDie) : (s.updOpc k f).core = s.core := rfl
@[simp] theorem State.updOpc_hwa (f : OpcDie → OpcDie) : (s.updOpc k f).hwa = s.hwa := rfl
@[simp] theorem State.updOpc_hwb (f : OpcDie → OpcDie) : (s.updOpc k f).hwb = s.hwb := rfl
@[simp] theorem State.updOpc_pair (f : OpcDie → OpcDie) : (s.updOpc k f).pair = s.pair := rfl
@[simp] theorem State.updOpc_dnp (f : OpcDie → OpcDie) : (s.updOpc k f).dnp = s.dnp := rfl
@[simp] theorem State.updOpc_flt (f : OpcDie → OpcDie) : (s.updOpc k f).flt = s.flt := rfl
@[simp] theorem State.updOpc_boot (f : OpcDie → OpcDie) : (s.updOpc k f).boot = s.boot := rfl
@[simp] theorem State.updOpc_sec (f : OpcDie → OpcDie) : (s.updOpc k f).sec = s.sec := rfl
@[simp] theorem State.updOpc_tap (f : OpcDie → OpcDie) : (s.updOpc k f).tap = s.tap := rfl
@[simp] theorem State.updOpc_eng (f : OpcDie → OpcDie) (j : Nat) : (s.updOpc k f).eng j = s.eng j := rfl
@[simp] theorem State.updOpc_ctxOf (f : OpcDie → OpcDie) (j : Nat) : (s.updOpc k f).ctxOf j = s.ctxOf j := rfl
@[simp] theorem State.updOpc_bank (f : OpcDie → OpcDie) (j : Nat) : (s.updOpc k f).bank j = s.bank j := rfl
@[simp] theorem State.updOpc_grnDie (f : OpcDie → OpcDie) (j : Nat) : (s.updOpc k f).grnDie j = s.grnDie j := rfl
@[simp] theorem State.updOpc_gleaner (f : OpcDie → OpcDie) (j : Nat) : (s.updOpc k f).gleaner j = s.gleaner j := rfl
@[simp] theorem State.updOpc_hmcOf (f : OpcDie → OpcDie) (j : Nat) : (s.updOpc k f).hmcOf j = s.hmcOf j := rfl
@[simp] theorem State.updOpc_blkOf (f : OpcDie → OpcDie) (j : Nat) : (s.updOpc k f).blkOf j = s.blkOf j := rfl
@[simp] theorem State.updOpc_kvwOf (f : OpcDie → OpcDie) (j : Nat) : (s.updOpc k f).kvwOf j = s.kvwOf j := rfl
@[simp] theorem State.updOpc_stream (f : OpcDie → OpcDie) (j : Nat) : (s.updOpc k f).stream j = s.stream j := rfl
@[simp] theorem State.updOpc_portOf (f : OpcDie → OpcDie) (j : Nat) : (s.updOpc k f).portOf j = s.portOf j := rfl
@[simp] theorem State.updOpc_slotOf (f : OpcDie → OpcDie) (j : Nat) : (s.updOpc k f).slotOf j = s.slotOf j := rfl
@[simp] theorem State.updOpc_coreOf (f : OpcDie → OpcDie) (j : Nat) : (s.updOpc k f).coreOf j = s.coreOf j := rfl
@[simp] theorem State.updOpc_carder (f : OpcDie → OpcDie) (j : Nat) : (s.updOpc k f).carder j = s.carder j := rfl
@[simp] theorem State.updOpc_stage (f : OpcDie → OpcDie) (j : Nat) : (s.updOpc k f).stage j = s.stage j := rfl
@[simp] theorem State.updOpc_stest (f : OpcDie → OpcDie) (j : Nat) : (s.updOpc k f).stest j = s.stest j := rfl
@[simp] theorem State.updOpc_winOf (f : OpcDie → OpcDie) (j : Nat) : (s.updOpc k f).winOf j = s.winOf j := rfl

theorem State.updCarder_self (f : Carder → Carder) : (s.updCarder k f).carder k = f (s.carder k) := Tab.get_upd_self _ _ _ _
theorem State.updCarder_ne (f : Carder → Carder) {j : Nat} (h : j ≠ k) : (s.updCarder k f).carder j = s.carder j := Tab.get_upd_ne _ _ h _
@[simp] theorem State.updCarder_carder (f : Carder → Carder) (j : Nat) : (s.updCarder k f).carder j = if j = k then f (s.carder k) else s.carder j :=
  Tab.get_upd _ _ _ _ _
@[simp] theorem State.updCarder_pending (f : Carder → Carder) : (s.updCarder k f).pending = s.pending := rfl
@[simp] theorem State.updCarder_freeCnt (f : Carder → Carder) : (s.updCarder k f).freeCnt = s.freeCnt := rfl
@[simp] theorem State.updCarder_time (f : Carder → Carder) : (s.updCarder k f).time = s.time := rfl
@[simp] theorem State.updCarder_pins (f : Carder → Carder) : (s.updCarder k f).pins = s.pins := rfl
@[simp] theorem State.updCarder_mem (f : Carder → Carder) : (s.updCarder k f).mem = s.mem := rfl
@[simp] theorem State.updCarder_fab (f : Carder → Carder) : (s.updCarder k f).fab = s.fab := rfl
@[simp] theorem State.updCarder_mbx (f : Carder → Carder) : (s.updCarder k f).mbx = s.mbx := rfl
@[simp] theorem State.updCarder_cmds (f : Carder → Carder) : (s.updCarder k f).cmds = s.cmds := rfl
@[simp] theorem State.updCarder_tly (f : Carder → Carder) : (s.updCarder k f).tly = s.tly := rfl
@[simp] theorem State.updCarder_cx (f : Carder → Carder) : (s.updCarder k f).cx = s.cx := rfl
@[simp] theorem State.updCarder_grn (f : Carder → Carder) : (s.updCarder k f).grn = s.grn := rfl
@[simp] theorem State.updCarder_gln (f : Carder → Carder) : (s.updCarder k f).gln = s.gln := rfl
@[simp] theorem State.updCarder_kvw (f : Carder → Carder) : (s.updCarder k f).kvw = s.kvw := rfl
@[simp] theorem State.updCarder_hmc (f : Carder → Carder) : (s.updCarder k f).hmc = s.hmc := rfl
@[simp] theorem State.updCarder_blk (f : Carder → Carder) : (s.updCarder k f).blk = s.blk := rfl
@[simp] theorem State.updCarder_out (f : Carder → Carder) : (s.updCarder k f).out = s.out := rfl
@[simp] theorem State.updCarder_ing (f : Carder → Carder) : (s.updCarder k f).ing = s.ing := rfl
@[simp] theorem State.updCarder_cool (f : Carder → Carder) : (s.updCarder k f).cool = s.cool := rfl
@[simp] theorem State.updCarder_sw (f : Carder → Carder) : (s.updCarder k f).sw = s.sw := rfl
@[simp] theorem State.updCarder_kcp (f : Carder → Carder) : (s.updCarder k f).kcp = s.kcp := rfl
@[simp] theorem State.updCarder_core (f : Carder → Carder) : (s.updCarder k f).core = s.core := rfl
@[simp] theorem State.updCarder_hwa (f : Carder → Carder) : (s.updCarder k f).hwa = s.hwa := rfl
@[simp] theorem State.updCarder_hwb (f : Carder → Carder) : (s.updCarder k f).hwb = s.hwb := rfl
@[simp] theorem State.updCarder_pair (f : Carder → Carder) : (s.updCarder k f).pair = s.pair := rfl
@[simp] theorem State.updCarder_dnp (f : Carder → Carder) : (s.updCarder k f).dnp = s.dnp := rfl
@[simp] theorem State.updCarder_flt (f : Carder → Carder) : (s.updCarder k f).flt = s.flt := rfl
@[simp] theorem State.updCarder_boot (f : Carder → Carder) : (s.updCarder k f).boot = s.boot := rfl
@[simp] theorem State.updCarder_sec (f : Carder → Carder) : (s.updCarder k f).sec = s.sec := rfl
@[simp] theorem State.updCarder_thm (f : Carder → Carder) : (s.updCarder k f).thm = s.thm := rfl
@[simp] theorem State.updCarder_tap (f : Carder → Carder) : (s.updCarder k f).tap = s.tap := rfl
@[simp] theorem State.updCarder_eng (f : Carder → Carder) (j : Nat) : (s.updCarder k f).eng j = s.eng j := rfl
@[simp] theorem State.updCarder_ctxOf (f : Carder → Carder) (j : Nat) : (s.updCarder k f).ctxOf j = s.ctxOf j := rfl
@[simp] theorem State.updCarder_bank (f : Carder → Carder) (j : Nat) : (s.updCarder k f).bank j = s.bank j := rfl
@[simp] theorem State.updCarder_grnDie (f : Carder → Carder) (j : Nat) : (s.updCarder k f).grnDie j = s.grnDie j := rfl
@[simp] theorem State.updCarder_gleaner (f : Carder → Carder) (j : Nat) : (s.updCarder k f).gleaner j = s.gleaner j := rfl
@[simp] theorem State.updCarder_hmcOf (f : Carder → Carder) (j : Nat) : (s.updCarder k f).hmcOf j = s.hmcOf j := rfl
@[simp] theorem State.updCarder_blkOf (f : Carder → Carder) (j : Nat) : (s.updCarder k f).blkOf j = s.blkOf j := rfl
@[simp] theorem State.updCarder_kvwOf (f : Carder → Carder) (j : Nat) : (s.updCarder k f).kvwOf j = s.kvwOf j := rfl
@[simp] theorem State.updCarder_stream (f : Carder → Carder) (j : Nat) : (s.updCarder k f).stream j = s.stream j := rfl
@[simp] theorem State.updCarder_portOf (f : Carder → Carder) (j : Nat) : (s.updCarder k f).portOf j = s.portOf j := rfl
@[simp] theorem State.updCarder_slotOf (f : Carder → Carder) (j : Nat) : (s.updCarder k f).slotOf j = s.slotOf j := rfl
@[simp] theorem State.updCarder_coreOf (f : Carder → Carder) (j : Nat) : (s.updCarder k f).coreOf j = s.coreOf j := rfl
@[simp] theorem State.updCarder_opc (f : Carder → Carder) (j : Nat) : (s.updCarder k f).opc j = s.opc j := rfl
@[simp] theorem State.updCarder_stage (f : Carder → Carder) (j : Nat) : (s.updCarder k f).stage j = s.stage j := rfl
@[simp] theorem State.updCarder_stest (f : Carder → Carder) (j : Nat) : (s.updCarder k f).stest j = s.stest j := rfl
@[simp] theorem State.updCarder_winOf (f : Carder → Carder) (j : Nat) : (s.updCarder k f).winOf j = s.winOf j := rfl

theorem State.updWdgStage_self (f : WdgStage → WdgStage) : (s.updWdgStage k f).stage k = f (s.stage k) := Tab.get_upd_self _ _ _ _
theorem State.updWdgStage_ne (f : WdgStage → WdgStage) {j : Nat} (h : j ≠ k) : (s.updWdgStage k f).stage j = s.stage j := Tab.get_upd_ne _ _ h _
@[simp] theorem State.updWdgStage_stage (f : WdgStage → WdgStage) (j : Nat) : (s.updWdgStage k f).stage j = if j = k then f (s.stage k) else s.stage j :=
  Tab.get_upd _ _ _ _ _
@[simp] theorem State.updWdgStage_pending (f : WdgStage → WdgStage) : (s.updWdgStage k f).pending = s.pending := rfl
@[simp] theorem State.updWdgStage_freeCnt (f : WdgStage → WdgStage) : (s.updWdgStage k f).freeCnt = s.freeCnt := rfl
@[simp] theorem State.updWdgStage_time (f : WdgStage → WdgStage) : (s.updWdgStage k f).time = s.time := rfl
@[simp] theorem State.updWdgStage_pins (f : WdgStage → WdgStage) : (s.updWdgStage k f).pins = s.pins := rfl
@[simp] theorem State.updWdgStage_mem (f : WdgStage → WdgStage) : (s.updWdgStage k f).mem = s.mem := rfl
@[simp] theorem State.updWdgStage_fab (f : WdgStage → WdgStage) : (s.updWdgStage k f).fab = s.fab := rfl
@[simp] theorem State.updWdgStage_mbx (f : WdgStage → WdgStage) : (s.updWdgStage k f).mbx = s.mbx := rfl
@[simp] theorem State.updWdgStage_cmds (f : WdgStage → WdgStage) : (s.updWdgStage k f).cmds = s.cmds := rfl
@[simp] theorem State.updWdgStage_tly (f : WdgStage → WdgStage) : (s.updWdgStage k f).tly = s.tly := rfl
@[simp] theorem State.updWdgStage_cx (f : WdgStage → WdgStage) : (s.updWdgStage k f).cx = s.cx := rfl
@[simp] theorem State.updWdgStage_carders (f : WdgStage → WdgStage) : (s.updWdgStage k f).carders = s.carders := rfl
@[simp] theorem State.updWdgStage_grn (f : WdgStage → WdgStage) : (s.updWdgStage k f).grn = s.grn := rfl
@[simp] theorem State.updWdgStage_gln (f : WdgStage → WdgStage) : (s.updWdgStage k f).gln = s.gln := rfl
@[simp] theorem State.updWdgStage_kvw (f : WdgStage → WdgStage) : (s.updWdgStage k f).kvw = s.kvw := rfl
@[simp] theorem State.updWdgStage_hmc (f : WdgStage → WdgStage) : (s.updWdgStage k f).hmc = s.hmc := rfl
@[simp] theorem State.updWdgStage_blk (f : WdgStage → WdgStage) : (s.updWdgStage k f).blk = s.blk := rfl
@[simp] theorem State.updWdgStage_out (f : WdgStage → WdgStage) : (s.updWdgStage k f).out = s.out := rfl
@[simp] theorem State.updWdgStage_ing (f : WdgStage → WdgStage) : (s.updWdgStage k f).ing = s.ing := rfl
@[simp] theorem State.updWdgStage_cool (f : WdgStage → WdgStage) : (s.updWdgStage k f).cool = s.cool := rfl
@[simp] theorem State.updWdgStage_sw (f : WdgStage → WdgStage) : (s.updWdgStage k f).sw = s.sw := rfl
@[simp] theorem State.updWdgStage_kcp (f : WdgStage → WdgStage) : (s.updWdgStage k f).kcp = s.kcp := rfl
@[simp] theorem State.updWdgStage_core (f : WdgStage → WdgStage) : (s.updWdgStage k f).core = s.core := rfl
@[simp] theorem State.updWdgStage_hwb (f : WdgStage → WdgStage) : (s.updWdgStage k f).hwb = s.hwb := rfl
@[simp] theorem State.updWdgStage_pair (f : WdgStage → WdgStage) : (s.updWdgStage k f).pair = s.pair := rfl
@[simp] theorem State.updWdgStage_dnp (f : WdgStage → WdgStage) : (s.updWdgStage k f).dnp = s.dnp := rfl
@[simp] theorem State.updWdgStage_flt (f : WdgStage → WdgStage) : (s.updWdgStage k f).flt = s.flt := rfl
@[simp] theorem State.updWdgStage_boot (f : WdgStage → WdgStage) : (s.updWdgStage k f).boot = s.boot := rfl
@[simp] theorem State.updWdgStage_sec (f : WdgStage → WdgStage) : (s.updWdgStage k f).sec = s.sec := rfl
@[simp] theorem State.updWdgStage_thm (f : WdgStage → WdgStage) : (s.updWdgStage k f).thm = s.thm := rfl
@[simp] theorem State.updWdgStage_tap (f : WdgStage → WdgStage) : (s.updWdgStage k f).tap = s.tap := rfl
@[simp] theorem State.updWdgStage_eng (f : WdgStage → WdgStage) (j : Nat) : (s.updWdgStage k f).eng j = s.eng j := rfl
@[simp] theorem State.updWdgStage_ctxOf (f : WdgStage → WdgStage) (j : Nat) : (s.updWdgStage k f).ctxOf j = s.ctxOf j := rfl
@[simp] theorem State.updWdgStage_bank (f : WdgStage → WdgStage) (j : Nat) : (s.updWdgStage k f).bank j = s.bank j := rfl
@[simp] theorem State.updWdgStage_grnDie (f : WdgStage → WdgStage) (j : Nat) : (s.updWdgStage k f).grnDie j = s.grnDie j := rfl
@[simp] theorem State.updWdgStage_gleaner (f : WdgStage → WdgStage) (j : Nat) : (s.updWdgStage k f).gleaner j = s.gleaner j := rfl
@[simp] theorem State.updWdgStage_hmcOf (f : WdgStage → WdgStage) (j : Nat) : (s.updWdgStage k f).hmcOf j = s.hmcOf j := rfl
@[simp] theorem State.updWdgStage_blkOf (f : WdgStage → WdgStage) (j : Nat) : (s.updWdgStage k f).blkOf j = s.blkOf j := rfl
@[simp] theorem State.updWdgStage_kvwOf (f : WdgStage → WdgStage) (j : Nat) : (s.updWdgStage k f).kvwOf j = s.kvwOf j := rfl
@[simp] theorem State.updWdgStage_stream (f : WdgStage → WdgStage) (j : Nat) : (s.updWdgStage k f).stream j = s.stream j := rfl
@[simp] theorem State.updWdgStage_portOf (f : WdgStage → WdgStage) (j : Nat) : (s.updWdgStage k f).portOf j = s.portOf j := rfl
@[simp] theorem State.updWdgStage_slotOf (f : WdgStage → WdgStage) (j : Nat) : (s.updWdgStage k f).slotOf j = s.slotOf j := rfl
@[simp] theorem State.updWdgStage_coreOf (f : WdgStage → WdgStage) (j : Nat) : (s.updWdgStage k f).coreOf j = s.coreOf j := rfl
@[simp] theorem State.updWdgStage_opc (f : WdgStage → WdgStage) (j : Nat) : (s.updWdgStage k f).opc j = s.opc j := rfl
@[simp] theorem State.updWdgStage_carder (f : WdgStage → WdgStage) (j : Nat) : (s.updWdgStage k f).carder j = s.carder j := rfl
@[simp] theorem State.updWdgStage_stest (f : WdgStage → WdgStage) (j : Nat) : (s.updWdgStage k f).stest j = s.stest j := rfl
@[simp] theorem State.updWdgStage_winOf (f : WdgStage → WdgStage) (j : Nat) : (s.updWdgStage k f).winOf j = s.winOf j := rfl

theorem State.updStest_self (f : Stest → Stest) : (s.updStest k f).stest k = f (s.stest k) := Tab.get_upd_self _ _ _ _
theorem State.updStest_ne (f : Stest → Stest) {j : Nat} (h : j ≠ k) : (s.updStest k f).stest j = s.stest j := Tab.get_upd_ne _ _ h _
@[simp] theorem State.updStest_stest (f : Stest → Stest) (j : Nat) : (s.updStest k f).stest j = if j = k then f (s.stest k) else s.stest j :=
  Tab.get_upd _ _ _ _ _
@[simp] theorem State.updStest_pending (f : Stest → Stest) : (s.updStest k f).pending = s.pending := rfl
@[simp] theorem State.updStest_freeCnt (f : Stest → Stest) : (s.updStest k f).freeCnt = s.freeCnt := rfl
@[simp] theorem State.updStest_time (f : Stest → Stest) : (s.updStest k f).time = s.time := rfl
@[simp] theorem State.updStest_pins (f : Stest → Stest) : (s.updStest k f).pins = s.pins := rfl
@[simp] theorem State.updStest_mem (f : Stest → Stest) : (s.updStest k f).mem = s.mem := rfl
@[simp] theorem State.updStest_fab (f : Stest → Stest) : (s.updStest k f).fab = s.fab := rfl
@[simp] theorem State.updStest_mbx (f : Stest → Stest) : (s.updStest k f).mbx = s.mbx := rfl
@[simp] theorem State.updStest_cmds (f : Stest → Stest) : (s.updStest k f).cmds = s.cmds := rfl
@[simp] theorem State.updStest_tly (f : Stest → Stest) : (s.updStest k f).tly = s.tly := rfl
@[simp] theorem State.updStest_cx (f : Stest → Stest) : (s.updStest k f).cx = s.cx := rfl
@[simp] theorem State.updStest_carders (f : Stest → Stest) : (s.updStest k f).carders = s.carders := rfl
@[simp] theorem State.updStest_grn (f : Stest → Stest) : (s.updStest k f).grn = s.grn := rfl
@[simp] theorem State.updStest_gln (f : Stest → Stest) : (s.updStest k f).gln = s.gln := rfl
@[simp] theorem State.updStest_kvw (f : Stest → Stest) : (s.updStest k f).kvw = s.kvw := rfl
@[simp] theorem State.updStest_hmc (f : Stest → Stest) : (s.updStest k f).hmc = s.hmc := rfl
@[simp] theorem State.updStest_blk (f : Stest → Stest) : (s.updStest k f).blk = s.blk := rfl
@[simp] theorem State.updStest_out (f : Stest → Stest) : (s.updStest k f).out = s.out := rfl
@[simp] theorem State.updStest_ing (f : Stest → Stest) : (s.updStest k f).ing = s.ing := rfl
@[simp] theorem State.updStest_cool (f : Stest → Stest) : (s.updStest k f).cool = s.cool := rfl
@[simp] theorem State.updStest_sw (f : Stest → Stest) : (s.updStest k f).sw = s.sw := rfl
@[simp] theorem State.updStest_kcp (f : Stest → Stest) : (s.updStest k f).kcp = s.kcp := rfl
@[simp] theorem State.updStest_core (f : Stest → Stest) : (s.updStest k f).core = s.core := rfl
@[simp] theorem State.updStest_hwb (f : Stest → Stest) : (s.updStest k f).hwb = s.hwb := rfl
@[simp] theorem State.updStest_pair (f : Stest → Stest) : (s.updStest k f).pair = s.pair := rfl
@[simp] theorem State.updStest_dnp (f : Stest → Stest) : (s.updStest k f).dnp = s.dnp := rfl
@[simp] theorem State.updStest_flt (f : Stest → Stest) : (s.updStest k f).flt = s.flt := rfl
@[simp] theorem State.updStest_boot (f : Stest → Stest) : (s.updStest k f).boot = s.boot := rfl
@[simp] theorem State.updStest_sec (f : Stest → Stest) : (s.updStest k f).sec = s.sec := rfl
@[simp] theorem State.updStest_thm (f : Stest → Stest) : (s.updStest k f).thm = s.thm := rfl
@[simp] theorem State.updStest_tap (f : Stest → Stest) : (s.updStest k f).tap = s.tap := rfl
@[simp] theorem State.updStest_eng (f : Stest → Stest) (j : Nat) : (s.updStest k f).eng j = s.eng j := rfl
@[simp] theorem State.updStest_ctxOf (f : Stest → Stest) (j : Nat) : (s.updStest k f).ctxOf j = s.ctxOf j := rfl
@[simp] theorem State.updStest_bank (f : Stest → Stest) (j : Nat) : (s.updStest k f).bank j = s.bank j := rfl
@[simp] theorem State.updStest_grnDie (f : Stest → Stest) (j : Nat) : (s.updStest k f).grnDie j = s.grnDie j := rfl
@[simp] theorem State.updStest_gleaner (f : Stest → Stest) (j : Nat) : (s.updStest k f).gleaner j = s.gleaner j := rfl
@[simp] theorem State.updStest_hmcOf (f : Stest → Stest) (j : Nat) : (s.updStest k f).hmcOf j = s.hmcOf j := rfl
@[simp] theorem State.updStest_blkOf (f : Stest → Stest) (j : Nat) : (s.updStest k f).blkOf j = s.blkOf j := rfl
@[simp] theorem State.updStest_kvwOf (f : Stest → Stest) (j : Nat) : (s.updStest k f).kvwOf j = s.kvwOf j := rfl
@[simp] theorem State.updStest_stream (f : Stest → Stest) (j : Nat) : (s.updStest k f).stream j = s.stream j := rfl
@[simp] theorem State.updStest_portOf (f : Stest → Stest) (j : Nat) : (s.updStest k f).portOf j = s.portOf j := rfl
@[simp] theorem State.updStest_slotOf (f : Stest → Stest) (j : Nat) : (s.updStest k f).slotOf j = s.slotOf j := rfl
@[simp] theorem State.updStest_coreOf (f : Stest → Stest) (j : Nat) : (s.updStest k f).coreOf j = s.coreOf j := rfl
@[simp] theorem State.updStest_opc (f : Stest → Stest) (j : Nat) : (s.updStest k f).opc j = s.opc j := rfl
@[simp] theorem State.updStest_carder (f : Stest → Stest) (j : Nat) : (s.updStest k f).carder j = s.carder j := rfl
@[simp] theorem State.updStest_stage (f : Stest → Stest) (j : Nat) : (s.updStest k f).stage j = s.stage j := rfl
@[simp] theorem State.updStest_winOf (f : Stest → Stest) (j : Nat) : (s.updStest k f).winOf j = s.winOf j := rfl

theorem State.updWin_self (f : SnapWin → SnapWin) : (s.updWin k f).winOf k = f (s.winOf k) := Tab.get_upd_self _ _ _ _
theorem State.updWin_ne (f : SnapWin → SnapWin) {j : Nat} (h : j ≠ k) : (s.updWin k f).winOf j = s.winOf j := Tab.get_upd_ne _ _ h _
@[simp] theorem State.updWin_winOf (f : SnapWin → SnapWin) (j : Nat) : (s.updWin k f).winOf j = if j = k then f (s.winOf k) else s.winOf j :=
  Tab.get_upd _ _ _ _ _
@[simp] theorem State.updWin_pending (f : SnapWin → SnapWin) : (s.updWin k f).pending = s.pending := rfl
@[simp] theorem State.updWin_freeCnt (f : SnapWin → SnapWin) : (s.updWin k f).freeCnt = s.freeCnt := rfl
@[simp] theorem State.updWin_time (f : SnapWin → SnapWin) : (s.updWin k f).time = s.time := rfl
@[simp] theorem State.updWin_pins (f : SnapWin → SnapWin) : (s.updWin k f).pins = s.pins := rfl
@[simp] theorem State.updWin_mem (f : SnapWin → SnapWin) : (s.updWin k f).mem = s.mem := rfl
@[simp] theorem State.updWin_fab (f : SnapWin → SnapWin) : (s.updWin k f).fab = s.fab := rfl
@[simp] theorem State.updWin_mbx (f : SnapWin → SnapWin) : (s.updWin k f).mbx = s.mbx := rfl
@[simp] theorem State.updWin_cmds (f : SnapWin → SnapWin) : (s.updWin k f).cmds = s.cmds := rfl
@[simp] theorem State.updWin_cx (f : SnapWin → SnapWin) : (s.updWin k f).cx = s.cx := rfl
@[simp] theorem State.updWin_carders (f : SnapWin → SnapWin) : (s.updWin k f).carders = s.carders := rfl
@[simp] theorem State.updWin_grn (f : SnapWin → SnapWin) : (s.updWin k f).grn = s.grn := rfl
@[simp] theorem State.updWin_gln (f : SnapWin → SnapWin) : (s.updWin k f).gln = s.gln := rfl
@[simp] theorem State.updWin_kvw (f : SnapWin → SnapWin) : (s.updWin k f).kvw = s.kvw := rfl
@[simp] theorem State.updWin_hmc (f : SnapWin → SnapWin) : (s.updWin k f).hmc = s.hmc := rfl
@[simp] theorem State.updWin_blk (f : SnapWin → SnapWin) : (s.updWin k f).blk = s.blk := rfl
@[simp] theorem State.updWin_out (f : SnapWin → SnapWin) : (s.updWin k f).out = s.out := rfl
@[simp] theorem State.updWin_ing (f : SnapWin → SnapWin) : (s.updWin k f).ing = s.ing := rfl
@[simp] theorem State.updWin_cool (f : SnapWin → SnapWin) : (s.updWin k f).cool = s.cool := rfl
@[simp] theorem State.updWin_sw (f : SnapWin → SnapWin) : (s.updWin k f).sw = s.sw := rfl
@[simp] theorem State.updWin_kcp (f : SnapWin → SnapWin) : (s.updWin k f).kcp = s.kcp := rfl
@[simp] theorem State.updWin_core (f : SnapWin → SnapWin) : (s.updWin k f).core = s.core := rfl
@[simp] theorem State.updWin_hwa (f : SnapWin → SnapWin) : (s.updWin k f).hwa = s.hwa := rfl
@[simp] theorem State.updWin_hwb (f : SnapWin → SnapWin) : (s.updWin k f).hwb = s.hwb := rfl
@[simp] theorem State.updWin_pair (f : SnapWin → SnapWin) : (s.updWin k f).pair = s.pair := rfl
@[simp] theorem State.updWin_dnp (f : SnapWin → SnapWin) : (s.updWin k f).dnp = s.dnp := rfl
@[simp] theorem State.updWin_flt (f : SnapWin → SnapWin) : (s.updWin k f).flt = s.flt := rfl
@[simp] theorem State.updWin_boot (f : SnapWin → SnapWin) : (s.updWin k f).boot = s.boot := rfl
@[simp] theorem State.updWin_sec (f : SnapWin → SnapWin) : (s.updWin k f).sec = s.sec := rfl
@[simp] theorem State.updWin_thm (f : SnapWin → SnapWin) : (s.updWin k f).thm = s.thm := rfl
@[simp] theorem State.updWin_tap (f : SnapWin → SnapWin) : (s.updWin k f).tap = s.tap := rfl
@[simp] theorem State.updWin_eng (f : SnapWin → SnapWin) (j : Nat) : (s.updWin k f).eng j = s.eng j := rfl
@[simp] theorem State.updWin_ctxOf (f : SnapWin → SnapWin) (j : Nat) : (s.updWin k f).ctxOf j = s.ctxOf j := rfl
@[simp] theorem State.updWin_bank (f : SnapWin → SnapWin) (j : Nat) : (s.updWin k f).bank j = s.bank j := rfl
@[simp] theorem State.updWin_grnDie (f : SnapWin → SnapWin) (j : Nat) : (s.updWin k f).grnDie j = s.grnDie j := rfl
@[simp] theorem State.updWin_gleaner (f : SnapWin → SnapWin) (j : Nat) : (s.updWin k f).gleaner j = s.gleaner j := rfl
@[simp] theorem State.updWin_hmcOf (f : SnapWin → SnapWin) (j : Nat) : (s.updWin k f).hmcOf j = s.hmcOf j := rfl
@[simp] theorem State.updWin_blkOf (f : SnapWin → SnapWin) (j : Nat) : (s.updWin k f).blkOf j = s.blkOf j := rfl
@[simp] theorem State.updWin_kvwOf (f : SnapWin → SnapWin) (j : Nat) : (s.updWin k f).kvwOf j = s.kvwOf j := rfl
@[simp] theorem State.updWin_stream (f : SnapWin → SnapWin) (j : Nat) : (s.updWin k f).stream j = s.stream j := rfl
@[simp] theorem State.updWin_portOf (f : SnapWin → SnapWin) (j : Nat) : (s.updWin k f).portOf j = s.portOf j := rfl
@[simp] theorem State.updWin_slotOf (f : SnapWin → SnapWin) (j : Nat) : (s.updWin k f).slotOf j = s.slotOf j := rfl
@[simp] theorem State.updWin_coreOf (f : SnapWin → SnapWin) (j : Nat) : (s.updWin k f).coreOf j = s.coreOf j := rfl
@[simp] theorem State.updWin_opc (f : SnapWin → SnapWin) (j : Nat) : (s.updWin k f).opc j = s.opc j := rfl
@[simp] theorem State.updWin_carder (f : SnapWin → SnapWin) (j : Nat) : (s.updWin k f).carder j = s.carder j := rfl
@[simp] theorem State.updWin_stage (f : SnapWin → SnapWin) (j : Nat) : (s.updWin k f).stage j = s.stage j := rfl
@[simp] theorem State.updWin_stest (f : SnapWin → SnapWin) (j : Nat) : (s.updWin k f).stest j = s.stest j := rfl

@[simp] theorem State.mapTime_eng (f : TimeS → TimeS) : (s.mapTime f).eng k = s.eng k := rfl
@[simp] theorem State.mapTime_ctxOf (f : TimeS → TimeS) : (s.mapTime f).ctxOf k = s.ctxOf k := rfl
@[simp] theorem State.mapTime_bank (f : TimeS → TimeS) : (s.mapTime f).bank k = s.bank k := rfl
@[simp] theorem State.mapTime_grnDie (f : TimeS → TimeS) : (s.mapTime f).grnDie k = s.grnDie k := rfl
@[simp] theorem State.mapTime_gleaner (f : TimeS → TimeS) : (s.mapTime f).gleaner k = s.gleaner k := rfl
@[simp] theorem State.mapTime_hmcOf (f : TimeS → TimeS) : (s.mapTime f).hmcOf k = s.hmcOf k := rfl
@[simp] theorem State.mapTime_blkOf (f : TimeS → TimeS) : (s.mapTime f).blkOf k = s.blkOf k := rfl
@[simp] theorem State.mapTime_kvwOf (f : TimeS → TimeS) : (s.mapTime f).kvwOf k = s.kvwOf k := rfl
@[simp] theorem State.mapTime_stream (f : TimeS → TimeS) : (s.mapTime f).stream k = s.stream k := rfl
@[simp] theorem State.mapTime_portOf (f : TimeS → TimeS) : (s.mapTime f).portOf k = s.portOf k := rfl
@[simp] theorem State.mapTime_slotOf (f : TimeS → TimeS) : (s.mapTime f).slotOf k = s.slotOf k := rfl
@[simp] theorem State.mapTime_coreOf (f : TimeS → TimeS) : (s.mapTime f).coreOf k = s.coreOf k := rfl
@[simp] theorem State.mapTime_opc (f : TimeS → TimeS) : (s.mapTime f).opc k = s.opc k := rfl
@[simp] theorem State.mapTime_carder (f : TimeS → TimeS) : (s.mapTime f).carder k = s.carder k := rfl
@[simp] theorem State.mapTime_stage (f : TimeS → TimeS) : (s.mapTime f).stage k = s.stage k := rfl
@[simp] theorem State.mapTime_stest (f : TimeS → TimeS) : (s.mapTime f).stest k = s.stest k := rfl
@[simp] theorem State.mapTime_winOf (f : TimeS → TimeS) : (s.mapTime f).winOf k = s.winOf k := rfl
@[simp] theorem State.mapPins_eng (f : PinS → PinS) : (s.mapPins f).eng k = s.eng k := rfl
@[simp] theorem State.mapPins_ctxOf (f : PinS → PinS) : (s.mapPins f).ctxOf k = s.ctxOf k := rfl
@[simp] theorem State.mapPins_bank (f : PinS → PinS) : (s.mapPins f).bank k = s.bank k := rfl
@[simp] theorem State.mapPins_grnDie (f : PinS → PinS) : (s.mapPins f).grnDie k = s.grnDie k := rfl
@[simp] theorem State.mapPins_gleaner (f : PinS → PinS) : (s.mapPins f).gleaner k = s.gleaner k := rfl
@[simp] theorem State.mapPins_hmcOf (f : PinS → PinS) : (s.mapPins f).hmcOf k = s.hmcOf k := rfl
@[simp] theorem State.mapPins_blkOf (f : PinS → PinS) : (s.mapPins f).blkOf k = s.blkOf k := rfl
@[simp] theorem State.mapPins_kvwOf (f : PinS → PinS) : (s.mapPins f).kvwOf k = s.kvwOf k := rfl
@[simp] theorem State.mapPins_stream (f : PinS → PinS) : (s.mapPins f).stream k = s.stream k := rfl
@[simp] theorem State.mapPins_portOf (f : PinS → PinS) : (s.mapPins f).portOf k = s.portOf k := rfl
@[simp] theorem State.mapPins_slotOf (f : PinS → PinS) : (s.mapPins f).slotOf k = s.slotOf k := rfl
@[simp] theorem State.mapPins_coreOf (f : PinS → PinS) : (s.mapPins f).coreOf k = s.coreOf k := rfl
@[simp] theorem State.mapPins_opc (f : PinS → PinS) : (s.mapPins f).opc k = s.opc k := rfl
@[simp] theorem State.mapPins_carder (f : PinS → PinS) : (s.mapPins f).carder k = s.carder k := rfl
@[simp] theorem State.mapPins_stage (f : PinS → PinS) : (s.mapPins f).stage k = s.stage k := rfl
@[simp] theorem State.mapPins_stest (f : PinS → PinS) : (s.mapPins f).stest k = s.stest k := rfl
@[simp] theorem State.mapPins_winOf (f : PinS → PinS) : (s.mapPins f).winOf k = s.winOf k := rfl
@[simp] theorem State.mapMem_eng (f : Tab Byte → Tab Byte) : (s.mapMem f).eng k = s.eng k := rfl
@[simp] theorem State.mapMem_ctxOf (f : Tab Byte → Tab Byte) : (s.mapMem f).ctxOf k = s.ctxOf k := rfl
@[simp] theorem State.mapMem_bank (f : Tab Byte → Tab Byte) : (s.mapMem f).bank k = s.bank k := rfl
@[simp] theorem State.mapMem_grnDie (f : Tab Byte → Tab Byte) : (s.mapMem f).grnDie k = s.grnDie k := rfl
@[simp] theorem State.mapMem_gleaner (f : Tab Byte → Tab Byte) : (s.mapMem f).gleaner k = s.gleaner k := rfl
@[simp] theorem State.mapMem_hmcOf (f : Tab Byte → Tab Byte) : (s.mapMem f).hmcOf k = s.hmcOf k := rfl
@[simp] theorem State.mapMem_blkOf (f : Tab Byte → Tab Byte) : (s.mapMem f).blkOf k = s.blkOf k := rfl
@[simp] theorem State.mapMem_kvwOf (f : Tab Byte → Tab Byte) : (s.mapMem f).kvwOf k = s.kvwOf k := rfl
@[simp] theorem State.mapMem_stream (f : Tab Byte → Tab Byte) : (s.mapMem f).stream k = s.stream k := rfl
@[simp] theorem State.mapMem_portOf (f : Tab Byte → Tab Byte) : (s.mapMem f).portOf k = s.portOf k := rfl
@[simp] theorem State.mapMem_slotOf (f : Tab Byte → Tab Byte) : (s.mapMem f).slotOf k = s.slotOf k := rfl
@[simp] theorem State.mapMem_coreOf (f : Tab Byte → Tab Byte) : (s.mapMem f).coreOf k = s.coreOf k := rfl
@[simp] theorem State.mapMem_opc (f : Tab Byte → Tab Byte) : (s.mapMem f).opc k = s.opc k := rfl
@[simp] theorem State.mapMem_carder (f : Tab Byte → Tab Byte) : (s.mapMem f).carder k = s.carder k := rfl
@[simp] theorem State.mapMem_stage (f : Tab Byte → Tab Byte) : (s.mapMem f).stage k = s.stage k := rfl
@[simp] theorem State.mapMem_stest (f : Tab Byte → Tab Byte) : (s.mapMem f).stest k = s.stest k := rfl
@[simp] theorem State.mapMem_winOf (f : Tab Byte → Tab Byte) : (s.mapMem f).winOf k = s.winOf k := rfl
@[simp] theorem State.mapFab_eng (f : FabS → FabS) : (s.mapFab f).eng k = s.eng k := rfl
@[simp] theorem State.mapFab_ctxOf (f : FabS → FabS) : (s.mapFab f).ctxOf k = s.ctxOf k := rfl
@[simp] theorem State.mapFab_bank (f : FabS → FabS) : (s.mapFab f).bank k = s.bank k := rfl
@[simp] theorem State.mapFab_grnDie (f : FabS → FabS) : (s.mapFab f).grnDie k = s.grnDie k := rfl
@[simp] theorem State.mapFab_gleaner (f : FabS → FabS) : (s.mapFab f).gleaner k = s.gleaner k := rfl
@[simp] theorem State.mapFab_hmcOf (f : FabS → FabS) : (s.mapFab f).hmcOf k = s.hmcOf k := rfl
@[simp] theorem State.mapFab_blkOf (f : FabS → FabS) : (s.mapFab f).blkOf k = s.blkOf k := rfl
@[simp] theorem State.mapFab_kvwOf (f : FabS → FabS) : (s.mapFab f).kvwOf k = s.kvwOf k := rfl
@[simp] theorem State.mapFab_stream (f : FabS → FabS) : (s.mapFab f).stream k = s.stream k := rfl
@[simp] theorem State.mapFab_portOf (f : FabS → FabS) : (s.mapFab f).portOf k = s.portOf k := rfl
@[simp] theorem State.mapFab_slotOf (f : FabS → FabS) : (s.mapFab f).slotOf k = s.slotOf k := rfl
@[simp] theorem State.mapFab_coreOf (f : FabS → FabS) : (s.mapFab f).coreOf k = s.coreOf k := rfl
@[simp] theorem State.mapFab_opc (f : FabS → FabS) : (s.mapFab f).opc k = s.opc k := rfl
@[simp] theorem State.mapFab_carder (f : FabS → FabS) : (s.mapFab f).carder k = s.carder k := rfl
@[simp] theorem State.mapFab_stage (f : FabS → FabS) : (s.mapFab f).stage k = s.stage k := rfl
@[simp] theorem State.mapFab_stest (f : FabS → FabS) : (s.mapFab f).stest k = s.stest k := rfl
@[simp] theorem State.mapFab_winOf (f : FabS → FabS) : (s.mapFab f).winOf k = s.winOf k := rfl
@[simp] theorem State.mapMbx_eng (f : MbxS → MbxS) : (s.mapMbx f).eng k = s.eng k := rfl
@[simp] theorem State.mapMbx_ctxOf (f : MbxS → MbxS) : (s.mapMbx f).ctxOf k = s.ctxOf k := rfl
@[simp] theorem State.mapMbx_bank (f : MbxS → MbxS) : (s.mapMbx f).bank k = s.bank k := rfl
@[simp] theorem State.mapMbx_grnDie (f : MbxS → MbxS) : (s.mapMbx f).grnDie k = s.grnDie k := rfl
@[simp] theorem State.mapMbx_gleaner (f : MbxS → MbxS) : (s.mapMbx f).gleaner k = s.gleaner k := rfl
@[simp] theorem State.mapMbx_hmcOf (f : MbxS → MbxS) : (s.mapMbx f).hmcOf k = s.hmcOf k := rfl
@[simp] theorem State.mapMbx_blkOf (f : MbxS → MbxS) : (s.mapMbx f).blkOf k = s.blkOf k := rfl
@[simp] theorem State.mapMbx_kvwOf (f : MbxS → MbxS) : (s.mapMbx f).kvwOf k = s.kvwOf k := rfl
@[simp] theorem State.mapMbx_stream (f : MbxS → MbxS) : (s.mapMbx f).stream k = s.stream k := rfl
@[simp] theorem State.mapMbx_portOf (f : MbxS → MbxS) : (s.mapMbx f).portOf k = s.portOf k := rfl
@[simp] theorem State.mapMbx_coreOf (f : MbxS → MbxS) : (s.mapMbx f).coreOf k = s.coreOf k := rfl
@[simp] theorem State.mapMbx_opc (f : MbxS → MbxS) : (s.mapMbx f).opc k = s.opc k := rfl
@[simp] theorem State.mapMbx_carder (f : MbxS → MbxS) : (s.mapMbx f).carder k = s.carder k := rfl
@[simp] theorem State.mapMbx_stage (f : MbxS → MbxS) : (s.mapMbx f).stage k = s.stage k := rfl
@[simp] theorem State.mapMbx_stest (f : MbxS → MbxS) : (s.mapMbx f).stest k = s.stest k := rfl
@[simp] theorem State.mapMbx_winOf (f : MbxS → MbxS) : (s.mapMbx f).winOf k = s.winOf k := rfl
@[simp] theorem State.mapCmds_eng (f : CmdS → CmdS) : (s.mapCmds f).eng k = s.eng k := rfl
@[simp] theorem State.mapCmds_ctxOf (f : CmdS → CmdS) : (s.mapCmds f).ctxOf k = s.ctxOf k := rfl
@[simp] theorem State.mapCmds_bank (f : CmdS → CmdS) : (s.mapCmds f).bank k = s.bank k := rfl
@[simp] theorem State.mapCmds_grnDie (f : CmdS → CmdS) : (s.mapCmds f).grnDie k = s.grnDie k := rfl
@[simp] theorem State.mapCmds_gleaner (f : CmdS → CmdS) : (s.mapCmds f).gleaner k = s.gleaner k := rfl
@[simp] theorem State.mapCmds_hmcOf (f : CmdS → CmdS) : (s.mapCmds f).hmcOf k = s.hmcOf k := rfl
@[simp] theorem State.mapCmds_blkOf (f : CmdS → CmdS) : (s.mapCmds f).blkOf k = s.blkOf k := rfl
@[simp] theorem State.mapCmds_kvwOf (f : CmdS → CmdS) : (s.mapCmds f).kvwOf k = s.kvwOf k := rfl
@[simp] theorem State.mapCmds_stream (f : CmdS → CmdS) : (s.mapCmds f).stream k = s.stream k := rfl
@[simp] theorem State.mapCmds_portOf (f : CmdS → CmdS) : (s.mapCmds f).portOf k = s.portOf k := rfl
@[simp] theorem State.mapCmds_slotOf (f : CmdS → CmdS) : (s.mapCmds f).slotOf k = s.slotOf k := rfl
@[simp] theorem State.mapCmds_coreOf (f : CmdS → CmdS) : (s.mapCmds f).coreOf k = s.coreOf k := rfl
@[simp] theorem State.mapCmds_opc (f : CmdS → CmdS) : (s.mapCmds f).opc k = s.opc k := rfl
@[simp] theorem State.mapCmds_carder (f : CmdS → CmdS) : (s.mapCmds f).carder k = s.carder k := rfl
@[simp] theorem State.mapCmds_stage (f : CmdS → CmdS) : (s.mapCmds f).stage k = s.stage k := rfl
@[simp] theorem State.mapCmds_stest (f : CmdS → CmdS) : (s.mapCmds f).stest k = s.stest k := rfl
@[simp] theorem State.mapCmds_winOf (f : CmdS → CmdS) : (s.mapCmds f).winOf k = s.winOf k := rfl
@[simp] theorem State.mapTly_eng (f : TlyS → TlyS) : (s.mapTly f).eng k = s.eng k := rfl
@[simp] theorem State.mapTly_ctxOf (f : TlyS → TlyS) : (s.mapTly f).ctxOf k = s.ctxOf k := rfl
@[simp] theorem State.mapTly_bank (f : TlyS → TlyS) : (s.mapTly f).bank k = s.bank k := rfl
@[simp] theorem State.mapTly_grnDie (f : TlyS → TlyS) : (s.mapTly f).grnDie k = s.grnDie k := rfl
@[simp] theorem State.mapTly_gleaner (f : TlyS → TlyS) : (s.mapTly f).gleaner k = s.gleaner k := rfl
@[simp] theorem State.mapTly_hmcOf (f : TlyS → TlyS) : (s.mapTly f).hmcOf k = s.hmcOf k := rfl
@[simp] theorem State.mapTly_blkOf (f : TlyS → TlyS) : (s.mapTly f).blkOf k = s.blkOf k := rfl
@[simp] theorem State.mapTly_kvwOf (f : TlyS → TlyS) : (s.mapTly f).kvwOf k = s.kvwOf k := rfl
@[simp] theorem State.mapTly_stream (f : TlyS → TlyS) : (s.mapTly f).stream k = s.stream k := rfl
@[simp] theorem State.mapTly_portOf (f : TlyS → TlyS) : (s.mapTly f).portOf k = s.portOf k := rfl
@[simp] theorem State.mapTly_slotOf (f : TlyS → TlyS) : (s.mapTly f).slotOf k = s.slotOf k := rfl
@[simp] theorem State.mapTly_coreOf (f : TlyS → TlyS) : (s.mapTly f).coreOf k = s.coreOf k := rfl
@[simp] theorem State.mapTly_opc (f : TlyS → TlyS) : (s.mapTly f).opc k = s.opc k := rfl
@[simp] theorem State.mapTly_carder (f : TlyS → TlyS) : (s.mapTly f).carder k = s.carder k := rfl
@[simp] theorem State.mapTly_stage (f : TlyS → TlyS) : (s.mapTly f).stage k = s.stage k := rfl
@[simp] theorem State.mapTly_stest (f : TlyS → TlyS) : (s.mapTly f).stest k = s.stest k := rfl
@[simp] theorem State.mapCx_bank (f : CtxS → CtxS) : (s.mapCx f).bank k = s.bank k := rfl
@[simp] theorem State.mapCx_grnDie (f : CtxS → CtxS) : (s.mapCx f).grnDie k = s.grnDie k := rfl
@[simp] theorem State.mapCx_gleaner (f : CtxS → CtxS) : (s.mapCx f).gleaner k = s.gleaner k := rfl
@[simp] theorem State.mapCx_hmcOf (f : CtxS → CtxS) : (s.mapCx f).hmcOf k = s.hmcOf k := rfl
@[simp] theorem State.mapCx_blkOf (f : CtxS → CtxS) : (s.mapCx f).blkOf k = s.blkOf k := rfl
@[simp] theorem State.mapCx_kvwOf (f : CtxS → CtxS) : (s.mapCx f).kvwOf k = s.kvwOf k := rfl
@[simp] theorem State.mapCx_stream (f : CtxS → CtxS) : (s.mapCx f).stream k = s.stream k := rfl
@[simp] theorem State.mapCx_portOf (f : CtxS → CtxS) : (s.mapCx f).portOf k = s.portOf k := rfl
@[simp] theorem State.mapCx_slotOf (f : CtxS → CtxS) : (s.mapCx f).slotOf k = s.slotOf k := rfl
@[simp] theorem State.mapCx_coreOf (f : CtxS → CtxS) : (s.mapCx f).coreOf k = s.coreOf k := rfl
@[simp] theorem State.mapCx_opc (f : CtxS → CtxS) : (s.mapCx f).opc k = s.opc k := rfl
@[simp] theorem State.mapCx_carder (f : CtxS → CtxS) : (s.mapCx f).carder k = s.carder k := rfl
@[simp] theorem State.mapCx_stage (f : CtxS → CtxS) : (s.mapCx f).stage k = s.stage k := rfl
@[simp] theorem State.mapCx_stest (f : CtxS → CtxS) : (s.mapCx f).stest k = s.stest k := rfl
@[simp] theorem State.mapCx_winOf (f : CtxS → CtxS) : (s.mapCx f).winOf k = s.winOf k := rfl
@[simp] theorem State.mapCarders_eng (f : CarderS → CarderS) : (s.mapCarders f).eng k = s.eng k := rfl
@[simp] theorem State.mapCarders_ctxOf (f : CarderS → CarderS) : (s.mapCarders f).ctxOf k = s.ctxOf k := rfl
@[simp] theorem State.mapCarders_bank (f : CarderS → CarderS) : (s.mapCarders f).bank k = s.bank k := rfl
@[simp] theorem State.mapCarders_grnDie (f : CarderS → CarderS) : (s.mapCarders f).grnDie k = s.grnDie k := rfl
@[simp] theorem State.mapCarders_gleaner (f : CarderS → CarderS) : (s.mapCarders f).gleaner k = s.gleaner k := rfl
@[simp] theorem State.mapCarders_hmcOf (f : CarderS → CarderS) : (s.mapCarders f).hmcOf k = s.hmcOf k := rfl
@[simp] theorem State.mapCarders_blkOf (f : CarderS → CarderS) : (s.mapCarders f).blkOf k = s.blkOf k := rfl
@[simp] theorem State.mapCarders_kvwOf (f : CarderS → CarderS) : (s.mapCarders f).kvwOf k = s.kvwOf k := rfl
@[simp] theorem State.mapCarders_stream (f : CarderS → CarderS) : (s.mapCarders f).stream k = s.stream k := rfl
@[simp] theorem State.mapCarders_portOf (f : CarderS → CarderS) : (s.mapCarders f).portOf k = s.portOf k := rfl
@[simp] theorem State.mapCarders_slotOf (f : CarderS → CarderS) : (s.mapCarders f).slotOf k = s.slotOf k := rfl
@[simp] theorem State.mapCarders_coreOf (f : CarderS → CarderS) : (s.mapCarders f).coreOf k = s.coreOf k := rfl
@[simp] theorem State.mapCarders_opc (f : CarderS → CarderS) : (s.mapCarders f).opc k = s.opc k := rfl
@[simp] theorem State.mapCarders_stage (f : CarderS → CarderS) : (s.mapCarders f).stage k = s.stage k := rfl
@[simp] theorem State.mapCarders_stest (f : CarderS → CarderS) : (s.mapCarders f).stest k = s.stest k := rfl
@[simp] theorem State.mapCarders_winOf (f : CarderS → CarderS) : (s.mapCarders f).winOf k = s.winOf k := rfl
@[simp] theorem State.mapGrn_eng (f : GrnS → GrnS) : (s.mapGrn f).eng k = s.eng k := rfl
@[simp] theorem State.mapGrn_ctxOf (f : GrnS → GrnS) : (s.mapGrn f).ctxOf k = s.ctxOf k := rfl
@[simp] theorem State.mapGrn_gleaner (f : GrnS → GrnS) : (s.mapGrn f).gleaner k = s.gleaner k := rfl
@[simp] theorem State.mapGrn_hmcOf (f : GrnS → GrnS) : (s.mapGrn f).hmcOf k = s.hmcOf k := rfl
@[simp] theorem State.mapGrn_blkOf (f : GrnS → GrnS) : (s.mapGrn f).blkOf k = s.blkOf k := rfl
@[simp] theorem State.mapGrn_kvwOf (f : GrnS → GrnS) : (s.mapGrn f).kvwOf k = s.kvwOf k := rfl
@[simp] theorem State.mapGrn_stream (f : GrnS → GrnS) : (s.mapGrn f).stream k = s.stream k := rfl
@[simp] theorem State.mapGrn_portOf (f : GrnS → GrnS) : (s.mapGrn f).portOf k = s.portOf k := rfl
@[simp] theorem State.mapGrn_slotOf (f : GrnS → GrnS) : (s.mapGrn f).slotOf k = s.slotOf k := rfl
@[simp] theorem State.mapGrn_coreOf (f : GrnS → GrnS) : (s.mapGrn f).coreOf k = s.coreOf k := rfl
@[simp] theorem State.mapGrn_opc (f : GrnS → GrnS) : (s.mapGrn f).opc k = s.opc k := rfl
@[simp] theorem State.mapGrn_carder (f : GrnS → GrnS) : (s.mapGrn f).carder k = s.carder k := rfl
@[simp] theorem State.mapGrn_stage (f : GrnS → GrnS) : (s.mapGrn f).stage k = s.stage k := rfl
@[simp] theorem State.mapGrn_stest (f : GrnS → GrnS) : (s.mapGrn f).stest k = s.stest k := rfl
@[simp] theorem State.mapGrn_winOf (f : GrnS → GrnS) : (s.mapGrn f).winOf k = s.winOf k := rfl
@[simp] theorem State.mapGln_eng (f : GlnS → GlnS) : (s.mapGln f).eng k = s.eng k := rfl
@[simp] theorem State.mapGln_ctxOf (f : GlnS → GlnS) : (s.mapGln f).ctxOf k = s.ctxOf k := rfl
@[simp] theorem State.mapGln_bank (f : GlnS → GlnS) : (s.mapGln f).bank k = s.bank k := rfl
@[simp] theorem State.mapGln_grnDie (f : GlnS → GlnS) : (s.mapGln f).grnDie k = s.grnDie k := rfl
@[simp] theorem State.mapGln_hmcOf (f : GlnS → GlnS) : (s.mapGln f).hmcOf k = s.hmcOf k := rfl
@[simp] theorem State.mapGln_blkOf (f : GlnS → GlnS) : (s.mapGln f).blkOf k = s.blkOf k := rfl
@[simp] theorem State.mapGln_kvwOf (f : GlnS → GlnS) : (s.mapGln f).kvwOf k = s.kvwOf k := rfl
@[simp] theorem State.mapGln_stream (f : GlnS → GlnS) : (s.mapGln f).stream k = s.stream k := rfl
@[simp] theorem State.mapGln_portOf (f : GlnS → GlnS) : (s.mapGln f).portOf k = s.portOf k := rfl
@[simp] theorem State.mapGln_slotOf (f : GlnS → GlnS) : (s.mapGln f).slotOf k = s.slotOf k := rfl
@[simp] theorem State.mapGln_coreOf (f : GlnS → GlnS) : (s.mapGln f).coreOf k = s.coreOf k := rfl
@[simp] theorem State.mapGln_opc (f : GlnS → GlnS) : (s.mapGln f).opc k = s.opc k := rfl
@[simp] theorem State.mapGln_carder (f : GlnS → GlnS) : (s.mapGln f).carder k = s.carder k := rfl
@[simp] theorem State.mapGln_stage (f : GlnS → GlnS) : (s.mapGln f).stage k = s.stage k := rfl
@[simp] theorem State.mapGln_stest (f : GlnS → GlnS) : (s.mapGln f).stest k = s.stest k := rfl
@[simp] theorem State.mapGln_winOf (f : GlnS → GlnS) : (s.mapGln f).winOf k = s.winOf k := rfl
@[simp] theorem State.mapKvw_eng (f : KvwS → KvwS) : (s.mapKvw f).eng k = s.eng k := rfl
@[simp] theorem State.mapKvw_ctxOf (f : KvwS → KvwS) : (s.mapKvw f).ctxOf k = s.ctxOf k := rfl
@[simp] theorem State.mapKvw_bank (f : KvwS → KvwS) : (s.mapKvw f).bank k = s.bank k := rfl
@[simp] theorem State.mapKvw_grnDie (f : KvwS → KvwS) : (s.mapKvw f).grnDie k = s.grnDie k := rfl
@[simp] theorem State.mapKvw_gleaner (f : KvwS → KvwS) : (s.mapKvw f).gleaner k = s.gleaner k := rfl
@[simp] theorem State.mapKvw_hmcOf (f : KvwS → KvwS) : (s.mapKvw f).hmcOf k = s.hmcOf k := rfl
@[simp] theorem State.mapKvw_blkOf (f : KvwS → KvwS) : (s.mapKvw f).blkOf k = s.blkOf k := rfl
@[simp] theorem State.mapKvw_stream (f : KvwS → KvwS) : (s.mapKvw f).stream k = s.stream k := rfl
@[simp] theorem State.mapKvw_portOf (f : KvwS → KvwS) : (s.mapKvw f).portOf k = s.portOf k := rfl
@[simp] theorem State.mapKvw_slotOf (f : KvwS → KvwS) : (s.mapKvw f).slotOf k = s.slotOf k := rfl
@[simp] theorem State.mapKvw_coreOf (f : KvwS → KvwS) : (s.mapKvw f).coreOf k = s.coreOf k := rfl
@[simp] theorem State.mapKvw_opc (f : KvwS → KvwS) : (s.mapKvw f).opc k = s.opc k := rfl
@[simp] theorem State.mapKvw_carder (f : KvwS → KvwS) : (s.mapKvw f).carder k = s.carder k := rfl
@[simp] theorem State.mapKvw_stage (f : KvwS → KvwS) : (s.mapKvw f).stage k = s.stage k := rfl
@[simp] theorem State.mapKvw_stest (f : KvwS → KvwS) : (s.mapKvw f).stest k = s.stest k := rfl
@[simp] theorem State.mapKvw_winOf (f : KvwS → KvwS) : (s.mapKvw f).winOf k = s.winOf k := rfl
@[simp] theorem State.mapHmc_eng (f : HmcS → HmcS) : (s.mapHmc f).eng k = s.eng k := rfl
@[simp] theorem State.mapHmc_ctxOf (f : HmcS → HmcS) : (s.mapHmc f).ctxOf k = s.ctxOf k := rfl
@[simp] theorem State.mapHmc_bank (f : HmcS → HmcS) : (s.mapHmc f).bank k = s.bank k := rfl
@[simp] theorem State.mapHmc_grnDie (f : HmcS → HmcS) : (s.mapHmc f).grnDie k = s.grnDie k := rfl
@[simp] theorem State.mapHmc_gleaner (f : HmcS → HmcS) : (s.mapHmc f).gleaner k = s.gleaner k := rfl
@[simp] theorem State.mapHmc_blkOf (f : HmcS → HmcS) : (s.mapHmc f).blkOf k = s.blkOf k := rfl
@[simp] theorem State.mapHmc_kvwOf (f : HmcS → HmcS) : (s.mapHmc f).kvwOf k = s.kvwOf k := rfl
@[simp] theorem State.mapHmc_stream (f : HmcS → HmcS) : (s.mapHmc f).stream k = s.stream k := rfl
@[simp] theorem State.mapHmc_portOf (f : HmcS → HmcS) : (s.mapHmc f).portOf k = s.portOf k := rfl
@[simp] theorem State.mapHmc_slotOf (f : HmcS → HmcS) : (s.mapHmc f).slotOf k = s.slotOf k := rfl
@[simp] theorem State.mapHmc_coreOf (f : HmcS → HmcS) : (s.mapHmc f).coreOf k = s.coreOf k := rfl
@[simp] theorem State.mapHmc_opc (f : HmcS → HmcS) : (s.mapHmc f).opc k = s.opc k := rfl
@[simp] theorem State.mapHmc_carder (f : HmcS → HmcS) : (s.mapHmc f).carder k = s.carder k := rfl
@[simp] theorem State.mapHmc_stage (f : HmcS → HmcS) : (s.mapHmc f).stage k = s.stage k := rfl
@[simp] theorem State.mapHmc_stest (f : HmcS → HmcS) : (s.mapHmc f).stest k = s.stest k := rfl
@[simp] theorem State.mapHmc_winOf (f : HmcS → HmcS) : (s.mapHmc f).winOf k = s.winOf k := rfl
@[simp] theorem State.mapBlk_eng (f : BlkS → BlkS) : (s.mapBlk f).eng k = s.eng k := rfl
@[simp] theorem State.mapBlk_ctxOf (f : BlkS → BlkS) : (s.mapBlk f).ctxOf k = s.ctxOf k := rfl
@[simp] theorem State.mapBlk_bank (f : BlkS → BlkS) : (s.mapBlk f).bank k = s.bank k := rfl
@[simp] theorem State.mapBlk_grnDie (f : BlkS → BlkS) : (s.mapBlk f).grnDie k = s.grnDie k := rfl
@[simp] theorem State.mapBlk_gleaner (f : BlkS → BlkS) : (s.mapBlk f).gleaner k = s.gleaner k := rfl
@[simp] theorem State.mapBlk_hmcOf (f : BlkS → BlkS) : (s.mapBlk f).hmcOf k = s.hmcOf k := rfl
@[simp] theorem State.mapBlk_kvwOf (f : BlkS → BlkS) : (s.mapBlk f).kvwOf k = s.kvwOf k := rfl
@[simp] theorem State.mapBlk_stream (f : BlkS → BlkS) : (s.mapBlk f).stream k = s.stream k := rfl
@[simp] theorem State.mapBlk_portOf (f : BlkS → BlkS) : (s.mapBlk f).portOf k = s.portOf k := rfl
@[simp] theorem State.mapBlk_slotOf (f : BlkS → BlkS) : (s.mapBlk f).slotOf k = s.slotOf k := rfl
@[simp] theorem State.mapBlk_coreOf (f : BlkS → BlkS) : (s.mapBlk f).coreOf k = s.coreOf k := rfl
@[simp] theorem State.mapBlk_opc (f : BlkS → BlkS) : (s.mapBlk f).opc k = s.opc k := rfl
@[simp] theorem State.mapBlk_carder (f : BlkS → BlkS) : (s.mapBlk f).carder k = s.carder k := rfl
@[simp] theorem State.mapBlk_stage (f : BlkS → BlkS) : (s.mapBlk f).stage k = s.stage k := rfl
@[simp] theorem State.mapBlk_stest (f : BlkS → BlkS) : (s.mapBlk f).stest k = s.stest k := rfl
@[simp] theorem State.mapBlk_winOf (f : BlkS → BlkS) : (s.mapBlk f).winOf k = s.winOf k := rfl
@[simp] theorem State.mapOut_eng (f : OutS → OutS) : (s.mapOut f).eng k = s.eng k := rfl
@[simp] theorem State.mapOut_ctxOf (f : OutS → OutS) : (s.mapOut f).ctxOf k = s.ctxOf k := rfl
@[simp] theorem State.mapOut_bank (f : OutS → OutS) : (s.mapOut f).bank k = s.bank k := rfl
@[simp] theorem State.mapOut_grnDie (f : OutS → OutS) : (s.mapOut f).grnDie k = s.grnDie k := rfl
@[simp] theorem State.mapOut_gleaner (f : OutS → OutS) : (s.mapOut f).gleaner k = s.gleaner k := rfl
@[simp] theorem State.mapOut_hmcOf (f : OutS → OutS) : (s.mapOut f).hmcOf k = s.hmcOf k := rfl
@[simp] theorem State.mapOut_blkOf (f : OutS → OutS) : (s.mapOut f).blkOf k = s.blkOf k := rfl
@[simp] theorem State.mapOut_kvwOf (f : OutS → OutS) : (s.mapOut f).kvwOf k = s.kvwOf k := rfl
@[simp] theorem State.mapOut_stream (f : OutS → OutS) : (s.mapOut f).stream k = s.stream k := rfl
@[simp] theorem State.mapOut_portOf (f : OutS → OutS) : (s.mapOut f).portOf k = s.portOf k := rfl
@[simp] theorem State.mapOut_slotOf (f : OutS → OutS) : (s.mapOut f).slotOf k = s.slotOf k := rfl
@[simp] theorem State.mapOut_coreOf (f : OutS → OutS) : (s.mapOut f).coreOf k = s.coreOf k := rfl
@[simp] theorem State.mapOut_opc (f : OutS → OutS) : (s.mapOut f).opc k = s.opc k := rfl
@[simp] theorem State.mapOut_carder (f : OutS → OutS) : (s.mapOut f).carder k = s.carder k := rfl
@[simp] theorem State.mapOut_stage (f : OutS → OutS) : (s.mapOut f).stage k = s.stage k := rfl
@[simp] theorem State.mapOut_stest (f : OutS → OutS) : (s.mapOut f).stest k = s.stest k := rfl
@[simp] theorem State.mapOut_winOf (f : OutS → OutS) : (s.mapOut f).winOf k = s.winOf k := rfl
@[simp] theorem State.mapIng_eng (f : IngS → IngS) : (s.mapIng f).eng k = s.eng k := rfl
@[simp] theorem State.mapIng_ctxOf (f : IngS → IngS) : (s.mapIng f).ctxOf k = s.ctxOf k := rfl
@[simp] theorem State.mapIng_bank (f : IngS → IngS) : (s.mapIng f).bank k = s.bank k := rfl
@[simp] theorem State.mapIng_grnDie (f : IngS → IngS) : (s.mapIng f).grnDie k = s.grnDie k := rfl
@[simp] theorem State.mapIng_gleaner (f : IngS → IngS) : (s.mapIng f).gleaner k = s.gleaner k := rfl
@[simp] theorem State.mapIng_hmcOf (f : IngS → IngS) : (s.mapIng f).hmcOf k = s.hmcOf k := rfl
@[simp] theorem State.mapIng_blkOf (f : IngS → IngS) : (s.mapIng f).blkOf k = s.blkOf k := rfl
@[simp] theorem State.mapIng_kvwOf (f : IngS → IngS) : (s.mapIng f).kvwOf k = s.kvwOf k := rfl
@[simp] theorem State.mapIng_portOf (f : IngS → IngS) : (s.mapIng f).portOf k = s.portOf k := rfl
@[simp] theorem State.mapIng_slotOf (f : IngS → IngS) : (s.mapIng f).slotOf k = s.slotOf k := rfl
@[simp] theorem State.mapIng_coreOf (f : IngS → IngS) : (s.mapIng f).coreOf k = s.coreOf k := rfl
@[simp] theorem State.mapIng_opc (f : IngS → IngS) : (s.mapIng f).opc k = s.opc k := rfl
@[simp] theorem State.mapIng_carder (f : IngS → IngS) : (s.mapIng f).carder k = s.carder k := rfl
@[simp] theorem State.mapIng_stage (f : IngS → IngS) : (s.mapIng f).stage k = s.stage k := rfl
@[simp] theorem State.mapIng_stest (f : IngS → IngS) : (s.mapIng f).stest k = s.stest k := rfl
@[simp] theorem State.mapIng_winOf (f : IngS → IngS) : (s.mapIng f).winOf k = s.winOf k := rfl
@[simp] theorem State.mapCool_eng (f : CoolS → CoolS) : (s.mapCool f).eng k = s.eng k := rfl
@[simp] theorem State.mapCool_ctxOf (f : CoolS → CoolS) : (s.mapCool f).ctxOf k = s.ctxOf k := rfl
@[simp] theorem State.mapCool_bank (f : CoolS → CoolS) : (s.mapCool f).bank k = s.bank k := rfl
@[simp] theorem State.mapCool_grnDie (f : CoolS → CoolS) : (s.mapCool f).grnDie k = s.grnDie k := rfl
@[simp] theorem State.mapCool_gleaner (f : CoolS → CoolS) : (s.mapCool f).gleaner k = s.gleaner k := rfl
@[simp] theorem State.mapCool_hmcOf (f : CoolS → CoolS) : (s.mapCool f).hmcOf k = s.hmcOf k := rfl
@[simp] theorem State.mapCool_blkOf (f : CoolS → CoolS) : (s.mapCool f).blkOf k = s.blkOf k := rfl
@[simp] theorem State.mapCool_kvwOf (f : CoolS → CoolS) : (s.mapCool f).kvwOf k = s.kvwOf k := rfl
@[simp] theorem State.mapCool_stream (f : CoolS → CoolS) : (s.mapCool f).stream k = s.stream k := rfl
@[simp] theorem State.mapCool_portOf (f : CoolS → CoolS) : (s.mapCool f).portOf k = s.portOf k := rfl
@[simp] theorem State.mapCool_slotOf (f : CoolS → CoolS) : (s.mapCool f).slotOf k = s.slotOf k := rfl
@[simp] theorem State.mapCool_coreOf (f : CoolS → CoolS) : (s.mapCool f).coreOf k = s.coreOf k := rfl
@[simp] theorem State.mapCool_opc (f : CoolS → CoolS) : (s.mapCool f).opc k = s.opc k := rfl
@[simp] theorem State.mapCool_carder (f : CoolS → CoolS) : (s.mapCool f).carder k = s.carder k := rfl
@[simp] theorem State.mapCool_stage (f : CoolS → CoolS) : (s.mapCool f).stage k = s.stage k := rfl
@[simp] theorem State.mapCool_stest (f : CoolS → CoolS) : (s.mapCool f).stest k = s.stest k := rfl
@[simp] theorem State.mapCool_winOf (f : CoolS → CoolS) : (s.mapCool f).winOf k = s.winOf k := rfl
@[simp] theorem State.mapSw_eng (f : SwS → SwS) : (s.mapSw f).eng k = s.eng k := rfl
@[simp] theorem State.mapSw_ctxOf (f : SwS → SwS) : (s.mapSw f).ctxOf k = s.ctxOf k := rfl
@[simp] theorem State.mapSw_bank (f : SwS → SwS) : (s.mapSw f).bank k = s.bank k := rfl
@[simp] theorem State.mapSw_grnDie (f : SwS → SwS) : (s.mapSw f).grnDie k = s.grnDie k := rfl
@[simp] theorem State.mapSw_gleaner (f : SwS → SwS) : (s.mapSw f).gleaner k = s.gleaner k := rfl
@[simp] theorem State.mapSw_hmcOf (f : SwS → SwS) : (s.mapSw f).hmcOf k = s.hmcOf k := rfl
@[simp] theorem State.mapSw_blkOf (f : SwS → SwS) : (s.mapSw f).blkOf k = s.blkOf k := rfl
@[simp] theorem State.mapSw_kvwOf (f : SwS → SwS) : (s.mapSw f).kvwOf k = s.kvwOf k := rfl
@[simp] theorem State.mapSw_stream (f : SwS → SwS) : (s.mapSw f).stream k = s.stream k := rfl
@[simp] theorem State.mapSw_slotOf (f : SwS → SwS) : (s.mapSw f).slotOf k = s.slotOf k := rfl
@[simp] theorem State.mapSw_coreOf (f : SwS → SwS) : (s.mapSw f).coreOf k = s.coreOf k := rfl
@[simp] theorem State.mapSw_opc (f : SwS → SwS) : (s.mapSw f).opc k = s.opc k := rfl
@[simp] theorem State.mapSw_carder (f : SwS → SwS) : (s.mapSw f).carder k = s.carder k := rfl
@[simp] theorem State.mapSw_stage (f : SwS → SwS) : (s.mapSw f).stage k = s.stage k := rfl
@[simp] theorem State.mapSw_stest (f : SwS → SwS) : (s.mapSw f).stest k = s.stest k := rfl
@[simp] theorem State.mapSw_winOf (f : SwS → SwS) : (s.mapSw f).winOf k = s.winOf k := rfl
@[simp] theorem State.mapKcp_eng (f : KcpS → KcpS) : (s.mapKcp f).eng k = s.eng k := rfl
@[simp] theorem State.mapKcp_ctxOf (f : KcpS → KcpS) : (s.mapKcp f).ctxOf k = s.ctxOf k := rfl
@[simp] theorem State.mapKcp_bank (f : KcpS → KcpS) : (s.mapKcp f).bank k = s.bank k := rfl
@[simp] theorem State.mapKcp_grnDie (f : KcpS → KcpS) : (s.mapKcp f).grnDie k = s.grnDie k := rfl
@[simp] theorem State.mapKcp_gleaner (f : KcpS → KcpS) : (s.mapKcp f).gleaner k = s.gleaner k := rfl
@[simp] theorem State.mapKcp_hmcOf (f : KcpS → KcpS) : (s.mapKcp f).hmcOf k = s.hmcOf k := rfl
@[simp] theorem State.mapKcp_blkOf (f : KcpS → KcpS) : (s.mapKcp f).blkOf k = s.blkOf k := rfl
@[simp] theorem State.mapKcp_kvwOf (f : KcpS → KcpS) : (s.mapKcp f).kvwOf k = s.kvwOf k := rfl
@[simp] theorem State.mapKcp_stream (f : KcpS → KcpS) : (s.mapKcp f).stream k = s.stream k := rfl
@[simp] theorem State.mapKcp_portOf (f : KcpS → KcpS) : (s.mapKcp f).portOf k = s.portOf k := rfl
@[simp] theorem State.mapKcp_slotOf (f : KcpS → KcpS) : (s.mapKcp f).slotOf k = s.slotOf k := rfl
@[simp] theorem State.mapKcp_coreOf (f : KcpS → KcpS) : (s.mapKcp f).coreOf k = s.coreOf k := rfl
@[simp] theorem State.mapKcp_opc (f : KcpS → KcpS) : (s.mapKcp f).opc k = s.opc k := rfl
@[simp] theorem State.mapKcp_carder (f : KcpS → KcpS) : (s.mapKcp f).carder k = s.carder k := rfl
@[simp] theorem State.mapKcp_stage (f : KcpS → KcpS) : (s.mapKcp f).stage k = s.stage k := rfl
@[simp] theorem State.mapKcp_stest (f : KcpS → KcpS) : (s.mapKcp f).stest k = s.stest k := rfl
@[simp] theorem State.mapKcp_winOf (f : KcpS → KcpS) : (s.mapKcp f).winOf k = s.winOf k := rfl
@[simp] theorem State.mapCore_eng (f : CoreS → CoreS) : (s.mapCore f).eng k = s.eng k := rfl
@[simp] theorem State.mapCore_ctxOf (f : CoreS → CoreS) : (s.mapCore f).ctxOf k = s.ctxOf k := rfl
@[simp] theorem State.mapCore_bank (f : CoreS → CoreS) : (s.mapCore f).bank k = s.bank k := rfl
@[simp] theorem State.mapCore_grnDie (f : CoreS → CoreS) : (s.mapCore f).grnDie k = s.grnDie k := rfl
@[simp] theorem State.mapCore_gleaner (f : CoreS → CoreS) : (s.mapCore f).gleaner k = s.gleaner k := rfl
@[simp] theorem State.mapCore_hmcOf (f : CoreS → CoreS) : (s.mapCore f).hmcOf k = s.hmcOf k := rfl
@[simp] theorem State.mapCore_blkOf (f : CoreS → CoreS) : (s.mapCore f).blkOf k = s.blkOf k := rfl
@[simp] theorem State.mapCore_kvwOf (f : CoreS → CoreS) : (s.mapCore f).kvwOf k = s.kvwOf k := rfl
@[simp] theorem State.mapCore_stream (f : CoreS → CoreS) : (s.mapCore f).stream k = s.stream k := rfl
@[simp] theorem State.mapCore_portOf (f : CoreS → CoreS) : (s.mapCore f).portOf k = s.portOf k := rfl
@[simp] theorem State.mapCore_slotOf (f : CoreS → CoreS) : (s.mapCore f).slotOf k = s.slotOf k := rfl
@[simp] theorem State.mapCore_opc (f : CoreS → CoreS) : (s.mapCore f).opc k = s.opc k := rfl
@[simp] theorem State.mapCore_carder (f : CoreS → CoreS) : (s.mapCore f).carder k = s.carder k := rfl
@[simp] theorem State.mapCore_stage (f : CoreS → CoreS) : (s.mapCore f).stage k = s.stage k := rfl
@[simp] theorem State.mapCore_stest (f : CoreS → CoreS) : (s.mapCore f).stest k = s.stest k := rfl
@[simp] theorem State.mapCore_winOf (f : CoreS → CoreS) : (s.mapCore f).winOf k = s.winOf k := rfl
@[simp] theorem State.mapHwa_eng (f : HwaS → HwaS) : (s.mapHwa f).eng k = s.eng k := rfl
@[simp] theorem State.mapHwa_ctxOf (f : HwaS → HwaS) : (s.mapHwa f).ctxOf k = s.ctxOf k := rfl
@[simp] theorem State.mapHwa_bank (f : HwaS → HwaS) : (s.mapHwa f).bank k = s.bank k := rfl
@[simp] theorem State.mapHwa_grnDie (f : HwaS → HwaS) : (s.mapHwa f).grnDie k = s.grnDie k := rfl
@[simp] theorem State.mapHwa_gleaner (f : HwaS → HwaS) : (s.mapHwa f).gleaner k = s.gleaner k := rfl
@[simp] theorem State.mapHwa_hmcOf (f : HwaS → HwaS) : (s.mapHwa f).hmcOf k = s.hmcOf k := rfl
@[simp] theorem State.mapHwa_blkOf (f : HwaS → HwaS) : (s.mapHwa f).blkOf k = s.blkOf k := rfl
@[simp] theorem State.mapHwa_kvwOf (f : HwaS → HwaS) : (s.mapHwa f).kvwOf k = s.kvwOf k := rfl
@[simp] theorem State.mapHwa_stream (f : HwaS → HwaS) : (s.mapHwa f).stream k = s.stream k := rfl
@[simp] theorem State.mapHwa_portOf (f : HwaS → HwaS) : (s.mapHwa f).portOf k = s.portOf k := rfl
@[simp] theorem State.mapHwa_slotOf (f : HwaS → HwaS) : (s.mapHwa f).slotOf k = s.slotOf k := rfl
@[simp] theorem State.mapHwa_coreOf (f : HwaS → HwaS) : (s.mapHwa f).coreOf k = s.coreOf k := rfl
@[simp] theorem State.mapHwa_opc (f : HwaS → HwaS) : (s.mapHwa f).opc k = s.opc k := rfl
@[simp] theorem State.mapHwa_carder (f : HwaS → HwaS) : (s.mapHwa f).carder k = s.carder k := rfl
@[simp] theorem State.mapHwa_winOf (f : HwaS → HwaS) : (s.mapHwa f).winOf k = s.winOf k := rfl
@[simp] theorem State.mapHwb_eng (f : HwbS → HwbS) : (s.mapHwb f).eng k = s.eng k := rfl
@[simp] theorem State.mapHwb_ctxOf (f : HwbS → HwbS) : (s.mapHwb f).ctxOf k = s.ctxOf k := rfl
@[simp] theorem State.mapHwb_bank (f : HwbS → HwbS) : (s.mapHwb f).bank k = s.bank k := rfl
@[simp] theorem State.mapHwb_grnDie (f : HwbS → HwbS) : (s.mapHwb f).grnDie k = s.grnDie k := rfl
@[simp] theorem State.mapHwb_gleaner (f : HwbS → HwbS) : (s.mapHwb f).gleaner k = s.gleaner k := rfl
@[simp] theorem State.mapHwb_hmcOf (f : HwbS → HwbS) : (s.mapHwb f).hmcOf k = s.hmcOf k := rfl
@[simp] theorem State.mapHwb_blkOf (f : HwbS → HwbS) : (s.mapHwb f).blkOf k = s.blkOf k := rfl
@[simp] theorem State.mapHwb_kvwOf (f : HwbS → HwbS) : (s.mapHwb f).kvwOf k = s.kvwOf k := rfl
@[simp] theorem State.mapHwb_stream (f : HwbS → HwbS) : (s.mapHwb f).stream k = s.stream k := rfl
@[simp] theorem State.mapHwb_portOf (f : HwbS → HwbS) : (s.mapHwb f).portOf k = s.portOf k := rfl
@[simp] theorem State.mapHwb_slotOf (f : HwbS → HwbS) : (s.mapHwb f).slotOf k = s.slotOf k := rfl
@[simp] theorem State.mapHwb_coreOf (f : HwbS → HwbS) : (s.mapHwb f).coreOf k = s.coreOf k := rfl
@[simp] theorem State.mapHwb_opc (f : HwbS → HwbS) : (s.mapHwb f).opc k = s.opc k := rfl
@[simp] theorem State.mapHwb_carder (f : HwbS → HwbS) : (s.mapHwb f).carder k = s.carder k := rfl
@[simp] theorem State.mapHwb_stage (f : HwbS → HwbS) : (s.mapHwb f).stage k = s.stage k := rfl
@[simp] theorem State.mapHwb_stest (f : HwbS → HwbS) : (s.mapHwb f).stest k = s.stest k := rfl
@[simp] theorem State.mapHwb_winOf (f : HwbS → HwbS) : (s.mapHwb f).winOf k = s.winOf k := rfl
@[simp] theorem State.mapPair_eng (f : PairS → PairS) : (s.mapPair f).eng k = s.eng k := rfl
@[simp] theorem State.mapPair_ctxOf (f : PairS → PairS) : (s.mapPair f).ctxOf k = s.ctxOf k := rfl
@[simp] theorem State.mapPair_bank (f : PairS → PairS) : (s.mapPair f).bank k = s.bank k := rfl
@[simp] theorem State.mapPair_grnDie (f : PairS → PairS) : (s.mapPair f).grnDie k = s.grnDie k := rfl
@[simp] theorem State.mapPair_gleaner (f : PairS → PairS) : (s.mapPair f).gleaner k = s.gleaner k := rfl
@[simp] theorem State.mapPair_hmcOf (f : PairS → PairS) : (s.mapPair f).hmcOf k = s.hmcOf k := rfl
@[simp] theorem State.mapPair_blkOf (f : PairS → PairS) : (s.mapPair f).blkOf k = s.blkOf k := rfl
@[simp] theorem State.mapPair_kvwOf (f : PairS → PairS) : (s.mapPair f).kvwOf k = s.kvwOf k := rfl
@[simp] theorem State.mapPair_stream (f : PairS → PairS) : (s.mapPair f).stream k = s.stream k := rfl
@[simp] theorem State.mapPair_portOf (f : PairS → PairS) : (s.mapPair f).portOf k = s.portOf k := rfl
@[simp] theorem State.mapPair_slotOf (f : PairS → PairS) : (s.mapPair f).slotOf k = s.slotOf k := rfl
@[simp] theorem State.mapPair_coreOf (f : PairS → PairS) : (s.mapPair f).coreOf k = s.coreOf k := rfl
@[simp] theorem State.mapPair_opc (f : PairS → PairS) : (s.mapPair f).opc k = s.opc k := rfl
@[simp] theorem State.mapPair_carder (f : PairS → PairS) : (s.mapPair f).carder k = s.carder k := rfl
@[simp] theorem State.mapPair_stage (f : PairS → PairS) : (s.mapPair f).stage k = s.stage k := rfl
@[simp] theorem State.mapPair_stest (f : PairS → PairS) : (s.mapPair f).stest k = s.stest k := rfl
@[simp] theorem State.mapPair_winOf (f : PairS → PairS) : (s.mapPair f).winOf k = s.winOf k := rfl
@[simp] theorem State.mapDnp_eng (f : DnpS → DnpS) : (s.mapDnp f).eng k = s.eng k := rfl
@[simp] theorem State.mapDnp_ctxOf (f : DnpS → DnpS) : (s.mapDnp f).ctxOf k = s.ctxOf k := rfl
@[simp] theorem State.mapDnp_bank (f : DnpS → DnpS) : (s.mapDnp f).bank k = s.bank k := rfl
@[simp] theorem State.mapDnp_grnDie (f : DnpS → DnpS) : (s.mapDnp f).grnDie k = s.grnDie k := rfl
@[simp] theorem State.mapDnp_gleaner (f : DnpS → DnpS) : (s.mapDnp f).gleaner k = s.gleaner k := rfl
@[simp] theorem State.mapDnp_hmcOf (f : DnpS → DnpS) : (s.mapDnp f).hmcOf k = s.hmcOf k := rfl
@[simp] theorem State.mapDnp_blkOf (f : DnpS → DnpS) : (s.mapDnp f).blkOf k = s.blkOf k := rfl
@[simp] theorem State.mapDnp_kvwOf (f : DnpS → DnpS) : (s.mapDnp f).kvwOf k = s.kvwOf k := rfl
@[simp] theorem State.mapDnp_stream (f : DnpS → DnpS) : (s.mapDnp f).stream k = s.stream k := rfl
@[simp] theorem State.mapDnp_portOf (f : DnpS → DnpS) : (s.mapDnp f).portOf k = s.portOf k := rfl
@[simp] theorem State.mapDnp_slotOf (f : DnpS → DnpS) : (s.mapDnp f).slotOf k = s.slotOf k := rfl
@[simp] theorem State.mapDnp_coreOf (f : DnpS → DnpS) : (s.mapDnp f).coreOf k = s.coreOf k := rfl
@[simp] theorem State.mapDnp_opc (f : DnpS → DnpS) : (s.mapDnp f).opc k = s.opc k := rfl
@[simp] theorem State.mapDnp_carder (f : DnpS → DnpS) : (s.mapDnp f).carder k = s.carder k := rfl
@[simp] theorem State.mapDnp_stage (f : DnpS → DnpS) : (s.mapDnp f).stage k = s.stage k := rfl
@[simp] theorem State.mapDnp_stest (f : DnpS → DnpS) : (s.mapDnp f).stest k = s.stest k := rfl
@[simp] theorem State.mapDnp_winOf (f : DnpS → DnpS) : (s.mapDnp f).winOf k = s.winOf k := rfl
@[simp] theorem State.mapFlt_eng (f : FltS → FltS) : (s.mapFlt f).eng k = s.eng k := rfl
@[simp] theorem State.mapFlt_ctxOf (f : FltS → FltS) : (s.mapFlt f).ctxOf k = s.ctxOf k := rfl
@[simp] theorem State.mapFlt_bank (f : FltS → FltS) : (s.mapFlt f).bank k = s.bank k := rfl
@[simp] theorem State.mapFlt_grnDie (f : FltS → FltS) : (s.mapFlt f).grnDie k = s.grnDie k := rfl
@[simp] theorem State.mapFlt_gleaner (f : FltS → FltS) : (s.mapFlt f).gleaner k = s.gleaner k := rfl
@[simp] theorem State.mapFlt_hmcOf (f : FltS → FltS) : (s.mapFlt f).hmcOf k = s.hmcOf k := rfl
@[simp] theorem State.mapFlt_blkOf (f : FltS → FltS) : (s.mapFlt f).blkOf k = s.blkOf k := rfl
@[simp] theorem State.mapFlt_kvwOf (f : FltS → FltS) : (s.mapFlt f).kvwOf k = s.kvwOf k := rfl
@[simp] theorem State.mapFlt_stream (f : FltS → FltS) : (s.mapFlt f).stream k = s.stream k := rfl
@[simp] theorem State.mapFlt_portOf (f : FltS → FltS) : (s.mapFlt f).portOf k = s.portOf k := rfl
@[simp] theorem State.mapFlt_slotOf (f : FltS → FltS) : (s.mapFlt f).slotOf k = s.slotOf k := rfl
@[simp] theorem State.mapFlt_coreOf (f : FltS → FltS) : (s.mapFlt f).coreOf k = s.coreOf k := rfl
@[simp] theorem State.mapFlt_opc (f : FltS → FltS) : (s.mapFlt f).opc k = s.opc k := rfl
@[simp] theorem State.mapFlt_carder (f : FltS → FltS) : (s.mapFlt f).carder k = s.carder k := rfl
@[simp] theorem State.mapFlt_stage (f : FltS → FltS) : (s.mapFlt f).stage k = s.stage k := rfl
@[simp] theorem State.mapFlt_stest (f : FltS → FltS) : (s.mapFlt f).stest k = s.stest k := rfl
@[simp] theorem State.mapFlt_winOf (f : FltS → FltS) : (s.mapFlt f).winOf k = s.winOf k := rfl
@[simp] theorem State.mapBoot_eng (f : BootS → BootS) : (s.mapBoot f).eng k = s.eng k := rfl
@[simp] theorem State.mapBoot_ctxOf (f : BootS → BootS) : (s.mapBoot f).ctxOf k = s.ctxOf k := rfl
@[simp] theorem State.mapBoot_bank (f : BootS → BootS) : (s.mapBoot f).bank k = s.bank k := rfl
@[simp] theorem State.mapBoot_grnDie (f : BootS → BootS) : (s.mapBoot f).grnDie k = s.grnDie k := rfl
@[simp] theorem State.mapBoot_gleaner (f : BootS → BootS) : (s.mapBoot f).gleaner k = s.gleaner k := rfl
@[simp] theorem State.mapBoot_hmcOf (f : BootS → BootS) : (s.mapBoot f).hmcOf k = s.hmcOf k := rfl
@[simp] theorem State.mapBoot_blkOf (f : BootS → BootS) : (s.mapBoot f).blkOf k = s.blkOf k := rfl
@[simp] theorem State.mapBoot_kvwOf (f : BootS → BootS) : (s.mapBoot f).kvwOf k = s.kvwOf k := rfl
@[simp] theorem State.mapBoot_stream (f : BootS → BootS) : (s.mapBoot f).stream k = s.stream k := rfl
@[simp] theorem State.mapBoot_portOf (f : BootS → BootS) : (s.mapBoot f).portOf k = s.portOf k := rfl
@[simp] theorem State.mapBoot_slotOf (f : BootS → BootS) : (s.mapBoot f).slotOf k = s.slotOf k := rfl
@[simp] theorem State.mapBoot_coreOf (f : BootS → BootS) : (s.mapBoot f).coreOf k = s.coreOf k := rfl
@[simp] theorem State.mapBoot_opc (f : BootS → BootS) : (s.mapBoot f).opc k = s.opc k := rfl
@[simp] theorem State.mapBoot_carder (f : BootS → BootS) : (s.mapBoot f).carder k = s.carder k := rfl
@[simp] theorem State.mapBoot_stage (f : BootS → BootS) : (s.mapBoot f).stage k = s.stage k := rfl
@[simp] theorem State.mapBoot_stest (f : BootS → BootS) : (s.mapBoot f).stest k = s.stest k := rfl
@[simp] theorem State.mapBoot_winOf (f : BootS → BootS) : (s.mapBoot f).winOf k = s.winOf k := rfl
@[simp] theorem State.mapSec_eng (f : SecS → SecS) : (s.mapSec f).eng k = s.eng k := rfl
@[simp] theorem State.mapSec_ctxOf (f : SecS → SecS) : (s.mapSec f).ctxOf k = s.ctxOf k := rfl
@[simp] theorem State.mapSec_bank (f : SecS → SecS) : (s.mapSec f).bank k = s.bank k := rfl
@[simp] theorem State.mapSec_grnDie (f : SecS → SecS) : (s.mapSec f).grnDie k = s.grnDie k := rfl
@[simp] theorem State.mapSec_gleaner (f : SecS → SecS) : (s.mapSec f).gleaner k = s.gleaner k := rfl
@[simp] theorem State.mapSec_hmcOf (f : SecS → SecS) : (s.mapSec f).hmcOf k = s.hmcOf k := rfl
@[simp] theorem State.mapSec_blkOf (f : SecS → SecS) : (s.mapSec f).blkOf k = s.blkOf k := rfl
@[simp] theorem State.mapSec_kvwOf (f : SecS → SecS) : (s.mapSec f).kvwOf k = s.kvwOf k := rfl
@[simp] theorem State.mapSec_stream (f : SecS → SecS) : (s.mapSec f).stream k = s.stream k := rfl
@[simp] theorem State.mapSec_portOf (f : SecS → SecS) : (s.mapSec f).portOf k = s.portOf k := rfl
@[simp] theorem State.mapSec_slotOf (f : SecS → SecS) : (s.mapSec f).slotOf k = s.slotOf k := rfl
@[simp] theorem State.mapSec_coreOf (f : SecS → SecS) : (s.mapSec f).coreOf k = s.coreOf k := rfl
@[simp] theorem State.mapSec_opc (f : SecS → SecS) : (s.mapSec f).opc k = s.opc k := rfl
@[simp] theorem State.mapSec_carder (f : SecS → SecS) : (s.mapSec f).carder k = s.carder k := rfl
@[simp] theorem State.mapSec_stage (f : SecS → SecS) : (s.mapSec f).stage k = s.stage k := rfl
@[simp] theorem State.mapSec_stest (f : SecS → SecS) : (s.mapSec f).stest k = s.stest k := rfl
@[simp] theorem State.mapSec_winOf (f : SecS → SecS) : (s.mapSec f).winOf k = s.winOf k := rfl
@[simp] theorem State.mapThm_eng (f : ThmS → ThmS) : (s.mapThm f).eng k = s.eng k := rfl
@[simp] theorem State.mapThm_ctxOf (f : ThmS → ThmS) : (s.mapThm f).ctxOf k = s.ctxOf k := rfl
@[simp] theorem State.mapThm_bank (f : ThmS → ThmS) : (s.mapThm f).bank k = s.bank k := rfl
@[simp] theorem State.mapThm_grnDie (f : ThmS → ThmS) : (s.mapThm f).grnDie k = s.grnDie k := rfl
@[simp] theorem State.mapThm_gleaner (f : ThmS → ThmS) : (s.mapThm f).gleaner k = s.gleaner k := rfl
@[simp] theorem State.mapThm_hmcOf (f : ThmS → ThmS) : (s.mapThm f).hmcOf k = s.hmcOf k := rfl
@[simp] theorem State.mapThm_blkOf (f : ThmS → ThmS) : (s.mapThm f).blkOf k = s.blkOf k := rfl
@[simp] theorem State.mapThm_kvwOf (f : ThmS → ThmS) : (s.mapThm f).kvwOf k = s.kvwOf k := rfl
@[simp] theorem State.mapThm_stream (f : ThmS → ThmS) : (s.mapThm f).stream k = s.stream k := rfl
@[simp] theorem State.mapThm_portOf (f : ThmS → ThmS) : (s.mapThm f).portOf k = s.portOf k := rfl
@[simp] theorem State.mapThm_slotOf (f : ThmS → ThmS) : (s.mapThm f).slotOf k = s.slotOf k := rfl
@[simp] theorem State.mapThm_coreOf (f : ThmS → ThmS) : (s.mapThm f).coreOf k = s.coreOf k := rfl
@[simp] theorem State.mapThm_carder (f : ThmS → ThmS) : (s.mapThm f).carder k = s.carder k := rfl
@[simp] theorem State.mapThm_stage (f : ThmS → ThmS) : (s.mapThm f).stage k = s.stage k := rfl
@[simp] theorem State.mapThm_stest (f : ThmS → ThmS) : (s.mapThm f).stest k = s.stest k := rfl
@[simp] theorem State.mapThm_winOf (f : ThmS → ThmS) : (s.mapThm f).winOf k = s.winOf k := rfl
@[simp] theorem State.mapTap_eng (f : TapS → TapS) : (s.mapTap f).eng k = s.eng k := rfl
@[simp] theorem State.mapTap_ctxOf (f : TapS → TapS) : (s.mapTap f).ctxOf k = s.ctxOf k := rfl
@[simp] theorem State.mapTap_bank (f : TapS → TapS) : (s.mapTap f).bank k = s.bank k := rfl
@[simp] theorem State.mapTap_grnDie (f : TapS → TapS) : (s.mapTap f).grnDie k = s.grnDie k := rfl
@[simp] theorem State.mapTap_gleaner (f : TapS → TapS) : (s.mapTap f).gleaner k = s.gleaner k := rfl
@[simp] theorem State.mapTap_hmcOf (f : TapS → TapS) : (s.mapTap f).hmcOf k = s.hmcOf k := rfl
@[simp] theorem State.mapTap_blkOf (f : TapS → TapS) : (s.mapTap f).blkOf k = s.blkOf k := rfl
@[simp] theorem State.mapTap_kvwOf (f : TapS → TapS) : (s.mapTap f).kvwOf k = s.kvwOf k := rfl
@[simp] theorem State.mapTap_stream (f : TapS → TapS) : (s.mapTap f).stream k = s.stream k := rfl
@[simp] theorem State.mapTap_portOf (f : TapS → TapS) : (s.mapTap f).portOf k = s.portOf k := rfl
@[simp] theorem State.mapTap_slotOf (f : TapS → TapS) : (s.mapTap f).slotOf k = s.slotOf k := rfl
@[simp] theorem State.mapTap_coreOf (f : TapS → TapS) : (s.mapTap f).coreOf k = s.coreOf k := rfl
@[simp] theorem State.mapTap_opc (f : TapS → TapS) : (s.mapTap f).opc k = s.opc k := rfl
@[simp] theorem State.mapTap_carder (f : TapS → TapS) : (s.mapTap f).carder k = s.carder k := rfl
@[simp] theorem State.mapTap_stage (f : TapS → TapS) : (s.mapTap f).stage k = s.stage k := rfl
@[simp] theorem State.mapTap_stest (f : TapS → TapS) : (s.mapTap f).stest k = s.stest k := rfl
@[simp] theorem State.mapTap_winOf (f : TapS → TapS) : (s.mapTap f).winOf k = s.winOf k := rfl

end Sys2Proof.Machine
end

