-- ==== Sys2Proof/Laws/Settle.lean ====
section
/-! SUPPORT. Settling a quiet state changes nothing. -/

namespace Sys2Proof.Machine


theorem quiet_iff {s : State} : quiet s = true ↔ s.tly.openEps = [] ∧ s.pair.pstate ≠ 1#3 ∧ s.pair.swapAt = none := by
  simp [quiet, and_assoc]

theorem settleOnce_quiet {s : State} (h : s.tly.openEps = []) : s.settleOnce = s := by
  simp [State.settleOnce, h]

theorem settleN_quiet {s : State} (h : s.tly.openEps = []) : ∀ n, settleN n s = s
  | 0 => rfl
  | n + 1 => by rw [settleN, settleOnce_quiet h, settleN_quiet h n]

theorem settle_quiet {s : State} (h : quiet s = true) : s.settle = s := by
  obtain ⟨h1, h2, h3⟩ := quiet_iff.1 h
  have hr : s.resignCheck = s := by simp [State.resignCheck, h2]
  simp [State.settle, hr, settleN_quiet h1, State.swapCheck, h3]

end Sys2Proof.Machine
end

