-- ==== Sys2Proof/WellFormed.lean ====
section
/-! DEFINITION. Well-formed commands: lists of the length the command's rule names, operands inside their fields. The
machine runs ill-formed commands too; statements name this predicate where a rule fixes a length. -/

namespace Sys2Proof

/-- A command whose operands have the shape the spec gives them. -/
def Instr.wf : Instr → Bool
  | .opcTableWrite _ _ levels => levels.length == 16
  | .slotBodyWrite _ _ off data => decide (off.val + data.length ≤ 256)
  | .fabricPostedWrite r data => data.length == r.size.bytes
  | .fabricAckWrite r data => data.length == r.size.bytes
  | .thermalSample u readings => readings.length == (if u.val < 4 then 12 else if u.val = 4 then 4 else 2)
  | .thermalEvaluation _ stks => stks.length == 4
  | .telemetryRound rails dies => rails.length == 16 && dies.length == 4
  | .msgOpen _ _ _ _ apply => decide (apply.length ≤ 16)
  | .msgCfg _ body _ => body.length == 256
  | .msgInput _ _ digest => digest.length == 48
  | .msgDigest _ _ _ digest => digest.length == 48
  | .hbmReadBurstResult k addr _ _ _ => decide (k.val * 0x600000000 ≤ addr.toNat) && decide (addr.toNat < (k.val + 1) * 0x600000000)
  | _ => true

end Sys2Proof
end

