-- ==== Sys2Proof/Tests/Slice0.lean ====
section
/-! SUPPORT. Tests: ill-formed commands are refused by the check, single steps against values of the spec, and for each statement with
hypotheses states and operands that meet them, clause by clause. -/

open Sys2Proof Sys2Proof.Machine

namespace Sys2Proof.Tests

set_option Elab.async false

/-! ## Small states -/

/-- A module in service: the start is over, every die runs, the host is master, no twin takes part. -/
def up : State :=
  { State.reset with
    time := { State.reset.time with tickA := 300000000, tickB := 300000000, dnp := 3000000, hck := 4096 }
    pins := { State.reset.pins with resetN := true, pg := 0x1FF#9, safeN := true }
    boot := { State.reset.boot with started := true, state := 1#2, step := 0x0D#8 }
    mbx := { State.reset.mbx with ready := true, role := true, master := 1#2 }
    pair := { State.reset.pair with pstate := 0#3 }
    flt := { State.reset.flt with dies := [(0, .running), (1, .running), (2, .running), (3, .running)] } }


/-! ## What meets the hypotheses of the statements -/

def ping0 : Instr := .ping { slot := 15, seq := 1#16, atEpoch := false, target := 0#64, respOffset := 0#32 }

theorem meets_StepRunsFront :
    { up with pending := [ping0] }.pending = ping0 :: [] ∧ State.reset.pending = [] ∧ State.reset.boot.started = false ∧
    up.pending = [] ∧ up.boot.started = true ∧ up.cmds.active = [] ∧ up.flt.safe = false ∧
    (up.mapFlt (fun f => { f with safe := true })).flt.safe = true ∧ (up.mapFlt (fun f => { f with safe := true })).pending = [] := by
  decide

theorem meets_EveryStepKeepsMemoryCanonical :
    Memory.wf (up.put 0xFFFFFFFFFF [1#8]).mem = true ∧ step (up.put 0xFFFFFFFFFF [1#8]) = .next (up.put 0xFFFFFFFFFF [1#8]).tick :=
  ⟨by decide, rfl⟩

/-- A record of the ledger with nothing in it. -/
def blankRec : Rec :=
  { epoch := 0#64, openTick := 0, published := true, flags := 0#16, withhold := 0#32, deadline := 0, closeTick := 0, publishTick := 0,
    digest := 0#384, twinDigest := 0#384, serial := 0#64, prev := 0#64, configGen := 0#64, cmds := [], inputCount := 0,
    inputDigest := 0#384, results := [], selCase := 0, trajMapEpoch := 0#64, traj := [], dies := [], power := 0, tin := 0#16, tout := 0#16,
    flow := 0, role := 0, skipped := 0, chaff := 0, slow := [], wdg := [], golden := ⟨0, 0, 0, 0⟩, err := ⟨0, 0, 0, 0, 0⟩ }

def fullLedger : State := up.mapTly (fun t => { t with recs := List.replicate 64 blankRec })

theorem meets_FusesAndLedgerLast : fullLedger.tly.recs.length ≤ 64 ∧ step fullLedger = .next fullLedger.tick := ⟨by decide, rfl⟩

/-- Bank 2047 of die 3 is bank 8191. -/
def withBank (f : Bank → Bank) : State := up.updBank 8191 (fun _ => f { Bank.init with owner := 5#7, pstate := 0#2 })

theorem meets_BankCommandsTakeEffect :
    coreOrReeve (.core 31) = true ∧ up.dieRuns 3 = true ∧ (0x40#7).toNat ≤ 0x40 ∧ (5#7).toNat ≤ 0x40 ∧
    ((withBank id).bank 8191).busy = false ∧ ((withBank id).bank 8191).clearing = false ∧ ((withBank id).bank 8191).owner = 5#7 ∧
    ((withBank id).bank 8191).pstate = 0#2 ∧ (1#2 : BitVec 2) ≠ 3#2 ∧ ((withBank id).bank 8191).pstate ≠ 1#2 ∧
    ((withBank id).bank 8191).pstate ≠ 2#2 ∧ ((withBank (fun b => { b with busy := true })).bank 8191).busy = true ∧
    ((withBank (fun b => { b with busy := true })).bank 8191).waking = false ∧
    ((withBank (fun b => { b with busy := true, target := 2#2 })).bank 8191).target = 2#2 ∧
    ((withBank (fun b => { b with clearing := true })).bank 8191).clearing = true ∧
    ((withBank (fun b => { b with clearing := true })).bank 8191).held = [] := by decide

theorem meets_BankCommandsAreRefused :
    bankCheck ((withBank id).bank 8191) false ⟨true, false, 3, 5, 0x41⟩ = 3 ∧ 0x40 < (0x41#7).toNat ∧ (0x41#7).toNat ≠ 0x7F ∧
    ((withBank (fun b => { b with pstate := 1#2 })).bank 8191).pstate ≠ 0#2 ∧
    bankCheck ((withBank (fun b => { b with pstate := 1#2 })).bank 8191) false ⟨true, true, 3, 5, 5⟩ = 4 ∧
    ((withBank (fun b => { b with busy := true })).bank 8191).busy = true ∧
    ((withBank id).bank 8191).owner ≠ 0x40#7 := by decide

/-- Context 5 owns bank 0 of die 0, which holds a stream descriptor that copies one element of 64 bytes. -/
def glnUp (f : Gleaner → Gleaner) : State :=
  ((up.updBank 0 (fun b => { b with owner := 5#7, pstate := 0#2 })).updGleaner 0 (fun g => f { g with ctx := 5#6, mode := 1#2 })).put granaryBase
    ([1#8, 5#8, 1#8] ++ List.replicate 13 0#8 ++ leBytes 8 (granaryBase + 64) ++ leBytes 8 (granaryBase + 128) ++ leBytes 4 64 ++ leBytes 2 1 ++
      leBytes 2 1)
def glnDesc0 : GlnDesc := glnDescOf ((glnUp id).bytesAt granaryBase 64)

theorem meets_GleanersRunTheirChains_1 :
    quiet up = true ∧ coreOrReeve .reeve = true ∧ (up.gleaner 31).state = 0#3 ∧ (0xA0000000#32).getLsbD 31 = true ∧
    (0xA0000000#32).getLsbD 0 = false ∧ (0xA0000000#32).extractLsb' 29 2 = 1#2 ∧ (up.gleaner 31).streams = [] ∧ (up.gleaner 31).epoch = none ∧
    (up.gleaner 31).stopping = false ∧ ((glnUp (fun g => { g with next := some 0x4000000000 })).gleaner 0).next = some 0x4000000000 ∧
    ((glnUp (fun g => { g with next := some 0x4000000000 })).gleaner 0).state ≠ 5#3 ∧
    (0x10000#32).getLsbD 16 = true ∧ (up.kvCtx 3 63).walks = [] := by decide

theorem meets_GleanersRunTheirChains_2 : (glnUp id).load (whoEngine 0 5) 0x4000000000 64 = .error (.hole, 0x4000000000) := by rfl

theorem meets_GleanersRunTheirChains_3 :
    ((glnUp (fun g => { g with next := some granaryBase })).gleaner 0).next = some granaryBase ∧ quiet (glnUp id) = true ∧
    clean (glnUp id) = true ∧ (glnUp id).awake = true ∧
    (glnUp id).dieRuns 0 = true ∧ glnCheck 0 1 5 ((glnUp id).nodes (glnUp id).tly.opened 5).length glnDesc0 = none ∧ glnDesc0.skind = 0 ∧
    glnDesc0.elem = 64 ∧ glnDesc0.count = 1 ∧ glnDesc0.rows = 1 ∧ (glnUp id).fab.pend = [] ∧
    placeOf glnDesc0.src = .gran 0 0 64 ∧ bankServes (glnUp id) 0 0 = true ∧
    (glnUp id).judge (whoEngine 0 glnDesc0.ctx) glnDesc0.src = .ok := by decide

theorem meets_GleanersRunTheirChains_4 : (glnUp id).load (whoEngine 0 5) granaryBase 64 = .ok ((glnUp id).bytesAt granaryBase 64) := by rfl

/-- A stream of one line whose read with TAG 0 is outstanding, and the answer of that read. -/
def glnStream0 (w : List GlnLine) (r : List GlnLine) : GlnStream :=
  { desc := glnDesc0, epoch := none, gen := 0#16, root := 0#40, issued := 1, reads := r, writes := w, page := none, dead := false, failed := false }
def glnPend : Pend :=
  { src := .gleaner 0 0, tag := 0#12, gen := 0#8, addr := granaryBase + 64, posted := false, zeros := 64, die := some 0, since := 0,
    answer := some (.ok, List.replicate 64 7#8) }
def glnLast : State :=
  (glnUp (fun g => { g with state := 3#3, streams := [glnStream0 [] [⟨0#12, 0⟩]] })).mapFab (fun f => { f with pend := [glnPend] })
def glnDone : State := glnUp (fun g => { g with state := 3#3, streams := [glnStream0 [] []] })

theorem meets_GleanersRunTheirChains_5 :
    (glnLast.gleaner 0).streams = [glnStream0 [] [⟨0#12, 0⟩]] ∧ glnDesc0.lines = 1 ∧ glnDesc0.lineAt 0 = (glnDesc0.src, glnDesc0.dst) ∧
    (List.replicate 64 7#8).length = 64 ∧ glnLast.fab.pend = [glnPend] ∧ placeOf glnDesc0.dst = .gran 0 0 128 ∧ glnDesc0.dst % 64 = 0 ∧
    bankServes glnLast 0 0 = true ∧ glnLast.judge (whoEngine 0 glnDesc0.ctx) glnDesc0.dst = .ok ∧ quiet glnLast = true ∧ clean glnLast = true := by decide

theorem meets_GleanersRunTheirChains_6 :
    (glnDone.gleaner 0).streams = [glnStream0 [] []] ∧ (glnStream0 [] []).landed = true ∧ glnDesc0.skind = 0 ∧ (glnDone.gleaner 0).epoch = none ∧
    (glnDone.gleaner 0).next = none ∧
    (glnDone.gleaner 0).stopping = false ∧ (glnDone.gleaner 0).mode = 1#2 ∧ (glnDone.gleaner 0).state = 3#3 ∧
    (glnDone.gleaner 0).waitEpochs = [] := by decide

/-- A request of core 0 of 4 bytes to an address, as it stands in a queue. -/
def req0 (sc addr : Nat) (k : ReqKind) : Req :=
  { src := .core 0, tag := 0xFFF#12, addr := addr, size := 4, sc := sc, ctx := 0, part := 0, gen := 0#8, kind := k, data := [] }
def hreq0 (sc : Nat) (k : ReqKind) : HReq := { req := req0 sc 0 k, port := 0, answer := [], entered := 0, urg := 0, aged := false }

/-- Pseudo-channel 31 of stack 3. -/
def withPc (f : HPc → HPc) : State := up.updPc 3 31 f

theorem meets_HbmQueuesAndRefresh :
    ((((withPc (fun p => { p with banks := [(47, { HBank.init with row := some 1, used := 4032 })] })).hmcOf 3).pc 31).bank 47).row.isSome = true ∧
    ((((withPc (fun p => { p with banks := [(47, { HBank.init with row := some 1, used := 4032 })] })).hmcOf 3).pc 31).bank 47).used +
      (up.hmcOf 3).pageIdle.toNat ≤ up.time.hck ∧
    (((withPc (fun p => { p with queue := List.replicate 16 (hreq0 1 .read) })).hmcOf 3).pc 31).queue[15]? = some (hreq0 1 .read) ∧
    (up.hmcOf 3).refMode = false ∧ (((withPc (fun p => { p with nextBank := 47 })).hmcOf 3).pc 31).nextBank = 47 ∧
    ((withPc (fun p => { p with nextBank := 47 })).hmcOf 3).refBase + (((withPc (fun p => { p with nextBank := 47 })).hmcOf 3).pc 31).refAt + (up.hmcOf 3).refPeriod ≤ up.time.hck ∧
    (up.hmcOf 3).atPc 31 = [] ∧ ((up.hmcOf 3).pc 31).owed = [] ∧ (up.hmcOf 3).refBlocked 31 47 = false ∧
    ((withPc (fun p => { p with debt := 7, queue := [hreq0 0 .read] })).hmcOf 3).refBlocked 31 0 = true ∧
    (((withPc (fun p => { p with debt := 7, queue := [hreq0 0 .read] })).hmcOf 3).pc 31).debt < 8 ∧
    (up.hmcOf 3).winAt + 1024 ≤ up.time.hck := by decide

theorem meets_HbmRegulatorWindow : (up.hmcOf 3).held = [] := rfl

theorem meets_HbmServiceAndErrors :
    (((withPc (fun p => { p with queue := [hreq0 1 .acked] })).hmcOf 3).pc 31).queue = [hreq0 1 .acked] ∧
    ((withPc (fun p => { p with queue := [hreq0 1 .acked] })).hmcOf 3).held = [] ∧
    ((withPc (fun p => { p with queue := [hreq0 1 .acked] })).updHmc 3 (fun h => { h with state := 2#2 })).stackRuns 3 = true ∧
    (((withPc (fun p => { p with queue := [hreq0 1 .acked] })).hmcOf 3).pc 31).owed = [] ∧ (hreq0 1 .acked).req.kind = .acked ∧
    quiet up = true ∧ (up.hmcOf 3).logSev ≠ 3#2 ∧ up.awake = true ∧ ((up.updHmc 3 (fun h => { h with state := 1#2 })).hmcOf 3).state = 1#2 ∧
    (up.mapMbx (fun m => { m with ready := false })).mbx.ready = false := by decide

/-- Address 0 of stack 3 lies in pseudo-channel 0, which holds a read of it by context 0 on port 0. -/
def sev3Up : State := up.updPc 3 0 (fun p => { p with queue := [hreq0 1 .read] })

theorem meets_HbmSeverityThree :
    ((up.hmcOf 3).pc ((up.hmcOf 3).place (0#40).toNat).1).queue = [] ∧
    ((sev3Up.hmcOf 3).pc ((sev3Up.hmcOf 3).place (0#40).toNat).1).queue = [hreq0 1 .read] ∧ (sev3Up.hmcOf 3).held = [] ∧
    (hreq0 1 .read).req.kind = .read ∧ (hreq0 1 .read).req.ctx = 0 ∧ (hreq0 1 .read).port = 0 ∧
    burstIn (hreq0 1 .read).req.addr (hreq0 1 .read).req.size ((0#40).toNat / 32 * 32) = true ∧ quiet sev3Up = true := by decide

def fabReq0 (src : Initiator) (a : Nat) (sz : AccSize) : FabReq :=
  { src := src, tag := 0xFFF#12, addr := BitVec.ofNat 40 a, size := sz, sc := 0, ctx := 5, part := 0, gen := 0#8, virt := none }

def regHdr0 (src : Initiator) : RegHdr := { src := src, tag := 0xFFF#12, sc := 0, ctx := 5, part := 0, gen := 0#8, virt := none }

/-- A register write of 4 or 8 bytes is such a request. -/
theorem regHdr0_req (src : Initiator) (a : Nat) :
    (regHdr0 src).req (BitVec.ofNat 40 a) false = fabReq0 src a .b4 ∧ (regHdr0 src).req (BitVec.ofNat 40 a) true = fabReq0 src a .b8 := ⟨rfl, rfl⟩

/-- Core 0 works for context 5, which owns the last bank of die 3. -/
def fabUp : State := (withBank id).updCoreOf 0 (fun c => { c with ctx := 5#6, valid := true })

theorem meets_FabricRequestsAreServed_1 :
    quiet fabUp = true ∧ clean fabUp = true ∧ sendable fabUp (fabReq0 (.thresher 0) 0x203FFFFFC0 .b64) = true ∧
    isCoreSrc (.thresher 0) = false ∧ sendable fabUp (fabReq0 (.thresher 0) 0x203FFFFFF8 .b8) = true ∧
    sendable fabUp (fabReq0 (.core 0) 0x203FFFFFC0 .b64) = true ∧ fabUp.judge (fabUp.whoCore 0) 0x203FFFFFC0 = .ok ∧
    placeOf 0x203FFFFFC0 = .gran 3 2047 0x1FFC0 ∧ placeOf 0x203FFFFFF8 = .gran 3 2047 0x1FFF8 ∧ bankServes fabUp 3 2047 = true ∧
    fabUp.judge (fabUp.whoOf (.thresher 0) 5 0x203FFFFFC0) 0x203FFFFFC0 = .ok ∧ (AccSize.b8).bytes ≤ 8 ∧
    sendable fabUp (fabReq0 (.thresher 0) 0x2040000000 .b4) = true ∧ placeOf 0x2040000000 = .hole := by decide

theorem meets_FabricRequestsAreServed_2 :
    bankServes fabUp 3 2046 = true ∧ placeOf 0x203FFDFFC0 = .gran 3 2046 0x1FFC0 ∧
    fabUp.judge (fabUp.whoOf (.thresher 0) 5 0x203FFDFFC0) 0x203FFDFFC0 = .unavailable ∧ (AccStatus.unavailable ≠ .ok) ∧
    0x203FFFFFC1 % (AccSize.b64).bytes ≠ 0 ∧ 0x203FFFFFC0 % (AccSize.b64).bytes = 0 ∧
    isRegs 0x203FFFFFC0 = false ∧ Tab.get 0#8 up.flt.gens (nodeOf (.thresher 0)) ≠ 1#8 ∧ up.fab.pend.any (sameTxn (.thresher 0) 0xFFF#12) = false ∧
    (up.coreOf 0).valid = false ∧ up.awake = true := by decide

def pend0 (a : Option (AccStatus × List Byte)) : Pend :=
  { src := .core 0, tag := 0xFFF#12, gen := 0#8, addr := 0x203FFFFFC0, posted := false, zeros := 0, die := none, since := 0, answer := a }
def pend1 (a : Option (AccStatus × List Byte)) : Pend := { pend0 a with src := .reeve }

theorem meets_RepliesAndTrackers :
    (0#8 : BitVec 8) = Tab.get 0#8 up.flt.gens (nodeOf (.core 0)) ∧ isCoreSrc .reeve = false ∧ isGlnSrc .reeve = false ∧
    (0#8 : BitVec 8) = Tab.get 0#8 up.flt.gens (nodeOf .reeve) ∧
    (up.mapFab (fun f => { f with pend := [pend1 (some (.ok, []))] })).fab.pend.find? (sameTxn .reeve 0xFFF#12) = some (pend1 (some (.ok, []))) ∧
    (up.mapFab (fun f => { f with pend := [pend0 (some (.ok, []))] })).fab.pend.find? (sameTxn (.core 0) 0xFFF#12) = some (pend0 (some (.ok, []))) ∧
    (up.mapFab (fun f => { f with pend := [pend0 (some (.hole, []))] })).fab.pend.find? (sameTxn (.core 0) 0xFFF#12) =
      some (pend0 (some (.hole, []))) ∧ (AccStatus.hole ≠ .ok) ∧
    (0xFF#8 : BitVec 8) ≠ Tab.get 0#8 up.flt.gens (nodeOf (.core 0)) := by decide

def heldUp : State := fabUp.mapFab (fun f => { f with pend := [pend0 none], held := [(3, [req0 3 0x203FFFFF80 .read, req0 0 0x203FFFFFC0 .read])] })

theorem meets_TrackerAdmit :
    quiet heldUp = true ∧ clean heldUp = true ∧ nextHeld (Tab.get [] heldUp.fab.held 3) = some (req0 0 0x203FFFFFC0 .read) ∧
    heldUp.tracked 3 < trackerSize ∧ (heldUp.hmcOf 3).held = [] ∧
    Tab.get 0#8 heldUp.flt.gens (nodeOf (.core 0)) = 0#8 ∧ (heldUp.bank 8191).clearing = false ∧
    heldUp.judge (heldUp.whoOf (.core 0) 0 0x203FFFFFC0) 0x203FFFFFC0 = .ok ∧ heldUp.fab.pend = [pend0 none] := by decide

theorem meets_RegisterAccesses :
    quiet up = true ∧ sendable up (fabReq0 .reeve (regBase + 3 * 0x1000000 + 0x10000) .b4) = true ∧
    sendable up (fabReq0 .reeve (regBase + 3 * 0x1000000 + 0x30008) .b4) = true ∧
    sendable fabUp (fabReq0 (.core 0) (regBase + 3 * 0x1000000 + 0x60010) .b4) = true ∧
    sendable up (fabReq0 .reeve 0x2040000000 .b4) = true ∧
    up.dieRuns 3 = true ∧ up.reach 4 3 = true ∧ (up.grnDie 3).lock = false ∧
    (1#64 : BitVec 64).getLsbD 0 = true ∧ (up.hmcOf 3).lock = false ∧ ((up.updHmc 3 (fun h => { h with lock := true })).hmcOf 3).lock = true ∧
    up.reach (nodeOf (.core 0)) 3 = true ∧ (0x3F#64 : BitVec 64).extractLsb' 0 6 ≠ (up.eng 12).head ∧ (memDie (0#40).toNat).isSome = true ∧
    up.pair.hideTly = false ∧ (Initiator.kcp ≠ .reeve) := by decide

/-- An open epoch with nothing gathered. -/
def openEp (n : BitVec 64) : OpenEp :=
  { n := n, openTick := 0, deadline := 0, paired := false, shadow := false, ctxs := [], waiting := [], withhold := 0#32, goldDefer := false,
    edge := false, fallback := false, duty := false, failover := false, cmds := [], configGen := 0#64, doneTick := none, digest := none,
    results := [], selCase := 0, traj := [], trajMapEpoch := 0#64, err := ⟨0, 0, 0, 0, 0⟩, corrSeen := false, chaff := 0, states := [],
    beats := [], dieErrs := [], twin := TwinEp.init }

/-- Window 3 copies, and epoch 1 is the last that has opened. -/
def copying (n : BitVec 64) : State :=
  (up.updWin 3 (fun w => { w with selLo := n.extractLsb' 0 32, selHi := n.extractLsb' 32 32, wstate := 1#3 })).mapTly (fun t =>
    { t with opened := 2#64, openEps := [openEp 2#64], recs := [{ blankRec with epoch := 1#64 }] })

theorem meets_SnapshotWindows :
    (Initiator.kcp = .kcp ↔ (0 : Fin 4) = 0) ∧ ((Initiator.core 0 = .kcp) ↔ (3 : Fin 4) = 0) ∧ (Initiator.kcp = .kcp ↔ (3 : Fin 4) ≠ 0) ∧
    ((copying 1#64).winOf 3).wstate = 1#3 ∧
    ((copying 1#64).tly.recs.find? (fun r => r.epoch.toNat = ((copying 1#64).winOf 3).wanted)).isSome = true ∧
    (copying 2#64).tly.recs.find? (fun r => r.epoch.toNat = ((copying 2#64).winOf 3).wanted) = none ∧
    ((copying 2#64).openEp? (BitVec.ofNat 64 ((copying 2#64).winOf 3).wanted)).isSome = true ∧
    (copying 3#64).tly.opened.toNat < ((copying 3#64).winOf 3).wanted ∧
    (copying 3#64).openEp? (BitVec.ofNat 64 ((copying 3#64).winOf 3).wanted) = none ∧
    (copying 0#64).openEp? (BitVec.ofNat 64 ((copying 0#64).winOf 3).wanted) = none ∧ (copying 0#64).pair.hideTly = false ∧
    ((copying 0#64).winOf 3).wanted ≤ (copying 0#64).tly.opened.toNat := by decide

/-- The target of SC0 is 96 HCK; entries of 47, 48, 71, 72, 95 and 96 HCK stand at the edges of the four urgencies. -/
theorem meets_HbmUrgency :
    96 = 4 * max 1 (bitsAt (Tab.get 0xC8502818#32 (up.hmcOf 3).port 0).toNat (8 * 0) 8) ∧
    ∀ a ∈ [47, 48, 71, 72, 95, 96],
      (((withPc (fun p => { p with queue := [{ hreq0 0 .read with entered := 4096 - a }] })).hmcOf 3).pc 31).queue[0]? =
        some { hreq0 0 .read with entered := 4096 - a } ∧ a = up.time.hck - (4096 - a) := by decide
/-- The last line of die 3's granary, and of what the home and the clusters hold of it. -/
def line0 : BitVec 34 := 0x80FFFFFF#34
def cohUp (f : CoreS → CoreS) : State := fabUp.mapCore f
def dirUp (owner : Option Nat) (l : List Nat) : State := cohUp (fun x => { x with dir := [(line0.toNat, { owner := owner, sharers := l, used := 0 })] })
def heldLine (own : Bool) : CLine := { own := own, data := 1#512, ctx := 5 }

theorem meets_CoherenceRequestsAreServed :
    fabUp.barred 0 (64 * line0.toNat) = false ∧ fabUp.putComes 0 line0.toNat = false ∧ fabUp.lineAt 0 line0.toNat = none ∧
    fabUp.judge (fabUp.whoCore 0) (64 * line0.toNat) = .ok ∧ homeDie line0.toNat < 4 ∧ Tab.look fabUp.core.txns line0.toNat = none ∧
    (fabUp.dirOf line0.toNat).owner = none ∧ ((dirUp (some 7) []).dirOf line0.toNat).owner = some 7 ∧ 7 ≠ (0 : Fin 32).val / 4 ∧
    ((dirUp none [0]).dirOf line0.toNat).sharers.filter (· ≠ (0 : Fin 32).val / 4) = [] ∧
    ((dirUp none [0, 7]).dirOf line0.toNat).sharers.filter (· ≠ (0 : Fin 32).val / 4) ≠ [] ∧
    ((dirUp none [0]).dirOf line0.toNat).sharers = [(0 : Fin 32).val / 4] ∧ up.judge (up.whoCore 31) (64 * (0x3FFFFFFFF#34).toNat) ≠ .ok := by decide +kernel

/-- Cluster cl holds the line. -/
def lineUp (cl : Nat) (own : Bool) (f : CoreS → CoreS) : State :=
  cohUp (fun x => f { x with
    lines := [(lineKey cl line0.toNat, heldLine own)]
    dir := [(line0.toNat, { owner := if own then some cl else none, sharers := if own then [] else [cl], used := 0 })] })

theorem meets_CoherenceUpgrade :
    (lineUp 0 false id).lineAt 0 line0.toNat = some (heldLine false) ∧ (heldLine false).own = false ∧ (lineUp 0 false id).barred 0 (64 * line0.toNat) = false ∧
    (lineUp 0 false id).judge ((lineUp 0 false id).whoCore 0) (64 * line0.toNat) = .ok ∧ Tab.look (lineUp 0 false id).core.txns line0.toNat = none ∧
    (lineUp 0 false id).putComes 0 line0.toNat = false ∧ ((lineUp 0 false id).dirOf line0.toNat).owner = none ∧
    ((lineUp 0 false id).dirOf line0.toNat).sharers = [0] := by decide +kernel

/-- A message of a kind to cluster 7 about the line. -/
def msg0 (kind : Nat) : CohMsg := cohMsg kind 3 7 line0.toNat
def msgUp (own : Bool) (m : CohMsg) : State := lineUp 7 own (fun x => { x with msgs := [m] })

theorem meets_CoherenceMessagesMoveLines_1 :
    quiet (lineUp 7 true id) = true ∧ clean (lineUp 7 true id) = true ∧ homeDie line0.toNat < 4 ∧
    (lineUp 7 true id).lineAt 7 line0.toNat = some (heldLine true) ∧
    (lineUp 7 true id).judge (whoLine 7 5) (64 * line0.toNat) = .ok ∧ ((lineUp 7 true id).dirOf line0.toNat).owner = some 7 ∧
    (∀ m ∈ (lineUp 7 true id).core.msgs, m.line ≠ line0.toNat) ∧ Tab.look (lineUp 7 true id).core.txns line0.toNat = none ∧
    (Tab.look (lineUp 7 true id).core.dir line0.toNat).isSome = true ∧
    (heldLine true).own = true ∧ (lineUp 7 false id).lineAt 7 line0.toNat = some (heldLine false) ∧ (heldLine false).own = false := by decide +kernel

theorem meets_inFlight :
    inFlight (msgUp true (msg0 0x08)) (isMsg 0x08 7 line0.toNat) ∧ inFlight (msgUp true (msg0 0x09)) (isMsg 0x09 7 line0.toNat) ∧
    inFlight (msgUp false (msg0 0x0A)) (isMsg 0x0A 7 line0.toNat) :=
  ⟨⟨msg0 0x08, by decide +kernel⟩, ⟨msg0 0x09, by decide +kernel⟩, ⟨msg0 0x0A, by decide +kernel⟩⟩

def req1 : CohReq := { core := 0, own := true, upgrade := false, acc := .load .lr }
def txn0 (acks : Nat) : CohTxn := { req := some req1, acks := acks, put := false, waiting := [] }
def ack0 (r : Nat) : CohMsg := { cohMsg 0x11 3 0 line0.toNat with req := r }
def data0 : CohMsg := cohMsg 0x10 3 0 line0.toNat

theorem meets_CoherenceMessagesMoveLines_2 :
    (cohUp (fun x => { x with txns := [(line0.toNat, txn0 0)], msgs := [data0] })).core.dir.length < dirCapacity ∧
    (cohUp (fun x => { x with txns := [(line0.toNat, txn0 0)], msgs := [data0] })).core.lines.length < l2Lines ∧
    (cohUp (fun x => { x with txns := [(line0.toNat, txn0 0)], msgs := [data0] })).core.msgs.find?
      (fun m => isMsg 0x10 0 line0.toNat m && m.data = 0#512 && m.own = false) = some data0 ∧
    data0.gen = Tab.get 0#8 fabUp.flt.gens data0.src ∧
    Tab.look (cohUp (fun x => { x with txns := [(line0.toNat, txn0 0)] })).core.txns line0.toNat = some (txn0 0) ∧
    (txn0 0).req = some req1 ∧ req1.core / 4 = (0 : Fin 8).val ∧ (txn0 0).waiting = [] ∧ (fabUp.coreOf 0).valid = true ∧
    (lineUp 0 false (fun x => { x with txns := [(line0.toNat, txn0 0)], msgs := [ack0 2] })).core.msgs.find? (isMsg 0x11 0 line0.toNat) =
      some (ack0 2) ∧ (ack0 2).req = 2 ∧ (ack0 2).gen = Tab.get 0#8 fabUp.flt.gens (ack0 2).src ∧
    (lineUp 0 false (fun x => { x with txns := [(line0.toNat, txn0 0)], msgs := [ack0 2] })).lineAt 0 line0.toNat = some (heldLine false) ∧
    (cohUp (fun x => { x with txns := [(line0.toNat, txn0 1)], msgs := [ack0 0] })).core.msgs.find? (isMsg 0x11 0 line0.toNat) = some (ack0 0) ∧
    (ack0 0).req = 0 ∧ (txn0 1).acks = 1 ∧ req1.upgrade = false := by decide +kernel

theorem meets_CacheBlockOperations :
    homeDie ((0x203FFFFFFF#40).toNat / 64) < 4 ∧ (Tab.look (lineUp 7 true id).core.dir ((0x203FFFFFFF#40).toNat / 64)).isSome = true ∧
    (lineUp 7 true id).barred 0 (0x203FFFFFFF#40).toNat = false ∧
    (lineUp 7 true id).judge ((lineUp 7 true id).whoCore 0) (0x203FFFFFFF#40).toNat = .ok ∧
    (lineUp 7 true id).lineAt 7 ((0x203FFFFFFF#40).toNat / 64) = some (heldLine true) ∧
    (lineUp 7 true id).judge (whoLine 7 5) (64 * ((0x203FFFFFFF#40).toNat / 64)) = .ok ∧ ((lineUp 7 true id).coreOf 0).waitBeat = none ∧
    (lineUp 7 true id).barred 31 (0x203FFFFFFF#40).toNat = true := by decide +kernel

theorem meets_CacheBlockHeldAlone (i : Nat) (m : CLine) (h : i ≠ 7) : (lineUp 7 true id).lineAt i line0.toNat = some m → m.own = false := by
  intro hm
  have hk : lineKey i line0.toNat ≠ lineKey 7 line0.toNat := by
    unfold lineKey; omega
  simp [State.lineAt, lineUp, cohUp, State.mapCore, Tab.look] at hm
  exact absurd hm.1 hk

theorem meets_CoreRegisters :
    ((up.updCtx 63 (fun c => { c with state := 1 })).ctxOf ((0x3F#64 : BitVec 64).extractLsb' 0 6).toNat).state ≠ 0 ∧
    (up.ctxOf ((0x3F#64 : BitVec 64).extractLsb' 0 6).toNat).state = 0 ∧ (up.coreOf 31).resv = none ∧
    ((up.updCoreOf 31 (fun c => { c with resv := some 0 })).coreOf 31).resv ≠ none := by decide +kernel
theorem meets_MailboxBlock :
    up.isMaster .kcp = true ∧ (up.slotOf 15).state = 0#2 ∧ bitsAt (0xFFFFF#32).toNat 0 4 = 15 ∧
    ((up.updSlot 15 (fun x => { x with state := 1#2 })).slotOf 15).state ≠ 0#2 ∧
    (∀ i : Fin 16, bitsAt (0x8000#32).toNat i 1 = 1 → ((up.updSlot 15 (fun x => { x with state := 3#2 })).slotOf i).state = 3#2) ∧
    up.isMaster (.core 0) = false ∧ (up.mapMbx (fun m => { m with master := 2#2 })).isMaster (.core 3) = true ∧
    (up.mapMbx (fun m => { m with master := 2#2 })).isMaster (.core 4) = false ∧ up.mbx.order = [] ∧ up.pair.carried = [] ∧ up.cmds.active = [] := by
  decide

def badSeq : State := (up.updSlot 15 (fun x => { x with state := 1#2, lastSeq := 0#16 })).mapMbx (fun m => { m with order := [15] })

theorem meets_SlotTake :
    badSeq.mbx.ready = true ∧ badSeq.flt.reeveHung = false ∧ badSeq.mbx.order = [(15 : Fin 16).val] ∧ badSeq.cmds.active = [] ∧
    badSeq.pair.carried = [] ∧ quiet badSeq = true ∧ bodySeq (badSeq.slotBody 15) ≠ (badSeq.slotOf 15).lastSeq + 1 ∧
    (badSeq.slotOf 15).dbSeq = bodySeq (badSeq.slotBody 15) := by decide +kernel

/-- A PING waits in slot 15: opcode 0x0001, the slot's next SEQ, no arguments. -/
def pingUp : State :=
  (up.updSlot 15 (fun x => { x with state := 1#2, lastSeq := 0xFFFF#16, body := [(0, 1#8)] })).mapMbx (fun m => { m with order := [15] })

theorem meets_SlotTakePing :
    pingUp.mbx.ready = true ∧ pingUp.flt.reeveHung = false ∧ pingUp.mbx.order = [(15 : Fin 16).val] ∧ pingUp.cmds.active = [] ∧
    pingUp.pair.carried = [] ∧ quiet pingUp = true ∧ bodySeq (pingUp.slotBody 15) = (pingUp.slotOf 15).lastSeq + 1 ∧
    (pingUp.slotOf 15).dbSeq = bodySeq (pingUp.slotBody 15) ∧ bodyOpcode (pingUp.slotBody 15) = 0x01 ∧ bodyArgLen (pingUp.slotBody 15) = 0 := by
  decide +kernel

/-- The next command of slot 15 after reset has SEQ 0 (R71). -/
def hdr0 : CmdHdr := { slot := 15, seq := 0#16, atEpoch := false, target := 0#64, respOffset := 0#32 }

theorem meets_ImmediateCommands :
    served up hdr0 = true ∧ hdr0.respOffset = 0#32 ∧ 10000 ≤ (300000000#32).toNat ∧ (300000000#32).toNat ≤ 300000000 ∧ up.mayOpen = true ∧
    up.pair.openHeld = [] ∧ up.contributors up.nextN = [] := by decide

theorem meets_Attest : ∀ p, up.sec.pair = some p → p.nonce ≠ 0#256 := by
  intro p h; cases h

def ctxUp (st : Nat) (g : Option Graph) : State := up.updCtx 63 (fun c => { c with state := st, graph := g })
def graph0 : Graph := { format := 1, gflags := 0, slots := 1, ringOff := 0, ringLen := 0, nodes := [], outs := [] }

theorem meets_EpochBoundCommandsApply_1 :
    served up hdr0 = true ∧ (63#8).toNat < 64 ∧ 10000 ≤ (10000#32).toNat ∧ (10000#32).toNat ≤ 300000000 ∧ 100000 ≤ (100000#32).toNat ∧
    (100000#32).toNat ≤ 100000000 ∧ (10000#32).toNat ≤ 3 * (100000#32).toNat ∧ up.mayOpen = true ∧ up.pair.openHeld = [] ∧ up.pair.twinOpen = [] ∧
    up.contributors up.nextN = [] ∧ 1 ≤ (1024#16).toNat ∧ (1024#16).toNat ≤ 1024 ∧ (up.ctxOf 63).state = 0 ∧ (7#8).toNat < 8 ∧ (3#8).toNat < 4 ∧
    (100000000#32).toNat = 100000000 := by decide

def stackUp : State := up.updHmc 3 (fun h => { h with state := 2#2 })

theorem meets_EpochBoundCommandsApply_2 :
    served stackUp hdr0 = true ∧ (0x17FFE00000#64).toNat % mib2 = 0 ∧ (0x200000#64).toNat ≠ 0 ∧ (0x200000#64).toNat % mib2 = 0 ∧
    (oneStack (0x17FFE00000#64).toNat (0x200000#64).toNat).isSome = true ∧
    stackUp.rangeFree (0x17FFE00000#64).toNat (0x200000#64).toNat = true ∧ stackUp.stackRuns ((0x17FFE00000#64).toNat / stackBytes) = true := by
  decide

theorem meets_EpochBoundCommandsApply_3 :
    served (ctxUp 1 (some graph0)) hdr0 = true ∧ ((ctxUp 1 (some graph0)).ctxOf 63).state = 1 ∧ (ctxUp 1 (some graph0)).ctxQuiet 63 = true ∧
    ((ctxUp 1 (some graph0)).ctxOf 63).graph.isSome = true ∧ served (ctxUp 2 (some graph0)) hdr0 = true ∧
    ((ctxUp 2 (some graph0)).ctxOf 63).state = 2 := by decide

/-- A table of 16 levels, of which level 0 is valid, and one throttle entry at 105 degrees. -/
def levels0 : List (BitVec 32 × BitVec 32) := (0x80000001#32, 0x50505050#32) :: List.replicate 15 (0#32, 0#32)
def opcUp : State := up.updOpc 3 (fun o => { o with opc := [(0, opcOfWords (0x80000001#32, 0x50505050#32))] })
def thrUp : State := stackUp.put 0x1200000000 ([0x90#8, 6#8, 0#8, 1#8] ++ List.replicate 60 0#8)
def src0 (n : Nat) : Source := { addr := 0x1200000000#64, len := BitVec.ofNat 32 n }

theorem meets_ConfigurationCommandsApply_1 :
    (3#8).toNat < 4 ∧ up.dieRuns (3#8).toNat = true ∧ levels0.length = 16 ∧ opcBad 0 none (levels0.map opcOfWords) = none ∧
    served opcUp hdr0 = true ∧ (0#8).toNat < 16 ∧ ((opcUp.opc 3).level 0).valid = true ∧ served thrUp hdr0 = true ∧
    (src0 64).addr.toNat + (src0 64).len.toNat ≤ 4 * stackBytes ∧ (thrUp.bytesAt 0x1200000000 64).length = 64 ∧
    thrBad 0 none true (thrPieces (thrUp.bytesAt 0x1200000000 64)) = none ∧ (15#8).toNat < 16 ∧
    wdgBad (leBytes 64 (0x11E1A300_00000000_00000000_00000101#512).toNat) = none := by decide +kernel

theorem meets_ThrottleLoad : thrUp.load whoReeve 0x1200000000 64 = .ok (thrUp.bytesAt 0x1200000000 64) := by rfl

/-- An ingest table of stream 63 with one channel and one state. -/
def ingBytes : List Byte :=
  leBytes 4 0x31544749 ++ [63#8, 1#8, 1#8, 1#8] ++ leBytes 4 10000 ++ List.replicate 52 0#8 ++
  [1#8, 5#8, 0#8, 0#8] ++ leBytes 6 0x88B5 ++ [5#8, 0#8] ++ leBytes 4 64 ++ leBytes 5 granaryBase ++ leBytes 5 (granaryBase + 0x10000) ++
  List.replicate 38 0#8 ++ [0#8, 0#8, 0#8, 1#8] ++ List.replicate 12 0#8
def ingUp : State := stackUp.put 0x1200000000 ingBytes

theorem meets_ConfigurationCommandsApply_2 :
    (63#8).toNat < 64 ∧ Tab.get false up.flt.iodSub 0 = false ∧ served ingUp hdr0 = true ∧
    (match parseIngTable (ingUp.featOn 1) 63 (ingUp.bytesAt 0x1200000000 144) with | .ok x => x.enable | .error _ => false) = true ∧
    stackUp.switchOn = true ∧ stackUp.switchCheck 0x17 [] = none ∧ 1 ≤ (1024#32).toNat % 2048 ∧ (1024#32).toNat % 2048 ≤ 1024 := by
  decide +kernel

theorem meets_IngestLoad : ingUp.load whoReeve 0x1200000000 144 = .ok (ingUp.bytesAt 0x1200000000 144) := by rfl

theorem meets_SwitchLoad : stackUp.load whoReeve 0x1200000000 0 = .ok [] := by rfl

/-- Half 1 of the boot journal is in use, with room for one more entry. -/
def halfEntry : JEntry :=
  { kind := 6, step := 0, uKind := 0, uIndex := 0, outcome := 0, state := 0, start := 1#32, tick := 0, detail := 1#32, epoch := 0#64 }
def journalUp : State := up.mapBoot (fun b => { b with half1 := List.replicate 7167 halfEntry })
def engUp (u : Nat) (f : Eng → Eng) : State := up.updEng u (fun e => f { e with enabled := true })

theorem meets_MapOut :
    served journalUp hdr0 = true ∧ 1 ≤ (5#8).toNat ∧ (5#8).toNat ≤ 5 ∧ (0#8).toNat < unitsOf 5 ∧
    (unitTargets 5 0).all journalUp.targetUp = true ∧ (unitTargets 1 27).all (engUp 27 id).targetUp = true ∧ (27#8).toNat < unitsOf 1 ∧
    journalUp.boot.jfail = false ∧ journalUp.hasJournal = true ∧ journalUp.journalEntries.length < 7168 := by decide +kernel

def keyPlace0 : KeyPlace := { kind := 1, key := 1#256 }
def weightUp : State :=
  (stackUp.updCtx 63 (fun c => { c with state := 1, base := 0x1200000000, len := 0x200000 })).mapSec (fun x => { x with places := [(15, some keyPlace0)] })

theorem meets_ActiveCommands_1 :
    served weightUp hdr0 = true ∧ (weightUp.ctxOf 63).state = 1 ∧ (src0 64).addr.toNat + (src0 64).len.toNat ≤ 4 * stackBytes ∧
    (15#8).toNat < 16 ∧ (src0 1280).len.toNat = 1280 ∧ (src0 1280).addr.toNat + 1280 ≤ 4 * stackBytes ∧
    Tab.get false weightUp.flt.iodSub 3 = false ∧ weightUp.weightArgs 15 0 0x1200000000 104 = none ∧
    weightUp.stackRuns (0x1200000000 / stackBytes) = true ∧ (unitTargets 4 3).all stackUp.targetUp = true ∧ (3#8).toNat < unitsOf 4 := by
  decide +kernel

def sched0 (mode : Nat) : Sched := { mode := mode, period := 100000, trigger := 0, deadline := 10000, start := 299900000 }
def schedUp (f : TlyS → TlyS) : State := up.mapTly (fun t => f { t with sched := some (sched0 1) })

theorem meets_EpochHalt :
    slotReady (schedUp id) hdr0 = true ∧ quiet (schedUp id) = true ∧ (schedUp id).sendsOpen = false ∧ (schedUp id).scheduled = true := by decide

/-- A commander with a standby twin that can command, whose vehicle stands still. -/
def swapUp : State :=
  { up with
    pair := { up.pair with pstate := 1#3, twinState := 2#8, twinCan := true, twinHb := some 299800001 }
    dnp := { up.dnp with state := 2 }
    tly := { up.tly with recs := [{ blankRec with selCase := 1 }] } }

theorem meets_RoleSwap :
    slotReady swapUp hdr0 = true ∧ swapUp.tly.openEps = [] ∧ swapUp.pair.pstate = 1#3 ∧ swapUp.pair.swapAt = none ∧ swapUp.canCmd = true ∧
    swapUp.pair.twinState = 2#8 ∧ swapUp.pair.twinCan = true ∧ swapUp.seesTwin = true ∧ swapUp.standstill = true := by decide

/-- An ACTIVE command of slot 15. -/
def act0 (op : Nat) (p : CmdPhase) : ActCmd :=
  { slot := 15, opcode := op, seq := 0#16, body := leBytes 2 op ++ List.replicate 38 0#8 ++ leBytes 8 0x1200000000 ++ leBytes 4 1280, data := [],
    atEpoch := false, target := 0#64, taken := 0, phase := p, degraded := false, remote := false, graph := none }
/-- A wrapped weight key of the shape of Table 24-4 under a transport pair with nonce 0, and an ACTIVE KEY_INSTALL of it. -/
def wrapped0 : List Byte := leBytes 4 0x4B575847 ++ [1#8, 0#8, 1#8, 0#8] ++ List.replicate 1272 0#8
def keyUp : State :=
  { stackUp with
    mem := memStore [] 0x1200000000 wrapped0
    sec := { stackUp.sec with pair := some { nonce := 0#256, ident := 0, evidence := [] } }
    cmds := { stackUp.cmds with active := [act0 0x61 (.working 50000 0)] } }

theorem meets_BackgroundWorkEnd :
    quiet keyUp = true ∧ keyUp.opensLater = false ∧ keyUp.cmds.active = [act0 0x61 (.working 50000 0)] ∧
    (act0 0x61 (.working 50000 0)).phase = .working 50000 0 ∧ keyUp.sec.nextPair = none ∧ keyUp.pair.carried = [] ∧
    bodyOpcode (act0 0x61 (.working 50000 0)).body = 0x61 ∧ Tab.get false keyUp.flt.iodSub 3 = false ∧
    (act0 0x61 (.working 50000 0)).taken + 50000 < keyUp.now := by decide

theorem meets_KeySource : keyUp.readSource (act0 0x61 (.working 50000 0)) = .ok (keyUp.bytesAt 0x1200000000 1280) := by rfl

def noPairUp : State := keyUp.mapSec (fun x => { x with pair := none })

theorem meets_KeyRefused :
    noPairUp.readSource (act0 0x61 (.working 50000 0)) = .ok (noPairUp.bytesAt 0x1200000000 1280) ∧
    (match noPairUp.unwrapKey (noPairUp.bytesAt 0x1200000000 1280) with | .error _ => true | .ok _ => false) = true :=
  ⟨by rfl, by decide +kernel⟩

/-- Whether a key unwraps rests on the algorithms of Config: it does where the shared secret is not 0 and the tag is good. -/
theorem meets_KeyUnwraps (h : leNat (Config.x25519 0 (sub wrapped0 48 32)) ≠ 0)
    (hk : ∀ a b c d, Config.gcmOpen a b c d = some (List.replicate 32 0#8)) : keyUp.unwrapKey wrapped0 = .ok { kind := 1, key := keyOf (List.replicate 32 0#8) } := by
  have f : firstFail [(decide (fld wrapped0 0 4 = 0x4B575847), 0), (decide (fld wrapped0 4 2 = 1), 4), (fld wrapped0 6 1 = 1 || fld wrapped0 6 1 = 2, 6),
      (decide (leNat (sub wrapped0 7 1) = 0), 7), (decide (leNat (sub wrapped0 1180 4) = 0), 1180),
      (decide (leNat (sub wrapped0 1232 48) = 0), 1232)] = none := by decide +kernel
  have a : fld wrapped0 8 8 = keyUp.pair.serial.toNat := by decide +kernel
  have b : fld wrapped0 16 32 = (0#256 : BitVec 256).toNat := by decide +kernel
  have c : fld wrapped0 6 1 = 1 := by decide +kernel
  have d : keyUp.sec.pair = some { nonce := 0#256, ident := 0, evidence := [] } := rfl
  unfold State.unwrapKey
  simp only [f]
  simp only [d, a, b, c, hk, h, ne_eq, not_true_eq_false, false_or, if_false]
theorem meets_EpochsOpen_1 :
    quiet (schedUp id) = true ∧ (schedUp id).sendsOpen = false ∧ (schedUp id).tly.sched = some (sched0 1) ∧ (sched0 1).mode = 1 ∧
    (schedUp id).tly.halted = false ∧ (sched0 1).start + (sched0 1).period ≤ (schedUp id).now ∧ (schedUp id).mayOpen = true ∧
    (schedUp id).openCount < 4 ∧ (schedUp id).contributors (schedUp id).nextN = [] ∧ (schedUp id).cmds.active = [] ∧
    ((schedUp id).mapCmds (fun c => { c with active := [act0 0x12 .pending] })).cmds.active = [act0 0x12 .pending] ∧
    bodyOpcode (act0 0x12 .pending).body = 0x12 ∧ (schedUp id).sec.nextPair = none ∧
    quiet ((schedUp id).mapPair (fun p => { p with twinOpen := [1#64, 2#64, 3#64, 4#64] })) = true ∧
    4 ≤ ((schedUp id).mapPair (fun p => { p with twinOpen := [1#64, 2#64, 3#64, 4#64] })).openCount ∧
    ((schedUp id).mapTime (fun t => { t with tickA := 299999999 })).now < (sched0 1).start + (sched0 1).period := by decide

def openMsg0 : OpenMsg := { epoch := 1#64, deadline := 10000, paired := true, first := true, apply := [] }
/-- A commander that has sent an OPEN, which the link has acknowledged up to byte `n`. -/
def openUp (n : Nat) : State :=
  { swapUp with
    dnp := { swapUp.dnp with acked := [(1, n)] }
    pair := { swapUp.pair with openHeld := [(openMsg0, 7)] } }

theorem meets_EpochsOpen_2 :
    (openUp 7).pair.pstate = 1#3 ∧ (openUp 7).canCmd = true ∧ (openUp 7).pair.swapAt = none ∧ (openUp 7).tly.openEps = [] ∧
    (openUp 7).sendsOpen = true ∧ (openUp 7).pair.openHeld = (openMsg0, 7) :: [] ∧ 7 ≤ Tab.get 0 (openUp 7).dnp.acked 1 ∧
    openMsg0.paired = true ∧ openMsg0.apply = [] ∧ (openUp 7).cmds.active = [] ∧ (openUp 7).pair.earlyTwin = [] ∧
    (openUp 7).contributors openMsg0.epoch = [] ∧
    (let s := (openUp 6).mapPair (fun p => { p with pstate := 0#3, joiner := true });
      quiet s = true ∧ s.sendsOpen = true ∧ s.pair.openHeld = (openMsg0, 7) :: [] ∧ Tab.get 0 s.dnp.acked 1 < 7) := by decide

def epUp (e : OpenEp) : State := up.mapTly (fun t => { t with opened := e.n, openEps := [e] })
def doneEp : OpenEp := { openEp 1#64 with openTick := 299990000, deadline := 10000, doneTick := some 10 }
/-- Stream 63 has one enabled FRAME channel, whose input for epoch 1 is still out. -/
def chan0 : IngChanCfg :=
  { batch := false, ctx := 5, startState := 0, missZero := false, matchA := 0x88B5, matchB := 0, anyVid := true, vid := 0, nbuf := 5,
    slotBytes := 64, bufAddr := granaryBase, recAddr := granaryBase + 0x10000, msgBytes := 0, maxMsgs := 0, holdFirst := 0, holdCnt := 0 }
def ingTable0 (l : List IngState) : IngTable := { enable := true, fwd := true, closeTicks := 10000, chans := [chan0], states := l }
def lateUp : State := (epUp doneEp).updStream 63 (fun x => { x with table := some (ingTable0 []) })

theorem meets_EpochsAreDecided :
    (epUp doneEp).tly.openEps = [doneEp] ∧ doneEp.paired = false ∧ doneEp.shadow = false ∧ doneEp.withhold = 0#32 ∧ doneEp.doneTick.isSome = true ∧
    doneEp.digest = none ∧ ((epUp doneEp).outStage? 1#64).isNone = true ∧ (epUp doneEp).goldDone 1#64 = true ∧ (epUp doneEp).pair.pstate = 0#3 ∧ (epUp doneEp).pair.swapAt = none ∧
    (epUp doneEp).cmds.active = [] ∧ (epUp doneEp).pair.carried = [] ∧ (epUp { doneEp with digest := some 1#384 }).decides = true ∧
    (epUp { doneEp with digest := some 1#384 }).publishable { doneEp with digest := some 1#384 } = true ∧
    doneEp.openTick + doneEp.deadline ≤ lateUp.now ∧ lateUp.decides = true ∧ lateUp.inputsClosed 1#64 = false ∧ lateUp.cx.insts = [] := by
  decide +kernel
/-! Sheaves of context 5 on the units of die 0; context 5 owns bank 0, which holds descriptors and data. -/

def sheaf0 (node : Nat) : Sheaf :=
  { index := { epoch := 1#64, ctx := 5, node := node, ord := 0 }, src := .graph, kind := 1, place := 0, home := 0, desc := granaryBase,
    ref := 0, bound := 30400, expired := 0 }
def run0 (d : List Byte) : Running := { sheaf := sheaf0 0, tick := 0, beat := 0, desc := d, result := none, dropped := false }
def bankUp : State := up.updBank 0 (fun b => { b with owner := 5#7, pstate := 0#2 })
def laneUp (u : Nat) (sc : Nat) (l : List Sheaf) : State :=
  bankUp.updEng u (fun e => { e with enabled := true, lanes := [(sc, l)] })

theorem meets_SheavesStartAndEnd_1 :
    quiet (laneUp 1 3 [sheaf0 0]) = true ∧ (laneUp 1 3 [sheaf0 0]).atBoundary 1 = true ∧ ((laneUp 1 3 [sheaf0 0]).stest 1).forced = false ∧
    ((laneUp 1 3 [sheaf0 0]).eng 1).next? = some (3, sheaf0 0) ∧ isGolden (sheaf0 0) = false ∧ isWarm (sheaf0 0) = false ∧
    Tab.get [] (laneUp 1 3 [sheaf0 0]).cx.ready (unitDie 1) = [] ∧ (laneUp 17 3 [sheaf0 0]).atBoundary 17 = true ∧
    clean (laneUp 1 3 [sheaf0 0]) = true := by decide

theorem meets_SheafLoad : (laneUp 1 3 [sheaf0 0]).load (whoEngine (unitDie 1) 5) granaryBase 64 = .ok (List.replicate 64 0#8) := by rfl

/-- Thresher 1 has a sheaf waiting, Thresher 0 none. -/
def stealUp : State := (laneUp 1 1 [sheaf0 0]).updEng 0 (fun e => { e with enabled := true })

theorem meets_SheavesStartAndEnd_2 :
    quiet stealUp = true ∧ stealUp.atBoundary 0 = true ∧ (stealUp.eng 0).retest = 0 ∧ (stealUp.eng 0).head? = none ∧
    (stealUp.stest 0).forced = false ∧ (victims 0).findSome? (fun v => (stealUp.stealFrom 0 v).map (fun x => (v, x))) = some (1, 1, sheaf0 0) ∧
    1 ≠ 0 ∧ Tab.get [] stealUp.cx.ready (unitDie 1) = [] ∧ clean stealUp = true := by decide

theorem meets_StealLoad : stealUp.load (whoEngine (unitDie 0) 5) granaryBase 64 = .ok (List.replicate 64 0#8) := by rfl

def coreSheaf : Sheaf := { sheaf0 0 with src := .core 9 23 }
def gate0 : Gate := { ctx := 5, entry := 9, epoch := 1#64, node := 0, die := 0, closing := false, ords := [0], out := 1 }
def endRun (drop : Bool) : Running := { run0 [] with sheaf := coreSheaf, result := some resOk, dropped := drop }
def endUp (drop : Bool) : State :=
  (bankUp.updEng 23 (fun e => { e with enabled := true, accepted := 1, tail := 63#6, running := some (endRun drop) })).mapCx (fun x =>
    { x with gates := [gate0] })

theorem meets_SheavesStartAndEnd_3 :
    quiet (endUp false) = true ∧ ((endUp false).eng 23).running = some (endRun false) ∧ (endRun false).result = some resOk ∧
    (run0 []).dropped = false ∧ coreSheaf.src = .core 9 23 ∧ resOk.code = 0 ∧
    (endUp false).cx.gates.find? (fun g => g.ctx = coreSheaf.index.ctx && g.entry = 9) = some gate0 ∧ gate0.closing = false ∧
    ((endUp true).eng 23).running = some (endRun true) ∧ (endRun true).dropped = true ∧ (endUp false).isGx3 1#64 5 = false := by decide

theorem meets_SheafEndReady (k : Nat) : Tab.get [] (endUp false).cx.ready k = [] := rfl

/-- A descriptor of one pixel, one output channel and sum length `k`: A, W and O in bank 0. -/
def desc0 (op fmt3 m k geom : Nat) : List Byte :=
  [BitVec.ofNat 8 op, 0#8, 0#8, BitVec.ofNat 8 fmt3, 0#8, 0#8] ++ leBytes 2 m ++ leBytes 2 1 ++ leBytes 3 k ++ [0#8] ++ leBytes 2 30400 ++
    leBytes 5 (granaryBase + 0x100) ++ leBytes 5 (granaryBase + 0x8000) ++ leBytes 5 (granaryBase + 0x10000) ++ List.replicate 15 0#8 ++
    leBytes 3 1 ++ leBytes 3 1 ++ List.replicate 6 0#8 ++ leBytes 5 geom ++ [0#8]
/-- A geometry record of one pixel, one tap and one channel. -/
def geom0 : List Byte :=
  leBytes 2 1 ++ leBytes 2 1 ++ leBytes 2 1 ++ leBytes 2 1 ++ [1#8, 1#8, 1#8, 1#8] ++ List.replicate 12 0#8 ++ leBytes 2 1 ++
    List.replicate 6 0#8
def runUp (u : Nat) (d : List Byte) : State :=
  ((bankUp.updEng u (fun e => { e with enabled := true, running := some (run0 d) })).updCarder (u - 16) (fun c => { c with ctx := 5, desc := d })).put
    (granaryBase + 0x40) geom0
def fmt0 : TFmt := ⟨.int8, .int8, .int8, .int8, .int, 128⟩

theorem meets_ThresherSheavesRun_1 :
    clean (runUp 3 (desc0 1 0 1 1 0)) = true ∧
    ((runUp 3 (desc0 1 0 1 1 0)).eng 3).running = some (run0 (desc0 1 0 1 1 0)) ∧ (run0 (desc0 1 0 1 1 0)).result = none ∧
    fld (desc0 1 0 1 1 0) 0 1 = 1 ∧ tdescCheck (tdescOf (desc0 1 0 1 1 0)) ((runUp 3 (desc0 1 0 1 1 0)).sheafBase 3 (sheaf0 0)) none = none ∧
    (∀ x ∈ (tdescOf (desc0 1 0 1 1 0)).ranges fmt0 ((runUp 3 (desc0 1 0 1 1 0)).sheafBase 3 (sheaf0 0)) none, x.1 = true →
      (runUp 3 (desc0 1 0 1 1 0)).judgeRange (sheafWho 3 (sheaf0 0)) x.2.1 x.2.2 = none) ∧
    tdescCheck (tdescOf (desc0 1 0 0 1 0)) 0 none = some 6 ∧ fld (desc0 3 0 1 1 1) 0 1 = 3 ∧
    tdescCheck (tdescOf (desc0 3 0 1 1 1)) 0 none = none ∧
    (∀ x ∈ (tdescOf (desc0 3 0 1 1 1)).ranges fmt0 0 none, x.1 = true →
      (runUp 3 (desc0 3 0 1 1 1)).judgeRange (sheafWho 3 (sheaf0 0)) x.2.1 x.2.2 = none) := by decide +kernel

theorem meets_ThresherFormats : (tdescOf (desc0 1 0 1 1 0)).fmts = .ok fmt0 := by rfl

/-- An IGEMM with its geometry record at 64 bytes into the bank. -/
def igemm0 : List Byte := desc0 2 0 1 1 (granaryBase + 0x40)

theorem meets_ThresherSheavesRun_2 :
    fld igemm0 0 1 = 2 ∧ (tdescOf igemm0).addrs.getD 6 0 % 64 = 0 ∧ (runUp 3 igemm0).bytesAt (granaryBase + 0x40) 32 = geom0 ∧
    tdescCheck (tdescOf igemm0) 0 (some (geomOf geom0)) = none ∧ (tdescOf igemm0).addr 0 6 = granaryBase + 0x40 ∧
    (∀ x ∈ (tdescOf igemm0).ranges fmt0 0 (some (geomOf geom0)), x.1 = true →
      (runUp 3 igemm0).judgeRange (sheafWho 3 (sheaf0 0)) x.2.1 x.2.2 = none) := by decide +kernel

theorem meets_IgemmLoad :
    (runUp 3 igemm0).load (sheafWho 3 (sheaf0 0)) (granaryBase + 0x40) 32 = .ok ((runUp 3 igemm0).bytesAt (granaryBase + 0x40) 32) := by rfl

theorem meets_IntegerGemmIsExact :
    (tdescOf (desc0 1 0x20 1 1 0)).partOut = true ∧ (tdescOf (desc0 1 0x20 1 1 0)).partIn = false ∧
    (tdescOf (desc0 1 0x20 1 1 0)).paramEn = false ∧ fmt0.a = .int8 ∧ fmt0.w = .int8 ∧ fld (desc0 1 0x20 1 1 0) 0 1 = 1 ∧
    tdescCheck (tdescOf (desc0 1 0x20 1 1 0)) 0 none = none ∧
    (∀ x ∈ (tdescOf (desc0 1 0x20 1 1 0)).ranges fmt0 0 none, x.1 = true →
      (runUp 3 (desc0 1 0x20 1 1 0)).judgeRange (sheafWho 3 (sheaf0 0)) x.2.1 x.2.2 = none) := by decide +kernel

/-- A depthwise sheaf, a program of one END, and a program of length 0. -/
def depth0 : List Byte := desc0 2 0 1 0x101 (granaryBase + 0x40)
def prog0 (len : Nat) : List Byte := [1#8] ++ List.replicate 11 0#8 ++ leBytes 2 len ++ List.replicate 38 0#8 ++ leBytes 5 granaryBase ++ List.replicate 7 0#8
def progUp (len : Nat) : State := (runUp 16 (prog0 len)).put granaryBase (leBytes 4 0x04000000)

theorem meets_CarderSheavesRun_1 :
    ((runUp 16 depth0).eng (16 + 0)).running = some (run0 depth0) ∧ fld depth0 0 1 = 2 ∧ (cdescOf depth0).depthCheck = none ∧
    (cdescOf depth0).addr6 0 (cdescOf depth0).geom = granaryBase + 0x40 ∧ (runUp 16 depth0).sheafBase 16 (sheaf0 0) = 0 ∧
    (cdescOf depth0).depthGeomCheck ⟨.int8, .int8, .int8, .int8, .int, 32⟩ 0 (geomOf geom0) = none ∧
    (∀ x ∈ (cdescOf depth0).depthRanges ⟨.int8, .int8, .int8, .int8, .int, 32⟩ 0 (geomOf geom0), x.1 = true →
      (runUp 16 depth0).judgeRange (sheafWho 16 (sheaf0 0)) x.2.1 x.2.2 = none) ∧
    (cdescOf (desc0 2 0 1 1 0)).depthCheck = some 11 := by decide +kernel

theorem meets_DepthFormats : (cdescOf depth0).depthFmt = .ok ⟨.int8, .int8, .int8, .int8, .int, 32⟩ := by rfl

/-- Carder 0 has that program in its store, or has its sheaf waiting in lane 3. -/
def loadedUp : State := (progUp 1).updCarder 0 (fun c => { c with prog := [0x04000000#32] })
def laneProg (len : Nat) : State :=
  ((laneUp 16 3 [{ sheaf0 0 with desc := granaryBase + 0x80 }]).put (granaryBase + 0x80) (prog0 len)).put granaryBase (leBytes 4 0x04000000)
def progSheaf0 : Sheaf := { sheaf0 0 with desc := granaryBase + 0x80 }

theorem meets_CarderSheavesRun_2 :
    (loadedUp.eng (16 + 0)).running = some (run0 (prog0 1)) ∧ fld (prog0 1) 0 1 = 1 ∧ clean loadedUp = true ∧
    loadedUp.sheafBase (16 + 0) (sheaf0 0) = 0 ∧ (loadedUp.carder 0).issues = true ∧
    ((cRun 0 0 1 (loadedUp.updCarder 0 (fun _ => { carderFor (prog0 1) 0 5 ⟨0#64, 0, 0, 0⟩ with
      prog := [0x04000000#32], curves := [] }))).carder 0).issues = false ∧ 1 ≤ issueBound := by decide +kernel

theorem meets_CarderSheavesRun_3 :
    quiet (laneProg 1) = true ∧ clean (laneProg 1) = true ∧ (laneProg 1).atBoundary (16 + 0) = true ∧
    ((laneProg 1).stest (16 + 0)).forced = false ∧ ((laneProg 1).eng (16 + 0)).next? = some (3, progSheaf0) ∧ isGolden progSheaf0 = false ∧
    isWarm progSheaf0 = false ∧ Tab.get [] (laneProg 1).cx.ready (0 / 2) = [] ∧ (laneProg 1).sheafBase (16 + 0) progSheaf0 = 0 ∧
    (laneProg 1).bytesAt progSheaf0.desc 64 = prog0 1 ∧ (cdescOf (prog0 1)).progCheck = none ∧
    progFault (cdescOf (prog0 1)) [0x04000000#32] [] = none ∧
    (winFault (laneProg 1) (whoEngine 0 5) (cdescOf (prog0 1)) 0 [0x04000000#32]).isNone = true ∧
    (cdescOf (prog0 0)).progCheck = some 12 := by decide +kernel

theorem meets_ProgramDescriptor : (laneProg 1).load (whoEngine 0 5) progSheaf0.desc 64 = .ok ((laneProg 1).bytesAt progSheaf0.desc 64) := by rfl

theorem meets_ProgramLoads :
    (match loadProg (laneProg 1) (whoEngine 0 5) (cdescOf (prog0 1)) 0 with
     | .ok (p, c) => decide (p = [0x04000000#32]) && c.length == 0 | .error _ => false) = true := by decide +kernel
/-- Carder 0 works for context 5: slots 0 to 5 at bank 0, K1 has lane 0 alone, A1 points at the last row of 8-bit elements. -/
def carder0 : Carder :=
  { Carder.init with ctx := 5, slots := List.replicate 6 (BitVec.ofNat 40 granaryBase), k := [(1, 1#1024)], a := [(1, 16368#14)] }
def cUp : State := bankUp.updCarder 0 (fun _ => carder0)

theorem meets_CarderControlInstructions :
    (cUp.carder 0).issues = true ∧ clean cUp = true ∧ (0xFFFF#16 : BitVec 16) ≠ 0 ∧ (0x3FF#10 : BitVec 10) ≠ 0 ∧ (cUp.carder 0).loops.length < 4 ∧
    (cUp.carder 0).pc < 4095 ∧ (cUp.carder 0).pc < 65536 ∧ (cUp.carder 0).slotAddr 3 (8 * (0xFFF#12).toNat) = granaryBase + 0x7FF8 := by
  decide +kernel

theorem meets_Spar :
    cUp.load (cUp.carderWho 0) ((cUp.carder 0).slotAddr 3 (8 * (0xFFF#12).toNat)) 8 = .ok (List.replicate 8 0#8) := by rfl

theorem lane_zero_alone (i : Nat) (hi : i < 1024) (h : maskBit carder0 1 i = true) : i = 0 := by
  have e : carder0.mask 1 = bitsOf (1#1024) := rfl
  simp only [maskBit, e, bitsOf, List.getD_eq_getElem?_getD, List.getElem?_map, List.getElem?_range hi, Option.map_some, Option.getD_some,
    BitVec.getLsbD_one] at h
  simpa using h

theorem meets_Gather : ∀ i < 1024, maskBit carder0 1 i = true → ((carder0.sreg 15).toNat + (lane carder0 31 i).toNat) % 4 = 0 ∧
    cUp.judgeRange (cUp.carderWho 0) (carder0.slotAddr 5 ((carder0.sreg 15).toNat + (lane carder0 31 i).toNat)) 4 = none := by
  intro i hi h
  obtain rfl := lane_zero_alone i hi h
  decide +kernel

theorem meets_CarderDataInstructions :
    cUp.carder 0 = carder0 ∧ clean cUp = true ∧ carder0.issues = true ∧ carder0.xferOk 5 1 16 = true ∧
    cUp.judgeRange (cUp.carderWho 0) (carder0.slotAddr 5 (carder0.sreg 15).toNat) (64 * 16) = none ∧
    efmtOfCode 0 = some .int8 ∧ carder0.areg 1 + 0 + rowUnits .int8 ≤ lsUnits ∧ (1#2).toNat < 2 := by decide +kernel

theorem meets_XldLoad :
    cUp.load (cUp.carderWho 0) (carder0.slotAddr 5 (carder0.sreg 15).toNat) (64 * 1) = .ok (List.replicate 64 0#8) := by rfl

theorem meets_Scatter (at_ : Nat → Nat) :
    ∀ i < 1024, ∀ j < 1024, i ≠ j → maskBit carder0 1 i = true → maskBit carder0 1 j = true → at_ i + 4 ≤ at_ j ∨ at_ j + 4 ≤ at_ i :=
  fun i hi j hj h a b => absurd ((lane_zero_alone i hi a).trans (lane_zero_alone j hj b).symm) h

theorem meets_CarderLaneInstructions :
    cUp.carder 0 = carder0 ∧ carder0.issues = true ∧ (8#8).toNat % 16 ≤ 8 ∧ (11#8).toNat % 16 ≤ 11 ∧ (11#8).toNat % 16 ≠ 3 ∧
    (6#8).toNat % 8 ≤ 6 ∧ (5#8).toNat % 8 ≤ 5 ∧ (3#8).toNat ≤ 3 ∧ (4#8).toNat ≤ 4 ∧ (0xD7#8).toNat / 32 ≠ 3 ∧ (0xD7#8).toNat / 32 ≠ 7 ∧
    bitsAt (0xD7#8).toNat 2 3 ≤ 5 ∧ 1 ≤ (0x60#8).toNat % 64 ∧ (0x60#8).toNat % 64 ≤ 32 ∧ carder0.areg (0 % 8) + 64 * ((0x60#8).toNat % 64) ≤ lsUnits ∧
    carder0.xfers = [] ∧ bitsAt (0x60#8).toNat 6 1 = 1 ∧ bitsAt (0x20#8).toNat 6 1 = 0 ∧ (0x9A#8).toNat / 16 ≤ 9 ∧ 1 ≤ (0x9A#8).toNat % 16 ∧
    (0x9A#8).toNat % 16 ≤ 10 ∧ 3 < (4#8).toNat ∧ carder0.pc < 65536 := by decide +kernel

theorem meets_VfuncCurve :
    (0x1F#8).toNat / 16 = 1 ∧ (0x1F#8).toNat % 16 < { carder0 with curves := List.replicate 16 (curveOf []) }.curves.length := by decide

theorem meets_WindowUnitCompletes :
    ((runUp 16 depth0).carder 0).issues = true ∧ clean (runUp 16 depth0) = true ∧ ((runUp 16 depth0).carder 0).desc = depth0 ∧
    0 = ((runUp 16 depth0).ctxOf ((runUp 16 depth0).carder 0).ctx).base ∧ 1 ≤ (4#8).toNat % 8 ∧ (4#8).toNat % 8 ≤ 4 ∧
    (cdescOf depth0).winCheck = none ∧ efmtIsMx .int8 = false ∧ (cdescOf depth0).winGeomCheck (.int8, .int8) 0 1 (geomOf geom0) = none ∧
    (cdescOf depth0).winChannels 1 (geomOf geom0) = 1 ∧
    (runUp 16 depth0).judgeRange ((runUp 16 depth0).carderWho 0) ((cdescOf depth0).t.addr 0 0) 64 = none ∧
    (runUp 16 depth0).judgeRange ((runUp 16 depth0).carderWho 0) ((cdescOf depth0).t.addr 0 2) 64 = none ∧
    (runUp 16 depth0).bytesAt ((cdescOf depth0).addr6 0 (cdescOf depth0).geom) 32 = geom0 ∧ (5#8).toNat % 8 = 5 := by decide +kernel

theorem meets_WindowLoad :
    (cdescOf depth0).winFmt = .ok (.int8, .int8) ∧ (runUp 16 depth0).load ((runUp 16 depth0).carderWho 0) (granaryBase + 0x40) 32 =
      .ok ((runUp 16 depth0).bytesAt (granaryBase + 0x40) 32) := ⟨by rfl, by rfl⟩
/-! Blocker sheaves on die 0: context 5 has a plan set at the start of bank 0, a map header behind it and one layer there. -/

/-- A plan header: candidates, map weight and candidate 0's status follow; one disc of radius 0.0625 at the pose, heading +X. -/
def plan0 (nCand wMap st : Nat) : List Byte :=
  [BitVec.ofNat 8 nCand, 1#8, 1#8, 0#8] ++ leBytes 4 0x3DCCCCCD ++ leBytes 4 0 ++ leBytes 4 0 ++ leBytes 4 0x3F800000 ++ leBytes 4 0 ++
    leBytes 4 wMap ++ leBytes 4 0 ++ leBytes 4 0x3A83126F ++ leBytes 4 0x3F800000 ++ leBytes 4 0x3F800000 ++ leBytes 4 0 ++ leBytes 8 0 ++
    leBytes 8 (granaryBase + 0x1000) ++ leBytes 4 0 ++ leBytes 4 0 ++ leBytes 4 0x3D800000 ++ List.replicate 180 0#8 ++ [BitVec.ofNat 8 st]
/-- A map header of 400 mm cells with its origin at (-1, -1) and one collision layer of a type, active from `t0` for `tlen`. -/
def mapOf (type t0 tlen : Nat) : List Byte :=
  leBytes 2 400 ++ [1#8, 0#8] ++ leBytes 4 0xBF800000 ++ leBytes 4 0xBF800000 ++ List.replicate 52 0#8 ++ leBytes 5 (granaryBase + 0x4000) ++
    [BitVec.ofNat 8 type, 1#8, 0#8] ++ leBytes 4 0x3F800000 ++ leBytes 2 t0 ++ leBytes 2 tlen
def map0 : List Byte := mapOf 1 0 0
def latch0 : Latch := { slot := 3, buf := granaryBase + 0x2000, epoch := 7#64 }
/-- A Blocker descriptor. -/
def bd0 (op cnt count : Nat) : List Byte :=
  [BitVec.ofNat 8 op, 3#8, 0#8, BitVec.ofNat 8 cnt, 0#8, 0#8] ++ leBytes 2 count ++ leBytes 8 0 ++ leBytes 5 granaryBase ++
    leBytes 5 (granaryBase + 0x1800) ++ leBytes 5 (granaryBase + 0x1C00) ++ leBytes 5 (granaryBase + 0x3000)
/-- The map's cost entry of byte 0, and the seed entry of candidate 0, are given. -/
def blkUp (d : List Byte) (nCand wMap st entry : Nat) (seed : List Byte) : State :=
  ((((bankUp.updEng 24 (fun e => { e with enabled := true, running := some (run0 d) })).updBlk 0 (fun b =>
    { b with latch := some latch0, slots := [(3, { MapSlot.init with enable := true, ctx := 5#6, epoch := 7#64 })] })).put granaryBase
      (plan0 nCand wMap st)).put (granaryBase + 0x2000) map0).put (granaryBase + 0x2200) (leBytes 2 entry) |>.put (granaryBase + 0x1800) seed
def bw : Who := whoEngine 0 5
def planUp (wMap : Nat) : Plan := planOf (pad 256 ((plan0 1 wMap 0).take 256))
def mapUp : MapHdr := mapHdrOf (granaryBase + 0x2000) (pad 320 map0)

theorem meets_BlockerCandidateSheaves_1 :
    ((blkUp (bd0 1 1 0) 1 0 0 0 [3#8]).eng 24).running = some (run0 (bd0 1 1 0)) ∧ (run0 (bd0 1 1 0)).result = none ∧
    clean (blkUp (bd0 1 1 0) 1 0 0 0 [3#8]) = true ∧
    (bdescOf (bd0 1 1 0)).cnt = 1 ∧ (bdescOf (bd0 1 1 0)).op = 1 ∧ (bdescOf (bd0 1 1 0)).addr 0 0 = granaryBase ∧
    (match rdPlan (blkUp (bd0 1 1 0) 1 0 0 0 [3#8]) bw granaryBase with | .ok p => decide (p = planUp 0) | .error _ => false) = true ∧
    (bdescOf (bd0 1 1 0)).first < (planUp 0).nCand ∧
    (blkUp (bd0 1 1 0) 1 0 0 0 [3#8]).judgeRange bw (candAddr granaryBase 0) 1088 = none := by decide +kernel

theorem meets_Seed :
    ((blkUp (bd0 1 1 0) 1 0 0 0 [3#8]).load bw (granaryBase + 0x1800) 8).toOption = some (pad 8 [3#8]) ∧ seedOk (pad 8 [3#8]) = true ∧
    fld (pad 8 [3#8]) 0 1 = 3 ∧ ((blkUp (bd0 1 1 0) 1 0 0 0 [2#8, 0#8, 0xFF#8, 3#8]).load bw (granaryBase + 0x1800) 8).toOption =
      some (pad 8 [2#8, 0#8, 0xFF#8, 3#8]) ∧ fld (pad 8 [2#8, 0#8, 0xFF#8, 3#8]) 0 1 = 2 ∧ seedOk (pad 8 [2#8, 0#8, 0xFF#8, 3#8]) = true ∧
    seedOk (pad 8 [2#8]) = true ∧ (planUp 0).lib + 1024 * fld (pad 8 [2#8]) 2 2 = granaryBase + 0x1000 := by
  decide +kernel

theorem meets_SeedLibrary :
    (match rdKnots (blkUp (bd0 1 1 0) 1 0 0 0 [2#8]) bw (granaryBase + 0x1000) with | .ok p => p.length == 64 | .error _ => false) = true := by
  decide +kernel

/-- The optimiser's clauses: a layer that is not active while the plan lasts; a knot that is no number makes the cost none. -/
def optUp (x : Nat) : State :=
  ((blkUp (bd0 2 1 1) 1 0 1 0 []).put (granaryBase + 0x2000) (mapOf 3 60000 1)).put (granaryBase + 0x150) (leBytes 4 x)
def optMap : MapHdr := mapHdrOf (granaryBase + 0x2000) (pad 320 (mapOf 3 60000 1))

theorem meets_Optimise :
    (∀ x ∈ [0, 0x7FC00000], ((optUp x).blkOf 0).latch = some latch0 ∧ leNat ((optUp x).bytesAt (candAddr granaryBase 0) 1) = 1 ∧
      (match rdMap (optUp x) bw latch0 with | .ok m => decide (m = optMap) | .error _ => false) = true) ∧
    (bdescOf (bd0 2 1 1)).op = 2 ∧ (bdescOf (bd0 2 1 1)).cnt = 1 ∧ (bdescOf (bd0 2 1 1)).count = 1 ∧
    (match discsFit optMap (planUp 0) with | .ok _ => true | .error _ => false) = true := by decide +kernel

theorem meets_OptimiseNaN :
    ((rdKnots (optUp 0x7FC00000) bw (candAddr granaryBase 0 + 64)).bind (fun p =>
      (planEval (optUp 0x7FC00000) bw optMap (planUp 0) p).map (fun g => f32Finite g.1))).toOption = some false := by decide +kernel

theorem meets_OptimiseFinite :
    ((rdKnots (optUp 0) bw (candAddr granaryBase 0 + 64)).bind (fun p =>
      (planEval (optUp 0) bw optMap (planUp 0) p).bind (fun g =>
        (optIter (optUp 0) bw optMap (planUp 0)
          { p := p, j := g.1, g := g.2, alpha := 0#32, moved := false }).map (fun _ => f32Finite g.1)))).toOption = some true := by decide +kernel

theorem meets_Check :
    (bdescOf (bd0 3 1 0)).op = 3 ∧ (match (rdKnots (blkUp (bd0 3 1 0) 1 0 1 0xFFFF []) bw (candAddr granaryBase 0 + 64)).bind (fun p =>
      riddle (blkUp (bd0 3 1 0) 1 0 1 0xFFFF []) bw mapUp (planUp 0).discs (planUp 0).sub (candPoses (planUp 0) p) (fun i u => f32Mul (f32Add (f32OfNat i) u) (planUp 0).dt)) with
      | .ok h => h.isSome | .error _ => false) = true := by decide +kernel

theorem meets_BlockerListSheaves :
    (bdescOf (bd0 4 1 0)).op = 4 ∧ (bdescOf (bd0 4 1 0)).cnt = (planUp 0).nCand ∧ (bdescOf (bd0 4 1 0)).addr 0 2 = granaryBase + 0x1C00 ∧
    (blkUp (bd0 4 1 0) 1 0 2 0 []).judgeRange bw (candAddr granaryBase 0) 64 = none ∧
    clean (blkUp (bd0 4 1 0) 1 0 2 0 []) = true ∧
    (blkUp (bd0 4 1 0) 1 0 2 0 []).judgeRange bw (granaryBase + 0x1C00) 128 = none ∧
    (bdescOf (bd0 6 0 2)).op = 6 ∧ (bdescOf (bd0 6 0 2)).addr 0 3 = granaryBase + 0x3000 ∧
    planBad (planOf (pad 256 ((plan0 65 0 0).take 256))) = some 0 ∧ (planUp 0).nCand < (bdescOf (bd0 1 2 0)).first + (bdescOf (bd0 1 2 0)).cnt ∧
    (bankUp.blkOf 0).latch = none := by decide +kernel

theorem meets_CheckListLoad :
    ((blkUp (bd0 6 0 2) 1 0 2 0 []).load bw (granaryBase + 0x3000) 48).toOption = some (List.replicate 48 0#8) := by decide +kernel

theorem meets_CheckListResult :
    (match listResult (blkUp (bd0 6 0 2) 1 0 2 0 []) bw mapUp (planUp 0) ((List.range 2).map (listPose (List.replicate 48 0#8))) 7#64 false with
      | .ok _ => true | .error _ => false) = true ∧
    ((List.range 2).map (listPose (List.replicate 48 0#8))).all poseFinite = true := by decide +kernel

/-- Map slot 3 of die 0: its back buffer holds a map header with layers on whole mebibytes of the Granary. -/
def slotUp (en : Bool) (held : Bool) : State :=
  ((bankUp.updBlk 0 (fun b => { b with
    slots := [(3, { MapSlot.init with enable := en, ctx := 5#6, buf0 := BitVec.ofNat 40 (granaryBase + 0x2000), epoch := 0x100000007#64 })]
    latch := if held then some { latch0 with epoch := 6#64 } else none })).put (granaryBase + 0x2000) map0)

theorem meets_MapSlotsCommit_1 :
    coreOrReeve (.core 0) = true ∧ (slotUp true false).dieRuns 0 = true ∧ (0x8000000000000007#64 : BitVec 64).getLsbD 63 = true ∧
    (∀ en ∈ [true, false], (((slotUp en false).blkOf 0).slot 3).epoch.extractLsb' 0 32 = (0x8000000000000007#64 : BitVec 64).extractLsb' 0 32 ∧
      (slotUp en false).heldBack 0 3 = false ∧ (((slotUp en false).blkOf 0).slot 3).enable = en) ∧
    (((slotUp true false).blkOf 0).slot 3).epoch.extractLsb' 0 32 ≠ (0x8000000000000006#64 : BitVec 64).extractLsb' 0 32 ∧
    (slotUp true true).heldBack 0 3 = true ∧ clean (slotUp true true) = true ∧ mapHdrOk (pad 320 map0) = true ∧
    (0x7FFFFFFFFFFFFFFF#64 : BitVec 64).getLsbD 63 = false := by decide +kernel

theorem meets_MapSlotsCommit_2 :
    ((slotUp true false).load (whoEngine 0 5) (granaryBase + 0x2000) 320).toOption = some (pad 320 map0) ∧
    (bankUp.load (whoEngine 0 0) 0 320).toOption = none := by decide +kernel

theorem meets_MapSlotsCommit_3 :
    let s := (slotUp true false).updEng 24 (fun e => { e with running := some (run0 (bd0 5 0 0)) })
    (s.eng 24).running = some (run0 (bd0 5 0 0)) ∧ (bdescOf (bd0 5 0 0)).op = 5 ∧ (bdescOf (bd0 5 0 0)).slot = 3 ∧
    clean s = true ∧ s.commitCheck 0 3 5 0#32 = 1 ∧ s.commitCheck 0 3 5 7#32 = 0 := by decide +kernel

/-- A CORE node of context 5 waits for a gate entry. -/
def coreNode : Node := { desc := 0, kind := 3, place := 0, home := 32, succ := [], nPred := 0, ref := 0, bound := 30400 }
def ring0 : Graph := { graph0 with ringOff := 0x10000, ringLen := 10, nodes := [coreNode] }
def gateUp (l : List Gate) : State :=
  ((bankUp.updHmc 0 (fun h => { h with state := 2#2 })).updCtx 5 (fun c => { c with state := 2, len := 0x200000, graph := some ring0 })).mapCx (fun x =>
    { x with coreWait := [(1#64, 5, 0)], gates := l })

theorem meets_CoreGates_1 :
    quiet (gateUp []) = true ∧ (gateUp []).cx.coreWait = [(1#64, 5, 0)] ∧ (gateUp []).graphAt 1#64 5 = some ring0 ∧ clean (gateUp []) = true ∧
    ring0.nodes[0]? = some coreNode ∧ (gateUp []).dieRuns (coreNode.home - 32) = true ∧
    (match (gateUp []).freeGate 1#64 5 0 10 with | .ok (some 0) => true | _ => false) = true ∧
    (gateUp []).judgeRange (whoDeputy 0) ((gateUp []).gateAddr 1#64 5 0) 32 = none := by decide +kernel

/-- EQ_DOORBELL of context 5, gate 9, ordinal 0x3FF and a descriptor in bank 0. -/
def bell0 : BitVec 64 := BitVec.ofNat 64 (5 + granaryBase + 0x3FF * 2 ^ 40 + 9 * 2 ^ 50)

theorem meets_CoreGates_2 :
    isCore (.core 15) = true ∧ (gateUp [{ gate0 with ords := [] }]).dieRuns (unitDie 23) = true ∧ bitsAt bell0.toNat 0 6 = 5 ∧
    bitsAt bell0.toNat 6 34 * 64 = granaryBase ∧ bitsAt bell0.toNat 40 10 = 0x3FF ∧ bitsAt bell0.toNat 50 14 = 9 ∧
    ((gateUp [gate0]).updEng 23 (fun e => { e with enabled := true })).doorbellCheck 23 5 9 0x3FF granaryBase = 0 ∧
    (gateUp [gate0]).cx.gates.find? (fun g => g.ctx = 5 && g.entry = 9) = some gate0 ∧ gate0.closing = false ∧
    (gateUp []).doorbellCheck 23 5 9 0x3FF granaryBase = 0x10 := by decide +kernel

theorem meets_CoreGates_3 :
    quiet (gateUp [gate0]) = true ∧ (gateUp [gate0]).cx.gates = [gate0] ∧ gate0.ctx = bitsAt (0x0905#32 : BitVec 32).toNat 0 6 ∧
    gate0.entry = bitsAt (0x0905#32 : BitVec 32).toNat 8 14 ∧ gate0.die = (0 : Die).val ∧ gate0.out ≠ 0 ∧ bitsAt (0x0905#32 : BitVec 32).toNat 24 8 = 0 ∧
    (gateUp [gate0]).judgeRange (whoDeputy 0) ((gateUp [gate0]).gateAddr 1#64 5 9 + 16) 1 = none := by decide +kernel

/-! Trajectory output: the stage of epoch 1 on BP 0, whose rank record and request lie behind the plan set. -/

def cfg0 : TrajCfg :=
  { ctx := 5, node := 0, outTicks := 5000, lMax := 3, nextMax := 4, smoothIters := 1, staleMs := 500, lambda := 0x3E800000#32, vMax := 0x3F800000#32,
    kappaMax := 0x3F800000#32, krateMax := 0x3F800000#32, jerkMax := 0x3F800000#32, mrpDecel := 0x3F800000#32, mrpJerk := 0x3F800000#32,
    contMinMs := 100, mrpPeriod := 1000000, vk := List.replicate 16 0x3F800000#32, accUp := List.replicate 16 0x3F800000#32,
    accDn := List.replicate 16 0x3F800000#32 }
def stage0 : Stage :=
  { epoch := 1#64, ctx := 5, bp := 0, started := true, cut := false, ended := false, slot := 3, setAddr := granaryBase,
    outAddr := granaryBase + 0x1C00, latch := none, stale := false, steps := [], cutTick := 0 }
/-- A rank record of one ranked candidate, and a request: FLAGS and V0. -/
def outUp (flags v0 : Nat) (g : Stage) (recs : List Rec) : State :=
  { ((bankUp.put granaryBase (plan0 1 0 2)).put (granaryBase + 0x1C00) [1#8]).put (granaryBase + 0x1C80)
      (leBytes 8 0 ++ leBytes 4 v0 ++ leBytes 4 0 ++ [BitVec.ofNat 8 flags]) with
    out := { State.reset.out with cfg := some cfg0, stages := [g] }
    tly := { up.tly with recs := recs } }
def res0 (cand : Option (Nat × Nat × Nat)) (fail : Nat) : StepRes := { cand := cand, fail := fail, newer := false, horizon := false, points := [], baseEp := 0 }
def inputsAre (s : State) (g : Stage) (flags v0 : Nat) : Bool :=
  (stageInputs s g).toOption == some (planUp 0, pad 128 [1#8], outReqOf (pad 64 (leBytes 8 0 ++ leBytes 4 v0 ++ leBytes 4 0 ++ [BitVec.ofNat 8 flags])))

theorem meets_OutputStageSteps_1 :
    (outUp 0 0 stage0 []).bpStage (0 : Die).val = some stage0 ∧ (outUp 0 0 stage0 []).outStage? stage0.epoch = some stage0 ∧
    (outUp 0 0 stage0 []).out.cfg = some cfg0 ∧ (∀ f ∈ [0, 1], inputsAre (outUp f 0 stage0 []) stage0 f 0 = true) ∧
    nextStep cfg0 1 stage0.steps = some none ∧ (stageStep (outUp 0 0 stage0 []) cfg0 stage0).toOption = some (some (res0 none 8)) ∧
    (outUp 0 0 stage0 []).stageMore cfg0 { stage0 with steps := stage0.steps ++ [res0 none 8] } = true ∧
    (outReqOf (pad 64 [])).ok = false ∧ (outReqOf (pad 64 (leBytes 16 0 ++ [1#8]))).ok = true ∧
    (outUp 1 0 stage0 [{ blankRec with selCase := 6 }]).lastWasMrp = true ∧ (outUp 1 0 stage0 []).trajBase = none := by decide +kernel

def stage1 : Stage := { stage0 with steps := [res0 none 8] }

theorem meets_OutputStageSteps_2 :
    (outUp 1 0x41200000 stage1 []).bpStage 0 = some stage1 ∧ inputsAre (outUp 1 0x41200000 stage1 []) stage1 1 0x41200000 = true ∧
    nextStep cfg0 1 stage1.steps = some (some (0, 0)) ∧ candAddr stage1.setAddr (fld (pad 128 [1#8]) 64 1) = granaryBase + 256 ∧
    ((outUp 1 0x41200000 stage1 []).load (whoEngine 0 5) (granaryBase + 256) 64).toOption = some (pad 64 [2#8]) ∧
    ((rdKnots (outUp 1 0x41200000 stage1 []) (whoEngine 0 5) (granaryBase + 256 + 64)).map (fun p =>
      match timeScale cfg0 (planUp 0) 0x41200000#32 (smoothLevel cfg0 0 p) with | .ok _ => 0 | .error f => f)).toOption = some 3 := by decide +kernel

/-- The open epoch of the stage, with the graph of context 5 in progress. -/
def cutUp (now : Nat) (paired : Bool) (g : Option Stage) (l : List Rec) : State :=
  let s := outUp 1 0 stage0 l
  { (s.updCtx 5 (fun c => { c with state := 2, graph := some { graph0 with nodes := [{ coreNode with kind := 4, home := 24 }] } })).mapCx (fun x =>
      { x with insts := [{ epoch := 1#64, ctx := 5, started := true, nodes := [], left := 2 }] }) with
    time := { s.time with tickA := now }
    out := { s.out with stages := g.toList }
    pair := { s.pair with pstate := 1#3 }
    tly := { s.tly with opened := 1#64, openEps := [{ openEp 1#64 with openTick := 300000000, paired := paired, ctxs := [5], waiting := [5] }] } }

theorem meets_OutputStageSteps_3 :
    (cutUp 300005000 true (some stage0) []).cutsDue (0 : Die).val = [(1#64, 5, { coreNode with kind := 4, home := 24 })] ∧
    (cutUp 300005000 true (some stage0) []).outStage? 1#64 = some stage0 ∧ stage0.cut = false ∧ stage0.ended = false ∧
    (cutUp 300005000 true (some stage0) []).tly.openEps.map (fun e =>
      ((cutUp 300005000 true (some stage0) []).needsTwin e, e.twin.progressTwin)) = [(true, none)] ∧
    (cutUp 300004999 true (some stage0) []).cutsDue 0 = [] := by decide +kernel

def ended0 (l : List StepRes) : Stage := { stage0 with cut := true, ended := true, cutTick := 300005000, steps := l }

theorem meets_OutputIsSelected :
    (∀ l ∈ [[res0 none 8, res0 (some (1, 63, 3)) 0], [res0 none 0], [res0 none 8]],
      (cutUp 300005300 true (some (ended0 l)) []).out.stages = [ended0 l] ∧ (ended0 l).bp = (0 : Die).val ∧
      (ended0 l).cutTick + 300 ≤ (cutUp 300005300 true (some (ended0 l)) []).now ∧ (cutUp 300005300 true (some (ended0 l)) []).out.cfg = some cfg0 ∧
      ((cutUp 300005300 true (some (ended0 l)) []).openEp? 1#64).map (fun e => (e.fallback, e.duty)) = some (false, false) ∧
      inputsAre (cutUp 300005300 true (some (ended0 l)) []) (ended0 l) 1 0 = true ∧
      ((cutUp 300005300 true (some (ended0 l)) []).inst? 1#64 5).map (·.left) = some 2 ∧
      (cutUp 300005300 true (some (ended0 l)) []).trajBase = none) ∧
    ([res0 none 8, res0 (some (1, 63, 3)) 0].filter (fun r => r.cand.isSome && r.fail = 0)).getLast? = some (res0 (some (1, 63, 3)) 0) ∧
    ([res0 none 0].filter (fun r => r.cand.isSome && r.fail = 0)).getLast? = none ∧ [res0 none 8].head? = some (res0 none 8) := by decide +kernel

/-- No record for STALE_MS, and no twin. -/
def loneUp (last : Nat) (alone : Bool) : State :=
  { up with out := { State.reset.out with cfg := some cfg0, lastPub := last, alone := alone, nextMrp := 300000000 } }

theorem meets_LoneProfilesRepeat :
    (∀ a ∈ [true, false], (loneUp 250000000 a).out.cfg = some cfg0 ∧ (loneUp 250000000 a).mrpDue = true ∧ (loneUp 250000000 a).out.alone = a ∧
      (loneUp 250000000 a).out.nextMrp ≤ (loneUp 250000000 a).now ∧ (loneUp 250000000 a).tly.recSched.mask.getLsbD 2 = false) ∧
    (loneUp 250000001 false).mrpDue = false ∧
    ({ loneUp 250000000 false with tly := { up.tly with recs := [{ blankRec with selCase := 4 }] } } : State).trajBase =
      some { blankRec with selCase := 4 } := by decide +kernel

/-! Ingest: stream 31 of this module's side with one FRAME channel, whose one state entry is given. -/

def entry0 (cond action : Nat) : IngState :=
  { cond := cond, action := action, be := false, consT := true, consF := true, fw := 1, foff := 0, nextT := 0, nextF := 0, val := 1#32, mask := 1#32 }
def table0 (e : IngState) : IngTable := { ingTable0 [e] with fwd := false }
/-- A frame that the switch has given to ingest from port EP15. -/
def ethFrame0 : SwFrame :=
  { dst := 0#48, src := 0#48, vid := some 0xFFF#12, pcp := 0#3, ethertype := 0x88B5#16, len := 64, fcsOk := true, body := [1#8] }
def ingestUp (e : IngState) (x : IngChan) : State :=
  (up.mapSw (fun w => { w with ingest := [(15, ethFrame0)] })).updStream 31 (fun t => { t with table := some (table0 e), chans := [(0, x)] })
def unit0 : IngUnit := .eth 0x88B5#16 0xFFF#12 [1#8]
def sample0 : IngSample := newSample 1#64 1#32 0 false
def liveChan : IngChan := { IngChan.init with live := some sample0 }

theorem meets_IngestUnits :
    quiet (ingestUp (entry0 0 1) IngChan.init) = true ∧ (ingestUp (entry0 0 1) IngChan.init).ingestOn = true ∧
    (ingestUp (entry0 0 1) IngChan.init).isLocal (31 : Fin 64).val = true ∧ unit0 ≠ .badHeader ∧ dtOk unit0 = true ∧
    ((ingestUp (entry0 0 1) IngChan.init).takeUnit (31 : Fin 64).val unit0).isSome = true ∧ (up.takeUnit 31 unit0).isNone = true ∧
    (up.takeUnit 15 (.short 15 0x3F#6 0#16)).isSome = true ∧
    dtOk (.short 15 0x3F#6 0#16) = false ∧ up.tableOn 31 = none ∧ ((table0 (entry0 0 1)).matchUnit (.eth 0x88B6#16 0#12 [])).isNone = true ∧
    (ingestUp (entry0 0 1) IngChan.init).tableOn 31 = some (table0 (entry0 0 1)) ∧ (table0 (entry0 0 1)).fwd = false ∧
    ((table0 (entry0 0 1)).matchUnit unit0).map (fun m => (m.1, m.2.1)) = some (0, chan0) ∧
    (ingestUp (entry0 0 1) liveChan).chan 31 0 = liveChan ∧ liveChan.fault = false ∧ (table0 (entry0 0 1)).states[liveChan.cur]? = some (entry0 0 1) ∧
    (ingestUp (entry0 0 1) liveChan).isTrigger 31 0 = false ∧
    (∀ a ∈ [1, 2, 5, 6], ((table0 (entry0 0 a)).matchUnit unit0).map (fun m => (entry0 0 a).cond' m.2.2) = some true) ∧
    ((table0 (entry0 4 1)).matchUnit unit0).map (fun m => (entry0 4 1).cond' m.2.2) = some false ∧
    up.tly.opened ≠ BitVec.allOnes 64 ∧ IngChan.init.ep? (up.tly.opened + 1) = none ∧ IngChan.init.closedTo.toNat < (up.tly.opened + 1).toNat ∧
    sample0.epoch ≠ noTag ∧ chan0.batch = false := by decide +kernel

/-- Epoch 1 is open, context 5 owns the slots; the channel's entry for the epoch is given. -/
def closeUp (zero : Bool) (l : List IngEp) : State :=
  let s := bankUp.updStream 31 (fun t =>
    { t with table := some { table0 (entry0 0 1) with chans := [{ chan0 with missZero := zero }] }, chans := [(0, { IngChan.init with eps := l })] })
  { s with tly := { s.tly with opened := 1#64, openEps := [{ openEp 1#64 with openTick := 299990000 }] } }
def landed0 : IngEp := { IngEp.init 1#64 with sample := some { sample0 with bytes := List.replicate 64 0xA5#8, ended := true } }
def zero0 : IngEp := { IngEp.init 1#64 with cause := some 3 }

theorem meets_ChannelsClose :
    (∀ x ∈ [(false, [landed0]), (false, []), (true, []), (true, [zero0])],
      (closeUp x.1 x.2).nextClose 31 0 = 1#64 ∧ (((closeUp x.1 x.2).stream 31).tableFor 1#64).map (fun t => (t.enable, t.chans.map (fun c => c.batch))) = some (true, [false]) ∧
      (closeUp x.1 x.2).tly.openEps.map (fun e => (e.n, decide (e.openTick + 10000 ≤ (closeUp x.1 x.2).now))) = [(1#64, true)] ∧
      ((closeUp x.1 x.2).chan 31 0).fault = false ∧ (closeUp x.1 x.2).closesSelf 31 = true ∧ ((closeUp x.1 x.2).chan 31 0).live = none ∧
      ((closeUp x.1 x.2).chan 31 0).ep? 1#64 = x.2.head? ∧
      (closeUp x.1 x.2).judgeRange (whoIngest 5) (granaryBase + 0x10000 + 64) 64 = none ∧
      (closeUp x.1 x.2).judgeRange (whoIngest 5) (granaryBase + 1 % max 1 chan0.nbuf * chan0.slotBytes) 64 = none) ∧
    (1#64 : BitVec 64) ≠ BitVec.allOnes 64 ∧ landed0.closed = false ∧ landed0.cause = none ∧ zero0.cause.isSome = true ∧ zero0.sample = none ∧
    zero0.msgs = [] ∧ zero0.present = false := by decide +kernel

/-! Coolant, sensors, power and reference clocks. -/

def heatUp (k : Nat) (o : OpcDie → OpcDie) (t : ThmS → ThmS) : State := (up.updOpc k o).mapThm t
/-- FLOW is due: `updates` intervals have passed. -/
def flowUp (updates : Nat) (loss : Bool) : State :=
  { up with
    cool := { up.cool with updates := updates, kPulses := 1#16, pulses := 0xFFFFF, history := List.replicate 9 1 }
    thm := { up.thm with coolLoss := loss, lowFlow := 20#8 } }

theorem meets_CoolantInputs :
    up.busOn = true ∧ up.isDue 6 = true ∧ (up.ran 6 10000).isDue 6 = false ∧ (up.ran 6 10000).busOn = true ∧ up.thermistor none = none ∧ quiet (flowUp 9 false) = true ∧ (flowUp 9 false).busOn = true ∧
    ((flowUp 9 false).cool.updates + 1) * 1000000 ≤ (flowUp 9 false).now ∧ (flowUp 9 false).cool.rawLevel = (flowUp 9 false).cool.level ∧
    (flowUp 9 false).cool.kPulses ≠ 0#16 ∧ ((flowUp 8 false).cool.updates + 1) * 1000000 ≤ (flowUp 8 false).now ∧
    (flowUp 9 false).thm.coolLoss = false ∧ (flowUp 9 false).pair.pstate ≠ 2#3 ∧ (flowUp 9 true).thm.coolLoss = true := by decide

/-- The curve of the configuration decides whether a code is in range. -/
theorem meets_Thermistor (t : Int) (c : Nat) (h : interpolate ((List.range 64).map (Config.thermEntry (sub up.boot.config 0x600 256))) c = some t) (hl : -640 ≤ t) (hh : t ≤ 2000) :
    up.thermistor (some c) = some t := by
  simp only [State.thermistor, h, hl, hh, and_self, if_true]

theorem meets_ThermalSamples_1 :
    ((2400 : Int) ≤ 2400 ∧ (-720 : Int) ≤ 2400 ∧ ((-721 : Int) < -720 ∨ (2400 : Int) < -721)) ∧ up.hottest (3 : Die).val = none ∧
    (heatUp 3 (fun o => { o with pairs := samplePairs [] [(2400, 2400)] }) id).hottest 3 = some 2400 := by decide +kernel

theorem meets_ThermalSamples_2 :
    (3 : Fin 6).val = (3 : Die).val ∧ quiet up = true ∧ up.reeveOn = true ∧ (∀ u < 6, up.isDue u = true ∧ (up.ran u 10000).isDue u = false) ∧ up.dieRuns 3 = true ∧
    pairValues 12 (samplePairs (up.opc 3).pairs ([(1999, 1999)].take 12)) = [1999] ∧ pairValues 12 (samplePairs (up.opc 3).pairs ([].take 12)) = [] ∧
    (up.opc 3).missing + 1 < 16 ∧ ((heatUp 3 (fun o => { o with missing := 15 }) id).opc 3).missing = 15 ∧
    pairValues 12 (samplePairs (up.opc 3).pairs ([(2000, 2000)].take 12)) = [2000] ∧ up.thm.shutdown = false ∧
    pairValues 4 (samplePairs up.thm.iod ([(1999, 0)].take 4)) = [1999] ∧ up.awake = true ∧
    pairValues 2 (samplePairs up.thm.sd ([(2159, 0)].take 2)) = [2159] ∧ pairValues 2 (samplePairs up.thm.sd ([(2160, 0)].take 2)) = [2160] := by
  decide +kernel

theorem meets_ThermalEvaluationActs :
    quiet up = true ∧ (up.reeveOn = true ∧ up.isDue 7 = true ∧ (up.ran 7 100000).isDue 7 = false) ∧ (∀ k : Nat, ∀ x : Int, ([some 1679] : List (Option Int)).getD k none = some x → x < 1680) ∧
    up.dieRuns 3 = true ∧ up.hottest 3 = none ∧
    (let s := heatUp 3 (fun o => { o with pairs := samplePairs [] [(1040, 1040)], band := 2#2 }) id
     s.hottest 3 = some 1040 ∧ (s.opc 3).band.toNat = bandOf 1040 ∧ (s.grnDie 3).step.toNat < (s.grnDie 3).loftSel 1680) ∧
    (let s := heatUp 3 (fun o => { o with pairs := samplePairs [] [(1680, 1680)], band := 2#2 }) id
     s.hottest 3 = some 1680 ∧ (s.opc 3).band.toNat < bandOf 1680 ∧ (∀ k < 4, ∀ x, s.dieRuns k = true → s.hottest k = some x → x ≤ 1680)) ∧
    (stackUp.hmcOf 3).state ≠ 0#2 ∧ (heatUp 0 id (fun t => { t with coolLoss := true })).thm.coolLoss = true ∧ up.thm.shutdown = false ∧
    (heatUp 0 id (fun t => { t with power := 5001#16 })).thm.peak < 5001 ∧ 16 * ((up.thm.tHi : Int) - up.thm.tLo) = 720 := by
  refine ⟨?_, ?_, ?_, ?_, ?_, ?_, ⟨?_, ?_, ?_⟩, ?_⟩
  case refine_3 => intro k x h; rcases k with _ | k <;> simp at h; omega
  case refine_9 =>
    intro k hk x hr hx
    have e : ∀ k < 4, ((heatUp 3 (fun o => { o with pairs := samplePairs [] [(1680, 1680)], band := 2#2 }) id).hottest k).all (fun x => decide (x ≤ 1680)) =
        true := by decide +kernel
    have := e k hk
    rw [hx] at this
    simpa using this
  all_goals decide +kernel

theorem meets_PowerMonitors :
    up.busOn = true ∧ up.reeveOn = true ∧ up.isDue 8 = true ∧ up.isDue (9 + 3) = true ∧ up.dieRuns 3 = true ∧ (up.opc 3).raiseDue = false ∧ (up.opc 3).shortCnt < 3 ∧
    (let o := { up.opc 3 with opc := [(0, opcOfWords (0x80000064#32, 0x50505050#32))], shortCnt := 2 }
     (o.level o.levelEff.toNat).rate.toNat = 100 ∧ 49 * 100 ≤ 50 * (98#16 : BitVec 16).toNat ∧ 50 * (97#16 : BitVec 16).toNat < 49 * 100 ∧
     o.shortCnt = 2) ∧ up.voltTarget 3 < 0x78 := by decide +kernel

theorem meets_ReferenceClocks :
    quiet up = true ∧ up.awake = true ∧ (∀ r < 7, Tab.get false up.flt.refLost r = false) ∧ up.pair.pstate = 0#3 ∧
    (∀ r < 7, Tab.get false (up.mapFlt (fun f => { f with refLost := [(r, true)] })).flt.refLost r = true) ∧ up.dieRuns 3 = true := by decide

/-! The switch: port 0 receives, port 15 sends. Table entries are free readings of their images, so the table's clauses are met
under readings that are assumed. -/

def frame0 (et : BitVec 16) (len : Nat) (body : List Byte) : SwFrame :=
  { dst := 0#48, src := 1#48, vid := none, pcp := 7#3, ethertype := et, len := len, fcsOk := true, body := body }
def untag (f : SwFrame) : SwFrame := { f with pcp := 0#3 }
def q0 : QFrame := { frame := frame0 0x88B5#16 64 [], inQ := 0, own := false }
def tx0 : TxRun := { q := q0, cls := 7, sent := 0, start := 0, first := 0 }
def swUp (f : SwPort → SwPort) : State :=
  { ((up.updPort 0 (fun p => { p with up := true })).updPort 15 (fun p => f { p with up := true })) with
    time := { up.time with swq := 128 }, pins := { up.pins with epTx := true } }
def kcpBody : List Byte := List.replicate 6 0#8 ++ [17#8] ++ List.replicate 35 0#8 ++ [0xC2#8, 0x2E#8]

theorem meets_SwitchReceivesFrames :
    up.switchOn = true ∧ (up.portOf 0).up = false ∧ (swUp id).switchOn = true ∧ ((swUp id).portOf 0).up = true ∧
    2048 < (frame0 0#16 2049 []).len ∧ (frame0 0#16 63 []).len < 64 ∧ (frame0 0#16 2048 []).len ≤ 2048 ∧ 64 ≤ (frame0 0#16 64 []).len ∧
    isPtp (untag (frame0 0x86DD#16 64 kcpBody)) = false ∧ (swUp id).vidOf 0 (frame0 0x86DD#16 64 kcpBody) = 0 ∧
    (swUp id).forKcp 0 (untag (frame0 0x86DD#16 64 kcpBody)) = true ∧ (swUp id).forKcp 0 (untag (frame0 0x88B5#16 64 [])) = false ∧
    (swUp id).solicits 0 (untag (frame0 0x88B5#16 64 [])) = false := by decide

theorem meets_SwitchNoTables (h : ∀ id, Config.switchLen id [] = 0) :
    (swUp id).streamOf 0 (untag (frame0 0x88B5#16 64 [])) = none ∧ (swUp id).fwdPorts 0 (frame0 0x88B5#16 64 []).dst = none ∧
    (swUp id).recovered 0 (untag (frame0 0x88B5#16 64 [])) = (true, swUp id) := by
  have e : ∀ i, (swUp id).swLen i = 0 := fun i => by
    have : (swUp id).swImage i = [] := rfl
    simp [State.swLen, this, h]
  simp [State.streamOf, State.fwdPorts, State.recovered, State.swFind, e]

/-- One forwarding entry to port 15 in VLAN 0, of which ports 0 and 15 are members. -/
theorem meets_SwitchForwards (h : ∀ id, Config.switchLen id [] = if id = 0x10 ∨ id = 0x11 then 1 else 0)
    (f0 : ∀ id, Config.switchField id [] 0 0 = 0) (f1 : Config.switchField 0x10 [] 0 1 = 0) (f2 : Config.switchField 0x10 [] 0 2 = 0x8000)
    (f3 : Config.switchField 0x11 [] 0 1 = 0x8001) (f4 : Config.switchField 0x11 [] 0 2 = 7) :
    (swUp id).fwdPorts 0 (frame0 0x88B5#16 64 []).dst = some [15] ∧ (swUp id).trafficClass 0 0 = 7 ∧ ((swUp id).portOf 15).up = true ∧
    (swUp id).queueFits 15 7 64 = true ∧ ((swUp (fun p => { p with sending := some tx0 })).portOf 15).sending.isSome = true ∧
    (swUp id).portOf 15 = { SwPort.init with up := true } := by
  have im : ∀ i, (swUp id).swImage i = [] := fun _ => rfl
  have e0 : (swUp id).swLen 0x10 = 1 := by simp [State.swLen, im, h, switchCap]
  have e1 : (swUp id).swLen 0x11 = 1 := by simp [State.swLen, im, h, switchCap]
  refine ⟨?_, ?_, by decide, by decide +kernel, by decide, by decide⟩
  · have : (List.range 16).filter (fun p => bitsAt 0x8000 p 1 = 1 && bitsAt 0x8001 p 1 = 1) = [15] := by decide
    simp [State.fwdPorts, State.swFind, State.swField, im, e0, e1, f0, f1, f2, f3, frame0, List.range_succ]
    decide
  · simp [State.trafficClass, State.swFind, State.swField, im, e1, f0, f4, List.range_succ]

/-- One stream of VLAN 0 with a filter that delivers to INGEST. -/
theorem meets_SwitchStream (h : ∀ id, Config.switchLen id [] = if id = 0x12 ∨ id = 0x13 then 1 else 0)
    (f0 : ∀ id f, f ≠ 4 → Config.switchField id [] 0 f = 0) (f4 : Config.switchField 0x13 [] 0 4 = 1) :
    (swUp id).streamOf 0 (untag (frame0 0x88B5#16 64 [])) = some 0 ∧ (swUp id).swFind 0x13 (fun i => decide ((swUp id).swField 0x13 i 0 = 0)) = some 0 ∧
    (swUp id).swField 0x13 0 4 = 1 ∧ (swUp id).filterPass 0 (untag (frame0 0x88B5#16 64 [])) = (true, swUp id) := by
  have im : ∀ i, (swUp id).swImage i = [] := fun _ => rfl
  have e0 : (swUp id).swLen 0x12 = 1 := by simp [State.swLen, im, h, switchCap]
  have e1 : (swUp id).swLen 0x13 = 1 := by simp [State.swLen, im, h, switchCap]
  have bl : Tab.get false (swUp id).sw.blocked 0 = false := rfl
  refine ⟨?_, ?_, ?_, ?_⟩
  · simp [State.streamOf, State.swFind, State.swField, im, e0, f0, untag, frame0, List.range_succ]
  · simp [State.swFind, State.swField, im, e1, f0, List.range_succ]
  · simp [State.swField, im, f4]
  · simp [State.filterPass, State.swField, im, f0, bl]

theorem meets_SwitchPortsAct :
    (let s := swUp (fun p => { p with sending := some tx0 })
     s.switchOn = true ∧ (s.portOf 15).sending = some tx0 ∧ isPtp tx0.q.frame = false ∧ tx0.left ≤ tx0.onWire s.time.swq ∧
     (s.portOf 15).queues = [] ∧ (s.portOf 15).paused = none ∧ (s.portOf 15).hwaOut = []) ∧
    (let s := swUp (fun p => { p with sending := some tx0, hwaOut := [(false, frame0 0#16 1150 []), (true, frame0 0#16 64 [])] })
     (s.portOf 15).sending = some tx0 ∧ (s.portOf 15).up = true ∧ (s.portOf 15).gcl = [] ∧ (s.portOf 15).queues = [] ∧
     (s.portOf 15).paused = none ∧ (s.portOf 15).hwaOut = [(false, frame0 0#16 1150 []), (true, frame0 0#16 64 [])]) ∧
    (let s := swUp (fun p => { p with sending := some tx0, queues := [(6, [q0, q0])] })
     (s.portOf 15).up = true ∧ (s.portOf 15).verified = false ∧ (s.portOf 15).gcl = [] ∧ (s.portOf 15).queue 6 = [q0, q0] ∧
     (s.portOf 15).queue 7 = []) ∧
    (let s := swUp (fun p => { p with sending := some tx0, gcl := [(0xFF, 1)], gclEnd := 128 })
     (s.portOf 15).gcl ≠ [] ∧ (s.portOf 15).gclEnd ≤ s.time.swq ∧ (s.portOf 15).sending.isSome = true ∧ (s.portOf 15).hwaOut = []) ∧
    (swUp id).pins.epTx = true := by decide

/-! KCP: session 4 of a credential that may write; HAYWARD is the KCP endpoint's. -/

def sess0 : Session := { cred := 3, key := 1#256, write := true, lastSeq := some 1#64, lastTick := 0 }
def kreq0 (op : Nat) (p : List Byte) : KcpReq := { session := 4, op := op, seq := 2#64, payload := p, peer := none, key := 1#256, write := true }
def kcpUp (q : List KcpReq) : State :=
  { stackUp with
    kcp := { up.kcp with sessions := [(4, some sess0)], queue := q, stageLo := 0x1200000000, stageHi := 0x1200001000,
                         creds := [none, none, none, some { key := 1#256, write := true, lastSeq := none }] } }

theorem meets_KcpRequest :
    (kcpUp [kreq0 1 []]).kcpOn = true ∧ (kcpUp [kreq0 1 []]).kcp.queue = [kreq0 1 []] ∧ (kcpUp [kreq0 1 []]).session? 4 = some sess0 ∧
    (kreq0 1 []).op ≠ 2 ∧ (∀ n ∈ [2, 3, 4, 5, 6, 7], (kcpUp []).kcpGate (kreq0 n []) = none) ∧
    ((kcpUp []).mapMbx (fun m => { m with ready := false })).kcpGate (kreq0 2 []) = some 5 ∧
    ((kcpUp []).mapMbx (fun m => { m with master := 2#2 })).kcpGate (kreq0 7 []) = some 4 ∧
    (kcpUp []).kcpGate { kreq0 2 [] with write := false } = some 6 ∧ sess0.key = (kreq0 1 []).key ∧ clean (kcpUp []) = true := by decide

theorem meets_KcpRegRead :
    (let p : List Byte := [0#8, 0#8, 0#8, 0#8, 1#8, 0#8]
     p.length = 6 ∧ beNat (sub p 4 2) = 256 ∧ beNat (sub p 0 4) % 4 = 0) ∧
    (kcpReadWords 1 0 (kcpUp [])).1.isSome = true ∧
    (let p : List Byte := [0x00#8, 0xFF#8, 0xFF#8, 0xFC#8, 0#8, 1#8]
     beNat (sub p 0 4) + 4 * beNat (sub p 4 2) = 0x1000000) := by decide +kernel

theorem meets_KcpSlots :
    (let p : List Byte := [15#8, 0#8, 0#8, 255#8, 1#8]
     fld p 0 1 = (15 : Fin 16).val ∧ p.drop 4 ≠ [] ∧ beNat (sub p 2 2) + (p.drop 4).length = 256) ∧
    ((kcpUp []).slotOf 15).state = 0#2 ∧ (((kcpUp []).updSlot 15 (fun x => { x with state := 1#2 })).slotOf 15).state ≠ 0#2 ∧
    (let p : List Byte := [15#8, 0#8, 1#8, 0#8] ++ List.replicate 256 0#8
     (p.drop 4).length = beNat (sub p 2 2) ∧ 32 ≤ (p.drop 4).length ∧ (p.drop 4).length ≤ 256) ∧
    ([15#8, 0#8, 0#8, 1#8] : List Byte).length = 4 ∧
    (∀ i : Fin 16, bitsAt (beNat [0x80#8, 0#8]) i.val 1 = 1 →
      (((kcpUp []).updSlot 15 (fun x => { x with state := 3#2 })).slotOf i.val).state = 3#2) := by decide +kernel

theorem meets_KcpLedgerAndBulk :
    (let p : List Byte := List.replicate 8 0#8 ++ [0x1C#8, 0#8, 4#8, 0#8]
     p.length = 12 ∧ beNat (sub p 0 8) = 0 ∧ beNat (sub p 8 2) + beNat (sub p 10 2) = 8192 ∧ beNat (sub p 10 2) = 1024) ∧
    (kcpUp []).kcp.copying = false ∧ ((kcpUp []).winOf 0).wanted = 0 ∧
    (((kcpUp []).updWin 0 (fun w => { w with wstate := 2#3 })).winOf 0).wstate = 2#3 ∧ ((kcpUp []).winOf 0).wanted ≠ 1 ∧
    (let p : List Byte := beBytes 5 (0x1200000000 + 0xC00) ++ [0#8, 0#8, 0#8] ++ List.replicate 1024 0#8
     beNat (sub p 0 5) = 0x1200000000 + 0xC00 ∧ (p.drop 8).length = 1024) ∧
    (kcpUp []).staged (0x1200000000 + 0xC00) 1024 = true ∧ (kcpUp []).staged (0x1200000000 + 0xC40) 1024 = false ∧
    (kcpUp []).judgeRange { whoKcp with anyHbm := true } (0x1200000000 + 0xC00) 1024 = none := by decide +kernel

/-- A frame from a host; its TAG is all zeros, which the cipher is assumed to give. -/
def kbytes (ty session op len : Nat) : List Byte :=
  kcpHeader ty session op 0 2 len ++ List.replicate len 0#8 ++ List.replicate 16 0#8

theorem meets_KcpRequestFrame (h : kcpTag sess0.key 4 0 2 (kcpHeader 1 4 5 0 2 2 ++ [0#8, 0#8]) = List.replicate 16 0#8) :
    (kframeOf (kbytes 1 4 5 2)).ty = 1 ∧ kframeOk (kbytes 1 4 5 2) (kframeOf (kbytes 1 4 5 2)) = true ∧
    (kcpUp []).session? (kframeOf (kbytes 1 4 5 2)).session = some sess0 ∧ (kframeOf (kbytes 1 4 5 2)).tagOk sess0.key 4 = true ∧
    seqAbove sess0.lastSeq (kframeOf (kbytes 1 4 5 2)).seq = true ∧ (kcpUp []).kcp.queue = [] ∧ (kframeOf (kbytes 1 4 5 2)).op = 5 ∧
    16 ≤ (kcpUp (List.replicate 16 (kreq0 1 []))).kcp.queue.length ∧ kframeOk (kbytes 1 4 5 3 ++ [0#8]) (kframeOf (kbytes 1 4 5 3 ++ [0#8])) = false := by
  have e : kframeOf (kbytes 1 4 5 2) =
      { ty := 1, session := 4, op := 5, status := 0, seq := 2#64, len := 2, rsvd := true,
        hp := kcpHeader 1 4 5 0 2 2 ++ [0#8, 0#8], payload := [0#8, 0#8], tag := List.replicate 16 0#8 } := by decide +kernel
  refine ⟨by decide +kernel, by decide +kernel, by decide +kernel, ?_, by decide +kernel, by decide +kernel, by decide +kernel, by decide +kernel, by decide +kernel⟩
  simp only [e, KFrame.tagOk, BitVec.toNat_ofNat, Nat.reducePow, Nat.reduceMod, h, decide_true]

theorem meets_KcpOpenAndClose (key : BitVec 256) (hk : keyOf (sha384 (asciiBytes "GX4-KCP-OPEN" ++ keyBytes 1#256)) = key)
    (h : kcpTag key 0 0 2 (kcpHeader 0x10 0 0 0 2 64 ++ (3#8 :: List.replicate 63 0#8)) = List.replicate 16 0#8)
    (g : kcpTag sess0.key 4 0 2 (kcpHeader 0x12 4 0 0 2 0) = List.replicate 16 0#8) :
    (let b := kcpHeader 0x10 0 0 0 2 64 ++ (3#8 :: List.replicate 63 0#8) ++ List.replicate 16 0#8
     let k := kframeOf b
     k.ty = 0x10 ∧ fld k.payload 0 1 = 3 ∧ (kcpUp []).kcp.creds[3]? = some (some { key := 1#256, write := true, lastSeq := none }) ∧
     kframeOk b k = true ∧ k.session = 0 ∧ k.op = 0 ∧ k.len = 64 ∧
     k.tagOk (keyOf (sha384 (asciiBytes "GX4-KCP-OPEN" ++ keyBytes 1#256))) 0 = true ∧ seqAbove none k.seq = true) ∧
    (kcpUp []).session? 1 = none ∧
    (∀ n, 1 ≤ n → n ≤ 4 → (((((kcpUp []).setSession 1 (some sess0)).setSession 2 (some sess0)).setSession 3 (some sess0)).session? n).isSome = true) ∧
    (let k := kframeOf (kbytes 0x12 4 0 0)
     k.ty = 0x12 ∧ kframeOk (kbytes 0x12 4 0 0) k = true ∧ k.op = 0 ∧ k.len = 0 ∧ (kcpUp []).session? k.session = some sess0 ∧
     k.tagOk sess0.key k.session = true ∧ seqAbove sess0.lastSeq k.seq = true) := by
  have e : kframeOf (kcpHeader 0x10 0 0 0 2 64 ++ (3#8 :: List.replicate 63 0#8) ++ List.replicate 16 0#8) =
      { ty := 16, session := 0, op := 0, status := 0, seq := 2#64, len := 64, rsvd := true,
        hp := kcpHeader 0x10 0 0 0 2 64 ++ (3#8 :: List.replicate 63 0#8), payload := 3#8 :: List.replicate 63 0#8, tag := List.replicate 16 0#8 } := by
    decide +kernel
  have f : kframeOf (kbytes 0x12 4 0 0) =
      { ty := 18, session := 4, op := 0, status := 0, seq := 2#64, len := 0, rsvd := true,
        hp := kcpHeader 0x12 4 0 0 2 0, payload := [], tag := List.replicate 16 0#8 } := by decide +kernel
  refine ⟨⟨by decide +kernel, by decide +kernel, by decide +kernel, by decide +kernel, by decide +kernel, by decide +kernel, by decide +kernel, ?_, by decide +kernel⟩,
    by decide, ?_, by decide +kernel, by decide +kernel, by decide +kernel, by decide +kernel, by decide +kernel, ?_, by decide +kernel⟩
  · simp only [e, KFrame.tagOk, BitVec.toNat_ofNat, Nat.reducePow, Nat.reduceMod, hk, h, decide_true]
  · intro n a b
    have : n = 1 ∨ n = 2 ∨ n = 3 ∨ n = 4 := by omega
    rcases this with rfl | rfl | rfl | rfl <;> decide
  · simp only [f, KFrame.tagOk, BitVec.toNat_ofNat, Nat.reducePow, Nat.reduceMod, g, decide_true]

theorem meets_SessionIdle :
    up.awake = true ∧ (kcpUp []).session? ((3 : Fin 4).val + 1) = some sess0 ∧ sess0.lastTick + (kcpUp []).kcp.idle ≤ (kcpUp []).now ∧
    up.now < ({ sess0 with lastTick := 300000000 } : Session).lastTick + (kcpUp []).kcp.idle := by decide

/-! Hayward islands. -/

def hwaUp (f : HwaS → HwaS) : State := up.mapHwa f
def hwbUp (f : HwbS → HwbS) : State := { up.mapHwb f with hwa := { up.hwa with splitB := false } }
def bus0 (kind : BitVec 4) (addr : BitVec 32) : Txn := { kind := kind, addr := addr, size := 2#3, be := 0x8#4, data := 0xFF000000#32 }
def held0 (tick : Nat) : HeldTxn := { core := true, txn := bus0 1#4 0x7FFFF#32, tick := tick }

theorem meets_IslandTransactions :
    up.islandOn false = true ∧ up.hwa.splitA = false ∧ (1#4 : BitVec 4) ≠ 3#4 ∧ up.hwa.held = none ∧
    (hwaUp (fun h => { h with held := some (held0 299999936) })).hwa.held = some (held0 299999936) ∧ (held0 0).core ≠ false ∧
    up.now ≤ (held0 299999936).tick + 64 ∧ (0x7FFFF#32 : BitVec 32).toNat < 0x80000 ∧ (held0 0).txn ≠ bus0 0#4 0x7FFFF#32 ∧
    (held0 299999935).tick + 64 < up.now ∧ up.islandOn true = true ∧ up.hwa.splitB = false ∧ up.hwb.held = none ∧
    (hwbUp (fun h => { h with held := some (held0 299999936) })).hwb.held = some (held0 299999936) ∧
    (hwbUp id).time.tickB ≤ (held0 299999936).tick + 64 ∧ (held0 299999935).tick + 64 < (hwbUp id).time.tickB := by decide

theorem meets_SplitIslands :
    (let s := hwaUp (fun h => { h with splitA := true, splitB := true, aliveSeen := [(0, 299990000)] })
     s.hwa.splitA = true ∧ s.islandOn false = true ∧ s.now ≤ Tab.get 0 s.hwa.aliveSeen 0 + 10000 ∧ Tab.get 0 s.hwa.aliveSeen 1 + 10000 < s.now ∧
     s.hwa.splitB = true ∧ s.islandOn true = true ∧ Tab.get 0 s.hwb.aliveSeen 0 + 10000 < s.time.tickB) := by decide

def input0 (k : ExchKind) : ExchInput := { kind := k, data := [] }
def ent0 (k : ExchKind) (tick : Nat) : ExchEnt := { input := input0 k, tick := tick }

theorem meets_Exchange :
    up.hwa.queue.length < 64 ∧ up.hwa.waiting = [] ∧ (∀ e ∈ [ent0 .openReq 299999999], e.tick < up.now) ∧
    (ent0 .challenge 300000000).tick = up.now ∧ exchRank (input0 .stageEvent).kind < exchRank (ent0 .challenge 0).input.kind ∧
    64 ≤ (hwaUp (fun h => { h with queue := List.replicate 64 (ent0 .openReq 1) })).hwa.queue.length ∧ up.hwa.pollAns = none ∧
    (hwaUp (fun h => { h with pollAns := some (true, none) })).hwa.pollAns = some (true, none) ∧
    (hwaUp (fun h => { h with pollAns := some (false, some (ent0 .role 1)) })).hwa.pollAns = some (!true, some (ent0 .role 1)) ∧
    (ent0 .role 1).input.kind ≠ .challenge := by decide

def chal0 : List Byte := [1#8, 1#8, 0#8, 0#8, 0xFF#8, 0xFF#8, 0xFF#8, 0xFF#8] ++ List.replicate 8 0xA5#8

theorem meets_Challenges :
    up.switchOn = true ∧ up.challengesWaiting < 4 ∧ up.hwa.queue = [] ∧ fld chal0 0 1 = 1 ∧ fld chal0 1 1 = 1 ∧
    up.cseqAbove (BitVec.ofNat 32 (beNat (sub chal0 4 4))) = true ∧
    (hwaUp (fun h => { h with queue := List.replicate 4 (ent0 .challenge 1) })).challengesWaiting = 4 ∧ fld [2#8] 0 1 ≠ 1 ∧ fld [1#8, 2#8] 1 1 ≠ 1 ∧
    (hwaUp (fun h => { h with lastCseq := 0xFFFFFFFF#32, lastAns := some 299000001 })).cseqAbove (BitVec.ofNat 32 (beNat (sub chal0 4 4))) = false ∧
    (hwaUp (fun h => { h with queue := [ent0 .openReq 1] })).hwa.queue ≠ [] := by decide +kernel

/-! Watchdogs, golden sheaves and self-test slices; epoch 1 is open since tick 299,000,000. -/

def wcfg0 (o c : Nat) : WdgCfg := { enable := true, safety := false, kind := 0, src := 0, parts := 0, node := 0, openT := o, closeT := c }
def ep1 : OpenEp := { openEp 1#64 with openTick := 299000000, deadline := 10000 }
def wdgUp (o c : Nat) (f : HwaS → HwaS) : State :=
  { up with
    hwa := f { up.hwa with epCfg := [(1#64, 15, wcfg0 o c)], goldDue := 1000000 }
    tly := { up.tly with opened := 1#64, openEps := [ep1], readyTick := some 1000 } }
def judged0 : WdgJudge := { stage := 15, epoch := 1#64, outcome := 1, edge := false, tick := 0 }

theorem meets_StageWatchdogs :
    (wdgUp 100 200 id).islandOn false = true ∧ (wdgUp 100 200 id).openEp? 1#64 = some ep1 ∧
    ((wdgUp 100 200 id).wdgFor 1#64).find? (fun c => c.1 = (15 : Fin 16).val) = some (15, wcfg0 100 200) ∧
    ((wdgUp 100 200 (fun h => { h with judged := [judged0] })).judge? 1#64 15).isSome = true ∧ (wdgUp 100 200 id).judge? 1#64 15 = none ∧
    299000097 - ep1.openTick < (wcfg0 100 200).openT ∧ (wcfg0 100 200).nearEdge 97 = false ∧ (wcfg0 100 200).nearEdge 98 = true ∧
    (wcfg0 100 200).nearEdge 150 = false ∧ (wcfg0 100 200).closeT < ep1.deadline ∧ (wcfg0 100 200).nearEdge 203 = false ∧
    (wcfg0 100 200).closeT < 299000203 - ep1.openTick ∧ ep1.deadline ≤ (wcfg0 100 10010).closeT ∧ (wcfg0 100 10010).nearEdge 10001 = false ∧
    ep1.deadline < 299010001 - ep1.openTick ∧ (wcfg0 100 10010).nearEdge 10000 = false := by decide

def gold0 (state : Nat) : GoldEp := { epoch := 1#64, engine := 23, variant := 7, state := state, late := false, outcome := 0, tick := 0, deferrals := 0 }

theorem meets_GoldenDue :
    (wdgUp 0 0 (fun h => { h with golds := [gold0 0] })).gold? 1#64 = some (gold0 0) ∧ (gold0 0).state = 0 ∧
    ep1.openTick + (wdgUp 0 0 id).hwa.goldDue ≤ (wdgUp 0 0 id).now ∧
    (wdgUp 0 0 (fun h => { h with goldDue := 1000001 })).now < ep1.openTick + 1000001 := by decide

/-- The golden output of engine 23 is all zeros, as the image is assumed to place it. -/
theorem meets_GoldenCompare (h : Config.goldenOut (unitKind 23) 7 = 0) :
    (let s := up.mapHwa (fun h => { h with golds := [gold0 3] })
     quiet s = true ∧ s.islandOn false = true ∧ s.gold? 1#64 = some (gold0 3) ∧ (gold0 3).state = 3 ∧ s.goldOnUnit 1#64 23 = false ∧
     s.goldMatches 23 7 = true ∧ (s.eng 23).retest = 0 ∧ (s.eng 23).failed = false ∧ (s.eng 23).running = none) ∧
    (up.mapHwa (fun h => { h with golds := [gold0 3], answers := [(71, [1#8])] })).goldMatches 23 7 = false := by
  refine ⟨⟨by decide, by decide, by decide, by decide, by decide, ?_, by decide, by decide, by decide⟩, ?_⟩ <;>
  · simp only [State.goldMatches, h]
    decide +kernel

def slice0 : Stest := { Stest.init with waiting := 1, dueAt := 300000000 }
def sliceUp (x : Stest) (e : Eng → Eng) : State :=
  ((up.updEng 27 (fun y => e { y with enabled := true })).updStest 27 (fun _ => x)).mapTly (fun t => { t with readyTick := some 1000 })

theorem meets_SelfTest :
    (sliceUp slice0 id).stest (27 : Fin 28).val = slice0 ∧ (sliceUp slice0 id).tly.readyTick = some 1000 ∧ ((sliceUp slice0 id).eng 27).enabled = true ∧
    ((sliceUp slice0 id).eng 27).failed = false ∧ slice0.dueAt ≤ (sliceUp slice0 id).now ∧
    (sliceUp { slice0 with dueAt := 300000001 } id).now < 300000001 ∧ 1000 + (sliceUp Stest.init id).hwa.stPeriod ≤ (sliceUp Stest.init id).now ∧
    (sliceUp slice0 id).sliceMayStart 27 = true ∧ ((sliceUp slice0 id).eng 27).retest = 0 ∧
    (sliceUp slice0 (fun e => { e with retest := 2 })).sliceMayStart 27 = true ∧ ((sliceUp slice0 (fun e => { e with retest := 2 })).eng 27).retest = 2 ∧
    (sliceUp Stest.init id).sliceMayStart 27 = false ∧ quiet (sliceUp slice0 id) = true ∧
    ((sliceUp { slice0 with running := some 299996800 } id).stest 27).running = some 299996800 ∧ 299996800 + sliceTicks 27 ≤ up.now ∧
    up.now < 299996801 + sliceTicks 27 ∧ ((sliceUp slice0 id).eng 27).running = none ∧ (sliceUp slice0 id).bpStage 3 = none := by decide

/-! The start, the safe state and the TAP. -/

def bootUp (f : BootS → BootS) : State :=
  { up.mapBoot (fun b => f { b with state := 0#2, stepTick := 299000000, left := [(0, 0)] }) with mbx := State.reset.mbx }

theorem meets_StartAndSafeState_1 :
    State.reset.boot.started = false ∧ ({ State.reset.pins with resetN := true } : PinS).pg ≠ 0x1FF#9 ∧
    (let s := State.reset.mapPins (fun p => { p with pg := 0x1FF#9 })
     ({ s.pins with resetN := true } : PinS).resetN = true ∧ ({ s.pins with resetN := true } : PinS).pg = 0x1FF#9) ∧
    (let s := State.reset.mapPins (fun p => { p with resetN := true, pg := 0x0FF#9 })
     s.pins.pg ||| BitVec.ofNat 9 (2 ^ (8 : Fin 9).val) = 0x1FF#9) ∧ up.boot.started = true ∧ up.flt.safe = false := by decide

theorem meets_StartAndSafeState_2 :
    (let s := up.mapHwb (fun b => { b with first := true, lastB := 299989899 })
     s.hwb.first = true ∧ s.hwb.lastB + 10100 < s.time.tickB) ∧
    (let s := up.mapHwb (fun b => { b with first := true, lastB := 299989900 })
     s.time.tickB ≤ s.hwb.lastB + 10100 ∧ s.hwb.lastB + 9900 ≤ s.time.tickB) ∧
    (let s := up.mapHwb (fun b => { b with startB := 100000000 })
     s.hwb.first = false ∧ s.hwb.startB + 200000000 ≤ s.time.tickB) ∧
    (up.islandOn false = true ∧ up.hwa.lastSentry + 10000 ≤ up.now) ∧ up.now < (hwaUp (fun h => { h with lastSentry := 299990001 })).hwa.lastSentry + 10000 ∧
    up.time.tickB < (up.mapHwb (fun b => { b with lastB := 299990101 })).hwb.lastB + 9900 ∧
    (let h := ((100000#32, 100000) :: List.replicate 99 ((0#32 : BitVec 32), 0)).take 100
     h.length = 100 ∧ clockDrift h = false) ∧
    (let h := ((100051#32, 100000) :: List.replicate 99 ((0#32 : BitVec 32), 0)).take 100
     clockDrift h = true) ∧ ((0#32, up.time.tickB) :: up.hwb.history).length < 100 := by decide

theorem meets_BootSteps :
    (∀ n ∈ [1, 2, 3], (bootUp (fun b => { b with step := BitVec.ofNat 8 n })).booting = true ∧
      (bootUp (fun b => { b with step := BitVec.ofNat 8 n })).boot.left = [(0, 0)]) ∧
    (let s := bootUp (fun b => { b with step := 7#8, left := [(3, 3), (3, 0)] })
     s.booting = true ∧ s.boot.left = (3, (3 : Die).val) :: [(3, 0)] ∧ (3, (3 : Die).val) ∉ [(3, 0)] ∧ s.dieFits 3 = true ∧
     (s.mapBoot (fun b => { b with dieId := [] })).dieFits 3 = false) ∧
    (let s := bootUp (fun b => { b with step := 12#8, left := [(6, 255)] })
     s.booting = true ∧ s.boot.step = 12#8 ∧ s.boot.left = [(6, (255#8 : BitVec 8).toNat)] ∧ s.chooseMaster.isSome = true) ∧
    (let s := bootUp (fun b => { b with step := 1#8, stepTick := 298999999 })
     s.boot.stepTick + stepMax s.boot.step.toNat < s.now) ∧
    (let s := bootUp (fun b => { b with step := 1#8 })
     s.now ≤ s.boot.stepTick + stepMax s.boot.step.toNat) ∧
    (bootUp (fun b => { b with left := [] })).boot.left = [] := by decide

theorem meets_TapInstructions :
    (let s := up.mapPins (fun p => { p with resetN := false })
     s.pins.resetN = false ∧ s.pins.pg = 0x1FF#9) ∧ up.pins.resetN = true ∧ (up.mapPins (fun p => { p with pg := 0xFF#9 })).pins.pg ≠ 0x1FF#9 ∧
    (up.mapTap (fun t => { t with wireRun := true })).tap.wireRun = true ∧ up.tap.wireRun = false ∧
    (∀ i ∈ [0x04#8, 0x20#8], (State.reset.mapTap (fun t => { t with ir := i })).tap.ir = i) ∧ State.reset.boot.started = false := by decide

/-! Monitors and the return of units. -/

def hung0 (old : Nat) : State :=
  up.updEng 27 (fun e => { e with enabled := true, running := some { run0 [] with sheaf := { sheaf0 0 with home := 27 }, tick := 299992932 - old },
                                  expiries := [1, 200000001] })
def hungTwo : State := (hung0 1).updEng 27 (fun e => { e with expiries := [200000001, 299999999] })

theorem meets_SheafMonitor :
    quiet (hung0 0) = true ∧ (hung0 0).awake = true ∧ sheafLimit 30400 = 7068 ∧
    ((hung0 0).eng 27).running.map (fun r => decide ((hung0 0).now ≤ r.tick + sheafLimit r.sheaf.bound)) = some true ∧
    ((hung0 1).eng 27).running.map (fun r => decide (r.tick + sheafLimit r.sheaf.bound < (hung0 1).now)) = some true ∧
    ((hung0 1).eng 27).running.map (fun r => (r.sheaf.src, r.dropped, r.sheaf.home, r.sheaf.expired)) = some (.graph, false, 27, 0) ∧
    (hung0 1).bpStage 3 = none ∧ (((hung0 1).eng 27).expiries.filter (fun t => decide ((hung0 1).now < t + 100000000))).length < 2 ∧
    2 ≤ ((hungTwo.eng 27).expiries.filter (fun t => decide (hungTwo.now < t + 100000000))).length := by decide

/-- An output stage of epoch 1 on BP 0 at a tick. -/
def stageUp (now : Nat) : State :=
  { up with
    time := { up.time with tickA := now }, out := { State.reset.out with cfg := some cfg0, stages := [stage0] }
    tly := { up.tly with openEps := [{ openEp 1#64 with openTick := 300000000 }] } }

theorem meets_StageMonitor :
    (stageUp 300005601).awake = true ∧ (stageUp 300005601).bpStage (0 : Die).val = some stage0 ∧
    (stageUp 300005601).openTickOf stage0.epoch = some 300000000 ∧ ((stageUp 300005601).eng 24).running = none ∧
    (stageUp 300005601).inst? stage0.epoch stage0.ctx = none ∧ 300000000 + cfg0.outTicks + 600 < (stageUp 300005601).now ∧
    (stageUp 300005600).now ≤ 300000000 + cfg0.outTicks + 600 := by decide

/-- A read of an application core of CD3 in another die's memory, without an answer since a tick. -/
def pendUp (since : Nat) : State := up.mapFab (fun f =>
  { f with pend := [{ pend0 none with src := .core 31, die := some 3, addr := regBase + 0x10000000, since := since }] })

theorem meets_FabricAndLinkMonitors :
    quiet up = true ∧ up.awake = true ∧ up.dieRuns 3 = true ∧ (pendUp 299949999).trackerStuck 3 = true ∧ (pendUp 299950000).trackerStuck 3 = false ∧
    Tab.get 0 up.flt.upAt 3 + 30000 < up.now ∧ up.boot.startTick + 30000 < up.now ∧
    up.now ≤ Tab.get 0 (up.mapFlt (fun f => { f with upAt := [(3, 299970000)] })).flt.upAt 3 + 30000 ∧
    up.now ≤ (up.mapBoot (fun b => { b with startTick := 299970000 })).boot.startTick + 30000 ∧
    (pendUp 299989999).linkStuck 7 = true ∧ (pendUp 299990000).linkStuck 7 = false ∧ (∀ l < 8, up.linkOk l = true ∧ up.linkLive l = true ∧ Tab.get false up.flt.linkBad l = false) ∧
    Tab.get false (up.mapFlt (fun f => { f with linkBad := [(7, true)] })).flt.linkBad 7 = true ∧ up.islandOn false = true ∧
    up.flt.reeveHung = false ∧ (up.mapFlt (fun f => { f with reeveHung := true })).flt.reeveHung = true := by decide

theorem meets_DieReturns :
    up.thm.shutdown = false ∧ (∀ d ∈ [DieState.fenced, .inReset, .testing, .linking, .injecting], (up.setDie 3 d).dieState 3 = d ∧
      (up.setDie 3 d).awake = true) ∧ up.dieState 3 ≠ .fenced := by decide

theorem meets_UnitResetDone :
    quiet up = true ∧ up.pair.rehAt = none ∧ (3 : Fin 28).val < 4 ∧ (7 : Fin 28).val < 8 ∧
    (let s := (up.updHmc 3 (fun h => { h with state := 2#2 })).mapFlt (fun f => { f with stackRst := [(3, true)] })
     s.dieRuns 3 = true ∧ Tab.get false s.flt.stackRst 3 = true ∧ (s.hmcOf 3).state = 2#2 ∧ s.sec.replays = []) ∧
    (let s := up.mapPair (fun p => { p with rehAt := some (1, 27), pstate := 2#3 })
     s.pair.rehAt = some (1, (27 : Fin 28).val) ∧ s.pair.rehKind = 0#4 ∧ s.pair.pstate = 2#3 ∧ s.now ≤ 1 + 2000000000) := by decide

def suspect0 : Suspect := { unit := 23, cls := 1, sheaf := sheaf0 0 }

theorem meets_SuspectsAndLinks :
    (let s := up.mapFlt (fun f => { f with suspects := [suspect0] })
     quiet s = true ∧ s.flt.suspects = [suspect0] ∧ s.cx.insts = [] ∧ (s.eng suspect0.unit).running = none ∧ suspect0.unit < 24) ∧
    up.flt.suspects = [] ∧
    (let s := up.mapFlt (fun f => { f with links := [(7, true)] })
     quiet s = true ∧ s.awake = true ∧ s.linkOk 7 = false ∧ linkEnds 7 = (3, 4) ∧ s.dieRuns (linkDie 7) = true) := by decide

/-! The Denpa link and the pair's timers. -/

def dnpUp (st : Nat) (f : DnpS → DnpS) (p : PairS → PairS) : State := (up.mapDnp (fun d => f { d with state := st })).mapPair p
def sent0 (ch t : Nat) : TxFrame := { fseq := 0xFFF#12, ch := ch, payload := [1#8], sent := t }

theorem meets_DenpaTraining :
    (dnpUp 1 id id).dnpOn = true ∧ (dnpUp 1 id id).dnp.state = 1 ∧
    (let s := dnpUp 1 id (fun p => { p with twin := some (1#64, 0#8) })
     s.pair.twin.isSome = true ∧ s.pair.pstate ≠ 3#3 ∧ s.pair.pstate ≠ 4#3 ∧ s.pair.rehAt = none) ∧ (dnpUp 1 id id).pair.twin = none ∧
    (dnpUp 3 (fun d => { d with changed := 2000000 }) id).dnp.changed + 1000000 ≤ (dnpUp 3 id id).time.dnp ∧
    (dnpUp 3 id id).time.dnp < (dnpUp 3 (fun d => { d with changed := 2000001 }) id).dnp.changed + 1000000 ∧
    (dnpUp 0 (fun d => { d with changed := 2990000 }) id).dnp.changed + 10000 ≤ (dnpUp 0 id id).time.dnp ∧
    (dnpUp 0 id id).time.dnp < (dnpUp 0 (fun d => { d with changed := 2990001 }) id).dnp.changed + 10000 := by decide

theorem meets_DenpaFrameTx :
    (dnpUp 2 id id).dnpOn = true ∧ (dnpUp 2 (fun d => { d with lastTx := 2999996 }) id).dnp.lastTx + 4 ≤ (dnpUp 2 id id).time.dnp ∧
    (dnpUp 2 (fun d => { d with replay := [sent0 3 0] }) id).dnp.replay = sent0 3 0 :: [] ∧
    (dnpUp 2 (fun d => { d with out := [(3, [1#8])], credits := [(3, 1)] }) id).dnp.ready = some 3 ∧ (dnpUp 2 id id).dnp.ready = none ∧
    (dnpUp 2 id id).dnp.replay = [] ∧ (dnpUp 2 id id).time.dnp < (dnpUp 2 (fun d => { d with lastTx := 2999997 }) id).dnp.lastTx + 4 := by decide

/-- A frame with its own CRC plus `bad`. -/
def dframe0 (ch : BitVec 4) (fseq : BitVec 12) (bad : BitVec 32) : DFrame :=
  let f : DFrame := { ch := ch, fseq := fseq, ackSeq := 0xFFF#12, nak := false, payload := [], crc := 0#32 }
  { f with crc := crc32 (frameBytes f.ch.toNat f.fseq.toNat f.ackSeq.toNat f.nak f.payload) + bad }

theorem meets_DenpaFrameRx :
    calm (dnpUp 2 id id) = true ∧ (dframe0 15#4 0#12 0#32).nak = false ∧
    (dnpUp 2 id id).dnp.unacked = [] ∧ (dnpUp 2 (fun d => { d with unacked := [sent0 1 0] }) id).dnp.unacked = sent0 1 0 :: [] ∧
    (sent0 1 0).fseq = (dframe0 15#4 0#12 0#32).ackSeq ∧ (dframe0 3#4 1#12 0#32).fseq = (dnpUp 2 id id).dnp.rxSeq + 1 ∧
    (dframe0 3#4 2#12 0#32).fseq ≠ (dnpUp 2 id id).dnp.rxSeq + 1 ∧ (dframe0 3#4 1#12 0#32).ch ≠ 15#4 ∧
    (dnpUp 2 (fun d => { d with crcRun := 2 }) id).dnp.crcRun < 3 := by decide

theorem meets_DenpaCrc (ch : BitVec 4) (q : BitVec 12) :
    (let f := dframe0 ch q 0#32
     f.crc = crc32 (frameBytes f.ch.toNat f.fseq.toNat f.ackSeq.toNat f.nak f.payload)) ∧
    (let f := dframe0 ch q 1#32
     f.crc ≠ crc32 (frameBytes f.ch.toNat f.fseq.toNat f.ackSeq.toNat f.nak f.payload)) := by
  refine ⟨?_, ?_⟩
  · simp [dframe0]
  · simp only [dframe0]
    bv_omega

def lossUp (p : BitVec 3) : State :=
  dnpUp 2 (fun d => { d with crcRun := 3, unacked := [sent0 1 2997999], starved := [(3, some 2900000)] }) (fun x => { x with pstate := p })

theorem meets_DenpaLinkFault :
    (∀ p ∈ [0#3, 2#3], calm (lossUp p) = true ∧ (lossUp p).linkUp = true ∧ (lossUp p).dnpOn = true ∧ 3 ≤ (lossUp p).dnp.crcRun ∧
      (∃ x ∈ (lossUp p).dnp.unacked, x.sent + 2000 < (lossUp p).time.dnp) ∧ Tab.get none (lossUp p).dnp.starved 3 = some 2900000 ∧
      2900000 + 100000 ≤ (lossUp p).time.dnp ∧ (lossUp p).pair.pstate = p) ∧
    (∀ x ∈ [sent0 1 2998000], (dnpUp 2 id id).time.dnp ≤ x.sent + 2000) ∧ Tab.get none (dnpUp 2 id id).dnp.starved 3 = none := by decide

def pairUp (st : BitVec 3) (p : PairS → PairS) : State := dnpUp 2 id (fun x => p { x with pstate := st })

def goneUp (st : BitVec 3) : State := pairUp st (fun p => { p with twinHb := some 299800000, lastEdge := some 299710001 })
def silentUp (st : BitVec 3) : State := pairUp st (fun p => { p with lastEdge := some 299710000 })

theorem meets_RoleHbTimers :
    calm (pairUp 0#3 id) = true ∧ (pairUp 0#3 id).roleOn = true ∧ (pairUp 0#3 id).pair.lastHb + 10000 ≤ (pairUp 0#3 id).now ∧ (pairUp 0#3 id).linkUp = true ∧
    (pairUp 0#3 id).now < (pairUp 0#3 (fun p => { p with lastHb := 299990001 })).pair.lastHb + 10000 ∧
    (∀ st ∈ [1#3, 2#3], (goneUp st).roleOn = true ∧ (goneUp st).pair.twinHb = some 299800000 ∧ 299800000 + 200000 ≤ (goneUp st).now ∧
      (goneUp st).pair.lastEdge = some 299710001 ∧ (goneUp st).now < 299710001 + 290000 ∧ (goneUp st).tly.openEps = [] ∧
      (goneUp st).cmds.active = [] ∧ (goneUp st).pair.carried = [] ∧ (goneUp st).pair.swapAt = none ∧ (goneUp st).pair.pstate = st) ∧
    up.now < 299800001 + 200000 := by decide

theorem meets_AliveTimers :
    up.roleOn = true ∧ up.canCmd = true ∧ up.pair.lastTog + 50000 ≤ up.now ∧
    up.now < (pairUp 0#3 (fun p => { p with lastTog := 299950001 })).pair.lastTog + 50000 ∧
    (up.mapFlt (fun f => { f with reeveHung := true })).canCmd = false ∧ 1000 ≤ up.now ∧ true ≠ up.pair.aliveIn ∧ false = up.pair.aliveIn ∧
    (∀ st ∈ [3#3, 4#3, 5#3], calm (silentUp st) = true ∧ (silentUp st).roleOn = true ∧ (silentUp st).aliveSilent = true ∧
      (silentUp st).pair.pstate = st ∧ (silentUp st).seesTwin = false) ∧
    ((pairUp 4#3 id).pair.lastEdge = none ∧ ((pairUp 4#3 id).mapTly (fun t => { t with readyTick := some 0 })).aliveSilent = true) ∧
    (pairUp 5#3 (fun p => { p with lastEdge := some 299710001 })).aliveSilent = false ∧
    (let s := pairUp 5#3 (fun p => { p with edgeIn := true, since := 299710000 })
     calm s = true ∧ s.pair.edgeIn = true ∧ s.pair.since + 290000 ≤ s.now ∧ s.seesTwin = false) ∧ (pairUp 5#3 id).pair.edgeIn = false := by decide

/-- A standby with a commanding twin; the kind of injection is given by its mask. -/
def rehUp (mask : BitVec 16) : State :=
  { (pairUp 2#3 (fun p => { p with twinHb := some 299999999, twinState := 1#8, twinCan := true, mask := mask.setWidth _, rehNow := true })) with
    cx := (up.updEng 0 (fun e => { e with enabled := true })).cx }

theorem meets_Rehearsals :
    (∀ k ∈ [0, 1, 2, 4, 5], (rehUp (BitVec.ofNat 16 (2 ^ k))).rehMay = true ∧ ((rehUp (BitVec.ofNat 16 (2 ^ k))).rehPick).map (·.1) = some k) ∧
    (let s := (rehUp 8#16).updHmc 3 (fun h => { h with state := 2#2 })
     s.rehMay = true ∧ s.rehPick = some (3, 3)) ∧ calm up = true ∧ up.rehMay = false ∧
    ((up.mapPair (fun p => { p with rehAt := some (0, 27) })).mapTly id).pair.rehAt = some (0, 27) ∧
    0 + 2000000000 < ({ up with time := { up.time with tickA := 2000000001 } } : State).now ∧ up.pair.rehAt = none := by decide

/-! Messages of the twin. -/

theorem meets_LinkMessages :
    calm (pairUp 0#3 id) = true ∧ (pairUp 0#3 id).linkUp = true ∧ 1 ≤ (3#8 : BitVec 8).toNat ∧ (3#8 : BitVec 8).toNat ≤ 3 ∧ 3 < (4#8 : BitVec 8).toNat ∧
    (0#8 : BitVec 8).toNat = 0 ∧ (dnpUp 1 id id).dnpOn = true ∧ calm (dnpUp 1 id id) = true ∧ 1#64 ≠ (dnpUp 1 id id).pair.serial ∧
    0#64 = (dnpUp 1 id id).pair.serial ∧ (2#8 : BitVec 8) ≠ 1#8 := by decide

def idleUp (sn : Nat) : State := pairUp 4#3 (fun p => { p with serial := 2#64, twin := some (BitVec.ofNat 64 sn, 0#8), hbSent := true })

theorem meets_RoleMessages :
    (pairUp 0#3 id).ch1On = true ∧
    (∀ sn ∈ [1, 3], calm (idleUp sn) = true ∧ (idleUp sn).ch1On = true ∧ (idleUp sn).pair.pstate = 4#3 ∧ (idleUp sn).pair.hbSent = true ∧
      (idleUp sn).pair.twin = some (BitVec.ofNat 64 sn, 0#8) ∧ (idleUp sn).canCmd = true ∧ (idleUp sn).tly.opened = 0#64 ∧ (idleUp sn).tly.configGen = 0#64) ∧
    (2#64).toNat < (3#64).toNat ∧ (1#64).toNat < (2#64).toNat ∧
    (let s := pairUp 2#3 (fun p => { p with twinState := 1#8 })
     calm s = true ∧ s.pair.pstate = 2#3 ∧ s.pair.twinState = 1#8) ∧
    (∀ st ∈ [0#3, 2#3, 5#3], calm (pairUp st id) = true ∧ (pairUp st id).pair.pstate = st ∧ (pairUp st id).ch1On = true ∧ (pairUp st id).canCmd = true) ∧
    (pairUp 2#3 id).pair.earlyTwin = [] ∧ (pairUp 2#3 id).contributors (BitVec.allOnes 64) = [] ∧
    (((pairUp 2#3 id).mapTly (fun t => { t with openEps := [openEp 1#64] })).openEp? 1#64).isSome = true := by decide +kernel

/-- The body of a command that needs no data, or names a passed epoch. -/
def carry0 (fl : Byte) : List Byte := leBytes 2 129 ++ leBytes 2 7 ++ [0#8, 0#8, fl] ++ List.replicate 249 0#8
def stayUp (f : PairS → PairS) : State :=
  (pairUp 2#3 f).mapTly (fun t => { t with sched := some { mode := 2, period := 0, trigger := 0, deadline := 10000, start := 0 } })

theorem meets_CarriedCommands :
    calm (stayUp id) = true ∧ (stayUp id).ch2On = true ∧ (stayUp id).pair.pstate = 2#3 ∧ (stayUp id).pair.cfgBodies = [] ∧
    (stayUp id).pair.cfgGot < (1#64 : BitVec 64).toNat ∧ (1#64 : BitVec 64).toNat ≤ (stayUp (fun p => { p with cfgGot := 1 })).pair.cfgGot ∧
    ((stayUp id).epochBad (carry0 1#8)).isSome = true ∧ (stayUp id).epochBad (carry0 0#8) = none ∧
    (match (stayUp id).validate { (stayUp id).actOf 15 (carry0 0#8) with remote := true } with | .ok _ => true | .error _ => false) = true ∧
    cmdClass (bodyOpcode (carry0 0#8)) = some .epoch ∧ (stayUp id).scheduled = true ∧ quiet (stayUp id) = true ∧ (stayUp id).cmds.active = [] ∧
    (stayUp (fun p => { p with carried := [{ slot := 15, seq := 7#16 }] })).pair.carried = [{ slot := 15, seq := 7#16 }] ∧
    (pairUp 0#3 id).pair.carried = [] ∧ ((stayUp id).updHmc 3 (fun h => { h with state := 2#2 })).judgeRange whoReeve 0x1200000000 64 = none := by
  decide +kernel

/-- Epoch 1 is open here, or its open event is held. -/
def agreeUp (st : BitVec 3) (f : TwinEp → TwinEp) (known : List Nat) : State :=
  { pairUp st id with
    hwa := { up.hwa with known := known }, tly := { up.tly with opened := 1#64, openEps := [{ openEp 1#64 with paired := true, twin := f TwinEp.init }] } }
def heldOpen : State := pairUp 1#3 (fun p => { p with openHeld := [({ epoch := 1#64, deadline := 10000, paired := true, first := true, apply := [] }, 0)] })

/-- Epoch 1 has ended here and waits for its twin. -/
def waitEp : OpenEp := { openEp 1#64 with paired := true, doneTick := some 0 }
def waitUp : State := (agreeUp 1#3 id []).mapTly (fun t => { t with openEps := [waitEp] })

def evUp (st : BitVec 3) (known : List Nat) : State := agreeUp st (fun t => { t with evidenceSent := some (if known = [] then 0 else 1) }) known

theorem meets_AgreementMessages :
    heldOpen.ch2On = true ∧ heldOpen.openEp? 1#64 = none ∧ (∃ h ∈ heldOpen.pair.openHeld, h.1.epoch = 1#64) ∧ heldOpen.withheldOwn 1#64 = false ∧
    commandsIdle heldOpen = true ∧ heldOpen.tly.openEps = [] ∧
    waitUp.ch2On = true ∧ waitsForTwin waitUp waitEp = true ∧ waitEp.n = 1#64 ∧ waitEp.twin.inputSent = false ∧ waitEp.digest = none ∧
    waitEp.twin.evidenceSent = none ∧
    (agreeUp 1#3 (fun t => { t with inputSent := true }) []).tly.openEps.map (fun e => (e.twin.inputSent, e.twin.inputAgreed)) = [(true, none)] ∧
    (agreeUp 1#3 (fun t => { t with inputSent := true }) []).cx.insts = [] ∧
    (∀ x ∈ [(1#3, [], 0), (2#3, [], 0), (1#3, [5], 3), (2#3, [5], 3)], (evUp x.1 x.2.1).ch2On = true ∧ (evUp x.1 x.2.1).pair.pstate = x.1 ∧
      (evUp x.1 x.2.1).tly.openEps.map (fun e => (e.twin.evidenceSent.map evLevel, e.twin.resolved, evLevel ((evUp x.1 x.2.1).evidenceWord e))) =
        [(some x.2.2, none, x.2.2)]) ∧ evLevel 1 = 3 ∧ evLevel 0 = 0 ∧ evLevel 0x10 = 1 := by decide

theorem meets_JoinMessages :
    calm (pairUp 0#3 id) = true ∧ (pairUp 0#3 id).ch2On = true ∧ (pairUp 0#3 id).cmds.store = [] ∧ (pairUp 2#3 id).pair.pstate = 2#3 ∧
    (pairUp 0#3 (fun p => { p with joinRun := true })).pair.joinRun = true ∧ (pairUp 0#3 id).pair.joinRun = false ∧
    (let s := pairUp 3#3 (fun p => { p with joinSent := true })
     calm s = true ∧ s.ch2On = true ∧ s.pair.pstate = 3#3 ∧ s.pair.joinSent = true) ∧
    (0xFFFFFFFF#32 : BitVec 32).toNat + [1#8].length ≠ (0#32 : BitVec 32).toNat := by decide

/-- Stream 63 is the twin's; its channel 0 copies. -/
def fwdUp (st : BitVec 3) (x : IngChan) : State :=
  (pairUp st id).updStream 63 (fun t => { t with table := some (ingTable0 [entry0 0 2]), chans := [(0, x)] })

theorem meets_ForwardedSamples :
    (let s := fwdUp 0#3 liveChan
     calm s = true ∧ s.isLocal (63 : Fin 64).val = false ∧ s.tableOn 63 = some (ingTable0 [entry0 0 2]) ∧
     (ingTable0 [entry0 0 2]).chans[(0 : Fin 8).val]? = some chan0 ∧ s.chan 63 0 = liveChan ∧ s.linkUp = true ∧ s.ingestOn = true ∧
     unit0 ≠ .badHeader ∧ (chanView chan0 unit0).map (fun v => (entry0 0 2).cond' v) = some true ∧ liveChan.fault = false ∧
     (ingTable0 [entry0 0 2]).states[liveChan.cur]? = some (entry0 0 2) ∧ (entry0 0 2).consT = true ∧ (entry0 0 2).action = 2 ∧
     1#64 ≠ noTag ∧ s.isRole = true ∧ s.isTrigger 63 0 = false) ∧
    (let x := { IngChan.init with live := some { sample0 with epoch := noTag } }
     (fwdUp 0#3 x).ch1On = true ∧ (fwdUp 0#3 x).chan 63 0 = x ∧ x.untagged = [] ∧ ({ sample0 with epoch := noTag } : IngSample).ended = false ∧
     chan0.batch = false ∧ x.ep? 1#64 = none ∧ x.closedTo.toNat < 1 ∧ (fwdUp 0#3 x).tly.opened.toNat < 1) ∧
    (let x := { IngChan.init with eps := [landed0] }
     let seen := (fwdUp 2#3 x).mapPair (fun p => { p with twinHb := some 299800001 })
     seen.closesSelf 63 = false ∧ calm seen = true ∧ seen.linkUp = true ∧ seen.chan 63 0 = x ∧ seen.chanCfg 1#64 63 0 = some chan0 ∧ calm (fwdUp 0#3 x) = true ∧ (fwdUp 0#3 x).closesSelf 63 = true ∧ (fwdUp 1#3 x).linkUp = true ∧
     (fwdUp 1#3 x).chanCfg 1#64 63 0 = some chan0 ∧ x.fault = false ∧ x.ep? 1#64 = some landed0 ∧ landed0.closed = false ∧ landed0.cause = none ∧
     landed0.sample.isSome = true ∧ x.live = none) := by decide +kernel

/-! ## Ill-formed commands: one for each check -/

theorem test_wf_opcTableWrite : Instr.wf (.opcTableWrite hdr0 0#8 (List.replicate 15 (0#32, 0#32))) = false := by decide
theorem test_wf_slotBodyWrite : Instr.wf (.slotBodyWrite (.core 0) 0 255 [0#8, 0#8]) = false := by decide
theorem test_wf_fabricPostedWrite : Instr.wf (.fabricPostedWrite (fabReq0 (.core 0) 0 .b4) [0#8, 0#8, 0#8]) = false := by decide
theorem test_wf_fabricAckWrite : Instr.wf (.fabricAckWrite (fabReq0 (.core 0) 0 .b8) [0#8]) = false := by decide
theorem test_wf_thermalSample : Instr.wf (.thermalSample 4 (List.replicate 12 (0, 0))) = false := by decide
theorem test_wf_thermalEvaluation : Instr.wf (.thermalEvaluation true [none, none, none]) = false := by decide
theorem test_wf_telemetryRound : Instr.wf (.telemetryRound (List.replicate 16 none) [none]) = false := by decide
theorem test_wf_msgOpen : Instr.wf (.msgOpen 1#64 0#32 true true (List.replicate 17 (0#8, 0#16))) = false := by decide
theorem test_wf_msgCfg : Instr.wf (.msgCfg 0 [0#8] 0#64) = false := by decide
theorem test_wf_msgInput : Instr.wf (.msgInput 1#64 0#32 (List.replicate 47 0#8)) = false := by decide
theorem test_wf_msgDigest : Instr.wf (.msgDigest 1#64 true 0#32 (List.replicate 49 0#8)) = false := by decide
theorem test_wf_hbmReadBurstResult : Instr.wf (.hbmReadBurstResult 1 0#40 0 0 .sev0) = false := by decide
theorem test_wf_accepts : Instr.wf (.fabricAckWrite (fabReq0 (.core 0) 0 .b4) [0#8, 0#8, 0#8, 0#8]) = true := by decide

/-- The table gives no row any bits, so no word spells a command. -/
theorem test_no_word_spells_a_command (n w : Nat) : decodeTableWord n w = none := rfl
end Sys2Proof.Tests
end

section
/-! The mailbox block (R59, R63 to R66, R72). SLOT_TAKE also hands over an ended output stage whose twin has left (R293), which an
empty doorbell order queue does not prevent. -/

namespace Sys2Proof.Machine

/-! ## SLOT_TAKE with nothing to take -/

section
variable {s : State}

theorem openEp?_of_noOpenEpoch (h : s.tly.openEps = []) (n : BitVec 64) : s.openEp? n = none := by
  simp [State.openEp?, h]

/-- No stage awaits its hand-over while no epoch is open (R293). -/
theorem retryOutputs_of_noOpenEpoch (h : s.tly.openEps = []) : s.retryOutputs = s := by
  simp [State.retryOutputs, openEp?_of_noOpenEpoch h]

theorem forgetCarried_of_noneCarried (h : s.pair.carried = []) : s.mapPair (fun p => { p with carried := [] }) = s := by
  rw [← h]; rfl

theorem uncarry_of_noneActive (h : s.cmds.active = []) : s.uncarry = s := by
  simp [State.uncarry, h]

theorem nextTake_of_emptyQueue (h : s.mbx.order = []) : s.nextTake = none := by
  simp [State.nextTake, h]

/-- The clause of the empty queue with the premise that it lacks: no epoch is open. -/
theorem slotTake_emptyQueue_of_noOpenEpoch (ho : s.tly.openEps = []) (hq : s.mbx.order = []) (hc : s.pair.carried = [])
    (ha : s.cmds.active = []) : exec .slotTake s = .next s := by
  have hs : s.carryCheck = s := by
    simp [State.carryCheck, retryOutputs_of_noOpenEpoch ho, forgetCarried_of_noneCarried hc, uncarry_of_noneActive ha]
  have ht : s.take = s := by simp [State.take, hs, nextTake_of_emptyQueue hq]
  exact congrArg Host.Outcome.next ht

end

/-! ## A commander whose twin leaves while an output stage awaits it -/

/-- A trajectory output of context 5 on its first node. -/
def loneTraj : TrajCfg :=
  { ctx := 5, node := 0, outTicks := 5000, lMax := 0, nextMax := 1, smoothIters := 1, staleMs := 500, lambda := 0#32, vMax := 0#32,
    kappaMax := 0#32, krateMax := 0#32, jerkMax := 0#32, mrpDecel := 0#32, mrpJerk := 0#32, contMinMs := 100, mrpPeriod := 0, vk := [],
    accUp := [], accDn := [] }

/-- The output stage of epoch 1 has ended after one valid step. -/
def endedStage : Stage :=
  { epoch := 1#64, ctx := 5, bp := 0, started := true, cut := false, ended := true, slot := 0, setAddr := granaryBase,
    outAddr := granaryBase + 256, latch := none, stale := false, cutTick := 0
    steps := [{ cand := some (0, 0, 0), fail := 0, newer := false, horizon := false, points := [], baseEp := 0 }] }

/-- Epoch 1 is open in both modules, and context 5 is still to complete. -/
def pairedEpoch : OpenEp :=
  { n := 1#64, openTick := 0, deadline := 10000, paired := true, shadow := false, ctxs := [5], waiting := [5], withhold := 0#32,
    goldDefer := false, edge := false, fallback := false, duty := false, failover := false, cmds := [], configGen := 0#64,
    doneTick := none, digest := none, results := [], selCase := 0, traj := [], trajMapEpoch := 0#64, err := ⟨0, 0, 0, 0, 0⟩,
    corrSeen := false, chaff := 0, states := [], beats := [], dieErrs := [], twin := TwinEp.init }

/-- The commander awaits its twin's P for the ended stage (R293); bank 0 holds the stage's inputs. -/
def awaitsTwin : State :=
  { State.reset with
    boot := { State.reset.boot with started := true }
    mbx := { State.reset.mbx with ready := true, role := true, master := 1#2 }
    pair := { State.reset.pair with pstate := 1#3 }
    dnp := { State.reset.dnp with state := 2 }
    flt := { State.reset.flt with dies := [(0, .running)] }
    grn := { State.reset.grn with banks := [(0, { Bank.init with owner := 5#7, pstate := 0#2 })] }
    out := { State.reset.out with cfg := some loneTraj, stages := [endedStage] }
    tly := { State.reset.tly with opened := 1#64, openEps := [pairedEpoch] } }

/-- The link's reference clock fails (Table 20-7), so the twin leaves and its P is awaited no more. -/
def twinLost : State := (awaitsTwin.refLoss 4).settle

theorem refclkLoss_awaitsTwin : exec (.refclkLoss 4) awaitsTwin = .next twinLost := rfl

/-- Nothing is queued, carried or ACTIVE, and the ended stage has not been handed over. -/
theorem twinLost_idle_with_stage :
    twinLost.mbx.order = [] ∧ twinLost.pair.carried = [] ∧ twinLost.cmds.active = [] ∧ twinLost.out.stages = [endedStage] := by
  decide +kernel

/-- SLOT_TAKE hands the stage's output over to the ledger. -/
theorem take_twinLost_handsOver : twinLost.take.out.stages = [] := by decide +kernel

/-- Refutes O19, by its clause of the empty queue, which does not ask that no epoch be open: after the loss of the twin SLOT_TAKE
takes no slot, but the examination of the queue first hands over the output stage that has awaited the twin. -/
theorem not_mailboxBlock : ¬ Obligations.MailboxBlock := by
  unfold Obligations.MailboxBlock
  rintro ⟨-, -, -, -, -, -, emptyQueue, -, -⟩
  obtain ⟨hq, hc, ha, hstage⟩ := twinLost_idle_with_stage
  have htake : twinLost.take = twinLost := Host.Outcome.next.inj (emptyQueue twinLost hq hc ha)
  have hgone := take_twinLost_handsOver
  rw [htake, hstage] at hgone
  exact List.cons_ne_nil _ _ hgone

end Sys2Proof.Machine
end

section
/-! HBM controllers: open rows, the age of queue entries, refreshes and regulator windows (R253, R256, R259, R260). -/

namespace Sys2Proof.Machine

/-! ## One pseudo-channel at a time -/

section
variable {s : State} {k i : Nat}

@[simp] theorem Hmc.updPc_self (h : Hmc) (f : HPc → HPc) : (h.updPc i f).pc i = f (h.pc i) := Tab.get_upd_self _ _ _ _

@[simp] theorem State.updPc_pc_self (f : HPc → HPc) : ((s.updPc k i f).hmcOf k).pc i = f ((s.hmcOf k).pc i) := by
  rw [State.updPc, State.updHmc_self, Hmc.updPc_self]

theorem State.updPc_ne (f : HPc → HPc) {j : Nat} (h : j ≠ k) : (s.updPc k i f).hmcOf j = s.hmcOf j := State.updHmc_ne _ _ _ h

end

/-! ## Closing rows (R253, R259) -/

section
variable (p : HPc) (all : Bool) (b : Nat)

theorem HPc.refreshRow_closes : ((p.refreshRow all b).bank b).row = none := by
  cases all with
  | true => rfl
  | false => simp [HPc.refreshRow, HPc.bank]

theorem HPc.refreshRow_bank_ne {i : Nat} (h : i ≠ b) : (p.refreshRow false b).bank i = p.bank i := by
  simp [HPc.refreshRow, HPc.bank, Tab.get_upd_ne _ _ h]

/-- Closing rows touches nothing of a pseudo-channel but its banks. -/
theorem HPc.refreshRow_frame : p.refreshRow all b = { p with banks := (p.refreshRow all b).banks } := by
  cases all <;> rfl

@[simp] theorem HPc.refreshRow_queue : (p.refreshRow all b).queue = p.queue := by rw [HPc.refreshRow_frame]
@[simp] theorem HPc.refreshRow_debt : (p.refreshRow all b).debt = p.debt := by rw [HPc.refreshRow_frame]
@[simp] theorem HPc.refreshRow_nextBank : (p.refreshRow all b).nextBank = p.nextBank := by rw [HPc.refreshRow_frame]
@[simp] theorem HPc.refreshRow_refAt : (p.refreshRow all b).refAt = p.refAt := by rw [HPc.refreshRow_frame]

end

/-! ## Refreshes (R259) -/

section
variable {h : Hmc} {pc b : Nat}

theorem Hmc.refBlocked_of_noneWaiting (hq : h.atPc pc = []) : h.refBlocked pc b = false := by simp [Hmc.refBlocked, hq]

theorem Hmc.payRefresh_of_noneOwed (ho : (h.pc pc).owed = []) : h.payRefresh pc = h := by simp [Hmc.payRefresh, ho]

theorem Hmc.refreshCmd_of_free (hf : h.refBlocked pc b = false) :
    h.refreshCmd pc b = h.updPc pc (fun p => p.refreshRow h.refMode b) := by
  simp [Hmc.refreshCmd, hf]

theorem Hmc.refreshCmd_of_blocked (hb : h.refBlocked pc b = true) (hd : (h.pc pc).debt < 8) :
    h.refreshCmd pc b = h.updPc pc (fun p => { p with debt := p.debt + 1, owed := p.owed ++ [b] }) := by
  simp [Hmc.refreshCmd, hb, hd]

end

/-! ## Age of queue entries (R256) -/

/-- Changing the entry numbered `i` of a numbered queue is `List.modify`. -/
theorem map_zipIdx_at {α : Type} (l : List α) (i : Nat) (g : α → α) :
    l.zipIdx.map (fun e => if e.2 = i then g e.1 else e.1) = l.modify i g := by
  refine List.ext_getElem? fun j => ?_
  cases h : l[j]? <;> simp [List.getElem?_modify, h, eq_comm]

/-- The urgency by its thresholds T/2, 3T/4 and T. -/
theorem urgencyOf_thresholds (age t : Nat) :
    (2 * age < t → urgencyOf age t = 0) ∧ (t ≤ 2 * age → 4 * age < 3 * t → urgencyOf age t = 1) ∧
    (3 * t ≤ 4 * age → age < t → urgencyOf age t = 2) ∧ (t ≤ age → urgencyOf age t = 3) := by
  unfold urgencyOf
  split_ifs <;> omega

/-! ## Regulator windows (R260) -/

/-- With nothing waiting at the ports there is nothing to admit: every stack reads as before. -/
theorem State.hbmAdmit_of_noneHeld {s : State} {k : Nat} (hh : (s.hmcOf k).held = []) :
    s.hbmAdmit k = { s with hmc := (s.hbmAdmit k).hmc } ∧ ∀ j, (s.hbmAdmit k).hmcOf j = s.hmcOf j := by
  have hsame : { s.hmcOf k with held := [] } = s.hmcOf k := by rw [← hh]
  unfold State.hbmAdmit
  rw [hh]
  split
  · exact ⟨rfl, fun _ => rfl⟩
  · refine ⟨rfl, fun j => ?_⟩
    rw [hbmAdmitList, State.updHmc_hmcOf, hsame]
    split
    · next hj => rw [hj]
    · rfl

/-! ## What the commands do -/

section
variable {s : State} {k : Die} {pc : Fin 32} {b : Fin 48} {i : Fin 16}

theorem exec_hbmPageIdleExpiry_of_idle (ho : (((s.hmcOf k).pc pc).bank b).row.isSome = true)
    (hi : (((s.hmcOf k).pc pc).bank b).used + (s.hmcOf k).pageIdle.toNat ≤ s.time.hck) :
    exec (.hbmPageIdleExpiry k pc b) s = .next (s.updPc k pc (fun p => p.refreshRow false b)) := by
  refine congrArg Host.Outcome.next (if_pos ?_)
  simp [ho, hi]

theorem exec_hbmUrgencyStep : exec (.hbmUrgencyStep k pc i) s = .next (s.updPc k pc (fun p => { p with
    queue := p.queue.modify i (fun e => { e with urg := ((s.hmcOf k).refreshReq s.time.hck e).urg }) })) := by
  simp only [← map_zipIdx_at]; rfl

theorem exec_hbmAgePromotion : exec (.hbmAgePromotion k pc i) s = .next (s.updPc k pc (fun p => { p with
    queue := p.queue.modify i (fun e => { e with aged := ((s.hmcOf k).refreshReq s.time.hck e).aged }) })) := by
  simp only [← map_zipIdx_at]; rfl

theorem exec_hbmRefreshDue_of_due (hn : ((s.hmcOf k).pc pc).nextBank = b.val)
    (hd : (s.hmcOf k).refBase + ((s.hmcOf k).pc pc).refAt + (s.hmcOf k).refPeriod ≤ s.time.hck) :
    exec (.hbmRefreshDue k pc b) s = .next (s.updHmc k (fun h => ((h.payRefresh pc).refreshCmd pc b).updPc pc (fun p =>
      { p with nextBank := (p.nextBank + 1) % 48, refAt := p.refAt + h.refPeriod }))) := by
  refine congrArg Host.Outcome.next (if_pos ?_)
  simp [hn, hd]

theorem exec_hbmRfmRequest : exec (.hbmRfmRequest k pc b) s = .next (s.updHmc k (fun h => h.refreshCmd pc b)) := rfl

theorem exec_hbmRegulatorWindow_of_end (hw : (s.hmcOf k).winAt + 1024 ≤ s.time.hck) :
    exec (.hbmRegulatorWindow k) s = .next ((s.updHmc k Hmc.window).hbmAdmit k) :=
  congrArg Host.Outcome.next (if_pos hw)

end

/-- Settles O9: each command is one update of stack k, whose effect on the pseudo-channel the lemmas above give. -/
theorem hbmQueuesAndRefresh : Obligations.HbmQueuesAndRefresh := by
  unfold Obligations.HbmQueuesAndRefresh
  refine ⟨?pageIdle, ?urgency, ?age, ?refresh, ?rfm, ?rfmPostponed, ?window⟩
  case pageIdle =>
    intro k pc b s hopen hidle
    refine ⟨_, exec_hbmPageIdleExpiry_of_idle hopen hidle, rfl, ?_, ?_, fun i hi => ?_, fun i => State.updPc_ne _⟩ <;>
      rw [State.updPc_pc_self]
    · exact HPc.refreshRow_closes _ _ _
    · exact HPc.refreshRow_queue _ _ _
    · exact HPc.refreshRow_bank_ne _ _ hi
  case urgency =>
    rintro k pc i r age T s hr rfl rfl
    obtain ⟨h0, h1, h2, h3⟩ := urgencyOf_thresholds (s.time.hck - r.entered) ((s.hmcOf k).target r.port r.req.sc)
    refine ⟨_, _, exec_hbmUrgencyStep, rfl, ?_, h0, h1, h2, h3, fun j hj => ?_, fun j => State.updPc_ne _⟩
    · simp [hr, Hmc.refreshReq, Hmc.target]
    · simp [hj.symm]
  case age =>
    intro k pc i r s hr
    refine ⟨_, exec_hbmAgePromotion, rfl, ?_, fun j hj => ?_, fun j => State.updPc_ne _⟩
    · simp [hr, Hmc.refreshReq, Hmc.ageLim]
    · simp [hj.symm]
  case refresh =>
    intro k pc b s _ hnext hdue hnone howed
    refine ⟨_, exec_hbmRefreshDue_of_due hnext hdue, rfl, ?_, ?_, ?_, ?_, fun i => State.updHmc_ne _ _ _⟩ <;>
      rw [State.updHmc_self, Hmc.payRefresh_of_noneOwed howed, Hmc.refreshCmd_of_free (Hmc.refBlocked_of_noneWaiting hnone),
        Hmc.updPc_self, Hmc.updPc_self]
    · exact HPc.refreshRow_closes _ _ _
    · simp [hnext]
    · simp
    · simp
  case rfm =>
    intro k pc b s hfree
    refine ⟨_, exec_hbmRfmRequest, rfl, ?_, ?_, ?_, fun i => State.updHmc_ne _ _ _⟩ <;>
      rw [State.updHmc_self, Hmc.refreshCmd_of_free hfree, Hmc.updPc_self]
    · exact HPc.refreshRow_closes _ _ _
    · exact HPc.refreshRow_debt _ _ _
    · exact HPc.refreshRow_queue _ _ _
  case rfmPostponed =>
    intro k pc b s hblocked hdebt
    refine ⟨_, exec_hbmRfmRequest, rfl, ?_, ?_, ?_, fun i => State.updHmc_ne _ _ _⟩ <;>
      rw [State.updHmc_self, Hmc.refreshCmd_of_blocked hblocked hdebt, Hmc.updPc_self]
  case window =>
    intro k s hend hheld
    have hwindow : (s.updHmc k Hmc.window).hmcOf k = (s.hmcOf k).window := State.updHmc_self _ _ _
    have hstill : ((s.updHmc k Hmc.window).hmcOf k).held = [] := by rw [hwindow]; exact hheld
    obtain ⟨hframe, hsame⟩ := State.hbmAdmit_of_noneHeld hstill
    refine ⟨_, exec_hbmRegulatorWindow_of_end hend, hframe, ?_, ?_, fun pc => ?_, fun i hi => ?_⟩ <;> rw [hsame]
    · rw [hwindow]; rfl
    · rw [hwindow]; rfl
    · rw [hwindow]; rfl
    · exact State.updHmc_ne _ _ _ hi

end Sys2Proof.Machine
end

section
/-! The TAP (R502 to R504) and the release of RESET_N that ends EXTEST and WIREPAT before a start. -/

namespace Sys2Proof.Machine

/-! ## The start leaves the TAP and the pins alone (R441, R493) -/

section
variable {s : State} (e : JEntry)

/-- A journal entry goes to flash: of the module only the journal's halves and JFAIL may change (R444). -/
theorem State.journal_frame : s.journal e = { s with boot := { s.boot with
    half0 := (s.journal e).boot.half0, half1 := (s.journal e).boot.half1, jfail := (s.journal e).boot.jfail } } := by
  unfold State.journal
  split_ifs <;> rfl

@[simp] theorem State.journal_tap : (s.journal e).tap = s.tap := by rw [State.journal_frame]
@[simp] theorem State.journal_pins : (s.journal e).pins = s.pins := by rw [State.journal_frame]
@[simp] theorem State.journal_started : (s.journal e).boot.started = s.boot.started := by rw [State.journal_frame]
@[simp] theorem State.journal_step : (s.journal e).boot.step = s.boot.step := by rw [State.journal_frame]

end

section
variable {s : State}

/-- Step 1 is the package's alone: it begins with one journal entry (R441). -/
theorem State.beginStep_one : ∃ e, s.beginStep 1 =
    (s.mapBoot (fun b => { b with step := 1#8, stepTick := s.now, left := [(0, 0)] })).journal e := ⟨_, rfl⟩

@[simp] theorem State.beginStep_one_tap : (s.beginStep 1).tap = s.tap := by
  obtain ⟨e, h⟩ := s.beginStep_one; simp [h]

@[simp] theorem State.beginStep_one_pins : (s.beginStep 1).pins = s.pins := by
  obtain ⟨e, h⟩ := s.beginStep_one; simp [h]

@[simp] theorem State.beginStep_one_started : (s.beginStep 1).boot.started = s.boot.started := by
  obtain ⟨e, h⟩ := s.beginStep_one; simp [h]

@[simp] theorem State.beginStep_one_step : (s.beginStep 1).boot.step = 1#8 := by
  obtain ⟨e, h⟩ := s.beginStep_one; simp [h]

theorem State.mayStart_iff : s.mayStart = true ↔ s.pins.resetN = true ∧ s.pins.pg = 0x1FF#9 := by simp [State.mayStart]

@[simp] theorem State.begin_tap : s.begin.tap = s.tap := by
  unfold State.begin; split <;> simp

@[simp] theorem State.begin_pins : s.begin.pins = s.pins := by
  unfold State.begin; split <;> simp

theorem State.begin_starts (hmay : s.mayStart = true) (hnot : s.boot.started = false) :
    s.begin.boot.started = true ∧ s.begin.boot.step = 1#8 := by
  simp [State.begin, hmay, hnot]

end

/-! ## When EXTEST and WIREPAT act, and what they give way to (R503) -/

section
variable {s : State}

theorem State.tapActs_iff : s.tapActs = true ↔ s.pins.resetN = false ∧ s.pins.pg = 0x1FF#9 := by simp [State.tapActs]

theorem State.tapActs_eq_false (h : s.pins.resetN = true ∨ s.pins.pg ≠ 0x1FF#9) : s.tapActs = false := by
  rcases h with h | h <;> simp [State.tapActs, h]

theorem exec_extest_of_acts (h : s.tapActs = true) :
    exec .extest s = .next ((s.tapLoad 0x04#8).mapTap (fun t => { t with driven := true })) := congrArg _ (if_pos h)

theorem exec_extest_of_inactive (h : s.tapActs = false) : exec .extest s = exec .bypass s :=
  congrArg Host.Outcome.next (if_neg (by simp [h]))

theorem exec_wirepat_of_acts (h : s.tapActs = true) : exec .wirepat s = .next ((s.tapLoad 0x20#8).mapTap (fun t =>
    { t with wireRun := true, done := false, hbmFail := 0, loftFail := 0, iodFail := 0, ringFail := 0 })) :=
  congrArg Host.Outcome.next (if_pos h)

theorem exec_wirepat_of_inactive (h : s.tapActs = false) : exec .wirepat s = exec .bypass s :=
  congrArg Host.Outcome.next (if_neg (by simp [h]))

/-- RESET_N released with EXTEST or WIREPAT current: BYPASS takes its place before a start may begin. -/
theorem exec_resetNRelease_of_boundaryTest (h : s.tap.ir = 0x04#8 ∨ s.tap.ir = 0x20#8) :
    exec .resetNRelease s = .next ((s.tapLoad 0xFF#8).mapPins (fun p => { p with resetN := true })).begin := by
  have hleave : s.tapStart = s.tapLoad 0xFF#8 := if_pos h
  rw [← hleave]; rfl

end

/-! ## The end of a wire-pattern run (R504) -/

/-- Bit k of a 4-bit word summed from powers of two is its k-th flag. -/
theorem getLsbD_sumOfFlags (f : Nat → Bool) {k : Nat} (hk : k < 4) :
    (BitVec.ofNat 4 (((List.range 4).map (fun i => if f i then 2 ^ i else 0)).foldl (· + ·) 0)).getLsbD k = f k := by
  have hbits : ∀ a b c d : Bool, ∀ i : Fin 4, (BitVec.ofNat 4 ([if a then 2 ^ 0 else 0, if b then 2 ^ 1 else 0,
      if c then 2 ^ 2 else 0, if d then 2 ^ 3 else 0].foldl (· + ·) 0)).getLsbD i = [a, b, c, d].get i := by decide
  have hk' : [f 0, f 1, f 2, f 3].get ⟨k, hk⟩ = f k := by
    interval_cases k <;> rfl
  exact (hbits (f 0) (f 1) (f 2) (f 3) ⟨k, hk⟩).trans hk'

section
variable {s : State} {hbm loft iod ring : BitVec 4}

theorem State.wireEnd_of_idle (h : s.tap.wireRun = false) : s.wireEnd hbm loft iod ring = s := if_pos (by simp [h])

theorem State.wireEnd_of_running (h : s.tap.wireRun = true) : ∃ dead : BitVec 4,
    s.wireEnd hbm loft iod ring = s.mapTap (fun t => { t with
      wireRun := false, done := true, hbmFail := hbm ||| dead, loftFail := loft, iodFail := iod, ringFail := ring }) ∧
    ∀ k < 4, dead.getLsbD k = Tab.get false s.flt.refLost k :=
  ⟨_, if_neg (by simp [h]), fun _ => getLsbD_sumOfFlags (Tab.get false s.flt.refLost)⟩

end

/-- Settles O54: every instruction is one update of the TAP's registers, outside reset EXTEST and WIREPAT are BYPASS, and a start
that follows the release of RESET_N leaves the TAP as the release has set it. Where R502 to R504 are silent this is the model's
reading: BYPASS then shows in the instruction register (log entry 186), another instruction ends a run without a result and a run
clears the last result (187), SAMPLE's cells are free (188), and the bypass register captures 0 (189). -/
theorem tapInstructions : Obligations.TapInstructions := by
  unfold Obligations.TapInstructions
  refine ⟨?plain, ?preload, ?inReset, ?outside, ?wireDone, ?release⟩
  case plain => exact fun s => ⟨⟨_, rfl, rfl⟩, ⟨_, rfl, rfl⟩, ⟨_, rfl, rfl, rfl⟩⟩
  case preload => exact fun v s => ⟨_, rfl, rfl⟩
  case inReset =>
    intro s hreset hpg
    have hacts := State.tapActs_iff.mpr ⟨hreset, hpg⟩
    exact ⟨⟨_, exec_extest_of_acts hacts, rfl⟩, ⟨_, exec_wirepat_of_acts hacts, rfl, rfl⟩⟩
  case outside =>
    intro s h
    have hidle := State.tapActs_eq_false h
    exact ⟨⟨_, exec_extest_of_inactive hidle, rfl⟩, ⟨_, exec_wirepat_of_inactive hidle, rfl⟩⟩
  case wireDone =>
    intro hbm loft iod ring s
    constructor
    · intro hrun
      obtain ⟨dead, hend, hdead⟩ := State.wireEnd_of_running (hbm := hbm) (loft := loft) (iod := iod) (ring := ring) hrun
      refine ⟨_, congrArg Host.Outcome.next hend, rfl, rfl, fun k hk => ?_⟩
      simp [hdead k hk]
    · exact fun hidle => congrArg Host.Outcome.next (State.wireEnd_of_idle hidle)
  case release =>
    intro s hir
    refine ⟨_, exec_resetNRelease_of_boundaryTest hir, ?_, ?_, fun hnot hpg => ?_⟩
    · rw [State.begin_tap]; rfl
    · rw [State.begin_pins]; rfl
    · exact State.begin_starts (State.mayStart_iff.mpr ⟨rfl, hpg⟩) hnot

end Sys2Proof.Machine
end
